-- ==== Sys2Proof/Word.lean ====
section
/-! DEFINITION. The bit-vector types of the Uzoypol 880 (spec/00_scope.md, R4 to R6). -/

namespace Sys2Proof

/-- A byte (R5). -/
abbrev Byte := BitVec 8

/-- A 64-bit word: a `w` or `p` register, a system register, an address in a register (R132). -/
abbrev Word := BitVec 64

/-- A 512-bit vector register (R132). -/
abbrev Vec := BitVec 512

end Sys2Proof
end

