-- ==== Sys2Proof/Syntax.lean ====
section
/-! DEFINITION. The instructions of Finoth (R302) and the steps of the machine, as data: one inductive `Instr`
with one constructor for each row of spec/opcode_table.json. -/

namespace Sys2Proof

/-- A `w` register number (R133). -/
abbrev WReg := Fin 16
/-- A predicate register number (R133). -/
abbrev PReg := Fin 8
/-- A vector register number (R133). -/
abbrev VReg := Fin 32
/-- An affine register number (R133). -/
abbrev AfReg := Fin 8

/-- A herd register (R133, R204). -/
inductive HReg where
  | hm | hx | hf
  deriving DecidableEq, Repr

/-- The TYPE codes of R290; `nt` is code 0, no type. -/
inductive Ty where
  | nt | i8 | i16 | i32 | i64 | n8 | n16 | n32 | n64 | f16 | f32 | f64 | bf16 | e4m3 | e5m2 | e2m1
  | mxfp4 | mxfp8 | mxint8 | qx4 | qx8 | e8m0 | s12 | gz8
  deriving DecidableEq, Repr

/-- The scopes of R291. -/
inductive Scope where
  | slot | core | clu | die | dev | sys
  deriving DecidableEq, Repr

/-- The rounding modes of R291. -/
inductive Rm where
  | rne | rtz | rup | rdn | rna
  deriving DecidableEq, Repr

/-- The relations of `scmp` and `vcmp` (R295). -/
inductive Rel where
  | lt | le | eq | ne
  deriving DecidableEq, Repr

/-- The operations of `amo` (R295, R325). -/
inductive AmoOp where
  | add | and | or | xor | min | max | minn | maxn | xchg | fadd | famax
  deriving DecidableEq, Repr

/-- The ordering and scope of `amo` and `cas` (R295): no scope exactly when there is no ordering. -/
inductive AmoOrd where
  | plain
  | acq (sc : Scope)
  | rel (sc : Scope)
  | acqrel (sc : Scope)
  deriving DecidableEq, Repr

/-- The target forms of `push` (R319). -/
inductive PushForm where
  | mask | list
  deriving DecidableEq, Repr

/-- The immediate of an instruction with the length that carries it (R288). -/
inductive Imm where
  | i24 (v : BitVec 24)
  | i32 (v : BitVec 32)
  | i64 (v : BitVec 64)
  deriving DecidableEq, Repr

/-- The value of the immediate (R288). -/
def Imm.val : Imm → Word
  | .i24 v => v.signExtend 64
  | .i32 v => v.signExtend 64
  | .i64 v => v

/-- The base of an effective address: a register, or the PC when PCREL is set (R295, R303). -/
inductive MBase where
  | reg (a : WReg)
  | pc
  deriving DecidableEq, Repr

/-- The directions of `pmov` (R295, R348). -/
inductive PMove where
  | pp (d a : PReg)
  | pw (d : PReg) (a : WReg)
  | wp (d : WReg) (a : PReg)
  deriving DecidableEq, Repr

/-- The operations of `hmov` (R295, R371). -/
inductive HmovOp where
  | mov | or | and | andn
  deriving DecidableEq, Repr

/-- The register classes of `xmv` (R396). -/
inductive XClass where
  | w | p | v | af
  deriving DecidableEq, Repr

/-- The system registers of R135. -/
inductive SysReg where
  | wp | ctxn | locid | netcap | mode | qcfg | fpflags | pushst | rgn | afr | hslab | lrs | ptroot
  | afnext | aflim | pushq | pushref | lmcfg | rrcfg | rrptr | rrref | rtab0 | rtab1 | swin (i : Fin 8) | lease
  deriving DecidableEq, Repr

/-- Where a write of `MODE` comes from: `mts MODE, wa` (R269), or the firmware's own path, with the value. -/
inductive ModeSrc where
  | reg (a : WReg)
  | firmware (value : Word)
  deriving DecidableEq, Repr

/-- The accounting counters of R282. -/
inductive AcctReg where
  | waitns | runns | searchns | stealfail | stealok
  deriving DecidableEq, Repr

/-- The registers of the device register window that have no row of their own (R11): the debug control register
of a cluster (R274), the message log register of a core (R279), a core's per-core registers of R135, the droop
area of a die (R283), the lease length of a die (R62), and a word of local memory as the debug module reaches it
(R277). -/
inductive WinReg where
  | dbgctl (cluster : Nat)
  | nilog (core : Nat)
  | coreReg (core : Nat) (r : SysReg)
  | droopArea (die : Nat)
  | lease (die : Nat)
  | localWord (core off : Nat)   -- eight bytes of local memory, written by the debug module (R277)
  deriving DecidableEq, Repr

/-- The instructions and steps of the machine: one constructor for each row of the opcode table. They stand in
the order of the table, but for the rows that only the outside starts and those without operands, which stand last. -/
inductive Instr where
  /-- `ADD` (R304). Writes the wrapped sum of two w registers. -/
  | add (t : Ty) (d a b : WReg)
  /-- `SUB` (R304). Writes the wrapped difference of two w registers. -/
  | sub (t : Ty) (d a b : WReg)
  /-- `MUL` (R304). Writes the low n bits of the product. -/
  | mul (t : Ty) (d a b : WReg)
  /-- `MULH` (R304). Writes the high half of the signed product. -/
  | mulh (t : Ty) (d a b : WReg)
  /-- `MULHN` (R304). Writes the high half of the unsigned product. -/
  | mulhn (t : Ty) (d a b : WReg)
  /-- `DIV` (R304). Starts a signed division, truncated toward zero; the slot leaves the rotation for 24 cycles. -/
  | div (t : Ty) (d a b : WReg)
  /-- `DIVN` (R304). Starts an unsigned division; the slot leaves the rotation for 24 cycles. -/
  | divn (t : Ty) (d a b : WReg)
  /-- `REM` (R304). Starts a signed remainder that takes the dividend's sign. -/
  | rem (t : Ty) (d a b : WReg)
  /-- `REMN` (R304). Starts an unsigned remainder. -/
  | remn (t : Ty) (d a b : WReg)
  /-- `DIVISION_COMPLETE` (R304). After 24 cycles a division or remainder writes its result and the slot returns to the rotation. -/
  | divisionComplete (ctx : Nat)
  /-- `AND` (R304). Bitwise AND of two w registers. -/
  | and (t : Ty) (d a b : WReg)
  /-- `OR` (R304). Bitwise OR of two w registers. -/
  | or (t : Ty) (d a b : WReg)
  /-- `XOR` (R304). Bitwise XOR of two w registers. -/
  | xor (t : Ty) (d a b : WReg)
  /-- `ANDN` (R304). Bitwise AND of the first operand with the complement of the second. -/
  | andn (t : Ty) (d a b : WReg)
  /-- `SHL` (R304). Shifts left by the amount modulo the width. -/
  | shl (t : Ty) (d a b : WReg)
  /-- `SHR` (R304). Logical right shift by the amount modulo the width. -/
  | shr (t : Ty) (d a b : WReg)
  /-- `SRA` (R304). Arithmetic right shift by the amount modulo the width. -/
  | sra (t : Ty) (d a b : WReg)
  /-- `ROTR` (R304). Rotates right by the amount modulo the width. -/
  | rotr (t : Ty) (d a b : WReg)
  /-- `MIN` (R304). Writes the signed minimum. -/
  | min (t : Ty) (d a b : WReg)
  /-- `MAX` (R304). Writes the signed maximum. -/
  | max (t : Ty) (d a b : WReg)
  /-- `MINN` (R304). Writes the unsigned minimum. -/
  | minn (t : Ty) (d a b : WReg)
  /-- `MAXN` (R304). Writes the unsigned maximum. -/
  | maxn (t : Ty) (d a b : WReg)
  /-- `CLZ` (R305). Counts leading zero bits. -/
  | clz (t : Ty) (d a : WReg)
  /-- `CTZ` (R305). Counts trailing zero bits. -/
  | ctz (t : Ty) (d a : WReg)
  /-- `POPC` (R305). Counts set bits. -/
  | popc (t : Ty) (d a : WReg)
  /-- `MOV` (R305). Copies one w register to another. -/
  | mov (d a : WReg)
  /-- `SEXT` (R305). Extends the low bits of a w register by the signedness of the type. -/
  | sext (t : Ty) (d a : WReg)
  /-- `ADDI` (R306). Adds an immediate to a w register. -/
  | addi (t : Ty) (d a : WReg) (imm : Imm)
  /-- `LI` (R306). Loads an immediate into a w register. -/
  | li (d : WReg) (imm : Imm)
  /-- `LEA` (R306). Writes the effective address without any access or translation. -/
  | lea (d : WReg) (base : MBase) (imm : Imm)
  /-- `BFX` (R307). Extracts a bit field, zero- or sign-extended. -/
  | bfx (signed : Bool) (d a : WReg) (lsb : BitVec 6) (width : BitVec 7)
  /-- `BFI` (R307). Inserts a bit field into the destination. -/
  | bfi (d a : WReg) (lsb : BitVec 6) (width : BitVec 7)
  /-- `SEL` (R308). Selects one of two registers by whether a third is nonzero. -/
  | sel (d a b c : WReg)
  /-- `SCMP` (R309). Compares two scalars and writes 1 or 0. -/
  | scmp (t : Ty) (k : Rel) (d a b : WReg)
  /-- `B` (R310). Branches pc-relative when bit 0 of a predicate is 1. -/
  | b (p : PReg) (imm : Imm)
  /-- `BZ` (R310). Branches pc-relative when a w register is zero. -/
  | bz (a : WReg) (imm : Imm)
  /-- `BNZ` (R310). Branches pc-relative when a w register is nonzero. -/
  | bnz (a : WReg) (imm : Imm)
  /-- `J` (R310). Jumps pc-relative. -/
  | j (imm : Imm)
  /-- `JAL` (R310). Writes the return address and jumps pc-relative. -/
  | jal (d : WReg) (imm : Imm)
  /-- `LOOP` (R310). Decrements a counter and branches while it is nonzero. -/
  | loop (a : WReg) (imm : Imm)
  /-- `JR` (R311). Jumps to the address in a register. -/
  | jr (a : WReg)
  /-- `JALR` (R311). Writes the return address and jumps to the address in a register. -/
  | jalr (d a : WReg)
  /-- `LD` (R315). Plain load of a scalar, extended into a w register. -/
  | ld (t : Ty) (d : WReg) (base : MBase) (imm : Imm)
  /-- `ST` (R315). Plain store of a scalar. -/
  | st (t : Ty) (a : WReg) (imm : Imm) (b : WReg)
  /-- `LDA` (R316). Load followed by an acquire at a scope. -/
  | lda (t : Ty) (sc : Scope) (d a : WReg) (imm : Imm)
  /-- `STL` (R316). Release at a scope followed by a store. -/
  | stl (t : Ty) (sc : Scope) (a : WReg) (imm : Imm) (b : WReg)
  /-- `FENCE` (R317). A release followed by an acquire at a scope. -/
  | fence (sc : Scope)
  /-- `FENCE_REL` (R317). A release at a scope. -/
  | fenceRel (sc : Scope)
  /-- `FENCE_ACQ` (R317). An acquire at a scope. -/
  | fenceAcq (sc : Scope)
  /-- `RELEASE_COMPLETE` (R79). The issuing die's GT reaches the release timestamp, and the waiting context continues. -/
  | releaseComplete (ctx : Nat)
  /-- `LDF` (R318). Reads a full word, or registers as a waiter on an empty one. -/
  | ldf (d a : WReg) (imm : Imm)
  /-- `LDT` (R318). Takes a full word and empties it, or registers as a waiter. -/
  | ldt (d a : WReg) (imm : Imm)
  /-- `STF` (R318). Releases, writes a word, makes it full and serves its waiters. -/
  | stf (sc : Scope) (a : WReg) (imm : Imm) (b : WReg)
  /-- `CLRE` (R318). Makes a full/empty word empty. -/
  | clre (a : WReg) (imm : Imm)
  /-- `PUSH` (R320). Stores a value and then distributes the line to the target cores. -/
  | push (t : Ty) (form : PushForm) (a : WReg) (off : BitVec 32) (b c : WReg)
  /-- `PUSH_TOKEN_ARRIVAL` (R58). A pushed token reaches a target L1, which installs or refuses it and acknowledges. -/
  | pushTokenArrival (msg : Nat)
  /-- `PUSH_ACK_ARRIVAL` (R56). An install or refuse acknowledgement reaches the writer and updates PUSHST. -/
  | pushAckArrival (msg : Nat)
  /-- `PREF` (R321). Prefetch hint that requests a line without waiting. -/
  | pref (a : WReg) (imm : Imm)
  /-- `CWB` (R322). Writes the L1 line's owner token and data back to the home. -/
  | cwb (a : WReg) (imm : Imm)
  /-- `CINV` (R322). Returns every token of the L1 line to the home. -/
  | cinv (a : WReg) (imm : Imm)
  /-- `CFL` (R322). As cinv, then has the home write the dirty line to HBM. -/
  | cfl (a : WReg) (imm : Imm)
  /-- `AMO` (R325). Atomic read-modify-write with optional release and acquire. -/
  | amo (op : AmoOp) (t : Ty) (ord : AmoOrd) (d a b : WReg)
  /-- `CAS` (R326). Atomic compare-and-swap with optional ordering. -/
  | cas (t : Ty) (ord : AmoOrd) (d a b c : WReg)
  /-- `SMAP` (R328). Walks a range and maps a stash window. -/
  | smap (win : Fin 8) (size : BitVec 3) (a b : WReg)
  /-- `SUNMAP` (R329). Returns all of a window's tokens to their homes and clears V. -/
  | sunmap (win : Fin 8)
  /-- `SWB` (R329). Writes a window's owned lines back to their homes. -/
  | swb (win : Fin 8)
  /-- `VLD` (R332). Loads a whole vector register. -/
  | vld (t : Ty) (d : VReg) (a : WReg) (imm : Imm)
  /-- `VST` (R332). Stores a whole vector register. -/
  | vst (t : Ty) (a : WReg) (imm : Imm) (b : VReg)
  /-- `VLDS` (R332). Strided vector load. -/
  | vlds (t : Ty) (d : VReg) (a : WReg) (imm : Imm) (b : WReg)
  /-- `VGAT` (R334). Gathers elements through an index vector. -/
  | vgat (t : Ty) (d : VReg) (a : WReg) (b : VReg)
  /-- `VSCT` (R334). Scatters elements through an index vector in ascending order. -/
  | vsct (t : Ty) (a : WReg) (b c : VReg)
  /-- `VBC` (R335). Broadcasts a scalar to every element. -/
  | vbc (t : Ty) (d : VReg) (a : WReg) (p : Option PReg)
  /-- `VINS` (R335). Inserts a scalar into one element. -/
  | vins (t : Ty) (d : VReg) (a : WReg) (lane : BitVec 6)
  /-- `VEXT` (R335). Extracts one element into a w register. -/
  | vext (t : Ty) (d : WReg) (a : VReg) (lane : BitVec 6)
  /-- `VSLIDE` (R335). Slides elements down, filling with zero. -/
  | vslide (t : Ty) (d a : VReg) (n : BitVec 6)
  /-- `VPERM` (R335). Permutes elements by an index vector. -/
  | vperm (t : Ty) (d a b : VReg) (p : Option PReg)
  /-- `VADD` (R336). Element-wise add. -/
  | vadd (t : Ty) (rm : Rm) (d a b : VReg) (p : Option PReg)
  /-- `VSUB` (R336). Element-wise subtract. -/
  | vsub (t : Ty) (rm : Rm) (d a b : VReg) (p : Option PReg)
  /-- `VMUL` (R336). Element-wise multiply. -/
  | vmul (t : Ty) (rm : Rm) (d a b : VReg) (p : Option PReg)
  /-- `VMAX` (R336). Element-wise maximum. -/
  | vmax (t : Ty) (d a b : VReg) (p : Option PReg)
  /-- `VMIN` (R336). Element-wise minimum. -/
  | vmin (t : Ty) (d a b : VReg) (p : Option PReg)
  /-- `VFMA` (R337). Fused multiply-add with one rounding. -/
  | vfma (t : Ty) (rm : Rm) (d a b c : VReg) (p : Option PReg)
  /-- `VFMS` (R337). Fused multiply-subtract with one rounding. -/
  | vfms (t : Ty) (rm : Rm) (d a b c : VReg) (p : Option PReg)
  /-- `VABS` (R338). Element-wise absolute value. -/
  | vabs (t : Ty) (d a : VReg) (p : Option PReg)
  /-- `VNEG` (R338). Element-wise negation. -/
  | vneg (t : Ty) (d a : VReg) (p : Option PReg)
  /-- `VAND` (R339). Element-wise AND. -/
  | vand (t : Ty) (d a b : VReg) (p : Option PReg)
  /-- `VOR` (R339). Element-wise OR. -/
  | vor (t : Ty) (d a b : VReg) (p : Option PReg)
  /-- `VXOR` (R339). Element-wise XOR. -/
  | vxor (t : Ty) (d a b : VReg) (p : Option PReg)
  /-- `VSHL` (R339). Element-wise left shift. -/
  | vshl (t : Ty) (d a b : VReg) (p : Option PReg)
  /-- `VSHR` (R339). Element-wise logical right shift. -/
  | vshr (t : Ty) (d a b : VReg) (p : Option PReg)
  /-- `VSRA` (R339). Element-wise arithmetic right shift. -/
  | vsra (t : Ty) (d a b : VReg) (p : Option PReg)
  /-- `VCMP` (R340). Element-wise compare into a predicate. -/
  | vcmp (t : Ty) (k : Rel) (d : PReg) (a b : VReg) (p : Option PReg)
  /-- `VSEL` (R341). Element-wise select by a predicate. -/
  | vsel (t : Ty) (d a b : VReg) (p : PReg)
  /-- `VCVT` (R342). Element-wise type conversion. -/
  | vcvt (u t : Ty) (rm : Rm) (d a : VReg) (p : Option PReg)
  /-- `VRED` (R343). Sums the active elements in the fixed tree into a w register. -/
  | vred (t : Ty) (rm : Rm) (d : WReg) (a : VReg) (p : PReg)
  /-- `VCMPM` (R344). Evaluates the node outcomes of T trees into a predicate. -/
  | vcmpm (d : PReg) (a : VReg) (b : WReg) (depth : BitVec 3) (trees : BitVec 6)
  /-- `VLEAF` (R344). Walks each tree's outcome mask to its leaf slot. -/
  | vleaf (d : VReg) (a : PReg) (depth : BitVec 3) (trees : BitVec 6)
  /-- `VLUT` (R345). Looks up 16 table entries by index. -/
  | vlut (t : Ty) (d a : VReg) (b : WReg)
  /-- `VQUANT` (R347). Quantises 32 inputs into a block image. -/
  | vquant (t : Ty) (e5 : Bool) (rm : Rm) (d a : VReg) (p : Option PReg)
  /-- `VDEQ` (R347). Dequantises a block image into 32 f32 outputs. -/
  | vdeq (t : Ty) (e5 : Bool) (rm : Rm) (d a : VReg) (p : Option PReg)
  /-- `PAND` (R348). Predicate AND. -/
  | pand (d a b : PReg)
  /-- `POR` (R348). Predicate OR. -/
  | por (d a b : PReg)
  /-- `PXOR` (R348). Predicate XOR. -/
  | pxor (d a b : PReg)
  /-- `PNOT` (R348). Predicate NOT. -/
  | pnot (d a : PReg)
  /-- `PMOV` (R348). Moves between predicates, or between predicates and w registers. -/
  | pmov (m : PMove)
  /-- `ELAND_GRANT` (R170). A resource grants the head entry of a core's list in round robin, and the entry reads its operands. -/
  | elandGrant (quad : Nat) (tensor : Bool)
  /-- `VECTOR_RESULT_WRITE` (R171). A granted vector operation writes its results and flags 4 to 12 cycles after its grant. -/
  | vectorResultWrite (quad entry : Nat)
  /-- `TCFG` (R351). Writes the array configuration. -/
  | tcfg (d a : WReg)
  /-- `TCFG_CLAIM` (R352). Claims the array for the team, or waits, and configures it. -/
  | tcfgClaim (d a : WReg)
  /-- `TCFG_REL` (R351). Releases the array and starts its clearing. -/
  | tcfgRel (d a : WReg)
  /-- `ARRAY_RELEASE_DONE` (R172). The 512-cycle clearing of a released array ends, and a waiting claim proceeds. -/
  | arrayReleaseDone (quad : Nat)
  /-- `TLDW` (R353). Loads a weight tile into the shadow plane. -/
  | tldw (a : WReg)
  /-- `PLANE_READY` (R175). The shadow plane finishes loading and becomes READY, and the loading slot returns. -/
  | planeReady (quad entry : Nat)
  /-- `TSMETA` (R353). Loads sparsity metadata into the shadow store. -/
  | tsmeta (a : WReg)
  /-- `TSCQ` (R353). Appends weight-scale entries to the scale queue. -/
  | tscq (a : WReg) (count : BitVec 5)
  /-- `TMMA` (R356). Streams activation rows through the active plane into the accumulators. -/
  | tmma (a b : WReg)
  /-- `TENSOR_STEP_COMPLETE` (R177). A step's sums reach the accumulators 300 cycles after its last row, and its slot returns. -/
  | tensorStepComplete (quad entry : Nat)
  /-- `TZERO` (R356). Sets accumulator rows to +0. -/
  | tzero (a : WReg)
  /-- `TDRAIN` (R357). Converts accumulator rows and writes them to local memory, optionally with an amax atomic. -/
  | tdrain (t : Ty) (rm : Rm) (z : Bool) (amax : Option (Scope × WReg)) (a b : WReg)
  /-- `DRAIN_FLAG_DEPOSIT` (R156). A completed drain ORs its conversion flags into the issuer's FPFLAGS. -/
  | drainFlagDeposit (msg : Nat)
  /-- `RPT` (R359). Loads the repetition buffer and starts the sequence. -/
  | rpt (len : Fin 16) (reps : BitVec 12) (stride : Fin 8)
  /-- `SEQUENCER_PLACE` (R182). After the previous step's grant, the sequencer places the next staggered step in the core's list. -/
  | sequencerPlace (core : Nat)
  /-- `CPY` (R361). Checks a copy descriptor and places the copy on its channel. -/
  | cpy (a : WReg)
  /-- `GBIN` (R361). Checks a gbin descriptor and places the scatter on its channel. -/
  | gbin (a : WReg)
  /-- `OPERATION_ACCEPT` (R116). The cluster copy engine accepts a waiting operation, reads its descriptor and numbers it. -/
  | operationAccept (cluster : Nat)
  /-- `ENGINE_ELEMENT_DELIVER` (R122). The lead engine writes an element and the write pointer advances past it. -/
  | engineElementDeliver (cluster ch : Nat)
  /-- `COPY_COMPLETE` (R123). A copy completes and performs its status, timeline, fill and decrement actions. -/
  | copyComplete (cluster ch : Nat)
  /-- `ENGINE_FAULT` (R125). An engine meets a fault; the copy stops, the channel enters FAULT and FAULTOP is set. -/
  | engineFault (cluster ch : Nat)
  /-- `GBIN_EXECUTE` (R130). The table's streamer reserves overflow, places rows in bins and writes overflow records. -/
  | gbinExecute (cluster ch : Nat)
  /-- `BINR` (R362). Places a bin-table reset on a channel. -/
  | binr (a : WReg) (ch : Fin 32)
  /-- `BIN_RESET_EXECUTE` (R131). Once OVRES is zero, the reset clears OVCOUNT, BUMP and OVF. -/
  | binResetExecute (cluster ch : Nat)
  /-- `CPYCAN` (R362). Cancels every uncompleted operation of a channel. -/
  | cpycan (ch : Fin 32)
  /-- `CPYQ` (R363). Reads a channel's status. -/
  | cpyq (d : WReg) (ch : Fin 32)
  /-- `TLREAD` (R363). Reads a timeline's DONE value. -/
  | tlread (d : WReg) (tl : Fin 64)
  /-- `WPTR` (R363). Reads a channel's write pointer and acquires, or raises its recorded fault. -/
  | wptr (d : WReg) (ch : Fin 32)
  /-- `TLADV` (R364). Numbers a software operation on a timeline. -/
  | tladv (d : WReg) (tl : Fin 64)
  /-- `SOFTWARE_OPERATION_COMPLETE` (R364). A tladv operation completes once earlier writes have performed and their vt has been reached. -/
  | softwareOperationComplete (cluster tl n : Nat)
  /-- `TLWAIT` (R365). Waits until a timeline reaches a value, raises a latched fault, and then acquires. -/
  | tlwait (tl : Fin 64) (a : WReg)
  /-- `HINIT` (R369). Sets the query window and clears the herd registers. -/
  | hinit (a : WReg)
  /-- `HLD` (R370). Loads a herd register from memory. -/
  | hld (d : HReg) (a : WReg) (imm : Imm)
  /-- `HST` (R370). Stores a herd register to memory. -/
  | hst (a : WReg) (imm : Imm) (b : HReg)
  /-- `HMOV` (R371). Moves or combines herd registers. -/
  | hmov (op : HmovOp) (d a b : HReg)
  /-- `HPOP` (R372). Counts the members of a herd register. -/
  | hpop (d : WReg) (a : HReg)
  /-- `HNEXT` (R372). Finds the next member at or above a query number. -/
  | hnext (d : WReg) (a : HReg) (b : WReg)
  /-- `HCMP` (R373). Seals and divides the members by comparing their keys with a node key. -/
  | hcmp (t : Ty) (ge : Bool) (a b : WReg)
  /-- `HFOUND` (R374). Writes RESULT and DONE for the found members. -/
  | hfound (a : WReg)
  /-- `HSIDE` (R374). Adds to or sets a 16-bit slab field of every member. -/
  | hside (set : Bool) (a : WReg) (off : BitVec 6)
  /-- `HSPLIT` (R375). Releases and hands the split members to a new herd thread. -/
  | hsplit (d : WReg) (imm : BitVec 24)
  /-- `HMEET` (R376). Withdraws, then deposits into a matching entry or installs its own. -/
  | hmeet (d a : WReg)
  /-- `DEPOSIT_DELIVERY` (R143). An OR or SET deposit arrives and is applied to a context's register by number. -/
  | depositDelivery (msg : Nat)
  /-- `AFNEW` (R380). Makes an input form from an interval. -/
  | afnew (d : AfReg) (a b : WReg)
  /-- `AFADD` (R381). Adds two forms. -/
  | afadd (d a b : AfReg)
  /-- `AFSUB` (R381). Subtracts two forms. -/
  | afsub (d a b : AfReg)
  /-- `AFSCL` (R381). Scales a form by a scalar. -/
  | afscl (d a : AfReg) (b : WReg)
  /-- `AFADDC` (R381). Adds a scalar to a form. -/
  | afaddc (d a : AfReg) (b : WReg)
  /-- `AFMUL` (R381). Multiplies two forms, minting one symbol for the remainder. -/
  | afmul (d a b : AfReg)
  /-- `AFRELU` (R381). Bounds max(x, 0) of a form. -/
  | afrelu (d a : AfReg)
  /-- `AFCOND` (R381). Condenses small terms into one new symbol. -/
  | afcond (d a : AfReg) (b : WReg) (cap : BitVec 4)
  /-- `AFRNG` (R381). Writes the range of a form. -/
  | afrng (t : Ty) (d : WReg) (a : AfReg)
  /-- `AFLD` (R382). Loads a form and checks that it is canonical. -/
  | afld (d : AfReg) (a : WReg) (imm : Imm)
  /-- `AFST` (R382). Stores a canonical form. -/
  | afst (a : WReg) (imm : Imm) (b : AfReg)
  /-- `AFMOV` (R382). Copies an affine register unchecked. -/
  | afmov (d a : AfReg)
  /-- `AFDOM` (R383). Reads the team's DOMID and DREC. -/
  | afdom (d : WReg)
  /-- `AFPACK` (R384). Writes a form into vector lanes against a symbol list. -/
  | afpack (t : Ty) (d : VReg) (a : AfReg) (b : WReg)
  /-- `AFUNPK` (R384). Builds a form from vector lanes and a symbol list. -/
  | afunpk (d : AfReg) (a : VReg) (b : WReg)
  /-- `SPAWN` (R388). Releases and creates a launch from a header. -/
  | spawn (d a : WReg)
  /-- `DECR` (R389). Releases and decrements a codelet counter, enqueuing its record at zero. -/
  | decr (sc : Scope) (a : WReg)
  /-- `RENQ` (R392). Offers a record to a ready ring or stage queue. -/
  | renq (a b : WReg)
  /-- `RDEQ` (R393). Takes the head record of the core's ready ring. -/
  | rdeq (d a : WReg)
  /-- `EOS` (R394). Enqueues an end-of-stream record into a stage. -/
  | eos (stage : Fin 4)
  /-- `STEAL` (R395). Moves one record from another core's ring to the issuing core's ring. -/
  | steal (d a : WReg)
  /-- `BORROW` (R396). Takes a free slot and frame as a borrowed workspace. -/
  | borrow (d : WReg)
  /-- `XMV` (R396). Moves one register to or from the borrowed workspace. -/
  | xmv (cls : XClass) (from_ : Bool) (d : BitVec 5) (a : WReg)
  /-- `WID` (R397). Reads a field of the work identifier, or LN. -/
  | wid (d : WReg) (sel : Fin 8)
  /-- `BARRIER_OPEN` (R226). Every live member has arrived, or one ends, and the waiters return with their acquire. -/
  | barrierOpen (cluster entry : Nat)
  /-- `MFS` (R400). Reads a system register. -/
  | mfs (d : WReg) (r : SysReg)
  /-- `MTS` (R400). Writes a system register that has no behaviour of its own. -/
  | mts (r : SysReg) (a : WReg)
  /-- `MTS_WP` (R401). Parks the context and points the slot at another frame. -/
  | mtsWp (a : WReg)
  /-- `MTS_AFNEXT` (R191). Stores AFNEXT only when the value exceeds the current one. -/
  | mtsAfnext (a : WReg)
  /-- `MTS_AFLIM` (R191). Stores AFLIM, clamped to 65,534. -/
  | mtsAflim (a : WReg)
  /-- `MTS_LMCFG` (R100). Changes the frame count under the conditions that permit it. -/
  | mtsLmcfg (a : WReg)
  /-- `MTS_RRCFG` (R111). Reconfigures the ready ring and resets its counts when permitted. -/
  | mtsRrcfg (a : WReg)
  /-- `MTS_PUSHQ` (R59). Sets the push quota, clamped to 64. -/
  | mtsPushq (a : WReg)
  /-- `MTS_LEASE` (R62). Sets the die's lease length, clamped to 256 to 65,536. -/
  | mtsLease (a : WReg)
  /-- `MODE_BRING_WRITE` (R269). Sets or clears bring-up mode. -/
  | modeBringWrite (src : ModeSrc)
  /-- `TRAP` (R402). Raises cause 0 with its immediate. -/
  | trap (code : BitVec 24)
  /-- `BRK` (R402). Raises #BRK, or halts the cluster when the breakpoint is claimed. -/
  | brk (code : BitVec 24)
  /-- `MARK` (R404). Appends a mark entry to the message log. -/
  | mark (code : BitVec 24)
  /-- `GTIME` (R405). Reads the die's local GT. -/
  | gtime (d : WReg)
  /-- `WFE_TIMEOUT` (R406). One microsecond of GT passes and the waiting slot returns. -/
  | wfeTimeout (ctx : Nat)
  /-- `SWP` (R407). Parks the issuing context and runs another context on the slot. -/
  | swp (a : WReg)
  /-- `CTXS` (R408). Spills a parked context to a chosen image block. -/
  | ctxs (a b : WReg)
  /-- `CTXL` (R409). Fills a context from HBM into a chosen frame. -/
  | ctxl (a b : WReg)
  /-- `TINV` (R410). Drops the translations that overlap a range. -/
  | tinv (a b c : WReg)
  /-- `UDF` (R412). Raises #ILL. -/
  | udf (bits : BitVec 64)
  /-- `TEAM_PLACE` (R224). The head team of the queue is placed when a cluster has room, and its threads are dispatched. -/
  | teamPlace (part : Nat)
  /-- `TEAM_SWAP_OUT` (R225). A resident team's time slice expires with the queue non-empty, and the team is swapped out whole. -/
  | teamSwapOut (cluster entry : Nat)
  /-- `TEAM_END` (R227). A team's last context ends, and its entry and DOMID are freed. -/
  | teamEnd (cluster entry : Nat)
  /-- `LAUNCH_END` (R227). All contexts and records of a launch are gone; it releases, fills DONE and frees LN. -/
  | launchEnd (part ln : Nat)
  /-- `RING_DISPATCH` (R233). A core with a free named slot takes the head record of its ring or stage queue. -/
  | ringDispatch (core : Nat)
  /-- `RING_ENQUEUE` (R113). A record arrives at a ring and is placed with a pad or refused. -/
  | ringEnqueue (msg : Nat)
  /-- `RING_REOFFER` (R114). When HEAD advances, a held refused record is offered again. -/
  | ringReoffer (held : Nat)
  /-- `RINGFULL_TIMEOUT` (R114). A record refused for 16 us is discarded, and its sender takes #RINGFULL. -/
  | ringfullTimeout (held : Nat)
  /-- `GOVERNOR_SAMPLE` (R237). Every 1 us the governor samples stage occupancy and moves at most one unit. -/
  | governorSample (cluster : Nat)
  /-- `EOS_FORWARD` (R238). Once a stage's earlier items end, a held end-of-stream record moves on or fills EOSFE. -/
  | eosForward (core : Nat)
  /-- `BALANCER_PASS` (R239). Every 10 us the balancer pairs cores and issues migration commands. -/
  | balancerPass (die : Nat)
  /-- `MIGRATION_COMMAND` (R239). A donor removes up to n records from its ring and offers them to the receiver. -/
  | migrationCommand (msg : Nat)
  /-- `HOME_READ_REQUEST` (R51). A read request at the home is answered with a token and data, or forwarded. -/
  | homeReadRequest (msg : Nat)
  /-- `FORWARDED_READ` (R51). A forwarded read reaches a holder, which answers or drops it. -/
  | forwardedRead (msg : Nat)
  /-- `HOME_WRITE_REQUEST` (R51). A write request at the home yields the home's tokens and a multicast to the holders. -/
  | homeWriteRequest (msg : Nat)
  /-- `WRITE_MULTICAST` (R51). A multicast write request reaches a holder, which yields its tokens. -/
  | writeMulticast (msg : Nat)
  /-- `TOKEN_ANSWER` (R51). An answer with tokens reaches a requester, which performs once it holds enough. -/
  | tokenAnswer (msg : Nat)
  /-- `OWNER_NOTICE` (R52). A notice of an owner-token transfer reaches the home, which updates its record. -/
  | ownerNotice (msg : Nat)
  /-- `WRITE_BACK` (R55). A write-back reaches the home, which serves recorded forwards and acknowledges. -/
  | writeBack (msg : Nat)
  /-- `REQUEST_TIMEOUT` (R53). A request not performed after 512 cycles is reissued or registered as persistent. -/
  | requestTimeout (holder line : Nat)
  /-- `PERSISTENT_RETRY` (R53). A refused persistent registration is retried every 64 cycles. -/
  | persistentRetry (holder line : Nat)
  /-- `PERSISTENT_ACTIVATE` (R54). The oldest entry for a line becomes active, and holders send it their tokens. -/
  | persistentActivate (line : Nat)
  /-- `REMOTE_LEASE_READ` (R61). A cacheable read from the other die is answered with data, a stamp and a lease end. -/
  | remoteLeaseRead (msg : Nat)
  /-- `REMOTE_WRITE` (R63). A write at the home takes its visibility time and replies with vt. -/
  | remoteWrite (msg : Nat)
  /-- `HOLD_END` (R64). GT reaches the end of a hold, and held reads are answered with the current value. -/
  | holdEnd (line : Nat)
  /-- `LEASE_EXPIRY` (R61). GT reaches a leased copy's lease end, and the copy becomes invalid. -/
  | leaseExpiry (holder line : Nat)
  /-- `DRIFT_CHECK` (R65). Every 4 ns a local GT counter is compared with the reference. -/
  | driftCheck (die : Nat)
  /-- `DRIFT_TRIP` (R65). The detector trips, leased copies are invalidated and marked, and reads go uncached. -/
  | driftTrip (die : Nat)
  /-- `DRIFT_RECOVERY` (R65). After 1 us back within tolerance, the die returns to leased reads. -/
  | driftRecovery (die : Nat)
  /-- `GT_RESYNC` (R271). Firmware steps or holds a tripped die's local counter to the reference. -/
  | gtResync (die : Nat)
  /-- `MIGRATED_RESUME` (R82). A context saved on one die is resumed on the other once the lease wait has passed. -/
  | migratedResume (ctx : Nat)
  /-- `SNOOP_TIMEOUT` (R68). No host response within 1 ms raises #TIMEOUT in the waiting slot. -/
  | snoopTimeout (ctx : Nat)
  /-- `PEER_WRITE_ACK` (R76). A peer's home acknowledges a peer-window write once its GT reaches vt. -/
  | peerWriteAck (msg : Nat)
  /-- `MEMORY_REPLY` (R73). A memory or home reply arrives, performs the access and returns the slot to the rotation. -/
  | memoryReply (msg : Nat)
  /-- `WALK_COMPLETE` (R45). A page walk ends, and installs a translation or raises its fault. -/
  | walkComplete (ctx : Nat)
  /-- `KILL` (R258). Stops a context, lets its granted work finish and frees its frame and slot. -/
  | kill (ctx : Nat)
  /-- `CONTEXT_NUMBER_FREE` (R258). Once in-flight deliveries are dropped, a killed context's number is freed. -/
  | contextNumberFree (ctx : Nat)
  /-- `FATAL_DUMP` (R259). Firmware writes the dump record of the next fatal context. -/
  | fatalDump (part : Nat)
  /-- `SPILL` (R252). A parked context is written out to an HBM image. -/
  | spill (ctx : Nat)
  /-- `SPILL_COMPLETE` (R252). The image writes have performed; ST becomes 3 and held deliveries are applied. -/
  | spillComplete (ctx : Nat)
  /-- `FILL` (R252). An HBM image is copied into a frame, and ST becomes 1 when every byte has been copied. -/
  | fill (ctx : Nat)
  /-- `WATCHDOG_SLOT_KILL` (R268). Rung 1 kills and dumps a slot with #WDOG. -/
  | watchdogSlotKill (core slot : Nat)
  /-- `CORE_RESET` (R268). Rung 2 resets a core. -/
  | coreReset (core : Nat)
  /-- `CROSS_TRIGGER` (R275). A received cross-trigger halts a cluster with XIN set. -/
  | crossTrigger (cluster : Nat)
  /-- `HALT_SETTLED` (R275). The issued work has settled, and STATE becomes 2. -/
  | haltSettled (cluster : Nat)
  /-- `DRAIN_COMPLETE` (R357). A tensor drain's row writes, and with .amax its atomic, have performed, and the issuing slot returns to the rotation. -/
  | drainComplete (quad entry : Nat)
  /-- `TINV_COMPLETE` (R46). A tinv has dropped the overlapping entries from every TLB and walk cache of the partition. -/
  | tinvComplete (id : Nat)
  /-- `REFUSED_TOKEN_RETURN` (R56). A pushed token that a target refused reaches the line's home and joins the home's tokens. -/
  | refusedTokenReturn (msg : Nat)
  /-- `MODE_BALOFF_WRITE` (R269). Stops or starts both balancers, only while BRING is set. -/
  | modeBaloffWrite (on : Bool)
  /-- `DOORBELL` (R265). A host doorbell write carries a queue's new tail. -/
  | doorbell (part queue tail : Nat)
  /-- `LAUNCH` (R219). Command that creates a launch from a header under the queue's PTROOT. -/
  | launch (part queue : Nat)
  /-- `COPY` (R266). Command that runs a copy descriptor on cluster 0's engine. -/
  | copy (part queue : Nat)
  /-- `MAP_PAGE_ENTRIES` (R266). MAP kind 0 writes page-table entries, then runs tinv and tsync. -/
  | mapPageEntries (part queue : Nat)
  /-- `MAP_BAR2_PLACEMENT` (R262). MAP kind 1 places the BAR 2 window onto a partition's HBM. -/
  | mapBar2Placement (part queue : Nat)
  /-- `UNMAP` (R266). Command that removes mappings, then runs tinv and tsync. -/
  | unmap (part queue : Nat)
  /-- `FENCE_COMMAND` (R266). Command that completes when every earlier command of the partition has completed. -/
  | fenceCommand (part queue : Nat)
  /-- `PARTITION` (R270). Checks, quiesces, rewrites QCFG, zeroes memory, shoots down and releases new partitions. -/
  | partition (part queue : Nat)
  /-- `DUMP` (R266). Command that sets the dump area. -/
  | dump (part queue : Nat)
  /-- `RESET` (R268). Command that takes a reset rung of level 2 to 5 on a target. -/
  | reset (part queue : Nat)
  /-- `ATTEST` (R272). Command that writes a signed attestation report. -/
  | attest (part queue : Nat)
  /-- `UPDATE` (R267). Command that stages, hashes and verifies a firmware image. -/
  | update (part queue : Nat)
  /-- `IMAGE_SWITCH` (R267). At its next command boundary, a queue switches to the verified image. -/
  | imageSwitch (part queue : Nat)
  /-- `HOST_READ` (R76). A host read of device memory is served at the home. -/
  | hostRead (addr size : Nat)
  /-- `HOST_WRITE` (R76). A host write performs at the home. -/
  | hostWrite (addr : Nat) (data : List Byte)
  /-- `HOST_OWNERSHIP_REQUEST` (R67). A host exclusive request gathers all tokens at the home and records HE. -/
  | hostOwnershipRequest (line half : Nat)
  /-- `BACK_INVALIDATE_RESPONSE` (R67). The host answers a back-invalidate snoop, and the half's state changes and the access performs. -/
  | backInvalidateResponse (line half : Nat) (dirty : Option (List Byte))
  /-- `HOST_SNOOP` (R68). A host snoop recalls all tokens of a device line to the bridge. -/
  | hostSnoop (line : Nat)
  /-- `SCRUB_VISIT` (R31). The background scrub checks a line in idle channel cycles. -/
  | scrubVisit (line : Nat)
  /-- `UNCORRECTABLE_ERROR` (R256). An uncorrectable error marks a line lost and retires it to a spare. -/
  | uncorrectableError (line : Nat)
  /-- `CLUSTER_RESET` (R268). Rung 3 resets a cluster. -/
  | clusterReset (cluster : Nat)
  /-- `PARTITION_RESET` (R268). Rung 4 resets a partition. -/
  | partitionReset (part : Nat)
  /-- `POWER_ON` (R12). Power-on latches the straps and applies the resets. -/
  | powerOn (cxlen : Bool)
  /-- `POWER_SAMPLE` (R273). Every 10 us the module's power is sampled and THR may rise or fall. -/
  | powerSample (watts : Nat)
  /-- `THERMAL_LIMIT` (R273). A die at 105 C forces THR to 3; at 115 C power is removed. -/
  | thermalLimit (die celsius : Nat)
  /-- `DBGCTL_HALT` (R275). A HALT write stops the cluster's cores. -/
  | dbgctlHalt (cluster : Nat)
  /-- `DBGCTL_RESUME` (R278). A RESUME write applies the held beats and restarts the cluster. -/
  | dbgctlResume (cluster : Nat)
  /-- `NILOG_ENABLE` (R279). Writing EN = 1 starts the message log at the area's base. -/
  | nilogEnable (core : Nat) (value : Word)
  /-- `ACCOUNTING_COUNTER_READ` (R282). Reading an accounting counter returns it and clears it. -/
  | accountingCounterRead (core : Nat) (which : AcctReg)
  /-- `DROOP_TRIP` (R283). A droop detector writes one sample of the PCs of its cores. -/
  | droopTrip (die detector : Nat)
  /-- `REGISTER_WRITE` (R11). Write through the device register window to a register that has no row of its own. -/
  | registerWrite (r : WinReg) (value : Word)
  /-- `PEER_READ` (R76). A read by a peer module over Antler of this module's device memory is served at the home. -/
  | peerRead (peer addr size : Nat)
  /-- `PEER_WRITE` (R76). A write by a peer module over Antler performs at the home, and is acknowledged once GT reaches its vt. -/
  | peerWrite (peer addr : Nat) (data : List Byte)
  /-- `YIELD` (R312). In BRING mode passes the core's turns to the next eligible slot. -/
  | yield
  /-- `END` (R313). Withdraws, checks hm, releases at .dev and ends a non-codelet thread. -/
  | endT
  /-- `ICINV` (R324). Invalidates the core's L1 instruction cache. -/
  | icinv
  /-- `FBAR` (R324). Discards the issuing slot's fetched block. -/
  | fbar
  /-- `TSWAP` (R354). Exchanges the weight planes at the next step boundary. -/
  | tswap
  /-- `TWAIT` (R355). Waits until every earlier-granted tensor entry has completed. -/
  | twait
  /-- `RPTW` (R360). Waits for the sequence to complete and raises a recorded step fault. -/
  | rptw
  /-- `HDROP` (R377). Withdraws and ends the thread when hm is empty. -/
  | hdrop
  /-- `CDONE` (R391). Ends a codelet with a release at .dev. -/
  | cdone
  /-- `RETBR` (R396). Returns the borrowed slot and frame. -/
  | retbr
  /-- `TBAR` (R398). Releases and waits at the team barrier. -/
  | tbar
  /-- `ERET` (R403). Restores w14 and w15, clears PL and acts on ACTION. -/
  | eret
  /-- `WFE` (R406). Leaves the rotation until an event or 1 us. -/
  | wfe
  /-- `TSYNC` (R411). Waits for earlier tinv operations, walks and accesses to complete. -/
  | tsync
  /-- `NOP` (R412). Takes an issue turn and changes nothing. -/
  | nop
  /-- `PAD` (R285). Pad word consumed by fetch; fetch continues at the next 32-byte boundary. -/
  | pad
  /-- `DEVICE_RESET` (R268). Rung 5 resets the device, keeping the host link trained. -/
  | deviceReset
  /-- `LINK_TRAINING` (R262). The host port trains as PCIe or CXL as the strap selects. -/
  | linkTraining
  /-- `SECURITY_ALARM` (R272). An alarm erases volatile keys and sets SECA, or blows the erase fuse. -/
  | securityAlarm
  deriving DecidableEq, Repr

end Sys2Proof
end

