-- ==== Sys2Proof/Config.lean ====
section
/-! DEFINITION. What an implementation fixes and the spec leaves open: uninterpreted constants (assumption log 9
and 10), and the figures the model names for sizes the spec does not give. -/

namespace Sys2Proof

/-- The value of the `n`-th free choice of a run (assumption log 9): a launch number (R219), a victim of a
replacement (R58), a core that takes a fill (R252). Nothing constrains it. DESIGN CHOICE: log 9. -/
opaque Config.freeNat : Nat → Nat

/-- Whether a read of a line at a cycle meets an error that the check code corrects (R31), uninterpreted.
DESIGN CHOICE: log 9. -/
opaque Config.correctable : Nat → Nat → Bool

/-- SHAKE256 of a list of bytes (R267, R272), uninterpreted. DESIGN CHOICE: log 10. -/
opaque Config.shake256 : List Byte → Nat

/-- Whether the signature of an image verifies under XMSS against the fused key (R267), uninterpreted: the image, and the
signature that follows it. DESIGN CHOICE: log 10. -/
opaque Config.xmssVerify : List Byte → List Byte → Bool

/-- Bytes of a signature of the parameter set XMSS-SHAKE256_20_256 (R267): an index, a seed, 67 chains and 20 nodes of 32
bytes. PRESUMED: log 50. -/
def Config.signatureBytes : Nat := 2820

/-- The version in an image's header (R267), uninterpreted: the spec gives the header no layout.
DESIGN CHOICE: log 10. -/
opaque Config.imageVersion : List Byte → Nat

/-- The fused minimum version (R267). DESIGN CHOICE: log 2. -/
opaque Config.minVersion : Nat

/-- The measurement and version of the ROM image (R267, R272). -/
opaque Config.romMeasure : Nat
opaque Config.romVersion : Nat

/-- The bytes of a signed attestation report for a measurement, version, `QCFG` and nonce (R272), uninterpreted:
the spec gives the report and its signature no layout. DESIGN CHOICE: log 10. -/
opaque Config.attestReport : Nat → Nat → Nat → List Byte → List Byte

/-! The arguments of the commands (R266). The spec names them and gives their 48 bytes no layout, so how they are read
from the bytes, and from the memory that the bytes may point into, is uninterpreted (assumption log 10). -/

/-- `LAUNCH`: the virtual address of the header. DESIGN CHOICE: log 10. -/
opaque Config.launchHeader : List Byte → Nat
/-- `COPY`: the 64 bytes of the copy descriptor (R117), as one number. DESIGN CHOICE: log 10. -/
opaque Config.copyDescriptor : List Byte → List (Nat × Byte) → Nat
/-- `MAP` and `UNMAP`: the kind, the entries to write with their physical addresses, and the range and address space of
the shoot-down. DESIGN CHOICE: log 10. -/
opaque Config.mapKind : List Byte → Nat
opaque Config.mapEntries : List Byte → List (Nat × Byte) → List (Nat × Nat)
opaque Config.mapRange : List Byte → Nat × Nat × Option Nat
/-- `MAP` of kind 1: the physical base of the BAR 2 window. -/
opaque Config.bar2Base : List Byte → Nat
/-- `PARTITION`: the new MODE; and for each new partition TBASE, CLTB, QBASE and FRAMES, its peer table and its pool. -/
opaque Config.partMode : List Byte → Nat
/-- TBASE, CLTB, QBASE and FRAMES of a new partition (R270). DESIGN CHOICE: log 10. -/
opaque Config.partBases : List Byte → List (Nat × Byte) → Nat → Nat × Nat × Nat × Nat
opaque Config.partPeers : List Byte → List (Nat × Byte) → Nat → List Nat
opaque Config.partPool : List Byte → List (Nat × Byte) → Nat → List Nat
/-- `DUMP`: address and size of the area. DESIGN CHOICE: log 10. -/
opaque Config.dumpArea : List Byte → Nat × Nat
/-- `RESET`: level and target. DESIGN CHOICE: log 10. -/
opaque Config.resetArg : List Byte → Nat × Nat
/-- `ATTEST`: where the report goes, and the nonce. DESIGN CHOICE: log 10. -/
opaque Config.attestArg : List Byte → Nat × List Byte
/-- `UPDATE`: physical address and length of the image, which its signature follows. DESIGN CHOICE: log 10. -/
opaque Config.updateArg : List Byte → Nat × Nat

/-- Lines of an L1 data cache: 64 KiB of 128-byte lines (R21, R49). PRESUMED: log 11. -/
def Config.l1Lines : Nat := 512

/-- Lines of an L1 instruction cache: 64 KiB (R21); assumption log 11. PRESUMED: log 11. -/
def Config.icLines : Nat := 512

end Sys2Proof
end

