-- ==== Sys2Proof/WellFormed.lean ====
section
/-! DEFINITION. Which instructions the encoding rules allow (R290 to R296): the operand types of each entry, the
lengths of its immediate, its subfield limits and its register parities. A step that is not an encoded instruction
carries no encoding and is well formed as it stands. -/

namespace Sys2Proof

/-- The types of loads and stores (R315). -/
def Ty.isMem : Ty → Bool
  | .i8 | .i16 | .i32 | .i64 | .n8 | .n16 | .n32 | .n64 | .f16 | .bf16 | .f32 | .f64 => true
  | _ => false

/-- The set INT of R330. -/
def Ty.isInt : Ty → Bool
  | .i8 | .i16 | .i32 | .i64 | .n8 | .n16 | .n32 | .n64 => true
  | _ => false

/-- The set FLT of R330. -/
def Ty.isFlt : Ty → Bool
  | .f16 | .bf16 | .f32 => true
  | _ => false

/-- The set MOV of R330. -/
def Ty.isMov (t : Ty) : Bool := t.isInt || t.isFlt || t = .e4m3 || t = .e5m2

/-- The set CVT of R330. -/
def Ty.isCvt (t : Ty) : Bool := t.isMov || t = .e2m1 || t = .gz8

/-- The signed integer types. -/
def Ty.isSigned : Ty → Bool
  | .i8 | .i16 | .i32 | .i64 => true
  | _ => false

/-- The block formats of `vquant` and `vdeq` (R347). -/
def Ty.isBlock : Ty → Bool
  | .mxfp4 | .mxfp8 | .mxint8 | .qx4 | .qx8 => true
  | _ => false

/-- The width of a type in bits (R330); 64 for no type, 0 for a block format. -/
def Ty.bits : Ty → Nat
  | .nt => 64
  | .i8 | .n8 | .e4m3 | .e5m2 | .gz8 | .e8m0 => 8
  | .i16 | .n16 | .f16 | .bf16 | .s12 => 16
  | .i32 | .n32 | .f32 => 32
  | .i64 | .n64 | .f64 => 64
  | .e2m1 => 4
  | .mxfp4 | .mxfp8 | .mxint8 | .qx4 | .qx8 => 0

/-- The elements of a vector of the type (R330). -/
def Ty.elems (t : Ty) : Nat := 512 / t.bits

/-- No immediate of 64 bits (R293). -/
def Imm.le32 : Imm → Bool
  | .i64 _ => false
  | _ => true

/-- TYPE 0 or `t` (R304 to R306). -/
def Ty.plainOr (t u : Ty) : Bool := t = .nt || t = u

/-- The operation and type pairs of `amo` (R325). -/
def AmoOp.tyOk : AmoOp → Ty → Bool
  | .fadd, t => t = .f32 || t = .f64
  | .famax, t => t = .f32
  | _, t => t = .n32 || t = .n64

/-- The system registers whose `mts` is this row's plain write (R400). -/
def SysReg.plainWrite : SysReg → Bool
  | .wp | .mode | .afnext | .aflim | .lmcfg | .rrcfg | .pushq | .lease => false
  | _ => true

/-- The tree limits of R294. -/
def treesOk (depth trees : Nat) : Bool :=
  1 ≤ depth && depth ≤ 6 && 1 ≤ trees && trees * 2 ^ depth ≤ 64

/-- The number of registers of a class of `xmv` (R396). -/
def XClass.limit : XClass → Nat
  | .w => 16
  | .p => 8
  | .v => 32
  | .af => 8

/-- An offset that `hside` allows (R209, R294). -/
def hsideOff (o : Nat) : Bool := o = 8 || o = 12 || o = 14 || (24 ≤ o && o % 2 = 0)

/-- A bit field within a word (R294). -/
def fieldOk (lsb width : Nat) : Bool := 1 ≤ width && lsb + width ≤ 64

/-- The conditions of R290 to R294 that the types of the operands leave to be checked. -/
def WellFormed : Instr → Bool
  | .add t _ _ _ | .sub t _ _ _ | .mul t _ _ _ | .mulhn t _ _ _ | .divn t _ _ _ | .remn t _ _ _ | .and t _ _ _
  | .or t _ _ _ | .xor t _ _ _ | .andn t _ _ _ | .shl t _ _ _ | .shr t _ _ _ | .rotr t _ _ _ | .minn t _ _ _
  | .maxn t _ _ _ => t.plainOr .n32
  | .mulh t _ _ _ | .div t _ _ _ | .rem t _ _ _ | .sra t _ _ _ | .min t _ _ _ | .max t _ _ _ => t.plainOr .i32
  | .clz t _ _ | .ctz t _ _ | .popc t _ _ => t.plainOr .n32
  | .sext t _ _ => t.isInt && t.bits ≠ 64
  | .addi t _ _ imm => t.plainOr .n32 && imm.le32
  | .lea _ _ imm => imm.le32
  | .bfx _ _ _ lsb width | .bfi _ _ lsb width => fieldOk lsb.toNat width.toNat
  | .scmp t _ _ _ _ => t = .i32 || t = .i64 || t = .n32 || t = .n64 || t.isFlt || t = .f64
  | .b _ imm | .bz _ imm | .bnz _ imm | .loop _ imm | .j imm | .jal _ imm => imm.le32
  | .ld t _ _ imm | .st t _ imm _ | .lda t _ _ _ imm | .stl t _ _ imm _ => t.isMem && imm.le32
  | .ldf _ _ imm | .ldt _ _ imm | .stf _ _ imm _ | .clre _ imm | .pref _ imm | .cwb _ imm | .cinv _ imm
  | .cfl _ imm => imm.le32
  | .push t _ _ _ _ _ => t.isMem
  | .amo op t _ _ _ _ => op.tyOk t
  | .cas t _ _ _ _ _ => t = .n32 || t = .n64
  | .smap _ size _ _ => size ≠ 7
  | .vld t _ _ imm | .vst t _ imm _ | .vlds t _ _ imm _ => t.isMov && imm.le32
  | .vgat t _ _ _ | .vsct t _ _ _ => t = .i32 || t = .i64 || t = .n32 || t = .n64 || t = .f32
  | .vbc t _ _ _ | .vperm t _ _ _ _ | .vsel t _ _ _ _ => t.isMov
  | .vins t _ _ lane | .vext t _ _ lane | .vslide t _ _ lane => t.isMov && lane.toNat < t.elems
  | .vadd t rm _ _ _ _ | .vsub t rm _ _ _ _ | .vmul t rm _ _ _ _ => (t.isInt && rm = .rne) || t.isFlt
  | .vmax t _ _ _ _ | .vmin t _ _ _ _ | .vneg t _ _ _ => t.isInt || t.isFlt
  | .vfma t _ _ _ _ _ _ | .vfms t _ _ _ _ _ _ => t.isFlt
  | .vabs t _ _ _ => t.isSigned || t.isFlt
  | .vand t _ _ _ _ | .vor t _ _ _ _ | .vxor t _ _ _ _ | .vshl t _ _ _ _ | .vshr t _ _ _ _ | .vsra t _ _ _ _ => t.isInt
  | .vcmp t _ _ _ _ _ => t.isInt || t.isFlt
  | .vcvt u t rm _ _ _ => u.isCvt && t.isCvt && u ≠ t && (u ≠ .gz8 || rm = .rne)
  | .vred t rm _ _ _ => (t.isInt && rm = .rne) || t.isFlt
  | .vcmpm _ _ _ depth trees => treesOk depth.toNat trees.toNat
  | .vleaf d _ depth trees => treesOk depth.toNat trees.toNat && (trees.toNat ≤ 16 || d.val % 2 = 0)
  | .vlut t _ _ _ => t = .n8 || t = .n16 || t = .n32 || t = .f32 || t = .bf16 || t = .gz8
  | .vquant t e5 _ _ a _ => t.isBlock && (!e5 || t = .mxfp8) && a.val % 2 = 0
  | .vdeq t e5 _ d _ _ => t.isBlock && (!e5 || t = .mxfp8) && d.val % 2 = 0
  | .tscq _ count => 1 ≤ count.toNat && count.toNat ≤ 16
  | .tdrain t _ _ _ _ _ => t = .bf16 || t = .f16 || t = .e4m3 || t = .e5m2 || t = .f32
  | .hld _ _ imm | .hst _ imm _ | .afld _ _ imm | .afst _ imm _ => imm.le32
  | .hmov op _ _ b => op ≠ .mov || b = .hm
  | .hcmp t _ _ _ => t = .i32 || t = .n32 || t = .f32 || t = .f64
  | .hside _ _ off => hsideOff off.toNat
  | .afcond _ _ _ cap => cap.toNat ≤ 8
  | .afrng t d _ => t = .f32 || (t = .f64 && d.val % 2 = 0)
  | .afpack t _ _ _ => t = .f32 || t = .bf16
  | .xmv cls _ d _ => d.toNat < cls.limit
  | .mts r _ => r.plainWrite
  | .udf bits => (bits.toNat / 4) % 256 = 0 && bits.toNat % 4 = 0
  | _ => true

end Sys2Proof
end

