-- ==== Sys2Proof/Decode.lean ====
section
/-! DEFINITION. The decoder and the encoder of spec/16_encoding.md: the fields of R287 and R288, the nine checks of
R296 in their order, and the instruction the fields name. -/

namespace Sys2Proof

/-- The checks of R296, by name. -/
inductive DecodeError where
  | badPadWord        -- check 1: length code 0b11 and not the pad word
  | crossesBlock      -- check 2: the 32-byte block ends first
  | unassigned        -- check 3: an opcode with no mnemonic, or 0x00
  | badLength         -- check 4
  | badFn             -- check 5
  | badTypeOrQual     -- check 6
  | badRegister       -- check 7
  | unusedNonzero     -- check 8
  | badSubfield       -- check 9
  deriving DecidableEq, Repr

/-- What the immediate of a form holds (R287, R288): IMM24; or C and IMM32; or C and IMM64. -/
inductive Tail where
  | short (imm : BitVec 24)
  | mid (c : BitVec 5) (imm : BitVec 32)
  | long (c : BitVec 5) (imm : BitVec 64)
  deriving DecidableEq, Repr

/-- The fields of an instruction (R287, R288). -/
structure Fields where
  op : BitVec 8
  d : BitVec 5
  a : BitVec 5
  b : BitVec 5
  fn : BitVec 7
  ty : BitVec 5
  qual : BitVec 3
  tail : Tail
  deriving DecidableEq, Repr

/-- The length of the form in bytes (R284). -/
def Fields.len (f : Fields) : Nat :=
  match f.tail with
  | .short _ => 8
  | .mid _ _ => 12
  | .long _ _ => 16

/-- The third register field; zero where the form has none (R288). -/
def Fields.c (f : Fields) : BitVec 5 :=
  match f.tail with
  | .short _ => 0
  | .mid c _ => c
  | .long c _ => c

/-- The immediate with its length (R288). -/
def Fields.imm (f : Fields) : Imm :=
  match f.tail with
  | .short v => .i24 v
  | .mid _ v => .i32 v
  | .long _ v => .i64 v

/-- IMM24; zero in the longer forms. -/
def Fields.imm24 (f : Fields) : BitVec 24 :=
  match f.tail with
  | .short v => v
  | _ => 0

/-- IMM32; zero in the other forms. -/
def Fields.imm32 (f : Fields) : BitVec 32 :=
  match f.tail with
  | .mid _ v => v
  | _ => 0

/-- The immediate field as a number, whatever its length. -/
def Fields.immNat (f : Fields) : Nat :=
  match f.tail with
  | .short v => v.toNat
  | .mid _ v => v.toNat
  | .long _ v => v.toNat

/-- The predicate of classes V and VU (R293): IMM32[2:0] when PE, IMM32[3], is set. -/
def Fields.pred (f : Fields) : Option PReg :=
  if f.imm32.toNat / 8 % 2 = 1 then some ⟨f.imm32.toNat % 8, Nat.mod_lt _ (by decide)⟩ else none

/-- The subfield of `n` bits of IMM24 that begins at bit `lo` (R294). -/
def subfield (f : Fields) (lo n : Nat) : BitVec n := BitVec.ofNat n (f.imm24.toNat / 2 ^ lo)

/-- A register field read as a register number. -/
def regW (x : BitVec 5) : WReg := ⟨x.toNat % 16, Nat.mod_lt _ (by decide)⟩
def regP (x : BitVec 5) : PReg := ⟨x.toNat % 8, Nat.mod_lt _ (by decide)⟩
def regV (x : BitVec 5) : VReg := ⟨x.toNat % 32, Nat.mod_lt _ (by decide)⟩
def regAf (x : BitVec 5) : AfReg := ⟨x.toNat % 8, Nat.mod_lt _ (by decide)⟩
def regH (x : BitVec 5) : HReg := if x.toNat = 0 then .hm else if x.toNat = 1 then .hx else .hf

def fin4 (x : BitVec 2) : Fin 4 := x.toFin
def fin8 (x : BitVec 3) : Fin 8 := x.toFin
def fin16 (x : BitVec 4) : Fin 16 := x.toFin
def fin32 (x : BitVec 5) : Fin 32 := x.toFin
def fin64 (x : BitVec 6) : Fin 64 := x.toFin

/-- The base of `ld` and `lea`: PC when FN[6] is set (R295). -/
def mbase (f : Fields) : MBase := if f.fn.toNat = 64 then .pc else .reg (regW f.a)

/-- The TYPE codes of R290. -/
def tyOf : Nat → Ty
  | 1 => .i8 | 2 => .i16 | 3 => .i32 | 4 => .i64 | 5 => .n8 | 6 => .n16 | 7 => .n32 | 8 => .n64
  | 9 => .f16 | 10 => .f32 | 11 => .f64 | 12 => .bf16 | 13 => .e4m3 | 14 => .e5m2 | 15 => .e2m1
  | 16 => .mxfp4 | 17 => .mxfp8 | 18 => .mxint8 | 19 => .qx4 | 20 => .qx8 | 21 => .e8m0 | 22 => .s12 | 23 => .gz8
  | _ => .nt

def tyCode : Ty → Nat
  | .nt => 0 | .i8 => 1 | .i16 => 2 | .i32 => 3 | .i64 => 4 | .n8 => 5 | .n16 => 6 | .n32 => 7 | .n64 => 8
  | .f16 => 9 | .f32 => 10 | .f64 => 11 | .bf16 => 12 | .e4m3 => 13 | .e5m2 => 14 | .e2m1 => 15
  | .mxfp4 => 16 | .mxfp8 => 17 | .mxint8 => 18 | .qx4 => 19 | .qx8 => 20 | .e8m0 => 21 | .s12 => 22 | .gz8 => 23

/-- The scope codes of R291. -/
def scopeOf : Nat → Scope
  | 1 => .slot | 2 => .core | 3 => .clu | 4 => .die | 5 => .dev | _ => .sys

def scopeCode : Scope → Nat
  | .slot => 1 | .core => 2 | .clu => 3 | .die => 4 | .dev => 5 | .sys => 6

/-- The rounding codes of R291. -/
def rmOf : Nat → Rm
  | 0 => .rne | 1 => .rtz | 2 => .rup | 3 => .rdn | _ => .rna

def rmCode : Rm → Nat
  | .rne => 0 | .rtz => 1 | .rup => 2 | .rdn => 3 | .rna => 4

/-- The relation codes of R295. -/
def relOf : Nat → Rel
  | 0 => .lt | 1 => .le | 2 => .eq | _ => .ne

def relCode : Rel → Nat
  | .lt => 0 | .le => 1 | .eq => 2 | .ne => 3

/-- The operation codes of `amo`, FN[3:0] (R295). -/
def amoOf (fn : Nat) : AmoOp :=
  match fn % 16 with
  | 0 => .add | 1 => .and | 2 => .or | 3 => .xor | 4 => .min | 5 => .max | 6 => .minn | 7 => .maxn
  | 8 => .xchg | 9 => .fadd | _ => .famax

def amoCode : AmoOp → Nat
  | .add => 0 | .and => 1 | .or => 2 | .xor => 3 | .min => 4 | .max => 5 | .minn => 6 | .maxn => 7
  | .xchg => 8 | .fadd => 9 | .famax => 10

/-- The ordering code of `amo` and `cas`, FN[5:4] (R295), with its scope. -/
def ordOf (fn : Nat) (sc : Scope) : AmoOrd :=
  match fn / 16 with
  | 0 => .plain | 1 => .acq sc | 2 => .rel sc | _ => .acqrel sc

def ordCode : AmoOrd → Nat
  | .plain => 0 | .acq _ => 1 | .rel _ => 2 | .acqrel _ => 3

def ordScope : AmoOrd → Nat
  | .plain => 0
  | .acq sc | .rel sc | .acqrel sc => scopeCode sc

/-- The codes of `hmov` (R295). -/
def hmovOf : Nat → HmovOp
  | 0 => .mov | 1 => .or | 2 => .and | _ => .andn

def hmovCode : HmovOp → Nat
  | .mov => 0 | .or => 1 | .and => 2 | .andn => 3

/-- The classes of `xmv`, FN[1:0] (R396). -/
def xclsOf (fn : Nat) : XClass :=
  match fn % 4 with
  | 0 => .w | 1 => .p | 2 => .v | _ => .af

def xclsCode : XClass → Nat
  | .w => 0 | .p => 1 | .v => 2 | .af => 3

/-- The system-register numbers of R135. -/
def sysCode : SysReg → Nat
  | .wp => 0x000 | .ctxn => 0x001 | .locid => 0x002 | .netcap => 0x003 | .mode => 0x004 | .qcfg => 0x005
  | .fpflags => 0x010 | .pushst => 0x011 | .rgn => 0x012 | .afr => 0x013 | .hslab => 0x014 | .lrs => 0x015
  | .ptroot => 0x016 | .afnext => 0x020 | .aflim => 0x021 | .pushq => 0x030 | .pushref => 0x031
  | .lmcfg => 0x032 | .rrcfg => 0x033 | .rrptr => 0x034 | .rrref => 0x035 | .rtab0 => 0x036 | .rtab1 => 0x037
  | .swin i => 0x040 + i.val | .lease => 0x050

/-- The system register of a number of R135; `wp` for a number it does not list, which check 9 has refused. -/
def sysOf : Nat → SysReg
  | 0x001 => .ctxn | 0x002 => .locid | 0x003 => .netcap | 0x004 => .mode | 0x005 => .qcfg
  | 0x010 => .fpflags | 0x011 => .pushst | 0x012 => .rgn | 0x013 => .afr | 0x014 => .hslab | 0x015 => .lrs
  | 0x016 => .ptroot | 0x020 => .afnext | 0x021 => .aflim | 0x030 => .pushq | 0x031 => .pushref
  | 0x032 => .lmcfg | 0x033 => .rrcfg | 0x034 => .rrptr | 0x035 => .rrref | 0x036 => .rtab0 | 0x037 => .rtab1
  | 0x040 => .swin 0 | 0x041 => .swin 1 | 0x042 => .swin 2 | 0x043 => .swin 3 | 0x044 => .swin 4
  | 0x045 => .swin 5 | 0x046 => .swin 6 | 0x047 => .swin 7 | 0x050 => .lease
  | _ => .wp

/-- `mts` has a row of its own for each register with a behaviour of its own (R400). -/
def mtsOf (r : SysReg) (a : WReg) : Instr :=
  match r with
  | .wp => .mtsWp a
  | .mode => .modeBringWrite (.reg a)
  | .afnext => .mtsAfnext a
  | .aflim => .mtsAflim a
  | .lmcfg => .mtsLmcfg a
  | .rrcfg => .mtsRrcfg a
  | .pushq => .mtsPushq a
  | .lease => .mtsLease a
  | r => .mts r a

/-- What QUAL means for a mnemonic (R291). -/
inductive QKind where
  | none     -- QUAL is zero
  | scope    -- a scope, 1 to 6
  | order    -- a scope exactly when FN[5:4] names an ordering
  | round    -- a rounding mode, 0 to 4
  deriving DecidableEq, Repr

/-- How a mnemonic uses its immediate (R289, R293, R294). -/
inductive ImmKind where
  | zero     -- unused: zero
  | value    -- any value
  | sub      -- the subfields of R294
  | pred     -- the predicate of classes V and VU: PE = 1 in the 96-bit form, zero in the 64-bit form
  | fma      -- the predicate of vfma and vfms, which may have PE = 0
  deriving DecidableEq, Repr

/-- The class of a register field (R133): unused, a class, or a class that FN selects. -/
inductive RegKind where
  | no | w | p | v | af | h
  | pmD | pmA   -- the fields of pmov, by its direction
  | xmv         -- the D field of xmv, by its class
  deriving DecidableEq, Repr

/-- One row of the opcode map: the allowed lengths, FN values and TYPE codes, and the use of each field. -/
structure Row where
  lens : List Nat := [8]
  fns : List Nat := [0]
  tys : List Nat := [0]
  q : QKind := .none
  imm : ImmKind := .zero
  d : RegKind := .no
  a : RegKind := .no
  b : RegKind := .no
  c : RegKind := .no
  deriving DecidableEq, Repr

/-- The type sets of R315 and R330, as TYPE codes. -/
def memCodes : List Nat := [1, 2, 3, 4, 5, 6, 7, 8, 9, 10, 11, 12]
def intCodes : List Nat := [1, 2, 3, 4, 5, 6, 7, 8]
def fltCodes : List Nat := [9, 10, 12]
def movCodes : List Nat := [1, 2, 3, 4, 5, 6, 7, 8, 9, 10, 12, 13, 14]
def cvtCodes : List Nat := [1, 2, 3, 4, 5, 6, 7, 8, 9, 10, 12, 13, 14, 15, 23]
/-- The FN values of `amo` (R295): an operation 0 to 10 with an ordering 0 to 3. -/
def amoFns : List Nat :=
  [0, 1, 2, 3, 4, 5, 6, 7, 8, 9, 10, 16, 17, 18, 19, 20, 21, 22, 23, 24, 25, 26,
   32, 33, 34, 35, 36, 37, 38, 39, 40, 41, 42, 48, 49, 50, 51, 52, 53, 54, 55, 56, 57, 58]
/-- The FN values of `tdrain` (R295): Z, with AMAX and a scope 1 to 6 together or neither. -/
def drainFns : List Nat := [0, 1, 6, 7, 10, 11, 14, 15, 18, 19, 22, 23, 26, 27]

/-- The encoding of each major opcode (R292, R293, and the entry of each instruction). -/
def rowOf : Nat → Option Row
  | 0x01 => some {  }
  | 0x02 => some { tys := [0, 7], d := .w, a := .w, b := .w }
  | 0x03 => some { tys := [0, 7], d := .w, a := .w, b := .w }
  | 0x04 => some { lens := [8, 12], tys := [0, 7], imm := .value, d := .w, a := .w }
  | 0x05 => some { tys := [0, 7], d := .w, a := .w, b := .w }
  | 0x06 => some { tys := [0, 3], d := .w, a := .w, b := .w }
  | 0x07 => some { tys := [0, 7], d := .w, a := .w, b := .w }
  | 0x08 => some { tys := [0, 3], d := .w, a := .w, b := .w }
  | 0x09 => some { tys := [0, 7], d := .w, a := .w, b := .w }
  | 0x0a => some { tys := [0, 3], d := .w, a := .w, b := .w }
  | 0x0b => some { tys := [0, 7], d := .w, a := .w, b := .w }
  | 0x0c => some { tys := [0, 7], d := .w, a := .w, b := .w }
  | 0x0d => some { tys := [0, 7], d := .w, a := .w, b := .w }
  | 0x0e => some { tys := [0, 7], d := .w, a := .w, b := .w }
  | 0x0f => some { tys := [0, 7], d := .w, a := .w, b := .w }
  | 0x10 => some { tys := [0, 7], d := .w, a := .w, b := .w }
  | 0x11 => some { tys := [0, 7], d := .w, a := .w, b := .w }
  | 0x12 => some { tys := [0, 3], d := .w, a := .w, b := .w }
  | 0x13 => some { tys := [0, 7], d := .w, a := .w, b := .w }
  | 0x14 => some { tys := [0, 7], d := .w, a := .w }
  | 0x15 => some { tys := [0, 7], d := .w, a := .w }
  | 0x16 => some { tys := [0, 7], d := .w, a := .w }
  | 0x17 => some { tys := [0, 3], d := .w, a := .w, b := .w }
  | 0x18 => some { tys := [0, 3], d := .w, a := .w, b := .w }
  | 0x19 => some { tys := [0, 7], d := .w, a := .w, b := .w }
  | 0x1a => some { tys := [0, 7], d := .w, a := .w, b := .w }
  | 0x1b => some { tys := [1, 2, 3, 5, 6, 7], d := .w, a := .w }
  | 0x1c => some { tys := [0, 4], imm := .sub, d := .w, a := .w }
  | 0x1d => some { imm := .sub, d := .w, a := .w }
  | 0x1e => some { lens := [8, 12, 16], imm := .value, d := .w }
  | 0x1f => some { lens := [8, 12], fns := [0, 64], imm := .value, d := .w, a := .w }
  | 0x20 => some { fns := [0, 1, 2, 3], tys := [3, 4, 7, 8, 9, 10, 11, 12], d := .w, a := .w, b := .w }
  | 0x21 => some { lens := [12], d := .w, a := .w, b := .w, c := .w }
  | 0x22 => some { d := .w, a := .w }
  | 0x23 => some { lens := [8, 12], imm := .value, a := .p }
  | 0x24 => some { lens := [8, 12], imm := .value, a := .w }
  | 0x25 => some { lens := [8, 12], imm := .value, a := .w }
  | 0x26 => some { lens := [8, 12], imm := .value }
  | 0x27 => some { lens := [8, 12], imm := .value, d := .w }
  | 0x28 => some { a := .w }
  | 0x29 => some { d := .w, a := .w }
  | 0x2a => some { lens := [8, 12], imm := .value, a := .w }
  | 0x2b => some {  }
  | 0x2c => some {  }
  | 0x30 => some { lens := [8, 12], fns := [0, 64], tys := memCodes, imm := .value, d := .w, a := .w }
  | 0x31 => some { lens := [8, 12], tys := memCodes, imm := .value, a := .w, b := .w }
  | 0x32 => some { lens := [8, 12], tys := memCodes, q := .scope, imm := .value, d := .w, a := .w }
  | 0x33 => some { lens := [8, 12], tys := memCodes, q := .scope, imm := .value, a := .w, b := .w }
  | 0x34 => some { fns := [0, 1, 2], q := .scope }
  | 0x35 => some { lens := [8, 12], imm := .value, d := .w, a := .w }
  | 0x36 => some { lens := [8, 12], imm := .value, d := .w, a := .w }
  | 0x37 => some { lens := [8, 12], q := .scope, imm := .value, a := .w, b := .w }
  | 0x38 => some { lens := [8, 12], imm := .value, a := .w }
  | 0x39 => some { lens := [12], fns := [0, 1], tys := memCodes, imm := .value, a := .w, b := .w, c := .w }
  | 0x3a => some { lens := [8, 12], imm := .value, a := .w }
  | 0x3b => some { lens := [8, 12], imm := .value, a := .w }
  | 0x3c => some { lens := [8, 12], imm := .value, a := .w }
  | 0x3d => some { lens := [8, 12], imm := .value, a := .w }
  | 0x3e => some {  }
  | 0x3f => some {  }
  | 0x40 => some { fns := amoFns, tys := [7, 8, 10, 11], q := .order, d := .w, a := .w, b := .w }
  | 0x41 => some { lens := [12], fns := [0, 16, 32, 48], tys := [7, 8], q := .order, d := .w, a := .w, b := .w, c := .w }
  | 0x42 => some { fns := [0, 1, 2, 3, 4, 5, 6], imm := .sub, a := .w, b := .w }
  | 0x43 => some { imm := .sub }
  | 0x44 => some { imm := .sub }
  | 0x48 => some { d := .p, a := .p, b := .p }
  | 0x49 => some { d := .p, a := .p, b := .p }
  | 0x4a => some { d := .p, a := .p, b := .p }
  | 0x4b => some { d := .p, a := .p }
  | 0x4c => some { fns := [0, 1, 2], d := .pmD, a := .pmA }
  | 0x50 => some { lens := [8, 12], tys := movCodes, imm := .value, d := .v, a := .w }
  | 0x51 => some { lens := [8, 12], tys := movCodes, imm := .value, a := .w, b := .v }
  | 0x52 => some { lens := [8, 12], tys := movCodes, imm := .value, d := .v, a := .w, b := .w }
  | 0x53 => some { tys := [3, 4, 7, 8, 10], d := .v, a := .w, b := .v }
  | 0x54 => some { lens := [12], tys := [3, 4, 7, 8, 10], a := .w, b := .v, c := .v }
  | 0x55 => some { lens := [8, 12], tys := movCodes, imm := .pred, d := .v, a := .w }
  | 0x56 => some { tys := movCodes, imm := .sub, d := .v, a := .w }
  | 0x57 => some { tys := movCodes, imm := .sub, d := .w, a := .v }
  | 0x58 => some { lens := [8, 12], tys := (intCodes ++ fltCodes), q := .round, imm := .pred, d := .v, a := .v, b := .v }
  | 0x59 => some { lens := [8, 12], tys := (intCodes ++ fltCodes), q := .round, imm := .pred, d := .v, a := .v, b := .v }
  | 0x5a => some { lens := [8, 12], tys := (intCodes ++ fltCodes), q := .round, imm := .pred, d := .v, a := .v, b := .v }
  | 0x5b => some { lens := [12], tys := fltCodes, q := .round, imm := .fma, d := .v, a := .v, b := .v, c := .v }
  | 0x5c => some { lens := [12], tys := fltCodes, q := .round, imm := .fma, d := .v, a := .v, b := .v, c := .v }
  | 0x5d => some { lens := [8, 12], tys := (intCodes ++ fltCodes), imm := .pred, d := .v, a := .v, b := .v }
  | 0x5e => some { lens := [8, 12], tys := (intCodes ++ fltCodes), imm := .pred, d := .v, a := .v, b := .v }
  | 0x5f => some { lens := [8, 12], tys := ([1, 2, 3, 4] ++ fltCodes), imm := .pred, d := .v, a := .v }
  | 0x60 => some { lens := [8, 12], tys := (intCodes ++ fltCodes), imm := .pred, d := .v, a := .v }
  | 0x61 => some { lens := [8, 12], tys := intCodes, imm := .pred, d := .v, a := .v, b := .v }
  | 0x62 => some { lens := [8, 12], tys := intCodes, imm := .pred, d := .v, a := .v, b := .v }
  | 0x63 => some { lens := [8, 12], tys := intCodes, imm := .pred, d := .v, a := .v, b := .v }
  | 0x64 => some { lens := [8, 12], tys := intCodes, imm := .pred, d := .v, a := .v, b := .v }
  | 0x65 => some { lens := [8, 12], tys := intCodes, imm := .pred, d := .v, a := .v, b := .v }
  | 0x66 => some { lens := [8, 12], tys := intCodes, imm := .pred, d := .v, a := .v, b := .v }
  | 0x67 => some { lens := [8, 12], fns := [0, 1, 2, 3], tys := (intCodes ++ fltCodes), imm := .pred, d := .p, a := .v, b := .v }
  | 0x68 => some { lens := [12], tys := movCodes, imm := .pred, d := .v, a := .v, b := .v }
  | 0x69 => some { lens := [8, 12], fns := cvtCodes, tys := cvtCodes, q := .round, imm := .pred, d := .v, a := .v }
  | 0x6a => some { tys := (intCodes ++ fltCodes), q := .round, d := .w, a := .v, b := .p }
  | 0x6b => some { lens := [8, 12], tys := movCodes, imm := .pred, d := .v, a := .v, b := .v }
  | 0x6c => some { tys := movCodes, imm := .sub, d := .v, a := .v }
  | 0x6d => some { imm := .sub, d := .p, a := .v, b := .w }
  | 0x6e => some { imm := .sub, d := .v, a := .p }
  | 0x6f => some { tys := [5, 6, 7, 10, 12, 23], d := .v, a := .v, b := .w }
  | 0x70 => some { lens := [8, 12], fns := [0, 1], tys := [16, 17, 18, 19, 20], q := .round, imm := .pred, d := .v, a := .v }
  | 0x71 => some { lens := [8, 12], fns := [0, 1], tys := [16, 17, 18, 19, 20], q := .round, imm := .pred, d := .v, a := .v }
  | 0x80 => some { fns := [0, 1, 2], d := .w, a := .w }
  | 0x81 => some { a := .w }
  | 0x82 => some {  }
  | 0x83 => some { a := .w, b := .w }
  | 0x84 => some { imm := .sub, a := .w }
  | 0x85 => some { lens := [8, 12], fns := drainFns, tys := [9, 10, 12, 13, 14], q := .round, a := .w, b := .w, c := .w }
  | 0x86 => some { a := .w }
  | 0x87 => some { a := .w }
  | 0x88 => some {  }
  | 0x89 => some { imm := .sub }
  | 0x8a => some {  }
  | 0x8b => some { a := .w }
  | 0x8c => some { imm := .sub, d := .w }
  | 0x8d => some { imm := .sub }
  | 0x8e => some { a := .w }
  | 0x8f => some { imm := .sub, a := .w }
  | 0x90 => some { imm := .sub, a := .w }
  | 0x91 => some { imm := .sub, d := .w }
  | 0x92 => some { imm := .sub, d := .w }
  | 0x93 => some { imm := .sub, d := .w }
  | 0xa0 => some { a := .w }
  | 0xa1 => some { lens := [8, 12], imm := .value, d := .h, a := .w }
  | 0xa2 => some { lens := [8, 12], imm := .value, a := .w, b := .h }
  | 0xa3 => some { fns := [0, 1], tys := [3, 7, 10, 11], a := .w, b := .w }
  | 0xa4 => some { imm := .value, d := .w }
  | 0xa5 => some { d := .w, a := .w }
  | 0xa6 => some { a := .w }
  | 0xa7 => some { fns := [0, 1], imm := .sub, a := .w }
  | 0xa8 => some { d := .w, a := .h }
  | 0xa9 => some { d := .w, a := .h, b := .w }
  | 0xaa => some { fns := [0, 1, 2, 3], d := .h, a := .h, b := .h }
  | 0xab => some {  }
  | 0xb0 => some { d := .af, a := .w, b := .w }
  | 0xb1 => some { lens := [8, 12], imm := .value, d := .af, a := .w }
  | 0xb2 => some { lens := [8, 12], imm := .value, a := .w, b := .af }
  | 0xb3 => some { d := .af, a := .af }
  | 0xb4 => some { d := .af, a := .af, b := .af }
  | 0xb5 => some { d := .af, a := .af, b := .af }
  | 0xb6 => some { d := .af, a := .af, b := .w }
  | 0xb7 => some { d := .af, a := .af, b := .w }
  | 0xb8 => some { d := .af, a := .af, b := .af }
  | 0xb9 => some { d := .af, a := .af }
  | 0xba => some { imm := .sub, d := .af, a := .af, b := .w }
  | 0xbb => some { tys := [10, 11], d := .w, a := .af }
  | 0xbc => some { d := .w }
  | 0xbd => some { tys := [10, 12], d := .v, a := .af, b := .w }
  | 0xbe => some { d := .af, a := .v, b := .w }
  | 0xc0 => some { d := .w, a := .w }
  | 0xc1 => some { q := .scope, a := .w }
  | 0xc2 => some {  }
  | 0xc3 => some { a := .w, b := .w }
  | 0xc4 => some { d := .w, a := .w }
  | 0xc5 => some { imm := .sub }
  | 0xc6 => some { d := .w, a := .w }
  | 0xc7 => some { d := .w }
  | 0xc8 => some {  }
  | 0xc9 => some { fns := [0, 1, 2, 3, 4, 5, 6, 7], d := .xmv, a := .w }
  | 0xca => some { imm := .sub, d := .w }
  | 0xcb => some {  }
  | 0xcc => some { imm := .sub, d := .w }
  | 0xcd => some { imm := .sub, a := .w }
  | 0xce => some { imm := .value }
  | 0xcf => some {  }
  | 0xd0 => some { imm := .value }
  | 0xd1 => some { imm := .value }
  | 0xd2 => some { d := .w }
  | 0xd3 => some {  }
  | 0xd4 => some { a := .w }
  | 0xd5 => some { a := .w, b := .w }
  | 0xd6 => some { a := .w, b := .w }
  | 0xd7 => some { lens := [12], a := .w, b := .w, c := .w }
  | 0xd8 => some {  }
  | _ => none

/-- The instruction an opcode names, once the checks of R296 have passed: its fields read as the entry gives them. -/
def buildInstr (f : Fields) : Option Instr :=
  let t := tyOf f.ty.toNat
  let fn := f.fn.toNat
  let rm := rmOf f.qual.toNat
  let sc := scopeOf f.qual.toNat
  match f.op.toNat with
  | 0x01 => some (.nop)
  | 0x02 => some (.add t (regW f.d) (regW f.a) (regW f.b))
  | 0x03 => some (.sub t (regW f.d) (regW f.a) (regW f.b))
  | 0x04 => some (.addi t (regW f.d) (regW f.a) f.imm)
  | 0x05 => some (.mul t (regW f.d) (regW f.a) (regW f.b))
  | 0x06 => some (.mulh t (regW f.d) (regW f.a) (regW f.b))
  | 0x07 => some (.mulhn t (regW f.d) (regW f.a) (regW f.b))
  | 0x08 => some (.div t (regW f.d) (regW f.a) (regW f.b))
  | 0x09 => some (.divn t (regW f.d) (regW f.a) (regW f.b))
  | 0x0a => some (.rem t (regW f.d) (regW f.a) (regW f.b))
  | 0x0b => some (.remn t (regW f.d) (regW f.a) (regW f.b))
  | 0x0c => some (.and t (regW f.d) (regW f.a) (regW f.b))
  | 0x0d => some (.or t (regW f.d) (regW f.a) (regW f.b))
  | 0x0e => some (.xor t (regW f.d) (regW f.a) (regW f.b))
  | 0x0f => some (.andn t (regW f.d) (regW f.a) (regW f.b))
  | 0x10 => some (.shl t (regW f.d) (regW f.a) (regW f.b))
  | 0x11 => some (.shr t (regW f.d) (regW f.a) (regW f.b))
  | 0x12 => some (.sra t (regW f.d) (regW f.a) (regW f.b))
  | 0x13 => some (.rotr t (regW f.d) (regW f.a) (regW f.b))
  | 0x14 => some (.clz t (regW f.d) (regW f.a))
  | 0x15 => some (.ctz t (regW f.d) (regW f.a))
  | 0x16 => some (.popc t (regW f.d) (regW f.a))
  | 0x17 => some (.min t (regW f.d) (regW f.a) (regW f.b))
  | 0x18 => some (.max t (regW f.d) (regW f.a) (regW f.b))
  | 0x19 => some (.minn t (regW f.d) (regW f.a) (regW f.b))
  | 0x1a => some (.maxn t (regW f.d) (regW f.a) (regW f.b))
  | 0x1b => some (.sext t (regW f.d) (regW f.a))
  | 0x1c => some (.bfx (t = .i64) (regW f.d) (regW f.a) (subfield f 0 6) (subfield f 6 7))
  | 0x1d => some (.bfi (regW f.d) (regW f.a) (subfield f 0 6) (subfield f 6 7))
  | 0x1e => some (.li (regW f.d) f.imm)
  | 0x1f => some (.lea (regW f.d) (mbase f) f.imm)
  | 0x20 => some (.scmp t (relOf fn) (regW f.d) (regW f.a) (regW f.b))
  | 0x21 => some (.sel (regW f.d) (regW f.a) (regW f.b) (regW f.c))
  | 0x22 => some (.mov (regW f.d) (regW f.a))
  | 0x23 => some (.b (regP f.a) f.imm)
  | 0x24 => some (.bz (regW f.a) f.imm)
  | 0x25 => some (.bnz (regW f.a) f.imm)
  | 0x26 => some (.j f.imm)
  | 0x27 => some (.jal (regW f.d) f.imm)
  | 0x28 => some (.jr (regW f.a))
  | 0x29 => some (.jalr (regW f.d) (regW f.a))
  | 0x2a => some (.loop (regW f.a) f.imm)
  | 0x2b => some (.yield)
  | 0x2c => some (.endT)
  | 0x30 => some (.ld t (regW f.d) (mbase f) f.imm)
  | 0x31 => some (.st t (regW f.a) f.imm (regW f.b))
  | 0x32 => some (.lda t sc (regW f.d) (regW f.a) f.imm)
  | 0x33 => some (.stl t sc (regW f.a) f.imm (regW f.b))
  | 0x34 => some (if fn = 0 then .fence sc else if fn = 1 then .fenceRel sc else .fenceAcq sc)
  | 0x35 => some (.ldf (regW f.d) (regW f.a) f.imm)
  | 0x36 => some (.ldt (regW f.d) (regW f.a) f.imm)
  | 0x37 => some (.stf sc (regW f.a) f.imm (regW f.b))
  | 0x38 => some (.clre (regW f.a) f.imm)
  | 0x39 => some (.push t (if fn = 0 then .mask else .list) (regW f.a) f.imm32 (regW f.b) (regW f.c))
  | 0x3a => some (.pref (regW f.a) f.imm)
  | 0x3b => some (.cwb (regW f.a) f.imm)
  | 0x3c => some (.cinv (regW f.a) f.imm)
  | 0x3d => some (.cfl (regW f.a) f.imm)
  | 0x3e => some (.icinv)
  | 0x3f => some (.fbar)
  | 0x40 => some (.amo (amoOf fn) t (ordOf fn sc) (regW f.d) (regW f.a) (regW f.b))
  | 0x41 => some (.cas t (ordOf fn sc) (regW f.d) (regW f.a) (regW f.b) (regW f.c))
  | 0x42 => some (.smap (fin8 (subfield f 0 3)) (BitVec.ofNat 3 fn) (regW f.a) (regW f.b))
  | 0x43 => some (.sunmap (fin8 (subfield f 0 3)))
  | 0x44 => some (.swb (fin8 (subfield f 0 3)))
  | 0x48 => some (.pand (regP f.d) (regP f.a) (regP f.b))
  | 0x49 => some (.por (regP f.d) (regP f.a) (regP f.b))
  | 0x4a => some (.pxor (regP f.d) (regP f.a) (regP f.b))
  | 0x4b => some (.pnot (regP f.d) (regP f.a))
  | 0x4c => some (.pmov (if fn = 0 then .pp (regP f.d) (regP f.a) else if fn = 1 then .pw (regP f.d) (regW f.a) else .wp (regW f.d) (regP f.a)))
  | 0x50 => some (.vld t (regV f.d) (regW f.a) f.imm)
  | 0x51 => some (.vst t (regW f.a) f.imm (regV f.b))
  | 0x52 => some (.vlds t (regV f.d) (regW f.a) f.imm (regW f.b))
  | 0x53 => some (.vgat t (regV f.d) (regW f.a) (regV f.b))
  | 0x54 => some (.vsct t (regW f.a) (regV f.b) (regV f.c))
  | 0x55 => some (.vbc t (regV f.d) (regW f.a) f.pred)
  | 0x56 => some (.vins t (regV f.d) (regW f.a) (subfield f 0 6))
  | 0x57 => some (.vext t (regW f.d) (regV f.a) (subfield f 0 6))
  | 0x58 => some (.vadd t rm (regV f.d) (regV f.a) (regV f.b) f.pred)
  | 0x59 => some (.vsub t rm (regV f.d) (regV f.a) (regV f.b) f.pred)
  | 0x5a => some (.vmul t rm (regV f.d) (regV f.a) (regV f.b) f.pred)
  | 0x5b => some (.vfma t rm (regV f.d) (regV f.a) (regV f.b) (regV f.c) f.pred)
  | 0x5c => some (.vfms t rm (regV f.d) (regV f.a) (regV f.b) (regV f.c) f.pred)
  | 0x5d => some (.vmax t (regV f.d) (regV f.a) (regV f.b) f.pred)
  | 0x5e => some (.vmin t (regV f.d) (regV f.a) (regV f.b) f.pred)
  | 0x5f => some (.vabs t (regV f.d) (regV f.a) f.pred)
  | 0x60 => some (.vneg t (regV f.d) (regV f.a) f.pred)
  | 0x61 => some (.vand t (regV f.d) (regV f.a) (regV f.b) f.pred)
  | 0x62 => some (.vor t (regV f.d) (regV f.a) (regV f.b) f.pred)
  | 0x63 => some (.vxor t (regV f.d) (regV f.a) (regV f.b) f.pred)
  | 0x64 => some (.vshl t (regV f.d) (regV f.a) (regV f.b) f.pred)
  | 0x65 => some (.vshr t (regV f.d) (regV f.a) (regV f.b) f.pred)
  | 0x66 => some (.vsra t (regV f.d) (regV f.a) (regV f.b) f.pred)
  | 0x67 => some (.vcmp t (relOf fn) (regP f.d) (regV f.a) (regV f.b) f.pred)
  | 0x68 => some (.vsel t (regV f.d) (regV f.a) (regV f.b) (fin8 (f.imm32.truncate 3)))
  | 0x69 => some (.vcvt (tyOf fn) t rm (regV f.d) (regV f.a) f.pred)
  | 0x6a => some (.vred t rm (regW f.d) (regV f.a) (regP f.b))
  | 0x6b => some (.vperm t (regV f.d) (regV f.a) (regV f.b) f.pred)
  | 0x6c => some (.vslide t (regV f.d) (regV f.a) (subfield f 0 6))
  | 0x6d => some (.vcmpm (regP f.d) (regV f.a) (regW f.b) (subfield f 0 3) (subfield f 3 6))
  | 0x6e => some (.vleaf (regV f.d) (regP f.a) (subfield f 0 3) (subfield f 3 6))
  | 0x6f => some (.vlut t (regV f.d) (regV f.a) (regW f.b))
  | 0x70 => some (.vquant t (fn = 1) rm (regV f.d) (regV f.a) f.pred)
  | 0x71 => some (.vdeq t (fn = 1) rm (regV f.d) (regV f.a) f.pred)
  | 0x80 => some (if fn = 0 then .tcfg (regW f.d) (regW f.a) else if fn = 1 then .tcfgClaim (regW f.d) (regW f.a) else .tcfgRel (regW f.d) (regW f.a))
  | 0x81 => some (.tldw (regW f.a))
  | 0x82 => some (.tswap)
  | 0x83 => some (.tmma (regW f.a) (regW f.b))
  | 0x84 => some (.tscq (regW f.a) (subfield f 0 5))
  | 0x85 => some (.tdrain t rm (fn % 2 = 1) (if fn / 2 % 2 = 1 then some (scopeOf (fn / 4), regW f.c) else none) (regW f.a) (regW f.b))
  | 0x86 => some (.tzero (regW f.a))
  | 0x87 => some (.tsmeta (regW f.a))
  | 0x88 => some (.twait)
  | 0x89 => some (.rpt (fin16 (subfield f 0 4)) (subfield f 4 12) (fin8 (subfield f 16 3)))
  | 0x8a => some (.rptw)
  | 0x8b => some (.cpy (regW f.a))
  | 0x8c => some (.cpyq (regW f.d) (fin32 (subfield f 0 5)))
  | 0x8d => some (.cpycan (fin32 (subfield f 0 5)))
  | 0x8e => some (.gbin (regW f.a))
  | 0x8f => some (.binr (regW f.a) (fin32 (subfield f 0 5)))
  | 0x90 => some (.tlwait (fin64 (subfield f 0 6)) (regW f.a))
  | 0x91 => some (.tlread (regW f.d) (fin64 (subfield f 0 6)))
  | 0x92 => some (.tladv (regW f.d) (fin64 (subfield f 0 6)))
  | 0x93 => some (.wptr (regW f.d) (fin32 (subfield f 0 5)))
  | 0xa0 => some (.hinit (regW f.a))
  | 0xa1 => some (.hld (regH f.d) (regW f.a) f.imm)
  | 0xa2 => some (.hst (regW f.a) f.imm (regH f.b))
  | 0xa3 => some (.hcmp t (fn = 1) (regW f.a) (regW f.b))
  | 0xa4 => some (.hsplit (regW f.d) f.imm24)
  | 0xa5 => some (.hmeet (regW f.d) (regW f.a))
  | 0xa6 => some (.hfound (regW f.a))
  | 0xa7 => some (.hside (fn = 1) (regW f.a) (subfield f 0 6))
  | 0xa8 => some (.hpop (regW f.d) (regH f.a))
  | 0xa9 => some (.hnext (regW f.d) (regH f.a) (regW f.b))
  | 0xaa => some (.hmov (hmovOf fn) (regH f.d) (regH f.a) (regH f.b))
  | 0xab => some (.hdrop)
  | 0xb0 => some (.afnew (regAf f.d) (regW f.a) (regW f.b))
  | 0xb1 => some (.afld (regAf f.d) (regW f.a) f.imm)
  | 0xb2 => some (.afst (regW f.a) f.imm (regAf f.b))
  | 0xb3 => some (.afmov (regAf f.d) (regAf f.a))
  | 0xb4 => some (.afadd (regAf f.d) (regAf f.a) (regAf f.b))
  | 0xb5 => some (.afsub (regAf f.d) (regAf f.a) (regAf f.b))
  | 0xb6 => some (.afscl (regAf f.d) (regAf f.a) (regW f.b))
  | 0xb7 => some (.afaddc (regAf f.d) (regAf f.a) (regW f.b))
  | 0xb8 => some (.afmul (regAf f.d) (regAf f.a) (regAf f.b))
  | 0xb9 => some (.afrelu (regAf f.d) (regAf f.a))
  | 0xba => some (.afcond (regAf f.d) (regAf f.a) (regW f.b) (subfield f 0 4))
  | 0xbb => some (.afrng t (regW f.d) (regAf f.a))
  | 0xbc => some (.afdom (regW f.d))
  | 0xbd => some (.afpack t (regV f.d) (regAf f.a) (regW f.b))
  | 0xbe => some (.afunpk (regAf f.d) (regV f.a) (regW f.b))
  | 0xc0 => some (.spawn (regW f.d) (regW f.a))
  | 0xc1 => some (.decr sc (regW f.a))
  | 0xc2 => some (.cdone)
  | 0xc3 => some (.renq (regW f.a) (regW f.b))
  | 0xc4 => some (.rdeq (regW f.d) (regW f.a))
  | 0xc5 => some (.eos (fin4 (subfield f 0 2)))
  | 0xc6 => some (.steal (regW f.d) (regW f.a))
  | 0xc7 => some (.borrow (regW f.d))
  | 0xc8 => some (.retbr)
  | 0xc9 => some (.xmv (xclsOf fn) (4 ≤ fn) f.d (regW f.a))
  | 0xca => some (.wid (regW f.d) (fin8 (subfield f 0 3)))
  | 0xcb => some (.tbar)
  | 0xcc => some (.mfs (regW f.d) (sysOf (subfield f 0 12).toNat))
  | 0xcd => some (mtsOf (sysOf (subfield f 0 12).toNat) (regW f.a))
  | 0xce => some (.trap f.imm24)
  | 0xcf => some (.eret)
  | 0xd0 => some (.brk f.imm24)
  | 0xd1 => some (.mark f.imm24)
  | 0xd2 => some (.gtime (regW f.d))
  | 0xd3 => some (.wfe)
  | 0xd4 => some (.swp (regW f.a))
  | 0xd5 => some (.ctxs (regW f.a) (regW f.b))
  | 0xd6 => some (.ctxl (regW f.a) (regW f.b))
  | 0xd7 => some (.tinv (regW f.a) (regW f.b) (regW f.c))
  | 0xd8 => some (.tsync)
  | _ => none

/-- Check 6 for QUAL (R291), with the rule that an integer TYPE has no rounding modifier (R331, R343) and that a
`gz8` result has none (R164, R342). -/
def qualOk (row : Row) (f : Fields) : Bool :=
  let q := f.qual.toNat
  match row.q with
  | .none => q = 0
  | .scope => 1 ≤ q && q ≤ 6
  | .order => if f.fn.toNat / 16 = 0 then q = 0 else 1 ≤ q && q ≤ 6
  | .round =>
    q ≤ 4 && (if f.op.toNat = 0x69 then f.fn.toNat ≠ 23 || q = 0
              else !(intCodes.contains f.ty.toNat) || q = 0)

/-- Check 6 for TYPE (R290), with the pairs that FN and TYPE make together: the operations of `amo` (R325), the
`e5m2` elements of `mxfp8` (R295), and the two types of `vcvt` (R342). -/
def typeOk (row : Row) (f : Fields) : Bool :=
  row.tys.contains f.ty.toNat &&
  (match f.op.toNat with
   | 0x40 => (amoOf f.fn.toNat).tyOk (tyOf f.ty.toNat)
   | 0x69 => f.fn.toNat ≠ f.ty.toNat
   | 0x70 | 0x71 => f.fn.toNat = 0 || f.ty.toNat = 17
   | _ => true)

/-- Check 7 for one field (R133). -/
def regOk (k : RegKind) (fn : Nat) (x : BitVec 5) : Bool :=
  match k with
  | .no => true
  | .w => x.toNat < 16
  | .p => x.toNat < 8
  | .v => true
  | .af => x.toNat < 8
  | .h => x.toNat < 3
  | .pmD => if fn = 2 then x.toNat < 16 else x.toNat < 8
  | .pmA => if fn = 1 then x.toNat < 16 else x.toNat < 8
  | .xmv => x.toNat < (xclsOf fn).limit

/-- The register parities of `vquant` and `vdeq` (R347) and `afrng.f64` (R381). -/
def parityOk (f : Fields) : Bool :=
  match f.op.toNat with
  | 0x70 => f.a.toNat % 2 = 0
  | 0x71 => f.d.toNat % 2 = 0
  | 0xbb => f.ty.toNat ≠ 11 || f.d.toNat % 2 = 0
  | _ => true

/-- Check 8: unused register fields and immediates are zero (R289, R293, R295). -/
def unusedOk (row : Row) (f : Fields) : Bool :=
  (row.d ≠ .no || f.d = 0) && (row.a ≠ .no || f.a = 0) && (row.b ≠ .no || f.b = 0) && (row.c ≠ .no || f.c = 0) &&
  (match f.op.toNat with
   | 0x1f | 0x30 => f.fn.toNat ≠ 64 || f.a = 0
   | 0xaa => f.fn.toNat ≠ 0 || f.b = 0
   | 0x85 => decide (f.len = 12) = decide (f.fn.toNat / 2 % 2 = 1) && (f.fn.toNat / 2 % 2 = 1 || f.c = 0)
   | _ => true) &&
  (match row.imm with
   | .zero => f.immNat = 0
   | .value | .sub => true
   | .pred => if f.len = 8 then f.immNat = 0 else f.immNat / 8 = 1
   | .fma => f.immNat / 8 = 1 || f.immNat = 0)

/-- Check 9: the limits of R294. -/
def subfieldOk (f : Fields) : Bool :=
  let i := f.imm24.toNat
  match f.op.toNat with
  | 0x1c | 0x1d => i < 2 ^ 13 && fieldOk (i % 64) (i / 64)
  | 0x42 | 0x43 | 0x44 => i < 8
  | 0x56 | 0x57 | 0x6c => i < (tyOf f.ty.toNat).elems
  | 0x6d => i < 2 ^ 9 && treesOk (i % 8) (i / 8)
  | 0x6e => i < 2 ^ 9 && treesOk (i % 8) (i / 8) && (i / 8 ≤ 16 || f.d.toNat % 2 = 0)
  | 0x84 => 1 ≤ i && i ≤ 16
  | 0x89 => i < 2 ^ 19
  | 0x8c | 0x8d | 0x8f | 0x93 => i < 32
  | 0x90 | 0x91 | 0x92 => i < 64
  | 0xa7 => i < 64 && hsideOff i
  | 0xba => i ≤ 8
  | 0xc5 => i < 4
  | 0xca => i < 8
  | 0xcc | 0xcd => sysCode (sysOf i) = i
  | _ => true

/-- The checks of R296 that follow the length and the block boundary, then the instruction. -/
def decodeFields (f : Fields) : Except DecodeError Instr :=
  match rowOf f.op.toNat with
  | none => .error .unassigned
  | some row =>
    if !row.lens.contains f.len then .error .badLength
    else if !row.fns.contains f.fn.toNat then .error .badFn
    else if !(typeOk row f && qualOk row f) then .error .badTypeOrQual
    else if !(regOk row.d f.fn.toNat f.d && regOk row.a f.fn.toNat f.a && regOk row.b f.fn.toNat f.b
              && regOk row.c f.fn.toNat f.c && parityOk f) then .error .badRegister
    else if !unusedOk row f then .error .unusedNonzero
    else if !subfieldOk f then .error .badSubfield
    else match buildInstr f with
      | some i => .ok i
      | none => .error .unassigned

/-- The fields of an instruction of `len` bytes read as one little-endian number (R287, R288); bits 63 to 45 of the
longer forms are check 8. -/
def splitFields (len n : Nat) : Except DecodeError Fields :=
  let base (t : Tail) : Fields :=
    { op := BitVec.ofNat 8 (n / 2 ^ 2), d := BitVec.ofNat 5 (n / 2 ^ 10), a := BitVec.ofNat 5 (n / 2 ^ 15),
      b := BitVec.ofNat 5 (n / 2 ^ 20), fn := BitVec.ofNat 7 (n / 2 ^ 25), ty := BitVec.ofNat 5 (n / 2 ^ 32),
      qual := BitVec.ofNat 3 (n / 2 ^ 37), tail := t }
  let c := BitVec.ofNat 5 (n / 2 ^ 40)
  if len = 8 then .ok (base (.short (BitVec.ofNat 24 (n / 2 ^ 40))))
  else if n / 2 ^ 45 % 2 ^ 19 ≠ 0 then .error .unusedNonzero
  else if len = 12 then .ok (base (.mid c (BitVec.ofNat 32 (n / 2 ^ 64))))
  else .ok (base (.long c (BitVec.ofNat 64 (n / 2 ^ 64))))

/-- The little-endian number that a list of bytes holds (R5). -/
def leNat : List Byte → Nat
  | [] => 0
  | b :: bs => b.toNat + 256 * leNat bs

/-- The length in bytes that bits [1:0] of the first byte give (R284). -/
def lenOf (n : Nat) : Nat :=
  match n % 4 with
  | 0 => 8
  | 1 => 12
  | 2 => 16
  | _ => 4

/-- Decoding the number of a whole instruction of `len` bytes. OP 0x00 in the 64-bit form is `udf` (R412). -/
def decodeNat (len n : Nat) : Except DecodeError Instr :=
  if len = 4 then (if n = 0xFFFFFFFF then .ok .pad else .error .badPadWord)
  else if len = 8 ∧ n / 4 % 256 = 0 then .ok (.udf (BitVec.ofNat 64 n))
  else match splitFields len n with
    | .error e => .error (if (rowOf (n / 4 % 256)).isNone then .unassigned else e)
    | .ok f => decodeFields f

/-- Decoding the bytes from PC to the end of the 32-byte block (R286, R296): the instruction and its length. -/
def decode (bytes : List Byte) : Except DecodeError (Instr × Nat) :=
  let n0 := leNat (bytes.take 4)
  let len := lenOf n0
  if len = 4 ∧ n0 ≠ 0xFFFFFFFF then .error .badPadWord
  else if bytes.length < len then .error .crossesBlock
  else match decodeNat len (leNat (bytes.take len)) with
    | .ok i => .ok (i, len)
    | .error e => .error e

/-- The first 64 bits that the fault record keeps (R245, R296): the bytes that lie in the block, the rest zero; the
word zero-extended for the length code 0b11. -/
def first64 (bytes : List Byte) : Word :=
  if lenOf (leNat (bytes.take 4)) = 4 then BitVec.ofNat 64 (leNat (bytes.take 4))
  else BitVec.ofNat 64 (leNat (bytes.take 8))

/-- The bytes of a number, least significant first. -/
def natBytes : Nat → Nat → List Byte
  | 0, _ => []
  | k + 1, n => BitVec.ofNat 8 n :: natBytes k (n / 256)

/-- The instruction the decoder reads from the bits of an opcode-table row, every bit above `nbits` zero. -/
def decodeTableWord (nbits w : Nat) : Option Instr :=
  match decode (natBytes 16 (w % 2 ^ nbits)) with
  | .ok (i, _) => some i
  | .error _ => none

/-! ### The encoder -/

def r5 (n : Nat) : BitVec 5 := BitVec.ofNat 5 n
def ew (x : WReg) : BitVec 5 := r5 x.val
def ep (x : PReg) : BitVec 5 := r5 x.val
def ev (x : VReg) : BitVec 5 := r5 x.val
def eaf (x : AfReg) : BitVec 5 := r5 x.val
def eh : HReg → BitVec 5
  | .hm => 0
  | .hx => 1
  | .hf => 2

/-- A field record of the 64-bit form. -/
def enc (op : Nat) (d : BitVec 5 := 0) (a : BitVec 5 := 0) (b : BitVec 5 := 0) (fn : Nat := 0) (t : Ty := .nt)
    (q : Nat := 0) (tail : Tail := .short 0) : Fields :=
  { op := BitVec.ofNat 8 op, d := d, a := a, b := b, fn := BitVec.ofNat 7 fn, ty := BitVec.ofNat 5 (tyCode t),
    qual := BitVec.ofNat 3 q, tail := tail }

/-- The tail that carries an immediate. -/
def tImm : Imm → Tail
  | .i24 v => .short v
  | .i32 v => .mid 0 v
  | .i64 v => .long 0 v

/-- The tail of a subfield immediate. -/
def tSub (n : Nat) : Tail := .short (BitVec.ofNat 24 n)

/-- The tail of a predicated form (R293). -/
def tPred : Option PReg → Tail
  | none => .short 0
  | some p => .mid 0 (BitVec.ofNat 32 (8 + p.val))

/-- The tail of `vfma` and `vfms`. -/
def tFma (c : VReg) : Option PReg → Tail
  | none => .mid (ev c) 0
  | some p => .mid (ev c) (BitVec.ofNat 32 (8 + p.val))

/-- The fields of PCREL forms. -/
def ebase : MBase → BitVec 5
  | .reg a => ew a
  | .pc => 0

def efn : MBase → Nat
  | .reg _ => 0
  | .pc => 64

def b2n (b : Bool) : Nat := if b then 1 else 0

/-- The fields of each encoded instruction, written from its entry. -/
def toFields : Instr → Option Fields
  | .add t d a b => some (enc 0x02 (ew d) (ew a) (ew b) 0 t)
  | .sub t d a b => some (enc 0x03 (ew d) (ew a) (ew b) 0 t)
  | .mul t d a b => some (enc 0x05 (ew d) (ew a) (ew b) 0 t)
  | .mulh t d a b => some (enc 0x06 (ew d) (ew a) (ew b) 0 t)
  | .mulhn t d a b => some (enc 0x07 (ew d) (ew a) (ew b) 0 t)
  | .div t d a b => some (enc 0x08 (ew d) (ew a) (ew b) 0 t)
  | .divn t d a b => some (enc 0x09 (ew d) (ew a) (ew b) 0 t)
  | .rem t d a b => some (enc 0x0a (ew d) (ew a) (ew b) 0 t)
  | .remn t d a b => some (enc 0x0b (ew d) (ew a) (ew b) 0 t)
  | .and t d a b => some (enc 0x0c (ew d) (ew a) (ew b) 0 t)
  | .or t d a b => some (enc 0x0d (ew d) (ew a) (ew b) 0 t)
  | .xor t d a b => some (enc 0x0e (ew d) (ew a) (ew b) 0 t)
  | .andn t d a b => some (enc 0x0f (ew d) (ew a) (ew b) 0 t)
  | .shl t d a b => some (enc 0x10 (ew d) (ew a) (ew b) 0 t)
  | .shr t d a b => some (enc 0x11 (ew d) (ew a) (ew b) 0 t)
  | .sra t d a b => some (enc 0x12 (ew d) (ew a) (ew b) 0 t)
  | .rotr t d a b => some (enc 0x13 (ew d) (ew a) (ew b) 0 t)
  | .min t d a b => some (enc 0x17 (ew d) (ew a) (ew b) 0 t)
  | .max t d a b => some (enc 0x18 (ew d) (ew a) (ew b) 0 t)
  | .minn t d a b => some (enc 0x19 (ew d) (ew a) (ew b) 0 t)
  | .maxn t d a b => some (enc 0x1a (ew d) (ew a) (ew b) 0 t)
  | .clz t d a => some (enc 0x14 (ew d) (ew a) 0 0 t)
  | .ctz t d a => some (enc 0x15 (ew d) (ew a) 0 0 t)
  | .popc t d a => some (enc 0x16 (ew d) (ew a) 0 0 t)
  | .mov d a => some (enc 0x22 (ew d) (ew a))
  | .sext t d a => some (enc 0x1b (ew d) (ew a) 0 0 t)
  | .addi t d a imm => some (enc 0x04 (ew d) (ew a) 0 0 t 0 (tImm imm))
  | .li d imm => some (enc 0x1e (ew d) 0 0 0 .nt 0 (tImm imm))
  | .lea d base imm => some (enc 0x1f (ew d) (ebase base) 0 (efn base) .nt 0 (tImm imm))
  | .bfx s d a lsb wd =>
    some (enc 0x1c (ew d) (ew a) 0 0 (if s then .i64 else .nt) 0 (tSub (lsb.toNat + 64 * wd.toNat)))
  | .bfi d a lsb wd => some (enc 0x1d (ew d) (ew a) 0 0 .nt 0 (tSub (lsb.toNat + 64 * wd.toNat)))
  | .sel d a b c => some (enc 0x21 (ew d) (ew a) (ew b) 0 .nt 0 (.mid (ew c) 0))
  | .scmp t k d a b => some (enc 0x20 (ew d) (ew a) (ew b) (relCode k) t)
  | .b p imm => some (enc 0x23 0 (ep p) 0 0 .nt 0 (tImm imm))
  | .bz a imm => some (enc 0x24 0 (ew a) 0 0 .nt 0 (tImm imm))
  | .bnz a imm => some (enc 0x25 0 (ew a) 0 0 .nt 0 (tImm imm))
  | .j imm => some (enc 0x26 0 0 0 0 .nt 0 (tImm imm))
  | .jal d imm => some (enc 0x27 (ew d) 0 0 0 .nt 0 (tImm imm))
  | .loop a imm => some (enc 0x2a 0 (ew a) 0 0 .nt 0 (tImm imm))
  | .jr a => some (enc 0x28 0 (ew a))
  | .jalr d a => some (enc 0x29 (ew d) (ew a))
  | .yield => some (enc 0x2b)
  | .endT => some (enc 0x2c)
  | .ld t d base imm => some (enc 0x30 (ew d) (ebase base) 0 (efn base) t 0 (tImm imm))
  | .st t a imm b => some (enc 0x31 0 (ew a) (ew b) 0 t 0 (tImm imm))
  | .lda t sc d a imm => some (enc 0x32 (ew d) (ew a) 0 0 t (scopeCode sc) (tImm imm))
  | .stl t sc a imm b => some (enc 0x33 0 (ew a) (ew b) 0 t (scopeCode sc) (tImm imm))
  | .fence sc => some (enc 0x34 0 0 0 0 .nt (scopeCode sc))
  | .fenceRel sc => some (enc 0x34 0 0 0 1 .nt (scopeCode sc))
  | .fenceAcq sc => some (enc 0x34 0 0 0 2 .nt (scopeCode sc))
  | .ldf d a imm => some (enc 0x35 (ew d) (ew a) 0 0 .nt 0 (tImm imm))
  | .ldt d a imm => some (enc 0x36 (ew d) (ew a) 0 0 .nt 0 (tImm imm))
  | .stf sc a imm b => some (enc 0x37 0 (ew a) (ew b) 0 .nt (scopeCode sc) (tImm imm))
  | .clre a imm => some (enc 0x38 0 (ew a) 0 0 .nt 0 (tImm imm))
  | .push t form a off b c =>
    some (enc 0x39 0 (ew a) (ew b) (match form with | .mask => 0 | .list => 1) t 0 (.mid (ew c) off))
  | .pref a imm => some (enc 0x3a 0 (ew a) 0 0 .nt 0 (tImm imm))
  | .cwb a imm => some (enc 0x3b 0 (ew a) 0 0 .nt 0 (tImm imm))
  | .cinv a imm => some (enc 0x3c 0 (ew a) 0 0 .nt 0 (tImm imm))
  | .cfl a imm => some (enc 0x3d 0 (ew a) 0 0 .nt 0 (tImm imm))
  | .icinv => some (enc 0x3e)
  | .fbar => some (enc 0x3f)
  | .amo op t ord d a b => some (enc 0x40 (ew d) (ew a) (ew b) (amoCode op + 16 * ordCode ord) t (ordScope ord))
  | .cas t ord d a b c => some (enc 0x41 (ew d) (ew a) (ew b) (16 * ordCode ord) t (ordScope ord) (.mid (ew c) 0))
  | .smap win size a b => some (enc 0x42 0 (ew a) (ew b) size.toNat .nt 0 (tSub win.val))
  | .sunmap win => some (enc 0x43 0 0 0 0 .nt 0 (tSub win.val))
  | .swb win => some (enc 0x44 0 0 0 0 .nt 0 (tSub win.val))
  | .vld t d a imm => some (enc 0x50 (ev d) (ew a) 0 0 t 0 (tImm imm))
  | .vst t a imm b => some (enc 0x51 0 (ew a) (ev b) 0 t 0 (tImm imm))
  | .vlds t d a imm b => some (enc 0x52 (ev d) (ew a) (ew b) 0 t 0 (tImm imm))
  | .vgat t d a b => some (enc 0x53 (ev d) (ew a) (ev b) 0 t)
  | .vsct t a b c => some (enc 0x54 0 (ew a) (ev b) 0 t 0 (.mid (ev c) 0))
  | .vbc t d a p => some (enc 0x55 (ev d) (ew a) 0 0 t 0 (tPred p))
  | .vins t d a lane => some (enc 0x56 (ev d) (ew a) 0 0 t 0 (tSub lane.toNat))
  | .vext t d a lane => some (enc 0x57 (ew d) (ev a) 0 0 t 0 (tSub lane.toNat))
  | .vslide t d a n => some (enc 0x6c (ev d) (ev a) 0 0 t 0 (tSub n.toNat))
  | .vperm t d a b p => some (enc 0x6b (ev d) (ev a) (ev b) 0 t 0 (tPred p))
  | .vadd t rm d a b p => some (enc 0x58 (ev d) (ev a) (ev b) 0 t (rmCode rm) (tPred p))
  | .vsub t rm d a b p => some (enc 0x59 (ev d) (ev a) (ev b) 0 t (rmCode rm) (tPred p))
  | .vmul t rm d a b p => some (enc 0x5a (ev d) (ev a) (ev b) 0 t (rmCode rm) (tPred p))
  | .vmax t d a b p => some (enc 0x5d (ev d) (ev a) (ev b) 0 t 0 (tPred p))
  | .vmin t d a b p => some (enc 0x5e (ev d) (ev a) (ev b) 0 t 0 (tPred p))
  | .vfma t rm d a b c p => some (enc 0x5b (ev d) (ev a) (ev b) 0 t (rmCode rm) (tFma c p))
  | .vfms t rm d a b c p => some (enc 0x5c (ev d) (ev a) (ev b) 0 t (rmCode rm) (tFma c p))
  | .vabs t d a p => some (enc 0x5f (ev d) (ev a) 0 0 t 0 (tPred p))
  | .vneg t d a p => some (enc 0x60 (ev d) (ev a) 0 0 t 0 (tPred p))
  | .vand t d a b p => some (enc 0x61 (ev d) (ev a) (ev b) 0 t 0 (tPred p))
  | .vor t d a b p => some (enc 0x62 (ev d) (ev a) (ev b) 0 t 0 (tPred p))
  | .vxor t d a b p => some (enc 0x63 (ev d) (ev a) (ev b) 0 t 0 (tPred p))
  | .vshl t d a b p => some (enc 0x64 (ev d) (ev a) (ev b) 0 t 0 (tPred p))
  | .vshr t d a b p => some (enc 0x65 (ev d) (ev a) (ev b) 0 t 0 (tPred p))
  | .vsra t d a b p => some (enc 0x66 (ev d) (ev a) (ev b) 0 t 0 (tPred p))
  | .vcmp t k d a b p => some (enc 0x67 (ep d) (ev a) (ev b) (relCode k) t 0 (tPred p))
  | .vsel t d a b p => some (enc 0x68 (ev d) (ev a) (ev b) 0 t 0 (tPred (some p)))
  | .vcvt u t rm d a p => some (enc 0x69 (ev d) (ev a) 0 (tyCode u) t (rmCode rm) (tPred p))
  | .vred t rm d a p => some (enc 0x6a (ew d) (ev a) (ep p) 0 t (rmCode rm))
  | .vcmpm d a b depth trees =>
    some (enc 0x6d (ep d) (ev a) (ew b) 0 .nt 0 (tSub (depth.toNat + 8 * trees.toNat)))
  | .vleaf d a depth trees => some (enc 0x6e (ev d) (ep a) 0 0 .nt 0 (tSub (depth.toNat + 8 * trees.toNat)))
  | .vlut t d a b => some (enc 0x6f (ev d) (ev a) (ew b) 0 t)
  | .vquant t e5 rm d a p => some (enc 0x70 (ev d) (ev a) 0 (b2n e5) t (rmCode rm) (tPred p))
  | .vdeq t e5 rm d a p => some (enc 0x71 (ev d) (ev a) 0 (b2n e5) t (rmCode rm) (tPred p))
  | .pand d a b => some (enc 0x48 (ep d) (ep a) (ep b))
  | .por d a b => some (enc 0x49 (ep d) (ep a) (ep b))
  | .pxor d a b => some (enc 0x4a (ep d) (ep a) (ep b))
  | .pnot d a => some (enc 0x4b (ep d) (ep a))
  | .pmov (.pp d a) => some (enc 0x4c (ep d) (ep a) 0 0)
  | .pmov (.pw d a) => some (enc 0x4c (ep d) (ew a) 0 1)
  | .pmov (.wp d a) => some (enc 0x4c (ew d) (ep a) 0 2)
  | .tcfg d a => some (enc 0x80 (ew d) (ew a) 0 0)
  | .tcfgClaim d a => some (enc 0x80 (ew d) (ew a) 0 1)
  | .tcfgRel d a => some (enc 0x80 (ew d) (ew a) 0 2)
  | .tldw a => some (enc 0x81 0 (ew a))
  | .tsmeta a => some (enc 0x87 0 (ew a))
  | .tscq a n => some (enc 0x84 0 (ew a) 0 0 .nt 0 (tSub n.toNat))
  | .tswap => some (enc 0x82)
  | .twait => some (enc 0x88)
  | .tmma a b => some (enc 0x83 0 (ew a) (ew b))
  | .tzero a => some (enc 0x86 0 (ew a))
  | .tdrain t rm z none a b => some (enc 0x85 0 (ew a) (ew b) (b2n z) t (rmCode rm))
  | .tdrain t rm z (some (sc, c)) a b =>
    some (enc 0x85 0 (ew a) (ew b) (b2n z + 2 + 4 * scopeCode sc) t (rmCode rm) (.mid (ew c) 0))
  | .rpt len reps stride => some (enc 0x89 0 0 0 0 .nt 0 (tSub (len.val + 16 * reps.toNat + 65536 * stride.val)))
  | .rptw => some (enc 0x8a)
  | .cpy a => some (enc 0x8b 0 (ew a))
  | .gbin a => some (enc 0x8e 0 (ew a))
  | .binr a ch => some (enc 0x8f 0 (ew a) 0 0 .nt 0 (tSub ch.val))
  | .cpycan ch => some (enc 0x8d 0 0 0 0 .nt 0 (tSub ch.val))
  | .cpyq d ch => some (enc 0x8c (ew d) 0 0 0 .nt 0 (tSub ch.val))
  | .tlread d tl => some (enc 0x91 (ew d) 0 0 0 .nt 0 (tSub tl.val))
  | .wptr d ch => some (enc 0x93 (ew d) 0 0 0 .nt 0 (tSub ch.val))
  | .tladv d tl => some (enc 0x92 (ew d) 0 0 0 .nt 0 (tSub tl.val))
  | .tlwait tl a => some (enc 0x90 0 (ew a) 0 0 .nt 0 (tSub tl.val))
  | .hinit a => some (enc 0xa0 0 (ew a))
  | .hld d a imm => some (enc 0xa1 (eh d) (ew a) 0 0 .nt 0 (tImm imm))
  | .hst a imm b => some (enc 0xa2 0 (ew a) (eh b) 0 .nt 0 (tImm imm))
  | .hmov op d a b => some (enc 0xaa (eh d) (eh a) (eh b) (hmovCode op))
  | .hpop d a => some (enc 0xa8 (ew d) (eh a))
  | .hnext d a b => some (enc 0xa9 (ew d) (eh a) (ew b))
  | .hcmp t ge a b => some (enc 0xa3 0 (ew a) (ew b) (b2n ge) t)
  | .hfound a => some (enc 0xa6 0 (ew a))
  | .hside set a off => some (enc 0xa7 0 (ew a) 0 (b2n set) .nt 0 (tSub off.toNat))
  | .hsplit d imm => some (enc 0xa4 (ew d) 0 0 0 .nt 0 (.short imm))
  | .hmeet d a => some (enc 0xa5 (ew d) (ew a))
  | .hdrop => some (enc 0xab)
  | .afnew d a b => some (enc 0xb0 (eaf d) (ew a) (ew b))
  | .afadd d a b => some (enc 0xb4 (eaf d) (eaf a) (eaf b))
  | .afsub d a b => some (enc 0xb5 (eaf d) (eaf a) (eaf b))
  | .afscl d a b => some (enc 0xb6 (eaf d) (eaf a) (ew b))
  | .afaddc d a b => some (enc 0xb7 (eaf d) (eaf a) (ew b))
  | .afmul d a b => some (enc 0xb8 (eaf d) (eaf a) (eaf b))
  | .afrelu d a => some (enc 0xb9 (eaf d) (eaf a))
  | .afcond d a b cap => some (enc 0xba (eaf d) (eaf a) (ew b) 0 .nt 0 (tSub cap.toNat))
  | .afrng t d a => some (enc 0xbb (ew d) (eaf a) 0 0 t)
  | .afld d a imm => some (enc 0xb1 (eaf d) (ew a) 0 0 .nt 0 (tImm imm))
  | .afst a imm b => some (enc 0xb2 0 (ew a) (eaf b) 0 .nt 0 (tImm imm))
  | .afmov d a => some (enc 0xb3 (eaf d) (eaf a))
  | .afdom d => some (enc 0xbc (ew d))
  | .afpack t d a b => some (enc 0xbd (ev d) (eaf a) (ew b) 0 t)
  | .afunpk d a b => some (enc 0xbe (eaf d) (ev a) (ew b))
  | .spawn d a => some (enc 0xc0 (ew d) (ew a))
  | .decr sc a => some (enc 0xc1 0 (ew a) 0 0 .nt (scopeCode sc))
  | .cdone => some (enc 0xc2)
  | .renq a b => some (enc 0xc3 0 (ew a) (ew b))
  | .rdeq d a => some (enc 0xc4 (ew d) (ew a))
  | .eos stage => some (enc 0xc5 0 0 0 0 .nt 0 (tSub stage.val))
  | .steal d a => some (enc 0xc6 (ew d) (ew a))
  | .borrow d => some (enc 0xc7 (ew d))
  | .retbr => some (enc 0xc8)
  | .xmv cls from_ d a => some (enc 0xc9 d (ew a) 0 (xclsCode cls + 4 * b2n from_))
  | .wid d sel => some (enc 0xca (ew d) 0 0 0 .nt 0 (tSub sel.val))
  | .tbar => some (enc 0xcb)
  | .mfs d r => some (enc 0xcc (ew d) 0 0 0 .nt 0 (tSub (sysCode r)))
  | .mts r a => some (enc 0xcd 0 (ew a) 0 0 .nt 0 (tSub (sysCode r)))
  | .mtsWp a => some (enc 0xcd 0 (ew a) 0 0 .nt 0 (tSub (sysCode .wp)))
  | .mtsAfnext a => some (enc 0xcd 0 (ew a) 0 0 .nt 0 (tSub (sysCode .afnext)))
  | .mtsAflim a => some (enc 0xcd 0 (ew a) 0 0 .nt 0 (tSub (sysCode .aflim)))
  | .mtsLmcfg a => some (enc 0xcd 0 (ew a) 0 0 .nt 0 (tSub (sysCode .lmcfg)))
  | .mtsRrcfg a => some (enc 0xcd 0 (ew a) 0 0 .nt 0 (tSub (sysCode .rrcfg)))
  | .mtsPushq a => some (enc 0xcd 0 (ew a) 0 0 .nt 0 (tSub (sysCode .pushq)))
  | .mtsLease a => some (enc 0xcd 0 (ew a) 0 0 .nt 0 (tSub (sysCode .lease)))
  | .modeBringWrite (.reg a) => some (enc 0xcd 0 (ew a) 0 0 .nt 0 (tSub (sysCode .mode)))
  | .trap code => some (enc 0xce 0 0 0 0 .nt 0 (.short code))
  | .brk code => some (enc 0xd0 0 0 0 0 .nt 0 (.short code))
  | .mark code => some (enc 0xd1 0 0 0 0 .nt 0 (.short code))
  | .eret => some (enc 0xcf)
  | .gtime d => some (enc 0xd2 (ew d))
  | .wfe => some (enc 0xd3)
  | .swp a => some (enc 0xd4 0 (ew a))
  | .ctxs a b => some (enc 0xd5 0 (ew a) (ew b))
  | .ctxl a b => some (enc 0xd6 0 (ew a) (ew b))
  | .tinv a b c => some (enc 0xd7 0 (ew a) (ew b) 0 .nt 0 (.mid (ew c) 0))
  | .tsync => some (enc 0xd8)
  | .nop => some (enc 0x01)
  | _ => none

/-- The number of the fields (R287, R288). -/
def pack (f : Fields) : Nat :=
  let low := f.op.toNat * 2 ^ 2 + f.d.toNat * 2 ^ 10 + f.a.toNat * 2 ^ 15 + f.b.toNat * 2 ^ 20
    + f.fn.toNat * 2 ^ 25 + f.ty.toNat * 2 ^ 32 + f.qual.toNat * 2 ^ 37
  match f.tail with
  | .short v => low + v.toNat * 2 ^ 40
  | .mid c v => 1 + low + c.toNat * 2 ^ 40 + v.toNat * 2 ^ 64
  | .long c v => 2 + low + c.toNat * 2 ^ 40 + v.toNat * 2 ^ 64

/-- The length in bytes and the number of an encoded instruction; none for a step that has no encoding. -/
def encodeNat : Instr → Option (Nat × Nat)
  | .pad => some (4, 0xFFFFFFFF)
  | .udf bits => some (8, bits.toNat)
  | i => (toFields i).map (fun f => (f.len, pack f))

/-- The bytes of an encoded instruction, lowest address first (R284). -/
def encode (i : Instr) : Option (List Byte) := (encodeNat i).map (fun (len, n) => natBytes len n)

/-- The length of an encoded instruction in bytes; 0 for a step that has no encoding. -/
def Instr.length (i : Instr) : Nat := ((encodeNat i).map Prod.fst).getD 0

/-- The first 64 bits of an encoded instruction (R245). -/
def Instr.first64 (i : Instr) : Word := BitVec.ofNat 64 (((encodeNat i).map Prod.snd).getD 0)

end Sys2Proof
end

