-- ==== Sys2Proof/Machine/State.lean ====
section
/-! DEFINITION. The state of the Uzoypol 880: every piece of state the spec gives the machine, as plain data.
Addresses are physical byte addresses (R32) unless a field says otherwise; cores are global core numbers (R24), quads
are core / 4, clusters are core / 8, slots are core * 16 + slot, partitions are named by their lowest quarter, and a
context is named by partition * 2 ^ 24 + number (R141). A register of a context is a byte range of local memory
(R132, R134), so it lies in `mem`. -/

namespace Sys2Proof.Machine

open Sys2Proof

/-- The reasons a step of the model can stop the machine. The device has no stuck state: every cause the spec names
is a trap taken as a next state, so no meaning raises a fault. -/
inductive Fault where
  /-- Kept so that a stop would have a name; raised by nothing. Safe: a stop proves no claim about a next state. -/
  | stuck
  deriving DecidableEq, Repr

/-- The reasons a step can have no meaning. -/
inductive Refusal where
  /-- An arm of `exec` that has no meaning yet, by its mnemonic. Safe: no next state is claimed. -/
  | notModelled (mnemonic : String)
  deriving DecidableEq, Repr

/-- A sparse table: keys strictly rising; a key not listed holds the default of its type. -/
abbrev Tbl (α : Type) := List (Nat × α)

/-- The write stamp of a line (R88). -/
structure Stamp where
  vt : Nat := 0
  ctx : Nat := 0
  region : Nat := 0
  deriving DecidableEq, Repr, Inhabited

/-- A leaf as a walk read it (R38, R39): the page's base, its size as a power of two, its policy and permissions. -/
structure Leaf where
  pa : Nat := 0
  logSize : Nat := 12
  pol : Nat := 0
  chk : Bool := false
  u : Bool := false
  x : Bool := false
  w : Bool := false
  rd : Bool := false
  deriving DecidableEq, Repr, Inhabited

/-- A TLB entry (R44): the page's virtual base, its ASID and its leaf. -/
structure TlbEntry where
  va : Nat
  asid : Nat
  leaf : Leaf
  deriving DecidableEq, Repr, Inhabited

/-- A walk-cache entry (R44): the entry a walker read, by its address, with the range it translates and its ASID. -/
structure WalkEntry where
  addr : Nat
  va : Nat
  logSize : Nat
  asid : Nat
  entry : Nat
  deriving DecidableEq, Repr, Inhabited

/-- The causes of R245, with their codes. -/
inductive Cause where
  | call | ill | priv | align | page | prot | race | afsym | ringfull | block | lease | mchk | brk | wdog | timeout
  deriving DecidableEq, Repr, Inhabited

/-- A cause with all that trap entry records for it (R245, R247). -/
structure TrapInfo where
  cause : Cause := .prot
  addr : Nat := 0
  info0 : Nat := 0
  info1 : Nat := 0
  acc : Nat := 0
  level : Nat := 15
  late : Bool := false
  eng : Bool := false
  rpt : Option (Nat × Nat) := none      -- repetition and buffer index (R184)
  rcopy : List Byte := []               -- the refused record (R246)
  deriving DecidableEq, Repr, Inhabited

/-- A walk asked for (R45): the cluster whose queue it waits in, and the page and address space that it is for. One that
an engine or another unit asks for keeps the cycle at which the unit last asked. -/
structure WalkReq where
  cluster : Nat
  part : Nat
  asid : Nat
  vpn : Nat
  unit : Option Nat := none
  deriving DecidableEq, Repr, Inhabited

/-- The request a holder has outstanding for a line (R51, R53). -/
structure Miss where
  write : Bool := false
  sent : Nat := 0        -- cycle at which it was last sent
  tries : Nat := 1       -- times it has been sent
  persist : Bool := false   -- a persistent request is registered
  number : Nat := 0      -- its number of first attempt (R53)
  deriving DecidableEq, Repr, Inhabited

/-- One line as a holder keeps it: an L1 data cache line, a stash-window line, or a line of the host bridge
(R49, R50, R61). -/
structure Copy where
  tokens : Nat := 0
  owner : Bool := false
  dirty : Bool := false
  data : Option (BitVec 1024) := none
  stamp : Stamp := {}
  untouched : Bool := false      -- pushed and not yet accessed (R59)
  lease : Option Nat := none     -- lease end of a leased copy (R61)
  evicting : Option Nat := none  -- the write-back that emptied it, not yet acknowledged, by its message (R55)
  miss : Option Miss := none
  deriving DecidableEq, Repr, Inhabited

/-- The host's state of a half line (R66). -/
inductive HostHalf where
  | hi | hs | he
  deriving DecidableEq, Repr, Inhabited

/-- A line at its home (R49 to R52, R64, R66, R88, R256). The default is the state after reset (R49): the home holds
all 512 tokens with the owner token, the stamp is zero. -/
structure Line where
  tokens : Nat := 512
  owner : Bool := true
  ownerRec : Option Nat := none   -- the holder recorded as owner; none: the home (R52)
  filter : List Nat := []         -- clusters marked by the holder filter; 48 is the bridge (R52)
  dirty : Bool := false           -- the L2 copy is newer than HBM
  stamp : Stamp := {}
  holdUntil : Nat := 0            -- end of the hold (R64)
  lost : Bool := false            -- R256
  half0 : HostHalf := .hi
  half1 : HostHalf := .hi
  resident : Bool := false        -- in the L2 slice of its bank (R52)
  snoop0 : Option (Nat × Bool) := none   -- a back-invalidate snoop: GT at which it was sent, and whether it invalidates
  snoop1 : Option (Nat × Bool) := none
  active : Option Nat := none     -- the active persistent request's holder (R54)
  prefs : List (Nat × Nat × Leaf) := []   -- prefetches that wait for a snoop: core, address and leaf (R321)
  deriving DecidableEq, Repr, Inhabited

/-- A registration in a persistent table (R53, R54). -/
structure PersistReq where
  line : Nat
  holder : Nat
  number : Nat
  write : Bool := false                -- it is of a write, which needs all 512 tokens
  deriving DecidableEq, Repr, Inhabited

/-- A bank's home tables (R53, R55, R63). -/
structure Bank where
  leases : List (Nat × Nat) := []      -- (line, latest lease end)
  lf : Nat := 0                        -- floor time
  persist : List PersistReq := []      -- 32 entries, oldest first
  waiting : List PersistReq := []      -- refused registrations, by number
  attempts : Nat := 0                  -- number of the next first attempt
  fwd : List (Nat × Nat) := []         -- forward table: (line, requester), 64 entries, oldest first
  heldReads : List (Nat × Nat × Nat) := []   -- reads held at the home: (line, requester, lease length)
  corrected : Nat := 0                 -- correctable errors (R31)
  l2 : List Nat := []                  -- the lines resident in its L2 slice, newest first (R52)
  deriving DecidableEq, Repr, Inhabited

/-- What an element of an access does at its location (R69, R103, R325, R326). -/
inductive AccOp where
  | touch                              -- translation only
  | read
  | write
  | amo (op : AmoOp) (t : Ty) (v : Word)
  | cas (t : Ty) (cmp new : Word)
  | ldf | ldt | stf | clre
  deriving DecidableEq, Repr, Inhabited

/-- How an access reaches its location. -/
inductive Kind where
  | plain      -- local memory
  | token      -- a copy under token counting
  | lease      -- a leased copy
  | home       -- performed at the home, by a message
  | remote     -- a write or atomic performed at the home of the other die (R63)
  | outside    -- the host or the peer window
  deriving DecidableEq, Repr

/-- Where one element of an access performs. -/
structure Target where
  kind : Kind
  pa : Nat
  holder : Nat := 0
  leaf : Leaf := {}
  far : Bool := false                  -- in another core of the cluster (R96)
  win : Option (Nat × Nat × Nat) := none   -- window: core, number and line of the window
  link : Option Nat := none            -- the Antler link by which it leaves the module (R263)
  deriving DecidableEq, Repr

/-- One element of an access: its virtual address and size and, once translated, its physical address and leaf. -/
structure Elem where
  va : Nat := 0
  size : Nat := 1
  pa : Nat := 0
  leaf : Leaf := {}
  late : Option TrapInfo := none       -- its walk ended in `#MCHK` or `#TIMEOUT`, which later checks precede (R314)
  tgt : Option Target := none          -- where its checks placed it (R333)
  deriving DecidableEq, Repr, Inhabited

/-- What an instruction does between or after its accesses. -/
inductive Finish where
  | loadW (d : WReg) (t : Ty)            -- ld, lda, ldf, ldt, amo, cas: extend into W[d] (R315)
  | loadV (d : VReg) (bits : Nat)        -- vld, vlds, vgat: elements of a width into V[d]
  | loadH (d : HReg)
  | loadAf (d : AfReg)                   -- afld: the canonical check, then the register (R382)
  | storeAf (b : AfReg)                  -- afst: the canonical check (R382)
  | flagsOf (op : AmoOp) (t : Ty) (v : Word)   -- the flags of fadd and famax (R325)
  | push (targets : List Nat) (own : Bool)     -- the distribution of a push (R320); own: its own core is named
  | prefetch                             -- pref (R321)
  | lineOp (kind : Nat)                  -- 0 cwb, 1 cinv, 2 cfl (R322)
  | sunmapEnd (win : Nat)                -- V cleared once every write-back is acknowledged (R329)
  | endCheck                             -- end, cdone, hdrop: #PROT with members left (R215, R313, R391)
  | waitSeq                              -- end, cdone, hdrop: the sequence and granted entries (R183, R169)
  | endCtx                               -- end, cdone, hdrop: retbr, slot and frame freed
  | hcmp (t : Ty) (ge : Bool) (key ctl : Word)
  | hfound (a : Word)
  | hside (set : Bool) (a : Word) (off : Nat)
  | hinit (a : Word)
  | hmov (op : HmovOp) (d a b : HReg)
  | hpop (d : WReg) (a : HReg)
  | hnext (d : WReg) (a : HReg) (b : WReg)
  | hmeet (d : WReg) (a : Word)
  | hsplitStart (d : WReg)
  | hsplit (d : WReg) (target : Word)
  | fetchH (b : HReg)                    -- hst reads its register after the seal (R367)
  | spawn (d : WReg)
  | decr (dt : Word)
  | tbar
  | afpack (t : Ty) (d : VReg) (a : AfReg) (b : WReg)
  | afunpk (d : AfReg) (a : VReg) (b : WReg)
  | rdeq (d : WReg) (v : Nat)            -- the record is taken and stored, and its length written (R393)
  | renq (v : Nat) (w : Word)            -- the record is read, checked and offered (R392)
  | steal (d : WReg) (from_ : Nat)       -- the record is moved, where it can be (R240)
  | smap (win : Fin 8) (size : BitVec 3) (va off : Nat)   -- the walk of its range, and the window (R328)
  | cpy (desc : Nat)                     -- the checks of the descriptor, and its acceptance (R361)
  | gbin (desc : Nat)
  | binr (va ch : Nat)
  | rpt (n reps stride : Nat)            -- the sequence is fetched, decoded and kept (R359)
  deriving DecidableEq, Repr

/-- The small steps of an instruction that may have to wait between them. -/
inductive Micro where
  | xlate (i : Nat)        -- translate element i (R37 to R46)
  | prot                   -- permissions of all elements (R40, R95, R104)
  | marked                 -- #LEASE (R65)
  | commit                 -- the faults of the access are behind it: a release follows (R318, R325)
  | ready                  -- tokens, leased copies and snoops of all elements
  | verify                 -- tokens, leased copies and snoops of all elements, then #BLOCK, #MCHK, #RACE
  | perform (i : Nat)
  | release (sc : Scope)
  | acquire
  | seal (withdraw : Bool) -- the owner's rendezvous entry (R213)
  | finish (f : Finish)
  | travel (f : Finish)    -- to the local memory of another core, when what follows reaches it (R96)
  | adv (len : Nat)        -- PC := PC + len
  deriving DecidableEq, Repr, Inhabited

/-- What a translation has ended with. -/
inductive Found where
  | leaf (l : Leaf)
  | trap (t : TrapInfo)
  deriving DecidableEq, Repr, Inhabited

/-- A walk that an instruction has waited for, beside those of its elements: for a core, under a `PTROOT`, of a page. -/
structure Walked where
  core : Nat
  pt : Word
  page : Nat
  fin : Found
  deriving DecidableEq, Repr, Inhabited

/-- The work of an instruction in progress: what it accesses, the values to write, the values read so far, and the
small steps that remain. -/
structure Cont where
  op : AccOp := .touch
  elems : List Elem := []
  data : List Nat := []
  got : List Nat := []
  prog : List Micro := []
  issued : Nat := 0        -- GT of the instruction's issue (R79)
  ts : Nat := 0            -- timestamp of its release, once completed (R79)
  skip : Bool := false     -- its release is not made (hsplit with an empty hx, R211)
  half : Option Nat := none    -- the first 16 bytes of a 32-byte access to a peer window, performed (R87)
  bound : Bool := false    -- its release is over: it raises no `#PAGE` or `#PROT` any more (R316)
  committed : Bool := false    -- an element has performed, or its faults are behind it: it raises none (R2, R325)
  walked : List Walked := []   -- the walks that it has waited for, beside those of its elements (R45)
  reg : Option TrapInfo := none    -- the `#MCHK` of a register word that it is still to raise (R257)
  deriving DecidableEq, Repr, Inhabited

/-- A dimension of a shape record (R118). -/
structure Dim where
  ext : Nat := 1
  lo : Nat := 0
  hi : Nat := 0
  sstr : Int := 0
  dstr : Int := 0
  deriving DecidableEq, Repr, Inhabited

/-- The kinds of operation of a channel (R116). -/
inductive OpKind where
  | copy (src dst : Nat) (esize fill : Nat) (dims : List Dim)
  | gbin (src : Nat) (rstr : Int) (idx rows k rowsz row0 table : Nat)
  | binr (table : Nat)
  deriving DecidableEq, Repr, Inhabited

/-- How far a `gbin` has come (R130): the step it is at, 0 the reservation, 1 the indices, 2 the bins, 3 the overflow
count, 4 the pairs, 5 the end of the reservation; what it has read of the table; and the slots it has taken. -/
structure BinRun where
  at_ : Nat := 0
  nbins : Nat := 0
  ovbase : Nat := 0
  idxs : List Nat := []                -- the pairs' indices, in order
  bin : Nat := 0                       -- the next bin
  taken : List (Nat × Nat × Nat × Nat) := []   -- bin, its BASE, its first slot taken, and how many it took
  pair : Nat := 0                      -- the next pair
  oc : Nat := 0                        -- the next overflow record
  deriving DecidableEq, Repr, Inhabited

/-- An operation accepted on a channel and not completed (R116, R119, R123). -/
structure ChanOp where
  kind : OpKind
  ctx : Nat := 0                       -- the issuing context; 0 for a command
  ptroot : Word := 0
  priv : Bool := false
  tl : Option (Nat × Nat) := none      -- timeline and number
  flags : Nat := 0                     -- DEC, FE (R117)
  dect : Word := 0
  fet : Word := 0
  start : Nat := 0                     -- pointer value at which its range begins
  next : Nat := 0                      -- the next element
  started : Bool := false
  bytes : Nat := 0
  vt : Nat := 0                        -- largest vt of its writes
  cause : Nat := 0                     -- the cause it completes with, once decided
  faulted : Option TrapInfo := none    -- a fault met inside a `gbin` or `binr` (R125)
  bin : BinRun := {}                   -- how far a `gbin` has come
  delivered : Bool := false            -- every element is delivered
  lead : Option (Nat × Nat) := none    -- its lead engine: the die, and the source that a message log names (R121)
  half : Option Nat := none            -- the low 16 bytes of a 32-byte element of a peer window, read (R28, R87)
  kept : Option Nat := none            -- an element whose low 16 bytes a peer window has taken (R28, R87)
  peers : List Nat := []               -- its peer-window writes not acknowledged, by message (R76)
  cancel : Bool := false               -- a `cpycan` has asked for its cancellation (R126)
  desc : Option Nat := none            -- its descriptor, which acceptance reads again (R117)
  command : Option (Nat × Nat) := none -- the COPY command that waits for it
  deriving DecidableEq, Repr, Inhabited

/-- What a context that is out of the rotation waits for (R251). -/
inductive Block where
  | div (d : WReg) (v : Word) (len : Nat) (ready : Nat)   -- a division's result, at a cycle (R304)
  | walk (core : Nat) (pt : Word) (va acc : Nat)   -- a translation for a core, under a `PTROOT` (R44, R45)
  | recheck                             -- what a unit's access to local memory would wait for: tried again each cycle
  | line (holder line : Nat)
  | reply (msg : Nat)
  | snoop (line half since : Nat)       -- a back-invalidate snoop (R67, R68)
  | unmap (core win : Nat)              -- a local range whose window is being removed (R329)
  | acks (wbs : List Nat)               -- write-backs not acknowledged, by message
  | pushPend                            -- PEND at 255, or a release that waits for PEND = 0
  | release (sc : Scope) (ts : Nat)
  | peerAcks (sc : Scope)               -- a release at .sys that waits for peer acknowledgements
  | fe (dword : Nat) (take : Bool) (order : Nat)
  | channel (cluster ch tl : Nat) (o : ChanOp)   -- a full channel, with the operation as its checks found it (R116)
  | cancel (cluster ch : Nat)           -- cpycan waits for PEND = 0
  | claim (quad order : Nat)
  | timeline (cluster tl : Nat)
  | barrier
  | wfe (start : Nat)
  | ring (held : Nat)
  | deposits
  | eland (quad : Nat) (tensor : Bool)  -- an entry not granted
  | granted (quad entry : Nat)          -- an entry granted and not complete
  | sequence (thenAgain : Bool)         -- rptw, explicit or implied (R183)
  | buffer                              -- the repetition buffer of another context
  | tsync
  | transit (ctx : Nat)                 -- swp: a target in transit
  | fillOf (ctx : Nat)
  | spillOf (ctx : Nat)
  | halted (cluster : Nat)              -- a decrement held at a halted cluster (R277)
  | ending                              -- end, cdone, hdrop: granted work still to finish
  deriving DecidableEq, Repr, Inhabited

/-- A wait in progress: what for, the steps that follow it, and whether a pre-emption makes the instruction execute
again (R251). -/
structure Wait where
  block : Block
  cont : Cont := {}
  since : Nat := 0                     -- GT at which it began (R268)
  deriving DecidableEq, Repr, Inhabited

/-- Where a context's workspace is (R250). -/
inductive Loc where
  | none                              -- ST 0
  | frame (core frame : Nat)          -- ST 1
  | spilling (core frame image : Nat) -- ST 2
  | filling (core frame image : Nat)  -- ST 2
  | hbm (image : Nat)                 -- ST 3
  deriving DecidableEq, Repr, Inhabited

/-- A push whose acknowledgements are not all in (R56, R60). -/
structure PushRec where
  id : Nat
  line : Nat := 0
  left : Nat           -- targets whose acknowledgement is not in and that are not recorded as LOST
  deriving DecidableEq, Repr, Inhabited

/-- What a context is killed for (R258). -/
inductive KillCause where
  | action        -- ACTION 1
  | fault         -- ACTION 2, or a cause at PL = 1
  | watchdog      -- rung 1 of the watchdog ladder
  | reset         -- a reset of its core or its cluster, by the ladder or by `RESET`
  | partition     -- a reset of its partition, or of the device
  deriving DecidableEq, Repr, Inhabited

/-- What the device keeps of a context beside its workspace. -/
structure Ctx where
  loc : Loc := .none
  slot : Option Nat := none            -- the slot that runs it (slot key)
  last : Nat := 0                      -- the slot that last held it (R260)
  ln : Nat := 0
  cluster : Nat := 0
  entry : Nat := 0                     -- its team-table entry
  index : Nat := 0                     -- its index within the team (R224)
  born : Nat := 0                      -- dispatch GT (R90)
  sign : Nat := 0                      -- R246
  lastdt : Word := 0
  succp : Word := 0
  wait : Option Wait := none
  borrow : Option (Nat × Nat) := none  -- borrowed slot key and frame (R145)
  savedBorrow : Option (Nat × Nat) := none  -- a parked borrowed workspace: its core and frame (R147)
  savedBytes : Option Nat := none      -- a borrowed workspace that left the frames with its owner (R147, R252)
  migrating : Bool := false            -- it waits on its slot for the lease time of R82
  order : Nat := 0                     -- when it was parked (R252)
  saveGt : Nat := 0                    -- R82
  saveDie : Nat := 0
  vtDie0 : Nat := 0                    -- largest vt of its writes to lines homed on die 0 (R79)
  vtDie1 : Nat := 0
  vtRegion : Nat := 0                  -- largest vt of the writes of the region in progress (R89)
  performed : Nat := 0                 -- latest perform time of its writes
  pushes : List PushRec := []
  peerWrites : List Nat := []          -- peer-window writes not acknowledged, by message (R79)
  tinvs : List Nat := []               -- its tinv operations not complete (R411)
  deposits : Nat := 0                  -- deposits accepted for its entry and not performed (R213)
  killing : Bool := false              -- R258
  why : KillCause := .action           -- what it is killed for (R258)
  killGt : Nat := 0                    -- GT at which the kill began (R268)
  ended : Bool := false                -- the number waits for deliveries to drain
  enqueued : Option Nat := none        -- GT stamps of its record (R282)
  dequeued : Nat := 0
  stage : Option Nat := none           -- the stage whose item it is (R238)
  barrierTs : Option Nat := none       -- it has arrived at the barrier, with its release timestamp (R226)
  deriving DecidableEq, Repr, Inhabited

/-- A launch (R219, R220). -/
structure Launch where
  entry : Word := 0
  arg : Word := 0
  widths : List Nat := []
  tf : Nat := 0
  extents : List Nat := []
  cmask : Nat := 0
  hsl : Word := 0
  drbase : Nat := 0
  aflim0 : Nat := 0
  quant : Nat := 100
  done : Word := 0
  govt : Nat := 0
  ptroot : Word := 0
  spawned : Bool := false
  ts : Nat := 0                        -- timestamp of the creating release
  command : Option (Nat × Nat) := none -- the LAUNCH command that waits for its end: queue and entry address
  vt : Nat := 0                        -- largest vt of the writes of its contexts that have ended (R227)
  peers : List Nat := []               -- their peer-window writes not acknowledged, by message (R266)
  deriving DecidableEq, Repr, Inhabited

/-- What waits for placement (R225): the teams of a launch from the `first` to before the `upto` in ascending team
number, or one team swapped out, with its saved contexts and domain record. -/
structure TeamWait where
  ln : Nat
  first : Nat := 0
  upto : Nat := 0
  saved : Bool := false
  team : Nat := 0                      -- its team number
  domid : Nat := 0
  image : Nat := 0                     -- the pool block that keeps its domain record (R192)
  members : List Nat := []
  deriving DecidableEq, Repr, Inhabited

/-- A team-table entry (R223). -/
structure Team where
  part : Nat := 0
  ln : Nat := 0
  team : Option Nat := none            -- none: a codelet team
  domid : Nat := 0
  drec : Nat := 0                      -- cluster local address
  afnext : BitVec 16 := 0
  aflim : BitVec 16 := 0
  hslab : Word := 0
  placed : Nat := 0                    -- GT of placement (R225)
  leaving : Bool := false              -- its swap-out has begun (R225)
  members : List Nat := []             -- its live contexts
  deriving DecidableEq, Repr, Inhabited

/-- A rendezvous entry (R212). -/
structure Rdv where
  sealed : Bool := false
  ctx : Nat := 0
  hb : Nat := 0
  dom : Nat := 0
  addr : Nat := 0
  installed : Nat := 0                 -- order of installation
  deriving DecidableEq, Repr, Inhabited

/-- A channel (R122, R124, R125). The spec gives `CHWP` no reset value: it starts at 0. DESIGN CHOICE: log 60. -/
structure Chan where
  ops : List ChanOp := []
  fault : Option TrapInfo := none      -- the fault kept in state FAULT (R125)
  cause : Nat := 0
  bytes : Nat := 0
  ptr : Nat := 0                       -- CHWP
  ptrGt : Nat := 0                     -- GT of its last advance (R81)
  faultEnd : Nat := 0                  -- end of the faulted copy's range (R126)
  asked : Bool := false                -- a `cpycan` has issued, which the engine has not taken up yet (R126, R127)
  cancelling : Bool := false
  deriving DecidableEq, Repr, Inhabited

/-- A timeline counter (R124, R365), with the software operations and finished operations above DONE. -/
structure Timeline where
  faultop : Nat := 0
  issued : Nat := 0
  done : Nat := 0
  doneGt : Nat := 0
  latch : TrapInfo := {}               -- the fault latched with FAULTOP
  finished : List Nat := []            -- numbers above DONE that have completed
  soft : List (Nat × Nat × Nat × List Nat) := []   -- tladv operations: number, context, vt, pushes waited for
  deriving DecidableEq, Repr, Inhabited

/-- What travels with a record: its enqueue stamp (R282) and the latest release of its decrementers (R77, R89). -/
structure RecStamp where
  enq : Option Nat := none
  afr : Nat := 0
  deriving DecidableEq, Repr, Inhabited

/-- The governor's own state (R236 to R238); the stages' state lies in the governor table in memory. -/
structure Governor where
  ln : Option (Nat × Nat) := none      -- partition and LN of the launch that holds it
  lastMove : List (Nat × Nat) := []    -- cluster core and the GT of its last move
  eosHeld : List (Nat × Nat × List Nat) := []  -- core and stage of a held end-of-stream record, items still to end
  stamps : List (Nat × Nat × RecStamp) := []  -- stamps of the stages' records: stage, TAIL at entry
  deriving DecidableEq, Repr, Inhabited

/-- A cluster debug module (R274 to R278). -/
structure Debug where
  state : Nat := 0                     -- 0 running, 1 halting, 2 halted, 3 resuming
  xin : Bool := false
  xout : Bool := false
  brkclaim : Bool := false
  haltedAt : Nat := 0                  -- GT at which the halt in hand began (R277)
  trigger : Bool := false              -- the cross-trigger line has been driven for it (R275)
  deriving DecidableEq, Repr, Inhabited

/-- A cluster. -/
structure Cluster where
  teams : Tbl Team := []               -- entries 0 to 7
  rdv : Tbl Rdv := []                  -- set * 8 + way
  chans : Tbl Chan := []
  tls : Tbl Timeline := []
  gov : Governor := {}
  dbg : Debug := {}
  tlb : List TlbEntry := []            -- L2 TLB, newest first
  deriving DecidableEq, Repr, Inhabited

/-- An entry of a core's dispatch queue (R169): a direct instruction, or a step of the sequence. -/
structure ElandEntry where
  ctx : Nat
  instr : Instr
  len : Nat := 8
  step : Option (Nat × Nat) := none    -- repetition and buffer index
  deriving DecidableEq, Repr

/-- The repetition buffer and sequencer of a core (R182 to R184). -/
structure Sequencer where
  ctx : Option Nat := none             -- the context whose sequence it holds
  instrs : List Instr := []
  reps : Nat := 0
  stride : Nat := 0
  rep : Nat := 0
  idx : Nat := 0
  placed : Bool := false               -- the current step is in a list, not granted
  waitStep : Bool := false             -- a buffered twait has been granted and has not ended
  claim : Bool := false                -- a buffered tcfg.claim waits for a release of the array (R352)
  outstanding : List (Nat × Nat) := [] -- granted steps not complete: quad entry and kind
  fault : Option TrapInfo := none
  deriving DecidableEq, Repr, Inhabited

/-- A granted entry not complete: the resource's work still to come. -/
structure Granted where
  id : Nat
  ctx : Nat
  instr : Instr
  len : Nat := 8
  step : Option (Nat × Nat) := none
  ready : Nat := 0                     -- cycle at which its work ends
  writes : List (Nat × Nat × Nat) := []  -- workspace writes at completion: offset, bytes, value
  flags : Nat := 0                     -- flags at completion
  amax : Option (Scope × Nat × Nat) := none  -- the atomic of .amax: scope, virtual address and value
  core : Nat := 0                      -- the core whose list it was in
  since : Option (Nat × Nat × Nat) := none   -- the half, by line, whose snoop its atomic waits for, and since when (R68)
  deriving DecidableEq, Repr

/-- A weight plane with its metadata store (R175, R178). -/
structure Plane where
  st : Nat := 0                        -- 0 EMPTY, 1 LOADING, 2 READY
  loader : Nat := 0                    -- the granted entry that loads it, while LOADING
  tile : Nat := 0                      -- the tile's bytes, as one number
  scales : Nat := 0                    -- the plane's scale entries
  metaSt : Bool := false               -- metadata filled
  metaBits : Nat := 0                  -- the 8 KiB of masks
  deriving DecidableEq, Repr, Inhabited

/-- A quad's Eland unit (R168 to R180). -/
structure Quad where
  lastV : Nat := 3                     -- core of the last vector grant (R170)
  lastT : Nat := 3
  owner : Option (Nat × Nat) := none   -- partition and DOMID of the owning team
  conf : BitVec 20 := 0                -- TCONF but for OWN
  releasing : Option Nat := none       -- cycle at which the clearing ends (R172)
  active : Plane := {}
  shadow : Plane := {}
  scaleQ : List Nat := []              -- scale entries, head first
  acc : Tbl Nat := []                  -- accumulator rows, 128 f32 words each
  granted : List Granted := []         -- entries granted and not complete, in grant order
  nextId : Nat := 0
  deriving DecidableEq, Repr, Inhabited

/-- A stash-window descriptor (R105), with the `PTROOT` and privilege it keeps (R107). -/
structure Window where
  v : Bool := false
  vpn : Nat := 0
  lbase : Nat := 0                     -- local offset bits [19:12]
  size : Nat := 0
  ptroot : Word := 0
  priv : Bool := false
  unmapping : Bool := false            -- a sunmap is running (R329)
  lines : Tbl (Nat × Leaf) := []       -- physical line and leaf kept since the fill, by line of the window (R107)
  deriving DecidableEq, Repr, Inhabited

/-- The message log of a core (R279, R280). -/
structure MsgLog where
  base : Nat := 0
  size : Nat := 0
  ovf : Bool := false
  en : Bool := false
  seq : Nat := 0
  deriving DecidableEq, Repr, Inhabited

/-- A core. -/
structure Core where
  quota : Nat := 32                    -- PUSHQ.QUOTA (R59)
  pushref : Nat := 0                   -- PUSHREF.COUNT (R59)
  frames : Nat := 64                   -- LMCFG.FRAMES (R100)
  rrBase : Nat := 0                    -- RRCFG (R111)
  rrSize : Nat := 0
  rrEn : Bool := false
  rrTail : Nat := 0                    -- RRPTR
  rrHead : Nat := 0
  rrref : Nat := 0                     -- RRREF.COUNT
  rtab0 : BitVec 64 := 0xFEDCBA9876543210#64   -- R140
  rtab1 : BitVec 64 := 0xFEDCBA9876543210#64
  wins : Tbl Window := []
  icache : List (Nat × BitVec 1024) := []   -- lines of the L1 instruction cache
  tlb : List TlbEntry := []            -- newest first
  rotBase : Nat := 0                   -- cycle at which the rotation pointer stood at entry 0
  turnHolder : Option Nat := none      -- the slot that keeps the turns in BRING mode (R230)
  turnSince : Nat := 0                 -- GT at which it took them (R268)
  vlist : List ElandEntry := []        -- dispatch queue, vector list (R169)
  tlist : List ElandEntry := []
  seq : Sequencer := {}
  log : MsgLog := {}
  waitns : Nat := 0                    -- accounting counters (R282)
  runns : Nat := 0
  searchns : Nat := 0
  stealfail : Nat := 0
  stealok : Nat := 0
  stamps : List (Nat × RecStamp) := [] -- stamps of the queued records, by TAIL at entry
  lastPc : Nat := 0                    -- R283
  free : Nat := 0                      -- free choices of its L1 (assumption log 9)
  lastIssue : Nat := 0                 -- cycle of the core's last issue
  stuckFrom : Option Nat := none       -- cycle since which a slot is eligible and none has issued (R268)
  lastSlot : Nat := 0                  -- the slot that issued last (R230)
  full : Bool := false                 -- its ring or its stage queue holds a record (R282)
  deriving DecidableEq, Repr, Inhabited

/-- A slot: its `WP` (R136), the block it has fetched (R324), and its scheduling stamps. -/
structure Slot where
  frame : BitVec 8 := 0
  v : Bool := false
  withheld : Bool := false             -- its workspace is borrowed (R145)
  block : Option (Nat × BitVec 256) := none   -- virtual address and bytes of the fetched block
  lastIssue : Option Nat := none       -- cycle of its last issue (R228)
  searchFrom : Option Nat := some 0    -- GT since which it, free, has searched for a record (R282)
  deriving DecidableEq, Repr, Inhabited

/-- A log entry of the command processors (R65, R125, R227, R233, R256, R258). -/
structure Event where
  gt : Nat
  what : String
  arg : Nat := 0
  deriving DecidableEq, Repr, Inhabited

/-- A record held at its sender (R114): a slot's, an engine's or dispatch logic's. -/
structure HeldRec where
  id : Nat
  ctx : Option Nat                     -- the thread that takes #RINGFULL; none: held without limit
  target : Nat                         -- global core, or 0x8000 + cluster * 4 + stage
  bytes : List Byte
  stamp : RecStamp := {}               -- kept when it migrates
  since : Option Nat := none           -- GT of its first refusal
  headAt : Option Nat := none          -- HEAD of the ring at its last refusal
  sender : Nat                         -- what orders it behind earlier records
  late : Bool := false                 -- LATE of its #RINGFULL
  deriving DecidableEq, Repr, Inhabited

/-- A message in flight or held at a network interface. -/
inductive MsgBody where
  | access (ctx : Nat)                                     -- performs the waiting element at its target (R73)
  | remoteWrite (ctx : Nat)                                -- R63
  | vtReply (ctx vt bank : Nat)                              -- the home's reply to a remote write
  | leaseReq (holder line len : Nat)                       -- R61
  | leaseReply (holder line : Nat) (data : Nat) (stamp : Stamp) (le : Option Nat)
  | readReq (holder line : Nat)                            -- R51
  | fwdRead (target requester line : Nat)
  | writeReq (holder line : Nat)
  | multi (target requester line : Nat)
  | tokens (holder line n : Nat) (owner dirty : Bool) (data : Option Nat) (stamp : Stamp) (src : Nat)   -- src: R280
  | ownerNotice (line holder : Nat)
  | writeBack (holder line n : Nat) (owner dirty : Bool) (data : Option Nat) (stamp : Stamp) (flush : Bool)
  | wbAck (holder line wb : Nat)                           -- wb: the write-back, by its message (R55)
  | pushTurn (line writer ctx push : Nat) (targets : List Nat)   -- the next target's turn of a push (R56)
  | pushAck (ctx push target : Nat) (refused : Bool)
  | refusedTok (line : Nat) (data : Nat) (stamp : Stamp)
  | deposit (ctx off bytes value : Nat) (isOr : Bool) (src : Nat)   -- R143; from a core
  | drainFlags (ctx flags src : Nat)                       -- R156; from a core
  | record (target : Nat) (bytes : List Byte) (ctx : Option Nat) (stamp : RecStamp) (sender : Nat) (late : Bool)
  | migrate (donor receiver n : Nat)                       -- R239
  | peerAck (ctx : Nat)                                    -- R76
  | peerDone (peer die vt : Nat)                           -- acknowledgement owed to a peer, by the home die's GT
  | fill (pa v src : Nat)                                  -- a full/empty fill held at a halted cluster (R277)
  | poke (pa n v : Nat)                                    -- a hardware write to local memory held there
  | decr (dect ts sender : Nat)                            -- a decrement held at a halted cluster
  | tinv (id ctx part lo hi : Nat) (asid : Option Nat)     -- R46
  deriving DecidableEq, Repr, Inhabited

structure Msg where
  id : Nat
  body : MsgBody
  deriving DecidableEq, Repr, Inhabited

/-- A firmware image (R267): its version and its measurement. -/
structure FwImage where
  version : Nat
  measure : Nat
  deriving DecidableEq, Repr, Inhabited

/-- The state of a queue that the firmware keeps: its image, and the command in progress (R265 to R267). -/
structure Queue where
  image : Option FwImage := none       -- none: the ROM image
  switchTo : Option FwImage := none    -- staged, to switch at the next command boundary
  busy : Option Nat := none            -- address of the entry of the command in progress
  fenceFor : List (Nat × Nat) := []    -- FENCE: commands that must complete first
  tinvs : List Nat := []               -- MAP, UNMAP: tinv operations to complete
  started : Bool := false              -- the command in progress has made its effects
  ended : Bool := false                -- the launch of a LAUNCH, or the copy of a COPY, in progress has ended
  status : Nat := 0                    -- what its record will say (R265)
  vt : Nat := 0                        -- largest vt of its writes
  peers : List Nat := []               -- peer-window writes to be acknowledged before its record (R266)
  deriving DecidableEq, Repr, Inhabited

/-- A fatal context waiting for its dump (R259 to R261). -/
structure FatalRec where
  ctx : Nat
  gt : Nat
  record : Nat                         -- its 256-byte fault record
  frame : Nat := 0                     -- its workspace as it stood when issue stopped
  locid : Nat
  queued : Bool := false
  nested : List (Nat × Nat) := []      -- nested causes: GT and record
  trunc : Bool := false
  deriving DecidableEq, Repr, Inhabited

/-- A partition, by its lowest quarter (R29, R270). -/
structure Part where
  tbase : Nat := 0
  cltb : Nat := 0
  qbase : Nat := 0
  peers : List Nat := []               -- 18-bit link masks
  pool : List Nat := []                -- free context-image blocks
  nextCtx : Nat := 1
  nextDom : Nat := 1
  launches : Tbl Launch := []
  waiting : List TeamWait := []        -- placement queue (R225)
  queues : Tbl Queue := []
  dumpArea : Option (Nat × Nat × Word) := none   -- address, size and PTROOT
  dumpNext : Nat := 0                  -- bytes of the area written
  fatal : List FatalRec := []
  deriving DecidableEq, Repr, Inhabited

/-- A die: its local GT counter, its drift detector, its lease length (R62, R65, R271). -/
structure Die where
  gt : Nat := 0
  running : Bool := true               -- the counter's clock runs
  waits : Bool := false                -- held until the reference reaches it (R271)
  lease : Nat := 4096
  tripped : Option Nat := none         -- trip time while the detector is tripped
  backSince : Option Nat := none       -- when it came back within 4 ns
  tripGt : Nat := 0                    -- its local GT at the last trip, for #LEASE
  marked : List Nat := []              -- lines leased at the trip
  grants : List (Nat × Nat) := []      -- leases that its homes granted or that its holders took: GT and length (R82)
  droopArea : Nat := 0
  droopLast : Tbl Nat := []            -- GT of each detector's last sample, plus one
  walks : List (Nat × WalkEntry) := [] -- walk cache
  walkers : List WalkReq := []         -- the walks in its page walkers, at most 32 (R44)
  walkQ : List WalkReq := []           -- the walks that wait for a walker, oldest first (R45)
  walkTurn : Nat := 47                 -- the cluster served last (R45)
  hot : Bool := false                  -- at or above 105 C (R273)
  deriving DecidableEq, Repr, Inhabited

/-- The module. -/
structure Device where
  qcfg : BitVec 3 := 4                 -- R34
  thr : BitVec 2 := 0                  -- MODE fields (R269)
  cxl : Bool := false
  seca : Bool := false
  idgone : Bool := false
  baloff : Bool := false
  bring : Bool := true
  cxlen : Bool := false                -- the strap (R262)
  trainedCxl : Bool := false           -- the host port is trained as CXL
  trained : Bool := false              -- the host port is trained
  keys : Bool := true                  -- volatile keys held (R272)
  alarms : Nat := 0                    -- first-level alarms since device reset
  powered : Bool := true
  highSince : Option Nat := none       -- power above 3,400 W since (R273)
  lowSince : Option Nat := none
  staging : Option (Nat × Nat) := none -- UPDATE in progress: its partition and queue
  patch : Option FwImage := none       -- the image of the last successful UPDATE (R267)
  bar2 : Option (Nat × Nat) := none    -- BAR 2 window: partition and base (R262)
  msix : List Nat := []                -- MSI-X vectors sent, newest first
  log : List Event := []               -- events logged to the command processors, newest first
  snoopers : List Nat := []            -- lines in the snoop filter, least recently used first (R66)
  peerAcks : List (Nat × Nat) := []    -- acknowledgements sent to peers: peer and GT
  hostData : List Nat := []            -- answers of host and peer reads, newest first
  deriving DecidableEq, Repr, Inhabited

/-- What happens at the next step: a slot's issue turn, an event, or the turn of a command queue. -/
inductive Turn where
  | issue (core slot : Nat)
  | event (i : Instr)
  | command (part queue : Nat)
  deriving DecidableEq, Repr

/-- The state of the machine. -/
structure State where
  mem : List Host.Cell := []           -- memory (R32): HBM, local memories, host and peer windows
  fe : List Nat := []                  -- full dwords, by address / 8, rising (R102)
  lines : Tbl Line := []               -- lines of HBM at their homes, by address / 128
  copies : Tbl (Tbl Copy) := []        -- the copies of each holder (see `Holder`)
  banks : Tbl Bank := []
  lostLocal : List Nat := []           -- lost lines of local memory, by address / 128 (R256)
  cores : Tbl Core := []
  slots : Tbl Slot := []
  quads : Tbl Quad := []
  clusters : Tbl Cluster := []
  dies : Tbl Die := []
  parts : Tbl Part := []
  ctxs : Tbl Ctx := []
  dev : Device := {}
  net : List Msg := []                 -- messages in flight, oldest first
  heldBeats : List Msg := []           -- beats held at halted clusters (R277)
  snoopOver : List (Nat × Nat × Nat) := []   -- hardware writes to halves under a snoop: address, bytes, value (R67)
  held : List HeldRec := []            -- records held at their senders (R114)
  frontiers : Tbl Nat := []            -- latest release of a counter block's decrementers, by address (R77)
  refGt : Nat := 0                     -- the reference counter (R65)
  cycle : Nat := 0                     -- core cycles since reset
  agenda : List Turn := []             -- what happens next; empty: the model's own schedule
  todo : List Nat := []                -- cores still to issue in this cycle
  turnCore : Nat := 0                  -- the turn in hand
  turnSlot : Nat := 0
  closing : Nat := 0                   -- the part of the cycle in hand: core turns, grants, the rest (assumption log 14)
  free : Nat := 0                      -- free choices made (assumption log 9)
  nextId : Nat := 0                    -- identity of the next message or order mark
  deriving DecidableEq, Repr

/-- The machine right after a device reset: every field at its Reset column or at the value the assumption log
names (entries 1 to 9). -/
def State.reset : State := {}

end Sys2Proof.Machine
end

