-- ==== Sys2Proof/Machine/Ops.lean ====
section
/-! DEFINITION. The named operations over tables, memory, registers, messages and scheduling state, and taking an
exception and returning from it (R243, R249), which every meaning shares. -/

namespace Sys2Proof.Machine

open Sys2Proof

/-- The outcome of a step. -/
abbrev Out := Host.Outcome State Fault Refusal

/-! ### Tables -/

/-- The value at a key; the default of the type where the table lists none. -/
def tget {α : Type} [Inhabited α] : Tbl α → Nat → α
  | [], _ => default
  | (k, v) :: r, a => if a = k then v else if a < k then default else tget r a

/-- Whether a table lists a key. -/
def thas {α : Type} : Tbl α → Nat → Bool
  | [], _ => false
  | (k, _) :: r, a => if a = k then true else if a < k then false else thas r a

/-- A table with a value at a key, in rising order of keys. -/
def tset {α : Type} : Tbl α → Nat → α → Tbl α
  | [], a, v => [(a, v)]
  | (k, w) :: r, a, v => if a < k then (a, v) :: (k, w) :: r else if a = k then (a, v) :: r else (k, w) :: tset r a v

/-- A table without a key. -/
def tdel {α : Type} : Tbl α → Nat → Tbl α
  | [], _ => []
  | (k, w) :: r, a => if a = k then r else (k, w) :: tdel r a

/-- The keys of a table. -/
def tkeys {α : Type} (t : Tbl α) : List Nat := t.map Prod.fst

/-! ### Memory: one list of cells, addresses rising, no cell equal to what an unlisted address reads as -/

/-- What an address that is not listed reads as: zero (R36; assumption log 6 where the spec gives no contents).
DESIGN CHOICE: log 6. -/
def unlisted : Byte := 0

/-- The byte at an address. -/
def mget : List Host.Cell → Nat → Byte
  | [], _ => unlisted
  | (k, v) :: r, a => if a = k then v else if a < k then unlisted else mget r a

/-- Memory with a byte at an address; writing what an unlisted address reads as removes the cell. -/
def mset : List Host.Cell → Nat → Byte → List Host.Cell
  | [], a, v => if v = unlisted then [] else [(a, v)]
  | (k, w) :: r, a, v =>
    if a < k then (if v = unlisted then (k, w) :: r else (a, v) :: (k, w) :: r)
    else if a = k then (if v = unlisted then r else (a, v) :: r)
    else (k, w) :: mset r a v

/-- Every listed address is above `lo` and the addresses rise; no cell holds what an unlisted address reads as. -/
def memWfFrom : Option Nat → List Host.Cell → Bool
  | _, [] => true
  | lo, (k, v) :: r => (match lo with | none => true | some l => l < k) && v ≠ unlisted && memWfFrom (some k) r

/-- The canonical form of memory. -/
def Memory.wf (m : List Host.Cell) : Bool := memWfFrom none m

/-- The `n` bytes at an address as one little-endian number (R5). -/
def mread (m : List Host.Cell) (a : Nat) : Nat → Nat
  | 0 => 0
  | n + 1 => (mget m a).toNat + 256 * mread m (a + 1) n

/-- Memory with the low `n` bytes of a number stored at an address, least significant first (R5). -/
def mwrite (m : List Host.Cell) (a : Nat) : Nat → Nat → List Host.Cell
  | 0, _ => m
  | n + 1, v => mwrite (mset m a (BitVec.ofNat 8 v)) (a + 1) n (v / 256)

/-- Memory with the bytes from `lo` up to `hi` zero. -/
def mzero (m : List Host.Cell) (lo hi : Nat) : List Host.Cell := m.filter (fun c => c.1 < lo || hi ≤ c.1)

def State.rd (s : State) (a n : Nat) : Nat := mread s.mem a n
def State.wr (s : State) (a n v : Nat) : State := { s with mem := mwrite s.mem a n v }
def State.zero (s : State) (lo hi : Nat) : State := { s with mem := mzero s.mem lo hi }

/-! ### Bits of numbers -/

/-- Bits `[lo + n - 1 : lo]` of a number. -/
def bits (x lo n : Nat) : Nat := x / 2 ^ lo % 2 ^ n

/-- One bit of a number. -/
def bit (x i : Nat) : Bool := x / 2 ^ i % 2 = 1

/-- A number with bits `[lo + n - 1 : lo]` replaced. -/
def setBits (x lo n v : Nat) : Nat := x - bits x lo n * 2 ^ lo + v % 2 ^ n * 2 ^ lo

/-- A value read signed at a width. -/
def toSigned (w x : Nat) : Int := if x % 2 ^ w < 2 ^ (w - 1) then (x % 2 ^ w : Nat) else (x % 2 ^ w : Nat) - (2 ^ w : Nat)

/-- An integer wrapped to a width. -/
def wrapInt (w : Nat) (x : Int) : Nat := (x % (2 ^ w : Nat)).toNat

/-- Sat(x, 0, hi) on naturals. -/
def satTo (x hi : Nat) : Nat := if x > hi then hi else x

/-- The set bits of a number below `n`, ascending. -/
def setBitsOf (n x : Nat) : List Nat := (List.range n).filter (bit x)

/-- The number of set bits below `n`. -/
def popCount (n x : Nat) : Nat := (setBitsOf n x).length

/-! ### Positions and partitions (R24, R29, R34) -/

def dieOf (core : Nat) : Nat := core / 192
def clusterOf (core : Nat) : Nat := core / 8
def quadOf (core : Nat) : Nat := core / 4
def quarterOf (core : Nat) : Nat := core / 96

/-- The partition of a quarter, named by its lowest quarter, under a `QCFG` MODE. -/
def partOfQuarter (mode q : Nat) : Nat :=
  match mode with
  | 1 => if q ≤ 1 then 0 else q
  | 2 => if 2 ≤ q then 2 else q
  | 3 => q / 2 * 2
  | 4 => 0
  | _ => q

/-- The quarters of a partition. -/
def quartersOf (mode p : Nat) : List Nat := (List.range 4).filter (fun q => partOfQuarter mode q = p)

def State.qmode (s : State) : Nat := s.dev.qcfg.toNat
def State.partOf (s : State) (core : Nat) : Nat := partOfQuarter s.qmode (quarterOf core)
/-- The cores of a partition. -/
def State.coresOf (s : State) (p : Nat) : List Nat := (List.range 384).filter (fun g => s.partOf g = p)

/-- Bytes of HBM in a quarter (R32). -/
def quarterBytes : Nat := 192000000000
def localBase : Nat := 0x10000000000
def hostBase : Nat := 0x1000000000000
def peerBase : Nat := 0x8000000000000
def physTop : Nat := 0x10000000000000

/-- The windows of the physical map (R32). -/
inductive Region where
  | hbm (quarter : Nat) | local (core : Nat) | host | peer (m : Nat) | nothing
  deriving DecidableEq, Repr

def regionOf (pa : Nat) : Region :=
  if pa < 4 * quarterBytes then .hbm (pa / quarterBytes)
  else if localBase ≤ pa ∧ pa < localBase + 384 * 0x100000 then .local ((pa - localBase) / 0x100000)
  else if hostBase ≤ pa ∧ pa < peerBase then .host
  else if peerBase ≤ pa ∧ pa < physTop then .peer ((pa - peerBase) / 0x800000000000)
  else .nothing

/-- The home bank of an HBM address in a partition (R35). -/
def bankOf (mode pa : Nat) : Nat :=
  let p := partOfQuarter mode (pa / quarterBytes)
  let q := (quartersOf mode p).length
  let l := (pa - p * quarterBytes) / 128
  let j := l % (24 * q)
  let t := 3 * p + j % (3 * q)
  let k := j / (3 * q) % 8
  t / 6 * 48 + 8 * (t % 6) + k

/-- The index of an HBM line within its home bank (R35). -/
def lineIn (mode pa : Nat) : Nat :=
  let p := partOfQuarter mode (pa / quarterBytes)
  (pa - p * quarterBytes) / 128 / (24 * (quartersOf mode p).length)

def State.bankOf (s : State) (pa : Nat) : Nat := Machine.bankOf s.qmode pa
/-- The die that homes an HBM address. -/
def State.homeDie (s : State) (pa : Nat) : Nat := s.bankOf pa / 48

/-- The physical address of a byte of a core's local memory (R32, R94). -/
def localPa (core off : Nat) : Nat := localBase + core * 0x100000 + off
/-- The physical address of a cluster local address. -/
def clusterPa (cluster la : Nat) : Nat := localPa (cluster * 8 + la / 0x100000 % 8) (la % 0x100000)
/-- The physical address of a workspace. -/
def wsBase (core frame : Nat) : Nat := localPa core (frame * 4096)

/-! ### Tables of the state -/

def State.core (s : State) (g : Nat) : Core := tget s.cores g
def State.setCore (s : State) (g : Nat) (c : Core) : State := { s with cores := tset s.cores g c }
def State.modCore (s : State) (g : Nat) (f : Core → Core) : State := s.setCore g (f (s.core g))
def State.slot (s : State) (k : Nat) : Slot := tget s.slots k
def State.setSlot (s : State) (k : Nat) (x : Slot) : State := { s with slots := tset s.slots k x }
def State.modSlot (s : State) (k : Nat) (f : Slot → Slot) : State := s.setSlot k (f (s.slot k))
def State.quad (s : State) (k : Nat) : Quad := tget s.quads k
def State.setQuad (s : State) (k : Nat) (x : Quad) : State := { s with quads := tset s.quads k x }
def State.modQuad (s : State) (k : Nat) (f : Quad → Quad) : State := s.setQuad k (f (s.quad k))
def State.cluster (s : State) (k : Nat) : Cluster := tget s.clusters k
def State.setCluster (s : State) (k : Nat) (x : Cluster) : State := { s with clusters := tset s.clusters k x }
def State.modCluster (s : State) (k : Nat) (f : Cluster → Cluster) : State := s.setCluster k (f (s.cluster k))
def State.die (s : State) (k : Nat) : Die := tget s.dies k
def State.setDie (s : State) (k : Nat) (x : Die) : State := { s with dies := tset s.dies k x }
def State.modDie (s : State) (k : Nat) (f : Die → Die) : State := s.setDie k (f (s.die k))
def State.part (s : State) (k : Nat) : Part := tget s.parts k
def State.setPart (s : State) (k : Nat) (x : Part) : State := { s with parts := tset s.parts k x }
def State.modPart (s : State) (k : Nat) (f : Part → Part) : State := s.setPart k (f (s.part k))
def State.ctx (s : State) (k : Nat) : Ctx := tget s.ctxs k
def State.setCtx (s : State) (k : Nat) (x : Ctx) : State := { s with ctxs := tset s.ctxs k x }
def State.modCtx (s : State) (k : Nat) (f : Ctx → Ctx) : State := s.setCtx k (f (s.ctx k))
def State.line (s : State) (k : Nat) : Line := tget s.lines k
def State.setLine (s : State) (k : Nat) (x : Line) : State := { s with lines := tset s.lines k x }
def State.modLine (s : State) (k : Nat) (f : Line → Line) : State := s.setLine k (f (s.line k))
def State.bank (s : State) (k : Nat) : Bank := tget s.banks k
def State.setBank (s : State) (k : Nat) (x : Bank) : State := { s with banks := tset s.banks k x }
def State.modBank (s : State) (k : Nat) (f : Bank → Bank) : State := s.setBank k (f (s.bank k))
def State.copy (s : State) (h l : Nat) : Copy := tget (tget s.copies h) l
def State.setCopy (s : State) (h l : Nat) (c : Copy) : State :=
  { s with copies := tset s.copies h (tset (tget s.copies h) l c) }
def State.delCopy (s : State) (h l : Nat) : State :=
  { s with copies := tset s.copies h (tdel (tget s.copies h) l) }
def State.win (s : State) (g w : Nat) : Window := tget (s.core g).wins w
def State.setWin (s : State) (g w : Nat) (x : Window) : State :=
  s.modCore g (fun c => { c with wins := tset c.wins w x })
def State.chan (s : State) (cl ch : Nat) : Chan := tget (s.cluster cl).chans ch
def State.setChan (s : State) (cl ch : Nat) (x : Chan) : State :=
  s.modCluster cl (fun c => { c with chans := tset c.chans ch x })
def State.tl (s : State) (cl k : Nat) : Timeline := tget (s.cluster cl).tls k
def State.setTl (s : State) (cl k : Nat) (x : Timeline) : State :=
  s.modCluster cl (fun c => { c with tls := tset c.tls k x })
def State.team (s : State) (cl j : Nat) : Team := tget (s.cluster cl).teams j
def State.setTeam (s : State) (cl j : Nat) (x : Team) : State :=
  s.modCluster cl (fun c => { c with teams := tset c.teams j x })

/-- A cluster whose cores have stopped or are stopping. DEDUCED: log 44. -/
def State.halted (s : State) (cl : Nat) : Bool :=
  (s.cluster cl).dbg.state = 1 || (s.cluster cl).dbg.state = 2

/-- The local GT of a die, and of a core's die. -/
def State.gt (s : State) (die : Nat) : Nat := (s.die die).gt
def State.gtOf (s : State) (core : Nat) : Nat := s.gt (dieOf core)

/-- A message sent: it is in flight until its row of the opcode table takes it. -/
def State.send (s : State) (b : MsgBody) : State :=
  { s with net := s.net ++ [{ id := s.nextId, body := b }], nextId := s.nextId + 1 }
/-- The message of an identity. -/
def State.msg? (s : State) (id : Nat) : Option MsgBody := (s.net.find? (fun m => m.id = id)).map (·.body)
def State.drop (s : State) (id : Nat) : State := { s with net := s.net.filter (fun m => m.id ≠ id) }

/-- The next order mark. -/
def State.tick (s : State) : Nat × State := (s.nextId, { s with nextId := s.nextId + 1 })

/-- A free choice among `n` things (assumption log 9). DESIGN CHOICE: log 9. -/
def State.choose (s : State) (n : Nat) : Nat × State :=
  (Config.freeNat s.free % n, { s with free := s.free + 1 })

/-- A free choice of a core's L1, or of the bridge, among `n` things (assumption log 9). DESIGN CHOICE: log 9. -/
def State.chooseAt (s : State) (core n : Nat) : Nat × State :=
  let c := s.core core
  (Config.freeNat ((core + 1) * 2 ^ 64 + c.free) % n, s.setCore core { c with free := c.free + 1 })

/-- An entry in the command processors' event log. -/
def State.logEvent (s : State) (what : String) (arg : Nat) : State :=
  { s with dev := { s.dev with log := { gt := s.refGt, what := what, arg := arg } :: s.dev.log } }

/-! ### Full and empty words (R102) -/

def feIns : List Nat → Nat → List Nat
  | [], d => [d]
  | x :: r, d => if d < x then d :: x :: r else if d = x then x :: r else x :: feIns r d

def State.isFull (s : State) (pa : Nat) : Bool := s.fe.contains (pa / 8)
def State.setFull (s : State) (pa : Nat) : State := { s with fe := feIns s.fe (pa / 8) }
def State.setEmpty (s : State) (pa : Nat) : State := { s with fe := s.fe.filter (· ≠ pa / 8) }

/-! ### The workspace (R132) -/

def offH : HReg → Nat
  | .hm => 128
  | .hx => 160
  | .hf => 192
def offP : Nat := 224
def offV : Nat := 320
def offAf : Nat := 2368
def offPc : Nat := 3072
def offCtxn : Nat := 3080
def offFpflags : Nat := 3088
def offPushst : Nat := 3096
def offRgn : Nat := 3104
def offAfr : Nat := 3112
def offLrs : Nat := 3120
def offHslab : Nat := 3128
def offPtroot : Nat := 3136
def offWid : Nat := 3144
def offHbase : Nat := 3152
def offFault : Nat := 3200
def offHist : Nat := 3968

def State.getW (s : State) (base : Nat) (r : WReg) : Word := BitVec.ofNat 64 (s.rd (base + 8 * r.val) 8)
def State.setW (s : State) (base : Nat) (r : WReg) (v : Word) : State := s.wr (base + 8 * r.val) 8 v.toNat
def State.getP (s : State) (base : Nat) (r : PReg) : Word := BitVec.ofNat 64 (s.rd (base + offP + 8 * r.val) 8)
def State.setP (s : State) (base : Nat) (r : PReg) (v : Word) : State := s.wr (base + offP + 8 * r.val) 8 v.toNat
def State.getV (s : State) (base : Nat) (r : VReg) : Vec := BitVec.ofNat 512 (s.rd (base + offV + 64 * r.val) 64)
def State.setV (s : State) (base : Nat) (r : VReg) (v : Vec) : State := s.wr (base + offV + 64 * r.val) 64 v.toNat
def State.getAf (s : State) (base : Nat) (r : AfReg) : Nat := s.rd (base + offAf + 64 * r.val) 64
def State.setAf (s : State) (base : Nat) (r : AfReg) (v : Nat) : State := s.wr (base + offAf + 64 * r.val) 64 v
def State.getH (s : State) (base : Nat) (r : HReg) : Nat := s.rd (base + offH r) 32
def State.setH (s : State) (base : Nat) (r : HReg) (v : Nat) : State := s.wr (base + offH r) 32 v
/-- A 64-bit word of the workspace at an offset. -/
def State.ws (s : State) (base off : Nat) : Nat := s.rd (base + off) 8
def State.setWs (s : State) (base off v : Nat) : State := s.wr (base + off) 8 v
def State.pc (s : State) (base : Nat) : Word := BitVec.ofNat 64 (s.ws base offPc)
def State.setPc (s : State) (base : Nat) (v : Word) : State := s.setWs base offPc v.toNat

/-- The fields of `CTXN` (R137). -/
def State.numOf (s : State) (base : Nat) : Nat := bits (s.ws base offCtxn) 0 24
def State.kindOf (s : State) (base : Nat) : Nat := bits (s.ws base offCtxn) 24 3
def State.pl (s : State) (base : Nat) : Bool := bit (s.ws base offCtxn) 31
def State.brw (s : State) (base : Nat) : Bool := bit (s.ws base offCtxn) 27
def State.setPl (s : State) (base : Nat) (b : Bool) : State :=
  s.setWs base offCtxn (setBits (s.ws base offCtxn) 31 1 (b2n b))
def State.setBrw (s : State) (base : Nat) (b : Bool) : State :=
  s.setWs base offCtxn (setBits (s.ws base offCtxn) 27 1 (b2n b))

/-- Flags ORed into `FPFLAGS` (R154, R156). -/
def State.orFlags (s : State) (base flags : Nat) : State := s.setWs base offFpflags (s.ws base offFpflags ||| flags)

/-! ### The context in hand -/

/-- A context on a slot: its core, slot key, workspace and name. -/
structure Me where
  core : Nat
  slot : Nat
  base : Nat
  key : Nat
  deriving DecidableEq, Repr

/-- The context of the turn in hand (R134, R137). -/
def State.me (s : State) : Me :=
  let k := s.turnCore * 16 + s.turnSlot
  let base := wsBase s.turnCore (s.slot k).frame.toNat
  { core := s.turnCore, slot := k, base := base, key := s.partOf s.turnCore * 2 ^ 24 + s.numOf base }

/-- The workspace of a context wherever it lies (R142, R250); none for no live context. -/
def State.baseOf (s : State) (key : Nat) : Option Nat :=
  match (s.ctx key).loc with
  | .none => none
  | .frame c f => some (wsBase c f)
  | .spilling c f _ => some (wsBase c f)
  | .filling c f _ => some (wsBase c f)
  | .hbm img => some img

/-- A context that some slot runs. -/
def State.meOf (s : State) (key : Nat) : Option Me :=
  match (s.ctx key).loc, (s.ctx key).slot with
  | .frame c f, some k => some { core := c, slot := k, base := wsBase c f, key := key }
  | _, _ => none

def State.setWait (s : State) (key : Nat) (w : Wait) : State := s.modCtx key (fun c => { c with wait := some w })
def State.clearWait (s : State) (key : Nat) : State := s.modCtx key (fun c => { c with wait := none })
def State.waitOf (s : State) (key : Nat) : Option Block := (s.ctx key).wait.map (·.block)

/-- A slot's turns in BRING mode end when its slot leaves the rotation, yields, traps or ends (R230). -/
def State.yieldTurns (s : State) (core slot : Nat) : State :=
  s.modCore core (fun c => if c.turnHolder = some (slot % 16) then { c with turnHolder := none } else c)

/-- PC := PC + `len`. -/
def State.advPc (s : State) (base len : Nat) : State := s.setPc base (s.pc base + BitVec.ofNat 64 len)

/-- A jump: the target is fetched anew (R324). -/
def State.jumpPc (s : State) (me : Me) (target : Word) : State :=
  (s.setPc me.base target).modSlot me.slot (fun x => { x with block := none })

/-- `LOCID` of a slot (R26). -/
def locid (core slot : Nat) : Nat :=
  let d := core / 192
  let c := core % 192 / 8
  core * 2 ^ 16 + (2 * d + (if 12 ≤ c then 1 else 0)) * 2 ^ 13 + d * 2 ^ 12 + c * 2 ^ 7
    + core % 8 / 4 * 2 ^ 6 + core % 4 * 2 ^ 4 + slot

/-! ### Taking an exception and returning (R243 to R249) -/

/-- The codes of R245. -/
def Cause.code : Cause → Nat
  | .call => 0 | .ill => 1 | .priv => 2 | .align => 3 | .page => 4 | .prot => 5 | .race => 6 | .afsym => 7
  | .ringfull => 8 | .block => 9 | .lease => 10 | .mchk => 11 | .brk => 12 | .wdog => 13 | .timeout => 14

/-- The kinds of access in the cause word (R247). -/
def accRead : Nat := 1
def accWrite : Nat := 2
def accFetch : Nat := 3
def accAtomic : Nat := 4
def accWalk : Nat := 5
def accEngineRead : Nat := 6
def accEngineWrite : Nat := 7

/-- The cause word (R247). -/
def TrapInfo.word (t : TrapInfo) : Nat :=
  t.cause.code + t.level * 2 ^ 8 + t.acc * 2 ^ 12 + b2n t.eng * 2 ^ 21 + b2n t.rpt.isSome * 2 ^ 22
    + b2n t.late * 2 ^ 23
    + (match t.rpt with | some (rep, idx) => rep % 2 ^ 12 * 2 ^ 36 + idx % 2 ^ 4 * 2 ^ 32 | none => 0)

/-- The fields of a fault record as one number of 256 bytes, bytes 0 to 55 and RCOPY (R246). -/
def TrapInfo.fields (t : TrapInfo) (rpc fpc gt : Nat) : List (Nat × Nat) :=
  [(0, t.word), (8, rpc), (16, fpc), (24, t.addr), (32, gt), (40, t.info0), (48, t.info1)]

/-- A number of 256 bytes with 64-bit fields at byte offsets. -/
def packFields (fs : List (Nat × Nat)) : Nat := fs.foldl (fun n f => n + f.2 % 2 ^ 64 * 2 ^ (8 * f.1)) 0

/-- RPC: the instruction after a `trap` or `brk`, whose length is 8, and the instruction itself otherwise (R243). -/
def rpcOf (t : TrapInfo) (pc : Word) : Word :=
  if t.cause = .call ∨ t.cause = .brk then pc + 8 else pc

/-- A fatal context (R259): it stops, and its dump is queued with a record of the cause laid out as trap entry would
write it (R260). A cause raised while the context already waits for its dump is a nested record (R261). -/
def fatal (key : Nat) (core slot : Nat) (record gt : Nat) (s : State) : State :=
  let p := s.part (key / 2 ^ 24)
  let frame := match s.baseOf key with
    | some b => s.rd b 4096
    | none => 0
  let s := s.setPart (key / 2 ^ 24)
    { p with fatal :=
        if p.fatal.any (fun r => r.ctx = key) then
          p.fatal.map (fun r =>
            if r.ctx ≠ key then r
            else if 15 ≤ r.nested.length then { r with trunc := true }
            else { r with nested := r.nested ++ [(gt, record)] })
        else p.fatal ++ [{ ctx := key, gt := gt, record := record, frame := frame, locid := locid core slot,
                           queued := !p.fatal.isEmpty }] }
  let s := s.setWait key { block := .ending }
  s.modCtx key (fun c => if c.killing then c else { c with killing := true, why := .fault, killGt := gt })

/-- Trap entry (R243, R246, R247) for a context on a slot. At PL = 1 the context is fatal instead and nothing is
written into its workspace. -/
def trapEntry (me : Me) (t : TrapInfo) (s : State) : State :=
  let pc := s.pc me.base
  let gt := s.gtOf me.core
  let rpc := rpcOf t pc
  if s.pl me.base then
    (fatal me.key me.core (me.slot % 16) (packFields (t.fields rpc.toNat pc.toNat gt)
      + leNat t.rcopy * 2 ^ (8 * 128)) gt s).yieldTurns me.core me.slot
  else
    let f := me.base + offFault
    let c := s.ctx me.key
    let w14 := s.getW me.base 14
    let w15 := s.getW me.base 15
    let s := s.wr f 8 t.word
    let s := s.wr (f + 8) 8 rpc.toNat
    let s := s.wr (f + 16) 8 pc.toNat
    let s := s.wr (f + 24) 8 t.addr
    let s := s.wr (f + 32) 8 gt
    let s := s.wr (f + 40) 8 t.info0
    let s := s.wr (f + 48) 8 t.info1
    let s := s.wr (f + 56) 8 w14.toNat
    let s := s.wr (f + 64) 8 w15.toNat
    let s := s.wr (f + 72) 8 0
    let s := s.wr (f + 80) 8 c.sign
    let s := s.wr (f + 88) 8 c.lastdt.toNat
    let s := s.wr (f + 96) 8 c.succp.toNat
    let s := s.wr (f + 104) 24 0
    let s := s.wr (f + 128) 64 (leNat t.rcopy)
    let s := s.wr (f + 192) 64 0
    let s := s.setW me.base 14 (BitVec.ofNat 64 t.addr)
    let s := s.setW me.base 15 (BitVec.ofNat 64 t.word)
    let s := s.setPl me.base true
    let s := s.jumpPc me (BitVec.ofNat 64 ((s.part (s.partOf me.core)).tbase + 256 * t.cause.code))
    s.yieldTurns me.core me.slot

/-- A trap in the slot whose turn it is. -/
def trap (t : TrapInfo) (s : State) : State := trapEntry s.me t s

/-- #ILL of a whole instruction met at run time (R208): INFO0 is its first 64 bits. -/
def trapIll (i : Instr) (s : State) : State := trap { cause := .ill, info0 := i.first64.toNat } s

/-- #PRIV (R302, R386). -/
def trapPriv (i : Instr) (s : State) : State := trap { cause := .priv, info0 := i.first64.toNat } s

/-- #PROT with no address. -/
def prot : TrapInfo := { cause := .prot }

/-- #ALIGN (R245): INFO0 is the access size. -/
def align (addr size acc : Nat) : TrapInfo := { cause := .align, addr := addr, info0 := size, acc := acc }

/-- #MCHK for a lost line (R245): INFO0 is its physical address, INFO1 its bank or local-memory number. -/
def State.mchk (s : State) (addr pa acc : Nat) : TrapInfo :=
  { cause := .mchk, addr := addr, info0 := pa / 128 * 128, acc := acc
    info1 := match regionOf pa with
      | .local g => g
      | _ => s.bankOf pa }

/-- The registers that `eret` restores, and PL cleared (R249). -/
def eretRestore (me : Me) (s : State) : State :=
  let f := me.base + offFault
  let w14 := s.rd (f + 56) 8
  let w15 := s.rd (f + 64) 8
  let s := s.setW me.base 14 (BitVec.ofNat 64 w14)
  let s := s.setW me.base 15 (BitVec.ofNat 64 w15)
  s.setPl me.base false

/-- An answer of the meaning of a step. -/
def ok (s : State) : Out := .next s

end Sys2Proof.Machine
end

