-- ==== Sys2Proof/Machine/Operands.lean ====
section
/-! DEFINITION. The operand forms of the scalar instructions (R303): operand widths, effective addresses, and the
extension of a result into a 64-bit register. -/

namespace Sys2Proof.Machine

open Sys2Proof

/-- The operand width of an instruction: 32 for a 32-bit TYPE, 64 for TYPE 0 (R303). -/
def opBits (t : Ty) : Nat := if t.bits = 32 then 32 else 64

/-- A source operand: the low `n` bits of a register. -/
def State.src (s : State) (base n : Nat) (r : WReg) : Nat := (s.getW base r).toNat % 2 ^ n

/-- A result of `n` bits, written zero-extended (R303, R148). -/
def State.dst (s : State) (base n : Nat) (r : WReg) (v : Nat) : State := s.setW base r (BitVec.ofNat 64 (v % 2 ^ n))

/-- The effective address EA := Wrap(W[a] + Imm, 64) (R303). -/
def State.ea (s : State) (base : Nat) (a : WReg) (imm : Imm) : Word := s.getW base a + imm.val

/-- The effective address of a form that may name PC (R295, R303). -/
def State.eaOf (s : State) (base : Nat) (b : MBase) (imm : Imm) : Word :=
  match b with
  | .reg a => s.ea base a imm
  | .pc => s.pc base + imm.val

/-- The length in bytes of a form by its immediate (R284, R288). -/
def Imm.len : Imm → Nat
  | .i24 _ => 8
  | .i32 _ => 12
  | .i64 _ => 16

/-- The bytes of a type. -/
def tyBytes (t : Ty) : Nat := t.bits / 8

/-- A loaded value extended into 64 bits: sign-extended for an `i` type, zero-extended otherwise (R315). -/
def extendLoad (t : Ty) (v : Nat) : Word :=
  if t.isSigned then BitVec.ofInt 64 (toSigned t.bits v) else BitVec.ofNat 64 (v % 2 ^ t.bits)

/-- Element `i` of a vector at an element width (R6). -/
def elem (w : Nat) (v : Nat) (i : Nat) : Nat := bits v (i * w) w

/-- The vector whose element `i` is `f i`, for `n` elements of width `w`. -/
def ofElems (w n : Nat) (f : Nat → Nat) : Nat :=
  (List.range n).foldl (fun acc i => acc + f i % 2 ^ w * 2 ^ (i * w)) 0

/-- A cluster local address operand is held in bits [22:0]; the other bits must be zero (R386). -/
def clusterAddrOk (v : Nat) : Bool := v < 2 ^ 23

end Sys2Proof.Machine
end

