-- ==== Sys2Proof/Machine/Flags.lean ====
section
/-! DEFINITION. The flags of `FPFLAGS` (R154 to R156): their bits, the flags of a rounding and of an invalid operation. -/

namespace Sys2Proof.Machine

open Sys2Proof

/-- The bits of `FPFLAGS` (R154). -/
def flagNX : Nat := 1
def flagUF : Nat := 2
def flagOF : Nat := 4
def flagNV : Nat := 8

/-- An overflow sets OF and NX (R154). -/
def flagsOverflow : Nat := flagOF + flagNX

/-- The flags of a delivered result: NX when inexact, UF as well when it lies below the smallest normal (R154). -/
def flagsRound (inexact tiny : Bool) : Nat :=
  if inexact then (if tiny then flagUF + flagNX else flagNX) else 0

/-- NV when a condition of R155 holds. -/
def flagsInvalid (c : Bool) : Nat := if c then flagNV else 0

end Sys2Proof.Machine
end

