-- ==== Sys2Proof/Machine/Numbers.lean ====
section
/-! DEFINITION. Number formats and rounding (R148 to R167): the binary floating-point formats, exact values, the one
rounding function, conversions, block scales, Gazelle-8, the reduction tree and the array's accumulation. -/

namespace Sys2Proof.Machine

open Sys2Proof

/-! ### Formats (R149) -/

/-- A binary floating-point format: `e` exponent bits and `m` fraction bits, the largest finite significand and its
exponent, whether it has infinities and signalling NaNs. -/
structure Fmt where
  e : Nat
  m : Nat
  bias : Nat
  maxSig : Nat        -- the significand of the largest finite value, of m + 1 bits
  emax : Nat          -- and its exponent
  inf : Bool
  sig : Bool
  nan : Option Nat    -- the canonical NaN
  deriving DecidableEq, Repr

def fmtF64 : Fmt := { e := 11, m := 52, bias := 1023, maxSig := 2 ^ 53 - 1, emax := 1023, inf := true, sig := true, nan := some 0x7FF8000000000000 }
def fmtF32 : Fmt := { e := 8, m := 23, bias := 127, maxSig := 2 ^ 24 - 1, emax := 127, inf := true, sig := true, nan := some 0x7FC00000 }
def fmtF16 : Fmt := { e := 5, m := 10, bias := 15, maxSig := 2 ^ 11 - 1, emax := 15, inf := true, sig := true, nan := some 0x7E00 }
def fmtBf16 : Fmt := { e := 8, m := 7, bias := 127, maxSig := 2 ^ 8 - 1, emax := 127, inf := true, sig := true, nan := some 0x7FC0 }
def fmtE4m3 : Fmt := { e := 4, m := 3, bias := 7, maxSig := 14, emax := 8, inf := false, sig := false, nan := some 0x7F }
def fmtE5m2 : Fmt := { e := 5, m := 2, bias := 15, maxSig := 7, emax := 15, inf := true, sig := false, nan := some 0x7E }
def fmtE2m1 : Fmt := { e := 2, m := 1, bias := 1, maxSig := 3, emax := 2, inf := false, sig := false, nan := none }

/-- The format of a floating-point type. -/
def fmtOf : Ty → Fmt
  | .f64 => fmtF64
  | .f16 => fmtF16
  | .bf16 => fmtBf16
  | .e4m3 => fmtE4m3
  | .e5m2 => fmtE5m2
  | .e2m1 => fmtE2m1
  | _ => fmtF32

/-- An exact number: NaN, an infinity, or (-1)^neg * mant * 2^exp / den, with a signed zero when `mant` is 0. -/
inductive Fp where
  | nan (signalling : Bool)
  | inf (neg : Bool)
  | num (neg : Bool) (mant : Nat) (exp : Int) (den : Nat)
  deriving DecidableEq, Repr

def Fp.zero (neg : Bool) : Fp := .num neg 0 0 1

/-- The value of an encoding (R149, R150). -/
def Fmt.decode (f : Fmt) (code : Nat) : Fp :=
  let s := bit code (f.e + f.m)
  let ex := bits code f.m f.e
  let m := bits code 0 f.m
  if f.inf ∧ ex = 2 ^ f.e - 1 then
    if m = 0 then .inf s else .nan (f.sig && !bit m (f.m - 1))
  else if !f.inf ∧ f.nan = some (code % 2 ^ (f.e + f.m)) then .nan false
  else if ex = 0 then .num s m (1 - (f.bias : Int) - f.m) 1
  else .num s (2 ^ f.m + m) ((ex : Int) - f.bias - f.m) 1

/-- An encoding with a sign. -/
def Fmt.signed (f : Fmt) (neg : Bool) (mag : Nat) : Nat := mag + b2n neg * 2 ^ (f.e + f.m)

/-- The magnitudes of an infinity and of the largest finite value. -/
def Fmt.infMag (f : Fmt) : Nat := (2 ^ f.e - 1) * 2 ^ f.m
def Fmt.maxMag (f : Fmt) : Nat := (f.emax + f.bias - 1) * 2 ^ f.m + f.maxSig

/-! ### Rounding (R151, R152) -/

/-- mant * 2^exp as a fraction of naturals. -/
def ratOf (mant : Nat) (exp : Int) (den : Nat) : Nat × Nat :=
  if 0 ≤ exp then (mant * 2 ^ exp.toNat, den) else (mant, den * 2 ^ (-exp).toNat)

/-- Whether the neighbour of larger magnitude is chosen, for `n + r/d` with 0 < r < d (R151). -/
def roundUp (rm : Rm) (neg : Bool) (n r d : Nat) : Bool :=
  match rm with
  | .rne => decide (d < 2 * r) || (decide (2 * r = d) && decide (n % 2 = 1))
  | .rna => decide (d ≤ 2 * r)
  | .rtz => false
  | .rup => !neg
  | .rdn => neg

/-- A positive fraction rounded to an integer, and whether it is inexact. -/
def roundInt (rm : Rm) (neg : Bool) (num den : Nat) : Nat × Bool :=
  let n := num / den
  let r := num % den
  if r = 0 then (n, false) else (if roundUp rm neg n r den then n + 1 else n, true)

/-- ⌊log₂⌋ of a positive value mant * 2^exp / den. -/
def floorLog2 (mant : Nat) (exp : Int) (den : Nat) : Int :=
  let l : Int := (Nat.log2 mant : Int) - Nat.log2 den
  let q := ratOf 1 l 1
  if mant * q.2 < q.1 * den then l - 1 + exp else l + exp

/-- The overflowed result (R152). -/
def Fmt.overflow (f : Fmt) (neg : Bool) (rm : Rm) : Nat :=
  let toInf := match rm with
    | .rne | .rna => true
    | .rtz => false
    | .rup => !neg
    | .rdn => neg
  f.signed neg (if f.inf && toInf then f.infMag else f.maxMag)

/-- `Round(fmt, x, rm)` of a number, with its flags (R151 to R154). -/
def Fmt.round (f : Fmt) (rm : Rm) (neg : Bool) (mant : Nat) (exp : Int) (den : Nat) : Nat × Nat :=
  if mant = 0 then (f.signed neg 0, 0)
  else
    let emin : Int := 1 - (f.bias : Int)
    let top := floorLog2 mant exp den
    let u := max top emin - f.m
    let umin := emin - f.m
    let q := ratOf mant (exp - u) den
    match roundInt rm neg q.1 q.2 with
    | (n, inexact) =>
      let umax : Int := (f.emax : Int) - f.m
      if umax < u ∨ f.maxSig * 2 ^ (umax - umin).toNat < n * 2 ^ (u - umin).toNat then
        (f.overflow neg rm, flagsOverflow)
      else
        (f.signed neg ((u - umin).toNat * 2 ^ f.m + n), flagsRound inexact (u = umin && decide (n < 2 ^ f.m)))

/-- An exact result delivered in a format (R150 to R155). -/
def Fmt.deliver (f : Fmt) (rm : Rm) : Fp → Nat × Nat
  | .nan _ => (f.nan.getD 0, flagsInvalid (!f.inf))
  | .inf neg => (f.signed neg (if f.inf then f.infMag else f.maxMag), flagsInvalid (!f.inf))
  | .num neg m e d => f.round rm neg m e d

/-! ### Exact arithmetic (R153, R155) -/

def Fp.isNan : Fp → Bool
  | .nan _ => true
  | _ => false
def Fp.isSnan : Fp → Bool
  | .nan s => s
  | _ => false
def Fp.isZero : Fp → Bool
  | .num _ m _ _ => m = 0
  | _ => false
def Fp.neg : Fp → Fp
  | .nan s => .nan s
  | .inf s => .inf (!s)
  | .num s m e d => .num (!s) m e d

/-- The sign of an exact zero sum of unlike signs (R153). -/
def zeroSign (rm : Rm) : Bool := rm = .rdn

/-- The exact sum, and whether ∞ - ∞ was formed. -/
def Fp.add (rm : Rm) : Fp → Fp → Fp × Bool
  | .nan _, _ => (.nan false, false)
  | _, .nan _ => (.nan false, false)
  | .inf a, .inf b => if a = b then (.inf a, false) else (.nan false, true)
  | .inf a, _ => (.inf a, false)
  | _, .inf b => (.inf b, false)
  | .num sa ma ea da, .num sb mb eb db =>
    let e := min ea eb
    let a : Int := (ma * 2 ^ (ea - e).toNat * db : Nat)
    let b : Int := (mb * 2 ^ (eb - e).toNat * da : Nat)
    let sum := (if sa then -a else a) + (if sb then -b else b)
    if sum = 0 then (Fp.zero (if sa = sb then sa else zeroSign rm), false)
    else (.num (sum < 0) sum.natAbs e (da * db), false)

/-- The exact product, and whether 0 * ∞ was formed. -/
def Fp.mul : Fp → Fp → Fp × Bool
  | .nan _, _ => (.nan false, false)
  | _, .nan _ => (.nan false, false)
  | .inf a, .inf b => (.inf (a ≠ b), false)
  | .inf a, .num b m _ _ => if m = 0 then (.nan false, true) else (.inf (a ≠ b), false)
  | .num b m _ _, .inf a => if m = 0 then (.nan false, true) else (.inf (a ≠ b), false)
  | .num sa ma ea da, .num sb mb eb db => (.num (sa ≠ sb) (ma * mb) (ea + eb) (da * db), false)

/-- The quotient of two numbers, the divisor not zero. -/
def Fp.div : Fp → Fp → Fp
  | .num sa ma ea da, .num sb mb eb db => .num (sa ≠ sb) (ma * db) (ea - eb) (da * mb)
  | x, _ => x

/-- A sum, a product, and a fused multiply-add of encodings, with flags (R151 to R155). -/
def fpAdd (f : Fmt) (rm : Rm) (x y : Nat) : Nat × Nat :=
  let a := f.decode x
  let b := f.decode y
  let r := a.add rm b
  let q := f.deliver rm r.1
  (q.1, q.2 ||| flagsInvalid (a.isSnan || b.isSnan || r.2))

def fpMul (f : Fmt) (rm : Rm) (x y : Nat) : Nat × Nat :=
  let a := f.decode x
  let b := f.decode y
  let r := a.mul b
  let q := f.deliver rm r.1
  (q.1, q.2 ||| flagsInvalid (a.isSnan || b.isSnan || r.2))

/-- A difference in the operands' own format, with its flags (R155). -/
def fpSub (f : Fmt) (rm : Rm) (x y : Nat) : Nat × Nat :=
  let a := f.decode x
  let b := f.decode y
  let r := a.add rm b.neg
  let q := f.deliver rm r.1
  (q.1, q.2 ||| flagsInvalid (a.isSnan || b.isSnan || r.2))

def fpFma (f : Fmt) (rm : Rm) (sub : Bool) (x y z : Nat) : Nat × Nat :=
  let a := f.decode x
  let b := f.decode y
  let c := f.decode z
  let p := a.mul b
  let r := p.1.add rm (if sub then c.neg else c)
  let q := f.deliver rm r.1
  (q.1, q.2 ||| flagsInvalid (a.isSnan || b.isSnan || c.isSnan || p.2 || r.2))

/-! ### Comparison (R157) -/

/-- Less, equal or greater of two numbers that are not NaN; none when unordered. -/
def Fp.cmp : Fp → Fp → Option Ordering
  | .nan _, _ => none
  | _, .nan _ => none
  | .inf a, .inf b => some (if a = b then .eq else if a then .lt else .gt)
  | .inf a, _ => some (if a then .lt else .gt)
  | _, .inf b => some (if b then .gt else .lt)
  | .num sa ma ea da, .num sb mb eb db =>
    let e := min ea eb
    let a : Int := (ma * 2 ^ (ea - e).toNat * db : Nat)
    let b : Int := (mb * 2 ^ (eb - e).toNat * da : Nat)
    some (compare (if sa then -a else a) (if sb then -b else b))

/-- A relation of `scmp` and `vcmp` on an order; unordered makes only `ne` true. -/
def relHolds (k : Rel) (o : Option Ordering) : Bool :=
  match k, o with
  | .lt, some .lt => true
  | .le, some .lt => true
  | .le, some .eq => true
  | .eq, some .eq => true
  | .ne, some .eq => false
  | .ne, _ => true
  | _, _ => false

/-- A floating-point comparison of encodings, with NV for a signalling NaN. -/
def fpRel (f : Fmt) (k : Rel) (x y : Nat) : Bool × Nat :=
  let a := f.decode x
  let b := f.decode y
  (relHolds k (a.cmp b), flagsInvalid (a.isSnan || b.isSnan))

def Fp.sign : Fp → Bool
  | .nan _ => false
  | .inf s => s
  | .num s _ _ _ => s

/-- Minimum and maximum: one NaN gives the other operand, two the canonical NaN, and -0 is less than +0. -/
def fpMinMax (f : Fmt) (isMax : Bool) (x y : Nat) : Nat × Nat :=
  let a := f.decode x
  let b := f.decode y
  let fl := flagsInvalid (a.isSnan || b.isSnan)
  if a.isNan && b.isNan then (f.nan.getD 0, fl)
  else if a.isNan then (y, fl)
  else if b.isNan then (x, fl)
  else
    let less := match a.cmp b with
      | some .lt => true
      | some .eq => a.sign && !b.sign
      | _ => false
    (if less = isMax then y else x, fl)

/-! ### Conversions (R158) and Gazelle-8 (R162 to R164) -/

/-- The number of bits from `i - 1` downward equal to `t`, the marker ends the run. -/
def gzRun (t : Bool) (p : Nat) : Nat → Nat
  | 0 => 0
  | i + 1 => if bit p i = t then 1 + gzRun t p i else 0

/-- The exponent digit `d` of a payload, plus 6 (R162). -/
def gzDigit (p : Nat) : Nat :=
  let run := gzRun (bit p 6) p 7
  if bit p 6 then 5 + run else 6 - run

/-- The magnitude of a finite nonzero payload in units of 10^-6 / 32 (R162). -/
def gzUnits (p : Nat) : Nat :=
  let k := 6 - gzRun (bit p 6) p 7
  (2 ^ k + 9 * (p % 2 ^ k)) * 10 ^ gzDigit p * 32 / 2 ^ k

/-- A finite nonzero code whose exponent digit is negative: a conversion out of it to a float format is inexact, be its
value representable (R164). -/
def gzInexact (b : Nat) : Bool := b % 128 ≠ 0 && b % 128 ≠ 0x7F && decide (gzDigit (b % 128) < 6)

/-- `GZ8Value` (R162). -/
def gzDecode (b : Nat) : Fp :=
  let s := bit b 7
  let p := b % 128
  if p = 0 then (if s then .nan false else Fp.zero false)
  else if p = 0x7F then .inf s
  else .num s (gzUnits p) 0 (32 * 10 ^ 6)

/-- The largest payload whose magnitude is at most num/den units, by its bits from the top. -/
def gzFloor (num den : Nat) : Nat → Nat → Nat
  | 0, p => p
  | i + 1, p => if p + 2 ^ i < 0x7F ∧ gzUnits (p + 2 ^ i) * den ≤ num then gzFloor num den i (p + 2 ^ i) else gzFloor num den i p

/-- The fraction bit that decides a tie: `f` of a payload, 0 when it has none (R164). -/
def gzOdd (p : Nat) : Bool := decide (gzRun (bit p 6) p 7 < 6) && decide (p % 2 = 1)

/-- Conversion into `gz8` (R164). -/
def gzEncode : Fp → Nat × Nat
  | .nan s => (0x80, flagsInvalid s)
  | .inf s => (0x7F + b2n s * 128, 0)
  | .num s m e d =>
    if m = 0 then (0, 0)
    else
      let q := ratOf m e d
      let num := q.1 * (32 * 10 ^ 6)
      let den := q.2
      let sg := b2n s * 128
      if 32 * 10 ^ 11 * den < num then (0x7E + sg, flagsOverflow)
      else if num < 32 * den then
        if 16 * den < num then (1 + sg, flagNX) else (0, flagUF + flagNX)
      else
        let p := gzFloor num den 7 0
        if gzUnits p * den = num then (p + sg, 0)
        else
          let mid := (gzUnits p + gzUnits (p + 1)) * den
          let up := decide (mid < 2 * num) || (decide (mid = 2 * num) && (gzOdd p || !gzOdd (p + 1)))
          ((if up then p + 1 else p) + sg, flagNX)

/-- The exact value of an element of a type that is not a block format (R148, R149, R162). -/
def valueOf (t : Ty) (x : Nat) : Fp :=
  if t.isInt then
    let v : Int := if t.isSigned then toSigned t.bits x else (x % 2 ^ t.bits : Nat)
    .num (v < 0) v.natAbs 0 1
  else if t = .gz8 then gzDecode x
  else (fmtOf t).decode x

/-- A value converted to an integer type: rounded, then compared with the range (R158). -/
def toIntType (t : Ty) (rm : Rm) : Fp → Nat × Nat
  | .nan _ => (0, flagNV)
  | .inf s => (if s then lo else hi, flagNV)
  | .num s m e d =>
    let q := ratOf m e d
    let r := roundInt rm s q.1 q.2
    let v : Int := if s then -(r.1 : Int) else r.1
    if v < loI then (lo, flagNV)
    else if hiI < v then (hi, flagNV)
    else (wrapInt t.bits v, if r.2 then flagNX else 0)
where
  loI : Int := if t.isSigned then -((2 ^ (t.bits - 1) : Nat) : Int) else 0
  hiI : Int := if t.isSigned then ((2 ^ (t.bits - 1) : Nat) : Int) - 1 else ((2 ^ t.bits : Nat) : Int) - 1
  lo : Nat := wrapInt t.bits loI
  hi : Nat := wrapInt t.bits hiI

/-- A code of `gz8` converted to a float format (R164). -/
def gzToFloat (f : Fmt) (rm : Rm) (x : Nat) : Nat × Nat :=
  let v := gzDecode x
  let q := f.deliver rm v
  (q.1, q.2 ||| flagsInvalid v.isSnan ||| if gzInexact x then flagNX else 0)

/-- A conversion of an element of type `t` to type `u` (R158, R164, R342). -/
def convert (u t : Ty) (rm : Rm) (x : Nat) : Nat × Nat :=
  if u.isInt && t.isInt then
    ((if t.isSigned then wrapInt u.bits (toSigned t.bits x) else x % 2 ^ t.bits % 2 ^ u.bits), 0)
  else
    let v := valueOf t x
    if u.isInt then toIntType u rm v
    else if u = .gz8 then gzEncode v
    else if t = .gz8 then gzToFloat (fmtOf u) rm x
    else
      let q := (fmtOf u).deliver rm v
      (q.1, q.2 ||| flagsInvalid v.isSnan)

/-! ### Scales and block formats (R159 to R161) -/

/-- A scale of 8 bits (R160). -/
def e8m0Value (c : Nat) : Fp := if c = 255 then .nan false else .num false 1 ((c : Int) - 127) 1

/-- An `s12` magnitude in units of 2^-130 (R160). -/
def s12Units (c : Nat) : Nat := if c / 16 = 0 then c % 16 else (16 + c % 16) * 2 ^ (c / 16 - 1)

/-- A scale of 12 bits in a 16-bit slot (R160). -/
def s12Value (c : Nat) : Fp := if 0xFFF ≤ c then .nan false else .num false (s12Units c) (-130) 1

/-- The largest code whose value is below num/den units of 2^-130, by its bits from the top. -/
def s12Below (num den : Nat) : Nat → Nat → Nat
  | 0, c => c
  | i + 1, c => if s12Units (c + 2 ^ i) * den < num then s12Below num den i (c + 2 ^ i) else s12Below num den i c

/-- The block format's element format (none: `mxint8`), and its largest exponent (R159, R161). -/
def blockElem (t : Ty) (e5 : Bool) : Option Fmt × Int :=
  match t with
  | .mxfp4 => (some fmtE2m1, 2)
  | .mxfp8 => if e5 then (some fmtE5m2, 15) else (some fmtE4m3, 8)
  | .qx4 => (some fmtE2m1, 0)
  | .qx8 => (some fmtE4m3, 0)
  | _ => (none, 0)

def isS12 (t : Ty) : Bool := t = .qx4 || t = .qx8

/-- The bits of an element in its array. -/
def blockBits (t : Ty) : Nat := if t = .mxfp4 || t = .qx4 then 4 else 8

def Fp.mag : Fp → Fp
  | .num _ m e d => .num false m e d
  | x => x

/-- The larger of two magnitudes. -/
def Fp.maxMag (a b : Fp) : Fp := if a.mag.cmp b.mag = some .lt then b.mag else a.mag

/-- One element quantised under a scale (R161); a nonzero input delivered as zero sets UF and NX (R154). -/
def quantElem (fmt : Option Fmt) (rm : Rm) (scale x : Fp) : Nat × Nat :=
  match x.div scale with
  | .num s m e d =>
    match fmt with
    | some f =>
      let r := f.round rm s m e d
      if r.2 &&& flagOF ≠ 0 then (f.signed s f.maxMag, r.2) else r
    | none =>
      let q := ratOf (64 * m) e d
      let r := roundInt rm s q.1 q.2
      if 127 < r.1 then (wrapInt 8 (if s then -127 else 127), flagsOverflow)
      else (wrapInt 8 (if s then -(r.1 : Int) else r.1), if r.2 then flagNX else 0)
  | _ => (0, 0)

/-- The scale code and its value for an `amax` above zero (R161). -/
def quantScale (t : Ty) (e5 : Bool) (amax : Fp) : Nat × Fp :=
  match amax with
  | .num _ m e d =>
    if isS12 t then
      let k := if t = .qx4 then 6 else 448
      let q := ratOf m (e + 130) (d * k)
      let c := s12Below q.1 q.2 12 0 + 1
      (c, s12Value c)
    else
      let x := floorLog2 m e d - (blockElem t e5).2 + 127
      let c := min (max x 0) 254
      (c.toNat, .num false 1 (c - 127) 1)
  | _ => (0, .zero false)

/-- Block quantisation of 32 values: scale code, element codes and flags (R161). -/
def quantise (t : Ty) (e5 : Bool) (rm : Rm) (xs : List Fp) : Nat × List Nat × Nat :=
  if xs.any (fun x => match x with | .num .. => false | _ => true) then
    (if isS12 t then 0xFFF else 0xFF, xs.map (fun _ => 0), flagNV)
  else
    let amax := xs.foldl Fp.maxMag (Fp.zero false)
    if amax.isZero then (0, xs.map (fun _ => 0), 0)
    else
      let sc := quantScale t e5 amax
      let rs := xs.map (quantElem (blockElem t e5).1 rm sc.2)
      (sc.1, rs.map Prod.fst, rs.foldl (fun a r => a ||| r.2) 0)

/-- The exact value of a block element without its scale (R159). -/
def blockElemValue (fmt : Option Fmt) (code : Nat) : Fp :=
  match fmt with
  | some f => f.decode code
  | none => let v := toSigned 8 code; .num (v < 0) v.natAbs (-6) 1

/-- The exact value of an element under its scale (R159). -/
def blockValue (fmt : Option Fmt) (scale : Fp) (code : Nat) : Fp := ((blockElemValue fmt code).mul scale).1

/-! ### Summation (R166, R167) -/

/-- One level of the reduction tree: neighbours added, the lower element on the left (R166). -/
def treeLevel (f : Fmt) (rm : Rm) : List Nat → List Nat × Nat
  | a :: b :: r =>
    let x := fpAdd f rm a b
    let q := treeLevel f rm r
    (x.1 :: q.1, x.2 ||| q.2)
  | l => (l, 0)

/-- The tree of `n` levels (R166). -/
def treeSum (f : Fmt) (rm : Rm) : Nat → List Nat → Nat → Nat × Nat
  | 0, l, fl => (l.headD 0, fl)
  | n + 1, l, fl =>
    match treeLevel f rm l with
    | (l', fl') => treeSum f rm n l' (fl ||| fl')

/-- An exact sum of products (R167): a NaN product, ∞ * 0 or infinities of both signs give NaN, infinities of one
sign that infinity, and an exact zero is +0. -/
def exactSum (ps : List Fp) : Fp :=
  ps.foldl (fun acc p => (acc.add .rne p).1) (Fp.zero false)

/-- One group of the array's accumulation (R167); no flags. -/
def accumulateGroup (acc : Nat) (products : List Fp) (scaleA scaleW : Fp) : Nat :=
  let g := exactSum products
  let s := ((g.mul scaleA).1.mul scaleW).1
  (fmtF32.deliver .rne (((fmtF32.decode acc).add .rne s).1)).1

end Sys2Proof.Machine
end

