-- ==== Sys2Proof/Machine/Lines.lean ====
section
/-! DEFINITION. Token counting of a line (R49 to R52): its holders, its current value, the tokens' return to the home,
visibility times and holds (R63, R64), and a write performed at the home. -/

namespace Sys2Proof.Machine

open Sys2Proof

/-! ### Holders (R49): the L1 of core g is g; the host bridge is 900; line `idx` of window `w` of core g is
1000 + (g * 8 + w) * 2048 + idx -/

def bridge : Nat := 900
def winHolder (g w idx : Nat) : Nat := 1000 + (g * 8 + w) * 2048 + idx
def isWin (h : Nat) : Bool := 1000 ≤ h
def winCore (h : Nat) : Nat := (h - 1000) / 2048 / 8
def winNo (h : Nat) : Nat := (h - 1000) / 2048 % 8
def winIdx (h : Nat) : Nat := (h - 1000) % 2048
/-- The core that a holder belongs to; the bridge sits on die 0. -/
def holderCore (h : Nat) : Nat := if isWin h then winCore h else if h = bridge then 0 else h
def holderDie (h : Nat) : Nat := if h = bridge then 0 else dieOf (holderCore h)
/-- The filter's name of a holder's cluster; 48 is the bridge (R52). -/
def holderMark (h : Nat) : Nat := if h = bridge then 48 else clusterOf (holderCore h)

/-- The home die of a line: the bridge's die for a host line cached under CXL.cache (R68). -/
def State.lineDie (s : State) (l : Nat) : Nat :=
  match regionOf (l * 128) with
  | .hbm _ => s.homeDie (l * 128)
  | _ => 0

/-- The home's tables for a line. -/
def State.lineBank (s : State) (l : Nat) : Nat :=
  match regionOf (l * 128) with
  | .hbm _ => s.bankOf (l * 128)
  | _ => 96

/-- The source that a message log names for the home of a line (R280): its bank, or the host bridge. -/
def State.homeSrc (s : State) (l : Nat) : Nat :=
  match regionOf (l * 128) with
  | .hbm _ => 0x1000 + s.bankOf (l * 128)
  | _ => 0x3000

def State.homeData (s : State) (l : Nat) : Nat := s.rd (l * 128) 128

/-- A message that carries the owner token of a line, with the data and the stamp. -/
def ownerInFlight (l : Nat) : MsgBody → Option (Nat × Stamp)
  | .tokens _ l' _ owner _ data st _ => if l' = l && owner then data.map (fun d => (d, st)) else none
  | .writeBack _ l' _ owner _ data st _ => if l' = l && owner then data.map (fun d => (d, st)) else none
  | _ => none

/-- The current value of a line with its stamp: the owner token's data, wherever it is (R49). -/
def State.lineValue (s : State) (l : Nat) : Nat × Stamp :=
  let ln := s.line l
  if ln.owner then (s.homeData l, ln.stamp)
  else
    match (s.copies.map (fun t => tget t.2 l)).find? (fun c => c.owner && c.data.isSome) with
    | some c => ((c.data.getD 0).toNat, c.stamp)
    | none =>
      match s.net.findSome? (fun m => ownerInFlight l m.body) with
      | some v => v
      | none => (s.homeData l, ln.stamp)

/-- `n` bytes of the current values of the lines at an address. -/
def State.curRead (s : State) (pa n : Nat) : Nat :=
  match regionOf pa with
  | .hbm _ | .host =>
    let l := pa / 128
    let off := pa % 128
    let one := (s.lineValue l).1 / 2 ^ (8 * off)
    if off + n ≤ 128 then one % 2 ^ (8 * n)
    else one % 2 ^ (8 * (128 - off)) + (s.lineValue (l + 1)).1 % 2 ^ (8 * (off + n - 128)) * 2 ^ (8 * (128 - off))
  | _ => s.rd pa n

/-- Bytes stored into a memory without tokens; a line of local memory written whole is lost no more (R256). -/
def State.store (s : State) (pa n v : Nat) : State :=
  { s.wr pa n v with
    lostLocal := s.lostLocal.filter (fun l => !(decide (pa ≤ l * 128) && decide (l * 128 + 128 ≤ pa + n))) }

/-- A window line that gives up its tokens leaves its bytes in the local range beneath it (R108, R277). -/
def windowSpill (h : Nat) (c : Copy) (s : State) : State :=
  if isWin h then
    match c.data with
    | some d => s.store (localPa (winCore h) ((s.win (winCore h) (winNo h)).lbase * 4096 + winIdx h * 128)) 128 d.toNat
    | none => s
  else s

/-- A holder's copy without its tokens, its miss kept. -/
def Copy.emptied (c : Copy) : Copy := { miss := c.miss, evicting := c.evicting }

/-- A holder gives up all it holds of a line. -/
def clearCopy (h l : Nat) (s : State) : State :=
  let c := s.copy h l
  let s := windowSpill h c s
  if c.miss.isSome || c.evicting.isSome then s.setCopy h l c.emptied else s.delCopy h l

/-- The holders with a copy of a line. -/
def State.holders (s : State) (l : Nat) : List Nat := (s.copies.filter (fun t => thas t.2 l)).map Prod.fst

/-- The refusal of a pushed token at its target (R58, R59): the acknowledgement to the writer and PUSHREF. -/
def refusePush (target ctx push : Nat) (s : State) : State :=
  (s.modCore target (fun c => { c with pushref := satTo (c.pushref + 1) 0xFFFFFFFF })).send (.pushAck ctx push target true)

/-- The lines of an L1 that take up a frame. PRESUMED: log 11. -/
def usesFrame (c : Copy) : Bool := decide (0 < c.tokens) || c.lease.isSome || c.miss.isSome

/-- Whether a line could leave an L1 for another. -/
def evictable (c : Copy) : Bool := usesFrame c && c.miss.isNone && c.evicting.isNone

/-- The untouched lines of an L1 (R59). -/
def State.untouched (s : State) (g : Nat) : Nat := ((tget s.copies g).filter (fun e => e.2.untouched)).length

/-- A frame of a target could be had for a pushed line (R58). -/
def State.roomFor (s : State) (g l : Nat) : Bool :=
  usesFrame (s.copy g l) || decide (((tget s.copies g).filter (fun e => usesFrame e.2)).length < Config.l1Lines) ||
  (tget s.copies g).any (fun e => evictable e.2)

/-! ### The L2 slice and the holder filter (R31, R52) -/

/-- Lines of a bank's L2 slice: 2 MiB of 128-byte lines (R21). -/
def l2Lines : Nat := 16384

/-- Every cluster of a line's die, and the bridge on die 0: what the filter means for a line that is not resident. -/
def State.everyCluster (s : State) (l : Nat) : List Nat :=
  let die := s.lineDie l
  (List.range 24).map (fun i => 24 * die + i) ++ (if die = 0 then [48] else [])

/-- A line leaves its L2 slice; a dirty one is written to HBM, which holds the same bytes in `mem` (R52). -/
def evictL2 (l : Nat) (s : State) : State :=
  s.modLine l (fun x => { x with resident := false, dirty := false, filter := [] })

/-- A line that its home touches is resident in its L2 slice; the slice drops its oldest line when it is full, and the
filter of a line that comes in marks every cluster unless the home holds all its tokens (R52). PRESUMED: log 11. -/
def touchL2 (l : Nat) (s : State) : State :=
  match regionOf (l * 128) with
  | .hbm _ =>
    let b := s.lineBank l
    if (s.line l).resident then s
    else
      let every := if (s.line l).tokens = 512 then [] else s.everyCluster l
      let s := s.modLine l (fun x => { x with resident := true, filter := every })
      let old := (s.bank b).l2
      if old.length < l2Lines then s.modBank b (fun x => { x with l2 := l :: old })
      else evictL2 (old.getLastD 0) (s.modBank b (fun x => { x with l2 := l :: old.dropLast }))
  | _ => s

/-- The halves of lines that a range touches. -/
def halvesOf (a n : Nat) : List (Nat × Nat) :=
  if n = 0 then []
  else (List.range ((a + n - 1) / 64 - a / 64 + 1)).map (fun i => ((a / 64 + i) / 2, (a / 64 + i) % 2))

/-- A read at the base die: an error that the check code corrects is counted (R31). DESIGN CHOICE: log 9. -/
def readPath (l : Nat) (s : State) : State :=
  if Config.correctable l s.cycle then s.modBank (s.lineBank l) (fun b => { b with corrected := b.corrected + 1 }) else s

/-- The base-die lines of a range read: their corrected errors are counted (R31). -/
def readLines (pa n : Nat) (s : State) : State :=
  match regionOf pa with
  | .hbm _ => ((halvesOf pa n).map Prod.fst).eraseDups.foldl (fun s l => readPath l s) s
  | _ => s

/-- The holders that a write request's multicast goes to: those in the clusters that the filter marks, or every holder
of a line that is not resident (R52). -/
def State.marked (s : State) (l : Nat) (x : Line) : List Nat :=
  (s.holders l).filter (fun t => !x.resident || x.filter.contains (holderMark t))

/-- The filter marks a holder's cluster (R52). -/
def markFilter (h l : Nat) (s : State) : State :=
  (touchL2 l s).modLine l (fun x =>
    { x with filter := if x.filter.contains (holderMark h) then x.filter else x.filter ++ [holderMark h] })

/-- The home's tokens, but for the host token of a line in the snoop filter (R66), sent to the holder of the active
persistent request (R54). -/
def homeYield (l : Nat) (s : State) : State :=
  let ln := s.line l
  match ln.active with
  | none => s
  | some h =>
    let keep := if ln.half0 ≠ .hi ∨ ln.half1 ≠ .hi then 1 else 0
    let n := ln.tokens - keep
    if n = 0 then s
    else
      let s := s.send (.tokens h l n ln.owner ln.dirty (if ln.owner then some (s.homeData l) else none) ln.stamp
        (s.homeSrc l))
      markFilter h l (s.modLine l (fun x =>
        { x with tokens := ln.tokens - n, owner := false, dirty := false
                 ownerRec := if ln.owner then some h else x.ownerRec }))

/-! ### Back-invalidate snoops (R66, R67) -/

/-- The state of one half of a line (R66). -/
def Line.half (x : Line) (k : Nat) : HostHalf := if k = 0 then x.half0 else x.half1

/-- A half of a line in a host state other than HI (R66). -/
def Line.inFilter (x : Line) : Bool := x.half0 ≠ .hi || x.half1 ≠ .hi

/-- A half that a device access must snoop (R67). -/
def Line.mustSnoop (x : Line) (k : Nat) (write : Bool) : Bool := x.half k = .he || (write && x.half k = .hs)

/-- The first half that an access within one line touches and must snoop (R67). -/
def State.snoopHalf (s : State) (pa n : Nat) (write : Bool) : Option Nat :=
  let x := s.line (pa / 128)
  let first := pa % 128 / 64
  let last := min 127 (pa % 128 + n - 1) / 64
  if x.mustSnoop first write then some first else if x.mustSnoop last write then some last else none

/-- A back-invalidate snoop of a half, sent once: it downgrades for a read and invalidates for a write (R67). -/
def sendSnoop (l k : Nat) (write : Bool) (s : State) : State :=
  let sent := fun (o : Option (Nat × Bool)) =>
    match o with
    | some (t, inval) => some (t, inval || write)
    | none => some (s.gt 0, write)
  s.modLine l (fun x => if k = 0 then { x with snoop0 := sent x.snoop0 } else { x with snoop1 := sent x.snoop1 })

/-- A range that an agent of the device other than a slot reads or writes: whether no half of it is to be snooped, and
the state with every snoop that it needs sent (R67). -/
def snoopRange (pa n : Nat) (write : Bool) (s : State) : Bool × State :=
  match regionOf pa with
  | .hbm _ =>
    let need := (halvesOf pa n).filter (fun h => (s.line h.1).mustSnoop h.2 write)
    (need.isEmpty, need.foldl (fun s h => sendSnoop h.1 h.2 write s) s)
  | _ => (true, s)

/-- A device access to a line of the snoop filter makes its entry the most recently used (R66). -/
def touchFilter (l : Nat) (s : State) : State :=
  if (s.line l).inFilter then
    { s with dev := { s.dev with snoopers := s.dev.snoopers.filter (· ≠ l) ++ [l] } }
  else s

/-! ### A line gathered at its home -/

/-- A message of a line absorbed by the home's gathering: its tokens are the home's, a write-back is acknowledged, and
a notice of an owner that the line no longer has is void. -/
def absorb (l : Nat) (m : Msg) (s : State) : State :=
  match m.body with
  | .tokens _ l' _ _ _ _ _ _ => if l' = l then s.drop m.id else s
  | .ownerNotice l' _ => if l' = l then s.drop m.id else s
  | .writeBack h l' _ _ _ _ _ _ => if l' = l then (s.drop m.id).send (.wbAck h l m.id) else s
  | .refusedTok l' _ _ => if l' = l then s.drop m.id else s
  | _ => s

/-- The notices of a line's owner that are still in flight are void: a later owner is on record, or the home (R52).
DEDUCED: log 23. -/
def voidNotices (l : Nat) (s : State) : State :=
  { s with net := s.net.filter (fun m => match m.body with | .ownerNotice l' _ => l' ≠ l | _ => true) }

/-- All 512 tokens of a line at its home, with the current data: what a write at the home needs (R50, R51, R67).
DEDUCED: log 23. -/
def gatherHome (l : Nat) (s : State) : State :=
  let ln := s.line l
  if ln.owner && ln.tokens = 512 then s
  else
    let v := s.lineValue l
    let s := (s.holders l).foldl (fun s h => if (s.copy h l).tokens > 0 then clearCopy h l s else s) s
    let s := s.net.foldl (fun s m => absorb l m s) s
    let s := s.wr (l * 128) 128 v.1
    let s := s.modLine l (fun x => { x with tokens := 512, owner := true, ownerRec := none, filter := [], stamp := v.2
                                            dirty := true })
    recallForwards l s
where
  /-- The recorded forwards of the line come to the home again, and are cleared (R55). -/
  recallForwards (l : Nat) (s : State) : State :=
    let b := s.lineBank l
    let recs := (s.bank b).fwd.filter (fun f => f.1 = l)
    if recs.isEmpty then s
    else
      recs.foldl (fun s f => s.send (.readReq f.2 l))
        (s.modBank b (fun x => { x with fwd := x.fwd.filter (fun f => f.1 ≠ l) }))

/-! ### Visibility times (R63, R64) -/

/-- The latest lease end of a line (R63). -/
def State.leaseEnd (s : State) (l : Nat) : Nat :=
  let b := s.bank (s.lineBank l)
  match b.leases.find? (fun e => e.1 = l) with
  | some e => e.2
  | none => b.lf

/-- The visibility time of a write that performs at its home now. -/
def State.writeVt (s : State) (l : Nat) : Nat :=
  let now := s.gt (s.lineDie l)
  let le := s.leaseEnd l
  let vt := if now < le then max now (le + 32) else now
  if now < (s.line l).holdUntil then max vt (s.line l).holdUntil else vt

/-- A line whose write takes a visibility time in the future is held until it (R64). -/
def holdLine (l vt : Nat) (s : State) : State :=
  if s.gt (s.lineDie l) < vt then s.modLine l (fun x => { x with holdUntil := vt }) else s

/-- Whether a line is held now. -/
def State.isHeld (s : State) (l : Nat) : Bool := s.gt (s.lineDie l) < (s.line l).holdUntil

/-- The lease entered for a line, with the eviction of R63 when the table of 4,096 entries is full. The entry of a line
that had none holds the later of LF and the end granted now. DESIGN CHOICE: log 25. -/
def enterLease (l le : Nat) (s : State) : State :=
  s.modBank (s.lineBank l) (fun b =>
    if b.leases.any (fun e => e.1 = l) then
      { b with leases := b.leases.map (fun e => if e.1 = l then (l, max e.2 le) else e) }
    else if b.leases.length < 4096 then { b with leases := b.leases ++ [(l, max b.lf le)] }
    else
      let first := b.leases.foldl (fun m e => if e.2 < m.2 then e else m) (b.leases.headD (0, 0))
      let lf := max b.lf first.2
      { b with leases := b.leases.filter (fun e => e.1 ≠ first.1) ++ [(l, max lf le)], lf := lf })

/-- A number with `n` bytes at byte offset `off` replaced. -/
def spliceBytes (x off n v : Nat) : Nat := setBits x (8 * off) (8 * n) v

/-- What a write leaves at its line: the stamp of its writer (R88) and the clearing of a lost mark by a write of all
128 bytes (R256). -/
def stampLine (l n : Nat) (st : Stamp) (s : State) : State :=
  s.modLine l (fun x => { x with stamp := st, lost := if n = 128 then false else x.lost })

/-- A write performed at the home of its line (R51, R63): all tokens come to the home, the bytes are stored, and the
line takes its stamp and its hold. Answers the visibility time. -/
def homeWrite (pa n v ctx region : Nat) (s : State) : Nat × State :=
  let l := pa / 128
  let s := gatherHome l (touchL2 l (touchFilter l s))
  let s := if n = 128 then s else readPath l s
  let vt := s.writeVt l
  let s := s.wr pa n v
  let s := s.modLine l (fun x => { x with dirty := true })
  (vt, homeYield l (holdLine l vt (stampLine l n { vt := vt, ctx := ctx, region := region } s)))

/-- The leased copies that a die holds of a line are dropped (R61). DEDUCED: log 25. -/
def dropLeases (die l : Nat) (s : State) : State :=
  (s.holders l).foldl (fun s h =>
    if holderDie h = die && (s.copy h l).lease.isSome then
      let c := s.copy h l
      let s := windowSpill h c s
      if c.miss.isSome then s.setCopy h l { miss := c.miss } else s.delCopy h l
    else s) s

/-- After a die's own write to a line of the other die has performed, no leased copy of the line that is older serves
that die: those it holds are dropped, and a lease on its way there is asked for again (R61, R71). DEDUCED: log 25. -/
def freshLeases (die l : Nat) (s : State) : State :=
  if s.lineDie l = die then s
  else
    let old := s.net.filterMap (fun m =>
      match m.body with
      | .leaseReply h l' _ _ _ => if l' = l ∧ holderDie h = die then some (m.id, h) else none
      | _ => none)
    old.foldl (fun s e => (s.drop e.1).send (.leaseReq e.2 l (s.die die).lease)) (dropLeases die l s)

/-- A write performed at a line's home for an agent of a die. -/
def homeWriteFor (die pa n v ctx region : Nat) (s : State) : Nat × State :=
  match homeWrite pa n v ctx region s with
  | (vt, s) => (vt, freshLeases die (pa / 128) s)

/-- A write by the hardware or the firmware within one line; a half that the host holds is snooped, and its bytes are
written once the host has answered (R67). DEDUCED: log 55. -/
def hwWriteLine (pa n v : Nat) (s : State) : Nat × State :=
  match snoopRange pa n true s with
  | (true, s) => homeWrite pa n v 0 0 s
  | (false, s) =>
    let lo := min n (64 - pa % 64)
    match half pa lo (v % 2 ^ (8 * lo)) s with
    | (vt, s) =>
      match half (pa + lo) (n - lo) (v / 2 ^ (8 * lo)) s with
      | (vt', s) => (max vt vt', s)
where
  /-- The part of a write that lies in one half. -/
  half (pa n v : Nat) (s : State) : Nat × State :=
    if n = 0 then (0, s)
    else if (s.line (pa / 128)).mustSnoop (pa % 128 / 64) true then (0, { s with snoopOver := s.snoopOver ++ [(pa, n, v)] })
    else homeWrite pa n v 0 0 s

/-- A write by the hardware or the firmware to memory: at the home of each line it touches, stamped with context 0,
or straight to a memory that has no tokens. It answers the largest visibility time. A write of the host's own needs no
snoop (R67). DEDUCED: log 55. -/
def hwWriteLines (snoops : Bool) : Nat → Nat → Nat → Nat → State → Nat × State
  | 0, _, _, _, s => (0, s)
  | _ + 1, _, 0, _, s => (0, s)
  | k + 1, pa, n, v, s =>
    let m := min n (128 - pa % 128)
    let v' := v % 2 ^ (8 * m)
    match (if snoops then hwWriteLine pa m v' s else homeWrite pa m v' 0 0 s) with
    | (vt, s) =>
      match hwWriteLines snoops k (pa + m) (n - m) (v / 2 ^ (8 * m)) s with
      | (vt', s) => (max vt vt', s)

def hwWriteVt (pa n v : Nat) (s : State) : Nat × State :=
  match regionOf pa with
  | .hbm _ => hwWriteLines true (n / 128 + 2) pa n v s
  | _ => (0, s.store pa n v)

def hwWrite (pa n v : Nat) (s : State) : State := (hwWriteVt pa n v s).2

/-! ### Message logs (R279, R280) -/

/-- One log entry of a core; with the entry that fills the area OVF is set, and no later one is written. -/
def logEntry (core src ctx kind data : Nat) (s : State) : State :=
  let l := (s.core core).log
  if !l.en || l.ovf then s
  else
    let a := l.base + 56 * l.seq
    let entry := l.seq + s.gtOf core * 2 ^ 64 + src % 2 ^ 32 * 2 ^ 128 + ctx % 2 ^ 24 * 2 ^ 160 + kind % 256 * 2 ^ 184
      + data % 2 ^ 256 * 2 ^ 192
    let s := hwWrite a 56 entry s
    s.modCore core (fun c =>
      { c with log := { l with seq := l.seq + 1, ovf := decide (65536 * 2 ^ l.size < 56 * (l.seq + 2)) } })

/-- A delivery logged flit by flit: `n` flits of 32 bytes (R280). -/
def logFlits (core src ctx kind : Nat) : Nat → Nat → State → State
  | 0, _, s => s
  | n + 1, data, s => logFlits core src ctx kind n (data / 2 ^ 256) (logEntry core src ctx kind (data % 2 ^ 256) s)

/-- The writes of a context enter its visibility times (R79, R89). -/
def noteWrite (key die vt now : Nat) (s : State) : State :=
  s.modCtx key (fun c =>
    { c with
      vtDie0 := if die = 0 then max c.vtDie0 vt else c.vtDie0
      vtDie1 := if die = 0 then c.vtDie1 else max c.vtDie1 vt
      vtRegion := max c.vtRegion vt
      performed := max c.performed now })

/-- The last-read time of a context rises with the stamp, or the time, of what it read (R81). -/
def noteRead (base vt : Nat) (s : State) : State := s.setWs base offLrs (max (s.ws base offLrs) vt)

/-- An acquire: AFR := max(AFR, LRS) (R81). -/
def acquire (base : Nat) (s : State) : State := s.setWs base offAfr (max (s.ws base offAfr) (s.ws base offLrs))

/-- An acquire of engine results: AFR := max(AFR, the GT of the last advance) (R81). -/
def acquireAt (base gt : Nat) (s : State) : State := s.setWs base offAfr (max (s.ws base offAfr) gt)

/-! ### Races (R90, R91) -/

/-- A live context of a partition by its number (R90). -/
def State.liveCtx (s : State) (key : Nat) : Bool :=
  thas s.ctxs key && (s.ctx key).loc ≠ .none && !(s.ctx key).ended

/-- `Ordered(s, a)` of R90, for a reader with its workspace. -/
def State.ordered (s : State) (me : Me) (st : Stamp) : Bool :=
  let afr := s.ws me.base offAfr
  let key := me.key / 2 ^ 24 * 2 ^ 24 + st.ctx
  if st.ctx = 0 then st.vt ≤ afr
  else if !(s.liveCtx key && (s.ctx key).born ≤ st.vt) then st.vt ≤ afr
  else if key = me.key then true
  else
    match s.baseOf key with
    | none => st.vt ≤ afr
    | some b =>
      let rgn := s.ws b offRgn % 2 ^ 16
      let d := (rgn + 2 ^ 16 - st.region) % 2 ^ 16
      if d = 0 then false
      else if d ≤ 16 then s.ws b (offHist + 8 * (st.region % 16)) ≤ afr
      else s.ws b (offHist + 8 * (rgn % 16)) ≤ afr

/-- The cause of a race: INFO0 is the stamp's VT, INFO1 its low dword (R245). -/
def raceInfo (va acc : Nat) (st : Stamp) : TrapInfo :=
  { cause := .race, addr := va, acc := acc, info0 := st.vt, info1 := st.ctx * 2 ^ 16 + st.region }

end Sys2Proof.Machine
end

