-- ==== Sys2Proof/Machine/Translate.lean ====
section
/-! DEFINITION. Translation (R33, R37 to R46): page walks, TLBs, permissions, and where a physical address may lie. -/

namespace Sys2Proof.Machine

open Sys2Proof

/-- A 57-bit address in a 64-bit register: bits 63 to 57 equal bit 56 (R37). -/
def canonicalVa (va : Nat) : Bool := va / 2 ^ 56 % 2 ^ 8 = 0 || va / 2 ^ 56 % 2 ^ 8 = 255

/-- A 57-bit address as a register holds it: bits 63 to 57 equal to bit 56 (R37). -/
def signVa (va : Nat) : Nat := if va / 2 ^ 56 % 2 = 1 then va % 2 ^ 57 + (2 ^ 64 - 2 ^ 57) else va % 2 ^ 57

/-- The page sizes of R39, as powers of two, and the level of each leaf. -/
def sizeLog : Nat → Nat
  | 0 => 12 | 1 => 14 | 2 => 16 | 3 => 18 | 4 => 21 | 5 => 23 | 6 => 25 | 7 => 27 | 8 => 29 | _ => 30
def sizeLevel (size : Nat) : Nat := if size ≤ 3 then 0 else if size ≤ 8 then 1 else 2

/-- The ASID and the root of a `PTROOT` value (R37). -/
def ptAsid (pt : Word) : Nat := bits pt.toNat 52 12
def ptBase (pt : Word) : Nat := bits pt.toNat 12 40 * 4096

/-- An HBM address of a partition (R32, R33). -/
def State.inPartHbm (s : State) (p lo n : Nat) : Bool :=
  let qs := quartersOf s.qmode p
  decide (p * quarterBytes ≤ lo) && decide (lo + n ≤ (p + qs.length) * quarterBytes)

/-- A page that lies wholly in one of the ranges a leaf may name (R33). -/
def State.pageOk (s : State) (p lo n : Nat) : Bool :=
  s.inPartHbm p lo n ||
  (decide (localBase + p * 96 * 0x100000 ≤ lo) &&
    decide (lo + n ≤ localBase + (p + (quartersOf s.qmode p).length) * 96 * 0x100000)) ||
  (decide (hostBase ≤ lo) && decide (lo + n ≤ peerBase)) ||
  (decide (peerBase ≤ lo) && decide (lo + n ≤ physTop))

/-- The policies a window allows (R41, R42). -/
def State.polOk (s : State) (pa pol : Nat) (chk : Bool) : Bool :=
  match regionOf pa with
  | .hbm _ => decide (pol ≤ 3)
  | .local _ => decide (pol = 1) && !chk
  | .host => (decide (pol = 1) || decide (pol = 4) || (decide (pol = 0) && s.dev.trainedCxl)) && !chk
  | .peer _ => decide (pol = 1) && !chk
  | .nothing => false

/-- A leaf entry read as data (R38). -/
def leafOf (e : Nat) : Leaf :=
  { pa := bits e 12 40 * 4096, logSize := sizeLog (bits e 60 4), pol := bits e 9 3, chk := bit e 8, u := bit e 7
    x := bit e 6, w := bit e 5, rd := bit e 4 }

/-- Whether a leaf entry at a level passes the checks of R40 for a partition. -/
def State.leafOk (s : State) (p level e : Nat) : Bool :=
  let size := bits e 60 4
  let l := leafOf e
  decide (size ≤ 9) && decide (sizeLevel size = level) && decide (l.pa % 2 ^ l.logSize = 0) && (l.rd || !l.w)
    && decide (l.pol ≤ 4) && s.pageOk p l.pa (2 ^ l.logSize) && s.polOk l.pa l.pol l.chk

/-- What a walk ends with. -/
inductive WalkEnd where
  | leaf (l : Leaf)
  | fault (entry addr level : Nat)     -- #PAGE with INFO0, INFO1 and LEVEL (R245)
  | lost (addr : Nat)                  -- #MCHK: an entry in a lost line (R257)
  | held                               -- an entry on the other die whose line is held (R64, R75)
  | snoop (line half : Nat)            -- an entry in a half that the host holds exclusively (R67)
  deriving DecidableEq, Repr

/-- A walk: its end, the entries of levels 4 to 1 that it read or found cached, and the addresses of the entries that
it read at their homes. -/
structure WalkRes where
  fin : WalkEnd
  seen : List (Nat × WalkEntry) := []
  reads : List Nat := []
  deriving DecidableEq, Repr

/-- The entry of a level for an address: from the walk cache, or as one access at its home (R45). -/
def State.tableEntry (s : State) (die asid level va addr : Nat) : Nat :=
  match (s.die die).walks.find? (fun e => e.1 = level && e.2.addr = addr && e.2.asid = asid && e.2.va = va / 2 ^ (12 + 9 * level)) with
  | some e => e.2.entry
  | none => s.curRead addr 8

def State.cached (s : State) (die asid level va addr : Nat) : Bool :=
  (s.die die).walks.any (fun e => e.1 = level && e.2.addr = addr && e.2.asid = asid && e.2.va = va / 2 ^ (12 + 9 * level))

/-- The walk from the table of a level downwards (R37 to R42), with what it has read so far. An entry that ends the
walk in a fault is not kept in the walk cache. DESIGN CHOICE: log 11. -/
def walkFrom (s : State) (p die asid va : Nat) :
    Nat → Nat → List (Nat × WalkEntry) → List Nat → WalkRes
  | level, table, seen, reads =>
    let addr := table + 8 * bits va (12 + 9 * level) 9
    let here := s.cached die asid level va addr
    let stop := fun (w : WalkEnd) => { fin := w, seen := seen, reads := reads : WalkRes }
    if !s.inPartHbm p addr 8 then stop (.fault 0 addr level)
    else if !here && (s.line (addr / 128)).lost then stop (.lost addr)
    else if !here && (s.snoopHalf addr 8 false).isSome then stop (.snoop (addr / 128) (addr % 128 / 64))
    else if !here && s.homeDie addr ≠ die && s.isHeld (addr / 128) then stop .held
    else
      let e := s.tableEntry die asid level va addr
      let reads := if here then reads else addr :: reads
      let kept := if level = 0 then seen
        else (level, { addr := addr, va := va / 2 ^ (12 + 9 * level), logSize := 12 + 9 * level, asid := asid, entry := e }) :: seen
      let fault : WalkRes := { fin := .fault e addr level, seen := seen, reads := reads }
      if !bit e 0 || bits e 52 8 ≠ 0 || bits e 2 2 ≠ 0 then fault
      else if bit e 1 then
        match level with
        | 0 => fault
        | lower + 1 =>
          if bits e 60 4 ≠ 0 || bits e 4 8 ≠ 0 || !s.inPartHbm p (bits e 12 40 * 4096) 4096 then fault
          else walkFrom s p die asid va lower (bits e 12 40 * 4096) kept reads
      else if 3 ≤ level then fault
      else if s.leafOk p level e then { fin := .leaf (leafOf e), seen := kept, reads := reads }
      else fault

/-- A whole walk under a `PTROOT` value. -/
def walk (s : State) (p die : Nat) (pt : Word) (va : Nat) : WalkRes :=
  if !s.inPartHbm p (ptBase pt) 4096 then { fin := .fault 0 (ptBase pt + 8 * bits va 48 9) 4 }
  else walkFrom s p die (ptAsid pt) va 4 (ptBase pt) [] []

/-- The entry of a translation in a TLB (R44). -/
def tlbFind (tlb : List TlbEntry) (asid va : Nat) : Option Leaf :=
  (tlb.find? (fun e => e.asid = asid && e.va = va / 2 ^ e.leaf.logSize * 2 ^ e.leaf.logSize)).map (·.leaf)

/-- The set of an entry in a TLB of some number of sets: its page number modulo the sets. DESIGN CHOICE: log 11. -/
def tlbSet (sets : Nat) (e : TlbEntry) : Nat := e.va / 2 ^ e.leaf.logSize % sets

/-- A TLB without the oldest entry of a set. -/
def dropOldest (sets set : Nat) : List TlbEntry → List TlbEntry
  | [] => []
  | e :: r => if tlbSet sets e = set && !r.any (fun x => tlbSet sets x = set) then r else e :: dropOldest sets set r

/-- A set-associative TLB with an entry added, the oldest entry of its set gone when the set was full (R44).
DESIGN CHOICE: log 11. -/
def tlbAdd (sets ways : Nat) (tlb : List TlbEntry) (e : TlbEntry) : List TlbEntry :=
  let same := tlb.filter (fun x => tlbSet sets x = tlbSet sets e)
  e :: (if same.length < ways then tlb else dropOldest sets (tlbSet sets e) tlb)

/-- The translation that a core's TLB holds (R44). -/
def State.tlbHit (s : State) (core : Nat) (pt : Word) (va : Nat) : Option Leaf :=
  tlbFind (s.core core).tlb (ptAsid pt) (va % 2 ^ 57)

/-- The translation that the TLB of a core's cluster holds (R44). -/
def State.clusterTlb (s : State) (core : Nat) (pt : Word) (va : Nat) : Option Leaf :=
  tlbFind (s.cluster (clusterOf core)).tlb (ptAsid pt) (va % 2 ^ 57)

/-- The entry of a page's translation in a TLB. -/
def tlbEntry (pt : Word) (va : Nat) (l : Leaf) : TlbEntry :=
  { va := va % 2 ^ 57 / 2 ^ l.logSize * 2 ^ l.logSize, asid := ptAsid pt, leaf := l }

/-- A translation entered in the TLB of a core, 32 sets of 8 ways (R44); one that the cluster's TLB answers is entered
as well. DESIGN CHOICE: log 11. -/
def tlbInstall (core : Nat) (pt : Word) (va : Nat) (l : Leaf) (s : State) : State :=
  s.modCore core (fun c => { c with tlb := tlbAdd 32 8 c.tlb (tlbEntry pt va l) })

/-- The physical address a leaf gives. -/
def Leaf.phys (l : Leaf) (va : Nat) : Nat := l.pa + va % 2 ^ l.logSize

/-- What a translation made at once ends with. -/
inductive XlateEnd where
  | ok (l : Leaf)
  | trap (t : TrapInfo)
  | held
  | snoop (line half : Nat)
  deriving DecidableEq, Repr

/-- #PAGE for an address that is not canonical (R37). -/
def nonCanonical (va acc : Nat) : TrapInfo := { cause := .page, addr := va, acc := acc }

/-- Entries that a die's walk cache keeps. DESIGN CHOICE: log 11. -/
def walkCacheSize : Nat := 4096

/-- The latest stamp among the table entries that a walk would read for a core, where the TLB of its cluster does not
answer (R69, R81). -/
def State.walkVt (s : State) (core : Nat) (pt : Word) (va : Nat) : Nat :=
  if !canonicalVa va || (s.clusterTlb core pt va).isSome then 0
  else ((walk s (s.partOf core) (dieOf core) pt (va % 2 ^ 57)).reads.map (fun a => (s.lineValue (a / 128)).2.vt)).foldl max 0

/-- A translation for a core under a `PTROOT` as a walker ends it: from the TLB of the core's cluster, 256 sets of 16
ways, or by a walk, whose leaf enters it (R37 to R45). -/
def walkNow (core : Nat) (pt : Word) (va acc : Nat) (s : State) : XlateEnd × State :=
  if !canonicalVa va then (.trap (nonCanonical va acc), s)
  else
    match s.clusterTlb core pt va with
    | some l => (.ok l, s)
    | none =>
      let die := dieOf core
      let r := walk s (s.partOf core) die pt (va % 2 ^ 57)
      let s := r.reads.foldl (fun s a => readPath (a / 128) (touchFilter (a / 128) s)) s
      let s := s.modDie die (fun d => { d with walks := (r.seen ++ d.walks).take walkCacheSize })
      match r.fin with
      | .leaf l => (.ok l, s.modCluster (clusterOf core) (fun c => { c with tlb := tlbAdd 256 16 c.tlb (tlbEntry pt va l) }))
      | .fault e a lv => (.trap { cause := .page, addr := va, acc := acc, level := lv, info0 := e, info1 := a }, s)
      | .lost a => (.trap (s.mchk va a accWalk), s)
      | .held => (.held, s)
      | .snoop l k => (.snoop l k, sendSnoop l k false s)

/-- What an instruction knows of a translation: what its core's TLB holds, or the end of a walk that it has waited for;
none is a miss (R44). -/
def foundXlate (walked : List Walked) (core : Nat) (pt : Word) (va acc : Nat) (s : State) : Option Found :=
  if !canonicalVa va then some (.trap (nonCanonical va acc))
  else
    match s.tlbHit core pt va with
    | some l => some (.leaf l)
    | none =>
      (walked.find? (fun w => w.core = core && w.pt = pt && w.page = va % 2 ^ 57 / 4096)).map (fun w =>
        match w.fin with
        | .trap t => .trap { t with addr := va }
        | f => f)

/-! ### Page walkers (R44, R45) -/

/-- The kind of access of an operation (R247). -/
def AccOp.acc : AccOp → Nat
  | .write | .stf | .clre => accWrite
  | .amo .. | .cas .. => accAtomic
  | .touch => 0
  | _ => accRead

/-- A miss as a request for a walk. -/
def State.missOf (s : State) (core : Nat) (pt : Word) (va : Nat) : WalkReq :=
  { cluster := clusterOf core, part := s.partOf core, asid := ptAsid pt, vpn := va % 2 ^ 57 / 4096 }

/-- The walk that a context waits for. -/
def State.walkReq (s : State) (key : Nat) : Option WalkReq :=
  match s.waitOf key with
  | some (.walk core pt va _) => some (s.missOf core pt va)
  | _ => none

/-- Misses for one page and ASID share one walk (R45). -/
def WalkReq.same (a b : WalkReq) : Bool := a.part = b.part && a.asid = b.asid && a.vpn = b.vpn

/-- The walks that contexts of a die wait for. -/
def State.walksWanted (s : State) (die : Nat) : List WalkReq :=
  (s.ctxs.filterMap (fun c => s.walkReq c.1)).filter (fun r => r.cluster / 24 = die)

/-- The request that the next free walker takes: the oldest of the next cluster in turn that has one (R45). -/
def nextWalk (turn : Nat) (q : List WalkReq) : Option WalkReq :=
  (List.range 48).findSome? (fun i => q.find? (fun r => r.cluster = (turn + 1 + i) % 48))

/-- Free walkers take requests, round robin among the die's clusters (R45). -/
def fillWalkers : Nat → Die → Die
  | 0, d => d
  | n + 1, d =>
    if 32 ≤ d.walkers.length then d
    else
      match nextWalk d.walkTurn d.walkQ with
      | none => d
      | some r => fillWalkers n { d with walkers := d.walkers ++ [r], walkQ := d.walkQ.erase r, walkTurn := r.cluster }

/-- A walk that a unit asked for in this cycle or the last. -/
def WalkReq.fresh (now : Nat) (r : WalkReq) : Bool :=
  match r.unit with
  | some c => decide (now ≤ c + 1)
  | none => false

/-- The walks that nothing waits for any more leave the walkers and the queues, and free walkers take requests. -/
def pumpWalks (die : Nat) (s : State) : State :=
  let want := s.walksWanted die
  let live := fun (l : List WalkReq) => l.filter (fun r => r.fresh s.cycle || want.any r.same)
  s.modDie die (fun d => fillWalkers 32 { d with walkers := live d.walkers, walkQ := live d.walkQ })

/-- A miss asks for a walk, unless one for its page is under way or asked for (R45). -/
def askFor (r : WalkReq) (s : State) : State :=
  let die := r.cluster / 24
  let d := s.die die
  pumpWalks die (if (d.walkers ++ d.walkQ).any r.same then s else s.setDie die { d with walkQ := d.walkQ ++ [r] })

/-- A context's miss asks for its walk, unless the TLB of its cluster answers it. -/
def askWalk (key : Nat) (s : State) : State :=
  match s.waitOf key with
  | some (.walk core pt va _) =>
    if canonicalVa va && (s.clusterTlb core pt va).isSome then s else askFor (s.missOf core pt va) s
  | _ => s

/-- A walker works on what a context waits for. -/
def State.walking (s : State) (key : Nat) : Bool :=
  match s.walkReq key with
  | none => false
  | some r => (s.die (r.cluster / 24)).walkers.any r.same

/-! ### The misses of engines and other units (R45, R121) -/

/-- A unit's request, asked for anew in this cycle: whether a walker works on it. -/
def askUnit (r : WalkReq) (s : State) : Bool × State :=
  let die := r.cluster / 24
  let again := fun (x : WalkReq) => if r.same x && x.unit.isSome then { x with unit := some s.cycle } else x
  let s := s.modDie die (fun d => { d with walkers := d.walkers.map again, walkQ := d.walkQ.map again })
  let s := askFor { r with unit := some s.cycle } s
  ((s.die die).walkers.any r.same, s)

/-- A unit's request is answered, and its walker is free. -/
def endUnit (r : WalkReq) (s : State) : State :=
  let die := r.cluster / 24
  pumpWalks die (s.modDie die (fun d => { d with walkers := d.walkers.filter (fun x => !(r.same x && x.unit.isSome)) }))

/-- A translation that a unit of a cluster makes, which waits in no slot: through the cluster's TLB, or by a walk, which
it asks for each cycle until a walker has made it (R45). A command processor asks through the first cluster of its
partition. DESIGN CHOICE: log 11. -/
def unitXlate (core : Nat) (pt : Word) (va acc : Nat) (s : State) : XlateEnd × State :=
  if !canonicalVa va then (.trap (nonCanonical va acc), s)
  else
    match s.clusterTlb core pt va with
    | some l => (.ok l, s)
    | none =>
      match askUnit (s.missOf core pt va) s with
      | (false, s) => (.held, s)
      | (true, s) =>
        match walkNow core pt va acc s with
        | (.held, s) => (.held, s)
        | (.snoop l k, s) => (.snoop l k, s)
        | (fin, s) => (fin, endUnit (s.missOf core pt va) s)

/-- The permissions a kind of access needs (R40). -/
structure Need where
  rd : Bool := false
  w : Bool := false
  x : Bool := false
  deriving DecidableEq, Repr

/-- Whether a leaf permits an access at a privilege (R40). -/
def Leaf.permits (l : Leaf) (need : Need) (priv : Bool) : Bool :=
  (l.u || priv) && (l.rd || !need.rd) && (l.w || !need.w) && (l.x || !need.x)

/-- A unit's translation with its permission check; the cause carries the address (R40). -/
def xlateChecked (core : Nat) (pt : Word) (priv : Bool) (va acc : Nat) (need : Need) (s : State) : XlateEnd × State :=
  match unitXlate core pt va acc s with
  | (.ok l, s) => if l.permits need priv then (.ok l, s) else (.trap { cause := .prot, addr := va, acc := acc }, s)
  | r => r

/-- The `PTROOT` of a context. -/
def State.ptroot (s : State) (base : Nat) : Word := BitVec.ofNat 64 (s.ws base offPtroot)

/-! ### Local memory (R94, R95, R100, R101) -/

/-- The general region of a core: offsets `lo` up to `hi` (R100). -/
def State.general (s : State) (core : Nat) : Nat × Nat :=
  let f := (s.core core).frames * 4096
  if core % 8 % 2 = 0 then (f, 0x100000) else (0, 0x100000 - f)

/-- `n` bytes at a local offset lie in the general region of a core. -/
def State.inGeneral (s : State) (core off n : Nat) : Bool :=
  decide ((s.general core).1 ≤ off) && decide (off + n ≤ (s.general core).2)

/-- A cluster local range lies in general regions: in one core's, or in the joined regions of a core pair (R100). -/
def State.clusterGeneral (s : State) (cluster la n : Nat) : Bool :=
  if n = 0 then true
  else if 2 ^ 23 < la + n then false
  else
    let first := la / 0x100000
    let last := (la + n - 1) / 0x100000
    if first = last then s.inGeneral (cluster * 8 + first) (la % 0x100000) n
    else decide (last = first + 1) && decide (first % 2 = 0) &&
      s.inGeneral (cluster * 8 + first) (la % 0x100000) (0x100000 - la % 0x100000) &&
      s.inGeneral (cluster * 8 + last) 0 (la + n - last * 0x100000)

/-- The valid window of a core that holds a local offset. -/
def State.windowAt (s : State) (core off : Nat) : Option Nat :=
  (List.range 8).find? (fun w =>
    let x := s.win core w
    x.v && decide (x.lbase * 4096 ≤ off) && decide (off < x.lbase * 4096 + 4096 * 2 ^ x.size))

/-- A range that meets a valid window of a core. -/
def State.meetsWindow (s : State) (core off n : Nat) : Bool :=
  (List.range 8).any (fun w =>
    let x := s.win core w
    x.v && decide (x.lbase * 4096 < off + n) && decide (off < x.lbase * 4096 + 4096 * 2 ^ x.size))

/-- A range that meets the enabled ready ring of a core. -/
def State.meetsRing (s : State) (core off n : Nat) : Bool :=
  let c := s.core core
  c.rrEn && decide (c.rrBase * 4096 < off + n) && decide (off < c.rrBase * 4096 + 4096 * 2 ^ c.rrSize)

/-- A lost line within a range of local memory (R256). -/
def State.lostIn (s : State) (pa n : Nat) : Option Nat :=
  if n = 0 then none
  else s.lostLocal.find? (fun l => decide (pa / 128 ≤ l) && decide (l ≤ (pa + n - 1) / 128))

/-- The first lost line of a cluster local range, as the cause of R257. -/
def State.clusterLost (s : State) (cluster la n addr acc : Nat) : Option TrapInfo :=
  let here := min n (0x100000 - la % 0x100000)
  match s.lostIn (clusterPa cluster la) here with
  | some l => some (s.mchk addr (l * 128) acc)
  | none =>
    match (if here < n then s.lostIn (clusterPa cluster (la + here)) (n - here) else none) with
    | some l => some (s.mchk addr (l * 128) acc)
    | none => none

/-- `n` bytes of a cluster local range. -/
def State.clusterRd (s : State) (cluster la n : Nat) : Nat :=
  let here := min n (0x100000 - la % 0x100000)
  s.rd (clusterPa cluster la) here + s.rd (clusterPa cluster (la + here)) (n - here) * 2 ^ (8 * here)

end Sys2Proof.Machine
end

