-- ==== Sys2Proof/Machine/Access.lean ====
section
/-! DEFINITION. Where an access performs and how (R30, R41, R49 to R68, R71 to R76, R94 to R108, R314): routes, the
tokens, leases and snoops it needs first, its checks, and its effect. -/

namespace Sys2Proof.Machine

open Sys2Proof

/-! ### Requests and evictions of a holder (R51, R53, R55) -/

/-- A line's copy written back whole: all its tokens go to the home, and the line is evicting until this write-back is
acknowledged (R55). A request that is outstanding stays so. It answers the write-back's message. -/
def evict (h l : Nat) (flush : Bool) (s : State) : Option Nat × State :=
  let c := s.copy h l
  let s := windowSpill h c s
  if c.tokens = 0 then
    (none, if c.miss.isSome || c.evicting.isSome then s.setCopy h l c.emptied else s.delCopy h l)
  else
    let wb := s.nextId
    let s := s.send (.writeBack h l c.tokens c.owner c.dirty (c.data.map (·.toNat)) c.stamp flush)
    (some wb, s.setCopy h l { evicting := some wb, miss := c.miss })

/-- A holder's persistent registration for a line ends, and with it the activation (R54). -/
def deactivate (h l : Nat) (s : State) : State :=
  let b := s.bank (s.lineBank l)
  if !(b.persist ++ b.waiting).any (fun p => p.line = l && p.holder = h) && (s.line l).active ≠ some h then s
  else
    let s := s.modBank (s.lineBank l) (fun b =>
      { b with persist := b.persist.filter (fun p => !(p.line = l && p.holder = h))
               waiting := b.waiting.filter (fun p => !(p.line = l && p.holder = h)) })
    s.modLine l (fun x => { x with active := if x.active = some h then none else x.active })

/-- A frame for a line in a holder: an L1 that is full evicts a line of free choice (R58; assumption log 11).
DESIGN CHOICE: log 9. -/
def makeRoom (h l : Nat) (s : State) : State :=
  if isWin h ∨ h = bridge ∨ usesFrame (s.copy h l) then s
  else if ((tget s.copies h).filter (fun e => usesFrame e.2)).length < Config.l1Lines then s
  else
    match (tget s.copies h).filter (fun e => evictable e.2) with
    | [] => s
    | v :: vs =>
      match s.chooseAt h (vs.length + 1) with
      | (k, s) => (evict h ((v :: vs).getD k v).1 false s).2

/-- A registration of a holder for a line becomes that of a write (R53, R54). -/
def upgradeReg (h l : Nat) (s : State) : State :=
  let up := fun (p : PersistReq) => if p.line = l && p.holder = h then { p with write := true } else p
  s.modBank (s.lineBank l) (fun b => { b with persist := b.persist.map up, waiting := b.waiting.map up })

/-- Whether a holder has a registration for a line, in the table or waiting for an entry (R53). -/
def State.registered (s : State) (h l : Nat) : Bool :=
  let b := s.bank (s.lineBank l)
  (b.persist ++ b.waiting).any (fun p => p.line = l && p.holder = h)

/-- A holder asks for a line: a read or a write request to the home, unless one that serves is outstanding. A read that
becomes a write keeps its registration, which is then the write's; one that has none is a request sent anew (R51, R53).
DESIGN CHOICE: log 23. -/
def requestLine (h l : Nat) (write : Bool) (s : State) : State :=
  let s := makeRoom h l s
  let c := s.copy h l
  let m : Miss := { write := write, sent := s.cycle }
  let ask := fun (s : State) => if write then s.send (.writeReq h l) else s.send (.readReq h l)
  match c.miss with
  | some old =>
    if write && !old.write then
      if s.registered h l then ask (upgradeReg h l (s.setCopy h l { c with miss := some { old with write := true } }))
      else ask (s.setCopy h l { c with miss := some m })
    else s
  | none => ask (s.setCopy h l { c with miss := some m })

/-- A leased copy of a line asked for at its home, with the requester's lease length (R61, R62). DEDUCED: log 23. -/
def requestLease (h l : Nat) (s : State) : State :=
  let s := makeRoom h l s
  let c := s.copy h l
  if c.miss.isSome then s
  else (s.setCopy h l { c with miss := some { sent := s.cycle } }).send
    (.leaseReq h l (s.die (holderDie h)).lease)

/-- A leased copy that still serves reads (R61). -/
def State.leaseLive (s : State) (h : Nat) (c : Copy) : Bool :=
  match c.lease with
  | some le => decide (s.gt (holderDie h) < le) && c.data.isSome
  | none => false

/-! ### The home's own access (R51, R67) -/

/-- The home recalls the owner token, so that it holds valid data (R67). DEDUCED: log 23. -/
def recallOwner (l : Nat) (s : State) : State :=
  if (s.line l).owner then s
  else
    match (s.holders l).find? (fun h => (s.copy h l).owner && (s.copy h l).data.isSome) with
    | none => gatherHome l s
    | some h =>
      let c := s.copy h l
      let s := if c.tokens ≤ 1 then clearCopy h l s
        else s.setCopy h l { c with tokens := c.tokens - 1, owner := false, dirty := false }
      let s := s.wr (l * 128) 128 ((c.data.getD 0).toNat)
      (voidNotices l s).modLine l (fun x => { x with tokens := x.tokens + 1, owner := true, ownerRec := none, stamp := c.stamp
                                                     dirty := x.dirty || c.dirty })

/-- A read performed at the home: the value and its stamp (R61, R74, R76). DEDUCED: log 23. -/
def homeRead (pa n : Nat) (s : State) : Nat × Stamp × State :=
  let l := pa / 128
  let s := recallOwner l (readPath l (touchL2 l (touchFilter l s)))
  (s.rd pa n, (s.line l).stamp, homeYield l s)

/-! ### Routes -/

def AccOp.writes : AccOp → Bool
  | .write | .amo .. | .cas .. | .stf => true
  | _ => false
def AccOp.atomic : AccOp → Bool
  | .amo .. | .cas .. => true
  | _ => false
def AccOp.isFe : AccOp → Bool
  | .ldf | .ldt | .stf | .clre => true
  | _ => false
def AccOp.need : AccOp → Need
  | .write | .stf | .clre => { w := true }
  | .amo .. | .cas .. | .ldt => { rd := true, w := true }
  | .touch => {}
  | _ => { rd := true }
/-- A cacheable policy (R41): write-back and stash. -/
def cacheablePol (pol : Nat) : Bool := pol = 0 || pol = 3

/-- The route of an access to HBM or to a host line cached under CXL.cache (R41, R61, R66, R68). DEDUCED: log 24. -/
def hbmTarget (die holder : Nat) (op : AccOp) (pa : Nat) (leaf : Leaf) (s : State) : Target :=
  let l := pa / 128
  let home := s.lineDie l
  let t : Target := { kind := .home, pa := pa, holder := holder, leaf := leaf }
  if home = die then
    if cacheablePol leaf.pol && !(op.writes && (s.line l).inFilter) then { t with kind := .token } else t
  else if op.writes then { t with kind := .remote }
  else if cacheablePol leaf.pol && (s.die die).tripped.isNone && regionOf pa ≠ .host then { t with kind := .lease }
  else t

/-- What the resolution of an element ends with. -/
inductive Resolved where
  | skip                     -- an element without a translation, whose walk ended in `#MCHK` or `#TIMEOUT`
  | ok (t : Target)
  | trap (t : TrapInfo)
  | wait (b : Block)
  deriving DecidableEq, Repr

/-- The kept translation of a window line, or none when the line is in state I (R107). -/
def State.windowKept (s : State) (g w idx : Nat) : Option (Nat × Leaf) :=
  let x := s.win g w
  if thas x.lines idx then
    let k := tget x.lines idx
    let c := s.copy (winHolder g w idx) k.1
    if 0 < c.tokens ∨ s.leaseLive (winHolder g w idx) c ∨ c.miss.isSome then some k else none
  else none

/-- The translation of a window line (R107): one that a slot's instruction waits for leaves its cause in the instruction;
a unit asks for its walk again each cycle (R45). -/
def seekXlate (me : Me) (walked : List Walked) (g : Nat) (pt : Word) (va acc : Nat) (s : State) :
    (Found ⊕ Block) × State :=
  if me.key ≠ 0 then
    match foundXlate walked g pt va acc s with
    | some f => (.inl f, s)
    | none => (.inr (.walk g pt va acc), s)
  else
    match s.tlbHit g pt va with
    | some l => (.inl (.leaf l), s)
    | none =>
      match unitXlate g pt va acc s with
      | (.ok l, s) => (.inl (.leaf l), tlbInstall g pt va l s)
      | (.trap t, s) => (.inl (.trap t), s)
      | (_, s) => (.inr .recheck, s)

/-- An access to a byte of a window's local range, as an access to the HBM line (R107, R329). DEDUCED: log 22. -/
def windowTarget (me : Me) (walked : List Walked) (g w off : Nat) (op : AccOp) (va : Nat) (s : State) : Resolved × State :=
  let x := s.win g w
  let wva := signVa (x.vpn * 4096 + (off - x.lbase * 4096))
  let rel := off - x.lbase * 4096
  let idx := rel / 128
  let h := winHolder g w idx
  let far := g ≠ me.core
  let deny := Resolved.trap { cause := .prot, addr := va, acc := op.acc }
  let go := fun (line : Nat) (leaf : Leaf) (s : State) =>
    if !leaf.permits op.need x.priv then (deny, s)
    else
      (.ok { (hbmTarget (dieOf g) h op (line * 128 + rel % 128) leaf s) with far := far, win := some (g, w, idx) }, s)
  if x.unmapping then (.wait (.unmap g w), s)
  else
    match s.windowKept g w idx with
    | some k => go k.1 k.2 s
    | none =>
      match seekXlate me walked g x.ptroot wva op.acc s with
      | (.inl (.leaf l), s) =>
        match regionOf (l.phys wva) with
        | .hbm _ => go (l.phys wva / 128) l s
        | _ => (deny, s)
      | (.inl (.trap t), s) => (.trap { t with addr := va }, s)
      | (.inr b, s) => (.wait b, s)

/-- The links of a partition's mask for a peer (R263), ascending. -/
def State.peerLinks (s : State) (p m : Nat) : List Nat := setBitsOf 18 ((s.part p).peers.getD m 0)

/-- The link by which an access to a peer leaves (R263): by the line's address among the set links. -/
def State.leavingLink (s : State) (p m pa : Nat) : Option Nat :=
  let links := s.peerLinks p m
  links[pa / 128 % links.length]?

/-- A peer that an access may reach (R263): its mask names some link, and only links of the partition's own quarters. -/
def State.peerOk (s : State) (p m : Nat) : Bool :=
  let links := (quartersOf s.qmode p).flatMap linksOf
  !(s.peerLinks p m).isEmpty && (s.peerLinks p m).all (fun k => links.contains k)
where
  /-- The links of a quarter. -/
  linksOf (q : Nat) : List Nat := (List.range 18).filter (fun k => linkQuarter k = q)
  linkQuarter (k : Nat) : Nat := if k % 9 < 5 then 2 * (k / 9) else 2 * (k / 9) + 1

/-- The target of a translated element, with the slot's own permission checks (R40, R95, R104, R263, R325). -/
def resolve (me : Me) (walked : List Walked) (op : AccOp) (e : Elem) (s : State) : Resolved × State :=
  let deny := Resolved.trap { cause := .prot, addr := e.va, acc := op.acc }
  if !e.leaf.permits op.need (s.pl me.base) then (deny, s)
  else
    match regionOf e.pa with
    | .local g =>
      let off := e.pa % 0x100000
      if clusterOf g ≠ clusterOf me.core then (deny, s)
      else
        match s.windowAt g off with
        | some w => if op.isFe then (deny, s) else windowTarget me walked g w off op e.va s
        | none =>
          if op.isFe && !s.inGeneral g off 8 then (deny, s)
          else (.ok { kind := .plain, pa := e.pa, leaf := e.leaf, far := g ≠ me.core }, s)
    | .hbm _ => if op.isFe then (deny, s) else (.ok (hbmTarget (dieOf me.core) me.core op e.pa e.leaf s), s)
    | .host =>
      if op.isFe || op.atomic then (deny, s)
      else if e.leaf.pol = 0 then (.ok (hbmTarget (dieOf me.core) me.core op e.pa e.leaf s), s)
      else (.ok { kind := .outside, pa := e.pa, leaf := e.leaf }, s)
    | .peer m =>
      if op.isFe || op.atomic || !s.peerOk (s.partOf me.core) m then (deny, s)
      else (.ok { kind := .outside, pa := e.pa, leaf := e.leaf, link := s.leavingLink (s.partOf me.core) m e.pa }, s)
    | .nothing => (deny, s)

/-! ### What an access needs before it performs -/

/-- The snoop that an element waits for, if any half that it touches must be snooped (R67). -/
def snoopFirst (me : Me) (op : AccOp) (e : Elem) (t : Target) (s : State) : Option Block × State :=
  let l := t.pa / 128
  match t.kind, regionOf t.pa with
  | .plain, _ | .outside, _ => (none, s)
  | _, .hbm _ =>
    match s.snoopHalf t.pa e.size op.writes with
    | some k => (some (.snoop l k (s.gtOf me.core)), sendSnoop l k op.writes s)
    | none => (none, s)
  | _, _ => (none, s)

/-- What an element still waits for, or none when it can perform (R50, R61, R67). DEDUCED: log 24. -/
def obtain (me : Me) (op : AccOp) (e : Elem) (t : Target) (s : State) : Option Block × State :=
  let l := t.pa / 128
  match snoopFirst me op e t s with
  | (some b, s) => (some b, s)
  | (none, s) =>
    let c := s.copy t.holder l
    match t.kind with
    | .lease =>
      if s.leaseLive t.holder c then (none, s)
      else (some (.line t.holder l), keepWindow t l (requestLease t.holder l s))
    | .token =>
      if c.data.isSome && (if op.writes then decide (c.tokens = 512) else decide (1 ≤ c.tokens)) then (none, s)
      else (some (.line t.holder l), keepWindow t l (requestLine t.holder l op.writes s))
    | _ => (none, s)
where
  /-- The physical line and the leaf that a window line keeps from its fill (R107). -/
  keepWindow (t : Target) (l : Nat) (s : State) : State :=
    match t.win with
    | none => s
    | some (g, w, idx) => s.setWin g w { s.win g w with lines := tset (s.win g w).lines idx (l, t.leaf) }

/-- A lost line at a target (R256). -/
def State.targetLost (s : State) (t : Target) (n : Nat) : Bool :=
  match regionOf t.pa with
  | .local _ => (s.lostIn t.pa n).isSome
  | .hbm _ => (s.line (t.pa / 128)).lost || (s.line ((t.pa + n - 1) / 128)).lost
  | _ => false

/-- The stamp of the data that an access would meet (R81, R88). -/
def State.targetStamp (s : State) (t : Target) : Stamp :=
  let c := s.copy t.holder (t.pa / 128)
  if t.kind = .lease && s.leaseLive t.holder c then c.stamp else (s.lineValue (t.pa / 128)).2

/-- An element's target as its checks placed it, where its window has changed since and would fault: the access still
performs, on the line that it was checked for, at the home. DEDUCED: log 56. -/
def keptTarget (me : Me) (op : AccOp) (t : Target) (s : State) : Target :=
  match t.kind with
  | .plain | .outside => t
  | _ => { t with win := none, kind := if op.writes && s.lineDie (t.pa / 128) ≠ dieOf me.core then .remote else .home }

/-- The target of an element in the course of its instruction: none for one whose walk ended in a cause that comes
later; and once its faults are behind it, no fault. -/
def Cont.place (me : Me) (c : Cont) (e : Elem) (s : State) : Resolved × State :=
  if e.late.isSome then (.skip, s)
  else
    match resolve me c.walked c.op e s, e.tgt with
    | (.trap t, s'), some k => if c.bound || c.committed then (.ok (keptTarget me c.op k s'), s') else (.trap t, s')
    | r, _ => r

/-- The checks of an element that come after its waiting: #BLOCK, #MCHK, #RACE (R104, R257, R91, R318). -/
def elemCheck (me : Me) (op : AccOp) (e : Elem) (t : Target) (s : State) : Option TrapInfo :=
  if (op = .ldf ∨ op = .ldt) ∧ s.kindOf me.base = 1 ∧ !s.isFull t.pa then
    some { cause := .block, addr := e.va, acc := op.acc }
  else if s.targetLost t e.size then some (s.mchk e.va t.pa op.acc)
  else if t.leaf.chk && (op = .read || op = .write) && !s.ordered me (s.targetStamp t) then
    some (raceInfo e.va op.acc (s.targetStamp t))
  else none

/-! ### Effects -/

/-- The new value of an atomic and its flags (R325). -/
def amoNew (op : AmoOp) (t : Ty) (v o : Nat) : Nat × Nat :=
  let n := t.bits
  let v := v % 2 ^ n
  match op with
  | .add => ((o + v) % 2 ^ n, 0)
  | .and => (o &&& v, 0)
  | .or => (o ||| v, 0)
  | .xor => (o ^^^ v, 0)
  | .min => (if toSigned n v < toSigned n o then v else o, 0)
  | .max => (if toSigned n o < toSigned n v then v else o, 0)
  | .minn => (if v < o then v else o, 0)
  | .maxn => (if o < v then v else o, 0)
  | .xchg => (v, 0)
  | .fadd => fpAdd (fmtOf t) .rne o v
  | .famax => fpMinMax (fmtOf t) true o (v % 2 ^ (n - 1))

/-- What an element writes, given the old value: none for an access that writes nothing (R325, R326). -/
def AccOp.newValue (op : AccOp) (size data old : Nat) : Option Nat :=
  match op with
  | .write | .stf => some (data % 2 ^ (8 * size))
  | .amo o t v => some (amoNew o t v.toNat old).1
  | .cas t cmp new => if old = cmp.toNat % 2 ^ t.bits then some (new.toNat % 2 ^ t.bits) else none
  | _ => none

/-- The writer's stamp fields: its number and its region (R88). -/
def State.writerOf (s : State) (me : Me) : Nat × Nat := (s.numOf me.base, s.ws me.base offRgn % 2 ^ 16)

/-- A write into a copy that holds all 512 tokens (R50): the bytes are merged and the line takes the stamp. -/
def copyWrite (h pa n v ctx region : Nat) (s : State) : Nat × State :=
  let l := pa / 128
  let c := s.copy h l
  let vt := s.writeVt l
  let d := spliceBytes ((c.data.getD 0).toNat) (pa % 128) n v
  let s := s.setCopy h l { c with data := some (BitVec.ofNat 1024 d), dirty := true, untouched := false
                                  stamp := { vt := vt, ctx := ctx, region := region } }
  (vt, holdLine l vt s)

/-- The bytes of a copy. -/
def copyBytes (c : Copy) (pa n : Nat) : Nat := (c.data.getD 0).toNat / 2 ^ (8 * (pa % 128)) % 2 ^ (8 * n)

/-- An element performs at a location that is no HBM line: local memory, the host or the peer window (R97, R76). -/
def performPlain (me : Me) (op : AccOp) (size data pa : Nat) (s : State) : Nat × State :=
  let now := s.gtOf me.core
  let old := s.rd pa size
  let s := match op.newValue size data old with
    | some v => noteDone me now (s.wr pa size v)
    | none => s
  let s := match op with
    | .stf => s.setFull pa
    | .clre | .ldt => s.setEmpty pa
    | _ => s
  let s := if op.need.rd then noteRead me.base now s else s
  (old, s)
where
  noteDone (me : Me) (now : Nat) (s : State) : State :=
    s.modCtx me.key (fun c => { c with performed := max c.performed now })

/-- An element performs in a copy, or at the home of its line, in one action (R50, R63, R71, R72). -/
def performLine (me : Me) (op : AccOp) (size data : Nat) (t : Target) (s : State) : Nat × State :=
  let l := t.pa / 128
  let now := s.gt (s.lineDie l)
  let w := s.writerOf me
  let stamped := fun (vt : Nat) (s : State) => noteWrite me.key (s.lineDie l) vt now s
  let seen := fun (st : Stamp) => match regionOf t.pa with | .host => s.gtOf me.core | _ => st.vt
  match t.kind with
  | .token =>
    let s := touchFilter l s
    let c := s.copy t.holder l
    let old := copyBytes c t.pa size
    let s := if op.need.rd then noteRead me.base (seen c.stamp) s else s
    match op.newValue size data old with
    | some v =>
      match copyWrite t.holder t.pa size v w.1 w.2 s with
      | (vt, s) => (old, stamped vt s)
    | none => (old, s.setCopy t.holder l { c with untouched := false })
  | .lease =>
    let s := touchFilter l s
    let c := s.copy t.holder l
    (copyBytes c t.pa size, noteRead me.base c.stamp.vt s)
  | _ =>
    match homeRead t.pa size s with
    | (old, st, s) =>
      let s := if op.need.rd then noteRead me.base (seen st) s else s
      match op.newValue size data old with
      | some v =>
        match homeWriteFor (dieOf me.core) t.pa size v w.1 w.2 s with
        | (vt, s) => (old, stamped vt s)
      | none => (old, s)

/-! ### Full/empty words and their waiters (R103) -/

/-- The leaf steps that end a full/empty wait: an acquire, the write of a register, and the PC. -/
def finishWait (me : Me) (v : Nat) : List Micro → State → State
  | [], s => s
  | m :: r, s =>
    match m with
    | .acquire => finishWait me v r (acquire me.base s)
    | .finish (.loadW d t) => finishWait me v r (s.setW me.base d (extendLoad t v))
    | .adv len => finishWait me v r (s.advPc me.base len)
    | _ => finishWait me v r s

/-- The waiters on a full/empty word, in order of registration. -/
def State.feWaiters (s : State) (pa : Nat) : List (Nat × Bool × Nat) :=
  let ws := s.ctxs.filterMap (fun c =>
    match c.2.wait with
    | some { block := .fe d take order, .. } => if d = pa / 8 then some (order, take, c.1) else none
    | _ => none)
  ws.foldl (fun acc w => insertBy w acc) []
where
  insertBy (w : Nat × Bool × Nat) : List (Nat × Bool × Nat) → List (Nat × Bool × Nat)
    | [] => [w]
    | x :: r => if w.1 < x.1 then w :: x :: r else x :: insertBy w r

/-- One waiter receives the word (R103, R318), its wake logged (R279). -/
def serveOne (pa key : Nat) (take : Bool) (s : State) : State :=
  match s.meOf key, (s.ctx key).wait with
  | some me, some w =>
    let v := s.rd (pa / 8 * 8) 8
    let s := if take then s.setEmpty pa else s
    let src := match regionOf pa with | .local g => g | _ => 0
    let s := logFlits me.core src (key % 2 ^ 24) 5 1 v s
    finishWait me v w.cont.prog ((noteRead me.base (s.gtOf me.core) s).clearWait key)
  | _, _ => s

def serveList (pa : Nat) : List (Nat × Bool × Nat) → State → State
  | [], s => s
  | (_, take, key) :: r, s =>
    let s := serveOne pa key take s
    if take then s else serveList pa r s

/-- A word made full serves its waiters: each `ldf` in order, up to and with the first `ldt` (R103). -/
def serveWaiters (pa : Nat) (s : State) : State := serveList pa (s.feWaiters pa) s

/-- A full/empty word filled by the hardware: written, made full, its waiters served (R102, R103). The log names the
wakes, or, where nothing waits, the write (R279). DESIGN CHOICE: log 15. -/
def fillWord (pa v src : Nat) (s : State) : State :=
  let s := match regionOf pa, s.feWaiters pa with
    | .local g, [] => logFlits g src 0 6 1 v s
    | _, _ => s
  serveWaiters pa ((s.wr pa 8 v).setFull pa)

/-! ### Releases (R78, R79, R89) -/

/-- The region in progress closes, its closing time entered in the history (R89). -/
def closeRegion (me : Me) (now : Nat) (s : State) : State :=
  let rgn := s.ws me.base offRgn % 2 ^ 16
  let t := max now (s.ctx me.key).vtRegion
  let s := s.setWs me.base (offHist + 8 * (rgn % 16)) t
  let s := s.setWs me.base offRgn ((rgn + 1) % 2 ^ 16)
  s.modCtx me.key (fun c => { c with vtRegion := 0 })

/-- `PUSHST.PEND` of a context. -/
def State.pend (s : State) (base : Nat) : Nat := bits (s.ws base offPushst) 24 8

/-- The timestamp of a release issued at `issued` (R79). DEDUCED: log 20. -/
def State.releaseTs (s : State) (me : Me) (sc : Scope) (issued : Nat) : Nat :=
  let c := s.ctx me.key
  let other := if dieOf me.core = 0 then c.vtDie1 else c.vtDie0
  let own := if dieOf me.core = 0 then c.vtDie0 else c.vtDie1
  match sc with
  | .slot => issued
  | .core | .clu | .die => max issued (max other c.performed)
  | .dev | .sys => max issued (max (max other own) c.performed)

end Sys2Proof.Machine
end

