-- ==== Sys2Proof/Machine/Engine.lean ====
section
/-! DEFINITION. Local memory as the Eland unit and the engines reach it (R94, R107, R181, R257): a range of cluster
local addresses, whose bytes in a valid stash window are bytes of the HBM lines that the window aliases. -/

namespace Sys2Proof.Machine

open Sys2Proof

/-- What an engine's access to local memory ends with. -/
inductive Local (α : Type) where
  | got (v : α)
  | trap (t : TrapInfo)
  | later (b : Block)        -- it waits: what a slot waits for; a unit tries again in the next cycle
  deriving Repr

/-- A core's window as an engine, or the Eland unit, reaches it: no context. -/
def engineMe (core : Nat) : Me := { core := core, slot := core * 16, base := 0, key := 0 }

/-- Who reaches local memory: a slot with the walks that its instruction has waited for, or a unit of the cluster. -/
structure Asker where
  me : Me
  walked : List Walked := []
  deriving Repr

/-- The unit of a cluster that reaches the local memory of one of its cores. -/
def unitOf (core : Nat) : Asker := { me := engineMe core }

/-- A slot waits for what it is told; a unit tries again. -/
def Asker.wait (a : Asker) (b : Block) : Block := if a.me.key = 0 then .recheck else b

/-- Where bytes of local memory inside one line are read or written (R107): in local memory, or in the window line that
aliases them, once it holds what the access needs. DEDUCED: log 31. -/
def aliasOf (a : Asker) (core off n : Nat) (op : AccOp) (s : State) : Local Target × State :=
  match s.windowAt core off with
  | none => (.got { kind := .plain, pa := localPa core off }, s)
  | some w =>
    match windowTarget a.me a.walked core w off op 0 s with
    | (.ok t, s) =>
      match obtain { a.me with core := core } op { size := n } t s with
      | (some b, s) => (.later (a.wait b), s)
      | (none, s) =>
        if t.kind = .home && s.lineDie (t.pa / 128) ≠ dieOf core && s.isHeld (t.pa / 128) then (.later .recheck, s)
        else (.got t, s)
    | (.trap t, s) => (.trap t, s)
    | (.wait b, s) => (.later (a.wait b), s)
    | (.skip, s) => (.later .recheck, s)

/-- The physical address whose bytes a fetch reads from local memory (R107, R323): its own, or the aliased HBM byte. -/
def aliasPa (me : Me) (walked : List Walked) (core off : Nat) (s : State) : Resolved × State :=
  match s.windowAt core off with
  | none => (.ok { kind := .plain, pa := localPa core off }, s)
  | some w => windowTarget me walked core w off .read 0 s

/-- The pieces of a range of cluster local addresses, one to a line: core, offset and length. -/
def pieces (cluster : Nat) : Nat → Nat → Nat → List (Nat × Nat × Nat)
  | 0, _, _ => []
  | fuel + 1, la, n =>
    if n = 0 then []
    else
      let k := min n (128 - la % 128)
      (cluster * 8 + la / 0x100000 % 8, la % 0x100000, k) :: pieces cluster fuel (la + k) (n - k)

/-- The first cause of a lost line among physical ranges. -/
def State.lostAt (s : State) (pa n acc : Nat) : Option TrapInfo :=
  match regionOf pa with
  | .local _ => (s.lostIn pa n).map (fun l => s.mchk 0 (l * 128) acc)
  | .hbm _ => if (s.line (pa / 128)).lost then some (s.mchk 0 pa acc) else none
  | _ => none

/-- The pieces of a range with where each is read or written. -/
def aliasAll (a : Asker) (op : AccOp) : List (Nat × Nat × Nat) → State → Local (List (Target × Nat)) × State
  | [], s => (.got [], s)
  | (g, off, n) :: r, s =>
    match aliasOf a g off n op s with
    | (.got t, s) =>
      match aliasAll a op r s with
      | (.got l, s) => (.got ((t, n) :: l), s)
      | x => x
    | (.trap t, s) => (.trap t, s)
    | (.later b, s) => (.later b, s)

/-- Whether a range of cluster local addresses meets a valid window. -/
def State.clusterWindow (s : State) (cluster la n : Nat) : Bool :=
  (pieces cluster (n / 128 + 2) la n).any (fun p => s.meetsWindow p.1 p.2.1 p.2.2)

/-- The bytes at a place: of the window line's copy, or by a read at the home (R50, R121). -/
def readSpot (t : Target) (n : Nat) (s : State) : Nat × State :=
  let l := t.pa / 128
  match t.kind with
  | .token | .lease => (copyBytes (s.copy t.holder l) t.pa n, touchFilter l s)
  | .plain => (s.rd t.pa n, s)
  | _ =>
    match regionOf t.pa with
    | .hbm _ =>
      match homeRead t.pa n s with
      | (v, _, s) => (v, s)
    | _ => (s.curRead t.pa n, s)

/-- The bytes of places in turn, the first lowest. DEDUCED: log 31. -/
def readAll : List (Target × Nat) → State → Nat × State
  | [], s => (0, s)
  | (t, n) :: r, s =>
    match readSpot t n s with
    | (v, s) =>
      match readAll r s with
      | (w, s) => (v + 2 ^ (8 * n) * w, s)

/-- Bytes stored at a place for a writer's stamp, by an engine of a die; answers the visibility time. -/
def writeSpot (die ctx region : Nat) (t : Target) (n v : Nat) (s : State) : Nat × State :=
  let l := t.pa / 128
  match t.kind with
  | .token =>
    match copyWrite t.holder t.pa n v ctx region (touchFilter l s) with
    | (vt, s) => (vt, deactivate t.holder l s)
  | .plain => (0, s.store t.pa n v)
  | _ =>
    match regionOf t.pa with
    | .hbm _ => homeWriteFor die t.pa n v ctx region s
    | _ => (0, s.store t.pa n v)

/-- The latest visibility times of writes, to lines of die 0 and to lines of die 1. -/
structure Vts where
  die0 : Nat := 0
  die1 : Nat := 0
  deriving DecidableEq, Repr, Inhabited

def Vts.add (v : Vts) (die vt : Nat) : Vts :=
  if die = 0 then { v with die0 := max v.die0 vt } else { v with die1 := max v.die1 vt }
def Vts.last (v : Vts) : Nat := max v.die0 v.die1

/-- Bytes stored at places in turn; answers the latest visibility times. DEDUCED: log 31. -/
def writeAll (die ctx region : Nat) : List (Target × Nat) → Nat → State → Vts × State
  | [], _, s => ({}, s)
  | (t, n) :: r, v, s =>
    match writeSpot die ctx region t n (v % 2 ^ (8 * n)) s with
    | (vt, s) =>
      match writeAll die ctx region r (v / 2 ^ (8 * n)) s with
      | (vts, s) => (vts.add (s.lineDie (t.pa / 128)) vt, s)

/-- The lost line that a write of part of it would have to read (R256), among places. -/
def State.lostPart (s : State) (acc : Nat) (l : List (Target × Nat)) : Option TrapInfo :=
  l.findSome? (fun p => if p.2 = 128 then none else s.lostAt p.1.pa p.2 acc)

/-- `n` bytes at a cluster local address, read by an engine or for a slot; a lost line is the cause of R257. -/
def engineRd (a : Asker) (cluster la n : Nat) (s : State) : Local Nat × State :=
  if !s.clusterWindow cluster la n then
    match s.clusterLost cluster la n 0 accRead with
    | some t => (.trap t, s)
    | none => (.got (s.clusterRd cluster la n), s)
  else
    match aliasAll a .read (pieces cluster (n / 128 + 2) la n) s with
    | (.got l, s) =>
      match l.findSome? (fun p => s.lostAt p.1.pa p.2 accRead) with
      | some t => (.trap t, s)
      | none =>
        match readAll l s with
        | (v, s) => (.got v, s)
    | (.trap t, s) => (.trap t, s)
    | (.later b, s) => (.later b, s)

/-- `n` bytes stored at a cluster local address by an engine or for a slot; a partial write of a lost line is the cause
of R257. -/
def engineWr (a : Asker) (cluster la n v ctx region : Nat) (s : State) : Local Vts × State :=
  if !s.clusterWindow cluster la n && s.lostLocal.isEmpty then
    let here := min n (0x100000 - la % 0x100000)
    let s := s.wr (clusterPa cluster la) here v
    (.got {}, if here < n then s.wr (clusterPa cluster (la + here)) (n - here) (v / 2 ^ (8 * here)) else s)
  else
    match aliasAll a .write (pieces cluster (n / 128 + 2) la n) s with
    | (.got l, s) =>
      match s.lostPart accWrite l with
      | some t => (.trap t, s)
      | none =>
        match writeAll (dieOf (cluster * 8)) ctx region l v s with
        | (vt, s) => (.got vt, s)
    | (.trap t, s) => (.trap t, s)
    | (.later b, s) => (.later b, s)

/-! ### Workspaces by context number (R142, R253) -/

/-- A value with the bytes that a write to a half under a snoop has in store for it (R67). -/
def overlay (pa n : Nat) (v : Nat) (w : Nat × Nat × Nat) : Nat :=
  (List.range n).foldl (fun v i =>
    if w.1 ≤ pa + i ∧ pa + i < w.1 + w.2.1 then setBits v (8 * i) 8 (w.2.2 / 2 ^ (8 * (pa + i - w.1))) else v) v

/-- `n` bytes of memory as the hardware has written them: in HBM, with a write that waits for a snoop. -/
def State.hwRead (s : State) (pa n : Nat) : Nat :=
  match regionOf pa with
  | .hbm _ => s.snoopOver.foldl (overlay pa n) (s.curRead pa n)
  | _ => s.curRead pa n

/-- `n` bytes of a workspace wherever it lies. -/
def State.wsRd (s : State) (base off n : Nat) : Nat := s.hwRead (base + off) n

/-- `n` bytes stored into a workspace wherever it lies. -/
def wsWr (base off n v : Nat) (s : State) : State := hwWrite (base + off) n v s

/-- A delivery by context number logged at the core that keeps the workspace (R279, R280). -/
def logCtx (key src kind data : Nat) (s : State) : State :=
  match (s.ctx key).loc with
  | .frame g _ => logFlits g src (key % 2 ^ 24) kind 1 data s
  | _ => s

/-- A workspace that lies in the local memory of a halted cluster: deliveries to it are held (R277). -/
def State.ctxHalted (s : State) (key : Nat) : Bool :=
  match (s.ctx key).loc with
  | .frame g _ => s.halted (clusterOf g)
  | _ => false

/-- A delivery to a workspace that a halt holds (R277): while the cluster is halting, the acknowledgement of a push still
reaches the instruction that waits for it, which completes (R275). DEDUCED: log 44. -/
def State.haltHolds (s : State) (key : Nat) (b : MsgBody) : Bool :=
  s.ctxHalted key &&
  match b, (s.ctx key).loc with
  | .pushAck .., .frame g _ => (s.cluster (clusterOf g)).dbg.state = 2
  | _, _ => true

/-- A message that has arrived at a halted cluster waits at its network interface (R277). -/
def heldAtCluster (msg : Nat) (b : MsgBody) (s : State) : State :=
  { s.drop msg with heldBeats := s.heldBeats ++ [{ id := msg, body := b }] }

/-- A workspace that takes deliveries now (R253): not between its places. -/
def State.delivers (s : State) (key : Nat) : Bool :=
  match (s.ctx key).loc with
  | .spilling .. | .filling .. => false
  | _ => true

/-- A message addressed to a context number, by ST at its arrival (R142, R253): dropped for a context that has ended,
held while its workspace is between its places or in a halted cluster (R277), else applied to the workspace. -/
def delivery (msg key : Nat) (f : Nat → State → State) (s : State) : State :=
  match s.msg? msg, s.baseOf key with
  | some b, some base =>
    if (s.ctx key).ended then s.drop msg
    else if !s.delivers key || s.haltHolds key b then heldAtCluster msg b s
    else f base (s.drop msg)
  | _, _ => s.drop msg

/-! ### Register words in lost lines (R132, R257) -/

/-- The bytes of a workspace that a register field names (R132). -/
def kindSpan (k : RegKind) (fn : Nat) (x : Nat) : Option (Nat × Nat) :=
  let w := some (8 * x, 8)
  let p := some (offP + 8 * x, 8)
  let v := some (offV + 64 * x, 64)
  let af := some (offAf + 64 * x, 64)
  match k with
  | .no => none
  | .w => w
  | .p => p
  | .v => v
  | .af => af
  | .h => some (128 + 32 * x, 32)
  | .pmD => if fn = 2 then w else p
  | .pmA => if fn = 1 then w else p
  | .xmv => match xclsOf fn with | .w => w | .p => p | .v => v | .af => af

/-- The register words of a workspace that an instruction reads or writes: those its fields name, the herd registers
for a herd instruction, and the words that every instruction uses (R132). DEDUCED: log 51. -/
def regSpans (i : Instr) : List (Nat × Nat) :=
  match toFields i with
  | none => []
  | some f =>
    match rowOf f.op.toNat with
    | none => []
    | some r =>
      let fn := f.fn.toNat
      [kindSpan r.d fn f.d.toNat, kindSpan r.a fn f.a.toNat, kindSpan r.b fn f.b.toNat,
       kindSpan r.c fn f.c.toNat].filterMap id ++
      (if 0xa0 ≤ f.op.toNat ∧ f.op.toNat ≤ 0xa9 then [(128, 96)] else []) ++ (if i = .eret then [(offFault, 128)] else [])

/-- The cause of a lost line among words of a workspace (R257), wherever it lies. DEDUCED: log 51. -/
def State.wsLost (s : State) (base : Nat) (spans : List (Nat × Nat)) : Option TrapInfo :=
  spans.findSome? (fun r => s.lostAt (base + r.1) r.2 accRead)

/-- The words that an instruction's first checks are made with: those that form addresses, in the line of the `w`
registers and in vectors of indices; affine forms, but for one that is stored; and what `eret` restores. -/
def addressSpans (i : Instr) : List (Nat × Nat) :=
  (regSpans i).filter (fun r => r.1 < 128) ++
  match i with
  | .vlut _ _ a _ => [(offV + 64 * a.val, 64)]
  | .vgat _ _ _ b | .vsct _ _ b _ => [(offV + 64 * b.val, 64)]
  | .afst .. => []
  | i => (regSpans i).filter (fun r => (offAf ≤ r.1 && r.1 < offAf + 512) || r.1 = offFault)

/-- A lost line carries no data (R256): one among the words that an instruction's first checks are made with comes before
them; one among its others has its place among the causes of its entry (R3). DEDUCED: log 51. -/
def State.lostFirst (s : State) (base : Nat) (i : Instr) : Option TrapInfo := s.wsLost base (addressSpans i)
def State.lostLater (s : State) (base : Nat) (i : Instr) : Option TrapInfo := s.wsLost base (regSpans i)

end Sys2Proof.Machine
end

