-- ==== Sys2Proof/Machine/Forms.lean ====
section
/-! DEFINITION. Affine forms (R188 to R202): the layout, the canonical check, `Finish`, and each operation as a pure
function of its forms, of the team's domain and of the pair `AFNEXT`, `AFLIM`. -/

namespace Sys2Proof.Machine

open Sys2Proof

/-- A canonical form (R188, R189): the codes of its centre and radius, and its terms by ascending id. -/
structure Form where
  c : Nat := 0
  e : Nat := 0
  terms : List (Nat × Nat) := []
  unb : Bool := false
  fold : Bool := false
  dom : Nat := 0
  deriving DecidableEq, Repr, Inhabited

/-- A finite `f32`. -/
def finite32 (code : Nat) : Bool := bits code 23 8 ≠ 255

/-- The centre and radius of the unbounded form (R189). -/
def unbC : Nat := 0x7FC00000
def unbE : Nat := 0x7F800000

/-- Term `j` of a form in its 64 bytes. -/
def formTerm (x j : Nat) : Nat × Nat := (bits x (8 * (8 + 6 * j)) 16, bits x (8 * (10 + 6 * j)) 32)

/-- Ids in strictly ascending order, in 1 to 65,534, with finite nonzero coefficients. -/
def termsOk : Nat → List (Nat × Nat) → Bool
  | _, [] => true
  | prev, (i, a) :: r =>
    decide (prev < i) && decide (i ≤ 65534) && finite32 a && decide (a % 2 ^ 31 ≠ 0) && termsOk i r

/-- The form of 64 bytes, or none when they are not canonical (R189). -/
def parseForm (x : Nat) : Option Form :=
  let n := bits x (8 * 56) 8
  let flags := bits x (8 * 57) 24
  let f : Form := { c := bits x 0 32, e := bits x 32 32, terms := (List.range n).map (formTerm x)
                    unb := bit flags 0, fold := bit flags 1, dom := bits x (8 * 60) 16 }
  if 8 < n then none
  else if !termsOk 0 f.terms then none
  else if bits x (8 * (8 + 6 * n)) (8 * (48 - 6 * n)) ≠ 0 then none
  else if flags / 4 ≠ 0 ∨ bits x (8 * 62) 16 ≠ 0 then none
  else if n ≠ 0 ∧ f.dom = 0 then none
  else if f.unb then (if f.c = unbC ∧ f.e = unbE ∧ n = 0 then some f else none)
  else if finite32 f.c && finite32 f.e && !bit f.e 31 then some f
  else none

/-- Whether 64 bytes are canonical. -/
def canonicalForm (x : Nat) : Bool := (parseForm x).isSome

/-- The terms of a form in their places. -/
def packTerms : Nat → List (Nat × Nat) → Nat
  | _, [] => 0
  | j, (i, a) :: r => i * 2 ^ (8 * (8 + 6 * j)) + a * 2 ^ (8 * (10 + 6 * j)) + packTerms (j + 1) r

/-- The 64 bytes of a form. -/
def packForm (f : Form) : Nat :=
  f.c + f.e * 2 ^ 32 + packTerms 0 f.terms + f.terms.length * 2 ^ (8 * 56)
    + (b2n f.unb + 2 * b2n f.fold) * 2 ^ (8 * 57) + f.dom * 2 ^ (8 * 60)

/-! ### Exact values (R193) -/

/-- The exact value of an `f32`. -/
def val32 (code : Nat) : Fp := fmtF32.decode code

/-- An exact sum, difference, and the comparison of exact values. -/
def exAdd (a b : Fp) : Fp := (a.add .rne b).1
def exSub (a b : Fp) : Fp := exAdd a b.neg
def exMul (a b : Fp) : Fp := (a.mul b).1
def exLt (a b : Fp) : Bool := a.cmp b = some .lt
def exLe (a b : Fp) : Bool := exLt a b || a.cmp b = some .eq
def exMax (a b : Fp) : Fp := if exLt a b then b else a
def exZero : Fp := Fp.zero false
/-- Half of an exact value. -/
def exHalf (a : Fp) : Fp := exMul a (.num false 1 (-1) 1)
def exSum (xs : List Fp) : Fp := xs.foldl exAdd exZero

/-- An exact real rounded once; an exact zero is +0, because a real has no sign (R193, R198). -/
def roundReal (f : Fmt) (rm : Rm) (x : Fp) : Nat := if x.isZero then 0 else (f.deliver rm x).1

/-- RN and RoundUp (R15, R193). -/
def rn32 (x : Fp) : Nat := roundReal fmtF32 .rne x
def roundUp32 (x : Fp) : Nat := roundReal fmtF32 .rup x

/-- Half(r): half the spacing of `f32` at a rounded value (R193). -/
def halfSpacing (code : Nat) : Fp := .num false 1 ((max (bits code 23 8) 1 : Nat) - 151) 1

/-- The charge for rounding an exact value to a code (R193). -/
def charge (code : Nat) (x : Fp) : Fp := if (val32 code).cmp x = some .eq then exZero else halfSpacing code

/-- The terms rounded, without those that round to zero, and the charge collected. -/
def roundTerms : List (Nat × Fp) → List (Nat × Nat) × Fp
  | [] => ([], exZero)
  | (i, a) :: r =>
    let q := roundTerms r
    let k := rn32 a
    (if k % 2 ^ 31 = 0 then q.1 else (i, k) :: q.1, exAdd (charge k a) q.2)

/-- The term of least magnitude, the higher id on equal magnitudes. -/
def leastTerm : List (Nat × Nat) → Option (Nat × Nat)
  | [] => none
  | t :: r =>
    match leastTerm r with
    | none => some t
    | some u => if t.2 % 2 ^ 31 < u.2 % 2 ^ 31 then some t else some u

/-- The terms of least magnitude folded until eight remain, with their sum. -/
def foldTerms : Nat → List (Nat × Nat) → List (Nat × Nat) × Fp × Bool
  | 0, ts => (ts, exZero, false)
  | fuel + 1, ts =>
    if ts.length ≤ 8 then (ts, exZero, false)
    else
      match leastTerm ts with
      | none => (ts, exZero, false)
      | some t =>
        let r := foldTerms fuel (ts.filter (fun u => u.1 ≠ t.1))
        (r.1, exAdd (val32 t.2).mag r.2.1, true)

/-- `Unbounded(fold)` (R193). -/
def unbounded (dom : Nat) (fold : Bool) : Nat := packForm { c := unbC, e := unbE, unb := true, fold := fold, dom := dom }

/-- `Finish` (R193): exact centre, exact terms in ascending id, exact radius, FOLD. DEDUCED: log 17. -/
def finishForm (dom : Nat) (c : Fp) (ts : List (Nat × Fp)) (e : Fp) (fold : Bool) : Nat :=
  let cc := rn32 c
  let r := roundTerms ts
  let k := foldTerms r.1.length r.1
  let ev := roundUp32 (exAdd (exAdd (exAdd e (charge cc c)) r.2) k.2.1)
  let fold := fold || k.2.2
  if !finite32 cc || !finite32 ev || r.1.any (fun t => !finite32 t.2) then unbounded dom fold
  else packForm { c := cc, e := ev, terms := k.1, fold := fold, dom := dom }

/-! ### The operations (R194 to R200) -/

/-- A team's domain as an affine instruction meets it (R190, R191). -/
structure Domain where
  dom : Nat
  next : Nat
  lim : Nat
  deriving DecidableEq, Repr

/-- The result of an affine instruction: a cause, or the form written, with whether it minted `AFNEXT`. -/
inductive AfEnd where
  | trap (t : TrapInfo)
  | form (v : Nat) (minted : Bool)
  deriving DecidableEq, Repr

/-- A result that mints (R191, R379): an operand's id at or above `AFNEXT`, then `#AFSYM`, then the form. -/
def mint (d : Domain) (ops : List Form) (v : Nat) : AfEnd :=
  if ops.any (fun f => f.terms.any (fun t => d.next ≤ t.1)) then .trap prot
  else if d.next = 0 ∨ d.lim < d.next then .trap { cause := .afsym, info0 := d.next, info1 := d.lim }
  else .form v true

def Form.cv (f : Form) : Fp := val32 f.c
def Form.ev (f : Form) : Fp := val32 f.e
/-- The terms with their exact coefficients, and the sum of the magnitudes with the radius. -/
def Form.exTerms (f : Form) : List (Nat × Fp) := f.terms.map (fun t => (t.1, val32 t.2))
def Form.reach (f : Form) : Fp := exAdd (exSum (f.terms.map (fun t => (val32 t.2).mag))) f.ev

/-- The terms of two forms by ascending id, each coefficient a combination of both (0 where one has none). -/
def mergeTerms (g : Fp → Fp → Fp) (x y : List (Nat × Fp)) : List (Nat × Fp) := go (x.length + y.length) x y
where
  go : Nat → List (Nat × Fp) → List (Nat × Fp) → List (Nat × Fp)
    | 0, _, _ => []
    | _ + 1, [], y => y.map (fun t => (t.1, g exZero t.2))
    | _ + 1, x, [] => x.map (fun t => (t.1, g t.2 exZero))
    | n + 1, (i, a) :: x, (j, b) :: y =>
      if i < j then (i, g a exZero) :: go n x ((j, b) :: y)
      else if j < i then (j, g exZero b) :: go n ((i, a) :: x) y
      else (i, g a b) :: go n x y

/-- `afnew` (R194, R380): an upper bound below the lower one is `#PROT`, an infinite one among them; a NaN is not
ordered. -/
def valAfnew (d : Domain) (lo hi : Nat) : AfEnd :=
  if (fmtF32.decode hi).cmp (fmtF32.decode lo) = some .lt then .trap prot
  else if !finite32 lo || !finite32 hi then .form (unbounded d.dom false) false
  else
    let l := val32 lo
    let h := val32 hi
    let c := val32 (rn32 (exHalf (exAdd l h)))
    let q := val32 (roundUp32 (exMax (exSub h c) (exSub c l)))
    if exLt exZero q then mint d [] (finishForm d.dom c [(d.next, q)] exZero false)
    else .form (finishForm d.dom c [] exZero false) false

/-- `afadd` and `afsub` (R195). -/
def valAfadd (sub : Bool) (d : Domain) (x y : Form) : AfEnd :=
  let fold := x.fold || y.fold
  if x.unb || y.unb then .form (unbounded d.dom fold) false
  else
    let op := fun a b => if sub then exSub a b else exAdd a b
    .form (finishForm d.dom (op x.cv y.cv) (mergeTerms op x.exTerms y.exTerms) (exAdd x.ev y.ev) fold) false

/-- `afscl` and `afaddc` (R196). -/
def valAfscl (d : Domain) (x : Form) (s : Nat) : AfEnd :=
  if x.unb || !finite32 s then .form (unbounded d.dom x.fold) false
  else
    let k := val32 s
    .form (finishForm d.dom (exMul k x.cv) (x.exTerms.map (fun t => (t.1, exMul k t.2))) (exMul k.mag x.ev) x.fold) false

def valAfaddc (d : Domain) (x : Form) (s : Nat) : AfEnd :=
  if x.unb || !finite32 s then .form (unbounded d.dom x.fold) false
  else .form (finishForm d.dom (exAdd x.cv (val32 s)) x.exTerms x.ev x.fold) false

/-- `afmul` (R197). -/
def valAfmul (d : Domain) (x y : Form) : AfEnd :=
  let fold := x.fold || y.fold
  if x.unb || y.unb then .form (unbounded d.dom fold) false
  else
    let q := exMul x.reach y.reach
    let ts := mergeTerms (fun a b => exAdd (exMul y.cv a) (exMul x.cv b)) x.exTerms y.exTerms
    let e := exAdd (exMul x.cv.mag y.ev) (exMul y.cv.mag x.ev)
    if exLt exZero q then
      mint d [x, y] (finishForm d.dom (exMul x.cv y.cv) (ts ++ [(d.next, val32 (roundUp32 q))]) e fold)
    else .form (finishForm d.dom (exMul x.cv y.cv) ts e fold) false

/-- The range of a form in a format (R198). -/
def formRange (f : Fmt) (x : Form) : Nat × Nat :=
  if x.unb then (f.signed true f.infMag, f.infMag)
  else (roundReal f .rdn (exSub x.cv x.reach), roundReal f .rup (exAdd x.cv x.reach))

/-- `afrelu` (R199). -/
def valAfrelu (d : Domain) (x : Form) : AfEnd :=
  if x.unb then .form (unbounded d.dom x.fold) false
  else
    let r := formRange fmtF32 x
    let lo := val32 r.1
    let hi := val32 r.2
    if exLe hi exZero then .form (finishForm d.dom exZero [] exZero x.fold) false
    else if exLe exZero lo then .form (finishForm d.dom x.cv x.exTerms x.ev x.fold) false
    else if !finite32 r.1 || !finite32 r.2 then .form (unbounded d.dom x.fold) false
    else
      let l := val32 (rn32 (hi.div (exSub hi lo)))
      let b := exMax (exMul l lo).neg (exMul (exSub (.num false 1 0 1) l) hi)
      let mu := val32 (roundUp32 (exHalf b))
      mint d [x] (finishForm d.dom (exAdd (exMul l x.cv) mu)
        (x.exTerms.map (fun t => (t.1, exMul l t.2)) ++ [(d.next, mu)]) (exMul l x.ev) x.fold)

/-- The terms kept by `afcond` beyond its threshold, at most a number of them: the least leave first (R200). -/
def capTerms : Nat → Nat → List (Nat × Nat) → List (Nat × Nat)
  | 0, _, ts => ts
  | fuel + 1, cap, ts =>
    if ts.length ≤ cap then ts
    else
      match leastTerm ts with
      | none => ts
      | some t => capTerms fuel cap (ts.filter (fun u => u.1 ≠ t.1))

/-- `afcond` (R200), on a form with its bytes `raw`. DEDUCED: log 17. -/
def valAfcond (d : Domain) (x : Form) (raw s cap : Nat) : AfEnd :=
  if (val32 s).isNan then .trap prot
  else if x.unb then .form (unbounded d.dom x.fold) false
  else
    let kept := capTerms 8 cap (x.terms.filter (fun t => !exLt (val32 t.2).mag (val32 s).mag))
    let chosen := x.terms.filter (fun t => !kept.contains t)
    if chosen.isEmpty then .form raw false
    else
      let sum := val32 (roundUp32 (exSum (chosen.map (fun t => (val32 t.2).mag))))
      mint d [x] (finishForm d.dom x.cv (kept.map (fun t => (t.1, val32 t.2)) ++ [(d.next, sum)]) x.ev x.fold)

/-! ### Vector layout (R202) -/

/-- The 14 ids of a symbol list in its 32 bytes. -/
def listIds (l : Nat) : List Nat := (List.range 14).map (fun s => bits l (16 * s) 16)

def ascending : Nat → List Nat → Bool
  | _, [] => true
  | prev, i :: r => decide (prev < i) && ascending i r

/-- A list that meets R202. -/
def listOk (l : Nat) : Bool := bits l 224 32 = 0 && ascending 0 ((listIds l).filter (· ≠ 0))

/-- A lane rounded to the `bf16` grid, with the magnitude of the change (R202). -/
def bf16Lane (x : Nat) : Nat × Fp :=
  let v := roundBits x * 2 ^ 16
  (v, if finite32 v then (exSub (val32 x) (val32 v)).mag else .inf false)
where
  roundBits (x : Nat) : Nat := (fmtBf16.deliver .rne (val32 x)).1

/-- `afpack` (R202): the 16 lanes as one vector. -/
def valAfpack (bf : Bool) (x : Form) (l : Nat) : Nat :=
  if x.unb then ofElems 32 16 (fun i => if i = 0 then unbC else if i = 1 then unbE else 0)
  else
    let ids := listIds l
    let coeff := fun i => if i = 0 then 0 else ((x.terms.find? (fun t => t.1 = i)).map Prod.snd).getD 0
    let lanes := x.c :: ids.map coeff
    let out := (x.terms.filter (fun t => !ids.contains t.1)).map (fun t => (val32 t.2).mag)
    let e := exAdd x.ev (exSum out)
    let rs := lanes.map (fun v => if bf then bf16Lane v else (v, exZero))
    let e := rs.foldl (fun e r => exAdd e r.2) e
    ofElems 32 16 (fun i => if i = 0 then (rs.getD 0 (0, exZero)).1 else if i = 1 then roundUp32 e
      else (rs.getD (i - 1) (0, exZero)).1)

/-- `afunpk` (R202, R384): lanes 0 and 1 and those of the used slots. -/
def valAfunpk (d : Domain) (v l : Nat) : AfEnd :=
  let used := (listIds l).zip (List.range 14) |>.filter (fun p => p.1 ≠ 0)
  if used.any (fun p => p.1 = 65535 || decide (d.next ≤ p.1)) then .trap prot
  else
    let lane := fun i => elem 32 v i
    if !finite32 (lane 0) || !finite32 (lane 1) || used.any (fun p => !finite32 (lane (2 + p.2))) then
      .form (unbounded d.dom false) false
    else
      .form (finishForm d.dom (val32 (lane 0)) (used.map (fun p => (p.1, val32 (lane (2 + p.2)))))
        (val32 (lane 1)).mag false) false

end Sys2Proof.Machine
end

