-- ==== Sys2Proof/Machine/Sched.lean ====
section
/-! DEFINITION. Frames, slots and contexts (R100, R134 to R147, R250 to R254, R258), ready rings and stage queues
(R111 to R114, R235), and the counters of codelets (R231). -/

namespace Sys2Proof.Machine

open Sys2Proof

/-! ### The rotation table (R140, R228, R229) -/

/-- Entry `e` of a core's rotation table. -/
def State.rtab (s : State) (core e : Nat) : Nat :=
  let c := s.core core
  if e < 16 then bits c.rtab0.toNat (4 * e) 4 else bits c.rtab1.toNat (4 * (e - 16)) 4

/-- A slot that some entry names (R229). -/
def State.named (s : State) (core slot : Nat) : Bool := (List.range 32).any (fun e => s.rtab core e = slot)

/-- A slot free for a context: V = 0 and not withheld (R145). -/
def State.slotFree (s : State) (core slot : Nat) : Bool :=
  let x := s.slot (core * 16 + slot)
  !x.v && !x.withheld

/-- The free slots of a core that its rotation table names. -/
def State.freeNamed (s : State) (core : Nat) : List Nat :=
  (List.range 16).filter (fun k => s.slotFree core k && s.named core k)

/-! ### Frames (R100, R250) -/

/-- The frames of a core's frame region. -/
def State.frameList (s : State) (core : Nat) : List Nat :=
  let n := (s.core core).frames
  if core % 8 % 2 = 0 then List.range n else (List.range n).map (fun i => 256 - n + i)

/-- A context that takes up a frame. -/
def Ctx.holdsFrame (c : Ctx) (core f : Nat) : Bool :=
  (match c.loc with
    | .frame g x => g = core && x = f
    | .spilling g x _ => g = core && x = f
    | .filling g x _ => g = core && x = f
    | _ => false) ||
  (match c.borrow with | some (k, x) => k / 16 = core && x = f | none => false) ||
  (match c.savedBorrow with | some (g, x) => g = core && x = f | none => false)

def State.frameFree (s : State) (core f : Nat) : Bool := !s.ctxs.any (fun e => e.2.holdsFrame core f)

/-- The free frame of lowest offset. -/
def State.freeFrame (s : State) (core : Nat) : Option Nat := (s.frameList core).find? (s.frameFree core)
def State.freeFrames (s : State) (core : Nat) : List Nat := (s.frameList core).filter (s.frameFree core)

/-- The context of a frame. -/
def State.ctxInFrame (s : State) (core f : Nat) : Option Nat :=
  (s.ctxs.find? (fun e => e.2.loc = .frame core f)).map Prod.fst

/-- A core that a core's partition and cluster name. -/
def State.keyOf (s : State) (core num : Nat) : Nat := s.partOf core * 2 ^ 24 + num

/-- Where a context is, with its entry of the location table (R250); a partition without a table keeps none
(assumption log 4). DESIGN CHOICE: log 4. -/
def setLoc (key : Nat) (loc : Loc) (s : State) : State :=
  let s := s.modCtx key (fun c => { c with loc := loc })
  let base := (s.part (key / 2 ^ 24)).cltb
  if base = 0 then s else hwWrite (base + 8 * (key % 2 ^ 24)) 8 (locWord loc) s
where
  locWord : Loc → Nat
    | .none => 0
    | .frame g f => 2 ^ 62 + g * 2 ^ 20 + f * 2 ^ 12
    | .spilling _ _ img => 2 * 2 ^ 62 + img
    | .filling _ _ img => 2 * 2 ^ 62 + img
    | .hbm img => 3 * 2 ^ 62 + img

/-- A range of local memory written whole clears the lost marks of the lines it covers (R256). -/
def zeroLocal (core off n : Nat) (s : State) : State :=
  let pa := localPa core off
  let s := s.zero pa (pa + n)
  { s with lostLocal := s.lostLocal.filter (fun l => !(decide (pa ≤ l * 128) && decide (l * 128 + 128 ≤ pa + n))) }

/-- A slot points at a context's frame. -/
def pointSlot (core slot key frame : Nat) (s : State) : State :=
  let k := core * 16 + slot
  let s := s.modSlot k (fun x =>
    { x with frame := BitVec.ofNat 8 frame, v := true, withheld := false, block := none, searchFrom := none })
  s.modCtx key (fun c => { c with slot := some k, last := k })

/-- A slot falls free: it searches from now on, if no record waits for its core (R282). -/
def freeSlot (k : Nat) (s : State) : State :=
  s.modSlot k (fun x => { x with v := false, withheld := false, block := none
                                 searchFrom := if (s.core (k / 16)).full then none else some (s.gtOf (k / 16)) })

/-- A slot holds no context. -/
def emptySlot (k : Nat) (s : State) : State := (freeSlot k s).yieldTurns (k / 16) k

/-! ### Dispatch (R89, R141, R144) -/

/-- The first number from `n` that no context of the partition holds (R141). -/
def freeNumber (s : State) (p : Nat) : Nat → Nat → Nat
  | 0, n => n
  | fuel + 1, n =>
    if thas s.ctxs (p * 2 ^ 24 + n) then freeNumber s p fuel (if n = 2 ^ 24 - 1 then 1 else n + 1) else n

/-- A record taken for dispatch, with its time in the queue (R282). -/
def noteWait (core : Nat) (st : RecStamp) (s : State) : State :=
  match st.enq with
  | none => s
  | some t => s.modCore core (fun c => { c with waitns := satTo (c.waitns + (s.gtOf core - t)) (2 ^ 64 - 1) })

/-- The end of a slot's search (R282): from the first moment at which it was free while its core's ring and stage queue
were empty. A slot that fell free while a record waited has not searched. -/
def noteSearch (core slot : Nat) (s : State) : State :=
  match (s.slot (core * 16 + slot)).searchFrom with
  | none => s
  | some t => s.modCore core (fun c => { c with searchns := satTo (c.searchns + (s.gtOf core - t)) (2 ^ 64 - 1) })

/-- What a dispatch defines of the new context. -/
structure NewCtx where
  kind : Nat
  pc : Word
  ws : List (Nat × Nat × Nat) := []    -- workspace words: offset, bytes and value
  afr : Nat := 0                       -- the creating release's timestamp
  ln : Nat := 0
  entry : Nat := 0
  index : Nat := 0
  enqueued : Option Nat := none
  stage : Option Nat := none
  deriving DecidableEq, Repr

/-- Dispatch of a context into a frame and, when named, a slot (R144): zeroing, its registers, the values of R89, its
number and its place in its team. -/
def dispatch (core : Nat) (slot : Option Nat) (frame : Nat) (n : NewCtx) (s : State) : Nat × State :=
  let p := s.partOf core
  let num := freeNumber s p (s.ctxs.length + 1) (s.part p).nextCtx
  let key := p * 2 ^ 24 + num
  let now := s.gtOf core
  let base := wsBase core frame
  let s := zeroLocal core (frame * 4096) 3200 s
  let s := zeroLocal core (frame * 4096 + offHist) 128 s
  let s := n.ws.foldl (fun s w => s.wr (base + w.1) w.2.1 w.2.2) s
  let s := s.setPc base n.pc
  let s := s.setWs base offCtxn (n.kind * 2 ^ 24 + num)
  let s := s.setWs base offAfr (max now n.afr)
  let s := s.setWs base offLrs now
  let s := (List.range 16).foldl (fun s i => s.setWs base (offHist + 8 * i) now) s
  let s := s.modPart p (fun x => { x with nextCtx := if num = 2 ^ 24 - 1 then 1 else num + 1 })
  let s := s.setCtx key
    { loc := .none, ln := n.ln, cluster := clusterOf core, entry := n.entry, index := n.index, born := now
      succp := if n.kind = 1 then BitVec.ofNat 64 (s.ws base 0) else 0
      enqueued := n.enqueued, dequeued := now, stage := n.stage, order := s.nextId }
  let s := { s with nextId := s.nextId + 1 }
  let s := setLoc key (.frame core frame) s
  let t := s.team (clusterOf core) n.entry
  let s := s.setTeam (clusterOf core) n.entry { t with members := t.members ++ [key] }
  match slot with
  | some k => (num, pointSlot core k key frame (noteSearch core k s))
  | none => (num, s)

/-! ### Parking and running (R147, R251) -/

/-- A context leaves its slot and stays parked in its frame. -/
def park (key : Nat) (s : State) : State :=
  match (s.ctx key).slot with
  | none => s
  | some k =>
    let core := k / 16
    let s := emptySlot k s
    let s := match (s.ctx key).borrow with
      | some (bk, f) =>
        (freeSlot bk s).modCtx key (fun c => { c with borrow := none, savedBorrow := some (bk / 16, f) })
      | none => s
    { s.modCtx key (fun c => { c with slot := none, order := s.nextId, saveGt := s.gtOf core, saveDie := dieOf core }) with
      nextId := s.nextId + 1 }

/-- Whether a context resumed on a die must wait for the lease time of R82, and until when. -/
def State.resumeAt (s : State) (die : Nat) (c : Ctx) : Nat :=
  let now := s.gt die
  let recent := ((s.die die).grants.filter (fun g => now < g.1 + 65536)).map Prod.snd
  c.saveGt + recent.foldl max 0 + 32

/-- A parked context runs on a slot (R82, R252). -/
def runOn (core slot key : Nat) (s : State) : State :=
  match (s.ctx key).loc with
  | .frame g f =>
    if g = core then
      let c := s.ctx key
      let s := pointSlot core slot key f s
      if c.saveDie = dieOf core ∨ s.resumeAt (dieOf core) c < s.gtOf core then s
      else s.modCtx key (fun c => { c with migrating := true })
    else s
  | _ => s

/-- Whether the wait of a context can be pre-empted now (R251). -/
def Block.preemptible : Block → Bool
  | .div .. | .walk .. | .recheck | .line .. | .reply .. | .snoop .. | .unmap .. | .acks .. | .ring .. | .transit .. | .fillOf ..
  | .spillOf .. | .halted .. | .ending => false
  | _ => true

/-- A wait that a pre-emption withdraws, so that the instruction executes again (R251). -/
def Wait.withdrawn (w : Wait) : Bool :=
  match w.block with
  | .fe .. | .channel .. | .claim .. | .eland .. | .wfe .. | .timeline .. | .cancel .. | .tsync | .buffer
  | .deposits | .sequence _ => true
  | .pushPend => w.cont.prog.isEmpty
  | _ => false

/-- An Eland entry that is not granted leaves its list (R169, R251). -/
def withdrawEntries (key : Nat) (s : State) : State :=
  match (s.ctx key).slot with
  | none => s
  | some k => s.modCore (k / 16) (fun c =>
      { c with vlist := c.vlist.filter (fun e => e.ctx ≠ key || e.step.isSome)
               tlist := c.tlist.filter (fun e => e.ctx ≠ key || e.step.isSome) })

def State.canPreempt (s : State) (key : Nat) : Bool :=
  match s.waitOf key with
  | some b => b.preemptible
  | none => true

/-- The pre-emption of a context (R251): its wait is withdrawn where R251 says so, and it is parked. -/
def preempt (key : Nat) (s : State) : State :=
  match (s.ctx key).wait with
  | some w =>
    let s := if w.withdrawn then (withdrawEntries key s).clearWait key else s
    park key s
  | none => park key s

/-! ### Borrowed workspaces (R145 to R147) -/

/-- `retbr` (R146), of a borrower on its slot or parked: the borrowed frame is zeroed, wherever it is kept, and BRW is
cleared. The FRAME field of the slot that is returned reads as 0. DEDUCED, DESIGN CHOICE: log 29. -/
def returnBorrow (key : Nat) (s : State) : State :=
  let c := s.ctx key
  let unmark := fun (s : State) =>
    let s := s.modCtx key (fun c => { c with borrow := none, savedBorrow := none, savedBytes := none })
    match c.loc, s.baseOf key with
    | .hbm _, some b => hwWrite (b + offCtxn) 8 (setBits (s.wsRd b offCtxn 8) 27 1 0) s
    | _, some b => s.setBrw b false
    | _, none => s
  match c.borrow, c.savedBorrow with
  | some (k, f), _ =>
    let s := zeroLocal (k / 16) (f * 4096) 4096 s
    unmark ((freeSlot k s).modSlot k (fun x => { x with frame := 0 }))
  | none, some (g, f) => unmark (zeroLocal g (f * 4096) 4096 s)
  | none, none => if c.savedBytes.isSome then unmark s else s

/-- A free slot of a core, whether or not its rotation table names it (R145). -/
def State.borrowSlot (s : State) (core : Nat) : Option Nat := (List.range 16).find? (s.slotFree core)

/-- A context that holds a borrowed workspace which it must take again (R147). -/
def Ctx.mustRetake (c : Ctx) : Bool := c.savedBorrow.isSome || c.savedBytes.isSome

/-- Whether a resumed borrower can take a free slot and frame of a core now (R147). -/
def State.canRetake (s : State) (core key : Nat) : Bool :=
  !(s.ctx key).mustRetake || ((s.borrowSlot core).isSome && (s.freeFrame core).isSome)

/-- The lost line of a borrowed workspace that is kept in a frame (R257). -/
def State.borrowLost (s : State) (key : Nat) : Option Nat :=
  match (s.ctx key).savedBytes, (s.ctx key).savedBorrow with
  | none, some (g, f) => s.lostIn (wsBase g f) 4096
  | _, _ => none

/-- A resumed borrower takes a free slot and frame again, with its borrowed contents (R147); none while it cannot.
DEDUCED: log 29. -/
def reborrow (core key : Nat) (s : State) : Option State :=
  let c := s.ctx key
  if !c.mustRetake then some s
  else
    match s.borrowSlot core, s.freeFrame core with
    | some k, some f =>
      let v := match c.savedBytes, c.savedBorrow with
        | some v, _ => v
        | none, some (g, x) => s.rd (wsBase g x) 4096
        | none, none => 0
      let s := s.store (wsBase core f) 4096 v
      let s := s.modSlot (core * 16 + k) (fun x =>
        { x with frame := BitVec.ofNat 8 f, v := false, withheld := true, searchFrom := none })
      some (s.modCtx key (fun c => { c with borrow := some (core * 16 + k, f), savedBorrow := none, savedBytes := none }))
    | _, _ => none

/-! ### Halted clusters (R277) -/

/-- A beat held at the network interface of a halted cluster, in arrival order. DEDUCED: log 44. -/
def holdBeat (b : MsgBody) (s : State) : State :=
  { s with heldBeats := s.heldBeats ++ [{ id := s.nextId, body := b }], nextId := s.nextId + 1 }

/-! ### The end of a context (R172, R226, R227, R258) -/

/-- A message that will be delivered to a context. -/
def MsgBody.forCtx (key : Nat) : MsgBody → Bool
  | .access c => c = key
  | .remoteWrite c => c = key
  | .vtReply c _ _ => c = key
  | .pushAck c _ _ _ => c = key
  | .deposit c _ _ _ _ _ => c = key
  | .drainFlags c _ _ => c = key
  | .peerAck c => c = key
  | _ => false

/-- The array of a quad starts its clearing (R172): 512 cycles. -/
def releaseArray (quad : Nat) (s : State) : State :=
  s.modQuad quad (fun q => { q with owner := none, releasing := some (s.cycle + 512) })

/-- The arrays that a team owns are released (R172). -/
def releaseArrays (p domid : Nat) (s : State) : State :=
  (tkeys s.quads).foldl (fun s q => if (s.quad q).owner = some (p, domid) then releaseArray q s else s) s

/-- The context leaves its team, which may be swapped out (R225); the last of the owning team releases its arrays
(R172). -/
def leaveTeam (key : Nat) (s : State) : State :=
  let c := s.ctx key
  let t := s.team c.cluster c.entry
  if t.members.contains key then
    let left := t.members.filter (· ≠ key)
    let s := s.setTeam c.cluster c.entry { t with members := left }
    if left.isEmpty then releaseArrays t.part t.domid s else s
  else
    let p := key / 2 ^ 24
    let gone := (s.part p).waiting.filter (fun w => w.saved && w.members = [key])
    let s := s.modPart p (fun x =>
      { x with waiting := (x.waiting.filter (fun w => !(w.saved && w.members = [key]))).map (fun w =>
          { w with members := w.members.filter (· ≠ key) }) })
    gone.foldl (fun s w => releaseArrays p w.domid (s.modPart p (fun x => { x with pool := x.pool ++ [w.image] }))) s

/-- The record's stamps at its completion (R282). -/
def noteEnd (key core : Nat) (s : State) : State :=
  let c := s.ctx key
  if c.enqueued.isNone then s
  else s.modCore core (fun x => { x with runns := satTo (x.runns + (s.gtOf core - c.dequeued)) (2 ^ 64 - 1) })

/-- The slot and the frame of a context are freed, and its number as soon as no delivery to it is in flight (R258). What
its writes still owe is its launch's to wait for (R227, R266). -/
def freeContext (key : Nat) (s : State) : State :=
  let c := s.ctx key
  let s := s.modPart (key / 2 ^ 24) (fun p =>
    if thas p.launches c.ln then
      let l := tget p.launches c.ln
      let l := { l with vt := max l.vt (max (max c.vtDie0 c.vtDie1) c.performed), peers := l.peers ++ c.peerWrites }
      { p with launches := tset p.launches c.ln l }
    else p)
  let s := { s with heldBeats := s.heldBeats.filter (fun m => !m.body.forCtx key) }
  let s := s.modCluster c.cluster (fun x =>
    { x with gov := { x.gov with eosHeld := x.gov.eosHeld.map (fun e => (e.1, e.2.1, e.2.2.filter (· ≠ key))) } })
  let s := leaveTeam key s
  let s := match c.slot with
    | some k => emptySlot k s
    | none => s
  let s := match c.loc with
    | .hbm img => s.modPart (key / 2 ^ 24) (fun p => { p with pool := p.pool ++ [img] })
    | _ => s
  let s := setLoc key .none s
  if s.net.any (fun m => m.body.forCtx key) then
    s.modCtx key (fun c => { c with ended := true, slot := none, wait := none, borrow := none })
  else { s with ctxs := tdel s.ctxs key }

/-! ### Records and rings (R111 to R114, R232, R235) -/

/-- A ring: a core's ready ring, or a stage queue of a cluster. -/
inductive RingId where
  | ready (core : Nat)
  | stage (cluster k : Nat)
  deriving DecidableEq, Repr

/-- The target number of a record: a global core, or 0x8000 + 4 * cluster + stage. -/
def RingId.ofTarget (t : Nat) : RingId :=
  if t < 0x8000 then .ready t else .stage ((t - 0x8000) / 4) ((t - 0x8000) % 4)
def RingId.target : RingId → Nat
  | .ready g => g
  | .stage cl k => 0x8000 + 4 * cl + k

/-- The governor table of the launch that holds a cluster's governor (R236). -/
def State.govTable (s : State) (cl : Nat) : Option Nat :=
  match (s.cluster cl).gov.ln with
  | some (p, ln) => some (tget (s.part p).launches ln).govt
  | none => none

/-- The stage entry's cluster local address. -/
def stageEntry (govt k : Nat) : Nat := govt + 64 + 64 * k

/-- What a ring is made of: its physical base, its size in bytes, its counts, and the core that holds it. -/
structure RingView where
  base : Nat
  size : Nat
  head : Nat
  tail : Nat
  core : Nat
  deriving DecidableEq, Repr

/-- The view of a ring; none for a disabled ring or a stage that does not exist. -/
def State.ring (s : State) (r : RingId) : Option RingView :=
  match r with
  | .ready g =>
    let c := s.core g
    if c.rrEn then some { base := localPa g (c.rrBase * 4096), size := 4096 * 2 ^ c.rrSize, head := c.rrHead
                          tail := c.rrTail, core := g }
    else none
  | .stage cl k =>
    match s.govTable cl with
    | none => none
    | some gt =>
      if k < s.clusterRd cl gt 1 then
        let e := stageEntry gt k
        let rbase := s.clusterRd cl (e + 8) 4
        some { base := clusterPa cl rbase, size := 4096 * 2 ^ s.clusterRd cl (e + 12) 1
               head := s.clusterRd cl (e + 24) 4, tail := s.clusterRd cl (e + 28) 4
               core := cl * 8 + rbase / 0x100000 % 8 }
      else none

def setHead (r : RingId) (v : Nat) (s : State) : State :=
  match r with
  | .ready g => s.modCore g (fun c => { c with rrHead := v % 2 ^ 32 })
  | .stage cl k =>
    match s.govTable cl with
    | some gt => s.wr (clusterPa cl (stageEntry gt k + 24)) 4 v
    | none => s
def setTail (r : RingId) (v : Nat) (s : State) : State :=
  match r with
  | .ready g => s.modCore g (fun c => { c with rrTail := v % 2 ^ 32 })
  | .stage cl k =>
    match s.govTable cl with
    | some gt => s.wr (clusterPa cl (stageEntry gt k + 28)) 4 v
    | none => s

/-- The refused count of a ring rises by one (R111, R236). -/
def countRefused (r : RingId) (s : State) : State :=
  match r with
  | .ready g => s.modCore g (fun c => { c with rrref := satTo (c.rrref + 1) 0xFFFFFFFF })
  | .stage cl k =>
    match s.govTable cl with
    | some gt =>
      let a := clusterPa cl (stageEntry gt k + 36)
      s.wr a 4 (satTo (s.rd a 4 + 1) 0xFFFFFFFF)
    | none => s

/-- The used bytes of a ring. -/
def RingView.used (v : RingView) : Nat := (v.tail + 2 ^ 32 - v.head) % 2 ^ 32

/-- A core's ready ring, or the stage queue that it is assigned to, holds a record or none: where neither does any more,
the free slots that have not searched begin to (R282). -/
def noteFill (full : Nat → State → Bool) (core : Nat) (s : State) : State :=
  let holds := full core s
  if holds = (s.core core).full then s
  else
    let s := s.modCore core (fun c => { c with full := holds })
    if holds then s
    else
      (List.range 16).foldl (fun s k =>
        let x := s.slot (core * 16 + k)
        if !x.v && !x.withheld && x.searchFrom.isNone then
          s.setSlot (core * 16 + k) { x with searchFrom := some (s.gtOf core) }
        else s) s

/-- The stamp of the record that entered a ring at a TAIL (R282). -/
def addStamp (r : RingId) (tail : Nat) (gt : RecStamp) (s : State) : State :=
  match r with
  | .ready g => s.modCore g (fun c => { c with stamps := c.stamps ++ [(tail, gt)] })
  | .stage cl k => s.modCluster cl (fun c => { c with gov := { c.gov with stamps := c.gov.stamps ++ [(k, tail, gt)] } })
def takeStamp (r : RingId) (tail : Nat) (s : State) : RecStamp × State :=
  match r with
  | .ready g =>
    ((((s.core g).stamps.find? (fun x => x.1 = tail)).map Prod.snd).getD {},
      s.modCore g (fun c => { c with stamps := c.stamps.filter (fun x => x.1 ≠ tail) }))
  | .stage cl k =>
    ((((s.cluster cl).gov.stamps.find? (fun x => x.1 = k && x.2.1 = tail)).map (fun x => x.2.2)).getD {},
      s.modCluster cl (fun c => { c with gov := { c.gov with stamps := c.gov.stamps.filter (fun x => !(x.1 = k && x.2.1 = tail)) } }))

/-- The length of a record by its header (R112). -/
def recLen (header : Nat) : Nat := 16 * (bits header 4 2 + 1)
def recKind (header : Nat) : Nat := bits header 0 4
/-- LN of a record (R232, R235). -/
def recLn (header : Nat) : Nat := bits header 56 8
/-- The FR bit of a KIND 1 record (R232): BODY bit 8 is header bit 8. -/
def recFr (header : Nat) : Bool := bit header 8

/-- The record at the head of a ring, past pads: its position as a count of bytes dequeued, and its bytes (R113). -/
def headRec (s : State) (v : RingView) : Nat → Nat → Option (Nat × List Byte)
  | 0, _ => none
  | fuel + 1, head =>
    if (v.tail + 2 ^ 32 - head) % 2 ^ 32 = 0 then none
    else
      let h := s.rd (v.base + head % v.size) 8
      if recKind h = 2 then headRec s v fuel ((head + recLen h) % 2 ^ 32)
      else some (head, natBytes (recLen h) (s.rd (v.base + head % v.size) (recLen h)))

/-- The head record of a ring. -/
def State.peekRing (s : State) (r : RingId) : Option (Nat × List Byte) :=
  match s.ring r with
  | none => none
  | some v => headRec s v 8 v.head

/-- The stage that a core is assigned to (R237). -/
def State.stageOf (s : State) (core : Nat) : Option Nat :=
  let cl := clusterOf core
  match s.govTable cl with
  | none => none
  | some gt => (List.range (s.clusterRd cl gt 1)).find? (fun k => bit (s.clusterRd cl (stageEntry gt k + 32) 1) (core % 8))

/-- A record for a core: in its ready ring, or in the queue of the stage that it is assigned to. -/
def State.hasRecord (s : State) (core : Nat) : Bool :=
  (s.peekRing (.ready core)).isSome ||
  (match s.stageOf core with
   | some k => (s.peekRing (.stage (clusterOf core) k)).isSome
   | none => false)

/-- What a change of a ring's records means to the searching of the cores that it serves (R282). -/
def noteRing (r : RingId) (s : State) : State :=
  let full := fun (g : Nat) (s : State) => s.hasRecord g
  match r with
  | .ready g => noteFill full g s
  | .stage cl _ => (List.range 8).foldl (fun s i => noteFill full (cl * 8 + i) s) s

/-- `Enqueue` (R113): the ring with the record placed, or none when it is refused. A record keeps the enqueue stamp it
has (R282). -/
def enqueue (r : RingId) (rec : List Byte) (stamp : RecStamp) (s : State) : Option State :=
  match s.ring r with
  | none => none
  | some v =>
    let len := rec.length
    let pos := v.tail % v.size
    let pad := if v.size - pos < len then v.size - pos else 0
    if v.size < v.used + pad + len then none
    else
      let s := if 0 < pad then s.wr (v.base + pos) 8 ((pad / 16 - 1) * 16 + 2) else s
      let tail := (v.tail + pad) % 2 ^ 32
      let s := s.wr (v.base + tail % v.size) len (leNat rec)
      let s := addStamp r tail { stamp with enq := some (stamp.enq.getD (s.gtOf v.core)) } s
      some (noteRing r (setTail r (tail + len) s))

/-- The head record taken: HEAD passes it and the pads before it. Answers its bytes and its stamp. -/
def dequeue (r : RingId) (s : State) : Option (List Byte × RecStamp × State) :=
  match s.peekRing r with
  | none => none
  | some (pos, rec) =>
    match takeStamp r pos s with
    | (st, s) => some (rec, st, noteRing r (setHead r (pos + rec.length) s))

/-- A record sent to a ring by a thread, an engine or dispatch logic: it travels as a message (R113, R114). -/
def sendRecord (r : RingId) (rec : List Byte) (ctx : Option Nat) (stamp : RecStamp) (sender : Nat) (late : Bool)
    (s : State) : State :=
  s.send (.record r.target rec ctx stamp sender late)

/-- The names of senders (R114): slots by their key, copy engines and dispatch logic above them. -/
def engineSender (cluster : Nat) : Nat := 10000 + cluster
def dispatchSender (core : Nat) : Nat := 20000 + core

/-! ### Counter blocks (R123, R231) -/

/-- DECT and FET name a global core and a local offset (R123). -/
def dectCore (v : Nat) : Nat := bits v 20 9
def dectOff (v : Nat) : Nat := bits v 0 20

/-- The placement rules of a fill target (R123). DEDUCED: log 40. -/
def State.fetOk (s : State) (p v : Nat) : Bool :=
  decide (v < 2 ^ 29) && decide (dectCore v < 384) && decide (s.partOf (dectCore v) = p) &&
  decide (v % 8 = 0) && s.inGeneral (dectCore v) (dectOff v) 8 && !s.meetsWindow (dectCore v) (dectOff v) 8

/-! ### Waits that an event ends -/

/-- The contexts that satisfy a test on their wait, by number. -/
def State.waiters (s : State) (f : Nat → Wait → Bool) : List Nat :=
  s.ctxs.filterMap (fun c =>
    match c.2.wait with
    | some w => if f c.1 w then some c.1 else none
    | none => none)

/-- `wfe` ends for a context (R406). DEDUCED: log 48. -/
def wakeWfe (key : Nat) (s : State) : State :=
  match s.waitOf key with
  | some (.wfe _) => s.clearWait key
  | _ => s

/-- `wfe` ends for the contexts on the cores that satisfy a test (R406). DEDUCED: log 48. -/
def wakeWfeCores (f : Nat → Bool) (s : State) : State :=
  (s.waiters (fun _ w => match w.block with | .wfe _ => true | _ => false)).foldl (fun s key =>
    match (s.ctx key).slot with
    | some k => if f (k / 16) then wakeWfe key s else s
    | none => s) s

/-- A fill of a full/empty word wakes the `wfe` of its cluster (R406); at a halted cluster it is held (R277). -/
def fillAndWake (pa v src : Nat) (s : State) : State :=
  match regionOf pa with
  | .local g =>
    if s.halted (clusterOf g) then holdBeat (.fill pa v src) s
    else wakeWfeCores (fun c => clusterOf c = clusterOf g) (fillWord pa v src s)
  | _ => fillWord pa v src s

/-! ### The arrival of a record at its ring (R113, R114, R231) -/

/-- The die whose GT times a ring's refusals. -/
def RingId.die : RingId → Nat
  | .ready g => dieOf g
  | .stage cl _ => cl / 24

/-- The cluster of a ring. -/
def RingId.cluster : RingId → Nat
  | .ready g => clusterOf g
  | .stage cl _ => cl

/-- An earlier record of one sender to one ring is still held (R114). -/
def behindHeld (target sender : Nat) (held : List HeldRec) : Bool :=
  held.any (fun h => h.target = target && h.sender = sender)

/-- An earlier record of one sender to one ring is still on its way (R114). -/
def State.behindSent (s : State) (id target sender : Nat) : Bool :=
  s.net.any (fun m => decide (m.id < id) && match m.body with
    | .record t _ _ _ x _ => t = target && x = sender
    | _ => false)

/-- SRC of a record's log entry (R280), by its sender. -/
def senderSrc (sender : Nat) : Nat := if sender < 10000 then sender / 16 else if sender < 20000 then 0x2000 else sender - 20000

/-- What the entry of a record into its ring does beside: its log entry, and the end of the core's `wfe`s (R279, R406). -/
def recordEntered (r : RingId) (rec : List Byte) (sender : Nat) (s : State) : State :=
  let core := match s.ring r with
    | some v => v.core
    | none => 0
  wakeWfeCores (fun g => g = core) (logFlits core (senderSrc sender) 0 4 ((rec.length + 31) / 32) (leNat rec) s)

/-- A record offered to its ring for the first time: whether it is in, or is held behind an earlier record of its sender,
or after its refusal (R114). -/
def arriveRecord (h : HeldRec) (s : State) : Bool × State :=
  let r := RingId.ofTarget h.target
  if behindHeld h.target h.sender s.held then (false, { s with held := s.held ++ [h] })
  else
    match enqueue r h.bytes h.stamp s with
    | some s => (true, recordEntered r h.bytes h.sender s)
    | none =>
      (false, countRefused r
        { s with held := s.held ++ [{ h with since := some (s.gt r.die), headAt := (s.ring r).map (·.head) }] })

/-! ### Counter blocks (R123, R231) -/

/-- A record as software may offer it (R112, R232, R235): its header and its dword 1. -/
def recordShape (h d1 : Nat) : Bool :=
  bits h 6 2 = 0 &&
  match recKind h with
  | 1 => bits h 9 47 = 0 && (!recFr h || (bits h 4 2 = 0 && decide (d1 < 2 ^ 32)))
  | 3 => bits h 4 2 = 0 && bits h 8 56 = 0 && d1 = 0
  | 4 => bits h 8 48 = 0
  | _ => false

/-- A range that meets a stage queue of the governor of its cluster (R235, R236). -/
def State.meetsStage (s : State) (core off n : Nat) : Bool :=
  (List.range 4).any (fun k =>
    match s.ring (.stage (clusterOf core) k) with
    | some v => decide (v.base < localPa core off + n) && decide (localPa core off < v.base + v.size)
    | none => false)

/-- The placement rules of a counter block with its record (R123, R231). DEDUCED: log 40. -/
def State.dectOk (s : State) (p v : Nat) : Bool :=
  let g := dectCore v
  let off := dectOff v
  let n := 16 + recLen (s.rd (localPa g off + 16) 8)
  decide (v < 2 ^ 29) && decide (g < 384) && decide (s.partOf g = p) && decide (v % 16 = 0) &&
  s.inGeneral g off 32 && s.inGeneral g off n && !s.meetsWindow g off n && !s.meetsRing g off n && !s.meetsStage g off n

/-- The record of a counter block that a decrement would enqueue: one that software may not offer (R112, R232). -/
def State.badRecord (s : State) (dect : Nat) : Bool :=
  let a := localPa (dectCore dect) (dectOff dect)
  s.rd a 8 % 2 ^ 32 = 1 && !recordShape (s.rd (a + 16) 8) (s.rd (a + 24) 8)

/-- The decrement of a counter block, as one action at its memory (R231), with the latest of its decrementers' releases
(R77). The record that it enqueues goes to its ring as an arrival, behind the dequeues of the cycle (R113, R240): the
answer is its message. DEDUCED: log 40. -/
def decrement (dect ts : Nat) (ctx : Option Nat) (sender : Nat) (late : Bool) (s : State) : Option Nat × State :=
  let g := dectCore dect
  let a := localPa g (dectOff dect)
  if s.halted (clusterOf g) then (none, holdBeat (.decr dect ts sender) s) else
  let w := s.rd a 8
  let count := w % 2 ^ 32
  if count = 0 then (none, s.wr a 8 (setBits w 63 1 1))
  else
    let s := s.wr a 8 (w - 1)
    let afr := max ts (tget s.frontiers a)
    if count = 1 then
      let rec_ := natBytes (recLen (s.rd (a + 16) 8)) (s.rd (a + 16) (recLen (s.rd (a + 16) 8)))
      (some s.nextId, sendRecord (.ready g) rec_ ctx { afr := afr } sender late { s with frontiers := tdel s.frontiers a })
    else (none, { s with frontiers := tset s.frontiers a afr })

/-! ### What a small step of an instruction ends with -/

inductive MRes where
  | cont (c : Cont) (s : State)                  -- the next small step follows
  | block (b : Block) (c : Cont) (s : State)     -- it waits, and this small step is made again
  | past (b : Block) (c : Cont) (s : State)      -- it waits, and the next small step follows
  | again (b : Block) (s : State)                -- it waits, and the instruction executes again
  | trap (t : TrapInfo) (s : State)
  | stop (s : State)                             -- the context goes no further

end Sys2Proof.Machine
end

