-- ==== Sys2Proof/Machine/Herds.lean ====
section
/-! DEFINITION. Herds (R109, R110, R204 to R216, R366 to R377): the slab, the rendezvous table, and what each herd
instruction does once it has sealed or withdrawn. -/

namespace Sys2Proof.Machine

open Sys2Proof

/-! ### The slab (R109, R110, R205) -/

def State.hslab (s : State) (base : Nat) : Nat := s.ws base offHslab
def slabBase (h : Nat) : Nat := bits h 6 17 * 64
def slabQlast (h : Nat) : Nat := bits h 23 16
/-- HBASE as a query number (R204). -/
def State.hbase (s : State) (base : Nat) : Nat := bits (s.ws base offHbase) 8 8 * 256
def State.hbaseQb (s : State) (base : Nat) : Nat := bits (s.ws base offHbase) 8 8

/-- No byte of a cluster local range lies in a valid window of the core that holds it. -/
def State.clearOfWindows (s : State) (cluster la n : Nat) : Bool :=
  let here := min n (0x100000 - la % 0x100000)
  let g := cluster * 8 + la / 0x100000 % 8
  !s.meetsWindow g (la % 0x100000) here && (n ≤ here || !s.meetsWindow (g + 1) 0 (n - here))

/-- A valid slab (R110). -/
def State.slabOk (s : State) (cluster h : Nat) : Bool :=
  let n := 64 * (slabQlast h + 1)
  s.clusterGeneral cluster (slabBase h) n && s.clearOfWindows cluster (slabBase h) n

/-- The physical address of a record. -/
def slabRec (cluster h q : Nat) : Nat := clusterPa cluster (slabBase h + 64 * q)

/-- A member of a herd register above QLAST (R207). -/
def State.aboveQlast (s : State) (base reg : Nat) : Bool :=
  (setBitsOf 256 reg).any (fun i => slabQlast (s.hslab base) < s.hbase base + i)

/-- The first record of a herd register's members in a lost line, as its cause (R373). -/
def State.slabLost (s : State) (me : Me) (reg acc : Nat) : Option TrapInfo :=
  (setBitsOf 256 reg).findSome? (fun i =>
    let a := slabRec (clusterOf me.core) (s.hslab me.base) (s.hbase me.base + i)
    (s.lostIn a 64).map (fun l => s.mchk 0 (l * 128) acc))

/-! ### The rendezvous table (R212, R213) -/

/-- The set of a key. -/
def rdvSet (addr dom hb : Nat) : Nat := bits addr 3 8 ^^^ bits addr 11 8 ^^^ dom % 256 ^^^ hb

/-- The entry that a context owns, by its place. -/
def State.ownRdv (s : State) (me : Me) : Option (Nat × Rdv) :=
  (s.cluster (clusterOf me.core)).rdv.find? (fun e => e.2.ctx = me.key)

/-- An unsealed entry that a context owns (R215). -/
def State.ownsUnsealed (s : State) (me : Me) : Bool :=
  match s.ownRdv me with
  | some e => !e.2.sealed
  | none => false

/-- Seal, or withdraw, of the owner's entry (R213). -/
def rdvAction (withdraw : Bool) (me : Me) (s : State) : State :=
  match s.ownRdv me with
  | none => s
  | some (k, e) =>
    s.modCluster (clusterOf me.core) (fun c =>
      { c with rdv := if withdraw then tdel c.rdv k else tset c.rdv k { e with sealed := true } })

/-- The withdraw of a context wherever it lies: a kill, or a spill (R213, R258). -/
def withdrawOf (key : Nat) (s : State) : State :=
  let cl := (s.ctx key).cluster
  s.modCluster cl (fun c => { c with rdv := c.rdv.filter (fun e => e.2.ctx ≠ key) })

/-- The way that an entry takes (R212): the lowest invalid, else the lowest sealed, else the one installed longest
ago. -/
def rdvWay (t : Tbl Rdv) (set : Nat) : Nat :=
  let ways := (List.range 8).map (fun w => set * 8 + w)
  match ways.find? (fun k => !thas t k) with
  | some k => k
  | none =>
    match ways.find? (fun k => (tget t k).sealed) with
    | some k => k
    | none => ways.foldl (fun m k => if (tget t k).installed < (tget t m).installed then k else m) (set * 8)

/-- The team of a context. -/
def State.teamOf (s : State) (key : Nat) : Team := s.team (s.ctx key).cluster (s.ctx key).entry

/-- The partition and DOMID of a context's team, swapped out or resident (R190, R192). -/
def State.domOf (s : State) (key : Nat) : Nat × Nat :=
  let p := key / 2 ^ 24
  match (s.part p).waiting.find? (fun w => w.saved && w.members.contains key) with
  | some w => (p, w.domid)
  | none => ((s.teamOf key).part, (s.teamOf key).domid)

/-- `hmeet` after its withdraw (R214, R376): it leaves the rotation while its own deposit is accepted. -/
def doHmeet (me : Me) (d : WReg) (a : Word) (s : State) : State :=
  let cl := clusterOf me.core
  let dom := (s.teamOf me.key).domid
  let hb := s.hbaseQb me.base
  let addr := bits a.toNat 3 54
  let set := rdvSet a.toNat dom hb
  let t := (s.cluster cl).rdv
  let found := ((List.range 8).map (fun w => set * 8 + w)).find? (fun k =>
    thas t k && (let e := tget t k; e.addr = addr && e.dom = dom && e.hb = hb))
  match found with
  | some k =>
    let e := tget t k
    if e.sealed then
      let t := tdel t k
      install cl t (rdvWay t set) addr dom hb s
    else
      let hm := s.getH me.base .hm
      let s := s.send (.deposit e.ctx (offH .hm) 32 hm true me.core)
      let s := s.modCtx e.ctx (fun c => { c with deposits := c.deposits + 1 })
      let s := (s.setH me.base .hm 0).yieldTurns me.core me.slot
      answer s 1
  | none => install cl t (rdvWay t set) addr dom hb s
where
  answer (s : State) (v : Nat) : State := (s.setW me.base d (BitVec.ofNat 64 v)).setP me.base 0 (BitVec.ofNat 64 v)
  install (cl : Nat) (t : Tbl Rdv) (k addr dom hb : Nat) (s : State) : State :=
    let s := s.modCluster cl (fun c =>
      { c with rdv := tset t k { sealed := false, ctx := me.key, hb := hb, dom := dom, addr := addr, installed := s.nextId } })
    answer { s with nextId := s.nextId + 1 } 0

/-! ### Comparing (R206 to R208) -/

/-- The byte offset of a key slot; none for an invalid SLOT (R206). -/
def keySlot (t : Ty) (slot : Nat) : Option Nat :=
  if slot = 0 then some 0
  else if slot ≤ 5 then none
  else if t = .f64 ∧ slot % 2 = 1 then none
  else some (4 * slot)

/-- Where a member goes: found, or the direction it takes (R207). -/
inductive Dir where
  | found | left | right
  deriving DecidableEq, Repr

/-- One member compared with the node key, with NV for a signalling NaN (R207). A node key that is a NaN goes as `DEF`
says, where `vcmpm` gives a NaN threshold outcome 0 (R185, R218). DEDUCED: log 61. -/
def hcmpOne (t : Ty) (ge miss df : Bool) (v key : Nat) : Dir × Nat :=
  let x := valueOf t v
  let k := valueOf t key
  let fl := flagsInvalid (x.isSnan || k.isSnan)
  if miss || x.isNan || k.isNan then (if df then .right else .left, fl)
  else
    match x.cmp k with
    | some .eq => (if ge then .right else .found, fl)
    | some .lt => (.left, fl)
    | _ => (.right, fl)

/-- The three registers of a compare, and its flags. -/
structure HcmpAcc where
  m : Nat := 0
  x : Nat := 0
  f : Nat := 0
  flags : Nat := 0
  deriving DecidableEq, Repr

/-- `hcmp` after its seal (R207, R373): the members in ascending order. A signalling node key sets NV, be there members or
none. -/
def doHcmp (me : Me) (t : Ty) (ge : Bool) (key ctl : Word) (off : Nat) (s : State) : State :=
  let h := s.hslab me.base
  let df := bit ctl.toNat 1
  let keepRight := bit ctl.toNat 0
  let n := tyBytes t
  let node := key.toNat % 2 ^ t.bits
  let one := fun (acc : HcmpAcc) (i : Nat) =>
    let a := slabRec (clusterOf me.core) h (s.hbase me.base + i)
    let miss := off = 0 && bit (s.rd (a + 10) 2) 0
    match hcmpOne t ge miss df (s.rd (a + off) n) node with
    | (.found, fl) => { acc with f := acc.f + 2 ^ i, flags := acc.flags ||| fl }
    | (.left, fl) =>
      if keepRight then { acc with x := acc.x + 2 ^ i, flags := acc.flags ||| fl }
      else { acc with m := acc.m + 2 ^ i, flags := acc.flags ||| fl }
    | (.right, fl) =>
      if keepRight then { acc with m := acc.m + 2 ^ i, flags := acc.flags ||| fl }
      else { acc with x := acc.x + 2 ^ i, flags := acc.flags ||| fl }
  let members := setBitsOf 256 (s.getH me.base .hm)
  let r := members.foldl one { flags := flagsInvalid (valueOf t node).isSnan }
  let s := if members.isEmpty then s else noteRead me.base (s.gtOf me.core) s
  (((s.setH me.base .hm r.m).setH me.base .hx r.x).setH me.base .hf r.f).orFlags me.base r.flags

/-! ### Answering and counting (R209, R374) -/

def doHfound (me : Me) (v : Word) (s : State) : State :=
  let h := s.hslab me.base
  let q := s.hbase me.base
  (setBitsOf 256 (s.getH me.base .hf)).foldl (fun s i =>
    let a := slabRec (clusterOf me.core) h (q + i)
    let s := s.wr (a + 16) 8 v.toNat
    s.wr (a + 10) 2 (setBits (s.rd (a + 10) 2) 1 1 1)) s

def doHside (me : Me) (set : Bool) (v : Word) (off : Nat) (s : State) : State :=
  let h := s.hslab me.base
  let q := s.hbase me.base
  (setBitsOf 256 (s.getH me.base .hm)).foldl (fun s i =>
    let a := slabRec (clusterOf me.core) h (q + i) + off
    s.wr a 2 (if set then v.toNat % 2 ^ 16 else satTo (s.rd a 2 + v.toNat % 2 ^ 16) 0xFFFF)) s

/-! ### Splitting (R211, R375) -/

/-- The choice of a split: the core, the slot when it takes one, and the frame. DEDUCED: log 39. -/
def State.splitChoice (s : State) (core : Nat) : Option (Nat × Option Nat × Nat) :=
  let both := fun g => match (s.freeNamed g).head?, s.freeFrame g with
    | some k, some f => some (g, some k, f)
    | _, _ => none
  match both core with
  | some c => some c
  | none =>
    match ((List.range 8).map (fun i => clusterOf core * 8 + i)).findSome? both with
    | some c => some c
    | none =>
      match s.freeFrame core with
      | some f => some (core, none, f)
      | none => none

/-- The record of a thread dispatched into a frame (R232). -/
def frameRecord (ln frame num : Nat) : List Byte :=
  natBytes 16 (1 + 2 ^ 8 + ln * 2 ^ 56 + (frame * 2 ^ 24 + num) * 2 ^ 64)

/-- Room for a record in a ring (R113). -/
def State.ringRoom (s : State) (r : RingId) (len : Nat) : Bool :=
  match s.ring r with
  | none => false
  | some v =>
    let pos := v.tail % v.size
    let pad := if v.size - pos < len then v.size - pos else 0
    decide (v.used + pad + len ≤ v.size)

/-- `hsplit` in the cycle in which its release completes. -/
def doHsplit (me : Me) (d : WReg) (target : Word) (ts : Nat) (s : State) : State :=
  let c := s.ctx me.key
  let fail := fun (s : State) => s.setW me.base d 0
  match s.splitChoice me.core with
  | none => fail s
  | some (g, slot, frame) =>
    if slot.isNone && !s.ringRoom (.ready me.core) 16 then fail (countRefused (.ready me.core) s)
    else
      let n : NewCtx :=
        { kind := 2, pc := target, afr := ts, ln := c.ln, entry := c.entry, index := c.index
          ws := [(0, 128, s.rd me.base 128), (offH .hm, 32, s.getH me.base .hx), (offWid, 8, s.ws me.base offWid),
                 (offHbase, 8, s.ws me.base offHbase), (offPtroot, 8, s.ws me.base offPtroot),
                 (offHslab, 8, s.ws me.base offHslab)] }
      match dispatch g slot frame n s with
      | (num, s) =>
        let s := match slot with
          | some _ => s
          | none => wakeWfeCores (fun g => g = me.core)
              ((enqueue (.ready me.core) (frameRecord c.ln frame num) {} s).getD s)
        (s.setW me.base d (BitVec.ofNat 64 num)).setH me.base .hx 0

/-! ### Moving and inspecting (R210, R371, R372) -/

def hmovValue (op : HmovOp) (x y : Nat) : Nat :=
  match op with
  | .mov => x
  | .or => x ||| y
  | .and => x &&& y
  | .andn => x &&& (2 ^ 256 - 1 - y)

/-- The least query number at or above a bound whose bit is set (R372). -/
def hnextValue (reg hb from_ : Nat) : Nat :=
  match (setBitsOf 256 reg).find? (fun i => max from_ hb ≤ hb + i) with
  | some i => hb + i
  | none => 2 ^ 64 - 1

/-- A destination `hm` that the sources do not name (R215, R371). -/
def hmovBlind (op : HmovOp) (d a b : HReg) : Bool := d = .hm && a ≠ .hm && (op = .mov || b ≠ .hm)

/-- What a herd instruction does after its seal or withdraw. -/
def herdFinish (me : Me) (f : Finish) (c : Cont) (s : State) : MRes :=
  let hm := s.getH me.base .hm
  match f with
  | .hcmp t ge key ctl =>
    if s.aboveQlast me.base hm then .trap prot s
    else
      match s.slabLost me hm accRead with
      | some t => .trap t s
      | none => .cont c (doHcmp me t ge key ctl ((keySlot t (bits ctl.toNat 2 4)).getD 0) s)
  | .hfound a =>
    let hf := s.getH me.base .hf
    if s.aboveQlast me.base hf then .trap prot s
    else
      match s.slabLost me hf accRead with
      | some t => .trap t s
      | none => .cont c (doHfound me a s)
  | .hside set a off =>
    if s.aboveQlast me.base hm then .trap prot s
    else
      match s.slabLost me hm accRead with
      | some t => .trap t s
      | none => .cont c (doHside me set a off s)
  | .hinit a =>
    let s := s.setWs me.base offHbase (bits a.toNat 8 8 * 256)
    .cont c (((s.setH me.base .hm 0).setH me.base .hx 0).setH me.base .hf 0)
  | .hmov op d a b => .cont c (s.setH me.base d (hmovValue op (s.getH me.base a) (s.getH me.base b)))
  | .hpop d a => .cont c (s.setW me.base d (BitVec.ofNat 64 (popCount 256 (s.getH me.base a))))
  | .hnext d a b =>
    .cont c (s.setW me.base d (BitVec.ofNat 64 (hnextValue (s.getH me.base a) (s.hbase me.base) (s.getW me.base b).toNat)))
  | .hmeet d a => .cont c (doHmeet me d a s)
  | .hsplitStart d =>
    if s.getH me.base .hx = 0 then .cont { c with skip := true } (s.setW me.base d 0) else .cont c s
  | .hsplit d target => .cont c (if c.skip then s else doHsplit me d target c.ts s)
  | .fetchH b => .cont { c with data := [s.getH me.base b] } s
  | .loadH d => .cont c (s.setH me.base d (c.got.headD 0))
  | _ => .cont c s

end Sys2Proof.Machine
end

