-- ==== Sys2Proof/Machine/Launch.lean ====
section
/-! DEFINITION. Launches and teams (R219 to R226, R236): the header and its validity, the creation of a launch, the
placement of teams, the governor table, `spawn`, `decr` and `tbar` after their releases. -/

namespace Sys2Proof.Machine

open Sys2Proof

/-! ### The launch header (R220, R221) -/

/-- The bytes of a header as one number of 128 bytes. -/
def hdr (h off n : Nat) : Nat := h / 2 ^ (8 * off) % 2 ^ (8 * n)

def hdrWidths (h : Nat) : List Nat := (List.range 6).map (fun i => hdr h (16 + i) 1)
def hdrExtents (h : Nat) : List Nat := (List.range 6).map (fun i => hdr h (24 + 4 * i) 4)
def hdrTf (h : Nat) : Nat := hdr h 22 1

/-- The product of the extents before, and from, the team field (R221, R222). -/
def teamSize (tf : Nat) (xs : List Nat) : Nat := (xs.take tf).foldl (· * ·) 1
def teamCount (tf : Nat) (xs : List Nat) : Nat := (xs.drop tf).foldl (· * ·) 1

/-- The clusters of a mask. -/
def maskClusters (m : Nat) : List Nat := setBitsOf 48 m

/-! ### The governor table (R236) -/

/-- A governor table in a cluster that meets R236. -/
def State.govOk (s : State) (cl govt : Nat) : Bool :=
  let rd := fun o n => s.clusterRd cl (govt + o) n
  let nst := rd 0 1
  let p := s.partOf (cl * 8)
  let entryOk := fun k =>
    let e := fun o n => s.clusterRd cl (stageEntry govt k + o) n
    let size := 4096 * 2 ^ e 12 1
    decide (e 12 1 ≤ 4) && decide (e 13 1 ≤ 8) && decide (e 14 2 = 0) && decide (e 20 4 < e 16 4) &&
    decide (e 33 3 = 0) && decide (e 40 8 = 0) && decide (e 48 8 = 0) && decide (e 56 8 = 0) &&
    decide (e 8 4 < 2 ^ 23) && decide (e 8 4 % size = 0) &&
    s.inGeneral (cl * 8 + e 8 4 / 0x100000) (e 8 4 % 0x100000) size
  let cores := (List.range nst).map (fun k => s.clusterRd cl (stageEntry govt k + 32) 1)
  s.clusterGeneral cl govt 64 && decide (1 ≤ nst) && decide (nst ≤ 4) && s.clusterGeneral cl govt (64 + 64 * nst) &&
  decide (rd 1 1 ≤ 1) && decide (rd 2 2 = 0) && decide (1 ≤ rd 4 4) && decide (rd 4 4 ≤ 1000000) &&
  s.fetOk p (rd 8 8) && decide (s.clusterRd cl (govt + 16) 48 = 0) && (List.range nst).all entryOk &&
  disjointMasks cores 0
where
  disjointMasks : List Nat → Nat → Bool
    | [], _ => true
    | m :: r, used => decide (m &&& used = 0) && disjointMasks r (m ||| used)

/-- A valid header for a partition (R221). -/
def State.headerOk (s : State) (p h : Nat) : Bool :=
  let ws := hdrWidths h
  let xs := hdrExtents h
  let tf := hdrTf h
  let cl := maskClusters (hdr h 48 6)
  let z := teamSize tf xs
  let fieldOk := fun (wx : Nat × Nat) => decide (1 ≤ wx.2) && decide (wx.2 ≤ 2 ^ min wx.1 32)
  let drOk := fun c =>
    let d := hdr h 64 8
    let g := c * 8 + d / 0x100000
    s.inGeneral g (d % 0x100000) 128 && !s.meetsWindow g (d % 0x100000) 128 && !s.meetsRing g (d % 0x100000) 128
  decide (hdr h 23 1 = 0) && decide (hdr h 54 2 = 0) && decide (hdr h 74 2 = 0) && decide (hdr h 96 32 = 0) &&
  ws.all (fun w => decide (w ≤ 64)) && decide (ws.foldl (· + ·) 0 ≤ 64) && (ws.zip xs).all fieldOk && decide (tf ≤ 5) &&
  decide (1 ≤ z) && decide (z ≤ 128) && !cl.isEmpty && cl.all (fun c => decide (s.partOf (c * 8) = p)) &&
  (hdr h 80 8 = 0 || s.fetOk p (hdr h 80 8)) && decide (hdr h 64 8 < 2 ^ 23) && decide (hdr h 64 8 % 128 = 0) &&
  cl.all drOk && decide (hdr h 72 2 ≤ 65534) && decide (hdr h 76 4 ≤ 10000) &&
  decide (hdr h 56 8 < 2 ^ 39) && decide (hdr h 56 8 % 64 = 0) && decide (hdr h 88 8 < 2 ^ 23) &&
  (hdr h 88 8 = 0 || cl.all (fun c => s.govOk c (hdr h 88 8)))

/-- The launch that a header describes. -/
def launchOf (h : Nat) (pt : Word) (spawned : Bool) (ts : Nat) (command : Option (Nat × Nat)) : Launch :=
  { entry := BitVec.ofNat 64 (hdr h 0 8), arg := BitVec.ofNat 64 (hdr h 8 8), widths := hdrWidths h, tf := hdrTf h
    extents := hdrExtents h, cmask := hdr h 48 6, hsl := BitVec.ofNat 64 (hdr h 56 8), drbase := hdr h 64 8
    aflim0 := hdr h 72 2, quant := if hdr h 76 4 = 0 then 100 else hdr h 76 4, done := BitVec.ofNat 64 (hdr h 80 8)
    govt := hdr h 88 8, ptroot := pt, spawned := spawned, ts := ts, command := command }

/-! ### Creating a launch (R219, R223) -/

/-- The lowest free entry of a cluster's team table. -/
def State.freeEntry (s : State) (cl : Nat) : Option Nat :=
  (List.range 8).find? (fun j => !thas (s.cluster cl).teams j)

/-- The DOMIDs that live teams of a partition hold, those swapped out included (R190, R225). -/
def State.domids (s : State) (p : Nat) : List Nat :=
  s.clusters.flatMap (fun c => (c.2.teams.filter (fun t => t.2.part = p)).map (fun t => t.2.domid)) ++
  ((s.part p).waiting.filter (·.saved)).map (·.domid)

/-- The first free DOMID from `n` (R223). -/
def freeDomid (used : List Nat) : Nat → Nat → Nat
  | 0, n => n
  | fuel + 1, n => if used.contains n then freeDomid used fuel (if n = 65535 then 1 else n + 1) else n

/-- A DOMID taken for a team of a partition. -/
def takeDomid (p : Nat) (s : State) : Nat × State :=
  let used := s.domids p
  let d := freeDomid used (used.length + 1) (s.part p).nextDom
  (d, s.modPart p (fun x => { x with nextDom := if d = 65535 then 1 else d + 1 }))

/-- The domain record of a team as the hardware writes it (R192), in the local bytes of its place, be they beneath a
stash window that has been mapped over it or in a lost line; a halted cluster holds the write (R277).
DESIGN CHOICE: log 57. -/
def writeDrec (cl : Nat) (t : Team) (s : State) : State :=
  let v := t.domid + t.afnext.toNat * 2 ^ 16 + t.aflim.toNat * 2 ^ 32
  if s.halted cl then holdBeat (.poke (clusterPa cl t.drec) 16 v) s else s.wr (clusterPa cl t.drec) 16 v

/-- A new team in an entry of a cluster (R223), with its domain record. -/
def newTeam (cl j p ln : Nat) (l : Launch) (team : Option Nat) (s : State) : State :=
  match takeDomid p s with
  | (d, s) =>
    let t : Team := { part := p, ln := ln, team := team, domid := d, drec := l.drbase + 16 * j, afnext := 1
                      aflim := BitVec.ofNat 16 l.aflim0, hslab := l.hsl, placed := s.gtOf (cl * 8) }
    writeDrec cl t (s.setTeam cl j t)

/-- A launch accepted under a free number, of free choice (R219): its codelet teams, its governors and its teams in the queue; none when
something it needs is not free (R219, R223, R236). DESIGN CHOICE: log 9. -/
def createLaunch (p : Nat) (l : Launch) (s : State) : Option (Nat × State) :=
  let cls := maskClusters l.cmask
  match (List.range 256).filter (fun n => !thas (s.part p).launches n) with
  | [] => none
  | n :: ns =>
    if cls.any (fun c => (s.freeEntry c).isNone) then none
    else if 65535 < (s.domids p).length + cls.length then none
    else if l.govt ≠ 0 && cls.any (fun c => (s.cluster c).gov.ln.isSome) then none
    else
      let pick := s.choose (ns.length + 1)
      let ln := (n :: ns).getD pick.1 n
      let s := pick.2.modPart p (fun x =>
        { x with launches := tset x.launches ln l
                 waiting := x.waiting ++ [{ ln := ln, first := 0, upto := teamCount l.tf l.extents }] })
      let s := cls.foldl (fun s c => newTeam c ((s.freeEntry c).getD 0) p ln l none s) s
      let s := if l.govt = 0 then s
        else cls.foldl (fun s c => s.modCluster c (fun x => { x with gov := { ln := some (p, ln) } })) s
      some (ln, s)

/-! ### Work identifiers (R222) -/

/-- The digits of a number in mixed radix, lowest field first, packed into fields of the given widths. -/
def packDigits : List (Nat × Nat) → Nat → Nat → Nat
  | [], _, _ => 0
  | (w, x) :: r, k, o => k % x * 2 ^ o + packDigits r (k / x) (o + w)

/-- The team number of the `k`-th team, and the index of the `t`-th thread, of a launch. -/
def teamNumber (l : Launch) (k : Nat) : Nat := packDigits ((l.widths.drop l.tf).zip (l.extents.drop l.tf)) k 0
/-- The index of the `t`-th thread within its team (R224). DEDUCED: log 30. -/
def threadIndex (l : Launch) (t : Nat) : Nat := packDigits ((l.widths.take l.tf).zip (l.extents.take l.tf)) t 0
/-- The bits of WID below the team field. -/
def teamShift (l : Launch) : Nat := (l.widths.take l.tf).foldl (· + ·) 0

/-! ### Placement (R224, R225) -/

/-- The slots of a core that a thread could take, each with a free frame. -/
def State.roomOf (s : State) (core : Nat) : Nat := min (s.freeNamed core).length (s.freeFrames core).length
def State.roomIn (s : State) (cl : Nat) : Nat := (List.range 8).foldl (fun n i => n + s.roomOf (cl * 8 + i)) 0

/-- The core that R224's search gives from core `t mod 8`. DEDUCED: log 30. -/
def State.placeCore (s : State) (cl t : Nat) : Option Nat :=
  ((List.range 8).map (fun i => cl * 8 + (t + i) % 8)).find? (fun g => 0 < s.roomOf g)

/-- The cluster that takes a team of `z` threads: a halted one dispatches none (R277). -/
def State.placeCluster (s : State) (l : Launch) (z : Nat) : Option Nat :=
  (maskClusters l.cmask).find? (fun c => (s.freeEntry c).isSome && decide (z ≤ s.roomIn c) && !s.halted c)

/-- The registers that dispatch defines of a launch or spawned thread (R144). -/
def threadCtx (l : Launch) (ln entry u t : Nat) : NewCtx :=
  let idx := threadIndex l t
  { kind := if l.spawned then 3 else 0, pc := l.entry, afr := l.ts, ln := ln, entry := entry, index := idx
    ws := [(0, 8, l.arg.toNat), (offWid, 8, (u * 2 ^ teamShift l + idx) % 2 ^ 64), (offPtroot, 8, l.ptroot.toNat),
           (offHslab, 8, l.hsl.toNat)] }

/-- A fresh team placed in a cluster. -/
def placeFresh (p ln k cl : Nat) (l : Launch) (s : State) : State :=
  let j := (s.freeEntry cl).getD 0
  let u := teamNumber l k
  let s := newTeam cl j p ln l (some u) s
  (List.range (teamSize l.tf l.extents)).foldl (fun s t =>
    let n := threadCtx l ln j u t
    match s.placeCore cl n.index with
    | none => s
    | some g =>
      match (s.freeNamed g).head?, s.freeFrame g with
      | some k, some f => (dispatch g (some k) f n s).2
      | _, _ => s) s

/-- A lost line of a context image. -/
def State.imageLost (s : State) (image : Nat) : Option Nat :=
  ((List.range 32).map (fun i => image + 128 * i)).find? (fun a => (s.line (a / 128)).lost)

/-- A context whose workspace lies in a lost line is fatal (R257). -/
def fatalLost (key core pa : Nat) (s : State) : State :=
  let t := s.mchk 0 pa accRead
  let pc := match s.baseOf key with
    | some b => s.wsRd b offPc 8
    | none => 0
  let at_ := (s.ctx key).last
  fatal key (at_ / 16) (at_ % 16) (packFields (t.fields pc pc (s.gtOf core))) (s.gtOf core) s

/-- The lines of a workspace logged as they are brought into a frame of a core (R279): memory replies. -/
def logImage (key core b v : Nat) (s : State) : State :=
  (List.range 32).foldl (fun s i =>
    let src := match regionOf b with
      | .local g => g
      | _ => s.homeSrc (b / 128 + i)
    logFlits core src (key % 2 ^ 24) 1 4 (v / 2 ^ (1024 * i) % 2 ^ 1024) s) s

/-- A context's workspace brought into a frame of a core (R252), logged there (R279), and its image block returned to the
pool. One that leaves another core's frame for it gives up its rendezvous entry (R213). -/
def bringIn (key core frame : Nat) (s : State) : State :=
  match s.baseOf key with
  | none => s
  | some b =>
    if b = wsBase core frame then s
    else
      let v := match (s.ctx key).loc with
        | .hbm _ => (List.range 32).foldl (fun n i => n + s.hwRead (b + 128 * i) 128 * 2 ^ (1024 * i)) 0
        | _ => s.rd b 4096
      let s := match (s.ctx key).loc with
        | .hbm img => s.modPart (key / 2 ^ 24) (fun p => { p with pool := p.pool ++ [img] })
        | _ => withdrawOf key s
      setLoc key (.frame core frame) (logImage key core b v ((readLines b 4096 s).store (wsBase core frame) 4096 v))

/-- A saved context resumed where it stopped: filled into the frame that R252 gives it, or fatal when its image, or the
frame that it leaves, is in a lost line (R257). One that leaves a cluster gives up its rendezvous entry there (R213). -/
def swapInOne (cl j key : Nat) (s : State) : State :=
  let s := if (s.ctx key).cluster = cl then s else withdrawOf key s
  let s := s.modCtx key (fun c => { c with cluster := cl, entry := j })
  match s.placeCore cl (s.ctx key).index with
  | none => s
  | some g =>
    let here := match (s.ctx key).loc with
      | .frame x f => if x = g then some f else none
      | _ => none
    let lost := match (s.ctx key).loc with
      | .hbm image => s.imageLost image
      | .frame x f => if x = g then none else (s.lostIn (wsBase x f) 4096).map (· * 128)
      | _ => none
    match lost, (s.freeNamed g).head?, (match here with | some f => some f | none => s.freeFrame g) with
    | some a, _, _ => fatalLost key g a s
    | none, some k, some f => runOn g k key (bringIn key g f s)
    | _, _, _ => s

/-- A team swapped in: its record and pair restored, and every context resumed where it stopped (R192, R225, R252). -/
def placeSaved (p cl : Nat) (l : Launch) (w : TeamWait) (s : State) : State :=
  let j := (s.freeEntry cl).getD 0
  let record := s.hwRead w.image 16
  let t : Team := { part := p, ln := w.ln, team := some w.team, domid := w.domid, drec := l.drbase + 16 * j
                    afnext := BitVec.ofNat 16 (hdr record 2 2), aflim := BitVec.ofNat 16 (hdr record 4 2)
                    hslab := l.hsl, placed := s.gtOf (cl * 8), members := w.members }
  let s := s.modPart p (fun x => { x with pool := x.pool ++ [w.image] })
  let s := s.setTeam cl j t
  let s := s.wr (clusterPa cl t.drec) 16 record
  w.members.foldl (fun s key => swapInOne cl j key s) s

/-- Whether a saved team can be swapped in now: no workspace between its places, no deposit accepted for a context that
leaves its frame (R213), and nothing of its images in a half that the host holds, which is snooped (R67). -/
def swapInReady (w : TeamWait) (s : State) : Bool × State :=
  let images := w.image :: w.members.filterMap (fun k => match (s.ctx k).loc with | .hbm img => some img | _ => none)
  let quiet := w.members.all (fun k => s.delivers k && (s.ctx k).deposits = 0)
  images.foldl (fun (r : Bool × State) img =>
    match snoopRange img 4096 false r.2 with
    | (ok, s) => (r.1 && ok, s)) (quiet, s)

/-- The head of a partition's placement queue placed; none while no cluster has room (R224, R225), or no DOMID is free
(R190). The launches of a partition share one queue, in the order in which their teams came to wait.
DESIGN CHOICE: log 58. -/
def placeHead (p : Nat) (s : State) : Option State :=
  match (s.part p).waiting with
  | [] => none
  | w :: rest =>
    let l := tget (s.part p).launches w.ln
    if w.saved then
      match s.placeCluster l w.members.length with
      | none => none
      | some cl =>
        match swapInReady w s with
        | (true, s) => some (placeSaved p cl l w (s.modPart p (fun x => { x with waiting := rest })))
        | (false, s) => some s
    else
      match s.placeCluster l (teamSize l.tf l.extents) with
      | none => none
      | some cl =>
        if 65535 ≤ (s.domids p).length then none
        else
          let rest := if w.first + 1 < w.upto then { w with first := w.first + 1 } :: rest else rest
          some (placeFresh p w.ln w.first cl l (s.modPart p (fun x => { x with waiting := rest })))

/-! ### The team barrier (R226) -/

/-- The members that a barrier counts: live launch and spawned threads. -/
def State.barrierMembers (s : State) (t : Team) : List Nat :=
  t.members.filter (fun k =>
    match s.baseOf k with
    | some b => (let k := bits (s.wsRd b offCtxn 8) 24 3; k = 0 || k = 3)
    | none => false)

/-- The barrier opens: every waiter passes its `tbar` with its acquire (R77, R226). -/
def openBarrier (t : Team) (s : State) : State :=
  let ms := (s.barrierMembers t).filter (fun k => (s.ctx k).barrierTs.isSome)
  let ts := ms.foldl (fun m k => max m ((s.ctx k).barrierTs.getD 0)) 0
  ms.foldl (fun s k =>
    match s.baseOf k with
    | none => s
    | some b =>
      let afr := max (max (s.wsRd b offAfr 8) (s.wsRd b offLrs 8)) ts
      let s := hwWrite (b + offAfr) 8 afr s
      let s := hwWrite (b + offPc) 8 ((s.wsRd b offPc 8 + 8) % 2 ^ 64) s
      s.modCtx k (fun c => { c with barrierTs := none, wait := none })) s

/-! ### What task instructions do after their release -/

/-- `spawn`, `decr` and `tbar` (R388, R389, R398), with the release completed. The answer of
`spawn` is logged as a reply of its header's home. DEDUCED: log 40. DESIGN CHOICE: log 15. -/
def taskFinish (me : Me) (f : Finish) (c : Cont) (s : State) : MRes :=
  match f with
  | .spawn d =>
    let h := c.got.foldr (fun x acc => x + acc * 2 ^ 256) 0
    let p := s.partOf me.core
    let r := if s.headerOk p h then createLaunch p (launchOf h (s.ptroot me.base) true c.ts none) s else none
    let answer := fun (v : Nat) (s : State) =>
      let src := s.homeSrc ((c.elems.headD {}).pa / 128)
      (logFlits me.core src (me.key % 2 ^ 24) 1 1 v s).setW me.base d (BitVec.ofNat 64 v)
    match r with
    | some (ln, s) => .cont c (answer (ln + 1) s)
    | none => .cont c (answer 0 s)
  | .decr dt =>
    let g := dectCore dt.toNat
    if s.halted (clusterOf g) then .block (.halted (clusterOf g)) c (holdBeat (.access me.key) s)
    else
      match s.lostIn (localPa g (dectOff dt.toNat)) 8 with
      | some l => .trap (s.mchk 0 (l * 128) accAtomic) s
      | none =>
        if s.badRecord dt.toNat then .trap prot s
        else
          match decrement dt.toNat c.ts (some me.key) me.slot true s with
          | (refused, s) =>
            let s := s.modCtx me.key (fun x => { x with sign := satTo (x.sign + 1) (2 ^ 64 - 1), lastdt := dt })
            match refused with
            | some id => .past (.ring id) c s
            | none => .cont c s
  | .tbar => .past .barrier c (s.modCtx me.key (fun x => { x with barrierTs := some c.ts }))
  | _ => .cont c s

end Sys2Proof.Machine
end

