-- ==== Sys2Proof/Machine/Records.lean ====
section
/-! DEFINITION. What instructions do in the local memories of their cluster beside their accesses: affine lists (R379,
R384), records read, taken and stolen (R112, R232 to R235, R240, R392, R393), and where they travel for it (R96). -/

namespace Sys2Proof.Machine

open Sys2Proof

/-! ### Affine lists and records in the local memory of the cluster (R96, R191, R192, R379, R384, R393) -/

/-- The domain of a context's team. -/
def State.domain (s : State) (key : Nat) : Domain :=
  let t := s.teamOf key
  { dom := t.domid, next := t.afnext.toNat, lim := t.aflim.toNat }

/-- The pair of a team changed, with NEXT and LIM of its domain record as one 4-byte write (R191, R192), in the local
bytes of its place as `writeDrec` has them. DESIGN CHOICE: log 57. -/
def setPair (cl j : Nat) (next lim : BitVec 16) (s : State) : State :=
  let t := { s.team cl j with afnext := next, aflim := lim }
  (s.setTeam cl j t).wr (clusterPa cl (t.drec + 2)) 4 (next.toNat + lim.toNat * 2 ^ 16)

/-- The form operands of an instruction, with the checks of R189 and R190; none is a `#PROT`. -/
def State.forms (s : State) (me : Me) (rs : List AfReg) : Option (List Form) :=
  match rs.mapM (fun r => parseForm (s.getAf me.base r)) with
  | none => none
  | some fs => if fs.all (fun f => f.dom = 0 || f.dom = (s.domain me.key).dom) then some fs else none

/-- A slot with the walks that its instruction has waited for, as it reaches the local memory of its cluster. -/
def slotAsker (me : Me) (c : Cont) : Asker := { me := me, walked := c.walked }

/-- The symbol list of `afpack` and `afunpk`, with the checks 3 and 4 of R384. DEDUCED: log 17. -/
def readList (me : Me) (c : Cont) (b : WReg) (s : State) : Local Nat × State :=
  match engineRd (slotAsker me c) (clusterOf me.core) (s.getW me.base b).toNat 32 s with
  | (.got l, s) => if listOk l then (.got l, s) else (.trap prot, s)
  | r => r

/-- `afpack` and `afunpk` with their list. -/
def listFinish (me : Me) (f : Finish) (c : Cont) (s : State) : MRes :=
  match f with
  | .afpack t d a b =>
    match s.forms me [a] with
    | some [x] =>
      match readList me c b s with
      | (.got l, s) => .cont c (s.setV me.base d (BitVec.ofNat 512 (valAfpack (t = .bf16) x l)))
      | (.trap t, s) => .trap t s
      | (.later b, s) => .block b c s
    | _ => .trap prot s
  | .afunpk d a b =>
    match readList me c b s with
    | (.got l, s) =>
      match valAfunpk (s.domain me.key) (s.getV me.base a).toNat l with
      | .trap t => .trap t s
      | .form v _ => .cont c (s.setAf me.base d v)
    | (.trap t, s) => .trap t s
    | (.later b, s) => .block b c s
  | _ => .cont c s

/-! ### Records (R112, R232, R234, R235) -/

/-- A live launch with a codelet team in a cluster (R223, R233). -/
def State.codeletIn (s : State) (p ln cl : Nat) : Bool :=
  thas (s.part p).launches ln && (s.cluster cl).teams.any (fun t => t.2.part = p && t.2.ln = ln && t.2.team.isNone)

/-- A launch that holds the governor of a cluster (R236). DEDUCED: log 42. -/
def State.holdsGov (s : State) (p ln cl : Nat) : Bool := (s.cluster cl).gov.ln = some (p, ln)

/-- The target that the word of `renq` names (R234): a core's ring, or a stage of a cluster. -/
def renqTarget (cl : Nat) (w : Word) : Option RingId :=
  let v := w.toNat
  if v / 2 ^ 15 % 2 = 0 then (if v < 384 then some (.ready v) else none)
  else if v / 2 ^ 16 = 0 ∧ v / 4 % 2 ^ 13 = 0 then some (.stage cl (v % 4)) else none

/-- The checks 4 and 5 of R392; none is a `#PROT`. DEDUCED: log 42. -/
def State.renqPlace (s : State) (me : Me) (h d1 : Nat) (w : Word) : Option RingId :=
  let p := s.partOf me.core
  let cl := clusterOf me.core
  if !recordShape h d1 then none
  else
    match renqTarget cl w with
    | none => none
    | some (.ready g) =>
      if s.partOf g ≠ p ∨ recKind h ≠ 1 ∨ recFr h then none
      else if s.codeletIn p (recLn h) (clusterOf g) then some (.ready g) else none
    | some (.stage c k) =>
      if recKind h = 1 then none
      else if !s.holdsGov p (if recKind h = 3 then (s.ctx me.key).ln else recLn h) cl then none
      else if (s.ring (.stage c k)).isSome then some (.stage c k) else none

/-- `renq` with its record (R392): the bytes as the window that aliases them gives them (R107), the checks, the offer. -/
def renqFinish (me : Me) (v : Nat) (w : Word) (c : Cont) (s : State) : MRes :=
  let cl := clusterOf me.core
  match engineRd (slotAsker me c) cl v 16 s with
  | (.trap t, s) => .trap t s
  | (.later b, s) => .block b c s
  | (.got h, s) =>
    let n := recLen h
    if !s.clusterGeneral cl v n then .trap prot s
    else
      match engineRd (slotAsker me c) cl v n s with
      | (.trap t, s) => .trap t s
      | (.later b, s) => .block b c s
      | (.got r, s) =>
        match s.renqPlace me (r % 2 ^ 64) (r / 2 ^ 64 % 2 ^ 64) w with
        | none => .trap prot s
        | some ring => .past (.ring s.nextId) c (sendRecord ring (natBytes n r) (some me.key) {} me.slot false s)

/-- `rdeq` (R234, R393): the head record of the core's ring taken and stored in one action, its length written. A place
that faults, or must be waited for, leaves the record in its ring. -/
def rdeqFinish (me : Me) (d : WReg) (v : Nat) (c : Cont) (s : State) : MRes :=
  let nothing := MRes.cont c (s.setW me.base d 0)
  match dequeue (.ready me.core) s with
  | none => nothing
  | some (rec, st, taken) =>
    if recFr (leNat rec) then nothing
    else
      let w := s.writerOf me
      let n := rec.length
      match engineWr (slotAsker me c) (clusterOf me.core) v n (leNat rec) w.1 w.2 s with
      | (.trap t, s) => .trap t s
      | (.later b, s) => .block b c s
      | (.got _, _) =>
        match engineWr (slotAsker me c) (clusterOf me.core) v n (leNat rec) w.1 w.2 taken with
        | (.got vts, s) =>
          let now := s.gtOf me.core
          let s := noteWrite me.key 0 vts.die0 now (noteWrite me.key 1 vts.die1 now (noteWait me.core st s))
          .cont c (s.setW me.base d (BitVec.ofNat 64 n))
        | (_, s) => .cont c s

/-- A record moved from the head of one ready ring to the tail of another; none when R240 makes it fail. -/
def moveRecord (from_ to_ : Nat) (s : State) : Option State :=
  match dequeue (.ready from_) s with
  | none => none
  | some (rec, st, taken) =>
    let h := leNat rec
    if recFr h || !s.codeletIn (s.partOf to_) (recLn h) (clusterOf to_) then none
    else (enqueue (.ready to_) rec st taken).map (fun s =>
      if from_ = to_ then s else recordEntered (.ready to_) rec (16 * from_) s)

/-- `steal` (R240, R395), its answer logged (R279); at a halted cluster it is held (R277). -/
def stealFinish (me : Me) (d : WReg) (v : Nat) (c : Cont) (s : State) : MRes :=
  if s.halted (clusterOf v) then .block (.halted (clusterOf v)) c (holdBeat (.access me.key) s)
  else
    let done := fun (r : Nat) (s : State) =>
      let s := if v = me.core then s else logFlits me.core v (me.key % 2 ^ 24) 1 1 r s
      MRes.cont c (s.setW me.base d (BitVec.ofNat 64 r))
    match moveRecord v me.core s with
    | some s =>
      done 1 (wakeWfeCores (fun g => g = me.core)
        (s.modCore me.core (fun x => { x with stealok := satTo (x.stealok + 1) (2 ^ 64 - 1) })))
    | none => done 0 (s.modCore me.core (fun x => { x with stealfail := satTo (x.stealfail + 1) (2 ^ 64 - 1) }))

/-- The core that holds a cluster local address. -/
def localCore (me : Me) (la : Nat) : Nat := clusterOf me.core * 8 + la / 0x100000 % 8

/-- What an instruction reaches in the local memories of other cores: the core, and the reply's flits and data. A `steal`
acts behind the slots of the cycle, whichever ring it names (R240). DEDUCED: log 18. -/
def State.farPlaces (s : State) (me : Me) (f : Finish) : List (Nat × Nat × Nat) :=
  let records := fun (reg flits : Nat) =>
    if s.aboveQlast me.base reg then []
    else (setBitsOf 256 reg).map (fun i =>
      let a := slabRec (clusterOf me.core) (s.hslab me.base) (s.hbase me.base + i)
      ((a - localBase) / 0x100000, flits, if flits = 2 then s.rd a 64 else 0))
  let la := fun (r : WReg) => (s.getW me.base r).toNat
  let all : List (Nat × Nat × Nat) := match f with
    | .hcmp .. => records (s.getH me.base .hm) 2
    | .hside .. => records (s.getH me.base .hm) 1
    | .hfound _ => records (s.getH me.base .hf) 1
    | .afpack _ _ _ b | .afunpk _ _ b => [(localCore me (la b), 1, s.clusterRd (clusterOf me.core) (la b) 32)]
    | .decr dt => [(dectCore dt.toNat, 1, 0)]
    | .rdeq _ v => [(localCore me v, 1, 0), (localCore me (v + 63), 1, 0)]
    | .renq v _ => [(localCore me v, 2, s.clusterRd (clusterOf me.core) v 64), (localCore me (v + 63), 1, 0)]
    | _ => []
  match f with
  | .steal _ v => [(v, 0, 0)]
  | _ => (all.filter (fun p => p.1 ≠ me.core)).foldl (fun acc p => if acc.any (fun q => q.1 = p.1) && p.2.2 = 0 then acc else acc ++ [p]) []

end Sys2Proof.Machine
end

