-- ==== Sys2Proof/Machine/Issue.lean ====
section
/-! DEFINITION. The issue of `cpy`, `gbin` and `binr` (R116 to R119, R123, R128, R361, R362): descriptors, shapes and
their checks, and the acceptance of an operation on its channel. -/

namespace Sys2Proof.Machine

open Sys2Proof

/-! ### Descriptors and shapes (R117, R118, R128) -/

/-- The fields of a record held as one number: `n` bytes at an offset. -/
def fld (d off n : Nat) : Nat := d / 2 ^ (8 * off) % 2 ^ (8 * n)

/-- A dimension of a shape record. -/
def dimOf (r k : Nat) : Dim :=
  let b := 32 + 32 * k
  { ext := fld r b 4, lo := fld r (b + 4) 4, hi := fld r (b + 8) 4, sstr := toSigned 64 (fld r (b + 16) 8)
    dstr := toSigned 64 (fld r (b + 24) 8) }

/-- NDIM and the element size of a header. -/
def shapeNdim (r : Nat) : Nat := bits r 0 4
def shapeEsize (r : Nat) : Nat := 2 ^ bits r 4 3
def shapeDims (r : Nat) : List Dim := (List.range (shapeNdim r)).map (dimOf r)

/-- The elements of a shape. -/
def dimCount (ds : List Dim) : Nat := ds.foldl (fun n d => n * d.ext) 1

/-- The address of an element and whether it is in bounds (R118): source, destination. -/
def elemAddr (src dst : Nat) : List Dim → Nat → Nat × Nat × Bool
  | [], _ => (src, dst, true)
  | d :: ds, lam =>
    let i := lam % d.ext
    let r := elemAddr (wrapInt 64 (src + i * d.sstr)) (wrapInt 64 (dst + i * d.dstr)) ds (lam / d.ext)
    (r.1, r.2.1, r.2.2 && decide (d.lo ≤ i) && decide (i < d.hi))

/-- The linear index of the first in-bounds element; none when no element is in bounds. -/
def firstIn (ds : List Dim) : Option Nat :=
  if ds.any (fun d => d.hi ≤ d.lo) then none else some (go ds 1)
where
  go : List Dim → Nat → Nat
    | [], _ => 0
    | d :: ds, w => d.lo * w + go ds (w * d.ext)

/-- The bytes of a fill pattern, and the pattern; none for an undefined code (R120). -/
def fillPattern : Nat → Option (Nat × Nat)
  | 0 => some (1, 0)
  | 1 => some (4, 0x7FC00000)
  | 2 => some (2, 0x7FC0)
  | 3 => some (2, 0x7E00)
  | 4 => some (1, 0x7F)
  | 5 => some (1, 0x7E)
  | 6 => some (1, 0)
  | _ => none

/-- A pattern repeated across an element, low byte first. -/
def fillValue (code esize : Nat) : Nat :=
  match fillPattern code with
  | some (w, v) => (List.range (esize / w)).foldl (fun acc i => acc + v * 2 ^ (8 * w * i)) 0
  | none => 0

/-- The rule against overlapping destination elements (R119 check 4). -/
def dstApart (esize : Nat) (ds : List Dim) : Bool :=
  let xs := (ds.filter (fun d => 1 < d.ext)).map (fun d => (d.dstr.natAbs, d.ext))
  match sortByFst xs with
  | [] => true
  | x :: r => decide (esize ≤ x.1) && chain x r
where
  insFst (x : Nat × Nat) : List (Nat × Nat) → List (Nat × Nat)
    | [] => [x]
    | y :: r => if x.1 < y.1 then x :: y :: r else y :: insFst x r
  sortByFst (l : List (Nat × Nat)) : List (Nat × Nat) := l.foldl (fun acc x => insFst x acc) []
  chain (x : Nat × Nat) : List (Nat × Nat) → Bool
    | [] => true
    | y :: r => decide (x.1 * x.2 ≤ y.1) && chain y r

/-- R119 check 3 of a descriptor and its shape. -/
def copyFieldsOk (d r : Nat) : Bool :=
  let ds := shapeDims r
  let es := shapeEsize r
  decide (fld d 40 24 = 0) && decide (fld d 20 1 < 32) && (decide (fld d 21 1 < 64) || decide (fld d 21 1 = 255)) &&
  decide (fld d 23 1 < 4) && decide (1 ≤ shapeNdim r) && decide (shapeNdim r ≤ 8) && decide (bits r 4 3 ≤ 5) &&
  decide (fld r 0 32 < 2 ^ 7) &&
  (match fillPattern (fld d 22 1) with | some (w, _) => decide (w ≤ es) | none => false) &&
  (List.range (shapeNdim r)).all (fun k => fld r (32 + 32 * k + 12) 4 = 0) &&
  ds.all (fun x => decide (1 ≤ x.ext) && decide (x.lo ≤ x.hi) && decide (x.hi ≤ x.ext)) && decide (dimCount ds ≤ 2 ^ 32)

/-- A translation by an engine: through the cluster's L2 TLB and the die's walkers, under the operation's `PTROOT` and
privilege (R121). -/
def engineXlate (cl : Nat) (pt : Word) (priv : Bool) (va acc : Nat) (need : Need) (s : State) : XlateEnd × State :=
  xlateChecked (cl * 8) pt priv va acc need s

/-! ### Channels (R116, R122, R124) -/

/-- The bytes of pointer range that an operation covers. -/
def opRange : OpKind → Nat
  | .copy _ _ es _ ds => es * dimCount ds
  | _ => 0

/-- The pointer value at which the next operation's range begins. -/
def Chan.rangeEnd (c : Chan) : Nat :=
  match c.ops.getLast? with
  | some o => (o.start + opRange o.kind) % 2 ^ 64
  | none => if c.fault.isSome then c.faultEnd else c.ptr

/-- `CHST` (R124). -/
def Chan.status (c : Chan) : Nat :=
  (if c.fault.isSome then 2 else if c.ops.isEmpty then 0 else 1) * 2 ^ 62 + c.ops.length * 2 ^ 57 + c.cause * 2 ^ 48
    + c.bytes % 2 ^ 48

/-- The number an operation takes on its timeline (R119). -/
def takeNumber (cl tl : Nat) (s : State) : Nat × State :=
  let t := s.tl cl tl
  (t.issued + 1, s.setTl cl tl { t with issued := t.issued + 1 })

/-- An operation accepted on its channel (R116, R119). -/
def acceptOp (cl ch tl : Nat) (o : ChanOp) (s : State) : State :=
  let r : Option (Nat × Nat) × State :=
    if tl = 255 then (none, s) else let n := takeNumber cl tl s; (some (tl, n.1), n.2)
  let c := r.2.chan cl ch
  r.2.setChan cl ch { c with ops := c.ops ++ [{ o with tl := r.1, start := c.rangeEnd }] }

/-! ### Issue checks (R119, R123, R361, R362) -/

/-- A context, or a command, that issues an operation. -/
structure Issuer where
  cl : Nat
  pt : Word
  priv : Bool
  codelet : Bool
  ctx : Nat
  command : Option (Nat × Nat) := none
  who : Asker                          -- a slot, or the command's engine
  deriving Repr

/-- What an issue ends with. -/
inductive Issue where
  | accept (ch tl : Nat) (o : ChanOp)
  | trap (t : TrapInfo)
  | later (b : Block)
  deriving Repr

/-- A descriptor or a shape record read: its alignment, its place, its lost lines (R119 checks 1 and 2). -/
def readRecord (a : Asker) (cl addr n al : Nat) (wide : Bool) (s : State) : Local Nat × State :=
  if addr % al ≠ 0 then (.trap (align addr al accRead), s)
  else if wide || !clusterAddrOk addr || !s.clusterGeneral cl addr n then (.trap prot, s)
  else engineRd a cl addr n s

/-- The targets of the completion actions that a descriptor's FLAGS ask for (R123). -/
def State.targetsOk (s : State) (cl flags dect fet : Nat) : Bool :=
  let p := s.partOf (cl * 8)
  (!bit flags 0 || s.dectOk p dect) && (!bit flags 1 || s.fetOk p fet)

/-- A first translation at issue and the window it lands in (R119 checks 6 and 7): through the slot's core, or, for a
command, by the engine. -/
def firstPlace (i : Issuer) (va acc : Nat) (need : Need) (s : State) : Local Nat × State :=
  if i.who.me.key = 0 then
    match engineXlate i.cl i.pt i.priv va acc need s with
    | (.ok l, s) => (.got (l.phys (va % 2 ^ 57)), s)
    | (.trap t, s) => (.trap t, s)
    | (_, s) => (.later .recheck, s)
  else
    match foundXlate i.who.walked i.who.me.core i.pt va acc s with
    | some (.leaf l) =>
      (if l.permits need i.priv then .got (l.phys (va % 2 ^ 57)) else .trap { cause := .prot, addr := va, acc := acc }, s)
    | some (.trap t) => (.trap t, s)
    | none => (.later (.walk i.who.me.core i.pt va acc), s)

def isHostPa (pa : Nat) : Bool := match regionOf pa with | .host => true | _ => false
def isPeerPa (pa : Nat) : Bool := match regionOf pa with | .peer _ => true | _ => false

/-- Checks 6 and 7 of R119 for a copy whose fields are sound. -/
def placesOk (i : Issuer) (src dst fill : Nat) (ds : List Dim) (s : State) : Local Unit × State :=
  let first := firstIn ds
  let rd := first.map (fun f => (elemAddr src dst ds f).1)
  let wr := if fill = 6 then first.map (fun f => (elemAddr src dst ds f).2.1) else some (elemAddr src dst ds 0).2.1
  let go := fun (va : Option Nat) (acc : Nat) (need : Need) (s : State) =>
    match va with
    | none => (Local.got (α := Option Nat) none, s)
    | some va =>
      match firstPlace i va acc need s with
      | (.got pa, s) => (.got (some pa), s)
      | (.trap t, s) => (.trap t, s)
      | (.later b, s) => (.later b, s)
  match go rd accRead { rd := true } s with
  | (.trap t, s) => (.trap t, s)
  | (.later b, s) => (.later b, s)
  | (.got a, s) =>
    match go wr accWrite { w := true } s with
    | (.trap t, s) => (.trap t, s)
    | (.later b, s) => (.later b, s)
    | (.got b, s) =>
      let bad := (a.map isHostPa).getD false || (b.map isHostPa).getD false ||
        ((a.map isPeerPa).getD false && (b.map isPeerPa).getD false)
      (if bad then .trap prot else .got (), s)

/-- A shape record read (R118): its header first, which gives its length. -/
def readShape (a : Asker) (cl sh : Nat) (s : State) : Local Nat × State :=
  let wide := decide (2 ^ 23 ≤ sh)
  match readRecord a cl sh 32 32 wide s with
  | (.got h, s) => readRecord a cl sh (32 + 32 * shapeNdim h) 32 wide s
  | r => r

/-- A copy of a descriptor up to its acceptance: checks 2 to 8 of R119. -/
def copyOf (i : Issuer) (addr d : Nat) (s : State) : Issue × State :=
    match readShape i.who i.cl (fld d 16 4) s with
    | (.trap t, s) => (.trap t, s)
    | (.later b, s) => (.later b, s)
    | (.got r, s) =>
      let ds := shapeDims r
      let es := shapeEsize r
      let fill := fld d 22 1
      let ch := fld d 20 1
      if !copyFieldsOk d r || !dstApart es ds || (s.chan i.cl ch).fault.isSome then (.trap prot, s)
      else
        match placesOk i (fld d 0 8) (fld d 8 8) fill ds s with
        | (.trap t, s) => (.trap t, s)
        | (.later b, s) => (.later b, s)
        | (.got _, s) =>
          if !s.targetsOk i.cl (fld d 23 1) (fld d 24 8) (fld d 32 8) then (.trap prot, s)
          else
            (.accept ch (fld d 21 1)
              { kind := .copy (fld d 0 8) (fld d 8 8) es fill ds, ctx := i.ctx, ptroot := i.pt, priv := i.priv
                flags := fld d 23 1, dect := BitVec.ofNat 64 (fld d 24 8), fet := BitVec.ofNat 64 (fld d 32 8)
                command := i.command, desc := i.command.elim (some addr) (fun _ => none) }, s)

/-- `cpy` up to its acceptance (R119, R361). DEDUCED: log 19. -/
def copyIssue (i : Issuer) (addr : Nat) (s : State) : Issue × State :=
  match readRecord i.who i.cl addr 64 64 false s with
  | (.trap t, s) => (.trap t, s)
  | (.later b, s) => (.later b, s)
  | (.got d, s) => copyOf i addr d s

/-- The fields of a `gbin` descriptor (R128). -/
def gbinFieldsOk (d : Nat) : Bool :=
  decide (1 ≤ fld d 24 4) && decide (fld d 24 4 ≤ 65536) && decide (1 ≤ fld d 28 1) && decide (fld d 28 1 ≤ 8) &&
  decide (fld d 29 1 < 32) && (decide (fld d 30 1 < 64) || decide (fld d 30 1 = 255)) && decide (fld d 31 1 < 4) &&
  decide (fld d 32 4 % 16 = 0) && decide (16 ≤ fld d 32 4) && decide (fld d 32 4 ≤ 65536)

/-- The translations of `gbin`, in order (R361). -/
def gbinPlaces (i : Issuer) (d : Nat) (s : State) : Local Unit × State :=
  match firstPlace i (fld d 0 8) accRead { rd := true } s with
  | (.trap t, s) => (.trap t, s)
  | (.later b, s) => (.later b, s)
  | (.got _, s) =>
    match firstPlace i (fld d 16 8) accRead { rd := true } s with
    | (.trap t, s) => (.trap t, s)
    | (.later b, s) => (.later b, s)
    | (.got _, s) =>
      match firstPlace i (fld d 40 8) accWrite { rd := true, w := true } s with
      | (.trap t, s) => (.trap t, s)
      | (.later b, s) => (.later b, s)
      | (.got _, s) => (.got (), s)

/-- `gbin` up to its acceptance (R128, R361). -/
def gbinIssue (i : Issuer) (addr : Nat) (s : State) : Issue × State :=
  match readRecord i.who i.cl addr 64 64 false s with
  | (.trap t, s) => (.trap t, s)
  | (.later b, s) => (.later b, s)
  | (.got d, s) =>
    let ch := fld d 29 1
    if !gbinFieldsOk d || (s.chan i.cl ch).fault.isSome then (.trap prot, s)
    else if fld d 40 8 % 32 ≠ 0 then (.trap (align (fld d 40 8) 32 accRead), s)
    else
      match gbinPlaces i d s with
      | (.trap t, s) => (.trap t, s)
      | (.later b, s) => (.later b, s)
      | (.got _, s) =>
        if !s.targetsOk i.cl (fld d 31 1) (fld d 48 8) (fld d 56 8) then (.trap prot, s)
        else
          (.accept ch (fld d 30 1)
            { kind := .gbin (fld d 0 8) (toSigned 64 (fld d 8 8)) (fld d 16 8) (fld d 24 4) (fld d 28 1) (fld d 32 4)
                (fld d 36 4) (fld d 40 8)
              ctx := i.ctx, ptroot := i.pt, priv := i.priv, flags := fld d 31 1
              dect := BitVec.ofNat 64 (fld d 48 8), fet := BitVec.ofNat 64 (fld d 56 8) }, s)

/-- `binr` up to its acceptance (R362). -/
def binrIssue (i : Issuer) (va ch : Nat) (s : State) : Issue × State :=
  if va % 32 ≠ 0 then (.trap (align va 32 accWrite), s)
  else
    match firstPlace i va accWrite { rd := true, w := true } s with
    | (.trap t, s) => (.trap t, s)
    | (.later b, s) => (.later b, s)
    | (.got _, s) =>
      if (s.chan i.cl ch).fault.isSome then (.trap prot, s)
      else (.accept ch 255 { kind := .binr va, ctx := i.ctx, ptroot := i.pt, priv := i.priv }, s)

/-- The context of a slot as an issuer, with the walks that its instruction has waited for. -/
def issuerOf (me : Me) (walked : List Walked) (s : State) : Issuer :=
  { cl := clusterOf me.core, pt := s.ptroot me.base, priv := s.pl me.base, codelet := s.kindOf me.base = 1
    ctx := me.key, who := { me := me, walked := walked } }

/-- A copy with the fields of its descriptor and its shape record as read at acceptance, where they pass the checks. -/
def ChanOp.reread (o : ChanOp) (cl d r : Nat) (s : State) : ChanOp :=
  if copyFieldsOk d r && dstApart (shapeEsize r) (shapeDims r) && s.targetsOk cl (fld d 23 1) (fld d 24 8) (fld d 32 8) then
    { o with kind := .copy (fld d 0 8) (fld d 8 8) (shapeEsize r) (fld d 22 1) (shapeDims r), flags := fld d 23 1
             dect := BitVec.ofNat 64 (fld d 24 8), fet := BitVec.ofNat 64 (fld d 32 8) }
  else o

/-- A copy as the engine reads its descriptor and its shape record at acceptance (R117), none while the read waits: on the
channel and the timeline of its issue, and as its checks found it where a record no longer passes them.
DESIGN CHOICE: log 32. -/
def rereadOp (cl : Nat) (o : ChanOp) (s : State) : Option ChanOp × State :=
  match o.desc with
  | none => (some o, s)
  | some a =>
    match engineRd (unitOf (cl * 8)) cl a 64 s with
    | (.later _, s) => (none, s)
    | (.trap _, s) => (some o, s)
    | (.got d, s) =>
      match readShape (unitOf (cl * 8)) cl (fld d 16 4) s with
      | (.later _, s) => (none, s)
      | (.trap _, s) => (some o, s)
      | (.got r, s) => (some (o.reread cl d r s), s)

/-- What `cpy`, `gbin` and `binr` do in their slot (R361, R362): the checks, and then acceptance or the wait for a full
channel; `#BLOCK` in a codelet (R116). DEDUCED: log 32. -/
def issueFinish (me : Me) (f : Finish) (c : Cont) (s : State) : MRes :=
  let i := issuerOf me c.walked s
  let r := match f with
    | .cpy a => copyIssue i a s
    | .gbin a => gbinIssue i a s
    | .binr va ch => binrIssue i va ch s
    | _ => (.later .recheck, s)
  match r with
  | (.trap t, s) => .trap t s
  | (.later b, s) => .block b c s
  | (.accept ch tl o, s) =>
    if (s.chan i.cl ch).ops.length < 16 then .cont c (acceptOp i.cl ch tl o s)
    else if i.codelet then .trap { cause := .block } s
    else .past (.channel i.cl ch tl o) c s

end Sys2Proof.Machine
end

