-- ==== Sys2Proof/Machine/Fetch.lean ====
section
/-! DEFINITION. The fetch of an instruction's block (R284 to R286, R323, R324). -/

namespace Sys2Proof.Machine

open Sys2Proof

/-! ### Fetch (R284 to R286, R323, R324) -/

/-- What the fetch of a slot's instruction ends with. -/
inductive FetchEnd where
  | bytes (bs : List Byte)     -- from PC to the end of its block
  | trap (t : TrapInfo)
  | wait (b : Block)           -- a walk, a snoop, or a window that is being removed, to wait for
  deriving DecidableEq, Repr

/-- The source that a message log names for a line that fetch fills (R280): its home, or the core whose local memory
holds it. -/
def State.fillSrc (s : State) (pa : Nat) : Nat :=
  match regionOf pa with
  | .local g => g
  | _ => s.homeSrc (pa / 128)

/-- A line filled into a core's instruction cache: the home's copy, which may be older than the owner's (R323), logged
as a reply unless it comes from the core's own memory (R279). PRESUMED: log 11. -/
def icFill (core pa : Nat) (s : State) : Nat × State :=
  let l := pa / 128
  match (s.core core).icache.find? (fun e => e.1 = l) with
  | some e => (e.2.toNat, s)
  | none =>
    let v := s.homeData l
    let s := match regionOf (l * 128) with
      | .hbm _ => readPath l (touchL2 l (touchFilter l s))
      | _ => s
    let s := if s.fillSrc pa = core then s else logFlits core (s.fillSrc pa) 0 1 4 v s
    (v, s.modCore core (fun c => { c with icache := ((l, BitVec.ofNat 1024 v) :: c.icache).take Config.icLines }))

/-- The half of a line that a fill must snoop first (R67). -/
def State.fillSnoop (s : State) (pa : Nat) : Option Nat :=
  match regionOf pa with
  | .hbm _ => [0, 1].find? (fun k => (s.line (pa / 128)).mustSnoop k false)
  | _ => none

/-- Whether a line that a fetch would fill is lost (R257). -/
def State.fetchLost (s : State) (pa : Nat) : Bool :=
  match regionOf pa with
  | .hbm _ => (s.line (pa / 128)).lost
  | .local _ => s.lostLocal.contains (pa / 128)
  | _ => false

/-- The 32-byte block at a physical address. -/
def blockAt (core pa : Nat) (s : State) : Nat × State :=
  match icFill core pa s with
  | (line, s) => (line / 2 ^ (8 * (pa % 128 / 32 * 32)) % 2 ^ 256, s)

/-- The block of a PC whose page is translated, at the physical address that its bytes stand for (R107). A half of the
line that the host holds exclusively is snooped first (R67). -/
def fetchAt (me : Me) (pc pa : Nat) (s : State) : FetchEnd × State :=
  let here := (s.core me.core).icache.any (fun e => e.1 = pa / 128)
  if !here && s.fetchLost pa then (.trap (s.mchk pc pa accFetch), s)
  else
    match (if here then none else s.fillSnoop pa) with
    | some k => (.wait (.snoop (pa / 128) k (s.gtOf me.core)), sendSnoop (pa / 128) k false s)
    | none =>
      let r := blockAt me.core pa s
      let s := r.2.modSlot me.slot (fun x => { x with block := some (pc / 32 * 32, BitVec.ofNat 256 r.1) })
      (.bytes ((natBytes 32 r.1).drop (pc % 32)), s)

/-- The block of a PC whose page is translated: its permission, its place in the cluster (R95), its window (R107). -/
def fetchBlock (me : Me) (walked : List Walked) (pc : Nat) (l : Leaf) (s : State) : FetchEnd × State :=
  let pa := l.phys (pc / 32 * 32)
  let deny : TrapInfo := { cause := .prot, addr := pc, acc := accFetch }
  if !l.permits { x := true } (s.pl me.base) then (.trap deny, s)
  else
    match regionOf pa with
    | .local g =>
      if clusterOf g ≠ clusterOf me.core then (.trap deny, s)
      else
        match aliasPa me walked g (pa % 0x100000) s with
        | (.ok t, s) => fetchAt me pc t.pa s
        | (.trap t, s) => (.trap { t with addr := pc, acc := accFetch }, s)
        | (.wait b, s) => (.wait b, s)
        | (.skip, s) => fetchAt me pc pa s
    | _ => fetchAt me pc pa s

/-- The bytes at an address of a slot's context: from the block that the slot holds, else from its instruction cache
through a translation, with what the instruction in hand has walked for. -/
def fetchVa (me : Me) (walked : List Walked) (pc : Nat) (s : State) : FetchEnd × State :=
  match (s.slot me.slot).block with
  | some (va, b) =>
    if va = pc / 32 * 32 then (.bytes ((natBytes 32 b.toNat).drop (pc % 32)), s) else fetchNew
  | none => fetchNew
where
  fetchNew : FetchEnd × State :=
    match foundXlate walked me.core (s.ptroot me.base) pc accFetch s with
    | some (.leaf l) => fetchBlock me walked pc l s
    | some (.trap t) => (.trap { t with addr := pc, acc := accFetch }, s)
    | none => (.wait (.walk me.core (s.ptroot me.base) pc accFetch), s)

/-- The bytes at a slot's PC. A PC that is not a multiple of 4 raises #ALIGN for a fetch (R284, R311). DEDUCED: log 21. -/
def fetch (me : Me) (s : State) : FetchEnd × State :=
  let pc := (s.pc me.base).toNat
  if pc % 4 ≠ 0 then (.trap (align pc 4 accFetch), s) else fetchVa me [] pc s

end Sys2Proof.Machine
end

