-- ==== Sys2Proof/Machine/Sequence.lean ====
section
/-! DEFINITION. The repetition buffer of a core (R182, R183, R359): the classes of instruction that it takes, the fetch
and the decoding of a sequence, and its start. -/

namespace Sys2Proof.Machine

open Sys2Proof

/-- An instruction of the vector section (R168). -/
def isVectorOp : Instr → Bool
  | .vbc .. | .vins .. | .vext .. | .vslide .. | .vperm .. | .vadd .. | .vsub .. | .vmul .. | .vmax .. | .vmin ..
  | .vfma .. | .vfms .. | .vabs .. | .vneg .. | .vand .. | .vor .. | .vxor .. | .vshl .. | .vshr .. | .vsra ..
  | .vcmp .. | .vsel .. | .vcvt .. | .vred .. | .vcmpm .. | .vleaf .. | .vlut .. | .vquant .. | .vdeq .. => true
  | _ => false

/-- An instruction of the tensor array (R168). -/
def isTensorOp : Instr → Bool
  | .tcfg .. | .tcfgClaim .. | .tcfgRel .. | .tldw .. | .tsmeta .. | .tscq .. | .tswap | .twait | .tmma .. | .tzero ..
  | .tdrain .. => true
  | _ => false

/-- A sequence with nothing left to do. -/
def Sequencer.over (q : Sequencer) : Bool :=
  q.ctx.isSome && q.outstanding.isEmpty && !q.placed && !q.waitStep && (q.fault.isSome || decide (q.reps ≤ q.rep))

/-- The buffer is freed, and a `rpt` that waits for it executes again (R183). -/
def freeBuffer (core : Nat) (s : State) : State :=
  let s := s.modCore core (fun c => { c with seq := {} })
  (s.waiters (fun k w => w.block = .buffer && (match (s.ctx k).slot with | some x => x / 16 = core | none => false))).foldl
    (fun s k => s.clearWait k) s

/-- The core whose repetition buffer holds a context's sequence. -/
def State.seqCore (s : State) (key : Nat) : Option Nat :=
  (s.cores.find? (fun c => c.2.seq.ctx = some key)).map Prod.fst

/-- The wait for the issuing context's own sequence (R183): its recorded fault, with the buffer free again, or the wait;
none when it has none running. -/
def joinOwn (me : Me) (s : State) : Option ((TrapInfo ⊕ Unit) × State) :=
  match s.seqCore me.key with
  | none => none
  | some core =>
    let q := (s.core core).seq
    if q.over then q.fault.map (fun t => (.inl t, freeBuffer core s)) else some (.inr (), s)

/-! ### The sequence of `rpt` (R359) -/

/-- What the fetch of a sequence ends with. -/
inductive RptEnd where
  | ok (is : List (List Byte)) (pc : Nat)
  | trap (t : TrapInfo)
  | wait (b : Block)
  deriving Repr

/-- More pad words than the address space holds: 2^57 bytes of canonical addresses (R37). -/
def padFuel : Nat := 2 ^ 56

/-- The bytes of the instructions of a sequence, past pad words (R285, R359), before any is decoded: a word is as long
as its low bits say (R284). A fault names its address, as a fetch. DESIGN CHOICE: log 37. -/
def rptFetch (me : Me) (walked : List Walked) :
    Nat → Nat → Nat → List (List Byte) → State → RptEnd × State
  | 0, _, _, _, s => (.wait .recheck, s)
  | fuel + 1, pc, left, seen, s =>
    if left = 0 then (.ok seen.reverse pc, s)
    else
      match fetchVa me walked pc s with
      | (.trap t, s) => (.trap { t with acc := accFetch }, s)
      | (.wait b, s) => (.wait b, s)
      | (.bytes bs, s) =>
        let n := leNat (bs.take 4)
        if n = 0xFFFFFFFF then rptFetch me walked fuel ((pc / 32 + 1) * 32 % 2 ^ 64) left seen s
        else rptFetch me walked fuel ((pc + lenOf n) % 2 ^ 64) (left - 1) (bs :: seen) s

/-- The fetched instructions decoded in order: the bytes of the first that is illegal, or of another resource (R359). -/
def rptDecode : List (List Byte) → Except (List Byte) (List Instr)
  | [] => .ok []
  | bs :: r =>
    match decode bs with
    | .error _ => .error bs
    | .ok (i, _) =>
      if isVectorOp i || isTensorOp i then
        match rptDecode r with
        | .ok is => .ok (i :: is)
        | .error b => .error b
      else .error bs

/-- `rpt` in its slot (R359): the fetch and the decoding of its sequence, the end of the context's own sequence (R183),
the buffer, and the start. -/
def rptFinish (me : Me) (n reps stride : Nat) (c : Cont) (s : State) : MRes :=
  match rptFetch me c.walked padFuel (((s.pc me.base).toNat + 8) % 2 ^ 64) n [] s with
  | (.trap t, s) => .trap t s
  | (.wait b, s) => .block b c s
  | (.ok words next, s) =>
    match rptDecode words with
    | .error bs => .trap { cause := .ill, info0 := (Sys2Proof.first64 bs).toNat } s
    | .ok is =>
      match joinOwn me s with
      | some (.inl t, s) => .trap t s
      | some (.inr (), s) => .again (.sequence true) s
      | none =>
        match (s.core me.core).seq.ctx with
        | some _ => if s.kindOf me.base = 1 then .trap { cause := .block } s else .again .buffer s
        | none =>
          .cont c ((s.modCore me.core (fun x =>
            { x with seq := { ctx := some me.key, instrs := is, reps := reps, stride := stride } })).setPc me.base
              (BitVec.ofNat 64 next))

end Sys2Proof.Machine
end

