-- ==== Sys2Proof/Machine/Windows.lean ====
section
/-! DEFINITION. Stash windows (R105 to R108, R328, R329): the walk of `smap`, and lines written back and given up. -/

namespace Sys2Proof.Machine

open Sys2Proof

/-- The owner token, the data and all but one token of a copy go to its home; the line stays with valid data
(R108, R322). A copy whose only token is the owner token keeps none: its bytes stay in the local range of a window, and
a request that is outstanding stays so. It answers the write-back's message. DEDUCED: log 53. -/
def writeBackOwner (h l : Nat) (s : State) : Nat × State :=
  let c := s.copy h l
  let s := if c.tokens ≤ 1 then clearCopy h l s
    else s.setCopy h l { c with tokens := 1, owner := false, dirty := false }
  let n := if c.tokens ≤ 1 then 1 else c.tokens - 1
  (s.nextId, s.send (.writeBack h l n true c.dirty (c.data.map (·.toNat)) c.stamp false))

/-- The holders of a window's lines, with their lines. -/
def State.windowCopies (s : State) (g w : Nat) : List (Nat × Nat) :=
  s.copies.flatMap (fun t =>
    if isWin t.1 && decide (winCore t.1 = g) && decide (winNo t.1 = w) then t.2.map (fun e => (t.1, e.1)) else [])

/-- Lines written back in turn, with the messages of their write-backs. -/
def writeBackAll : List (Nat × Nat) → State → List Nat × State
  | [], s => ([], s)
  | (h, l) :: r, s =>
    match writeBackOwner h l s with
    | (wb, s) =>
      match writeBackAll r s with
      | (wbs, s) => (wb :: wbs, s)

/-- `swb`: each line that holds the owner token is written back; answers what is to be acknowledged. -/
def doSwb (g w : Nat) (s : State) : List Nat × State :=
  writeBackAll ((s.windowCopies g w).filter (fun hl => (s.copy hl.1 hl.2).owner)) s

/-- Lines given up in turn, their requests at an end, with the messages of their write-backs. -/
def evictAll : List (Nat × Nat) → State → List Nat × State
  | [], s => ([], s)
  | (h, l) :: r, s =>
    match evict h l false (endMiss h l s) with
    | (wb, s) =>
      match evictAll r s with
      | (wbs, s) => (wb.toList ++ wbs, s)
where
  /-- The request of a line ends. -/
  endMiss (h l : Nat) (s : State) : State :=
    let c := s.copy h l
    if c.miss.isSome then deactivate h l (s.setCopy h l { c with miss := none }) else s

/-- `sunmap`: every token of every line goes home, the requests of its lines end, and the window is being removed.
DEDUCED: log 53. -/
def doSunmap (g w : Nat) (s : State) : List Nat × State :=
  match evictAll (s.windowCopies g w) s with
  | (owed, s) => (owed, s.setWin g w { s.win g w with unmapping := true })

/-- The end of a `sunmap`: V is cleared. DEDUCED: log 53. -/
def finishUnmap (g w : Nat) (s : State) : State := s.setWin g w { s.win g w with v := false, unmapping := false, lines := [] }

/-! ### `smap` (R106, R328) -/

/-- The pages of a range in order (R106): the first cause, whether every page is SH, or the page to be walked. -/
inductive RangeEnd where
  | ok (stash : Bool)
  | trap (t : TrapInfo)
  | miss (va : Nat)

/-- Every page of a range, by what the instruction knows of its translation (R40, R106). -/
def rangeCheck (me : Me) (walked : List Walked) (pt : Word) (priv : Bool) (s : State) : Nat → Nat → Bool → RangeEnd
  | 0, _, sh => .ok sh
  | n + 1, va, sh =>
    match foundXlate walked me.core pt (va % 2 ^ 64) accRead s with
    | none => .miss (va % 2 ^ 64)
    | some (.trap t) => .trap t
    | some (.leaf l) =>
      if !l.permits { rd := true } priv then .trap { cause := .prot, addr := va % 2 ^ 64, acc := accRead }
      else rangeCheck me walked pt priv s n ((va / 4096 + 1) * 4096) (sh && decide (l.pol = 3))

/-- `smap` in its slot (R106, R328): the slot stays out of the rotation until every page is walked; then the checks, and
the window. DEDUCED: log 22. -/
def smapFinish (me : Me) (win : Fin 8) (size : BitVec 3) (va off : Nat) (c : Cont) (s : State) : MRes :=
  let bytes := 4096 * 2 ^ size.toNat
  let pt := s.ptroot me.base
  let priv := s.pl me.base
  match rangeCheck me c.walked pt priv s (2 ^ size.toNat + (if va % 4096 = 0 then 0 else 1)) va true with
  | .trap t => .trap t s
  | .miss a => .block (.walk me.core pt a accRead) c s
  | .ok sh =>
    if (s.win me.core win.val).v || va % bytes ≠ 0 || off % bytes ≠ 0 || !s.inGeneral me.core off bytes ||
      s.meetsWindow me.core off bytes || s.meetsRing me.core off bytes || !sh then .trap prot s
    else
      .cont c (s.setWin me.core win.val
        { v := true, vpn := va % 2 ^ 57 / 4096, lbase := off / 4096, size := size.toNat, ptroot := pt, priv := priv })

end Sys2Proof.Machine
end

