-- ==== Sys2Proof/Machine/Run.lean ====
section
/-! DEFINITION. The small steps of an instruction and their running: translation, checks, accesses, releases, and what
follows them (R73, R79, R314); the distribution of a push (R56 to R60); `pref`, `cwb`, `cinv`, `cfl` (R321, R322); the
end of a context (R313, R391); and the waking of contexts that wait. -/

namespace Sys2Proof.Machine

open Sys2Proof

/-! ### Push (R56 to R60, R319, R320) -/

/-- The targets of a push by its word; none when R319 refuses it. -/
def pushTargets (s : State) (core : Nat) (form : PushForm) (w : Word) : Option (List Nat) :=
  let v := w.toNat
  match form with
  | .mask =>
    if v / 256 ≠ 0 then none
    else
      let ts := (setBitsOf 8 v).map (fun i => clusterOf core * 8 + i)
      if ts.all (fun t => s.partOf t = s.partOf core) then some ts else none
  | .list =>
    let bytes := (List.range 8).map (fun j => bits v (8 * j) 8)
    if bytes.any (fun b => 192 ≤ b && b ≠ 255) then none
    else
      let ts := (List.range 192).filter (fun c => bytes.contains c)
      let ts := ts.map (fun c => dieOf core * 192 + c)
      if ts.all (fun t => s.partOf t = s.partOf core) then some ts else none

/-- `PUSHST.PEND` set. -/
def setPend (base n : Nat) (s : State) : State := s.setWs base offPushst (setBits (s.ws base offPushst) 24 8 n)

/-- `n` refusals recorded, the last of them at a target (R60). -/
def noteRefused (base n target : Nat) (s : State) : State :=
  let w := s.ws base offPushst
  let w := setBits w 32 32 (satTo (bits w 32 32 + n) 0xFFFFFFFF)
  s.setWs base offPushst (setBits w 8 9 target)

/-- What follows the write phase of a push (R56, R57, R320): the refusals of R57 recorded, or the distribution begun,
whose turns follow one by one. -/
def doPush (me : Me) (targets : List Nat) (e : Elem) (s : State) : State :=
  let others := targets.filter (· ≠ me.core)
  let line := e.pa / 128
  if others.isEmpty then s
  else
    let cached := cacheablePol e.leaf.pol && decide (s.lineDie line = dieOf me.core) &&
      (match regionOf e.pa with | .hbm _ => true | .host => true | _ => false)
    if !cached then
      let s := noteRefused me.base others.length (others.getLastD 0) s
      s.setWs me.base offPushst (setBits (s.ws me.base offPushst) 17 1 1)
    else
      let id := s.nextId
      let s := setPend me.base (s.pend me.base + 1) { s with nextId := s.nextId + 1 }
      (s.modCtx me.key (fun c => { c with pushes := c.pushes ++ [{ id := id, line := line, left := others.length }] })).send
        (.pushTurn line me.core me.key id others)

/-! ### Prefetch and line operations (R321, R322) -/

/-- The request of a prefetch for a line, as a load would make it; one that a snoop precedes waits at the line for its
response (R321). DEDUCED: log 55. -/
def prefetchLine (core pa : Nat) (leaf : Leaf) (s : State) : State :=
  let l := pa / 128
  let c := s.copy core l
  let t := hbmTarget (dieOf core) core .read pa leaf s
  let held := match t.kind with
    | .token => c.data.isSome && decide (1 ≤ c.tokens)
    | .lease => s.leaseLive core c
    | _ => true
  if held then s
  else
    match s.snoopHalf pa 1 false with
    | some k => (sendSnoop l k false s).modLine l (fun x => { x with prefs := x.prefs ++ [(core, pa, leaf)] })
    | none => if t.kind = .token then requestLine core l false s else requestLease core l s

/-- `pref` with its address translated: a request for the line, without a wait (R321). -/
def doPrefetch (me : Me) (pa : Nat) (leaf : Leaf) (s : State) : State :=
  match regionOf pa with
  | .hbm _ | .host =>
    if !leaf.permits { rd := true } (s.pl me.base) || !cacheablePol leaf.pol then s else prefetchLine me.core pa leaf s
  | _ => s

/-- `pref` in its slot (R321): no fault, and no wait but for the translation (R44). DEDUCED: log 22. -/
def prefFinish (me : Me) (c : Cont) (s : State) : MRes :=
  let va := (c.elems.headD {}).va
  match foundXlate c.walked me.core (s.ptroot me.base) va accRead s with
  | none => .block (.walk me.core (s.ptroot me.base) va accRead) c s
  | some (.trap _) => .cont c s
  | some (.leaf l) => .cont c (doPrefetch me (l.phys (va % 2 ^ 57)) l s)

/-- `cwb`, `cinv` and `cfl` on the line of an element: what it sends back, and the write-back that it waits for. -/
def doLineOp (me : Me) (kind : Nat) (e : Elem) (s : State) : Option Nat × State :=
  let l := e.pa / 128
  let c := s.copy me.core l
  let on := match regionOf e.pa with | .hbm _ => true | .host => true | _ => false
  if !on || !cacheablePol e.leaf.pol then (none, s)
  else if c.lease.isSome then (none, if kind = 0 then s else clearCopy me.core l s)
  else if c.tokens = 0 then (none, s)
  else if kind = 0 then
    if c.owner then
      match writeBackOwner me.core l s with
      | (wb, s) => (some wb, s)
    else (none, s)
  else evict me.core l (kind = 2) s

/-! ### The end of a context (R313, R391, R377) -/

/-- Granted Eland entries or a repetition sequence of a context that have not finished (R183). -/
def State.elandBusy (s : State) (key : Nat) : Bool :=
  s.quads.any (fun q => q.2.granted.any (fun g => g.ctx = key)) ||
  s.cores.any (fun c => c.2.seq.ctx = some key && !c.2.seq.over)

/-- The buffer of a context that ends is freed. DEDUCED: log 38. -/
def dropSequence (key : Nat) (s : State) : State :=
  match s.seqCore key with
  | some core => freeBuffer core s
  | none => s

/-- The end of `end`, `cdone` and `hdrop` (R146, R258), at which its record completes (R282). DEDUCED: log 38. -/
def endContext (me : Me) (s : State) : State :=
  freeContext me.key (dropSequence me.key (returnBorrow me.key (noteEnd me.key me.core s)))

/-! ### One small step -/

/-- The most urgent cause among the elements': by the order of R314, the lowest element first. -/
def causeRank : Cause → Nat
  | .align => 0 | .page => 1 | .prot => 2 | .lease => 3 | .timeout => 4 | .block => 5 | .mchk => 6 | _ => 7

def firstCause : List (Option TrapInfo) → Option TrapInfo
  | [] => none
  | none :: r => firstCause r
  | some t :: r =>
    match firstCause r with
    | none => some t
    | some u => if causeRank u.cause < causeRank t.cause then some u else some t

/-- The targets of all elements (R40, R107, R333). -/
def placeAll (me : Me) (c : Cont) : List Elem → State → List (Elem × Resolved) × State
  | [], s => ([], s)
  | e :: r, s =>
    match c.place me e s with
    | (x, s) =>
      match placeAll me c r s with
      | (xs, s) => ((e, x) :: xs, s)

/-- A cause of a translation that later checks precede: of its walk, but no `#PAGE` (R314, R333). -/
def TrapInfo.isLate (t : TrapInfo) : Bool := t.cause = .mchk || t.cause = .timeout

def Resolved.trap? : Resolved → Option TrapInfo
  | .trap t => if t.isLate then none else some t
  | _ => none
/-- A cause that an element meets at its place: one that ends its walk waits with those that come later. -/
def Resolved.late? : Resolved → Option TrapInfo
  | .trap t => if t.isLate then some t else none
  | _ => none
def Resolved.wait? : Resolved → Option Block
  | .wait b => some b
  | _ => none
/-- The walk that an element's window waits for (R107). -/
def Resolved.walk? : Resolved → Option Block
  | .wait (.walk g pt va acc) => some (.walk g pt va acc)
  | _ => none
def Resolved.target? : Resolved → Option Target
  | .ok t => some t
  | _ => none

/-- The elements with the targets that they have. -/
def targetsOf (xs : List (Elem × Resolved)) : List (Elem × Target) :=
  xs.filterMap (fun x => x.2.target?.map (fun t => (x.1, t)))

/-- The elements, each keeping the target that its checks found, or the late cause of its walk. -/
def keepTargets (xs : List (Elem × Resolved)) : List Elem :=
  xs.map (fun x => match x.2 with
    | .ok t => { x.1 with tgt := some t }
    | r => { x.1 with late := x.1.late.orElse (fun _ => r.late?) })

/-- What the first element that is not ready waits for. -/
def obtainAll (me : Me) (op : AccOp) : List (Elem × Target) → State → Option Block × State
  | [], s => (none, s)
  | (e, t) :: r, s =>
    match obtain me op e t s with
    | (some b, s) => (some b, s)
    | (none, s) => obtainAll me op r s

/-- The first snoop that an element waits for (R67). -/
def snoopAll (me : Me) (op : AccOp) : List (Elem × Target) → State → Option Block × State
  | [], s => (none, s)
  | (e, t) :: r, s =>
    match snoopFirst me op e t s with
    | (some b, s) => (some b, s)
    | (none, s) => snoopAll me op r s

/-- `prot`: the causes of R40, R95, R104 and R107 of all elements, each of them translated, windows included. -/
def runProt (me : Me) (c : Cont) (s : State) : MRes :=
  match placeAll me c c.elems s with
  | (xs, s) =>
    match firstCause (xs.map (fun x => x.2.trap?)), xs.findSome? (fun x => x.2.walk?) with
    | _, some b => .block b c s
    | some t, none => .trap t s
    | none, none => .cont { c with elems := keepTargets xs } s

/-- `marked`: the next access of the die to a marked line takes `#LEASE` and clears the marks (R65). -/
def runMarked (me : Me) (c : Cont) (s : State) : MRes :=
  let die := dieOf me.core
  match placeAll me c c.elems s with
  | (xs, s) =>
    match (targetsOf xs).find? (fun et => (s.die die).marked.contains (et.2.pa / 128)) with
    | some et => .trap { cause := .lease, addr := et.1.va, info0 := (s.die die).tripGt, acc := c.op.acc }
        (s.modDie die (fun d => { d with marked := [] }))
    | none => .cont c s

/-- `ready`: every element ready to perform, with no check of what it would read (R388). -/
def runReady (me : Me) (c : Cont) (s : State) : MRes :=
  match placeAll me c c.elems s with
  | (xs, s) =>
    match firstCause (xs.map (fun x => x.2.trap?)), xs.findSome? (fun x => x.2.wait?) with
    | some t, _ => .trap t s
    | none, some b => .block b c s
    | none, none =>
      match obtainAll me c.op (targetsOf xs) s with
      | (some b, s) => .block b c s
      | (none, s) => .cont c s

/-- The cause that an element meets once nothing else is waited for: the late one of its walk, or those of its data; a
full/empty word of another core is judged where the access arrives (R96). -/
def lateCause (me : Me) (op : AccOp) (s : State) (x : Elem × Resolved) : Option TrapInfo :=
  match x.1.late, x.2.target? with
  | some t, _ => some { t with addr := x.1.va }
  | none, some t => if op.isFe && t.far then none else elemCheck me op x.1 t s
  | none, none => none

/-- The elements before the first whose walk ended in `#TIMEOUT`: a snoop of a later one decides nothing (R333). -/
def beforeTimeout (xs : List (Elem × Resolved)) : List (Elem × Resolved) :=
  xs.takeWhile (fun x => !(x.1.late.any (fun t => t.cause = .timeout)))

/-- `verify`: the snoops of every element, then `#TIMEOUT`, `#BLOCK`, `#MCHK` and `#RACE` of all of them, before any
performs (R333). -/
def runVerify (me : Me) (c : Cont) (s : State) : MRes :=
  match placeAll me c c.elems s with
  | (xs, s) =>
    match firstCause (xs.map (fun x => x.2.trap?)), xs.findSome? (fun x => x.2.wait?) with
    | some t, _ => .trap t s
    | none, some b => .block b c s
    | none, none =>
      let c := { c with elems := keepTargets xs }
      let xs := c.elems.zip (xs.map Prod.snd)
      match snoopAll me c.op (targetsOf (beforeTimeout xs)) s with
      | (some b, s) => .block b c s
      | (none, s) =>
        match firstCause (xs.map (lateCause me c.op s)) with
        | some t => .trap t s
        | none => .cont c s

/-- The value that an element stores. -/
def Cont.datum (c : Cont) (i : Nat) : Nat := c.data.getD i 0

/-- A write into a peer window is owed an acknowledgement (R76). -/
def owePeer (me : Me) (op : AccOp) (pa : Nat) (s : State) : State :=
  match regionOf pa with
  | .peer _ =>
    if op = .write then
      (s.modCtx me.key (fun x => { x with peerWrites := x.peerWrites ++ [s.nextId] })).send (.peerAck me.key)
    else s
  | _ => s

/-- The access is made: its value is kept, and no fault of the instruction can follow (R2). -/
def Cont.done (c : Cont) (old : Nat) : Cont := { c with got := c.got ++ [old], committed := true, half := none }

/-- An access of a holder's core has performed on a line: the holder's registration for it ends, but for that of a write
while the access writes nothing (R54). -/
def endRegistration (h l : Nat) (writes : Bool) (s : State) : State :=
  let b := s.bank (s.lineBank l)
  if !writes && (b.persist ++ b.waiting).any (fun p => p.line = l && p.holder = h && p.write) then s else deactivate h l s

/-- An element's access at its location, in one action. An access that is not to the core's own local memory has its
slot leave the rotation, be its reply at once (R314, R230). -/
def performNow (me : Me) (c : Cont) (i : Nat) (e : Elem) (t : Target) (s : State) : MRes :=
  match t.kind with
  | .plain | .outside =>
    if (c.op = .ldf ∨ c.op = .ldt) ∧ !s.isFull t.pa then
      if s.kindOf me.base = 1 then .trap { cause := .block, addr := e.va, acc := c.op.acc } s
      else .past (.fe (t.pa / 8) (c.op = .ldt) s.nextId) c { s with nextId := s.nextId + 1 }
    else
      match performPlain me c.op e.size (c.datum i) t.pa s with
      | (old, s) =>
        let s := owePeer me c.op t.pa s
        let s := if c.op = .stf then
            wakeWfeCores (fun g => clusterOf g = clusterOf me.core) (serveWaiters t.pa s)
          else s
        .cont (c.done old) s
  | _ =>
    match performLine me c.op e.size (c.datum i) t s with
    | (old, s) =>
      let s := if t.kind = .token then endRegistration t.holder (t.pa / 128) c.op.writes s else s
      .cont (c.done old) (if t.win.isSome && !t.far then s else s.yieldTurns me.core me.slot)

/-- An aligned 32-byte access to a peer window travels as two 16-byte halves, each performed by its own arrival
(R28, R87): the low half first. DESIGN CHOICE: log 59. -/
def performPeerHalf (me : Me) (c : Cont) (i : Nat) (t : Target) (s : State) : MRes :=
  match c.half with
  | none =>
    match performPlain me c.op 16 (c.datum i) t.pa s with
    | (lo, s) =>
      let s := owePeer me c.op t.pa s
      .block (.reply s.nextId) { c with half := some lo, committed := true } (s.send (.access me.key))
  | some lo =>
    match performPlain me c.op 16 (c.datum i / 2 ^ 128) (t.pa + 16) s with
    | (hi, s) => .cont (c.done (lo + hi * 2 ^ 128)) (owePeer me c.op t.pa s)

/-- The causes that an element meets as it performs, where it is the first of its instruction: at its location (R96). -/
def performCheck (me : Me) (arrived : Bool) (i : Nat) (c : Cont) (e : Elem) (t : Target) (s : State) : Option TrapInfo :=
  if i ≠ 0 || c.committed || (c.op.isFe && t.far && !arrived) then none else elemCheck me c.op e t s

/-- `perform i`: the access of element `i` (R73, R96): at once where the slot reaches it, otherwise by a message whose
arrival performs it. `arrived` says that the message has arrived. -/
def runPerform (me : Me) (arrived : Bool) (i : Nat) (c : Cont) (s : State) : MRes :=
  let e := c.elems.getD i {}
  match c.place me e s with
  | (.trap t, s) => .trap t s
  | (.wait b, s) => .block b c s
  | (.skip, s) => .cont c s
  | (.ok t, s) =>
    match obtain me c.op e t s with
    | (some b, s) => .block b c s
    | (none, s) =>
      match performCheck me arrived i c e t s with
      | some tr => .trap tr s
      | none =>
        let away := t.far || t.kind = .home || t.kind = .outside
        let held := s.lineDie (t.pa / 128) ≠ dieOf me.core && s.isHeld (t.pa / 128)
        if t.kind = .remote && arrived && c.op.need.rd && held then
          .block (.reply s.nextId) c (s.send (.remoteWrite me.key))
        else if t.kind = .remote && arrived then
          match performLine me c.op e.size (c.datum i) t s with
          | (old, s) =>
            .past (.reply s.nextId) (c.done old)
              (s.send (.vtReply me.key (s.line (t.pa / 128)).stamp.vt (s.lineBank (t.pa / 128))))
        else if t.kind = .remote then
          let s := dropLeases (dieOf me.core) (t.pa / 128) s
          .block (.reply s.nextId) c (s.send (.remoteWrite me.key))
        else if away && !arrived then .block (.reply s.nextId) c (s.send (.access me.key))
        else if t.kind = .home && held then .block (.reply s.nextId) c (s.send (.access me.key))
        else
          match regionOf t.pa with
          | .peer _ => if e.size = 32 then performPeerHalf me c i t s else performNow me c i e t s
          | _ => performNow me c i e t s

/-- `release`: it waits for PEND = 0, takes its timestamp, and waits for GT to reach it (R78, R79). DEDUCED: log 20. -/
def runRelease (me : Me) (sc : Scope) (c : Cont) (s : State) : MRes :=
  if c.skip then .cont c s
  else
    let now := s.gtOf me.core
    if sc = .slot then .cont { c with ts := c.issued, bound := true } (closeRegion me now s)
    else if s.pend me.base ≠ 0 then .block .pushPend c s
    else if sc = .sys && !(s.ctx me.key).peerWrites.isEmpty then .block (.peerAcks sc) c s
    else
      let ts := s.releaseTs me sc c.issued
      let c := { c with ts := ts, bound := true }
      if ts ≤ now then .cont c (closeRegion me now s) else .past (.release sc ts) c s

/-- The elements read, as one vector of `w`-bit elements. -/
def packElems (w : Nat) (got : List Nat) : Nat := got.foldr (fun x acc => x % 2 ^ w + acc * 2 ^ w) 0

/-- What an instruction does between or after its accesses. DEDUCED: log 18. -/
def runFinish (me : Me) (f : Finish) (c : Cont) (s : State) : MRes :=
  match f with
  | .loadW d t => .cont c (s.setW me.base d (extendLoad t (c.got.headD 0)))
  | .loadV d w => .cont c (s.setV me.base d (BitVec.ofNat 512 (packElems w c.got)))
  | .loadAf d =>
    let v := packElems 256 c.got
    if canonicalForm v then .cont c (s.setAf me.base d v)
    else .trap { cause := .prot, addr := (c.elems.headD {}).va, acc := accRead } s
  | .storeAf b =>
    let v := s.getAf me.base b
    if canonicalForm v then .cont { c with data := [v % 2 ^ 256, v / 2 ^ 256] } s
    else .trap { cause := .prot, addr := (c.elems.headD {}).va, acc := accWrite } s
  | .flagsOf op t v => .cont c (s.orFlags me.base (amoNew op t v.toNat (c.got.headD 0)).2)
  | .push targets _ => .cont c (doPush me targets (c.elems.headD {}) s)
  | .prefetch => prefFinish me c s
  | .lineOp k =>
    let e := c.elems.headD {}
    if let some t := e.late then .trap { t with addr := e.va } s
    else if !e.leaf.permits { rd := true } (s.pl me.base) then .trap { cause := .prot, addr := e.va, acc := accRead } s
    else match doLineOp me k e s with
    | (some wb, s) => .past (.acks [wb]) c s
    | (none, s) => .cont c s
  | .endCheck => if s.getH me.base .hm ≠ 0 then .trap prot s else .cont c s
  | .waitSeq => if s.elandBusy me.key then .block .ending c s else .cont c s
  | .endCtx => .stop (endContext me s)
  | .sunmapEnd w => .cont c (finishUnmap me.core w s)
  | .spawn _ | .decr _ | .tbar => taskFinish me f c s
  | .afpack .. | .afunpk .. => listFinish me f c s
  | .renq v w => renqFinish me v w c s
  | .rdeq d v => rdeqFinish me d v c s
  | .steal d v => stealFinish me d v c s
  | .smap win size va off => smapFinish me win size va off c s
  | .cpy _ | .gbin _ | .binr .. => issueFinish me f c s
  | .rpt n reps stride => rptFinish me n reps stride c s
  | _ => herdFinish me f c s

/-- A herd instruction that works on the slab: its slot leaves the rotation until it ends, wherever the slab lies (R208). -/
def Finish.onSlab : Finish → Bool
  | .hcmp .. | .hfound _ | .hside .. => true
  | _ => false

/-- `travel`: an instruction that reaches another core's local memory leaves the rotation until the replies arrive, which
are logged (R96, R279). -/
def runTravel (me : Me) (arrived : Bool) (f : Finish) (c : Cont) (s : State) : MRes :=
  let far := s.farPlaces me f
  if far.isEmpty then .cont c (if f.onSlab then s.yieldTurns me.core me.slot else s)
  else if !arrived then .block (.reply s.nextId) c (s.send (.access me.key))
  else .cont c (far.foldl (fun s p => logFlits me.core p.1 (me.key % 2 ^ 24) 1 p.2.1 p.2.2 s) s)

/-- One small step of the context on a slot. -/
def runMicro (me : Me) (arrived : Bool) (m : Micro) (c : Cont) (s : State) : MRes :=
  match m with
  | .xlate i =>
    let e := c.elems.getD i {}
    if !canonicalVa e.va then .trap (nonCanonical e.va c.op.acc) s
    else
      match s.tlbHit me.core (s.ptroot me.base) e.va with
      | none => .block (.walk me.core (s.ptroot me.base) e.va c.op.acc) c s
      | some l => .cont { c with elems := c.elems.set i { e with leaf := l, pa := l.phys (e.va % 2 ^ 57), late := none } } s
  | .prot => runProt me c s
  | .marked => runMarked me c s
  | .ready => runReady me c s
  | .commit => .cont { c with committed := true } s
  | .verify => runVerify me c s
  | .perform i => runPerform me arrived i c s
  | .release sc => runRelease me sc c s
  | .acquire => .cont c (acquire me.base s)
  | .seal w =>
    let s := rdvAction w me s
    if (s.ctx me.key).deposits = 0 then .cont c s else .block .deposits c s
  | .finish f => runFinish me f c s
  | .travel f => runTravel me arrived f c s
  | .adv len => .cont c (s.advPc me.base len)

/-- One small step of an instruction with a register word in a lost line (R257): the causes that come before that `#MCHK`
are raised, and no effect is made (R3). DEDUCED: log 51. -/
def runLost (me : Me) (m : Micro) (c : Cont) (t : TrapInfo) (s : State) : MRes :=
  let first := fun (r : MRes) => match r with
    | .trap u s => if causeRank u.cause < causeRank t.cause then .trap u s else .trap t s
    | .block b c s => .block b c s
    | _ => .trap t s
  match m with
  | .xlate _ | .prot | .marked => runMicro me false m c s
  | .verify => first (runVerify me c s)
  | .finish (.afpack ..) | .finish (.afunpk ..) => first (runMicro me false m c s)
  | _ => .trap t s

/-- A wait: the slot leaves the rotation (R228, R230); one for a walk asks for it (R45). -/
def waitOn (me : Me) (b : Block) (c : Cont) (s : State) : State :=
  let s := (s.setWait me.key { block := b, cont := c, since := s.gtOf me.core }).yieldTurns me.core me.slot
  match b with
  | .walk .. => askWalk me.key s
  | _ => s

/-- The small steps of an instruction in order, until it ends, waits, or traps. -/
def runProg (me : Me) (arrived : Bool) : List Micro → Cont → State → State
  | [], _, s => s.clearWait me.key
  | m :: r, c, s =>
    match (match c.reg with
      | none => runMicro me arrived m c s
      | some t => runLost me m c t s) with
    | .cont c s => runProg me false r c s
    | .block b c s => waitOn me b { c with prog := m :: r } s
    | .past b c s => waitOn me b { c with prog := r } s
    | .again b s => waitOn me b {} s
    | .trap t s => trapEntry me t (s.clearWait me.key)
    | .stop s => s

/-- An instruction's small steps begun (R79: its issue time). -/
def startProg (me : Me) (c : Cont) (s : State) : State :=
  runProg me false c.prog { c with issued := s.gtOf me.core } s

/-- A context that waited goes on: with the small steps that follow, or, where it has none, by executing its
instruction again. A migrated context waits for its lease time first (R82). -/
def resume (arrived : Bool) (key : Nat) (s : State) : State :=
  match s.meOf key, (s.ctx key).wait with
  | some me, some w =>
    if (s.ctx key).migrating then s
    else if w.cont.prog.isEmpty then s.clearWait key else runProg me arrived w.cont.prog w.cont (s.clearWait key)
  | _, _ => s

/-- Every context whose wait satisfies a test goes on. -/
def wake (f : Nat → Wait → Bool) (s : State) : State := (s.waiters f).foldl (fun s k => resume false k s) s

/-- The contexts that wait on a line of a holder. -/
def wakeLine (h l : Nat) (s : State) : State := wake (fun _ w => w.block = .line h l) s

/-- The contexts whose wait for Eland work, a sequence or their own end may be over. -/
def wakeEnding (key : Nat) (s : State) : State :=
  wake (fun k w => k = key && w.block = .ending && !(s.ctx key).killing) s

end Sys2Proof.Machine
end

