-- ==== Sys2Proof/Machine/ScalarMem.lean ====
section
/-! DEFINITION. The scalar loads and stores, the full/empty operations, pushes, prefetch and line operations, atomics,
stash windows, `scmp` and `end` (R309, R313 to R329). -/

namespace Sys2Proof.Machine

open Sys2Proof

/-- `scmp` (R309). -/
def execScmp (t : Ty) (k : Rel) (d a b : WReg) (s : State) : Out :=
  let base := s.me.base
  let n := t.bits
  let x := s.src base n a
  let y := s.src base n b
  let r : Bool × Nat :=
    if t.isInt then
      if t.isSigned then (relHolds k (some (compare (toSigned n x) (toSigned n y))), 0)
      else (relHolds k (some (compare x y)), 0)
    else fpRel (fmtOf t) k x y
  ok (((s.dst base 64 d (b2n r.1)).orFlags base r.2).advPc base 8)

/-- One element of an access. -/
def elemAt (ea : Word) (size : Nat) : Elem := { va := ea.toNat, size := size }

/-- An access of one aligned element begun (R314): `#ALIGN` first, then its small steps. -/
def access1 (op : AccOp) (ea : Word) (size : Nat) (data : List Nat) (prog : List Micro) (s : State) : Out :=
  if ea.toNat % size ≠ 0 then ok (trap (align ea.toNat size op.acc) s)
  else ok (startProg s.me { op := op, elems := [elemAt ea size], data := data, prog := prog } s)

/-- The small steps of a plain access. -/
def plainSteps : List Micro := [.xlate 0, .prot, .marked, .verify, .perform 0]

/-- `ld` (R315). -/
def execLd (t : Ty) (d : WReg) (b : MBase) (imm : Imm) (s : State) : Out :=
  access1 .read (s.eaOf s.me.base b imm) (tyBytes t) []
    (plainSteps ++ [.finish (.loadW d t), .adv (Imm.len imm)]) s

/-- `st` (R315). -/
def execSt (t : Ty) (a : WReg) (imm : Imm) (b : WReg) (s : State) : Out :=
  let base := s.me.base
  access1 .write (s.ea base a imm) (tyBytes t) [s.src base t.bits b] (plainSteps ++ [.adv (Imm.len imm)]) s

/-- `lda`: the read, then an acquire (R316). -/
def execLda (t : Ty) (_sc : Scope) (d a : WReg) (imm : Imm) (s : State) : Out :=
  access1 .read (s.ea s.me.base a imm) (tyBytes t) []
    (plainSteps ++ [.acquire, .finish (.loadW d t), .adv (Imm.len imm)]) s

/-- `stl`: a release, then the write; `#ALIGN`, `#PAGE` and `#PROT` come before the release, the remaining faults after
it (R316). -/
def execStl (t : Ty) (sc : Scope) (a : WReg) (imm : Imm) (b : WReg) (s : State) : Out :=
  let base := s.me.base
  access1 .write (s.ea base a imm) (tyBytes t) [s.src base t.bits b]
    [.xlate 0, .prot, .release sc, .marked, .verify, .perform 0, .adv (Imm.len imm)] s

/-- `fence` (R317). -/
def execFence (sc : Scope) (s : State) : Out := ok (startProg s.me { prog := [.release sc, .acquire, .adv 8] } s)
def execFenceRel (sc : Scope) (s : State) : Out := ok (startProg s.me { prog := [.release sc, .adv 8] } s)
def execFenceAcq (_sc : Scope) (s : State) : Out := ok (startProg s.me { prog := [.acquire, .adv 8] } s)

/-- The release of a context comes to its end (R79, R89): GT has reached its timestamp, and it goes on. One that waits
for acknowledgements goes on once they are in, be it that they came while it was switched out (R60, R80). A migrated
context waits for its lease time first (R82). -/
def execReleaseComplete (ctx : Nat) (s : State) : Out :=
  match s.meOf ctx, (s.ctx ctx).wait with
  | some me, some w =>
    if (s.ctx ctx).migrating then ok s
    else
      match w.block with
      | .release _ ts =>
        let now := s.gtOf me.core
        if now < ts then ok s
        else ok (runProg me false w.cont.prog w.cont (closeRegion me now (s.clearWait ctx)))
      | .pushPend =>
        if s.pend me.base = 0 ∨ (w.cont.prog.isEmpty ∧ s.pend me.base ≠ 255) then ok (resume false ctx s) else ok s
      | .peerAcks _ => if (s.ctx ctx).peerWrites.isEmpty then ok (resume false ctx s) else ok s
      | _ => ok s
  | _, _ => ok s

/-- The full/empty reads (R318). -/
def feRead (op : AccOp) (d a : WReg) (imm : Imm) (s : State) : Out :=
  access1 op (s.ea s.me.base a imm) 8 []
    [.xlate 0, .prot, .verify, .perform 0, .acquire, .finish (.loadW d .nt), .adv (Imm.len imm)] s

def execLdf (d a : WReg) (imm : Imm) (s : State) : Out := feRead .ldf d a imm s
def execLdt (d a : WReg) (imm : Imm) (s : State) : Out := feRead .ldt d a imm s

/-- `stf`: a release, then the fill (R318). -/
def execStf (sc : Scope) (a : WReg) (imm : Imm) (b : WReg) (s : State) : Out :=
  let base := s.me.base
  access1 .stf (s.ea base a imm) 8 [(s.getW base b).toNat]
    [.xlate 0, .prot, .verify, .commit, .release sc, .perform 0, .adv (Imm.len imm)] s

/-- `clre` (R318). -/
def execClre (a : WReg) (imm : Imm) (s : State) : Out :=
  access1 .clre (s.ea s.me.base a imm) 8 [] [.xlate 0, .prot, .verify, .perform 0, .adv (Imm.len imm)] s

/-- `push` (R319, R320): the target word, the wait while PEND is 255, the write phase, the distribution. -/
def execPush (t : Ty) (form : PushForm) (a : WReg) (off : BitVec 32) (b c : WReg) (s : State) : Out :=
  let me := s.me
  match pushTargets s me.core form (s.getW me.base c) with
  | none => ok (trap prot s)
  | some targets =>
    if s.pend me.base = 255 then ok (waitOn me .pushPend {} s)
    else access1 .write (s.getW me.base a + off.signExtend 64) (tyBytes t) [s.src me.base t.bits b]
      (plainSteps ++ [.finish (.push targets (targets.contains me.core)), .adv 12]) s

/-- `pref`: a request for the line when its address translates; no fault, and no wait for the line (R321). -/
def execPref (a : WReg) (imm : Imm) (s : State) : Out :=
  let me := s.me
  ok (startProg me { elems := [elemAt (s.ea me.base a imm) 1], prog := [.finish .prefetch, .adv (Imm.len imm)] } s)

/-- `cwb`, `cinv` and `cfl` (R322): any byte names its line. -/
def lineOp (kind : Nat) (a : WReg) (imm : Imm) (s : State) : Out :=
  let me := s.me
  ok (startProg me { op := .read, elems := [elemAt (s.ea me.base a imm) 1]
                     prog := [.xlate 0, .finish (.lineOp kind), .adv (Imm.len imm)] } s)

def execCwb (a : WReg) (imm : Imm) (s : State) : Out := lineOp 0 a imm s
def execCinv (a : WReg) (imm : Imm) (s : State) : Out := lineOp 1 a imm s
def execCfl (a : WReg) (imm : Imm) (s : State) : Out := lineOp 2 a imm s

/-! ### Atomics (R325 to R327) -/

/-- The release and the acquire of an atomic's ordering. -/
def ordRelease : AmoOrd → List Micro
  | .rel sc => [.commit, .release sc]
  | .acqrel sc => [.commit, .release sc]
  | _ => []
def ordAcquire : AmoOrd → List Micro
  | .acq _ => [.acquire]
  | .acqrel _ => [.acquire]
  | _ => []

/-- The small steps of an atomic: its faults before its release (R325). -/
def atomicSteps (ord : AmoOrd) (after : List Micro) : List Micro :=
  [.xlate 0, .prot, .marked, .verify] ++ ordRelease ord ++ [.perform 0] ++ ordAcquire ord ++ after

/-- `amo` (R325). -/
def execAmo (op : AmoOp) (t : Ty) (ord : AmoOrd) (d a b : WReg) (s : State) : Out :=
  let base := s.me.base
  let v := s.getW base b
  let flags : List Micro := if t.isFlt || t = .f64 then [.finish (.flagsOf op t v)] else []
  access1 (.amo op t v) (s.getW base a) (tyBytes t) []
    (atomicSteps ord (flags ++ [.finish (.loadW d t), .adv 8])) s

/-- `cas` (R326). -/
def execCas (t : Ty) (ord : AmoOrd) (d a b c : WReg) (s : State) : Out :=
  let base := s.me.base
  access1 (.cas t (s.getW base b) (s.getW base c)) (s.getW base a) (tyBytes t) []
    (atomicSteps ord [.finish (.loadW d t), .adv 12]) s

/-! ### Stash windows (R106, R108, R328, R329) -/

/-- `smap` (R106, R328): the walk of the range, and the window. DEDUCED: log 22. -/
def execSmap (win : Fin 8) (size : BitVec 3) (a b : WReg) (s : State) : Out :=
  let me := s.me
  ok (startProg me { prog := [.finish (.smap win size (s.getW me.base a).toNat (s.getW me.base b).toNat), .adv 8] } s)

/-- `sunmap` (R329). -/
def execSunmap (win : Fin 8) (s : State) : Out :=
  let me := s.me
  if !(s.win me.core win.val).v then ok (trap prot s)
  else if (s.win me.core win.val).unmapping then ok (waitOn me (.unmap me.core win.val) {} s)
  else
    let stranded := s.windowCopies me.core win.val
    match doSunmap me.core win.val s with
    | ([], s) => ok ((wakeWindow stranded (finishUnmap me.core win.val s)).advPc me.base 8)
    | (owed, s) => ok (waitOn me (.acks owed) { prog := [.finish (.sunmapEnd win.val), .adv 8] } (wakeWindow stranded s))
where
  /-- The accesses that waited for a line of the window go on: to the wait of R329, or to ordinary local memory. -/
  wakeWindow (ls : List (Nat × Nat)) (s : State) : State := ls.foldl (fun s hl => wakeLine hl.1 hl.2 s) s

/-- `swb` (R329). -/
def execSwb (win : Fin 8) (s : State) : Out :=
  let me := s.me
  if !(s.win me.core win.val).v then ok (trap prot s)
  else
    match doSwb me.core win.val s with
    | ([], s) => ok (s.advPc me.base 8)
    | (owed, s) => ok (waitOn me (.acks owed) { prog := [.adv 8] } s)

/-! ### `end` (R313) -/

/-- The small steps that end a context. -/
def endSteps : List Micro :=
  [.seal true, .finish .endCheck, .finish .waitSeq, .release .dev, .finish .endCtx]

def execEndT (s : State) : Out :=
  let me := s.me
  if s.kindOf me.base = 1 then ok (trap prot s) else ok (startProg me { prog := endSteps } s)

end Sys2Proof.Machine
end

