-- ==== Sys2Proof/Machine/Affine.lean ====
section
/-! DEFINITION. The affine instructions (R188 to R203, R379 to R385): their checks in the order of R379, the pair
`AFNEXT`, `AFLIM` with the domain record (R191, R192), and the movement of forms. -/

namespace Sys2Proof.Machine

open Sys2Proof

/-- The end of an affine instruction: its trap, or its form with the mint it made. -/
def afFinish (me : Me) (d : AfReg) (r : AfEnd) (s : State) : State :=
  match r with
  | .trap t => trapEntry me t s
  | .form v minted =>
    let c := s.ctx me.key
    let t := s.team c.cluster c.entry
    let s := if minted then setPair c.cluster c.entry (t.afnext + 1) t.aflim s else s
    (s.setAf me.base d v).advPc me.base 8

/-- An instruction on one form, and on two. -/
def af1 (d a : AfReg) (f : Domain → Form → AfEnd) (s : State) : Out :=
  let me := s.me
  match s.forms me [a] with
  | some [x] => ok (afFinish me d (f (s.domain me.key) x) s)
  | _ => ok (trap prot s)
def af2 (d a b : AfReg) (f : Domain → Form → Form → AfEnd) (s : State) : Out :=
  let me := s.me
  match s.forms me [a, b] with
  | some [x, y] => ok (afFinish me d (f (s.domain me.key) x y) s)
  | _ => ok (trap prot s)

/-- `afnew` (R194, R380). -/
def execAfnew (d : AfReg) (a b : WReg) (s : State) : Out :=
  let me := s.me
  ok (afFinish me d (valAfnew (s.domain me.key) (s.src me.base 32 a) (s.src me.base 32 b)) s)

def execAfadd (d a b : AfReg) (s : State) : Out := af2 d a b (valAfadd false) s
def execAfsub (d a b : AfReg) (s : State) : Out := af2 d a b (valAfadd true) s
def execAfscl (d a : AfReg) (b : WReg) (s : State) : Out :=
  af1 d a (fun m x => valAfscl m x (s.src s.me.base 32 b)) s
def execAfaddc (d a : AfReg) (b : WReg) (s : State) : Out :=
  af1 d a (fun m x => valAfaddc m x (s.src s.me.base 32 b)) s
def execAfmul (d a b : AfReg) (s : State) : Out := af2 d a b valAfmul s
def execAfrelu (d a : AfReg) (s : State) : Out := af1 d a valAfrelu s
def execAfcond (d a : AfReg) (b : WReg) (cap : BitVec 4) (s : State) : Out :=
  af1 d a (fun m x => valAfcond m x (s.getAf s.me.base a) (s.src s.me.base 32 b) cap.toNat) s

/-- `afrng` (R198, R381). -/
def execAfrng (t : Ty) (d : WReg) (a : AfReg) (s : State) : Out :=
  let me := s.me
  match s.forms me [a] with
  | some [x] =>
    let r := formRange (fmtOf t) x
    let s := if t = .f64 then
        (s.setW me.base d (BitVec.ofNat 64 r.1)).setW me.base (d + 1) (BitVec.ofNat 64 r.2)
      else s.setW me.base d (BitVec.ofNat 64 (r.1 + r.2 * 2 ^ 32))
    ok (s.advPc me.base 8)
  | _ => ok (trap prot s)

/-- The small steps of the two halves of a form (R201). -/
def formSteps : List Micro := [.xlate 0, .xlate 1, .prot, .marked, .verify]

/-- The access of a form: `#ALIGN` with INFO0 = 64 first (R382). -/
def accessForm (op : AccOp) (ea : Word) (prog : List Micro) (s : State) : Out :=
  if ea.toNat % 64 ≠ 0 then ok (trap (align ea.toNat 64 op.acc) s)
  else ok (startProg s.me
    { op := op, elems := [elemAt ea 32, elemAt (ea + 32) 32], prog := formSteps ++ prog } s)

/-- `afld` (R382). -/
def execAfld (d : AfReg) (a : WReg) (imm : Imm) (s : State) : Out :=
  accessForm .read (s.ea s.me.base a imm) [.perform 0, .perform 1, .finish (.loadAf d), .adv (Imm.len imm)] s

/-- `afst`: the memory faults, the canonical check, the write (R379, R382). -/
def execAfst (a : WReg) (imm : Imm) (b : AfReg) (s : State) : Out :=
  accessForm .write (s.ea s.me.base a imm) [.finish (.storeAf b), .perform 0, .perform 1, .adv (Imm.len imm)] s

/-- `afmov` copies the 64 bytes as they stand (R382). -/
def execAfmov (d a : AfReg) (s : State) : Out :=
  let base := s.me.base
  ok ((s.setAf base d (s.getAf base a)).advPc base 8)

/-- `afdom` (R192, R383). -/
def execAfdom (d : WReg) (s : State) : Out :=
  let me := s.me
  let t := s.teamOf me.key
  ok ((s.setW me.base d (BitVec.ofNat 64 (t.domid % 2 ^ 16 + t.drec % 2 ^ 23 * 2 ^ 16))).advPc me.base 8)

/-- The checks 1 and 2 of R384 on the address of a symbol list. -/
def listPlace (me : Me) (b : WReg) (s : State) : Option TrapInfo :=
  let v := (s.getW me.base b).toNat
  if v % 32 ≠ 0 then some (align v 32 accRead)
  else if !clusterAddrOk v || !s.clusterGeneral (clusterOf me.core) v 32 then some prot
  else none

/-- An instruction that reads a symbol list: at once in the core's own local memory, after a journey in another's
(R96, R379). -/
def withList (me : Me) (f : Finish) (b : WReg) (s : State) : Out :=
  match listPlace me b s with
  | some t => ok (trap t s)
  | none => ok (startProg me { prog := [.travel f, .finish f, .adv 8] } s)

/-- `afpack` (R202, R384). DEDUCED: log 17. -/
def execAfpack (t : Ty) (d : VReg) (a : AfReg) (b : WReg) (s : State) : Out :=
  let me := s.me
  match s.forms me [a] with
  | some [_] => withList me (.afpack t d a b) b s
  | _ => ok (trap prot s)

/-- `afunpk` (R202, R384). DEDUCED: log 17. -/
def execAfunpk (d : AfReg) (a : VReg) (b : WReg) (s : State) : Out :=
  let me := s.me
  withList me (.afunpk d a b) b s

end Sys2Proof.Machine
end

