-- ==== Sys2Proof/Machine/Vector.lean ====
section
/-! DEFINITION. What each instruction of the vector section computes at its grant (R330, R331, R335 to R347, R185 to
R187): the words it will write into its workspace and its flags, or the cause it raises. `rd off n` is the `n` bytes
at an offset of the workspace. -/

namespace Sys2Proof.Machine

open Sys2Proof

/-- What a granted vector entry comes to. -/
inductive VOut where
  | writes (ws : List (Nat × Nat × Nat)) (flags : Nat)   -- offset, bytes and value
  | trap (t : TrapInfo)
  | later
  deriving Repr

/-- Registers read by their place in the workspace (R132). -/
def rdV (rd : Nat → Nat → Nat) (r : VReg) : Nat := rd (offV + 64 * r.val) 64
def rdW (rd : Nat → Nat → Nat) (r : WReg) : Nat := rd (8 * r.val) 8
def rdP (rd : Nat → Nat → Nat) (r : PReg) : Nat := rd (offP + 8 * r.val) 8

/-- A register's write. -/
def toV (r : VReg) (v : Nat) : Nat × Nat × Nat := (offV + 64 * r.val, 64, v)
def toW (r : WReg) (v : Nat) : Nat × Nat × Nat := (8 * r.val, 8, v)
def toP (r : PReg) (v : Nat) : Nat × Nat × Nat := (offP + 8 * r.val, 8, v)

/-- Whether an element is active (R331). -/
def active (rd : Nat → Nat → Nat) (p : Option PReg) (i : Nat) : Bool :=
  match p with
  | none => true
  | some p => bit (rdP rd p) i

/-- `n` elements of width `w`: the result and its flags where active, the old element where not (R331). -/
def lanes (w n : Nat) (act : Nat → Bool) (old : Nat) (f : Nat → Nat × Nat) : Nat × Nat :=
  (ofElems w n (fun i => if act i then (f i).1 else elem w old i),
   (List.range n).foldl (fun fl i => if act i then fl ||| (f i).2 else fl) 0)

/-- A whole register of results. -/
def vecResult (rd : Nat → Nat → Nat) (w : Nat) (d : VReg) (p : Option PReg) (f : Nat → Nat × Nat) : VOut :=
  let r := lanes w (512 / w) (active rd p) (rdV rd d) f
  .writes [toV d r.1] r.2

/-- An element-wise operation of two registers. -/
def vec2 (rd : Nat → Nat → Nat) (t : Ty) (d a b : VReg) (p : Option PReg) (f : Nat → Nat → Nat × Nat) : VOut :=
  vecResult rd t.bits d p (fun i => f (elem t.bits (rdV rd a) i) (elem t.bits (rdV rd b) i))

/-! ### Placement (R335) -/

def valVbc (rd : Nat → Nat → Nat) (t : Ty) (d : VReg) (a : WReg) (p : Option PReg) : VOut :=
  vecResult rd t.bits d p (fun _ => (rdW rd a % 2 ^ t.bits, 0))

def valVins (rd : Nat → Nat → Nat) (t : Ty) (d : VReg) (a : WReg) (lane : BitVec 6) : VOut :=
  vecResult rd t.bits d none (fun i => (if i = lane.toNat then rdW rd a % 2 ^ t.bits else elem t.bits (rdV rd d) i, 0))

def valVext (rd : Nat → Nat → Nat) (t : Ty) (d : WReg) (a : VReg) (lane : BitVec 6) : VOut :=
  .writes [toW d (extendLoad t (elem t.bits (rdV rd a) lane.toNat)).toNat] 0

def valVslide (rd : Nat → Nat → Nat) (t : Ty) (d a : VReg) (n : BitVec 6) : VOut :=
  vecResult rd t.bits d none
    (fun i => (if i + n.toNat < t.elems then elem t.bits (rdV rd a) (i + n.toNat) else 0, 0))

def valVperm (rd : Nat → Nat → Nat) (t : Ty) (d a b : VReg) (p : Option PReg) : VOut :=
  vecResult rd t.bits d p (fun i => (elem t.bits (rdV rd a) (elem t.bits (rdV rd b) i % t.elems), 0))

/-! ### Arithmetic (R336 to R338) -/

/-- Integer and floating forms of one operation. -/
def arith (t : Ty) (int : Nat → Nat → Nat) (flt : Nat → Nat → Nat × Nat) (x y : Nat) : Nat × Nat :=
  if t.isInt then (int x y % 2 ^ t.bits, 0) else flt x y

def valVadd (rd : Nat → Nat → Nat) (t : Ty) (rm : Rm) (d a b : VReg) (p : Option PReg) : VOut :=
  vec2 rd t d a b p (arith t (· + ·) (fpAdd (fmtOf t) rm))

def valVsub (rd : Nat → Nat → Nat) (t : Ty) (rm : Rm) (d a b : VReg) (p : Option PReg) : VOut :=
  vec2 rd t d a b p (arith t (fun x y => x + 2 ^ t.bits - y) (fpSub (fmtOf t) rm))

def valVmul (rd : Nat → Nat → Nat) (t : Ty) (rm : Rm) (d a b : VReg) (p : Option PReg) : VOut :=
  vec2 rd t d a b p (arith t (· * ·) (fpMul (fmtOf t) rm))

/-- Whether `x` is below `y`, signed for an `i` type (R336). -/
def intLess (t : Ty) (x y : Nat) : Bool :=
  if t.isSigned then decide (toSigned t.bits x < toSigned t.bits y) else decide (x < y)

def valVmax (rd : Nat → Nat → Nat) (t : Ty) (d a b : VReg) (p : Option PReg) : VOut :=
  vec2 rd t d a b p (arith t (fun x y => if intLess t x y then y else x) (fpMinMax (fmtOf t) true))

def valVmin (rd : Nat → Nat → Nat) (t : Ty) (d a b : VReg) (p : Option PReg) : VOut :=
  vec2 rd t d a b p (arith t (fun x y => if intLess t y x then y else x) (fpMinMax (fmtOf t) false))

/-- The fused forms (R337). -/
def fused (rd : Nat → Nat → Nat) (t : Ty) (rm : Rm) (sub : Bool) (d a b c : VReg) (p : Option PReg) : VOut :=
  vecResult rd t.bits d p (fun i =>
    fpFma (fmtOf t) rm sub (elem t.bits (rdV rd a) i) (elem t.bits (rdV rd b) i) (elem t.bits (rdV rd c) i))

def valVfma (rd : Nat → Nat → Nat) (t : Ty) (rm : Rm) (d a b c : VReg) (p : Option PReg) : VOut :=
  fused rd t rm false d a b c p

def valVfms (rd : Nat → Nat → Nat) (t : Ty) (rm : Rm) (d a b c : VReg) (p : Option PReg) : VOut :=
  fused rd t rm true d a b c p

/-- `vabs`: the most negative integer stays itself; a float loses its sign bit (R338). -/
def valVabs (rd : Nat → Nat → Nat) (t : Ty) (d a : VReg) (p : Option PReg) : VOut :=
  vecResult rd t.bits d p (fun i =>
    let x := elem t.bits (rdV rd a) i
    (if t.isInt then (if bit x (t.bits - 1) then (2 ^ t.bits - x) % 2 ^ t.bits else x) else x % 2 ^ (t.bits - 1), 0))

def valVneg (rd : Nat → Nat → Nat) (t : Ty) (d a : VReg) (p : Option PReg) : VOut :=
  vecResult rd t.bits d p (fun i =>
    let x := elem t.bits (rdV rd a) i
    (if t.isInt then (2 ^ t.bits - x) % 2 ^ t.bits else x ^^^ 2 ^ (t.bits - 1), 0))

/-! ### Logic and shifts (R339) -/

def valVand (rd : Nat → Nat → Nat) (t : Ty) (d a b : VReg) (p : Option PReg) : VOut :=
  vec2 rd t d a b p (fun x y => (x &&& y, 0))

def valVor (rd : Nat → Nat → Nat) (t : Ty) (d a b : VReg) (p : Option PReg) : VOut :=
  vec2 rd t d a b p (fun x y => (x ||| y, 0))

def valVxor (rd : Nat → Nat → Nat) (t : Ty) (d a b : VReg) (p : Option PReg) : VOut :=
  vec2 rd t d a b p (fun x y => (x ^^^ y, 0))

def valVshl (rd : Nat → Nat → Nat) (t : Ty) (d a b : VReg) (p : Option PReg) : VOut :=
  vec2 rd t d a b p (fun x y => (x * 2 ^ (y % t.bits) % 2 ^ t.bits, 0))

def valVshr (rd : Nat → Nat → Nat) (t : Ty) (d a b : VReg) (p : Option PReg) : VOut :=
  vec2 rd t d a b p (fun x y => (x / 2 ^ (y % t.bits), 0))

def valVsra (rd : Nat → Nat → Nat) (t : Ty) (d a b : VReg) (p : Option PReg) : VOut :=
  vec2 rd t d a b p (fun x y => (wrapInt t.bits (toSigned t.bits x / (2 ^ (y % t.bits) : Nat)), 0))

/-! ### Compare, select, convert, reduce (R340 to R343) -/

/-- One comparison of elements, with its flags (R340, R157). -/
def relation (t : Ty) (k : Rel) (x y : Nat) : Bool × Nat :=
  if t.isInt then
    (relHolds k (some (if t.isSigned then compare (toSigned t.bits x) (toSigned t.bits y) else compare x y)), 0)
  else fpRel (fmtOf t) k x y

def valVcmp (rd : Nat → Nat → Nat) (t : Ty) (k : Rel) (d : PReg) (a b : VReg) (p : Option PReg) : VOut :=
  let r := lanes 1 t.elems (active rd p) 0 (fun i =>
    let q := relation t k (elem t.bits (rdV rd a) i) (elem t.bits (rdV rd b) i)
    (b2n q.1, q.2))
  .writes [toP d r.1] r.2

def valVsel (rd : Nat → Nat → Nat) (t : Ty) (d a b : VReg) (p : PReg) : VOut :=
  vecResult rd t.bits d none (fun i =>
    (if bit (rdP rd p) i then elem t.bits (rdV rd a) i else elem t.bits (rdV rd b) i, 0))

def valVcvt (rd : Nat → Nat → Nat) (u t : Ty) (rm : Rm) (d a : VReg) (p : Option PReg) : VOut :=
  let n := 512 / max u.bits t.bits
  let r := lanes u.bits n (active rd p) (rdV rd d) (fun i => convert u t rm (elem t.bits (rdV rd a) i))
  .writes [toV d r.1] r.2

/-- `vred` (R343, R166): the tree over `f32` values, an inactive element entering as the zero of the mode. -/
def valVred (rd : Nat → Nat → Nat) (t : Ty) (rm : Rm) (d : WReg) (a : VReg) (p : PReg) : VOut :=
  let act := fun i => bit (rdP rd p) i
  let x := fun i => elem t.bits (rdV rd a) i
  if t.isInt then
    .writes [toW d ((List.range t.elems).foldl (fun acc i => if act i then acc + x i else acc) 0 % 2 ^ t.bits)] 0
  else
    let idle := if rm = .rdn then 0 else 2 ^ 31
    let leaf := fun i =>
      if act i then
        (if t = .f32 then (x i, 0)
         else
           let v := (fmtOf t).decode (x i)
           ((fmtF32.deliver .rne v).1, flagsInvalid v.isSnan))
      else (idle, 0)
    let ls := (List.range t.elems).map leaf
    let r := treeSum fmtF32 rm (if t = .f32 then 4 else 5) (ls.map Prod.fst) (ls.foldl (fun f l => f ||| l.2) 0)
    .writes [toW d r.1] r.2

/-! ### Trees and tables (R185 to R187, R344, R345) -/

/-- The records of a node table that `vcmpm` reads: record `t * 2^d + i` for `i` below `2^d - 1`. -/
def nodeList (d trees : Nat) : List Nat :=
  (List.range trees).flatMap (fun t => (List.range (2 ^ d - 1)).map (fun i => t * 2 ^ d + i))

/-- A record with a nonzero reserved bit or FEAT above 15 (R185). -/
def nodeBad (r : Nat) : Bool := decide (15 < bits r 32 8) || decide (bits r 42 6 ≠ 0) || decide (bits r 48 16 ≠ 0)

/-- The outcome of a node for its feature, with NV for a signalling NaN (R185). DEDUCED: log 16. -/
def nodeOutcome (r x : Nat) : Bool × Nat :=
  let f := fmtF32.decode x
  let dflt := bit r 40
  if bit r 41 then
    let v := toIntType .i64 .rtz f
    let whole := v.2 = 0 && decide (v.1 < 32)
    (if whole then bit (r % 2 ^ 32) v.1 else dflt, flagsInvalid f.isSnan)
  else
    let thr := fmtF32.decode (r % 2 ^ 32)
    let fl := flagsInvalid (f.isSnan || thr.isSnan)
    if f.isNan then (dflt, fl)
    else
      match f.cmp thr with
      | some .lt => (false, fl)
      | some _ => (true, fl)
      | none => (false, fl)

/-- The table's records read one by one (R181); a malformed record's `#PROT` comes before the `#MCHK` of a lost one
(R344). -/
def nodesRead (cluster base : Nat) : List Nat → State → Local (List (Nat × Nat)) × State
  | [], s => (.got [], s)
  | k :: r, s =>
    match engineRd (unitOf (cluster * 8)) cluster (base + 8 * k) 8 s with
    | (.later b, s) => (.later b, s)
    | (.got v, s) =>
      match nodesRead cluster base r s with
      | (.got l, s) => (.got ((k, v) :: l), s)
      | (.trap t, s) => (.trap (if t.cause = .mchk && nodeBad v then prot else t), s)
      | (.later b, s) => (.later b, s)
    | (.trap t, s) =>
      if t.cause ≠ .mchk then (.trap t, s)
      else
        match nodesRead cluster base r s with
        | (.got l, s) => (.trap (if l.any (fun x => nodeBad x.2) then prot else t), s)
        | (.trap u, s) => (.trap (if u.cause = .mchk then t else u), s)
        | (.later b, s) => (.later b, s)

/-- A record that lies in no window and in no lost line: its bytes are there to be judged at once. -/
def State.plainRec (s : State) (cluster a : Nat) : Bool :=
  !s.clusterWindow cluster a 8 && (s.clusterLost cluster a 8 0 0).isNone

/-- `vcmpm` (R185, R344). -/
def valVcmpm (rd : Nat → Nat → Nat) (cluster : Nat) (d : PReg) (a : VReg) (b : WReg) (depth : BitVec 3)
    (trees : BitVec 6) (s : State) : VOut × State :=
  let base := rdW rd b
  let ks := nodeList depth.toNat trees.toNat
  if base % 8 ≠ 0 then (.trap (align base 8 accRead), s)
  else if !clusterAddrOk base || ks.any (fun k => !s.clusterGeneral cluster (base + 8 * k) 8)
      || ks.any (fun k => s.plainRec cluster (base + 8 * k) && nodeBad (s.clusterRd cluster (base + 8 * k) 8)) then
    (.trap prot, s)
  else
    match nodesRead cluster base ks s with
    | (.trap t, s) => (.trap t, s)
    | (.later _, s) => (.later, s)
    | (.got rs, s) =>
      if rs.any (fun r => nodeBad r.2) then (.trap prot, s)
      else
        let one := fun (acc : Nat × Nat) (r : Nat × Nat) =>
          let o := nodeOutcome r.2 (elem 32 (rdV rd a) (bits r.2 32 4))
          (acc.1 + b2n o.1 * 2 ^ r.1, acc.2 ||| o.2)
        let r := rs.foldl one (0, 0)
        (.writes [toP d r.1] r.2, s)

/-- The leaf that a tree's outcomes lead to (R186). -/
def leafWalk (mask t d : Nat) : Nat → Nat → Nat
  | 0, i => t * 2 ^ d + i - (2 ^ d - 1)
  | n + 1, i => leafWalk mask t d n (2 * i + 1 + b2n (bit mask (t * 2 ^ d + i)))

/-- `vleaf` (R186, R344). -/
def valVleaf (rd : Nat → Nat → Nat) (d : VReg) (a : PReg) (depth : BitVec 3) (trees : BitVec 6) : VOut :=
  let lane := fun t => if t < trees.toNat then leafWalk (rdP rd a) t depth.toNat depth.toNat 0 else 0
  let lo := toV d (ofElems 32 16 lane)
  if 16 < trees.toNat then .writes [lo, toV (d + 1) (ofElems 32 16 (fun i => lane (16 + i)))] 0
  else .writes [lo] 0

/-- The bytes of a table entry of `vlut` (R345). -/
def lutBytes : Ty → Nat
  | .n16 | .bf16 => 2
  | .n32 | .f32 => 4
  | _ => 1

/-- The value a table entry gives (R345, R187), with the flags of a conversion out of `gz8` (R164). -/
def lutValue (t : Ty) (x : Nat) : Nat × Nat :=
  match t with
  | .bf16 => (x * 2 ^ 16, 0)
  | .gz8 => gzToFloat fmtF32 .rne x
  | _ => (x, 0)

/-- The entries of a table, one for each lane (R181). -/
def entriesRead (cluster n : Nat) : List Nat → State → Local (List Nat) × State
  | [], s => (.got [], s)
  | a :: r, s =>
    match engineRd (unitOf (cluster * 8)) cluster a n s with
    | (.got v, s) =>
      match entriesRead cluster n r s with
      | (.got l, s) => (.got (v :: l), s)
      | x => x
    | (.trap t, s) => (.trap t, s)
    | (.later b, s) => (.later b, s)

/-- `vlut` (R345). -/
def valVlut (rd : Nat → Nat → Nat) (cluster : Nat) (t : Ty) (d a : VReg) (b : WReg) (s : State) : VOut × State :=
  let n := lutBytes t
  let base := rdW rd b
  let addrs := (List.range 16).map (fun j => base + n * elem 32 (rdV rd a) j)
  match addrs.find? (fun x => x % n ≠ 0) with
  | some x => (.trap (align x n accRead), s)
  | none =>
    if !clusterAddrOk base || addrs.any (fun x => !clusterAddrOk x || !s.clusterGeneral cluster x n) then (.trap prot, s)
    else
      match entriesRead cluster n addrs s with
      | (.trap t, s) => (.trap t, s)
      | (.later _, s) => (.later, s)
      | (.got xs, s) =>
        let vs := xs.map (lutValue t)
        (.writes [toV d (ofElems 32 16 (fun i => (vs.getD i (0, 0)).1))] (vs.foldl (fun f v => f ||| v.2) 0), s)

/-! ### Block quantisation (R346, R347) -/

/-- The scale's place in a block image (R346). -/
def scaleBits (t : Ty) : Nat := if isS12 t then 16 else 8

/-- `vquant`: 32 inputs of the pair from register A (R347). -/
def valVquant (rd : Nat → Nat → Nat) (t : Ty) (e5 : Bool) (rm : Rm) (d a : VReg) (p : Option PReg) : VOut :=
  let x := fun i => elem 32 (if i < 16 then rdV rd a else rdV rd (a + 1)) (i % 16)
  let val := fun i => if active rd p i then fmtF32.decode (x i) else Fp.zero false
  let q := quantise t e5 rm ((List.range 32).map val)
  let snan := (List.range 32).any (fun i => (val i).isSnan)
  let code := fun i => if active rd p i then q.2.1.getD i 0 else 0
  let w := blockBits t
  .writes [toV d (ofElems w 32 code + q.1 * 2 ^ 256)] (q.2.2 ||| flagsInvalid snan)

/-- `vdeq`: 32 outputs into the pair from register D (R347). -/
def valVdeq (rd : Nat → Nat → Nat) (t : Ty) (e5 : Bool) (rm : Rm) (d a : VReg) (p : Option PReg) : VOut :=
  let img := rdV rd a
  let scale := let c := bits img 256 (scaleBits t); if isS12 t then s12Value c else e8m0Value c
  let f := fun i =>
    let v := blockValue (blockElem t e5).1 scale (elem (blockBits t) img i)
    fmtF32.deliver rm v
  let lo := lanes 32 16 (active rd p) (rdV rd d) f
  let hi := lanes 32 16 (fun i => active rd p (16 + i)) (rdV rd (d + 1)) (fun i => f (16 + i))
  .writes [toV d lo.1, toV (d + 1) hi.1] (lo.2 ||| hi.2)

/-! ### One table of them all -/

/-- What a granted vector-section instruction comes to; nothing for an instruction of another resource. -/
def vecValue (rd : Nat → Nat → Nat) (core : Nat) (i : Instr) (s : State) : VOut × State :=
  match i with
  | .vbc t d a p => (valVbc rd t d a p, s)
  | .vins t d a l => (valVins rd t d a l, s)
  | .vext t d a l => (valVext rd t d a l, s)
  | .vslide t d a n => (valVslide rd t d a n, s)
  | .vperm t d a b p => (valVperm rd t d a b p, s)
  | .vadd t rm d a b p => (valVadd rd t rm d a b p, s)
  | .vsub t rm d a b p => (valVsub rd t rm d a b p, s)
  | .vmul t rm d a b p => (valVmul rd t rm d a b p, s)
  | .vmax t d a b p => (valVmax rd t d a b p, s)
  | .vmin t d a b p => (valVmin rd t d a b p, s)
  | .vfma t rm d a b c p => (valVfma rd t rm d a b c p, s)
  | .vfms t rm d a b c p => (valVfms rd t rm d a b c p, s)
  | .vabs t d a p => (valVabs rd t d a p, s)
  | .vneg t d a p => (valVneg rd t d a p, s)
  | .vand t d a b p => (valVand rd t d a b p, s)
  | .vor t d a b p => (valVor rd t d a b p, s)
  | .vxor t d a b p => (valVxor rd t d a b p, s)
  | .vshl t d a b p => (valVshl rd t d a b p, s)
  | .vshr t d a b p => (valVshr rd t d a b p, s)
  | .vsra t d a b p => (valVsra rd t d a b p, s)
  | .vcmp t k d a b p => (valVcmp rd t k d a b p, s)
  | .vsel t d a b p => (valVsel rd t d a b p, s)
  | .vcvt u t rm d a p => (valVcvt rd u t rm d a p, s)
  | .vred t rm d a p => (valVred rd t rm d a p, s)
  | .vcmpm d a b depth trees => valVcmpm rd (clusterOf core) d a b depth trees s
  | .vleaf d a depth trees => (valVleaf rd d a depth trees, s)
  | .vlut t d a b => valVlut rd (clusterOf core) t d a b s
  | .vquant t e5 rm d a p => (valVquant rd t e5 rm d a p, s)
  | .vdeq t e5 rm d a p => (valVdeq rd t e5 rm d a p, s)
  | _ => (.writes [] 0, s)

end Sys2Proof.Machine
end

