-- ==== Sys2Proof/Machine/Tensor.lean ====
section
/-! DEFINITION. What each instruction of the tensor array does at its grant (R172 to R180, R350 to R358): the checks in
the order of R350, and the effects on the array's state, which apply in grant order (R179). -/

namespace Sys2Proof.Machine

open Sys2Proof

/-- What a granted tensor entry leaves to be done before its slot returns. -/
structure TGrant where
  writes : List (Nat × Nat × Nat) := []
  cycles : Nat := 1
  flags : Nat := 0
  amax : Option (Scope × Nat × Nat) := none  -- scope, virtual address and value of a drain's atomic
  deriving Repr

/-- What a tensor entry at its grant comes to. -/
inductive TOut where
  | grant (g : TGrant)
  | trap (t : TrapInfo)
  | later
  | claimed                                -- `tcfg.claim` of an array that another team holds (R352)
  deriving Repr

/-! ### Configuration (R173, R174) -/

def confAel (c : Nat) : Nat := bits c 0 4
def confAsc (c : Nat) : Nat := bits c 6 2
def confWel (c : Nat) : Nat := bits c 8 4
def confWsc (c : Nat) : Nat := bits c 14 2
def confSp (c : Nat) : Nat := bits c 18 2

/-- A word that `tcfg` accepts (R173). -/
def confOk (c : Nat) : Bool :=
  let wide := fun e => e = 3 || e = 4
  decide (bits c 4 2 = 0) && decide (bits c 12 2 = 0) && decide (bits c 17 1 = 0) && decide (c < 2 ^ 20) &&
  decide (confAel c ≤ 5) && decide (confWel c ≤ 5) && decide (confAsc c ≠ 3) && decide (confWsc c ≠ 3) &&
  !(confAsc c ≠ 0 && wide (confAel c)) && !(confWsc c ≠ 0 && wide (confWel c)) &&
  !(confSp c ≠ 0 && (confAel c = 2 || wide (confAel c) || confWel c = 2 || wide (confWel c)))

/-- The fields that a configuration keeps. -/
def confFields (c : Nat) : Nat :=
  confAel c + confAsc c * 2 ^ 6 + confWel c * 2 ^ 8 + confWsc c * 2 ^ 14 + confSp c * 2 ^ 18

/-- `TCONF` as `tcfg` returns it. -/
def Quad.tconf (q : Quad) : Nat := q.conf.toNat + b2n q.owner.isSome * 2 ^ 16

/-- The bits of an element by its code. -/
def codeBits (c : Nat) : Nat := if c = 2 then 4 else if c = 3 ∨ c = 4 then 16 else 8

/-- N of N:128 sparsity. -/
def sparseN (sp : Nat) : Nat := 8 * 2 ^ sp

/-- KT, the physical weight rows, and the cycles of an activation row (R174). -/
def shapeOf (c : Nat) : Nat × Nat × Nat :=
  let wide := fun e => e = 3 || e = 4
  if confAel c = 2 && confWel c = 2 then (512, 512, 1)
  else if wide (confAel c) || wide (confWel c) then (256, 256, 2)
  else if confSp c ≠ 0 then (512, 4 * sparseN (confSp c), 1)
  else (256, 256, 1)

/-- The value of an element by its code (R173). -/
def codeValue (c x : Nat) : Fp :=
  match c with
  | 0 => fmtE4m3.decode x
  | 1 => fmtE5m2.decode x
  | 2 => fmtE2m1.decode x
  | 3 => fmtBf16.decode x
  | 4 => fmtF16.decode x
  | _ => blockElemValue none x

/-- The bytes of a scale, and its value (R176). -/
def scaleBytes (sc : Nat) : Nat := if sc = 2 then 2 else 1
def scaleValue (sc x : Nat) : Fp :=
  match sc with
  | 0 => .num false 1 0 1
  | 1 => e8m0Value x
  | _ => s12Value x

/-! ### The step word (R177) -/

def stepRows (w : Nat) : Nat := bits w 0 10 + 1
def stepAcc (w : Nat) : Nat := bits w 10 9
def stepStride (w : Nat) : Nat := 32 * bits w 25 16
def stepScales (w : Nat) : Nat := bits w 41 23
/-- A step word that `tzero`, `tmma` and `tdrain` refuse alike. -/
def stepBad (w : Nat) : Bool := decide (bits w 19 6 ≠ 0) || decide (512 < stepAcc w + stepRows w)

/-! ### Arithmetic of a step (R167, R177, R178) -/

/-- The weight of logical row `k` and column `n`; none where a sparse step skips the product. -/
def Plane.weight (p : Plane) (c k n : Nat) : Option Nat :=
  let b := codeBits (confWel c)
  let at_ := fun row => bits p.tile ((row * 128 + n) * b) b
  if confSp c = 0 then some (at_ k)
  else
    let mask := bits p.metaBits ((128 * (k / 128) + n) * 128) 128
    if bit mask (k % 128) then some (at_ (k / 128 * sparseN (confSp c) + popCount (k % 128) mask)) else none

/-- One accumulator element over the groups of a tile (R167). -/
def accumulate (p : Plane) (c row scales n : Nat) (acc : Nat) : Nat :=
  let ab := codeBits (confAel c)
  let as := 8 * scaleBytes (confAsc c)
  let ws := 8 * scaleBytes (confWsc c)
  (List.range ((shapeOf c).1 / 32)).foldl (fun acc g =>
    let ps := (List.range 32).map (fun j =>
      let k := 32 * g + j
      match p.weight c k n with
      | some w => ((codeValue (confAel c) (bits row (k * ab) ab)).mul (codeValue (confWel c) w)).1
      | none => Fp.zero false)
    accumulateGroup acc ps (scaleValue (confAsc c) (bits scales (g * as) as))
      (scaleValue (confWsc c) (bits p.scales ((g * 128 + n) * ws) ws))) acc

/-- A row of accumulators after one activation row. -/
def stepRow (p : Plane) (c row scales acc : Nat) : Nat :=
  ofElems 32 128 (fun n => accumulate p c row scales n (elem 32 acc n))

/-! ### Operands (R350) -/

/-- Causes of alignment and of place among operand ranges: each is an address, its alignment, and its lengths with their
offsets. DEDUCED: log 19. -/
def tAlign (as : List (Nat × Nat)) : Option TrapInfo :=
  (as.find? (fun a => a.1 % a.2 ≠ 0)).map (fun a => align a.1 a.2 accRead)

/-- Ranges of one operand: every one in general regions, its address below 2^23. -/
def State.tPlace (s : State) (cluster addr : Nat) (ranges : List (Nat × Nat)) : Bool :=
  clusterAddrOk addr && ranges.all (fun r => s.clusterGeneral cluster r.1 r.2)

/-- Ranges read in turn. -/
def rangesRead (cluster : Nat) : List (Nat × Nat) → State → Local (List Nat) × State
  | [], s => (.got [], s)
  | (a, n) :: r, s =>
    match engineRd (unitOf (cluster * 8)) cluster a n s with
    | (.got v, s) =>
      match rangesRead cluster r s with
      | (.got l, s) => (.got (v :: l), s)
      | x => x
    | (.trap t, s) => (.trap t, s)
    | (.later b, s) => (.later b, s)

/-- The team of a context holds the array (R172). -/
def State.holdsArray (s : State) (quad key : Nat) : Bool :=
  (s.quad quad).owner = some (s.domOf key)

/-! ### The entries -/

/-- `tcfg` once the array is held: the fields of W[a], the old value into W[d] (R351). -/
def configure (quad : Nat) (d : WReg) (v old : Nat) (s : State) : TOut × State :=
  let q := s.quad quad
  let c := q.conf.toNat
  let n := confFields v
  let q := { q with conf := BitVec.ofNat 20 n }
  let q := if confSp c = confSp n ∧ confWsc c = confWsc n ∧ confWel c = confWel n then q
    else { q with active := {}, shadow := {}, scaleQ := [] }
  (.grant { writes := [toW d old] }, s.setQuad quad q)

def valTcfg (rd : Nat → Nat → Nat) (quad key : Nat) (d a : WReg) (s : State) : TOut × State :=
  if !s.holdsArray quad key then (.trap prot, s)
  else if !confOk (rdW rd a - bits (rdW rd a) 16 1 * 2 ^ 16) then (.trap prot, s)
  else configure quad d (rdW rd a) (s.quad quad).tconf s

/-- `tcfg.claim` (R351, R352): it takes a free array, waits for one that another team holds, and raises `#BLOCK` in a
codelet. DEDUCED: log 35. -/
def valTcfgClaim (rd : Nat → Nat → Nat) (quad key : Nat) (codelet : Bool) (d a : WReg) (s : State) : TOut × State :=
  let q := s.quad quad
  if !confOk (rdW rd a - bits (rdW rd a) 16 1 * 2 ^ 16) then (.trap prot, s)
  else if s.holdsArray quad key then configure quad d (rdW rd a) q.tconf s
  else if q.owner.isSome || q.releasing.isSome then
    (if codelet then .trap { cause := .block } else .claimed, s)
  else
    configure quad d (rdW rd a) q.tconf
      (s.setQuad quad { q with owner := some (s.domOf key) })

def valTcfgRel (quad key : Nat) (d : WReg) (s : State) : TOut × State :=
  if !s.holdsArray quad key then (.trap prot, s)
  else (.grant { writes := [toW d (s.quad quad).tconf], cycles := 512 }, releaseArray quad s)

/-- `tldw` (R175, R353): the shadow plane loads, and takes its scale entries from the head of the queue. -/
def valTldw (rd : Nat → Nat → Nat) (quad key id : Nat) (a : WReg) (s : State) : TOut × State :=
  let q := s.quad quad
  let c := q.conf.toNat
  let cl := quad / 2
  let addr := rdW rd a
  let n := (shapeOf c).2.1 * 128 * codeBits (confWel c) / 8
  let need := if confWsc c = 0 then 0 else (shapeOf c).1 / 32
  if !s.holdsArray quad key then (.trap prot, s)
  else
    match tAlign [(addr, 32)] with
    | some t => (.trap t, s)
    | none =>
      if !s.tPlace cl addr [(addr, n)] || decide (q.scaleQ.length < need) || (confSp c ≠ 0 && !q.shadow.metaSt) then
        (.trap prot, s)
      else
        match engineRd (unitOf (cl * 8)) cl addr n s with
        | (.trap t, s) => (.trap t, s)
        | (.later _, s) => (.later, s)
        | (.got v, s) =>
          let size := 8 * 128 * scaleBytes (confWsc c)
          let sc := (q.scaleQ.take need).foldr (fun e acc => e + 2 ^ size * acc) 0
          let q := s.quad quad
          (.grant { cycles := n / 128 },
            s.setQuad quad { q with shadow := { q.shadow with st := 1, loader := id, tile := v, scales := sc }
                                    scaleQ := q.scaleQ.drop need })

/-- `tsmeta` (R178, R353): a mask whose count differs from N is judged after the bytes are read. -/
def valTsmeta (rd : Nat → Nat → Nat) (quad key : Nat) (a : WReg) (s : State) : TOut × State :=
  let c := (s.quad quad).conf.toNat
  let cl := quad / 2
  let addr := rdW rd a
  if !s.holdsArray quad key then (.trap prot, s)
  else
    match tAlign [(addr, 32)] with
    | some t => (.trap t, s)
    | none =>
      if !s.tPlace cl addr [(addr, 8192)] || confSp c = 0 then (.trap prot, s)
      else
        match engineRd (unitOf (cl * 8)) cl addr 8192 s with
        | (.trap t, s) => (.trap t, s)
        | (.later _, s) => (.later, s)
        | (.got v, s) =>
          if (List.range 512).any (fun i => popCount 128 (bits v (128 * i) 128) ≠ sparseN (confSp c)) then
            (.trap prot, s)
          else
            (.grant {}, s.modQuad quad (fun q => { q with shadow := { q.shadow with metaSt := true, metaBits := v } }))

/-- `tscq` (R176, R353). -/
def valTscq (rd : Nat → Nat → Nat) (quad key : Nat) (a : WReg) (count : Nat) (s : State) : TOut × State :=
  let q := s.quad quad
  let c := q.conf.toNat
  let cl := quad / 2
  let addr := rdW rd a
  let n := 128 * scaleBytes (confWsc c)
  if !s.holdsArray quad key then (.trap prot, s)
  else
    match tAlign [(addr, 32)] with
    | some t => (.trap t, s)
    | none =>
      if !s.tPlace cl addr [(addr, count * n)] || confWsc c = 0 || decide (16 < q.scaleQ.length + count) then
        (.trap prot, s)
      else
        match engineRd (unitOf (cl * 8)) cl addr (count * n) s with
        | (.trap t, s) => (.trap t, s)
        | (.later _, s) => (.later, s)
        | (.got v, s) =>
          (.grant {}, s.modQuad quad (fun q =>
            { q with scaleQ := q.scaleQ ++ (List.range count).map (fun i => bits v (8 * n * i) (8 * n)) }))

/-- `tswap` (R175, R354): the planes and their metadata exchange; metadata filled before counts no more for `tldw`. -/
def valTswap (quad key : Nat) (s : State) : TOut × State :=
  let q := s.quad quad
  if !s.holdsArray quad key || q.shadow.st = 0 then (.trap prot, s)
  else
    (.grant {}, s.setQuad quad { q with active := { q.shadow with metaSt := false }
                                        shadow := { q.active with metaSt := false } })

def valTwait (quad key : Nat) (s : State) : TOut × State :=
  if !s.holdsArray quad key then (.trap prot, s) else (.grant {}, s)

/-- The activation rows of a step, and its scales. -/
def tmmaRanges (c addr w : Nat) : List (Nat × Nat) × List (Nat × Nat) :=
  let n := (shapeOf c).1 * codeBits (confAel c) / 8
  let sn := (shapeOf c).1 / 32 * scaleBytes (confAsc c)
  ((List.range (stepRows w)).map (fun m => (addr + m * stepStride w, n)),
   if confAsc c = 0 then [] else (List.range (stepRows w)).map (fun m => (stepScales w + m * sn, sn)))

/-- `tmma` (R177, R356). -/
def valTmma (rd : Nat → Nat → Nat) (quad key : Nat) (a b : WReg) (s : State) : TOut × State :=
  let q := s.quad quad
  let c := q.conf.toNat
  let cl := quad / 2
  let addr := rdW rd a
  let w := rdW rd b
  let rs := tmmaRanges c addr w
  let rowBytes := (shapeOf c).1 * codeBits (confAel c) / 8
  if !s.holdsArray quad key then (.trap prot, s)
  else
    match tAlign ((addr, 32) :: (if confAsc c = 0 then [] else [(stepScales w, scaleBytes (confAsc c))])) with
    | some t => (.trap t, s)
    | none =>
      if q.active.st = 0 || stepBad w || decide (stepStride w < rowBytes) || !s.tPlace cl addr rs.1
          || !s.tPlace cl (stepScales w) rs.2 then (.trap prot, s)
      else
        match rangesRead cl rs.1 s with
        | (.trap t, s) => (.trap t, s)
        | (.later _, s) => (.later, s)
        | (.got rows, s) =>
          match rangesRead cl rs.2 s with
          | (.trap t, s) => (.trap t, s)
          | (.later _, s) => (.later, s)
          | (.got scs, s) =>
            let q := s.quad quad
            let acc := (List.range (stepRows w)).foldl (fun acc m =>
              tset acc (stepAcc w + m) (stepRow q.active c (rows.getD m 0) (scs.getD m 0) (tget acc (stepAcc w + m)))) q.acc
            (.grant { cycles := stepRows w * (shapeOf c).2.2 + 300 }, s.setQuad quad { q with acc := acc })

/-- Accumulator rows set to +0. -/
def zeroRows (lo n : Nat) (acc : Tbl Nat) : Tbl Nat := acc.filter (fun r => r.1 < lo || lo + n ≤ r.1)

def valTzero (rd : Nat → Nat → Nat) (quad key : Nat) (a : WReg) (s : State) : TOut × State :=
  let w := rdW rd a
  if !s.holdsArray quad key || stepBad w then (.trap prot, s)
  else (.grant {}, s.modQuad quad (fun q => { q with acc := zeroRows (stepAcc w) (stepRows w) q.acc }))

/-- The elements of a drained row with their flags (R158, R180). -/
def drainRow (t : Ty) (rm : Rm) (acc : Nat) : List (Nat × Nat) :=
  (List.range 128).map (fun n => if t = .f32 then (elem 32 acc n, 0) else convert t .f32 rm (elem 32 acc n))

/-- The magnitude of a drained value as an `f32` (R180): NaN is passed over. -/
def drainMag (t : Ty) (x : Nat) : Nat :=
  match (fmtOf t).decode x with
  | .nan _ => 0
  | v => (fmtF32.deliver .rne v.mag).1 % 2 ^ 31

/-- The rows of a drain written as writes of the issuing context (R350); answers nothing that can still fail. -/
def drainWrite (rd : Nat → Nat → Nat) (cluster key : Nat) : List (Nat × Nat × Nat) → State → State
  | [], s => s
  | (a, n, v) :: r, s =>
    match engineWr (unitOf (cluster * 8)) cluster a n v (bits (rd offCtxn 8) 0 24) (rd offRgn 8 % 2 ^ 16) s with
    | (.got vt, s) =>
      let now := s.gtOf (cluster * 8)
      drainWrite rd cluster key r (s.modCtx key (fun c =>
        { c with performed := max c.performed now, vtRegion := max c.vtRegion vt.last
                 vtDie0 := max c.vtDie0 vt.die0, vtDie1 := max c.vtDie1 vt.die1 }))
    | (_, s) => drainWrite rd cluster key r s

/-- `tdrain` (R180, R357): the rows are read, converted and written in ascending order, and with `.z` cleared, in grant
order (R179). A row that would write part of a lost line reads it and raises `#MCHK` (R256). DEDUCED: log 34. -/
def valTdrain (rd : Nat → Nat → Nat) (quad key : Nat) (t : Ty) (rm : Rm) (z : Bool) (amax : Option (Scope × WReg))
    (a b : WReg) (s : State) : TOut × State :=
  let q := s.quad quad
  let cl := quad / 2
  let addr := rdW rd a
  let w := rdW rd b
  let n := 128 * tyBytes t
  let dst := (List.range (stepRows w)).map (fun m => (addr + m * stepStride w, n))
  if !s.holdsArray quad key then (.trap prot, s)
  else
    match tAlign [(addr, 32)] with
    | some tr => (.trap { tr with acc := accWrite }, s)
    | none =>
      if stepBad w || decide (stepStride w < n) || !s.tPlace cl addr dst then (.trap prot, s)
      else
        match aliasAll (unitOf (cl * 8)) .write (dst.flatMap (fun r => pieces cl (n / 128 + 2) r.1 r.2)) s with
        | (.trap t, s) => (.trap t, s)
        | (.later _, s) => (.later, s)
        | (.got places, s) =>
          match s.lostPart accWrite places with
          | some tr => (.trap tr, s)
          | none =>
            let els := (List.range (stepRows w)).map (fun m => drainRow t rm (tget q.acc (stepAcc w + m)))
            let rows := (List.range (stepRows w)).map (fun m =>
              let es := els.getD m []
              (addr + m * stepStride w, n, ofElems t.bits 128 (fun i => (es.getD i (0, 0)).1)))
            let all := els.flatten
            let big := all.foldl (fun m e => max m (drainMag t e.1)) 0
            let s := drainWrite rd cl key rows s
            let s := if z then s.modQuad quad (fun q => { q with acc := zeroRows (stepAcc w) (stepRows w) q.acc }) else s
            (.grant { cycles := stepRows w, flags := all.foldl (fun f e => f ||| e.2) 0
                      amax := amax.map (fun x => (x.1, rdW rd x.2, big)) }, s)

/-- What a granted tensor instruction comes to; nothing for an instruction of another resource. DEDUCED: log 34. -/
def tensorValue (rd : Nat → Nat → Nat) (quad key id : Nat) (codelet : Bool) (i : Instr) (s : State) : TOut × State :=
  match i with
  | .tcfg d a => valTcfg rd quad key d a s
  | .tcfgClaim d a => valTcfgClaim rd quad key codelet d a s
  | .tcfgRel d _ => valTcfgRel quad key d s
  | .tldw a => valTldw rd quad key id a s
  | .tsmeta a => valTsmeta rd quad key a s
  | .tscq a count => valTscq rd quad key a count.toNat s
  | .tswap => valTswap quad key s
  | .twait => valTwait quad key s
  | .tmma a b => valTmma rd quad key a b s
  | .tzero a => valTzero rd quad key a s
  | .tdrain t rm z amax a b => valTdrain rd quad key t rm z amax a b s
  | _ => (.grant {}, s)

end Sys2Proof.Machine
end

