-- ==== Sys2Proof/Machine/Eland.lean ====
section
/-! DEFINITION. The Eland unit's dispatch queues (R168 to R171), the completion of granted entries, and the repetition
buffer with its sequencer (R182 to R184, R359, R360). -/

namespace Sys2Proof.Machine

open Sys2Proof

/-! ### The lists (R169, R170) -/

/-- The entries of a core for a resource. -/
def Core.entries (c : Core) (tensor : Bool) : List ElandEntry := if tensor then c.tlist else c.vlist

/-- An entry placed at the end of its list. -/
def pushEntry (core : Nat) (e : ElandEntry) (s : State) : State :=
  s.modCore core (fun c =>
    if isTensorOp e.instr then { c with tlist := c.tlist ++ [e] } else { c with vlist := c.vlist ++ [e] })

/-- The core of a quad, 0 to 3, whose list is granted next (R170). -/
def State.nextGrant (s : State) (quad : Nat) (tensor : Bool) : Option Nat :=
  let last := if tensor then (s.quad quad).lastT else (s.quad quad).lastV
  ((List.range 4).map (fun i => (last + 1 + i) % 4)).find? (fun k => !((s.core (4 * quad + k)).entries tensor).isEmpty)

/-- The head of a list is granted: it leaves the list, and the round robin passes it (R170). -/
def popHead (quad k : Nat) (tensor : Bool) (s : State) : State :=
  let s := s.modCore (4 * quad + k) (fun c =>
    if tensor then { c with tlist := c.tlist.tail } else { c with vlist := c.vlist.tail })
  s.modQuad quad (fun q => if tensor then { q with lastT := k } else { q with lastV := k })

/-! ### The sequence of a core (R182 to R184) -/

/-- The waits on a sequence that has come to its end: `rptw` passes, an instruction that first performed it executes
again, and a recorded fault is raised (R183, R184, R360). -/
def settleSequence (core : Nat) (s : State) : State :=
  let q := (s.core core).seq
  match q.ctx with
  | none => s
  | some key =>
    if !q.over then s
    else
      let waiting := match s.waitOf key with | some (.sequence _) => true | _ => false
      match q.fault with
      | some t =>
        match (if waiting then s.meOf key else none) with
        | some me => trapEntry me t ((freeBuffer core s).clearWait key)
        | none => wakeEnding key s
      | none =>
        let s := freeBuffer core s
        let s := if waiting then resume false key s else s
        wakeEnding key s

/-- The step after the one granted (R182). -/
def Sequencer.next (q : Sequencer) : Sequencer :=
  if q.idx + 1 < q.instrs.length then { q with idx := q.idx + 1 } else { q with idx := 0, rep := q.rep + 1 }

/-- `w` and `v` fields increased by the repetition's offset (R182, R359). -/
def stagW (n : Nat) (r : WReg) : WReg := ⟨(r.val + n) % 16, Nat.mod_lt _ (by decide)⟩
/-- The same of a `v` field (R182). DESIGN CHOICE: log 36. -/
def stagV (n : Nat) (r : VReg) : VReg := ⟨(r.val + n) % 32, Nat.mod_lt _ (by decide)⟩

/-- A buffered instruction with every `w` and `v` field increased (R182, R359). DESIGN CHOICE: log 36. -/
def stagger (n : Nat) : Instr → Instr
  | .vbc t d a p => .vbc t (stagV n d) (stagW n a) p
  | .vins t d a l => .vins t (stagV n d) (stagW n a) l
  | .vext t d a l => .vext t (stagW n d) (stagV n a) l
  | .vslide t d a k => .vslide t (stagV n d) (stagV n a) k
  | .vperm t d a b p => .vperm t (stagV n d) (stagV n a) (stagV n b) p
  | .vadd t rm d a b p => .vadd t rm (stagV n d) (stagV n a) (stagV n b) p
  | .vsub t rm d a b p => .vsub t rm (stagV n d) (stagV n a) (stagV n b) p
  | .vmul t rm d a b p => .vmul t rm (stagV n d) (stagV n a) (stagV n b) p
  | .vmax t d a b p => .vmax t (stagV n d) (stagV n a) (stagV n b) p
  | .vmin t d a b p => .vmin t (stagV n d) (stagV n a) (stagV n b) p
  | .vfma t rm d a b c p => .vfma t rm (stagV n d) (stagV n a) (stagV n b) (stagV n c) p
  | .vfms t rm d a b c p => .vfms t rm (stagV n d) (stagV n a) (stagV n b) (stagV n c) p
  | .vabs t d a p => .vabs t (stagV n d) (stagV n a) p
  | .vneg t d a p => .vneg t (stagV n d) (stagV n a) p
  | .vand t d a b p => .vand t (stagV n d) (stagV n a) (stagV n b) p
  | .vor t d a b p => .vor t (stagV n d) (stagV n a) (stagV n b) p
  | .vxor t d a b p => .vxor t (stagV n d) (stagV n a) (stagV n b) p
  | .vshl t d a b p => .vshl t (stagV n d) (stagV n a) (stagV n b) p
  | .vshr t d a b p => .vshr t (stagV n d) (stagV n a) (stagV n b) p
  | .vsra t d a b p => .vsra t (stagV n d) (stagV n a) (stagV n b) p
  | .vcmp t k d a b p => .vcmp t k d (stagV n a) (stagV n b) p
  | .vsel t d a b p => .vsel t (stagV n d) (stagV n a) (stagV n b) p
  | .vcvt u t rm d a p => .vcvt u t rm (stagV n d) (stagV n a) p
  | .vred t rm d a p => .vred t rm (stagW n d) (stagV n a) p
  | .vcmpm d a b depth trees => .vcmpm d (stagV n a) (stagW n b) depth trees
  | .vleaf d a depth trees => .vleaf (stagV n d) a depth trees
  | .vlut t d a b => .vlut t (stagV n d) (stagV n a) (stagW n b)
  | .vquant t e5 rm d a p => .vquant t e5 rm (stagV n d) (stagV n a) p
  | .vdeq t e5 rm d a p => .vdeq t e5 rm (stagV n d) (stagV n a) p
  | .tcfg d a => .tcfg (stagW n d) (stagW n a)
  | .tcfgClaim d a => .tcfgClaim (stagW n d) (stagW n a)
  | .tcfgRel d a => .tcfgRel (stagW n d) (stagW n a)
  | .tldw a => .tldw (stagW n a)
  | .tsmeta a => .tsmeta (stagW n a)
  | .tscq a count => .tscq (stagW n a) count
  | .tmma a b => .tmma (stagW n a) (stagW n b)
  | .tzero a => .tzero (stagW n a)
  | .tdrain t rm z amax a b => .tdrain t rm z (amax.map (fun x => (x.1, stagW n x.2))) (stagW n a) (stagW n b)
  | i => i

/-- `SEQUENCER_PLACE` (R182): the next staggered step enters its list once the previous one has been granted. -/
def placeStep (core : Nat) (s : State) : State :=
  let q := (s.core core).seq
  match q.ctx, q.instrs[q.idx]? with
  | some key, some i =>
    if q.placed || q.waitStep || q.claim || q.fault.isSome || decide (q.reps ≤ q.rep) then s
    else
      let e : ElandEntry := { ctx := key, instr := stagger (q.rep * q.stride) i, step := some (q.rep, q.idx) }
      (pushEntry core e s).modCore core (fun c => { c with seq := { c.seq with placed := true } })
  | _, _ => s

/-! ### Completion -/

/-- The end of a granted entry: its words and flags land in the workspace wherever it lies (R142, R169), a direct
entry's slot passes the instruction, a step leaves its sequence, and waits on Eland work are looked at again. -/
def finishGranted (quad : Nat) (g : Granted) (s : State) : State :=
  let s := s.modQuad quad (fun q => { q with granted := q.granted.filter (fun x => x.id ≠ g.id) })
  let s := match s.baseOf g.ctx with
    | none => s
    | some b =>
      let s := g.writes.foldl (fun s w => wsWr b w.1 w.2.1 w.2.2 s) s
      let s := if g.flags = 0 then s else wsWr b offFpflags 8 (s.wsRd b offFpflags 8 ||| g.flags) s
      if g.step.isNone && s.waitOf g.ctx = some (.granted quad g.id) then
        (wsWr b offPc 8 ((s.wsRd b offPc 8 + g.len) % 2 ^ 64) s).clearWait g.ctx
      else s
  let s := match g.step with
    | none => s
    | some _ =>
      (List.range 4).foldl (fun s k =>
        let core := 4 * quad + k
        if (s.core core).seq.ctx = some g.ctx then
          settleSequence core (s.modCore core (fun c =>
            { c with seq := { c.seq with outstanding := c.seq.outstanding.filter (fun x => x.1 ≠ g.id)
                                         waitStep := c.seq.waitStep && g.instr ≠ .twait } }))
        else s) s
  let s := wakeWfe g.ctx s
  wakeEnding g.ctx s

/-- What a waiting entry of the array waits for among the entries granted before it: `tswap` for a shadow that loads and
for the boundary of the step that runs (R175, R354), `twait` for all of them (R355). -/
def Granted.blocks (g later : Granted) : Bool :=
  match later.instr with
  | .tswap => (match g.instr with | .tldw _ | .tmma .. => true | _ => false)
  | _ => isTensorOp g.instr

/-- The `twait` and `tswap` entries whose wait is over come to their ends, in grant order. -/
def settleArray (quad : Nat) : Nat → State → State
  | 0, s => s
  | n + 1, s =>
    let gs := (s.quad quad).granted
    let ready := gs.find? (fun g =>
      (match g.instr with | .tswap => true | .twait => true | _ => false) && s.delivers g.ctx &&
      !(gs.any (fun h => h.id < g.id && h.blocks g)))
    match ready with
    | none => s
    | some g => settleArray quad n (finishGranted quad g s)

/-- A granted entry of the array comes to its end. -/
def finishTensor (quad : Nat) (g : Granted) (s : State) : State :=
  settleArray quad 64 (finishGranted quad g s)

/-- An entry granted and not complete. DESIGN CHOICE: log 36. -/
def addGranted (quad core : Nat) (e : ElandEntry) (g : Granted) (s : State) : State :=
  let s := s.modQuad quad (fun q => { q with granted := q.granted ++ [g] })
  match e.step with
  | none => s.setWait e.ctx { block := .granted quad g.id }
  | some _ => s.modCore core (fun c =>
      { c with seq := { c.seq.next with placed := false, outstanding := c.seq.outstanding ++ [(g.id, 0)]
                                        waitStep := e.instr = .twait } })

/-- A cause met by granted work of a context that waits for its dump is a nested record (R261). -/
def nestedFatal (core key : Nat) (t : TrapInfo) (s : State) : State :=
  if !(s.part (key / 2 ^ 24)).fatal.any (fun r => r.ctx = key) then s
  else
    let pc := match s.baseOf key with
      | some b => s.wsRd b offPc 8
      | none => 0
    let gt := s.gtOf core
    fatal key core ((s.ctx key).last % 16) (packFields (t.fields pc pc gt) + leNat t.rcopy * 2 ^ (8 * 128)) gt s

/-- A fault at a grant (R184): raised in the slot of a direct entry, recorded for a step. -/
def entryFault (core : Nat) (e : ElandEntry) (t : TrapInfo) (s : State) : State :=
  match e.step with
  | none =>
    match s.meOf e.ctx with
    | some me => trapEntry me t (s.clearWait e.ctx)
    | none => s
  | some p =>
    let t := { t with rpt := some p }
    settleSequence core ((nestedFatal core e.ctx t s).modCore core (fun c =>
      { c with seq := { c.seq with placed := false, fault := some t } }))

/-- Whether a tensor entry is complete as soon as it is granted. -/
def completesAtGrant : Instr → Bool
  | .tcfg .. | .tcfgClaim .. | .tscq .. | .tsmeta .. | .tzero .. => true
  | _ => false

/-- A codelet, by the word `CTXN` (R137). -/
def isCodelet (rd : Nat → Nat → Nat) : Bool := decide (bits (rd offCtxn 8) 24 3 = 1)

/-- A tensor entry decided at its grant (R350): who holds the array comes first, then a lost line of the registers that
name its operands (R257). -/
def tensorGrant (quad id base : Nat) (e : ElandEntry) (s : State) : TOut × State :=
  let rd := fun off n => s.wsRd base off n
  let claims := match e.instr with | .tcfgClaim .. => true | _ => false
  match (if claims || s.holdsArray quad e.ctx then s.lostFirst base e.instr else none) with
  | some t => (.trap t, s)
  | none => tensorValue rd quad e.ctx id (isCodelet rd) e.instr s

/-- A vector entry decided at its grant (R331): a lost line among its registers comes behind the causes of its own checks
(R3, R257), but for the registers that those are made with. -/
def vectorGrant (core base : Nat) (e : ElandEntry) (s : State) : VOut × State :=
  match s.lostFirst base e.instr with
  | some t => (.trap t, s)
  | none =>
    match vecValue (fun off n => s.wsRd base off n) core e.instr s, s.lostLater base e.instr with
    | (.writes .., s'), some t => (.trap t, s')
    | r, _ => r

/-- The head of a core's list granted (R169, R170): it reads its operands now. -/
def grantEntry (quad k : Nat) (tensor : Bool) (e : ElandEntry) (base : Nat) (s : State) : State :=
  let core := 4 * quad + k
  let id := s.nextId
  if tensor then
    match tensorGrant quad id base e s with
    | (.later, s) => s
    | (.trap t, s) => entryFault core e t (popHead quad k tensor s)
    | (.claimed, s) =>
      let s := { popHead quad k tensor s with nextId := id + 1 }
      match e.step with
      | none => s.setWait e.ctx { block := .claim quad id }
      | some _ => s.modCore core (fun c => { c with seq := { c.seq with placed := false, claim := true } })
    | (.grant g, s) =>
      let s := { popHead quad k tensor s with nextId := id + 1 }
      let x : Granted := { id := id, ctx := e.ctx, instr := e.instr, len := e.len, step := e.step
                           ready := s.cycle + g.cycles, writes := g.writes, flags := g.flags, amax := g.amax
                           core := core }
      let s := addGranted quad core e x s
      if completesAtGrant e.instr then finishTensor quad x s else settleArray quad 64 s
  else
    match vectorGrant core base e s with
    | (.later, s) => s
    | (.trap t, s) => entryFault core e t (popHead quad k tensor s)
    | (.writes ws fl, s) =>
      let s := { popHead quad k tensor s with nextId := id + 1 }
      addGranted quad core e { id := id, ctx := e.ctx, instr := e.instr, len := e.len, step := e.step
                               ready := s.cycle + 4, writes := ws, flags := fl, core := core } s

/-- `ELAND_GRANT` (R170). -/
def execElandGrant (quad : Nat) (tensor : Bool) (s : State) : Out :=
  match s.nextGrant quad tensor with
  | none => ok s
  | some k =>
    match (s.core (4 * quad + k)).entries tensor with
    | [] => ok s
    | e :: _ =>
      match s.baseOf e.ctx with
      | none => ok (popHead quad k tensor s)
      | some base => if s.delivers e.ctx then ok (grantEntry quad k tensor e base s) else ok s

/-- A granted entry of a quad that may end now. -/
def State.dueEntry (s : State) (quad entry : Nat) (f : Instr → Bool) : Option Granted :=
  (s.quad quad).granted.find? (fun g => g.id = entry && f g.instr && decide (g.ready ≤ s.cycle) && s.delivers g.ctx)

/-- `VECTOR_RESULT_WRITE` (R171). -/
def execVectorResultWrite (quad entry : Nat) (s : State) : Out :=
  match s.dueEntry quad entry isVectorOp with
  | some g => ok (finishGranted quad g s)
  | none => ok s

/-- A plane that an entry was loading becomes READY (R175). -/
def planeReady (quad entry : Nat) (s : State) : State :=
  let set := fun (p : Plane) => if p.st = 1 && p.loader = entry then { p with st := 2 } else p
  s.modQuad quad (fun q => { q with active := set q.active, shadow := set q.shadow })

/-- `PLANE_READY` (R175). -/
def execPlaneReady (quad entry : Nat) (s : State) : Out :=
  match s.dueEntry quad entry (fun i => match i with | .tldw _ => true | _ => false) with
  | some g => ok (finishTensor quad g (planeReady quad entry s))
  | none => ok s

/-- `TENSOR_STEP_COMPLETE` (R177); a `twait` or `tswap` whose wait is over ends as well (R175, R355). -/
def execTensorStepComplete (quad entry : Nat) (s : State) : Out :=
  match s.dueEntry quad entry (fun i => match i with | .tmma .. => true | _ => false) with
  | some g => ok (finishTensor quad g s)
  | none => ok (settleArray quad 64 s)

/-- `ARRAY_RELEASE_DONE` (R172, R352): the state is clear, and the claims that wait are placed again in the order of
their grants. -/
def clearArray (quad : Nat) (s : State) : State :=
  s.modQuad quad (fun q =>
    { q with releasing := none, conf := 0, active := {}, shadow := {}, scaleQ := [], acc := [] })

/-- The contexts that wait to claim an array, in the order of their grants (R352). DEDUCED: log 35. -/
def State.claimWaiters (s : State) (quad : Nat) : List Nat :=
  let ws := s.ctxs.filterMap (fun c =>
    match c.2.wait with
    | some { block := .claim q order, .. } => if q = quad then some (order, c.1) else none
    | _ => none)
  (ws.foldl (fun acc w => ins w acc) []).map Prod.snd
where
  ins (w : Nat × Nat) : List (Nat × Nat) → List (Nat × Nat)
    | [] => [w]
    | x :: r => if w.1 < x.1 then w :: x :: r else x :: ins w r

/-- The steps of sequences of a quad that wait to claim its array may be placed again (R352). -/
def replaceClaims (quad : Nat) (s : State) : State :=
  (List.range 4).foldl (fun s k => s.modCore (4 * quad + k) (fun c =>
    if c.seq.claim then { c with seq := { c.seq with claim := false } } else c)) s

/-- `ARRAY_RELEASE_DONE` (R172): the array is free, and the claims that wait are placed again (R352). DEDUCED: log 35. -/
def execArrayReleaseDone (quad : Nat) (s : State) : Out :=
  match (s.quad quad).releasing with
  | none => ok (endReleases s)
  | some c =>
    if s.cycle < c then ok s
    else
      let s := replaceClaims quad (endReleases (clearArray quad s))
      ok ((s.claimWaiters quad).foldl (fun s key => s.clearWait key) s)
where
  /-- The `tcfg.rel` entries whose context takes deliveries now (R253) come to their ends. -/
  endReleases (s : State) : State :=
    ((s.quad quad).granted.filter (fun g =>
      (match g.instr with | .tcfgRel .. => true | _ => false) && decide (g.ready ≤ s.cycle) && s.delivers g.ctx)).foldl
      (fun s g => finishTensor quad g s) s

/-! ### Drains (R180, R357, R358) -/

/-- What the atomic of a drain ends with: it has performed, with its flags, it raises a cause, or it waits, for a snoop
or for something else. -/
inductive DrainEnd where
  | done (flags : Nat)
  | trap (t : TrapInfo)
  | later
  | snoop (line half : Nat)
  deriving DecidableEq, Repr

/-- The release of the atomic, made on behalf of the issuing context (R79, R358): whether it is over. -/
def drainReleased (me : Me) (sc : Scope) (s : State) : Bool :=
  let now := s.gtOf me.core
  sc = .slot ||
    (s.pend me.base = 0 && !(sc = .sys && !(s.ctx me.key).peerWrites.isEmpty) && decide (s.releaseTs me sc now ≤ now))

/-- The atomic of `.amax` (R358): a release on behalf of the issuing context, then `amo.famax.f32` as the issuing core
performs it (R325): in its L1, in local memory, or at the home. Its translation is a unit's, and the table entries that
it reads are reads of the context (R69, R81). DEDUCED: log 34. -/
def drainAtomic (me : Me) (sc : Scope) (va v : Nat) (s : State) : DrainEnd × State :=
  let op : AccOp := .amo .famax .f32 (BitVec.ofNat 64 v)
  let die := dieOf me.core
  let pt := s.ptroot me.base
  let seen := s.walkVt me.core pt va
  if va % 4 ≠ 0 then (.trap (align va 4 accAtomic), s)
  else
    match unitXlate me.core pt va accAtomic s with
    | (.trap t, s) => (.trap t, s)
    | (.held, s) => (.later, s)
    | (.snoop l k, s) => (.snoop l k, s)
    | (.ok l, s) =>
      let s := noteRead me.base seen s
      let e : Elem := { va := va, size := 4, leaf := l, pa := l.phys (va % 2 ^ 57) }
      match resolve { me with key := 0 } [] op e s with
      | (.trap t, s) => (.trap t, s)
      | (.wait (.snoop l k _), s) => (.snoop l k, s)
      | (.wait _, s) | (.skip, s) => (.later, s)
      | (.ok t, s) =>
        if (s.die die).marked.contains (t.pa / 128) then
          (.trap { cause := .lease, addr := va, info0 := (s.die die).tripGt, acc := accAtomic },
            s.modDie die (fun d => { d with marked := [] }))
        else
          match obtain me op e t s with
          | (some (.snoop l k _), s) => (.snoop l k, s)
          | (some _, s) => (.later, s)
          | (none, s) =>
            match elemCheck me op e t s with
            | some tr => (.trap tr, s)
            | none =>
              if !drainReleased me sc s || (t.kind = .remote && s.isHeld (t.pa / 128)) then (.later, s)
              else
                let s := closeRegion me (s.gtOf me.core) s
                let r := if t.kind = .plain then performPlain me op 4 0 t.pa s else performLine me op 4 0 t s
                let s := if t.kind = .token then deactivate t.holder (t.pa / 128) r.2 else r.2
                (.done (amoNew .famax .f32 v r.1).2, s)

/-- The flags of a drain on their way (R156): those of its conversions, and of its atomic. -/
def drainFlags (g : Granted) (s : State) : State := if g.flags = 0 then s else s.send (.drainFlags g.ctx g.flags g.core)

/-- What a granted drain still owes: its atomic, then its flags as a deposit (R156). -/
def drainEnd (me : Me) (g : Granted) (s : State) : DrainEnd × State :=
  match g.amax with
  | none => (.done 0, drainFlags g s)
  | some (sc, va, v) =>
    match drainAtomic me sc va v s with
    | (.done fl, s) => (.done fl, drainFlags { g with flags := g.flags ||| fl } s)
    | x => x

/-- A cause of a drain's atomic (R358): raised late in the slot of a direct entry, recorded for a step (R184). The rows
stand, and so do their flags. A context that is killed takes none. DEDUCED: log 34. -/
def drainFault (quad : Nat) (g : Granted) (run : Option Me) (t : TrapInfo) (s : State) : State :=
  let t := { t with late := true }
  let ended := { g with writes := [], flags := 0 }
  match g.step, run with
  | none, none => finishTensor quad ended (drainFlags g s)
  | none, some me => finishTensor quad ended (trapEntry me t ((drainFlags g s).clearWait g.ctx))
  | some p, _ =>
    let t := { t with rpt := some p }
    let s := drainFlags g s
    let s := nestedFatal g.core g.ctx t s
    let s := s.modCore g.core (fun c =>
      if c.seq.ctx = some g.ctx && c.seq.fault.isNone then { c with seq := { c.seq with fault := some t } } else c)
    finishTensor quad ended s

/-- What the atomic of a direct drain meets while its context is parked is met again when it runs (R251, R358). -/
def drainParked (g : Granted) (run : Option Me) (s : State) : Bool :=
  g.step.isNone && run.isNone && !(s.ctx g.ctx).killing

/-- `DRAIN_COMPLETE` (R357, R358). The atomic performs for the issuing context from the core that issued the drain; one
that waits for the snoop of one half for 1 ms raises `#TIMEOUT` (R68). DEDUCED: log 34. -/
def execDrainComplete (quad entry : Nat) (s : State) : Out :=
  match s.dueEntry quad entry (fun i => match i with | .tdrain .. => true | _ => false) with
  | none => ok s
  | some g =>
    match s.baseOf g.ctx with
    | none => ok (finishTensor quad { g with writes := [], flags := 0 } s)
    | some base =>
      let run := s.meOf g.ctx
      let me : Me := run.getD { core := g.core, slot := 16 * g.core, base := base, key := g.ctx }
      let since := fun (x : Option (Nat × Nat × Nat)) (s : State) => s.modQuad quad (fun q =>
        { q with granted := q.granted.map (fun y => if y.id = entry then { y with since := x } else y) })
      match drainEnd me g s with
      | (.done _, s) => ok (finishTensor quad { g with flags := 0 } s)
      | (.later, s) => ok (since none s)
      | (.trap t, s') => ok (if drainParked g run s then s else drainFault quad g run t s')
      | (.snoop l k, s) =>
        let now := s.gtOf g.core
        let begun := match g.since with
          | some (l', k', t0) => if l' = l ∧ k' = k then t0 else now
          | none => now
        if now < begun + 1000000 then ok (since (some (l, k, begun)) s)
        else if drainParked g run s then ok s
        else
          let va := match g.amax with
            | some (_, va, _) => va
            | none => 0
          ok (drainFault quad g run { cause := .timeout, addr := va, info0 := l * 128 + 64 * k, acc := accAtomic }
            (s.logEvent "snoop timeout" l))

/-- A drain's flags ORed into the issuer's `FPFLAGS`, with their log entry (R156, R279). -/
def deliverFlags (key base flags src : Nat) (s : State) : State :=
  wakeWfe key (wsWr base offFpflags 8 (s.wsRd base offFpflags 8 ||| flags) (logCtx key src 2 flags s))

/-- `DRAIN_FLAG_DEPOSIT` (R156): by context number (R142, R143, R253). -/
def execDrainFlagDeposit (msg : Nat) (s : State) : Out :=
  match s.msg? msg with
  | some (.drainFlags key flags src) =>
    ok (delivery msg key (fun b s => deliverFlags key b flags src s) s)
  | _ => ok s

/-! ### Issue of an Eland instruction (R169, R183) -/

/-- The wait for the issuing context's own sequence: explicit, or before another Eland instruction (R183). None when it
has none running. -/
def joinSequence (me : Me) (implied : Bool) (s : State) : Option State :=
  match s.seqCore me.key with
  | none => none
  | some core =>
  let q := (s.core core).seq
  if q.over then
    match q.fault with
    | some t => some (trapEntry me t (freeBuffer core s))
    | none => none
  else some (waitOn me (.sequence implied) { prog := if implied then [] else [.adv 8] } s)

/-- An entry placed, its slot out of the rotation (R169). -/
def placeEntry (me : Me) (i : Instr) (len : Nat) (s : State) : State :=
  waitOn me (.eland (quadOf me.core) (isTensorOp i)) {} (pushEntry me.core { ctx := me.key, instr := i, len := len } s)

/-- A vector instruction issued (R169, R171, R183). -/
def vectorIssue (i : Instr) (len : Nat) (s : State) : Out :=
  let me := s.me
  match joinSequence me true s with
  | some s => ok s
  | none => ok (placeEntry me i len s)

/-- A tensor instruction issued (R169, R183, R350). -/
def tensorIssue (i : Instr) (len : Nat) (s : State) : Out :=
  let me := s.me
  match joinSequence me true s with
  | some s => ok s
  | none => ok (placeEntry me i len s)

/-- The length of a form by its predicate (R293). -/
def predLen (p : Option PReg) : Nat := if p.isSome then 12 else 8

def execVbc (t : Ty) (d : VReg) (a : WReg) (p : Option PReg) (s : State) : Out := vectorIssue (.vbc t d a p) (predLen p) s
def execVins (t : Ty) (d : VReg) (a : WReg) (lane : BitVec 6) (s : State) : Out := vectorIssue (.vins t d a lane) 8 s
def execVext (t : Ty) (d : WReg) (a : VReg) (lane : BitVec 6) (s : State) : Out := vectorIssue (.vext t d a lane) 8 s
def execVslide (t : Ty) (d a : VReg) (n : BitVec 6) (s : State) : Out := vectorIssue (.vslide t d a n) 8 s
def execVperm (t : Ty) (d a b : VReg) (p : Option PReg) (s : State) : Out := vectorIssue (.vperm t d a b p) (predLen p) s
def execVadd (t : Ty) (rm : Rm) (d a b : VReg) (p : Option PReg) (s : State) : Out :=
  vectorIssue (.vadd t rm d a b p) (predLen p) s
def execVsub (t : Ty) (rm : Rm) (d a b : VReg) (p : Option PReg) (s : State) : Out :=
  vectorIssue (.vsub t rm d a b p) (predLen p) s
def execVmul (t : Ty) (rm : Rm) (d a b : VReg) (p : Option PReg) (s : State) : Out :=
  vectorIssue (.vmul t rm d a b p) (predLen p) s
def execVmax (t : Ty) (d a b : VReg) (p : Option PReg) (s : State) : Out := vectorIssue (.vmax t d a b p) (predLen p) s
def execVmin (t : Ty) (d a b : VReg) (p : Option PReg) (s : State) : Out := vectorIssue (.vmin t d a b p) (predLen p) s
def execVfma (t : Ty) (rm : Rm) (d a b c : VReg) (p : Option PReg) (s : State) : Out :=
  vectorIssue (.vfma t rm d a b c p) 12 s
def execVfms (t : Ty) (rm : Rm) (d a b c : VReg) (p : Option PReg) (s : State) : Out :=
  vectorIssue (.vfms t rm d a b c p) 12 s
def execVabs (t : Ty) (d a : VReg) (p : Option PReg) (s : State) : Out := vectorIssue (.vabs t d a p) (predLen p) s
def execVneg (t : Ty) (d a : VReg) (p : Option PReg) (s : State) : Out := vectorIssue (.vneg t d a p) (predLen p) s
def execVand (t : Ty) (d a b : VReg) (p : Option PReg) (s : State) : Out := vectorIssue (.vand t d a b p) (predLen p) s
def execVor (t : Ty) (d a b : VReg) (p : Option PReg) (s : State) : Out := vectorIssue (.vor t d a b p) (predLen p) s
def execVxor (t : Ty) (d a b : VReg) (p : Option PReg) (s : State) : Out := vectorIssue (.vxor t d a b p) (predLen p) s
def execVshl (t : Ty) (d a b : VReg) (p : Option PReg) (s : State) : Out := vectorIssue (.vshl t d a b p) (predLen p) s
def execVshr (t : Ty) (d a b : VReg) (p : Option PReg) (s : State) : Out := vectorIssue (.vshr t d a b p) (predLen p) s
def execVsra (t : Ty) (d a b : VReg) (p : Option PReg) (s : State) : Out := vectorIssue (.vsra t d a b p) (predLen p) s
def execVcmp (t : Ty) (k : Rel) (d : PReg) (a b : VReg) (p : Option PReg) (s : State) : Out :=
  vectorIssue (.vcmp t k d a b p) (predLen p) s
def execVsel (t : Ty) (d a b : VReg) (p : PReg) (s : State) : Out := vectorIssue (.vsel t d a b p) 12 s
def execVcvt (u t : Ty) (rm : Rm) (d a : VReg) (p : Option PReg) (s : State) : Out :=
  vectorIssue (.vcvt u t rm d a p) (predLen p) s
def execVred (t : Ty) (rm : Rm) (d : WReg) (a : VReg) (p : PReg) (s : State) : Out :=
  vectorIssue (.vred t rm d a p) 8 s
def execVcmpm (d : PReg) (a : VReg) (b : WReg) (depth : BitVec 3) (trees : BitVec 6) (s : State) : Out :=
  vectorIssue (.vcmpm d a b depth trees) 8 s
def execVleaf (d : VReg) (a : PReg) (depth : BitVec 3) (trees : BitVec 6) (s : State) : Out :=
  vectorIssue (.vleaf d a depth trees) 8 s
def execVlut (t : Ty) (d a : VReg) (b : WReg) (s : State) : Out := vectorIssue (.vlut t d a b) 8 s
def execVquant (t : Ty) (e5 : Bool) (rm : Rm) (d a : VReg) (p : Option PReg) (s : State) : Out :=
  vectorIssue (.vquant t e5 rm d a p) (predLen p) s
def execVdeq (t : Ty) (e5 : Bool) (rm : Rm) (d a : VReg) (p : Option PReg) (s : State) : Out :=
  vectorIssue (.vdeq t e5 rm d a p) (predLen p) s

def execTcfg (d a : WReg) (s : State) : Out := tensorIssue (.tcfg d a) 8 s
def execTcfgClaim (d a : WReg) (s : State) : Out := tensorIssue (.tcfgClaim d a) 8 s
def execTcfgRel (d a : WReg) (s : State) : Out := tensorIssue (.tcfgRel d a) 8 s
def execTldw (a : WReg) (s : State) : Out := tensorIssue (.tldw a) 8 s
def execTsmeta (a : WReg) (s : State) : Out := tensorIssue (.tsmeta a) 8 s
def execTscq (a : WReg) (count : BitVec 5) (s : State) : Out := tensorIssue (.tscq a count) 8 s
def execTswap (s : State) : Out := tensorIssue .tswap 8 s
def execTwait (s : State) : Out := tensorIssue .twait 8 s
def execTmma (a b : WReg) (s : State) : Out := tensorIssue (.tmma a b) 8 s
def execTzero (a : WReg) (s : State) : Out := tensorIssue (.tzero a) 8 s
def execTdrain (t : Ty) (rm : Rm) (z : Bool) (amax : Option (Scope × WReg)) (a b : WReg) (s : State) : Out :=
  tensorIssue (.tdrain t rm z amax a b) (if amax.isSome then 12 else 8) s

/-! ### `rpt`, `rptw` (R359, R360) -/

/-- `rpt` (R182, R359): its fetch may have to wait (R44). -/
def execRpt (len : Fin 16) (reps : BitVec 12) (stride : Fin 8) (s : State) : Out :=
  ok (startProg s.me { prog := [.finish (.rpt (len.val + 1) (reps.toNat + 1) stride.val)] } s)

/-- `SEQUENCER_PLACE` (R182). -/
def execSequencerPlace (core : Nat) (s : State) : Out := ok (placeStep core s)

/-- `rptw` (R360). -/
def execRptw (s : State) : Out :=
  let me := s.me
  match joinSequence me false s with
  | some s => ok s
  | none => ok (s.advPc me.base 8)

end Sys2Proof.Machine
end

