-- ==== Sys2Proof/Machine/Control.lean ====
section
/-! DEFINITION. The branches and jumps (R310, R311), `yield` (R312), `nop`, `pad` and `udf` (R285, R412), and `trap`,
`eret`'s restoring path and the steps that need no memory access. -/

namespace Sys2Proof.Machine

open Sys2Proof

/-- The target of a pc-relative branch: PC + 4 * Imm (R310). -/
def branchTarget (pc : Word) (imm : Word) : Word := pc + 4 * imm

/-- A branch: to its target when taken, past itself otherwise (R310). -/
def branch (taken : Bool) (imm : Imm) (me : Me) (s : State) : State :=
  if taken then s.jumpPc me (branchTarget (s.pc me.base) imm.val) else s.advPc me.base (Imm.len imm)

def execB (p : PReg) (imm : Imm) (s : State) : Out :=
  let me := s.me
  ok (branch (bit (s.getP me.base p).toNat 0) imm me s)

def execBz (a : WReg) (imm : Imm) (s : State) : Out :=
  let me := s.me
  ok (branch (s.getW me.base a = 0) imm me s)

def execBnz (a : WReg) (imm : Imm) (s : State) : Out :=
  let me := s.me
  ok (branch (s.getW me.base a ≠ 0) imm me s)

def execJ (imm : Imm) (s : State) : Out := ok (branch true imm s.me s)

/-- `jal` writes the address after itself, then jumps (R310). -/
def execJal (d : WReg) (imm : Imm) (s : State) : Out :=
  let me := s.me
  let pc := s.pc me.base
  ok ((s.setW me.base d (pc + BitVec.ofNat 64 (Imm.len imm))).jumpPc me (branchTarget pc imm.val))

/-- `loop` decrements its counter and branches while it is nonzero (R310). -/
def execLoop (a : WReg) (imm : Imm) (s : State) : Out :=
  let me := s.me
  let v := s.getW me.base a - 1
  ok (branch (v ≠ 0) imm me (s.setW me.base a v))

/-- `jr`: a target that is not a multiple of 4 raises #ALIGN in the jump (R311). -/
def execJr (a : WReg) (s : State) : Out :=
  let me := s.me
  let t := s.getW me.base a
  if t.toNat % 4 ≠ 0 then ok (trap (align t.toNat 4 accFetch) s) else ok (s.jumpPc me t)

/-- `jalr` jumps to the old value of W[a], also when it is the destination (R311). -/
def execJalr (d a : WReg) (s : State) : Out :=
  let me := s.me
  let t := s.getW me.base a
  if t.toNat % 4 ≠ 0 then ok (trap (align t.toNat 4 accFetch) s)
  else ok ((s.setW me.base d (s.pc me.base + 8)).jumpPc me t)

/-- `yield` passes the core's turns in BRING mode; otherwise it only takes its turn (R312, R230). -/
def execYield (s : State) : Out :=
  let me := s.me
  let s := s.advPc me.base 8
  if s.dev.bring then ok (s.yieldTurns me.core me.slot) else ok s

/-- `nop` takes a turn and changes nothing (R412). -/
def execNop (s : State) : Out := ok (s.advPc s.me.base 8)

/-- The pad word: fetch goes on at the next multiple of 32 above it (R285). -/
def padNext (pc : Word) : Word := (pc ||| 31) + 1

def execPad (s : State) : Out :=
  let base := s.me.base
  ok (s.setPc base (padNext (s.pc base)))

/-- `udf`: every encoding with OP 0x00 raises #ILL, INFO0 its first 64 bits (R412). -/
def execUdf (bits : BitVec 64) (s : State) : Out := ok (trap { cause := .ill, info0 := bits.toNat } s)

/-- `trap` raises cause 0 with its immediate (R402). -/
def execTrap (code : BitVec 24) (s : State) : Out := ok (trap { cause := .call, info0 := code.toNat } s)

/-- `gtime` reads the local GT of the issuing die (R405). -/
def execGtime (d : WReg) (s : State) : Out :=
  let me := s.me
  ok ((s.setW me.base d (BitVec.ofNat 64 (s.gtOf me.core))).advPc me.base 8)

/-- `mark` appends an entry of KIND 7 to the core's message log when it is on; it changes nothing else (R404). -/
def execMark (code : BitVec 24) (s : State) : Out :=
  let me := s.me
  let data := (s.pc me.base).toNat + code.toNat * 2 ^ 64
  ok ((logEntry me.core me.core (s.numOf me.base) 7 data s).advPc me.base 8)

/-- `icinv` invalidates every line of the issuing core's instruction cache (R324). -/
def execIcinv (s : State) : Out :=
  let me := s.me
  ok ((s.modCore me.core (fun c => { c with icache := [] })).advPc me.base 8)

/-- `fbar` discards the issuing slot's fetched block (R324). -/
def execFbar (s : State) : Out :=
  let me := s.me
  ok ((s.modSlot me.slot (fun x => { x with block := none })).advPc me.base 8)

/-! ### Predicates (R348): all 64 bits, in the core -/

def pred2 (f : Word → Word → Word) (d a b : PReg) (s : State) : Out :=
  let base := s.me.base
  ok ((s.setP base d (f (s.getP base a) (s.getP base b))).advPc base 8)

def execPand (d a b : PReg) (s : State) : Out := pred2 (· &&& ·) d a b s
def execPor (d a b : PReg) (s : State) : Out := pred2 (· ||| ·) d a b s
def execPxor (d a b : PReg) (s : State) : Out := pred2 (· ^^^ ·) d a b s

def execPnot (d a : PReg) (s : State) : Out :=
  let base := s.me.base
  ok ((s.setP base d (~~~ s.getP base a)).advPc base 8)

def execPmov (m : PMove) (s : State) : Out :=
  let base := s.me.base
  let s' := match m with
    | .pp d a => s.setP base d (s.getP base a)
    | .pw d a => s.setP base d (s.getW base a)
    | .wp d a => s.setW base d (s.getP base a)
  ok (s'.advPc base 8)

end Sys2Proof.Machine
end

