-- ==== Sys2Proof/Machine/HerdExec.lean ====
section
/-! DEFINITION. The herd instructions (R204 to R216, R366 to R378): their checks and steps in the order of R367, and the
delivery of a deposit (R143). -/

namespace Sys2Proof.Machine

open Sys2Proof

/-- `hinit` (R210, R369): the check of R215, then the operand against QLAST, then the seal. -/
def execHinit (a : WReg) (s : State) : Out :=
  let me := s.me
  let v := (s.getW me.base a).toNat
  if s.ownsUnsealed me then ok (trap prot s)
  else if v % 256 ≠ 0 ∨ 2 ^ 16 ≤ v ∨ slabQlast (s.hslab me.base) < v then ok (trap prot s)
  else ok (startProg me { prog := [.seal false, .finish (.hinit (BitVec.ofNat 64 v)), .adv 8] } s)

/-- `hld` (R370): the check of R215 for `hm`, the memory faults, the seal, the read. -/
def execHld (d : HReg) (a : WReg) (imm : Imm) (s : State) : Out :=
  let me := s.me
  if d = .hm ∧ s.ownsUnsealed me then ok (trap prot s)
  else access1 .read (s.ea me.base a imm) 32 []
    [.xlate 0, .prot, .marked, .verify, .seal false, .perform 0, .finish (.loadH d), .adv (Imm.len imm)] s

/-- `hst` (R370): the memory faults, the seal, the register as the seal leaves it, the write. -/
def execHst (a : WReg) (imm : Imm) (b : HReg) (s : State) : Out :=
  access1 .write (s.ea s.me.base a imm) 32 [s.getH s.me.base b]
    [.xlate 0, .prot, .marked, .verify, .seal false, .finish (.fetchH b), .perform 0, .adv (Imm.len imm)] s

/-- `hmov` (R371). -/
def execHmov (op : HmovOp) (d a b : HReg) (s : State) : Out :=
  let me := s.me
  if hmovBlind op d a b && s.ownsUnsealed me then ok (trap prot s)
  else ok (startProg me { prog := [.seal false, .finish (.hmov op d a b), .adv 8] } s)

/-- `hpop` (R372). -/
def execHpop (d : WReg) (a : HReg) (s : State) : Out :=
  ok (startProg s.me { prog := [.seal false, .finish (.hpop d a), .adv 8] } s)

/-- `hnext` (R372). -/
def execHnext (d : WReg) (a : HReg) (b : WReg) (s : State) : Out :=
  ok (startProg s.me { prog := [.seal false, .finish (.hnext d a b), .adv 8] } s)

/-- `hcmp` (R373): `#ILL` for an invalid SLOT, `#PROT` for a reserved bit and for an invalid slab, then the seal. -/
def execHcmp (t : Ty) (ge : Bool) (a b : WReg) (s : State) : Out :=
  let me := s.me
  let ctl := s.getW me.base b
  if (keySlot t (bits ctl.toNat 2 4)).isNone then ok (trapIll (.hcmp t ge a b) s)
  else if 2 ^ 6 ≤ ctl.toNat then ok (trap prot s)
  else if !s.slabOk (clusterOf me.core) (s.hslab me.base) then ok (trap prot s)
  else ok (startProg me { prog := [.seal false, .travel (.hcmp t ge (s.getW me.base a) ctl), .finish (.hcmp t ge (s.getW me.base a) ctl), .adv 8] } s)

/-- `hfound` (R374). -/
def execHfound (a : WReg) (s : State) : Out :=
  let me := s.me
  if !s.slabOk (clusterOf me.core) (s.hslab me.base) then ok (trap prot s)
  else ok (startProg me { prog := [.seal false, .travel (.hfound (s.getW me.base a)), .finish (.hfound (s.getW me.base a)), .adv 8] } s)

/-- `hside` (R374). -/
def execHside (set : Bool) (a : WReg) (off : BitVec 6) (s : State) : Out :=
  let me := s.me
  if !s.slabOk (clusterOf me.core) (s.hslab me.base) then ok (trap prot s)
  else ok (startProg me { prog := [.seal false, .travel (.hside set (s.getW me.base a) off.toNat), .finish (.hside set (s.getW me.base a) off.toNat), .adv 8] } s)

/-- `hsplit` (R375): the seal, the release at `.clu` unless `hx` is empty, the dispatch. -/
def execHsplit (d : WReg) (imm : BitVec 24) (s : State) : Out :=
  let me := s.me
  let target := branchTarget (s.pc me.base) (imm.signExtend 64)
  ok (startProg me
    { prog := [.seal false, .finish (.hsplitStart d), .release .clu, .finish (.hsplit d target), .adv 8] } s)

/-- `hmeet` (R376): `#ALIGN` before the withdraw. -/
def execHmeet (d a : WReg) (s : State) : Out :=
  let me := s.me
  let v := s.getW me.base a
  if v.toNat % 8 ≠ 0 then ok (trap { cause := .align, addr := v.toNat, info0 := 8 } s)
  else ok (startProg me { prog := [.seal true, .finish (.hmeet d v), .adv 8] } s)

/-- `hdrop` (R377): the withdraw, `#PROT` with members left, and the end of the context. -/
def execHdrop (s : State) : Out := ok (startProg s.me { prog := endSteps } s)

/-- A deposit applied to a register of a workspace wherever it lies (R142, R143), with its log entry (R280): a deposit
of at most 32 bytes is one flit. -/
def applyDeposit (key base off n v : Nat) (isOr : Bool) (src : Nat) (s : State) : State :=
  let old := s.wsRd base off n
  logCtx key src 2 v (wsWr base off n (if isOr then old ||| v else v) s)

/-- A deposit accepted for a context's rendezvous entry has been settled: its seal or withdraw may go on (R213). -/
def settleDeposit (key : Nat) (s : State) : State :=
  let s := s.modCtx key (fun c => { c with deposits := c.deposits - 1 })
  if (s.ctx key).deposits = 0 then wake (fun k w => k = key && w.block = .deposits) s else s

/-- A deposit at its workspace: applied, settled, and an event for `wfe` (R406). -/
def deliverDeposit (key base off n v : Nat) (isOr : Bool) (src : Nat) (s : State) : State :=
  wakeWfe key (settleDeposit key (applyDeposit key base off n v isOr src s))

/-- `DEPOSIT_DELIVERY` (R143, R253, R258): applied by number; held while the workspace is between its places; dropped
for a context that has ended. -/
def execDepositDelivery (msg : Nat) (s : State) : Out :=
  match s.msg? msg with
  | some (.deposit key off n v isOr src) =>
    ok (delivery msg key (fun b s => deliverDeposit key b off n v isOr src s) s)
  | _ => ok s

end Sys2Proof.Machine
end

