-- ==== Sys2Proof/Machine/System.lean ====
section
/-! DEFINITION. System registers (R134 to R140, R399 to R401), traps and returns (R402, R403), halts (R275, R276),
waiting (R406) and translation shoot-down (R46, R410, R411). -/

namespace Sys2Proof.Machine

open Sys2Proof

/-! ### `mfs` (R135, R400) -/

/-- The value of a stash-window descriptor (R105). -/
def Window.word (x : Window) : Nat :=
  b2n x.v + x.size % 8 * 2 ^ 8 + x.lbase % 256 * 2 ^ 11 + x.vpn % 2 ^ 45 * 2 ^ 19

/-- The value of `MODE` (R269). -/
def Device.mode (d : Device) : Nat :=
  b2n d.bring + 2 * b2n d.baloff + 8 * b2n d.idgone + 16 * b2n d.seca + 32 * b2n d.cxl + d.thr.toNat * 64

/-- The value of `NETCAP` (R27). -/
def netcap : Nat := 32 + 32 * 2 ^ 8 + 16 * 2 ^ 16

/-- The bits of a workspace register that its map names; the others read as zero and ignore writes (R13). -/
def fieldMask : SysReg → Nat
  | .ctxn => 0x8FFFFFFF
  | .fpflags => 0xF
  | .pushst => 0xFFFFFFFFFF03FF00
  | .rgn => 0xFFFF
  | .hslab => 2 ^ 39 - 64
  | .ptroot => 2 ^ 64 - 4096
  | _ => 2 ^ 64 - 1

/-- A per-core register's value (R59, R100, R111, R140). -/
def Core.reg (c : Core) : SysReg → Nat
  | .pushq => c.quota
  | .pushref => c.pushref
  | .lmcfg => c.frames
  | .rrcfg => b2n c.rrEn + c.rrSize % 8 * 2 + c.rrBase % 256 * 2 ^ 12
  | .rrptr => c.rrHead + c.rrTail * 2 ^ 32
  | .rrref => c.rrref
  | .rtab0 => c.rtab0.toNat
  | .rtab1 => c.rtab1.toNat
  | .swin i => (tget c.wins i.val).word
  | _ => 0

/-- The value of a system register for a slot (R135). -/
def State.sysReg (s : State) (me : Me) (r : SysReg) : Nat :=
  let word := fun off => s.ws me.base off &&& fieldMask r
  match r with
  | .wp => b2n (s.slot me.slot).v + (s.slot me.slot).frame.toNat * 2 ^ 12
  | .ctxn => word offCtxn
  | .locid => locid me.core (me.slot % 16)
  | .netcap => netcap
  | .mode => s.dev.mode
  | .qcfg => s.dev.qcfg.toNat
  | .fpflags => word offFpflags
  | .pushst => word offPushst
  | .rgn => word offRgn
  | .afr => word offAfr
  | .hslab => word offHslab
  | .lrs => word offLrs
  | .ptroot => word offPtroot
  | .afnext => (s.teamOf me.key).afnext.toNat
  | .aflim => (s.teamOf me.key).aflim.toNat
  | .lease => (s.die (dieOf me.core)).lease
  | r => (s.core me.core).reg r

/-- `mfs` (R400). -/
def execMfs (d : WReg) (r : SysReg) (s : State) : Out :=
  let me := s.me
  if r = .ptroot ∧ !s.pl me.base then ok (trapPriv (.mfs d r) s)
  else ok ((s.setW me.base d (BitVec.ofNat 64 (s.sysReg me r))).advPc me.base 8)

/-! ### `mts` (R135, R400) -/

/-- The registers that `mts` writes only at PL = 1 (R135). -/
def mtsPrivileged : SysReg → Bool
  | .wp | .mode | .hslab | .ptroot | .afnext | .aflim | .lmcfg | .rrcfg | .rrref | .rtab0 | .rtab1 | .lease => true
  | _ => false

/-- A write of `PUSHST` (R60): REFUSED and LASTREF store, REMOTE clears, PEND stays. -/
def pushstWrite (old new : Nat) : Nat :=
  let w := setBits (setBits old 32 32 (bits new 32 32)) 8 9 (bits new 8 9)
  if bit new 17 then setBits w 17 1 0 else w

/-- The effect of `mts` on a register without behaviour of its own; a read-only register ignores it (R135). -/
def mtsValue (me : Me) (r : SysReg) (v : Nat) (s : State) : State :=
  match r with
  | .fpflags => s.setWs me.base offFpflags (v &&& fieldMask .fpflags)
  | .pushst => s.setWs me.base offPushst (pushstWrite (s.ws me.base offPushst) v)
  | .hslab => s.setWs me.base offHslab (v &&& fieldMask .hslab)
  | .ptroot => s.setWs me.base offPtroot (v &&& fieldMask .ptroot)
  | .pushref => s.modCore me.core (fun c => { c with pushref := v % 2 ^ 32 })
  | .rrref => s.modCore me.core (fun c => { c with rrref := v % 2 ^ 32 })
  | .rtab0 => s.modCore me.core (fun c => { c with rtab0 := BitVec.ofNat 64 v })
  | .rtab1 => s.modCore me.core (fun c => { c with rtab1 := BitVec.ofNat 64 v })
  | _ => s

/-- `mts`, with the privilege of its register (R386, R400). -/
def mtsChecked (r : SysReg) (a : WReg) (i : Instr) (f : Me → Nat → State → State) (s : State) : Out :=
  let me := s.me
  if mtsPrivileged r && !s.pl me.base then ok (trapPriv i s)
  else ok ((f me (s.getW me.base a).toNat s).advPc me.base 8)

def execMts (r : SysReg) (a : WReg) (s : State) : Out := mtsChecked r a (.mts r a) (fun me v s => mtsValue me r v s) s

/-- `mts AFNEXT`: stored only above the current value (R191). -/
def execMtsAfnext (a : WReg) (s : State) : Out :=
  mtsChecked .afnext a (.mtsAfnext a) (fun me v s =>
    let c := s.ctx me.key
    let t := s.team c.cluster c.entry
    if t.afnext.toNat < v % 2 ^ 16 then setPair c.cluster c.entry (BitVec.ofNat 16 v) t.aflim s else s) s

/-- `mts AFLIM`: clamped to 65,534 (R191). -/
def execMtsAflim (a : WReg) (s : State) : Out :=
  mtsChecked .aflim a (.mtsAflim a) (fun me v s =>
    let c := s.ctx me.key
    let t := s.team c.cluster c.entry
    setPair c.cluster c.entry t.afnext (BitVec.ofNat 16 (satTo (v % 2 ^ 16) 65534)) s) s

/-- `PUSHQ` written (R59). -/
def writePushq (core v : Nat) (s : State) : State := s.modCore core (fun c => { c with quota := satTo (v % 2 ^ 7) 64 })

def execMtsPushq (a : WReg) (s : State) : Out :=
  mtsChecked .pushq a (.mtsPushq a) (fun me v s => writePushq me.core v s) s

/-- A lease length clamped to 256 to 65,536 (R62). -/
def clampLease (v : Nat) : Nat := if v % 2 ^ 17 < 256 then 256 else satTo (v % 2 ^ 17) 65536

def execMtsLease (a : WReg) (s : State) : Out :=
  mtsChecked .lease a (.mtsLease a) (fun me v s => s.modDie (dieOf me.core) (fun d => { d with lease := clampLease v })) s

/-- A frame count clamped to 16 to 64 (R100). -/
def clampFrames (v : Nat) : Nat := if v % 2 ^ 7 < 16 then 16 else satTo (v % 2 ^ 7) 64

/-- `FRAMES` written, the full/empty bits of dwords that enter the general region emptied (R100). -/
def writeFrames (core n : Nat) (s : State) : State :=
  let s := s.modCore core (fun c => { c with frames := n })
  let lo := localPa core (s.general core).1
  let hi := localPa core (s.general core).2
  let all := localPa core 0
  let before := s.fe
  { s with fe := before.filter (fun d => d * 8 < all || all + 0x100000 ≤ d * 8 || (lo ≤ d * 8 && decide (d * 8 < hi))) }

/-- The contexts that lie in a core. -/
def State.ctxsOfCore (s : State) (core : Nat) : List Nat :=
  (s.ctxs.filter (fun c =>
    match c.2.loc with
    | .frame g _ => g = core
    | .spilling g _ _ => g = core
    | .filling g _ _ => g = core
    | _ => false)).map Prod.fst

/-- A frame within the frame region of `n` frames. -/
def frameWithin (core n f : Nat) : Bool := if core % 8 % 2 = 0 then decide (f < n) else decide (256 - n ≤ f) && decide (f < 256)

/-- `mts LMCFG` (R100): under the three conditions only. -/
def execMtsLmcfg (a : WReg) (s : State) : Out :=
  mtsChecked .lmcfg a (.mtsLmcfg a) (fun me v s =>
    let n := clampFrames v
    let c := s.core me.core
    let alone := (s.ctxsOfCore me.core).all (fun k => k = me.key)
    let quiet := !c.rrEn && (List.range 8).all (fun w => !(tget c.wins w).v)
    let mine := frameWithin me.core n (s.slot me.slot).frame.toNat
    let lent := match (s.ctx me.key).borrow with | some (_, f) => frameWithin me.core n f | none => true
    if alone && quiet && mine && lent then writeFrames me.core n s else s) s

/-- `RRCFG` written (R111): ignored while the ring is not empty. -/
def writeRrcfg (core v : Nat) (s : State) : State :=
  let c := s.core core
  if c.rrHead ≠ c.rrTail then s
  else
    let size := satTo (bits v 1 3) 4
    let base := bits v 12 8
    let bytes := 4096 * 2 ^ size
    let good := base * 4096 % bytes = 0 && s.inGeneral core (base * 4096) bytes && !s.meetsWindow core (base * 4096) bytes
    s.modCore core (fun c =>
      { c with rrBase := base, rrSize := size, rrEn := bit v 0 && good, rrTail := 0, rrHead := 0, stamps := [] })

def execMtsRrcfg (a : WReg) (s : State) : Out :=
  mtsChecked .rrcfg a (.mtsRrcfg a) (fun me v s => writeRrcfg me.core v s) s

/-- `MODE` written (R269): BALOFF is judged against BRING as the write leaves it. -/
def writeMode (v : Nat) (s : State) : State :=
  { s with dev := { s.dev with bring := bit v 0, baloff := bit v 1 && bit v 0 } }

/-- `MODE_BRING_WRITE`: `mts MODE`, which takes effect only in QCFG MODE 4, or the firmware's own path (R269). -/
def execModeBringWrite (src : ModeSrc) (s : State) : Out :=
  match src with
  | .reg a => mtsChecked .mode a (.modeBringWrite (.reg a)) (fun _ v s => if s.qmode = 4 then writeMode v s else s) s
  | .firmware v => ok (writeMode v.toNat s)

/-- `MODE_BALOFF_WRITE`: a firmware write that leaves BRING as it stands (R269). -/
def execModeBaloffWrite (on : Bool) (s : State) : Out :=
  ok { s with dev := { s.dev with baloff := on && s.dev.bring } }

/-- `mts WP` (R136, R401): the issuing context is parked after the instruction, and the slot points at the value. -/
def execMtsWp (a : WReg) (s : State) : Out :=
  let me := s.me
  if !s.pl me.base then ok (trapPriv (.mtsWp a) s)
  else
    let v := (s.getW me.base a).toNat
    let f := bits v 12 8
    let s := (park me.key (s.advPc me.base 8)).modSlot me.slot (fun x => { x with frame := BitVec.ofNat 8 f })
    match (if bit v 0 && (s.frameList me.core).contains f then s.ctxInFrame me.core f else none) with
    | some key =>
      if (s.ctx key).slot.isNone && !(s.ctx key).killing then ok (runOn me.core (me.slot % 16) key s) else ok s
    | none => ok s

/-! ### Breakpoints, traps and returns (R276, R402, R403) -/

/-- The cross-trigger driven by a cluster for every other that listens and runs (R275). -/
def driveTrigger (cl : Nat) (s : State) : State :=
  { s with clusters := s.clusters.map (fun (c : Nat × Cluster) =>
    if c.1 ≠ cl && c.2.dbg.xin && c.2.dbg.state = 0 then (c.1, { c.2 with dbg := { c.2.dbg with trigger := true } }) else c) }

/-- A cluster begins to halt (R275), and drives the cross-trigger where its XOUT is set; one that is not running ignores
it. -/
def haltCluster (cl : Nat) (s : State) : State :=
  if (s.cluster cl).dbg.state = 0 then
    let s := s.modCluster cl (fun c => { c with dbg := { c.dbg with state := 1, haltedAt := s.gtOf (cl * 8), trigger := false } })
    if (s.cluster cl).dbg.xout then driveTrigger cl s else s
  else s

/-- `brk` (R276, R402). -/
def execBrk (code : BitVec 24) (s : State) : Out :=
  let me := s.me
  let cl := clusterOf me.core
  if (s.cluster cl).dbg.brkclaim then ok (haltCluster cl (s.advPc me.base 8))
  else ok (trap { cause := .brk, info0 := code.toNat } s)

/-- A context marked for a kill: it issues no more (R258). -/
def markKill (key : Nat) (s : State) : State :=
  s.modCtx key (fun c => if c.killing then c else { c with killing := true, killGt := s.gtOf (c.cluster * 8) })

/-- `eret` (R249, R403). -/
def execEret (s : State) : Out :=
  let me := s.me
  if !s.pl me.base then ok (trapPriv .eret s)
  else
    let f := me.base + offFault
    let action := s.rd (f + 72) 8
    let rpc := s.rd (f + 8) 8
    if action = 0 then
      if rpc % 4 ≠ 0 then ok (trap (align rpc 4 accFetch) s)
      else ok ((eretRestore me s).jumpPc me (BitVec.ofNat 64 rpc))
    else
      let s := eretRestore me s
      if action = 1 then ok ((markKill me.key (s.setWait me.key { block := .ending })).yieldTurns me.core me.slot)
      else ok ((fatal me.key me.core (me.slot % 16) (s.rd f 256) (s.gtOf me.core) s).yieldTurns me.core me.slot)

/-! ### Waiting (R406) -/

/-- `wfe`: the slot leaves the rotation after it (R406); `#BLOCK` in a codelet. -/
def execWfe (s : State) : Out :=
  let me := s.me
  if s.kindOf me.base = 1 then ok (trap { cause := .block } s)
  else ok (waitOn me (.wfe (s.gtOf me.core)) {} (s.advPc me.base 8))

/-- `WFE_TIMEOUT` (R406): one microsecond of GT after its issue. -/
def execWfeTimeout (ctx : Nat) (s : State) : Out :=
  match (s.ctx ctx).slot, s.waitOf ctx with
  | some k, some (.wfe start) => if start + 1000 ≤ s.gtOf (k / 16) then ok (wakeWfe ctx s) else ok s
  | _, _ => ok s

/-! ### Translation shoot-down (R46, R410, R411) -/

/-- `tinv` (R410): the range and the address spaces; the slot goes on at once. -/
def execTinv (a b c : WReg) (s : State) : Out :=
  let me := s.me
  if !s.pl me.base then ok (trapPriv (.tinv a b c) s)
  else
    let sel := (s.getW me.base c).toNat
    if 2 ^ 13 ≤ sel then ok (trap prot s)
    else
      let lo := (s.getW me.base a).toNat
      let hi := min (lo + (s.getW me.base b).toNat) (2 ^ 64)
      let id := s.nextId
      let s := s.send (.tinv id me.key (s.partOf me.core) lo hi (if bit sel 12 then none else some (sel % 2 ^ 12)))
      ok ((s.modCtx me.key (fun x => { x with tinvs := x.tinvs ++ [id] })).advPc me.base 12)

/-- `tsync` (R411): it waits for the context's earlier `tinv`s. -/
def execTsync (s : State) : Out :=
  let me := s.me
  if !s.pl me.base then ok (trapPriv .tsync s)
  else if (s.ctx me.key).tinvs.isEmpty then ok (s.advPc me.base 8)
  else ok (waitOn me .tsync {} s)

/-- A virtual address of 57 bits as the 64-bit address it stands for (R37). -/
def fullVa (va : Nat) : Nat := if va < 2 ^ 56 then va else va + 2 ^ 64 - 2 ^ 57

/-- A range of `2 ^ logSize` bytes at a 57-bit address meets [lo, hi); an empty range meets nothing (R410). -/
def meetsRange (va logSize lo hi : Nat) : Bool :=
  decide (lo < hi) && decide (fullVa va < hi) && decide (lo < fullVa va + 2 ^ logSize)

def asidMeets (asid : Option Nat) (a : Nat) : Bool :=
  match asid with
  | none => true
  | some x => x = a

/-- The translations of a partition that meet a range dropped from every TLB and walk cache (R46, R410). -/
def dropTranslations (p lo hi : Nat) (asid : Option Nat) (s : State) : State :=
  let hit := fun (e : TlbEntry) => asidMeets asid e.asid && meetsRange e.va e.leaf.logSize lo hi
  let s := { s with cores := s.cores.map (fun (c : Nat × Core) =>
    if s.partOf c.1 = p then (c.1, { c.2 with tlb := c.2.tlb.filter (fun e => !hit e) }) else c) }
  let s := { s with clusters := s.clusters.map (fun (c : Nat × Cluster) =>
    if s.partOf (c.1 * 8) = p then (c.1, { c.2 with tlb := c.2.tlb.filter (fun e => !hit e) }) else c) }
  { s with dies := s.dies.map (fun (d : Nat × Die) =>
    (d.1, { d.2 with walks := d.2.walks.filter (fun w =>
      !(partOfQuarter s.qmode (w.2.addr / quarterBytes) = p && asidMeets asid w.2.asid &&
        meetsRange (w.2.va * 2 ^ w.2.logSize) w.2.logSize lo hi)) })) }

/-- A small step that performs an access. -/
def Micro.accesses : Micro → Bool
  | .perform _ => true
  | _ => false

/-- A small step that may use a translation that its instruction has walked for. -/
def Micro.uses : Micro → Bool
  | .adv _ | .acquire | .release _ | .commit | .seal _ => false
  | _ => true

/-- A page, by an address in it and its leaf, meets a range. -/
def pageMeets (va : Nat) (l : Leaf) (lo hi : Nat) : Bool :=
  meetsRange (va % 2 ^ 57 / 2 ^ l.logSize * 2 ^ l.logSize) l.logSize lo hi

/-- The virtual address of a line of a stash window (R107). -/
def State.windowVa (s : State) (g w idx : Nat) : Nat := (s.win g w).vpn * 4096 + idx * 128

/-- A fill of a window line that began through a translation of a range (R46, R107). -/
def State.fillPending (s : State) (p lo hi : Nat) : Bool :=
  s.cores.any (fun c =>
    decide (s.partOf c.1 = p) &&
    c.2.wins.any (fun w => w.2.lines.any (fun e =>
      (s.copy (winHolder c.1 w.1 e.1) e.2.1).miss.isSome && pageMeets (s.windowVa c.1 w.1 e.1) e.2.2 lo hi)))

/-- An element's access goes through a range: through its own translation, or through that of the window line in which it
was placed. -/
def State.elemThrough (s : State) (lo hi : Nat) (e : Elem) : Bool :=
  pageMeets e.va e.leaf lo hi ||
  (match e.tgt with
   | some { win := some (g, n, idx), leaf := l, .. } => pageMeets (s.windowVa g n idx) l lo hi
   | _ => false)

/-- What an instruction that waits has still to do through a range: an access, one on an empty word that it waits for
included, or what it does with a page that it has walked. -/
def State.waitThrough (s : State) (lo hi : Nat) (w : Wait) : Bool :=
  let waitsWord := match w.block with
    | .fe .. => true
    | _ => false
  ((waitsWord || w.cont.prog.any Micro.accesses) && w.cont.elems.any (s.elemThrough lo hi)) ||
  (w.cont.prog.any Micro.uses &&
    w.cont.walked.any (fun x => match x.fin with
      | .leaf l => pageMeets (x.page * 4096) l lo hi
      | .trap _ => false))

/-- A walk of a partition in a range that is asked for or under way, for a context or a unit (R45). -/
def State.walkThrough (s : State) (p lo hi : Nat) : Bool :=
  let hit := fun (r : WalkReq) => decide (r.part = p) && meetsRange (r.vpn * 4096) 12 lo hi
  s.ctxs.any (fun c => (s.walkReq c.1).any hit) ||
  s.dies.any (fun d => (d.2.walkers ++ d.2.walkQ).any (fun r => r.fresh s.cycle && hit r))

/-- A walk or an access of a partition that is still to perform through a range (R46). -/
def State.pendingIn (s : State) (p lo hi : Nat) : Bool :=
  s.fillPending p lo hi || s.walkThrough p lo hi ||
  s.ctxs.any (fun c => decide (c.1 / 2 ^ 24 = p) && c.2.wait.any (s.waitThrough lo hi))

/-- `TINV_COMPLETE` (R46): once no walk and no access through the range is under way, its translations are gone. -/
def execTinvComplete (id : Nat) (s : State) : Out :=
  match s.msg? id with
  | some (.tinv n ctx p lo hi asid) =>
    if s.pendingIn p lo hi then ok s
    else
      let s := dropTranslations p lo hi asid (s.drop id)
      let s := s.modPart p (fun x =>
        { x with queues := x.queues.map (fun q => (q.1, { q.2 with tinvs := q.2.tinvs.filter (· ≠ n) })) })
      if ctx = 0 ∨ !thas s.ctxs ctx then ok s
      else
        let s := s.modCtx ctx (fun x => { x with tinvs := x.tinvs.filter (· ≠ n) })
        if (s.ctx ctx).tinvs.isEmpty then ok (wake (fun k w => k = ctx && w.block = .tsync) s) else ok s
  | _ => ok s

end Sys2Proof.Machine
end

