-- ==== Sys2Proof/Machine/Contexts.lean ====
section
/-! DEFINITION. Contexts moved and stopped: `swp`, `ctxs`, `ctxl` (R407 to R409), spills and fills (R252, R253), kills
and the freeing of numbers (R258), and the resumption of a migrated context (R82). -/

namespace Sys2Proof.Machine

open Sys2Proof

/-! ### Acknowledgements of pushes (R56, R60) -/

/-- `PUSHST` of a workspace wherever it lies. -/
def changePushst (base : Nat) (f : Nat → Nat) (s : State) : State :=
  wsWr base offPushst 8 (f (s.wsRd base offPushst 8)) s

/-- `n` refusals recorded in `PUSHST`, the last of them of a target (R60). -/
def pushRefusedBy (n t w : Nat) : Nat := setBits (setBits w 32 32 (satTo (bits w 32 32 + n) 0xFFFFFFFF)) 8 9 t

/-- The last acknowledgement of a push, or the record of its last refusals: PEND falls, its visibility time is the GT of
this moment, and what waits for PEND goes on (R56, R60, R79). It stands beside the `vt` of the push's write: a release
takes the later of the two. DEDUCED: log 26. -/
def pushOver (key base line : Nat) (s : State) : State :=
  let core := match (s.ctx key).loc with
    | .frame g _ => g
    | _ => (s.ctx key).cluster * 8
  let now := s.gtOf core
  let s := changePushst base (fun w => setBits w 24 8 (bits w 24 8 - 1)) s
  let s := noteWrite key (s.lineDie line) now now s
  let pend := bits (s.wsRd base offPushst 8) 24 8
  wake (fun k w => k = key && w.block = .pushPend && (w.cont.prog.isEmpty || pend = 0)) s

/-- `n` targets of a push answered for (R56, R60). -/
def pushAnswered (key base n : Nat) (p : PushRec) (s : State) : State :=
  if n < p.left then
    s.modCtx key (fun c => { c with pushes := c.pushes.map (fun q =>
      if q.id = p.id then { q with left := q.left - n } else q) })
  else
    pushOver key base p.line (s.modCtx key (fun c => { c with pushes := c.pushes.filter (fun q => q.id ≠ p.id) }))

/-- The acknowledgement of a target at the writer's workspace, with its log entry (R60, R279). -/
def deliverAck (key base push t : Nat) (refused : Bool) (s : State) : State :=
  match (s.ctx key).pushes.find? (fun p => p.id = push) with
  | none => s
  | some p =>
    let s := wakeWfe key (logCtx key t 1 (b2n refused) s)
    pushAnswered key base 1 p (if refused then changePushst base (pushRefusedBy 1 t) s else s)

/-- A message addressed to a context number applied to its workspace. -/
def applyDelivery (base : Nat) (b : MsgBody) (s : State) : State :=
  match b with
  | .deposit key off n v isOr src => deliverDeposit key base off n v isOr src s
  | .drainFlags key flags src => deliverFlags key base flags src s
  | .pushAck key push t refused => deliverAck key base push t refused s
  | _ => s

/-- The deliveries that were held while a context's workspace was between its places are applied to where it is now, in
order of arrival (R253); in a halted cluster they go on waiting (R277). -/
def releaseDeliveries (key : Nat) (s : State) : State :=
  match s.baseOf key with
  | none => s
  | some base =>
    if s.ctxHalted key || !s.delivers key then s
    else
      let mine := s.heldBeats.filter (fun m => m.body.forCtx key)
      mine.foldl (fun s m => applyDelivery base m.body s)
        { s with heldBeats := s.heldBeats.filter (fun m => !m.body.forCtx key) }

/-! ### Spills and fills (R250, R252, R257) -/

/-- A parked context that could be spilled: its accepted deposits have performed. -/
def State.spillable (s : State) (key : Nat) : Bool :=
  let c := s.ctx key
  c.slot.isNone && !c.killing && !c.ended && (match c.loc with | .frame .. => true | _ => false)

/-- The parked context of a core that was parked longest ago. -/
def State.oldestParked (s : State) (core : Nat) : Option Nat :=
  let cand := s.ctxs.filter (fun c => s.spillable c.1 && (match c.2.loc with | .frame g _ => g = core | _ => false))
  match cand with
  | [] => none
  | x :: r => some (r.foldl (fun (m : Nat × Ctx) c => if c.2.order < m.2.order then c else m) x).1

/-- A spill begun into an image block: ST := 2 and the rendezvous entry withdrawn (R252 step 1). -/
def startSpill (key image : Nat) (s : State) : State :=
  match (s.ctx key).loc with
  | .frame g f =>
    let s := withdrawOf key s
    let s := s.modPart (key / 2 ^ 24) (fun p => { p with pool := p.pool.filter (· ≠ image) })
    setLoc key (.spilling g f image) s
  | _ => s

/-- A fill begun into a frame: ST := 2 (R252). -/
def startFill (key core frame : Nat) (s : State) : State :=
  match (s.ctx key).loc with
  | .hbm image => setLoc key (.filling core frame image) s
  | _ => s

/-- The contexts that wait for a transit to end go on (R407 to R409). -/
def wakeTransit (key : Nat) (s : State) : State :=
  wake (fun _ w => w.block = .transit key || w.block = .spillOf key || w.block = .fillOf key) s

/-- A borrowed workspace goes with its owner: its bytes leave the frames (R147, R252). DEDUCED: log 29. -/
def saveBorrowed (key : Nat) (s : State) : State :=
  match (s.ctx key).savedBorrow with
  | none => s
  | some (g, f) =>
    s.modCtx key (fun c => { c with savedBorrow := none, savedBytes := some (s.rd (wsBase g f) 4096) })

/-- `SPILL_COMPLETE` (R252 steps 2 and 3): the frame is written to the image, ST := 3, the frame is free, and the
deliveries held meanwhile go to the image (R253). -/
def execSpillComplete (ctx : Nat) (s : State) : Out :=
  match (s.ctx ctx).loc with
  | .spilling g f image =>
    match (s.lostIn (wsBase g f) 4096).orElse (fun _ => s.borrowLost ctx) with
    | some l =>
      let s := s.modPart (ctx / 2 ^ 24) (fun p => { p with pool := p.pool ++ [image] })
      ok (wakeTransit ctx (fatalLost ctx g (l * 128) (releaseDeliveries ctx (setLoc ctx (.frame g f) s))))
    | none =>
      let s := hwWrite image 4096 (s.rd (wsBase g f) 4096) (saveBorrowed ctx s)
      ok (wakeTransit ctx (releaseDeliveries ctx (setLoc ctx (.hbm image) s)))
  | _ => ok s

/-- The frames that a core needs (R252): one for the record at the head of its ring or stage queue, and, for a team that
waits for its place, one for each slot that could take a thread of it (R224, R225). DEDUCED: log 43. -/
def State.framesWanted (s : State) (core : Nat) : Nat :=
  let p := s.part (s.partOf core)
  let team := match p.waiting with
    | [] => 0
    | w :: _ => if (maskClusters (tget p.launches w.ln).cmask).contains (clusterOf core) then (s.freeNamed core).length else 0
  max (if s.hasRecord core then 1 else 0) team

/-- `SPILL` (R252): a frame is needed and none is free, so the parked context that was parked longest ago starts out.
DEDUCED: log 43. -/
def execSpill (ctx : Nat) (s : State) : Out :=
  match (s.ctx ctx).loc with
  | .frame g _ =>
    let short := (s.freeFrame g).isNone || decide ((s.freeFrames g).length < s.framesWanted g)
    if s.oldestParked g = some ctx && short && (s.ctx ctx).deposits = 0 then
      match (s.part (ctx / 2 ^ 24)).pool with
      | [] => ok s
      | image :: _ => ok (startSpill ctx image s)
    else ok s
  | _ => ok s

/-- Every byte copied into the frame and the held deliveries applied, ST := 1, the image block back in the pool (R252,
R253); a lost image line leaves ST 3 (R257). It waits for the host's copy of an image line (R67), and once a cluster has
halted its memory does not change (R277). -/
def finishFill (key core frame image : Nat) (s : State) : State :=
  if (s.cluster (clusterOf core)).dbg.state = 2 then s
  else
    match snoopRange image 4096 false s with
    | (false, s) => s
    | (true, s) =>
      let s := s.modCtx key (fun c => { c with loc := .hbm image })
      match s.imageLost image with
      | some a => wakeTransit key (fatalLost key core a (releaseDeliveries key (setLoc key (.hbm image) s)))
      | none => wakeTransit key (releaseDeliveries key (bringIn key core frame s))

/-- The cores of a context's cluster, where it has not halted, with a free frame. -/
def State.fillCores (s : State) (key : Nat) : List Nat :=
  ((List.range 8).map (fun i => (s.ctx key).cluster * 8 + i)).filter (fun g =>
    !s.halted (clusterOf g) && (s.freeFrame g).isSome)

/-- `FILL` (R252): a fill that was begun ends; one that nothing began takes a core of the team's cluster that has a
free frame, at the device's choice. DESIGN CHOICE: log 9. -/
def execFill (ctx : Nat) (s : State) : Out :=
  match (s.ctx ctx).loc with
  | .filling g f image => ok (finishFill ctx g f image s)
  | .hbm image =>
    if (s.teamOf ctx).members.contains ctx && !(s.ctx ctx).killing then
      match s.fillCores ctx with
      | [] => ok s
      | g :: gs =>
        let pick := s.choose (gs.length + 1)
        let core := (g :: gs).getD pick.1 g
        match pick.2.freeFrame core with
        | some f => ok (finishFill ctx core f image pick.2)
        | none => ok s
    else ok s
  | _ => ok s

/-! ### `swp`, `ctxs`, `ctxl` -/

/-- A live context of the issuing partition by the operand that names it (R386). -/
def State.namedCtx (s : State) (me : Me) (v : Nat) : Option Nat :=
  let key := me.key / 2 ^ 24 * 2 ^ 24 + v
  if 2 ^ 24 ≤ v ∨ v = 0 ∨ !thas s.ctxs key ∨ (s.ctx key).ended ∨ (s.ctx key).killing then none else some key

/-- `swp` (R407). DEDUCED: log 43. -/
def execSwp (a : WReg) (s : State) : Out :=
  let me := s.me
  let v := (s.getW me.base a).toNat
  if v = s.numOf me.base then ok (s.advPc me.base 8)
  else if !s.pl me.base then ok (trapPriv (.swp a) s)
  else
    match s.namedCtx me v with
    | none => ok (trap prot s)
    | some key =>
      match (s.ctx key).loc with
      | .frame g _ =>
        if g = me.core && (s.ctx key).slot.isNone then
          ok (runOn me.core (me.slot % 16) key (park me.key (s.advPc me.base 8)))
        else ok (trap prot s)
      | .spilling .. | .filling .. => ok (waitOn me (.transit key) {} s)
      | .hbm _ =>
        if (s.ctx key).cluster ≠ clusterOf me.core then ok (trap prot s)
        else
          match s.freeFrame me.core with
          | some f => ok (waitOn me (.fillOf key) {} (startFill key me.core f s))
          | none =>
            match s.oldestParked me.core, (s.part (me.key / 2 ^ 24)).pool with
            | some old, image :: _ =>
              if (s.ctx old).deposits = 0 then ok (waitOn me (.spillOf old) {} (startSpill old image s)) else ok s
            | _, _ => ok (trap prot s)
      | .none => ok (trap prot s)

/-- `ctxs` (R408). DEDUCED: log 43. -/
def execCtxs (a b : WReg) (s : State) : Out :=
  let me := s.me
  let v := (s.getW me.base a).toNat
  let image := (s.getW me.base b).toNat
  if !s.pl me.base then ok (trapPriv (.ctxs a b) s)
  else if image % 4096 ≠ 0 then ok (trap (align image 4096 accWrite) s)
  else if !(s.part (me.key / 2 ^ 24)).pool.contains image then ok (trap prot s)
  else
    match s.namedCtx me v with
    | none => ok (trap prot s)
    | some key =>
      match (s.ctx key).loc with
      | .frame g _ =>
        if key = me.key || (s.ctx key).slot.isSome || clusterOf g ≠ clusterOf me.core then ok (trap prot s)
        else if (s.ctx key).deposits ≠ 0 then ok s
        else ok (waitOn me (.spillOf key) { prog := [.adv 8] } (startSpill key image s))
      | _ => ok (trap prot s)

/-- `ctxl` (R409). DEDUCED: log 43. -/
def execCtxl (a b : WReg) (s : State) : Out :=
  let me := s.me
  let v := (s.getW me.base a).toNat
  let f := (s.getW me.base b).toNat
  if !s.pl me.base then ok (trapPriv (.ctxl a b) s)
  else if 2 ^ 8 ≤ f then ok (trap prot s)
  else
    match s.namedCtx me v with
    | none => ok (trap prot s)
    | some key =>
      match (s.ctx key).loc with
      | .hbm _ =>
        if !(s.frameList me.core).contains f || !s.frameFree me.core f || (s.ctx key).cluster ≠ clusterOf me.core then
          ok (trap prot s)
        else ok (waitOn me (.fillOf key) { prog := [.adv 8] } (startFill key me.core f s))
      | _ => ok (trap prot s)

/-- `MIGRATED_RESUME` (R82): the lease time of the resuming die has passed. -/
def execMigratedResume (ctx : Nat) (s : State) : Out :=
  let c := s.ctx ctx
  match c.slot with
  | some k =>
    if c.migrating && decide (s.resumeAt (dieOf (k / 16)) c < s.gtOf (k / 16)) then
      ok (s.modCtx ctx (fun c => { c with migrating := false }))
    else ok s
  | none => ok s

/-! ### Kills (R258) -/

/-- The records that a context left at its network interface stay there without a time limit. DEDUCED: log 43. -/
def orphanRecords (key : Nat) (s : State) : State :=
  { s with held := s.held.map (fun h => if h.ctx = some key then { h with ctx := none } else h) }

/-- The wait of a stopped context is withdrawn (R251, R258). -/
def dropWait (key : Nat) (s : State) : State :=
  orphanRecords key ((withdrawEntries key s).setWait key { block := .ending })

/-- Whether the wait of a context that is to be killed can end now: not while a reply is outstanding (R251). -/
def State.canStop (s : State) (key : Nat) : Bool :=
  match (s.ctx key).wait with
  | none => true
  | some w => w.block.preemptible || w.block = .ending

/-- What a kill lets finish has finished (R258 step 2). DEDUCED: log 43. -/
def State.killReady (s : State) (key : Nat) : Bool :=
  let c := s.ctx key
  s.waitOf key = some .ending && !s.elandBusy key && c.pushes.isEmpty && c.deposits = 0 && s.delivers key

/-- The log's name of a kill's cause. -/
def KillCause.name : KillCause → String
  | .action => "kill: ACTION 1"
  | .fault => "kill: fatal fault"
  | .watchdog => "kill: watchdog"
  | .reset => "kill: reset"
  | .partition => "kill: partition reset"

/-- Steps 3 to 5 of a kill (R258), with its log entry and its cause. -/
def finishKill (key : Nat) (s : State) : State :=
  let why := (s.ctx key).why
  let s := withdrawOf key (returnBorrow key (dropSequence key s))
  freeContext key (s.logEvent why.name key)

/-- `KILL` (R258): the context is stopped, and once its granted work has finished its frame and slot are free. One that
waits for its dump is left to it (R259), and the frames of a halted cluster stay as they are (R277). -/
def execKill (ctx : Nat) (s : State) : Out :=
  if !thas s.ctxs ctx || (s.ctx ctx).ended then ok s
  else if (s.part (ctx / 2 ^ 24)).fatal.any (fun r => r.ctx = ctx) then ok s
  else
    let s := markKill ctx s
    if !s.canStop ctx then ok s
    else
      let s := dropWait ctx s
      if s.killReady ctx && !s.ctxHalted ctx then ok (finishKill ctx s) else ok s

/-- `CONTEXT_NUMBER_FREE` (R258): no delivery to the number is in flight. -/
def execContextNumberFree (ctx : Nat) (s : State) : Out :=
  if (s.ctx ctx).ended && !s.net.any (fun m => m.body.forCtx ctx) then ok { s with ctxs := tdel s.ctxs ctx } else ok s

end Sys2Proof.Machine
end

