-- ==== Sys2Proof/Machine/Coherence.lean ====
section
/-! DEFINITION. The messages of a line (R51 to R68): requests, answers, write-backs, persistent requests, pushed tokens,
leases and remote writes; and the replies of the memory system (R45, R73). -/

namespace Sys2Proof.Machine

open Sys2Proof

/-! ### Tokens on their way (R51, R52, R54) -/

/-- An answer with tokens; a transfer of the owner token between holders sends the home its notice, which takes the place
of every earlier one of the line (R52). -/
def sendTokens (src dst l n : Nat) (owner dirty : Bool) (data : Option Nat) (st : Stamp) (s : State) : State :=
  let s := (markFilter dst l s).send (.tokens dst l n owner dirty data st src)
  if owner then (voidNotices l s).send (.ownerNotice l dst) else s

/-- The source that a message log names for a holder (R280): its core, or the host bridge. -/
def holderSrc (h : Nat) : Nat := if h = bridge then 0x3000 else holderCore h

/-- A holder yields all its tokens of a line to another (R51, R54). -/
def yieldAll (h l dst : Nat) (s : State) : State :=
  let c := s.copy h l
  if c.tokens = 0 then s
  else sendTokens (holderSrc h) dst l c.tokens c.owner c.dirty (c.data.map (·.toNat)) c.stamp (clearCopy h l s)

/-- Tokens that join the home's (R51); with a persistent request active they go on to its holder (R54). With the owner
token the home owns the line, whatever notice is still on its way (R52). -/
def joinHome (l n : Nat) (owner dirty : Bool) (data : Option Nat) (st : Stamp) (s : State) : State :=
  let s := if owner then voidNotices l s else s
  let s := s.modLine l (fun x =>
    { x with tokens := x.tokens + n
             owner := x.owner || owner
             ownerRec := if owner then none else x.ownerRec
             stamp := if owner then st else x.stamp
             dirty := x.dirty || (owner && dirty)
             filter := if x.tokens + n = 512 then [] else x.filter })
  let s := match owner, data with
    | true, some d => s.wr (l * 128) 128 d
    | _, _ => s
  homeYield l s

/-- The home's own tokens that it may give away: not the host token (R66). -/
def Line.spare (x : Line) : Nat := if x.inFilter then x.tokens - 1 else x.tokens

/-- A read request served at the home (R51, R55). -/
def serveRead (h l : Nat) (s : State) : State :=
  let s := touchL2 l (touchFilter l s)
  let x := s.line l
  if !x.owner then
    let s := markFilter h l s
    let s := s.modBank (s.lineBank l) (fun b => if b.fwd.length < 64 then { b with fwd := b.fwd ++ [(l, h)] } else b)
    match x.ownerRec with
    | some o => s.send (.fwdRead o h l)
    | none => s
  else
    let s := readPath l s
    let data := some (s.homeData l)
    if 2 ≤ x.spare then
      (markFilter h l (s.modLine l (fun x => { x with tokens := x.tokens - 1 }))).send (.tokens h l 1 false false data x.stamp
        (s.homeSrc l))
    else
      (markFilter h l (s.modLine l (fun y =>
        { y with tokens := y.tokens - 1, owner := false, ownerRec := some h, dirty := false }))).send
        (.tokens h l 1 true x.dirty data x.stamp (s.homeSrc l))

/-- `HOME_READ_REQUEST` (R51). -/
def execHomeReadRequest (msg : Nat) (s : State) : Out :=
  match s.msg? msg with
  | some (.readReq h l) => ok (serveRead h l (s.drop msg))
  | _ => ok s

/-- `FORWARDED_READ` (R51, R55): a holder that no longer has the owner token drops it; the holder of the active
persistent request keeps its tokens (R54). DEDUCED: log 23. -/
def execForwardedRead (msg : Nat) (s : State) : Out :=
  match s.msg? msg with
  | some (.fwdRead target h l) =>
    let s := s.drop msg
    let c := s.copy target l
    if !c.owner || c.data.isNone || (s.line l).active = some target then ok s
    else if 2 ≤ c.tokens then
      let s := s.setCopy target l { c with tokens := c.tokens - 1 }
      ok (sendTokens (holderSrc target) h l 1 false false (c.data.map (·.toNat)) c.stamp s)
    else ok (yieldAll target l h s)
  | _ => ok s

/-- `HOME_WRITE_REQUEST` (R51): the home's tokens, then the multicast to the holders that the filter marks, or to every
holder of a line that is not in the L2 slice (R52). -/
def execHomeWriteRequest (msg : Nat) (s : State) : Out :=
  match s.msg? msg with
  | some (.writeReq h l) =>
    let targets := s.marked l (s.line l)
    let s := touchL2 l (touchFilter l (s.drop msg))
    let s := if (s.line l).owner then readPath l s else s
    let x := s.line l
    let n := x.spare
    let s := if n = 0 then s
      else
        (s.modLine l (fun y => { y with tokens := y.tokens - n, owner := false, dirty := false
                                        ownerRec := if x.owner then some h else y.ownerRec })).send
          (.tokens h l n x.owner x.dirty (if x.owner then some (s.homeData l) else none) x.stamp (s.homeSrc l))
    ok ((targets.filter (· ≠ h)).foldl (fun s t => s.send (.multi t h l)) (markFilter h l s))
  | _ => ok s

/-- `WRITE_MULTICAST` (R51): all tokens, but for a holder that waits on its own write; under an active persistent
request the tokens are its holder's (R54). -/
def execWriteMulticast (msg : Nat) (s : State) : Out :=
  match s.msg? msg with
  | some (.multi t h l) =>
    let s := s.drop msg
    let waits := match (s.copy t l).miss with
      | some m => m.write
      | none => false
    if waits || (s.line l).active = some t then ok s
    else ok (yieldAll t l ((s.line l).active.getD h) s)
  | _ => ok s

/-- A request that its holder's tokens satisfy (R50). -/
def Copy.satisfied (c : Copy) : Bool :=
  match c.miss with
  | some m => c.data.isSome && (if m.write then decide (c.tokens = 512) else decide (1 ≤ c.tokens))
  | none => false

/-- An access of a holder's core that has still to perform on a line (R54): an element of an instruction that waits. -/
def State.needsLine (s : State) (h l : Nat) : Bool :=
  s.ctxs.any (fun c =>
    match c.2.wait, c.2.slot with
    | some w, some k =>
      k / 16 = holderCore h &&
      (w.cont.elems.drop w.cont.got.length).any (fun e => e.pa / 128 = l || e.tgt.any (fun t => t.pa / 128 = l))
    | _, _ => false)

/-- A registration whose request is satisfied, and which no access waits for any more, ends (R54). -/
def endStale (h l : Nat) (s : State) : State :=
  if (s.copy h l).miss.isSome || s.needsLine h l then s else deactivate h l s

/-- Tokens joined to a holder's copy; when they satisfy its request, the accesses that wait for it go on, and with the
first that performs its persistent request ends (R51, R54). While a write still gathers its tokens, a read of the line
that waits performs as soon as the copy has a token and valid data (R50, R58). -/
def joinCopy (h l n : Nat) (owner dirty : Bool) (data : Option Nat) (st : Stamp) (s : State) : State :=
  let s := makeRoom h l s
  let c := s.copy h l
  let fresh := c.data.isNone
  let c := { c with
    tokens := c.tokens + n
    owner := c.owner || owner
    dirty := c.dirty || dirty
    data := if fresh then data.map (BitVec.ofNat 1024) else c.data
    stamp := if fresh && data.isSome then st else c.stamp
    lease := none }
  let s := s.setCopy h l c
  if c.satisfied then endStale h l (wakeLine h l (s.setCopy h l { c with miss := none }))
  else if c.data.isSome && decide (1 ≤ c.tokens) then wakeLine h l s
  else s

/-- A window line that can still take an answer: its window maps the line and is not being removed (R107, R329). -/
def State.takesAnswer (s : State) (h l : Nat) : Bool :=
  if isWin h then
    let x := s.win (winCore h) (winNo h)
    x.v && !x.unmapping && thas x.lines (winIdx h) && decide ((tget x.lines (winIdx h)).1 = l)
  else true

/-- The core whose network interface logs a reply to a holder (R279), and the reply's source. -/
def logReply (h src n data : Nat) (s : State) : State :=
  if h = bridge then s else logFlits (holderCore h) src 0 1 n data s

/-- `TOKEN_ANSWER` (R51, R54). -/
def execTokenAnswer (msg : Nat) (s : State) : Out :=
  match s.msg? msg with
  | some (.tokens h l n owner dirty data st src) =>
    let s := s.drop msg
    let s := logReply h src (if data.isSome then 4 else 1) (data.getD 0) s
    match (s.line l).active with
    | some r =>
      if r = h then ok (joinCopy h l n owner dirty data st s) else ok (sendTokens (holderSrc h) r l n owner dirty data st s)
    | none =>
      if s.takesAnswer h l then ok (joinCopy h l n owner dirty data st s) else ok (joinHome l n owner dirty data st s)
  | _ => ok s

/-- `OWNER_NOTICE` (R52). -/
def execOwnerNotice (msg : Nat) (s : State) : Out :=
  match s.msg? msg with
  | some (.ownerNotice l h) =>
    let s := s.drop msg
    if (s.line l).owner then ok s else ok (markFilter h l (s.modLine l (fun x => { x with ownerRec := some h })))
  | _ => ok s

/-- `WRITE_BACK` (R55): the tokens join the home's, the recorded forwards of the line are served and cleared, and the
home acknowledges. -/
def execWriteBack (msg : Nat) (s : State) : Out :=
  match s.msg? msg with
  | some (.writeBack h l n owner dirty data st flush) =>
    let s := joinHome l n owner dirty data st (s.drop msg)
    let s := if flush then s.modLine l (fun x => { x with dirty := false }) else s
    let s :=
      if owner then
        let b := s.lineBank l
        let recs := (s.bank b).fwd.filter (fun f => f.1 = l)
        let s := s.modBank b (fun x => { x with fwd := x.fwd.filter (fun f => f.1 ≠ l) })
        recs.foldl (fun s f => serveRead f.2 l s) s
      else s
    ok (s.send (.wbAck h l msg))
  | _ => ok s

/-! ### Timeouts and persistent requests (R53, R54) -/

/-- Registrations in the order of their numbers. -/
def insertReq (r : PersistReq) : List PersistReq → List PersistReq
  | [] => [r]
  | x :: xs => if r.number < x.number then r :: x :: xs else x :: insertReq r xs

/-- A registration offered to a bank: placed while the table of 32 entries has room and no lower number waits (R53). -/
def offerReq (r : PersistReq) (s : State) : State :=
  let b := s.bank (s.lineBank r.line)
  let waiting := b.waiting.filter (fun x => x.number ≠ r.number)
  if b.persist.length < 32 && waiting.all (fun x => r.number < x.number) then
    let s := s.modBank (s.lineBank r.line) (fun x => { x with persist := insertReq r x.persist, waiting := waiting })
    let c := s.copy r.holder r.line
    s.setCopy r.holder r.line { c with miss := c.miss.map (fun m => { m with persist := true, number := r.number }) }
  else
    let s := s.modBank (s.lineBank r.line) (fun x => { x with waiting := insertReq r waiting })
    let c := s.copy r.holder r.line
    s.setCopy r.holder r.line { c with miss := c.miss.map (fun m => { m with sent := s.cycle, number := r.number }) }

/-- A registration that waits for an entry. -/
def State.waitingReq (s : State) (h l : Nat) : Option PersistReq :=
  (s.bank (s.lineBank l)).waiting.find? (fun p => p.line = l && p.holder = h)

/-- `REQUEST_TIMEOUT` (R53): 512 cycles after it was sent a request is sent again, then registered. -/
def execRequestTimeout (h l : Nat) (s : State) : Out :=
  let c := s.copy h l
  match c.miss with
  | none => ok s
  | some m =>
    if s.lineDie l ≠ holderDie h || s.registered h l || decide (s.cycle < m.sent + 512) then ok s
    else if m.tries = 1 then
      ok ((s.setCopy h l { c with miss := some { m with tries := 2, sent := s.cycle } }).send
        (if m.write then .writeReq h l else .readReq h l))
    else
      let n := (s.bank (s.lineBank l)).attempts
      let s := s.modBank (s.lineBank l) (fun b => { b with attempts := n + 1 })
      ok (offerReq { line := l, holder := h, number := n, write := m.write } s)

/-- `PERSISTENT_RETRY` (R53): every 64 cycles, under the original number. -/
def execPersistentRetry (h l : Nat) (s : State) : Out :=
  match s.waitingReq h l, (s.copy h l).miss with
  | some r, some m => if s.cycle < m.sent + 64 then ok s else ok (offerReq r s)
  | _, _ => ok s

/-- `PERSISTENT_ACTIVATE` (R54): the oldest entry of a line; every other holder, the home included, sends it its tokens.
An active entry whose access is gone ends. DEDUCED: log 23. -/
def execPersistentActivate (l : Nat) (s : State) : Out :=
  match (s.bank (s.lineBank l)).persist.find? (fun p => p.line = l), (s.line l).active with
  | some p, none =>
    let s := homeYield l (s.modLine l (fun x => { x with active := some p.holder }))
    ok ((s.holders l).foldl (fun s h => if h = p.holder then s else yieldAll h l p.holder s) s)
  | _, some h => ok (endStale h l s)
  | _, _ => ok s

/-! ### Pushed tokens (R56, R58, R59, R60) -/

/-- A pushed token refused: it goes home, the writer is told, and the target counts it (R56, R58, R59). -/
def refuseToken (target l key push data : Nat) (st : Stamp) (s : State) : State :=
  refusePush target key push (s.send (.refusedTok l data st))

/-- The targets of a push that its writer's tokens do not reach, recorded as refused with cause LOST (R56): where the
writer's workspace takes deliveries now. None while it lies between its places. -/
def pushLost (key push : Nat) (targets : List Nat) (s : State) : Option State :=
  match s.baseOf key, (s.ctx key).pushes.find? (fun p => p.id = push) with
  | some base, some p =>
    if (s.ctx key).ended then some s
    else if !s.delivers key then none
    else
      some (pushAnswered key base targets.length p
        (changePushst base (pushRefusedBy targets.length (targets.getLastD 0)) s))
  | _, _ => some s

/-- A pushed token at its target (R58), by the first row of the table that holds. A target in S without valid data and
without a request, or in O, is in no row: there the token joins as in S with valid data. DESIGN CHOICE: log 26. -/
def pushArrives (t l writer key push data : Nat) (st : Stamp) (s : State) : State :=
  let c := s.copy t l
  let join := fun (s : State) => joinCopy t l 1 false false (some data) st s
  let install := fun (s : State) => s.send (.pushAck key push t false)
  if s.halted (clusterOf t) then refuseToken t l key push data st s
  else
    let s := logFlits t writer 0 3 4 data s
    match (s.line l).active with
    | some r => refusePush t key push (if r = t then join s else sendTokens t r l 1 false false (some data) st s)
    | none =>
      if c.evicting.isSome then refuseToken t l key push data st s
      else if c.miss.isSome || 0 < c.tokens then install (join s)
      else if (s.core t).quota ≤ s.untouched t then refuseToken t l key push data st s
      else if !s.roomFor t l then refuseToken t l key push data st s
      else
        let s := makeRoom t l s
        install (s.setCopy t l { tokens := 1, data := some (BitVec.ofNat 1024 data), stamp := st, untouched := true })

/-- A target's turn in a push's distribution (R56): one token with the line's data, while the writer holds the owner
token and at least two tokens, which reaches its target; else this target and every later one are lost. The next target's
turn follows. DESIGN CHOICE: log 26. -/
def pushTurn (msg l writer key push : Nat) (targets : List Nat) (s : State) : State :=
  match targets with
  | [] => s.drop msg
  | t :: rest =>
    let c := s.copy writer l
    match (if c.owner && decide (2 ≤ c.tokens) then c.data else none) with
    | none => (pushLost key push targets (s.drop msg)).getD s
    | some d =>
      let s := markFilter t l ((s.drop msg).setCopy writer l { c with tokens := c.tokens - 1 })
      let s := pushArrives t l writer key push d.toNat c.stamp s
      if rest.isEmpty then s else s.send (.pushTurn l writer key push rest)

/-- `PUSH_TOKEN_ARRIVAL` (R56, R58): a target's turn, at which its token arrives. -/
def execPushTokenArrival (msg : Nat) (s : State) : Out :=
  match s.msg? msg with
  | some (.pushTurn l writer key push targets) => ok (pushTurn msg l writer key push targets s)
  | _ => ok s

/-- `REFUSED_TOKEN_RETURN` (R56). -/
def execRefusedTokenReturn (msg : Nat) (s : State) : Out :=
  match s.msg? msg with
  | some (.refusedTok l data st) => ok (joinHome l 1 false false (some data) st (s.drop msg))
  | _ => ok s

/-- `PUSH_ACK_ARRIVAL` (R56, R60), by ST at its arrival (R253, R277). -/
def execPushAckArrival (msg : Nat) (s : State) : Out :=
  match s.msg? msg with
  | some (.pushAck key push t refused) =>
    ok (delivery msg key (fun b s => deliverAck key b push t refused s) s)
  | _ => ok s

/-! ### Leases (R61 to R64) -/

/-- A lease granted at the home: the line's value, its stamp and its end, entered in the lease table, and remembered for
R82 on the die of the home and on that of the copy. DEDUCED: log 25. -/
def grantLease (h l len : Nat) (s : State) : State :=
  match homeRead (l * 128) 128 s with
  | (data, st, s) =>
    let now := s.gt (s.lineDie l)
    let s := enterLease l (now + len) s
    let s := note (holderDie h) len (note (s.lineDie l) len s)
    s.send (.leaseReply h l data st (some (now + len)))
where
  note (die len : Nat) (s : State) : State :=
    let now := s.gt die
    s.modDie die (fun d => { d with grants := (d.grants.filter (fun g => now < g.1 + 65536)) ++ [(now, len)] })

/-- `REMOTE_LEASE_READ` (R61, R64): a read of a held line waits at the home. -/
def execRemoteLeaseRead (msg : Nat) (s : State) : Out :=
  match s.msg? msg with
  | some (.leaseReq h l len) =>
    let s := s.drop msg
    if s.isHeld l then
      ok (s.modBank (s.lineBank l) (fun b => { b with heldReads := b.heldReads ++ [(l, h, len)] }))
    else ok (grantLease h l len s)
  | _ => ok s

/-- `HOLD_END` (R64): every held read is answered with the value current at that moment. -/
def execHoldEnd (l : Nat) (s : State) : Out :=
  if s.isHeld l then ok s
  else
    let b := s.lineBank l
    let reads := (s.bank b).heldReads.filter (fun r => r.1 = l)
    let s := s.modBank b (fun x => { x with heldReads := x.heldReads.filter (fun r => r.1 ≠ l) })
    ok (reads.foldl (fun s r => grantLease r.2.1 l r.2.2 s) s)

/-- A leased copy that ends: its bytes leave a window line for the local range beneath (R108). -/
def dropLease (h l : Nat) (s : State) : State :=
  let c := s.copy h l
  let s := windowSpill h c s
  if c.miss.isSome || c.evicting.isSome then s.setCopy h l { miss := c.miss, evicting := c.evicting } else s.delCopy h l

/-- `LEASE_EXPIRY` (R61). -/
def execLeaseExpiry (h l : Nat) (s : State) : Out :=
  match (s.copy h l).lease with
  | some le => if le ≤ s.gt (holderDie h) then ok (dropLease h l s) else ok s
  | none => ok s

/-! ### Replies (R45, R63, R73) -/

/-- The element whose access waits for a message, with what the access does and its target. -/
def State.pendingElem (s : State) (key : Nat) : Option (Me × AccOp × Elem × Target) :=
  match s.meOf key, (s.ctx key).wait with
  | some me, some w =>
    match w.cont.prog with
    | .perform i :: _ =>
      let e := w.cont.elems.getD i {}
      match (w.cont.place me e s).1 with
      | .ok t => some (me, w.cont.op, e, t)
      | _ => none
    | _ => none
  | _, _ => none

/-- A read by an agent of the other die of a line that is held, be it the read of an atomic: it waits at the home (R64,
R75). -/
def State.heldAtHome (s : State) (key : Nat) : Bool :=
  match s.pendingElem key with
  | some (me, op, _, t) =>
    (t.kind = .home || (t.kind = .remote && op.need.rd)) && s.lineDie (t.pa / 128) ≠ dieOf me.core && s.isHeld (t.pa / 128)
  | none => false

/-- The source that a log names for a reply (R280). -/
def State.replySrc (s : State) (pa : Nat) : Nat :=
  match regionOf pa with
  | .local g => g
  | .hbm _ => 0x1000 + s.bankOf pa
  | _ => 0x3000

/-- A waiting element's access performed where its message has arrived, and the reply logged (R73, R279). -/
def performArrived (key : Nat) (s : State) : State :=
  match s.pendingElem key with
  | some (me, _, e, t) =>
    let n := (e.size + 31) / 32
    resume true key (logFlits me.core (s.replySrc t.pa) (key % 2 ^ 24) 1 n (s.curRead t.pa e.size) s)
  | none => resume true key s

/-- `REMOTE_WRITE` (R63): performed at the home, which replies with its visibility time. DEDUCED: log 25. -/
def execRemoteWrite (msg : Nat) (s : State) : Out :=
  match s.msg? msg with
  | some (.remoteWrite key) =>
    if s.waitOf key ≠ some (.reply msg) then ok (s.drop msg)
    else if s.heldAtHome key then ok s
    else ok (resume true key (s.drop msg))
  | _ => ok s

/-- A leased copy installed, and the accesses that wait for it (R61). On a die whose drift detector has tripped nothing is
installed, and they perform uncached at the home (R65). -/
def installLease (h l data : Nat) (st : Stamp) (le : Option Nat) (s : State) : State :=
  let s := logReply h (s.homeSrc l) 4 data s
  if !s.takesAnswer h l || (s.copy h l).miss.isNone then s
  else
    let c := { s.copy h l with miss := none }
    if (s.die (holderDie h)).tripped.isSome then wakeLine h l (s.setCopy h l c)
    else wakeLine h l (s.setCopy h l { c with data := some (BitVec.ofNat 1024 data), stamp := st, lease := le })

/-- The contexts that wait for a write-back wait for it no more. -/
def strikeAck (wb : Nat) (s : State) : State :=
  let strike := fun (w : Wait) =>
    match w.block with
    | .acks wbs => { w with block := .acks (wbs.filter (· ≠ wb)) }
    | _ => w
  { s with ctxs := s.ctxs.map (fun (c : Nat × Ctx) => (c.1, { c.2 with wait := c.2.wait.map strike })) }

/-- A write-back acknowledged: what waits for it goes on, and a line that it emptied is evicting no more (R55, R108, R322,
R329). The acknowledgement is logged as a reply of the home (R279). -/
def acknowledge (h l wb : Nat) (s : State) : State :=
  let s := logReply h (s.homeSrc l) 1 0 s
  let c := s.copy h l
  let s :=
    if c.evicting ≠ some wb then s
    else if c.tokens = 0 ∧ c.miss.isNone ∧ c.lease.isNone then s.delCopy h l
    else s.setCopy h l { c with evicting := none }
  let s := wake (fun _ w => w.block = .acks []) (strikeAck wb s)
  wake (fun _ w => match w.block with | .unmap g n => !(s.win g n).unmapping | _ => false) s

/-- `MEMORY_REPLY` (R73). DEDUCED: log 27. -/
def execMemoryReply (msg : Nat) (s : State) : Out :=
  match s.msg? msg with
  | some (.access key) =>
    if s.waitOf key ≠ some (.reply msg) then ok (s.drop msg)
    else if s.heldAtHome key then ok s
    else ok (performArrived key (s.drop msg))
  | some (.vtReply key vt bank) =>
    let s := s.drop msg
    if s.waitOf key ≠ some (.reply msg) then ok s
    else
      match s.meOf key with
      | some me => ok (resume false key (logFlits me.core (0x1000 + bank) (key % 2 ^ 24) 1 1 vt s))
      | none => ok s
  | some (.leaseReply h l data st le) => ok (installLease h l data st le (s.drop msg))
  | some (.wbAck h l wb) => ok (acknowledge h l wb (s.drop msg))
  | _ => ok s

/-! ### Walks (R45) -/

/-- What a context waits a walk for: the core, the `PTROOT`, the address, and the kind of access. -/
structure WalkFor where
  core : Nat
  pt : Word
  va : Nat
  acc : Nat
  deriving DecidableEq, Repr

/-- The walk that a context waits for. -/
def State.walkFor (s : State) (key : Nat) : Option WalkFor :=
  match s.waitOf key with
  | some (.walk core pt va acc) => some { core := core, pt := pt, va := va, acc := acc }
  | _ => none

/-- A miss that a walk for another answers: of one partition, ASID and die, in the page of the leaf, or, where the walk
ends in a fault, in the 4 KiB page that it was for (R45). -/
def WalkFor.shares (s : State) (f : WalkFor) (fin : XlateEnd) (x : WalkFor) : Bool :=
  let page := match fin with
    | .ok l => l.logSize
    | _ => 12
  dieOf f.core = dieOf x.core && s.partOf f.core = s.partOf x.core && ptAsid f.pt = ptAsid x.pt &&
    f.va % 2 ^ 57 / 2 ^ page = x.va % 2 ^ 57 / 2 ^ page

/-- The contexts whose misses a walk answers (R45). -/
def State.walkSharers (s : State) (f : WalkFor) (fin : XlateEnd) : List Nat :=
  (s.ctxs.filter (fun c => (s.walkFor c.1).any (f.shares s fin))).map Prod.fst

/-- A leaf entered in the TLBs of a core and of its cluster (R44, R45). -/
def tlbFill (f : WalkFor) (l : Leaf) (s : State) : State :=
  let s :=
    if (s.clusterTlb f.core f.pt f.va).isSome then s
    else s.modCluster (clusterOf f.core) (fun c => { c with tlb := tlbAdd 256 16 c.tlb (tlbEntry f.pt f.va l) })
  tlbInstall f.core f.pt f.va l s

/-- What a context does with the end of a walk that it waited for. A fetch that faults traps at its PC; the cause that an
element's walk ends in is raised, or kept with the element where later checks precede it (R314, R333); any other end stays
with the instruction, whose slot goes on. DEDUCED: log 22. -/
def walkEnded (me : Me) (f : WalkFor) (found : Found) (w : Wait) (s : State) : State :=
  let kind := fun (acc : Nat) (t : TrapInfo) => if t.acc = accWalk then accWalk else acc
  let page := f.va % 2 ^ 57 / 4096
  let note := fun (c : Cont) => { c with walked := c.walked ++ [{ core := f.core, pt := f.pt, page := page, fin := found }] }
  match found, w.cont.prog with
  | .trap t, [] => trapEntry me { t with addr := (s.pc me.base).toNat, acc := kind accFetch t } (s.clearWait me.key)
  | .trap t, .xlate i :: rest =>
    let t := { t with addr := f.va, acc := kind f.acc t }
    if t.isLate then
      let c := w.cont
      runProg me false rest { c with elems := c.elems.set i { c.elems.getD i {} with late := some t } } (s.clearWait me.key)
    else trapEntry me t (s.clearWait me.key)
  | .leaf _, [] => s.clearWait me.key
  | .leaf _, .xlate _ :: _ => resume false me.key s
  | _, _ => resume false me.key (s.setWait me.key { w with cont := note w.cont })

/-- A walk's end for one context that waits for it (R45): its reads of table entries raise `LRS` (R81), the reply, from the
home of the root table, is
logged (R279), and a leaf enters its TLBs. DESIGN CHOICE: log 15. -/
def walkReply (fin : XlateEnd) (vt src key : Nat) (s : State) : State :=
  match s.meOf key, s.walkFor key, (s.ctx key).wait with
  | some me, some f, some w =>
    if (s.ctx key).migrating then s
    else
      let reply := fun (data : Nat) => logFlits me.core src (key % 2 ^ 24) 1 1 data (noteRead me.base vt s)
      match fin with
      | .ok l => walkEnded me f (.leaf l) w (tlbFill f l (reply l.pa))
      | .trap t => walkEnded me f (.trap t) w (reply t.info0)
      | _ => s
  | _, _, _ => s

/-- A walk that has waited 1 ms for a snoop ends in `#TIMEOUT` for a context that waits for it (R68). DEDUCED: log 28. -/
def walkSnoop (key l k : Nat) (s : State) : State :=
  match s.meOf key, s.walkFor key, (s.ctx key).wait with
  | some me, some f, some w =>
    let x := s.line l
    let sent := (if k = 0 then x.snoop0 else x.snoop1).map Prod.fst
    if w.cont.committed || (s.ctx key).migrating || decide (s.gtOf me.core < max w.since (sent.getD 0) + 1000000) then s
    else
      walkEnded me f (.trap { cause := .timeout, addr := f.va, acc := f.acc, info0 := l * 128 + 64 * k }) w
        (s.logEvent "snoop timeout" l)
  | _, _, _ => s

/-- `WALK_COMPLETE` (R44, R45): what the TLB of the cluster holds enters the core's; otherwise a walker that works for the
context ends its walk, whose result goes to every miss that shares it; a walk that needs an entry of a held line, or of a
half under a snoop, goes on waiting. -/
def execWalkComplete (key : Nat) (s : State) : Out :=
  match s.meOf key, s.walkFor key, (s.ctx key).wait with
  | some me, some f, some w =>
    match (if canonicalVa f.va && !(s.ctx key).migrating then s.clusterTlb f.core f.pt f.va else none) with
    | some l => ok (pumpWalks (dieOf f.core) (walkEnded me f (.leaf l) w (tlbFill f l s)))
    | none =>
      if !s.walking key then ok (askWalk key s)
      else
        let vt := s.walkVt f.core f.pt f.va
        let src := 0x1000 + s.bankOf (ptBase f.pt)
        match walkNow f.core f.pt f.va f.acc s with
        | (.held, s) => ok s
        | (.snoop l k, s) => ok (walkSnoop key l k s)
        | (fin, s) =>
          ok (pumpWalks (dieOf f.core) ((s.walkSharers f fin).foldl (fun s k => walkReply fin vt src k s) s))
  | _, _, _ => if s.waitOf key = some .recheck then ok (resume false key s) else ok s

end Sys2Proof.Machine
end

