-- ==== Sys2Proof/Machine/Queues.lean ====
section
/-! DEFINITION. The command queues of a partition (R265, R266): their blocks, the entry at the head, and the completion
of a command. -/

namespace Sys2Proof.Machine

open Sys2Proof

/-- A queue as the firmware keeps it. -/
def State.queue (s : State) (p q : Nat) : Queue := tget (s.part p).queues q
def State.setQueue (s : State) (p q : Nat) (x : Queue) : State :=
  s.modPart p (fun c => { c with queues := tset c.queues q x })

/-- The 64-byte block of a queue, and its fields. DESIGN CHOICE: log 4. -/
def State.qblock (s : State) (p q : Nat) : Nat := s.curRead ((s.part p).qbase + 64 * q) 64
def qbField (b off n : Nat) : Nat := b / 2 ^ (8 * off) % 2 ^ (8 * n)
def qbBase (b : Nat) : Nat := qbField b 0 8
def qbSize (b : Nat) : Nat := qbField b 8 1
def qbHead (b : Nat) : Nat := qbField b 12 4
def qbTail (b : Nat) : Nat := qbField b 16 4
def qbMsix (b : Nat) : Nat := qbField b 20 4
def qbPtroot (b : Nat) : Word := BitVec.ofNat 64 (qbField b 24 8)

/-- A block whose commands are valid (R265). -/
def qbOk (b : Nat) : Bool :=
  decide (qbField b 9 3 = 0) && decide (qbField b 32 32 = 0) && decide (6 ≤ qbSize b) && decide (qbSize b ≤ 16) &&
  decide (qbMsix b ≤ 63)

/-- The address of the entry at the head of a queue. -/
def qbEntry (b : Nat) : Nat := qbBase b + 64 * (qbHead b % 2 ^ qbSize b)

/-- The clock of a partition's command processors: the die of its lowest quarter. -/
def partDie (p : Nat) : Nat := p / 2

/-- The completion record of a command and its vector (R265, R266), by the entry and the block that it had. -/
def cmdRecord (p status b e : Nat) (s : State) : State :=
  let s := hwWrite (qbField e 8 8) 16 (qbField e 4 4 + status * 2 ^ 32 + s.gt (partDie p) * 2 ^ 64) s
  { s with dev := { s.dev with msix := qbMsix b :: s.dev.msix } }

/-- A read by the firmware, at the home of each line (R50, R61): its corrected errors are counted (R31). -/
def fwRead (pa n : Nat) (s : State) : State :=
  match regionOf pa with
  | .hbm _ => ((halvesOf pa n).map Prod.fst).eraseDups.foldl (fun s l => (homeRead (l * 128) 128 s).2.2) s
  | _ => s

/-- A command completes (R265, R266): its record, its vector, and the queue's head past it. DESIGN CHOICE: log 50. -/
def cmdDone (p q status : Nat) (s : State) : State :=
  match (s.queue p q).busy with
  | none => s
  | some a =>
    let s := readLines a 64 (readLines ((s.part p).qbase + 64 * q) 64 s)
    let b := s.qblock p q
    let s := cmdRecord p status b (s.curRead a 64) s
    let s := hwWrite ((s.part p).qbase + 64 * q + 12) 4 ((qbHead b + 1) % 2 ^ 32) s
    s.setQueue p q { s.queue p q with busy := none, fenceFor := [], tinvs := [], started := false, ended := false
                                      status := 0, vt := 0, peers := [] }

end Sys2Proof.Machine
end

