-- ==== Sys2Proof/Machine/Copy.lean ====
section
/-! DEFINITION. The cluster copy engine and the streamers (R115 to R131, R361 to R365): descriptors and their checks,
the delivery of elements, completion, faults, cancellation, bins, and the timeline counters. -/

namespace Sys2Proof.Machine

open Sys2Proof

/-! ### Accesses by an engine (R83, R121) -/

/-- The source that a message log names for a write of the cluster copy engine, and of a bank's streamer (R280). -/
def copySrc : Nat := 0x2000
def bankSrc (bank : Nat) : Nat := 0x1000 + bank

/-- What an engine moves for: its cluster, the operation's address space, the die of the engine that does the work, and
the source that a message log names for it (R280). -/
structure Mover where
  cl : Nat
  pt : Word
  priv : Bool
  die : Nat
  src : Nat := copySrc
  deriving Repr

/-- The physical place of a byte range inside one line as an engine reaches it: host memory is refused, local memory of
another cluster does not answer (R95, R119), a stash window is its HBM line (R107). -/
def movePlace (m : Mover) (va n acc : Nat) (w : Bool) (s : State) : Local Target × State :=
  match engineXlate m.cl m.pt m.priv va acc (if w then { w := true } else { rd := true }) s with
  | (.trap t, s) => (.trap t, s)
  | (.held, s) | (.snoop .., s) => (.later .recheck, s)
  | (.ok l, s) =>
    let pa := l.phys (va % 2 ^ 57)
    let deny : TrapInfo := { cause := .prot, addr := va, acc := acc }
    match regionOf pa with
    | .hbm _ => (.got { kind := .home, pa := pa, leaf := l }, s)
    | .local g =>
      if clusterOf g ≠ m.cl then (.trap deny, s)
      else
        match aliasOf (unitOf g) g (pa % 0x100000) n (if w then .write else .read) s with
        | (.trap t, s) => (.trap { t with addr := va, acc := if t.acc = accWalk then accWalk else acc }, s)
        | r => r
    | .peer k =>
      let p := s.partOf (m.cl * 8)
      if s.peerOk p k then (.got { kind := .outside, pa := pa, leaf := l, link := s.leavingLink p k pa }, s)
      else (.trap deny, s)
    | _ => (.trap deny, s)

/-- A virtual range cut at line boundaries. -/
def vaPieces : Nat → Nat → Nat → List (Nat × Nat)
  | 0, _, _ => []
  | fuel + 1, va, n =>
    if n = 0 then [] else let k := min n (128 - va % 128); (va, k) :: vaPieces fuel ((va + k) % 2 ^ 64) (n - k)

/-- Whether an HBM line may be reached at its home now: no snoop outstanding, and for a read no held line of the other
die (R64, R67). -/
def moveReady (m : Mover) (t : Target) (n : Nat) (w : Bool) (s : State) : Bool × State :=
  match t.kind, regionOf t.pa with
  | .home, .hbm _ =>
    match s.snoopHalf t.pa n w with
    | some k => (false, sendSnoop (t.pa / 128) k w s)
    | none => (w || s.homeDie t.pa = m.die || !s.isHeld (t.pa / 128), s)
  | _, _ => (true, s)

/-- Bytes read by an engine (R83, R120). -/
def moveRead (m : Mover) : List (Nat × Nat) → State → Local Nat × State
  | [], s => (.got 0, s)
  | (va, n) :: r, s =>
    match movePlace m va n accEngineRead false s with
    | (.trap t, s) => (.trap t, s)
    | (.later b, s) => (.later b, s)
    | (.got t, s) =>
      match s.lostAt t.pa n accEngineRead with
      | some t => (.trap { t with addr := va }, s)
      | none =>
        match moveReady m t n false s with
        | (false, s) => (.later .recheck, s)
        | (true, s) =>
          match readSpot t n s with
          | (x, s) =>
            match moveRead m r s with
            | (.got v, s) => (.got (x + 2 ^ (8 * n) * v), s)
            | x => x

/-- The places of a write, all of them before anything is written. A write of part of a lost line would read it, and
takes the fault (R125, R256). -/
def movePlaces (m : Mover) : List (Nat × Nat) → State → Local (List (Target × Nat)) × State
  | [], s => (.got [], s)
  | (va, n) :: r, s =>
    match movePlace m va n accEngineWrite true s with
    | (.trap t, s) => (.trap t, s)
    | (.later b, s) => (.later b, s)
    | (.got t, s) =>
      match s.lostPart accEngineWrite [(t, n)] with
      | some x => (.trap { x with addr := va }, s)
      | none =>
        match moveReady m t n true s with
        | (false, s) => (.later .recheck, s)
        | (true, s) =>
          match movePlaces m r s with
          | (.got l, s) => (.got ((t, n) :: l), s)
          | x => x

/-- A write of an engine: the latest visibility time, and the peer-window writes to be acknowledged (R76). -/
structure Moved where
  vt : Nat := 0
  peers : List Nat := []
  deriving DecidableEq, Repr, Inhabited

/-- An engine's writes into a peer window are owed their acknowledgements (R76); they are those of no context. -/
def oweEngine : List (Target × Nat) → State → List Nat × State
  | [], s => ([], s)
  | (t, _) :: r, s =>
    match regionOf t.pa with
    | .peer _ =>
      match oweEngine r (s.send (.peerAck 0)) with
      | (ids, s') => (s.nextId :: ids, s')
    | _ => oweEngine r s

/-- Bytes written by an engine, stamped with context 0 (R83). The leased copies that the requesting cluster's die holds of
a line of the other die serve it no longer (R85). -/
def moveWrite (m : Mover) (va n v : Nat) (s : State) : Local Moved × State :=
  match movePlaces m (vaPieces (n / 128 + 2) va n) s with
  | (.got l, s) =>
    match writeAll (dieOf (m.cl * 8)) 0 0 l v s with
    | (vts, s) =>
      match oweEngine l (logEngine l v s) with
      | (ids, s) => (.got { vt := vts.last, peers := ids }, s)
  | (.trap t, s) => (.trap t, s)
  | (.later b, s) => (.later b, s)
where
  /-- An engine's write into a core's local memory, as its network interface logs it (R280). -/
  logEngine : List (Target × Nat) → Nat → State → State
    | [], _, s => s
    | (t, n) :: r, v, s =>
      match regionOf t.pa with
      | .local g => logEngine r (v / 2 ^ (8 * n)) (logFlits g m.src 0 6 ((n + 31) / 32) (v % 2 ^ (8 * n)) s)
      | _ => logEngine r (v / 2 ^ (8 * n)) s

def moveReadVa (m : Mover) (va n : Nat) (s : State) : Local Nat × State := moveRead m (vaPieces (n / 128 + 2) va n) s

/-! ### Timelines (R84, R123, R364, R365) -/

/-- DONE advanced over the finished operations above it. -/
def advanceDone (now : Nat) : Nat → Timeline → Timeline
  | 0, t => t
  | n + 1, t =>
    if t.finished.contains (t.done + 1) then
      advanceDone now n { t with done := t.done + 1, doneGt := now, finished := t.finished.filter (· ≠ t.done + 1) }
    else t

/-- Operation `n` done, with its fault: FAULTOP and DONE in one action (R365); the waits on the timeline end. -/
def finishNumber (cl tl n : Nat) (fault : Option TrapInfo) (s : State) : State :=
  let t := s.tl cl tl
  let t := match fault with
    | some f => if t.faultop = 0 ∨ n < t.faultop then { t with faultop := n, latch := f } else t
    | none => t
  let t := { t with finished := t.finished ++ [n] }
  let s := s.setTl cl tl (advanceDone (s.gtOf (cl * 8)) t.finished.length t)
  (s.waiters (fun _ w => w.block = .timeline cl tl)).foldl (fun s k => s.clearWait k) s

/-! ### Completion (R123) -/

/-- A thread, an engine or a cancelled channel waits no longer for a channel. -/
def channelSettled (cl ch : Nat) (s : State) : State :=
  let c := s.chan cl ch
  if c.ops.isEmpty && c.cancelling then
    let s := s.setChan cl ch { c with cancelling := false, fault := none }
    wake (fun _ w => w.block = .cancel cl ch) s
  else s

/-- The cause of an engine's fault in the status word (R123). -/
def engineCause : Cause → Nat
  | .page => 1
  | .mchk => 3
  | _ => 2

/-- The head operation completes with its cause: channel status, timeline, fill, decrement, in that order. -/
def completeOp (cl ch : Nat) (o : ChanOp) (s : State) : State :=
  let now := s.gtOf (cl * 8)
  let c := s.chan cl ch
  let isCopy := match o.kind with | .copy .. => true | _ => false
  let c := { c with ops := c.ops.tail, cause := o.cause, bytes := o.bytes % 2 ^ 48 }
  let c := if isCopy && (o.cause = 0 || o.cause = 4) then
      { c with ptr := (o.start + opRange o.kind) % 2 ^ 64, ptrGt := now } else c
  let s := s.setChan cl ch c
  let s := match o.tl with
    | some (tl, n) => finishNumber cl tl n (if 1 ≤ o.cause ∧ o.cause ≤ 3 then o.faulted else none) s
    | none => s
  let s := if bit o.flags 1 then
      fillAndWake (localPa (dectCore o.fet.toNat) (dectOff o.fet.toNat)) (o.cause * 2 ^ 56 + o.bytes % 2 ^ 48) copySrc s
    else s
  let s := if bit o.flags 0 && (o.cause = 0 || o.cause = 5) then
      (decrement o.dect.toNat now none (engineSender cl) false s).2 else s
  let s := match o.command with
    | some (q, _) => endCommand (s.partOf (cl * 8)) q s
    | none => s
  channelSettled cl ch s
where
  /-- The `COPY` that waits for it has made its effects, which its release covers (R266). -/
  endCommand (p q : Nat) (s : State) : State :=
    s.setQueue p q { s.queue p q with ended := true, status := if o.cause = 0 then 0 else 4
                                      vt := max (s.queue p q).vt o.vt, peers := o.peers }

/-- The head operation, when it is decided and GT has reached the `vt` of its writes (R84). -/
def State.readyOp (s : State) (cl ch : Nat) : Option ChanOp :=
  match (s.chan cl ch).ops with
  | o :: _ => if o.delivered && decide (o.vt ≤ s.gtOf (cl * 8)) then some o else none
  | [] => none

/-- Operations that can complete now, in order. -/
def completeReady (cl ch : Nat) : Nat → State → State
  | 0, s => s
  | n + 1, s =>
    match s.readyOp cl ch with
    | some o => completeReady cl ch n (completeOp cl ch o s)
    | none => s

/-- An operation cancelled (R126): one that has not started, or a copy that has not completed, is decided with cause 4; a
copy that has an element half written goes on to that element's end. DEDUCED: log 33. -/
def cancelOp (o : ChanOp) : ChanOp :=
  match o.kind with
  | .copy .. => { o with cause := 4, delivered := o.kept.isNone }
  | _ => if o.started || o.delivered then o else { o with cause := 4, delivered := true }

/-- The engine takes up a `cpycan` (R126): the operations that it named are cancelled, and a copy that faulted before it
counts as cancelled. -/
def takeCancel (cl ch : Nat) (s : State) : State :=
  let c := s.chan cl ch
  let past := c.fault.isSome && !c.cancelling
  s.setChan cl ch { c with ops := c.ops.map (fun o => if o.cancel then cancelOp o else o), asked := false, cancelling := true
                           ptr := if past then c.faultEnd else c.ptr
                           ptrGt := if past then s.gtOf (cl * 8) else c.ptrGt }

/-- `COPY_COMPLETE` (R123): in the copy engine's place of the cycle (R99), as are the cancellation that a `cpycan` of the
cycle asked for and all that it completes (R126, R127). -/
def execCopyComplete (cluster ch : Nat) (s : State) : Out :=
  if (s.chan cluster ch).asked then
    ok (channelSettled cluster ch (completeReady cluster ch 17 (takeCancel cluster ch s)))
  else
    match s.readyOp cluster ch with
    | some o => ok (completeOp cluster ch o s)
    | none => ok s

/-! ### Delivery (R120 to R122, R125) -/

/-- The streamer that serves an Antler link, by the link's place on its die (R121). DESIGN CHOICE: log 32. -/
def linkBank (die k : Nat) : Nat := 48 * die + k % 9

/-- The engine that leads an operation, by an address that it reads (R121, R130): for HBM the streamer of its bank, for a
peer window a streamer of the issuing die, that of the link routed there; none while the translation waits.
DESIGN CHOICE: log 32. -/
def leadOf (cl : Nat) (o : ChanOp) (va : Option Nat) (s : State) : Option (Nat × Nat) × State :=
  let die := dieOf (cl * 8)
  match va with
  | none => (some (die, copySrc), s)
  | some va =>
    match engineXlate cl o.ptroot o.priv va accEngineRead { rd := true } s with
    | (.ok l, s) =>
      let pa := l.phys (va % 2 ^ 57)
      (some (match regionOf pa with
        | .hbm _ => (s.homeDie pa, bankSrc (s.bankOf pa))
        | .peer k => (die, bankSrc (linkBank die ((s.leavingLink (s.partOf (cl * 8)) k pa).getD 0)))
        | _ => (die, copySrc)), s)
    | (.trap _, s) => (some (die, copySrc), s)
    | (_, s) => (none, s)

/-- The address by which an operation's lead engine is chosen: its first in-bounds source element, or its table. -/
def OpKind.leadVa : OpKind → Option Nat
  | .copy src dst _ _ ds => (firstIn ds).map (fun f => (elemAddr src dst ds f).1)
  | .gbin _ _ _ _ _ _ _ table => some table
  | .binr table => some table

/-- An operation's lead engine at work. -/
def ChanOp.mover (o : ChanOp) (cl : Nat) : Mover :=
  let e := o.lead.getD (dieOf (cl * 8), copySrc)
  { cl := cl, pt := o.ptroot, priv := o.priv, die := e.1, src := e.2 }

/-- The head operation changed. -/
def setHeadOp (cl ch : Nat) (o : ChanOp) (s : State) : State :=
  let c := s.chan cl ch
  s.setChan cl ch { c with ops := o :: c.ops.tail }

/-- The head operation's lead engine is chosen before its first element (R121). -/
def chooseLead (cl ch : Nat) (o : ChanOp) (s : State) : State :=
  match leadOf cl o o.kind.leadVa s with
  | (some e, s) => setHeadOp cl ch { o with lead := some e } s
  | (none, s) => s

/-- An aligned 32-byte element that lies in a peer window, which travels as two 16-byte halves (R28, R87). -/
def peerHalves (m : Mover) (va es acc : Nat) (w : Bool) (s : State) : Bool :=
  es = 32 && va % 32 = 0 && (match (movePlace m va es acc w s).1 with | .got t => isPeerPa t.pa | _ => false)

/-- The read of an element: at once, or the low half of one in a peer window and then, in an action of its own, the high
half (R28, R87). The operation is answered as it stands where more is to be read. DESIGN CHOICE: log 59. -/
def elemRead (m : Mover) (o : ChanOp) (va es : Nat) (s : State) : Local (Nat ⊕ ChanOp) × State :=
  let wrap := fun (f : Nat → Nat ⊕ ChanOp) (r : Local Nat × State) => match r with
    | (.got v, s) => (Local.got (f v), s)
    | (.trap t, s) => (.trap t, s)
    | (.later b, s) => (.later b, s)
  match o.kept with
  | some v => (.got (.inl v), s)
  | none =>
    if !peerHalves m va es accEngineRead false s then wrap .inl (moveReadVa m va es s)
    else
      match o.half with
      | none => wrap (fun v => .inr { o with half := some v }) (moveReadVa m va 16 s)
      | some lo => wrap (fun v => .inl (lo + 2 ^ 128 * v)) (moveReadVa m ((va + 16) % 2 ^ 64) 16 s)

/-- The write of an element: whole, or the low half of one in a peer window and then, in an action of its own, the high
half (R28, R87). It answers the operation with what it has written, and whether the element is. DESIGN CHOICE: log 59. -/
def elemWrite (m : Mover) (o : ChanOp) (va es v : Nat) (s : State) : Local (Bool × ChanOp) × State :=
  let wrote := fun (x : Moved) => { o with vt := max o.vt x.vt, peers := o.peers ++ x.peers }
  let put := fun (r : Local Moved × State) (f : Moved → Bool × ChanOp) => match r with
    | (.got x, s) => (Local.got (f x), s)
    | (.trap t, s) => (.trap t, s)
    | (.later b, s) => (.later b, s)
  if !peerHalves m va es accEngineWrite true s then put (moveWrite m va es v s) (fun x => (true, wrote x))
  else
    match o.kept with
    | none => put (moveWrite m va 16 (v % 2 ^ 128) s) (fun x => (false, { wrote x with kept := some v }))
    | some _ => put (moveWrite m ((va + 16) % 2 ^ 64) 16 (v / 2 ^ 128) s) (fun x => (true, wrote x))

/-- One element of a copy moved, or a part of it: the operation as it stands, and whether the element is delivered. The
read, with its translation, comes before the write's, and an element whose write faults counts in no BYTES.
DESIGN CHOICE: log 32. -/
def moveElem (cl : Nat) (o : ChanOp) (src dst es fill : Nat) (ds : List Dim) (s : State) : Local (Bool × ChanOp) × State :=
  let m := o.mover cl
  match elemAddr src dst ds o.next with
  | (sa, da, true) =>
    match elemRead m o sa es s with
    | (.got (.inl v), s) =>
      match elemWrite m o da es v s with
      | (.got (true, o), s) => (.got (true, { o with bytes := o.bytes + es }), s)
      | r => r
    | (.got (.inr o), s) => (.got (false, o), s)
    | (.trap t, s) => (.trap t, s)
    | (.later b, s) => (.later b, s)
  | (_, da, false) => if fill = 6 then (.got (true, o), s) else elemWrite m o da es (fillValue fill es) s

/-- The head operation of a channel that may run: none in FAULT, decided or cancelled (R125). -/
def State.runningOp (s : State) (cl ch : Nat) : Option ChanOp :=
  let c := s.chan cl ch
  match c.ops with
  | o :: _ => if c.fault.isSome || o.delivered || (s.cluster cl).dbg.state = 1 || (s.cluster cl).dbg.state = 2 then none else some o
  | [] => none

/-- An operation behind the element that it has delivered. -/
def ChanOp.pass (o : ChanOp) (n : Nat) : ChanOp :=
  { o with next := o.next + 1, half := none, kept := none, delivered := o.cause = 4 || decide (n ≤ o.next + 1) }

/-- `ENGINE_ELEMENT_DELIVER` (R122): the next element of the head copy; its write performed, the pointer passes it. A fault
that it meets stops the copy there (R125). -/
def execEngineElementDeliver (cluster ch : Nat) (s : State) : Out :=
  match s.runningOp cluster ch with
  | none => ok s
  | some o =>
    match o.kind, o.faulted, o.lead with
    | .copy .., none, none => ok (chooseLead cluster ch o s)
    | .copy src dst es fill ds, none, some _ =>
      match moveElem cluster o src dst es fill ds s with
      | (.got (true, o'), s) =>
        let s := setHeadOp cluster ch { o'.pass (dimCount ds) with started := true } s
        let c := s.chan cluster ch
        ok (s.setChan cluster ch { c with ptr := (o.start + (o.next + 1) * es) % 2 ^ 64, ptrGt := s.gtOf (cluster * 8) })
      | (.got (false, o'), s) => ok (setHeadOp cluster ch { o' with started := true } s)
      | (.later _, s) => ok s
      | (.trap t, s) => ok (setHeadOp cluster ch { o with started := true, faulted := some t } s)
    | _, _, _ => ok s

/-- `ENGINE_FAULT` (R125): the copy stops, the channel enters FAULT with the address, and the copy completes with its
timeline and fill actions, once GT has reached the `vt` of what it wrote. DEDUCED: log 32. -/
def execEngineFault (cluster ch : Nat) (s : State) : Out :=
  match s.runningOp cluster ch with
  | none => ok s
  | some o =>
    match o.faulted with
    | none => ok s
    | some f =>
      if s.gtOf (cluster * 8) < o.vt then ok s
      else
        let c := s.chan cluster ch
        let s := s.setChan cluster ch { c with fault := some f, faultEnd := (o.start + opRange o.kind) % 2 ^ 64 }
        let s := s.logEvent "engine fault" f.addr
        ok (completeOp cluster ch { o with cause := engineCause f.cause, faulted := some f, delivered := true } s)

/-! ### Bins (R128 to R131) -/

/-- What an attempt has asked for, kept where the rest of the attempt is undone: its snoops (R67) and its translations
(R45). -/
def keepAsked (tried s : State) : State :=
  let s := { s with
    dies := tried.dies
    clusters := s.clusters.map (fun (c : Nat × Cluster) => (c.1, { c.2 with tlb := (tried.cluster c.1).tlb })) }
  tried.lines.foldl (fun s e =>
    if e.2.snoop0.isSome || e.2.snoop1.isSome then s.modLine e.1 (fun x => { x with snoop0 := e.2.snoop0, snoop1 := e.2.snoop1 })
    else s) s

/-- A field of a table rewritten: the visibility time enters the operation's. -/
def binSet (m : Mover) (o : ChanOp) (a n v : Nat) (s : State) : Local ChanOp × State :=
  match moveWrite m (a % 2 ^ 64) n (v % 2 ^ (8 * n)) s with
  | (.got x, s) => (.got { o with vt := max o.vt x.vt, peers := o.peers ++ x.peers }, s)
  | (.trap t, s) => (.trap t, s)
  | (.later b, s) => (.later b, s)

/-- A step that reads a table entry of 32 bytes and goes on with it. -/
def withEntry (m : Mover) (a : Nat) (f : Nat → State → Local ChanOp × State) (s : State) : Local ChanOp × State :=
  match moveReadVa m (a % 2 ^ 64) 32 s with
  | (.got e, s) => f e s
  | (.trap t, s) => (.trap t, s)
  | (.later b, s) => (.later b, s)

/-- The expert indices of the pairs, in order of row and index (R130). -/
def binIndices (m : Mover) (idx : Nat) : Nat → Nat → List Nat → State → Local (List Nat) × State
  | 0, _, seen, s => (.got seen.reverse, s)
  | n + 1, i, seen, s =>
    match moveReadVa m ((idx + 2 * i) % 2 ^ 64) 2 s with
    | (.got v, s) => binIndices m idx n (i + 1) (v :: seen) s
    | (.trap t, s) => (.trap t, s)
    | (.later b, s) => (.later b, s)

/-- The reservation (R130): OVRES rises by the pairs, or the operation completes with cause 5. NBINS counts as it is
read, and the fields that are to be zero are not looked at. DESIGN CHOICE: log 33. -/
def binReserve (m : Mover) (o : ChanOp) (table n : Nat) (s : State) : Local ChanOp × State :=
  withEntry m table (fun h s =>
    if fld h 16 4 < fld h 20 4 + fld h 24 4 + n then (.got { o with delivered := true, cause := 5 }, s)
    else
      let o := { o with bin := { at_ := 1, nbins := fld h 0 4, ovbase := fld h 8 8 } }
      binSet m o (table + 24) 4 (fld h 24 4 + n) s) s

/-- One bin of those that some pair names (R130): the slots it gives are taken. -/
def binTake (m : Mover) (o : ChanOp) (table : Nat) (s : State) : Local ChanOp × State :=
  let b := o.bin
  let e := ((List.range b.nbins).find? (fun e => b.bin ≤ e && b.idxs.contains e)).getD b.nbins
  if b.nbins ≤ e then (.got { o with bin := { b with at_ := 3, bin := e } }, s)
  else
    let a := table + 32 + 32 * e
    let c := (b.idxs.filter (· = e)).length
    withEntry m a (fun x s =>
      let first := fld x 12 4
      let placed := min c (fld x 8 4 - first)
      let x' := setBits (setBits x 96 32 (first + placed)) 128 32 (satTo (fld x 16 4 + c - placed) 0xFFFFFFFF)
      binSet m { o with bin := { b with bin := e + 1, taken := b.taken ++ [(e, fld x 0 8, first, placed)] } } a 32 x' s) s

/-- OVCOUNT rises by the pairs that no bin takes (R130). -/
def binExcess (m : Mover) (o : ChanOp) (table n : Nat) (s : State) : Local ChanOp × State :=
  let b := o.bin
  let excess := n - b.taken.foldl (fun a x => a + x.2.2.2) 0
  withEntry m table (fun h s =>
    binSet m { o with bin := { b with at_ := 4, oc := fld h 20 4 } } (table + 20) 4 (fld h 20 4 + excess) s) s

/-- One pair (R130): its row copied into its slot, or its overflow record written.  The indices, each bin's BASE and
OVBASE are those read before the bins were taken, not read again here.  DESIGN CHOICE: log 33. -/
def binPair (m : Mover) (o : ChanOp) (src : Nat) (rstr : Int) (k rowsz row0 : Nat) (s : State) : Local ChanOp × State :=
  let b := o.bin
  match b.idxs[b.pair]? with
  | none => (.got { o with bin := { b with at_ := 5 } }, s)
  | some e =>
    let row := b.pair / k
    let j := ((b.idxs.take b.pair).filter (· = e)).length
    match b.taken.find? (fun x => x.1 = e && decide (j < x.2.2.2)) with
    | some x =>
      match moveReadVa m (wrapInt 64 (src + row * rstr)) rowsz s with
      | (.got v, s) =>
        binSet m { o with bytes := o.bytes + rowsz, bin := { b with pair := b.pair + 1 } }
          (x.2.1 + (x.2.2.1 + j) * rowsz) rowsz v s
      | (.trap t, s) => (.trap t, s)
      | (.later b, s) => (.later b, s)
    | none =>
      binSet m { o with bin := { b with pair := b.pair + 1, oc := b.oc + 1 } } (b.ovbase + 8 * b.oc) 8
        (e + (row0 + row) % 2 ^ 32 * 2 ^ 32) s

/-- The next step of a `gbin` (R130); each is one action, so that other operations and slots come between them.
DEDUCED: log 33. -/
def gbinStep (m : Mover) (o : ChanOp) (src : Nat) (rstr : Int) (idx rows k rowsz row0 table : Nat) (s : State) :
    Local ChanOp × State :=
  let n := rows * k
  match o.bin.at_ with
  | 0 => binReserve m o table n s
  | 1 =>
    match binIndices m idx n 0 [] s with
    | (.got is, s) => (.got { o with bin := { o.bin with at_ := 2, idxs := is } }, s)
    | (.trap t, s) => (.trap t, s)
    | (.later b, s) => (.later b, s)
  | 2 => binTake m o table s
  | 3 => binExcess m o table n s
  | 4 => binPair m o src rstr k rowsz row0 s
  | _ => withEntry m table (fun h s => binSet m { o with delivered := true } (table + 24) 4 (fld h 24 4 - n) s) s

/-- `GBIN_EXECUTE` (R130): the next step of the head `gbin`. DEDUCED: log 33. -/
def execGbinExecute (cluster ch : Nat) (s : State) : Out :=
  match s.runningOp cluster ch with
  | none => ok s
  | some o =>
    match o.kind, o.faulted, o.lead with
    | .gbin .., none, none => ok (chooseLead cluster ch o s)
    | .gbin src rstr idx rows k rowsz row0 table, none, some _ =>
      match gbinStep (o.mover cluster) o src rstr idx rows k rowsz row0 table s with
      | (.later _, s) => ok s
      | (.trap t, s) => ok (setHeadOp cluster ch { o with started := true, faulted := some t } s)
      | (.got o, s) => ok (setHeadOp cluster ch { o with started := true } s)
    | _, _, _ => ok s

/-- BUMP and OVF of every bin set to zero (R131), with the operation as the writes leave it, to the end or to a fault. -/
def resetBins (m : Mover) (table : Nat) : Nat → Nat → ChanOp → State → Option (ChanOp × State) × State
  | 0, _, o, s => (some ({ o with delivered := true }, s), s)
  | n + 1, e, o, s =>
    match binSet m o (table + 32 + 32 * e + 12) 8 0 s with
    | (.got o, s) => resetBins m table n (e + 1) o s
    | (.trap t, s) => (some ({ o with faulted := some t }, s), s)
    | (.later _, s) => (none, s)

/-- `BIN_RESET_EXECUTE` (R131): once OVRES is zero, the whole reset as one action, so that a `gbin` of another channel
comes before it or after it. DEDUCED: log 33. -/
def execBinResetExecute (cluster ch : Nat) (s : State) : Out :=
  match s.runningOp cluster ch with
  | none => ok s
  | some o =>
    match o.kind, o.faulted, o.lead with
    | .binr _, none, none => ok (chooseLead cluster ch o s)
    | .binr table, none, some _ =>
      let m := o.mover cluster
      let o := { o with started := true }
      match moveReadVa m table 32 s with
      | (.later _, s) => ok s
      | (.trap t, s) => ok (setHeadOp cluster ch { o with faulted := some t } s)
      | (.got h, s) =>
        if fld h 24 4 ≠ 0 then ok s
        else
          match binSet m o (table + 20) 4 0 s with
          | (.later _, s) => ok s
          | (.trap t, s) => ok (setHeadOp cluster ch { o with faulted := some t } s)
          | (.got o, s1) =>
            match resetBins m table (fld h 0 4) 0 o s1 with
            | (some (o, s), _) => ok (setHeadOp cluster ch o s)
            | (none, tried) => ok (keepAsked tried s)
    | _, _, _ => ok s

def execCpy (a : WReg) (s : State) : Out :=
  let me := s.me
  ok (startProg me { prog := [.finish (.cpy (s.getW me.base a).toNat), .adv 8] } s)
def execGbin (a : WReg) (s : State) : Out :=
  let me := s.me
  ok (startProg me { prog := [.finish (.gbin (s.getW me.base a).toNat), .adv 8] } s)
def execBinr (a : WReg) (ch : Fin 32) (s : State) : Out :=
  let me := s.me
  ok (startProg me { prog := [.finish (.binr (s.getW me.base a).toNat ch.val), .adv 8] } s)

/-- The place of a slot in its core's rotation table (R116). -/
def State.rotPlace (s : State) (slot : Nat) : Nat :=
  ((List.range 32).find? (fun e => s.rtab (slot / 16) e = slot % 16)).getD 32

/-- The slots of a cluster that wait for a channel with room: their order, and the operation to accept. -/
def State.channelWaiters (s : State) (cluster : Nat) : List (Nat × Nat × Nat × Nat × ChanOp) :=
  s.ctxs.filterMap (fun c =>
    match c.2.wait, c.2.slot with
    | some { block := .channel cl ch tl o, .. }, some k =>
      if cl = cluster && decide ((s.chan cl ch).ops.length < 16) then some (k / 16 * 64 + s.rotPlace k, c.1, ch, tl, o)
      else none
    | _, _ => none)

/-- `OPERATION_ACCEPT` (R116, R361): of the slots that wait for a channel with room, the one of lowest core, and within
a core in rotation-table order; its descriptor is read at acceptance (R117), and its instruction ends. -/
def execOperationAccept (cluster : Nat) (s : State) : Out :=
  match s.channelWaiters cluster with
  | [] => ok s
  | x :: r =>
    let f := r.foldl (fun m y => if y.1 < m.1 then y else m) x
    match rereadOp cluster f.2.2.2.2 s with
    | (none, s) => ok s
    | (some o, s) => ok (resume false f.2.1 (acceptOp cluster f.2.2.1 f.2.2.2.1 o s))

/-- `cpycan` (R126, R362): the engine takes it up behind the slots of the cycle (R127). An operation that another slot issues
while it waits is accepted and runs, and `cpycan` waits for it as well, until PEND is zero. DESIGN CHOICE: log 33. -/
def execCpycan (ch : Fin 32) (s : State) : Out :=
  let me := s.me
  let cl := clusterOf me.core
  let c := s.chan cl ch.val
  if c.ops.isEmpty && c.fault.isNone then ok (s.advPc me.base 8)
  else
    let c := { c with ops := c.ops.map (fun o => { o with cancel := true }), asked := true }
    ok (waitOn me (.cancel cl ch.val) { prog := [.adv 8] } (s.setChan cl ch.val c))

/-- `cpyq` (R363). -/
def execCpyq (d : WReg) (ch : Fin 32) (s : State) : Out :=
  let me := s.me
  ok ((s.setW me.base d (BitVec.ofNat 64 (s.chan (clusterOf me.core) ch.val).status)).advPc me.base 8)

/-- `tlread` (R363). -/
def execTlread (d : WReg) (tl : Fin 64) (s : State) : Out :=
  let me := s.me
  ok ((s.setW me.base d (BitVec.ofNat 64 (s.tl (clusterOf me.core) tl.val).done)).advPc me.base 8)

/-- `wptr` (R363): a channel in FAULT raises its recorded cause. -/
def execWptr (d : WReg) (ch : Fin 32) (s : State) : Out :=
  let me := s.me
  let c := s.chan (clusterOf me.core) ch.val
  match c.fault with
  | some f => ok (trap { f with eng := true } s)
  | none => ok ((acquireAt me.base c.ptrGt (s.setW me.base d (BitVec.ofNat 64 c.ptr))).advPc me.base 8)

/-! ### Software operations and waits on timelines (R364, R365) -/

/-- The condition of a software operation: the earlier pushes are acknowledged, and GT has reached the `vt` of the
earlier writes. -/
def State.softReady (s : State) (cl : Nat) (x : Nat × Nat × Nat × List Nat) : Bool :=
  decide (x.2.2.1 ≤ s.gtOf (cl * 8)) && x.2.2.2.all (fun id => !((s.ctx x.2.1).pushes.any (fun p => p.id = id)))

/-- `tladv` (R364). -/
def execTladv (d : WReg) (tl : Fin 64) (s : State) : Out :=
  let me := s.me
  let cl := clusterOf me.core
  match takeNumber cl tl.val s with
  | (n, s) =>
    let c := s.ctx me.key
    let t := s.tl cl tl.val
    let x := (n, me.key, max c.vtDie0 (max c.vtDie1 c.performed), c.pushes.map (·.id))
    let s := s.setTl cl tl.val { t with soft := t.soft ++ [x] }
    ok ((s.setW me.base d (BitVec.ofNat 64 n)).advPc me.base 8)

/-- `SOFTWARE_OPERATION_COMPLETE` (R364). -/
def execSoftwareOperationComplete (cluster tl n : Nat) (s : State) : Out :=
  let t := s.tl cluster tl
  match t.soft.find? (fun x => x.1 = n) with
  | none => ok s
  | some x =>
    if !s.softReady cluster x then ok s
    else
      let s := s.setTl cluster tl { t with soft := t.soft.filter (fun y => y.1 ≠ n) }
      ok (finishNumber cluster tl n none s)

/-- `tlwait` (R365). -/
def execTlwait (tl : Fin 64) (a : WReg) (s : State) : Out :=
  let me := s.me
  let cl := clusterOf me.core
  let t := s.tl cl tl.val
  let n := (s.getW me.base a).toNat
  if t.faultop ≠ 0 ∧ t.faultop ≤ n then
    ok (trap { t.latch with eng := true } (s.setTl cl tl.val { t with faultop := 0 }))
  else if n ≤ t.done then ok ((acquireAt me.base t.doneGt s).advPc me.base 8)
  else if s.kindOf me.base = 1 then ok (trap { cause := .block } s)
  else ok (waitOn me (.timeline cl tl.val) {} s)

end Sys2Proof.Machine
end

