-- ==== Sys2Proof/Machine/Host.lean ====
section
/-! DEFINITION. Clocks that drift (R65, R271), the host and peer modules as agents (R76, R262), and the host bridge under
CXL (R66 to R68). -/

namespace Sys2Proof.Machine

open Sys2Proof

/-! ### Drift (R65, R271) -/

/-- The difference between a die's local GT and the reference. -/
def State.drift (s : State) (die : Nat) : Nat := (s.gt die - s.refGt) + (s.refGt - s.gt die)

/-- `DRIFT_CHECK` (R65): the detector compares, and while it is tripped it notes since when the counter has been back
within 4 ns. -/
def execDriftCheck (die : Nat) (s : State) : Out :=
  ok (s.modDie die (fun d =>
    if d.tripped.isNone then d
    else { d with backSince := if s.drift die ≤ 4 then some (d.backSince.getD s.refGt) else none }))

/-- The leased copies that a die holds: holder and line. -/
def State.leasedCopies (s : State) (die : Nat) : List (Nat × Nat) :=
  s.copies.flatMap (fun t =>
    if holderDie t.1 = die then (t.2.filter (fun e => e.2.lease.isSome)).map (fun e => (t.1, e.1)) else [])

/-- `DRIFT_TRIP` (R65): more than 16 ns apart, the leased copies of the die go and their lines are marked.
DEDUCED: log 25. -/
def execDriftTrip (die : Nat) (s : State) : Out :=
  if s.drift die ≤ 16 || (s.die die).tripped.isSome then ok s
  else
    let hit := s.leasedCopies die
    let s := hit.foldl (fun s e => dropLease e.1 e.2 s) s
    let s := s.modDie die (fun d =>
      { d with tripped := some s.refGt, backSince := none, tripGt := d.gt
               marked := (hit.map Prod.snd).foldl (fun m l => if m.contains l then m else m ++ [l]) d.marked })
    ok (s.logEvent "drift trip" die)

/-- `DRIFT_RECOVERY` (R65): 1 us back within 4 ns. -/
def execDriftRecovery (die : Nat) (s : State) : Out :=
  let d := s.die die
  match d.tripped, d.backSince with
  | some _, some t =>
    if s.drift die ≤ 4 && decide (t + 1000 ≤ s.refGt) then ok (s.setDie die { d with tripped := none, backSince := none })
    else ok s
  | _, _ => ok s

/-- `GT_RESYNC` (R271): a counter that is behind is stepped to the reference; one that is ahead holds its value until
the reference reaches it. -/
def execGtResync (die : Nat) (s : State) : Out :=
  let d := s.die die
  if d.tripped.isNone then ok s
  else if d.gt < s.refGt then ok (s.setDie die { d with gt := s.refGt, running := true, waits := false })
  else ok (s.setDie die { d with waits := decide (s.refGt < d.gt), running := true })

/-! ### The snoop filter (R66) -/

/-- A half's state set, and the line's place in the filter, most recently used last. -/
def setHalf (l k : Nat) (h : HostHalf) (s : State) : State :=
  let s := s.modLine l (fun x => if k = 0 then { x with half0 := h } else { x with half1 := h })
  let rest := s.dev.snoopers.filter (· ≠ l)
  { s with dev := { s.dev with snoopers := if (s.line l).inFilter then rest ++ [l] else rest } }

/-- Both halves of an entry back-invalidated. -/
def backInvalidate (l : Nat) (s : State) : State :=
  let s := if (s.line l).half0 = .hi then s else sendSnoop l 0 true s
  if (s.line l).half1 = .hi then s else sendSnoop l 1 true s

/-- Room for lines in the filter of 65,536 entries: there is some, or the entries least recently used, as many as are
in the way, are back-invalidated first. -/
def filterRoom (ls : List Nat) (s : State) : Bool × State :=
  let ls := ls.eraseDups
  let new := ls.filter (fun l => !s.dev.snoopers.contains l)
  let excess := s.dev.snoopers.length + new.length - 65536
  if new.isEmpty || excess = 0 then (true, s)
  else (false, ((s.dev.snoopers.filter (fun l => !ls.contains l)).take excess).foldl (fun s l => backInvalidate l s) s)

/-- While a line is in the filter its writes perform at the home, so no holder goes on gathering tokens for one.
DEDUCED: log 28. -/
def endWriteMisses (l : Nat) (s : State) : State :=
  (s.holders l).foldl (fun s h =>
    match (s.copy h l).miss with
    | some m =>
      if m.write then
        let c := { s.copy h l with miss := none }
        wakeLine h l (deactivate h l (s.setCopy h l c))
      else s
    | none => s) s

/-! ### The host (R76, R262, R67) -/

/-- The device memory that the host's windows show it: all HBM under CXL.mem, else the 64 GiB that BAR 2 places. -/
def State.hostSees (s : State) (addr n : Nat) : Bool :=
  decide (addr + n ≤ 4 * quarterBytes) &&
  (s.dev.trainedCxl ||
    (match s.dev.bar2 with
     | some (_, base) => s.dev.trained && decide (base ≤ addr) && decide (addr + n ≤ base + 2 ^ 36)
     | none => false))

/-- An answer to the host or a peer. -/
def answer (v : Nat) (s : State) : State := { s with dev := { s.dev with hostData := v :: s.dev.hostData } }

/-- Bytes of HBM read at their homes, line by line; what a lost line answers is open (assumption log 9).
DESIGN CHOICE: log 9. -/
def outsideRead : Nat → Nat → Nat → State → Nat × State
  | 0, _, _, s => (0, s)
  | k + 1, a, n, s =>
    if n = 0 then (0, s)
    else
      let m := min n (128 - a % 128)
      let r : Nat × State :=
        if (s.line (a / 128)).lost then s.choose (2 ^ (8 * m))
        else match homeRead a m s with | (v, _, s) => (v, s)
      let rest := outsideRead k (a + m) (n - m) r.2
      (r.1 + 2 ^ (8 * m) * rest.1, rest.2)

/-- A half that the host now shares (R66): the home keeps a non-owner token for it, and what else it has gathered goes
to the holder of an active persistent request (R54). -/
def shareHalf (l k : Nat) (s : State) : State :=
  if (s.line l).half k ≠ .hi then touchFilter l s
  else
    let s := if 2 ≤ (s.line l).tokens then s else gatherHome l s
    homeYield l (endWriteMisses l (setHalf l k .hs s))

/-- `HOST_READ` (R76, R67): at the home, which first recalls the owner token; under CXL the halves become shared.
DEDUCED: log 28. -/
def execHostRead (addr size : Nat) (s : State) : Out :=
  if !s.hostSees addr size then ok s
  else if s.dev.trainedCxl then
    match filterRoom ((halvesOf addr size).map Prod.fst) s with
    | (false, s) => ok s
    | (true, s) =>
      let r := outsideRead (size / 128 + 2) addr size s
      ok (answer r.1 ((halvesOf addr size).foldl (fun s h => shareHalf h.1 h.2 s) r.2))
  else
    let r := outsideRead (size / 128 + 2) addr size s
    ok (answer r.1 r.2)

/-- `HOST_WRITE` (R76): performed at the home of each line it touches. -/
def execHostWrite (addr : Nat) (data : List Byte) (s : State) : Out :=
  if s.hostSees addr data.length then
    ok (hwWriteLines false (data.length / 128 + 2) addr data.length (leNat data) s).2
  else ok s

/-- `HOST_OWNERSHIP_REQUEST` (R67): every device copy goes, all 512 tokens are gathered, and the half becomes HE. -/
def execHostOwnershipRequest (line half : Nat) (s : State) : Out :=
  if !s.dev.trainedCxl || !decide (line * 128 + 128 ≤ 4 * quarterBytes) || !decide (half ≤ 1) then ok s
  else
    match filterRoom [line] s with
    | (false, s) => ok s
    | (true, s) => ok (homeYield line (endWriteMisses line (setHalf line half .he (gatherHome line s))))

/-- The hardware's writes to a half that waited for its snoop, performed over what the host answered (R67). DEDUCED:
log 55. -/
def replayWrites (line half : Nat) (s : State) : State :=
  let mine := fun (w : Nat × Nat × Nat) => decide (w.1 / 64 = line * 2 + half)
  (s.snoopOver.filter mine).foldl (fun s w => (homeWrite w.1 w.2.1 w.2.2 0 0 s).2)
    { s with snoopOver := s.snoopOver.filter (fun w => !mine w) }

/-- The prefetches of a line that waited for a snoop make their requests (R321). -/
def replayPrefs (line : Nat) (s : State) : State :=
  (s.line line).prefs.foldl (fun s p => prefetchLine p.1 p.2.1 p.2.2 s) (s.modLine line (fun x => { x with prefs := [] }))

/-- `BACK_INVALIDATE_RESPONSE` (R67): dirty host data is merged at the home, the half takes its new state, and the
accesses and prefetches that wait for it go on. -/
def execBackInvalidateResponse (line half : Nat) (dirty : Option (List Byte)) (s : State) : Out :=
  let x := s.line line
  match (if half = 0 then x.snoop0 else x.snoop1) with
  | none => ok s
  | some (_, inval) =>
    let was := x.half half
    let s := match dirty with
      | some d =>
        if was = HostHalf.he then (homeWrite (line * 128 + 64 * half) 64 (leNat d % 2 ^ 512) 0 0 s).2 else s
      | none => s
    let s := s.modLine line (fun x => if half = 0 then { x with snoop0 := none } else { x with snoop1 := none })
    let s := setHalf line half (if was = HostHalf.he && !inval then HostHalf.hs else HostHalf.hi) s
    let s := replayPrefs line (replayWrites line half s)
    ok (wake (fun _ w => match w.block with | .snoop l k _ => l = line && k = half | _ => false) s)

/-- An element that touches a half of a line, where its checks placed it. -/
def Elem.touchesHalf (e : Elem) (l k : Nat) : Bool :=
  let pa := match e.tgt with
    | some t => t.pa
    | none => e.pa
  decide (pa < l * 128 + 64 * k + 64) && decide (l * 128 + 64 * k < pa + e.size)

/-- The cause of a wait for a half of a line (R68): its address is that of the access in hand, or of the lowest element
that touches the half (R333); of a fetch, its PC. -/
def snoopCause (w : Wait) (pc l k : Nat) : TrapInfo :=
  let el := match w.cont.prog with
    | .perform i :: _ => w.cont.elems.getD i {}
    | _ => (w.cont.elems.find? (fun (e : Elem) => e.touchesHalf l k)).getD (w.cont.elems.headD {})
  let fetching := w.cont.prog.isEmpty
  { cause := .timeout, info0 := l * 128 + 64 * k
    addr := if fetching then pc else el.va
    acc := if fetching then accFetch else if w.cont.op = .touch then accRead else w.cont.op.acc }

/-- `SNOOP_TIMEOUT` (R68): no response within 1 ms of the access's own wait; an access that has begun to perform goes on
waiting (R2). DEDUCED: log 28. -/
def execSnoopTimeout (ctx : Nat) (s : State) : Out :=
  match s.meOf ctx, (s.ctx ctx).wait with
  | some me, some w =>
    match w.block with
    | .snoop l k since =>
      if w.cont.committed || decide (s.gtOf me.core < since + 1000000) then ok s
      else ok (trapEntry me (snoopCause w (s.pc me.base).toNat l k) ((s.logEvent "snoop timeout" l).clearWait ctx))
    | _ => ok s
  | _, _ => ok s

/-- `HOST_SNOOP` (R68): a host line cached by the device; all 512 tokens return to the bridge before it responds. -/
def execHostSnoop (line : Nat) (s : State) : Out :=
  match regionOf (line * 128) with
  | .host => ok (homeYield line (gatherHome line s))
  | _ => ok s

/-! ### Peers (R76) -/

/-- An acknowledgement that an ended context's launch, a command, or a copy still waits for (R266). -/
def peerAcked (msg : Nat) (s : State) : State :=
  let left := fun (l : List Nat) => l.filter (· ≠ msg)
  { s with
    parts := s.parts.map (fun p =>
      (p.1, { p.2 with
        launches := p.2.launches.map (fun l => (l.1, { l.2 with peers := left l.2.peers }))
        queues := p.2.queues.map (fun q => (q.1, { q.2 with peers := left q.2.peers })) }))
    clusters := s.clusters.map (fun c =>
      (c.1, { c.2 with chans := c.2.chans.map (fun h =>
        (h.1, { h.2 with ops := h.2.ops.map (fun o => { o with peers := left o.peers }) })) })) }

/-- `PEER_WRITE_ACK` (R76): a peer acknowledges a write of this module; or this module's home acknowledges a peer's
write once its GT has reached the visibility time. DEDUCED: log 27. -/
def execPeerWriteAck (msg : Nat) (s : State) : Out :=
  match s.msg? msg with
  | some (.peerAck key) =>
    let s := peerAcked msg (s.drop msg)
    if key = 0 then ok s else
    let s := (wakeWfe key s).modCtx key (fun c => { c with peerWrites := c.peerWrites.filter (· ≠ msg) })
    if (s.ctx key).peerWrites.isEmpty then
      ok (wake (fun k w => k = key && (match w.block with | .peerAcks _ => true | _ => false)) s)
    else ok s
  | some (.peerDone peer die vt) =>
    if s.gt die < vt then ok s
    else
      let s := s.drop msg
      ok { s with dev := { s.dev with peerAcks := (peer, s.gt die) :: s.dev.peerAcks } }
  | _ => ok s

/-- `PEER_READ` (R76): served at the home, once no half of it is under a snoop (R67). -/
def execPeerRead (_peer addr size : Nat) (s : State) : Out :=
  if addr + size ≤ 4 * quarterBytes then
    match snoopRange addr size false s with
    | (false, s) => ok s
    | (true, s) =>
      let r := outsideRead (size / 128 + 2) addr size s
      ok (answer r.1 r.2)
  else ok s

/-- A peer's write performed line by line, each owed its acknowledgement. DEDUCED: log 27. -/
def peerStore (peer : Nat) : Nat → Nat → Nat → Nat → State → State
  | 0, _, _, _, s => s
  | k + 1, a, n, v, s =>
    if n = 0 then s
    else
      let m := min n (128 - a % 128)
      let die := s.homeDie a
      match hwWriteVt a m (v % 2 ^ (8 * m)) s with
      | (vt, s) => peerStore peer k (a + m) (n - m) (v / 2 ^ (8 * m)) (s.send (.peerDone peer die vt))

/-- `PEER_WRITE` (R76): performed at the home once no half of it is under a snoop (R67), and acknowledged line by line.
DEDUCED: log 27. -/
def execPeerWrite (peer addr : Nat) (data : List Byte) (s : State) : Out :=
  if addr + data.length ≤ 4 * quarterBytes then
    match snoopRange addr data.length true s with
    | (false, s) => ok s
    | (true, s) => ok (peerStore peer (data.length / 128 + 2) addr data.length (leNat data) s)
  else ok s

end Sys2Proof.Machine
end

