-- ==== Sys2Proof/Machine/Task.lean ====
section
/-! DEFINITION. Tasks (R219 to R240, R388 to R398): `spawn`, `decr`, `cdone`, records offered, taken and stolen,
borrowed workspaces, the work identifier and the team barrier. -/

namespace Sys2Proof.Machine

open Sys2Proof

/-- `spawn` (R388): the header's address, its translation, the release at `.dev`, the reading, the launch. -/
def execSpawn (d a : WReg) (s : State) : Out :=
  let me := s.me
  let v := s.getW me.base a
  if v.toNat % 128 ≠ 0 then ok (trap (align v.toNat 128 accRead) s)
  else ok (startProg me
    { op := .read, elems := (List.range 4).map (fun i => elemAt (v + BitVec.ofNat 64 (32 * i)) 32)
      prog := (List.range 4).map Micro.xlate ++ [.prot, .marked, .ready, .release .dev] ++
        (List.range 4).map Micro.xlate ++ [.prot, .verify] ++ (List.range 4).map Micro.perform ++
        [.finish (.spawn d), .adv 8] } s)

/-- `decr` (R231, R389). -/
def execDecr (sc : Scope) (a : WReg) (s : State) : Out :=
  let me := s.me
  let v := s.getW me.base a
  if !s.dectOk (s.partOf me.core) v.toNat then ok (trap prot s)
  else ok (startProg me { prog := [.release sc, .travel (.decr v), .finish (.decr v), .adv 8] } s)

/-- `cdone` (R391). -/
def execCdone (s : State) : Out :=
  let me := s.me
  if s.kindOf me.base ≠ 1 then ok (trap prot s) else ok (startProg me { prog := endSteps } s)

/-! ### Records (R112, R232, R234, R235) -/

/-- A record sent by a slot, which waits for its acceptance (R114). -/
def offerAndWait (me : Me) (r : RingId) (rec : List Byte) (s : State) : State :=
  let id := s.nextId
  let s := sendRecord r rec (some me.key) {} me.slot false s
  waitOn me (.ring id) { prog := [.adv 8] } s

/-- `renq` (R234, R392): the checks of the address, then the record, behind a journey where another core's local memory
holds it (R96). DEDUCED: log 19. -/
def execRenq (a b : WReg) (s : State) : Out :=
  let me := s.me
  let v := (s.getW me.base a).toNat
  let f : Finish := .renq v (s.getW me.base b)
  if v % 16 ≠ 0 then ok (trap (align v 16 accRead) s)
  else if !clusterAddrOk v || !s.clusterGeneral (clusterOf me.core) v 16 then ok (trap prot s)
  else ok (startProg me { prog := [.travel f, .finish f, .adv 8] } s)

/-- `rdeq` (R234, R393): the checks of its destination; then, behind a journey where that lies in another core's local
memory (R96), the record is taken and stored in one action. DEDUCED: log 19. -/
def execRdeq (d a : WReg) (s : State) : Out :=
  let me := s.me
  let v := (s.getW me.base a).toNat
  if v % 16 ≠ 0 then ok (trap (align v 16 accWrite) s)
  else if !clusterAddrOk v || !s.clusterGeneral (clusterOf me.core) v 64 then ok (trap prot s)
  else ok (startProg me { prog := [.travel (.rdeq d v), .finish (.rdeq d v), .adv 8] } s)

/-- The end-of-stream record (R235). -/
def eosRecord : List Byte := natBytes 16 3

/-- `eos` (R238, R394). -/
def execEos (stage : Fin 4) (s : State) : Out :=
  let me := s.me
  let cl := clusterOf me.core
  if !s.holdsGov (s.partOf me.core) (s.ctx me.key).ln cl || (s.ring (.stage cl stage.val)).isNone then ok (trap prot s)
  else ok (offerAndWait me (.stage cl stage.val) eosRecord s)

/-- `steal` (R240, R395): behind the actions of the rings' owners in its cycle, in ascending number of core. -/
def execSteal (d a : WReg) (s : State) : Out :=
  let me := s.me
  let v := (s.getW me.base a).toNat
  if 384 ≤ v ∨ dieOf v ≠ dieOf me.core ∨ s.partOf v ≠ s.partOf me.core then ok (trap prot s)
  else ok (startProg me { prog := [.travel (.steal d v), .finish (.steal d v), .adv 8] } s)

/-! ### Borrowed workspaces (R145, R146, R396) -/

/-- `borrow` (R145). -/
def execBorrow (d : WReg) (s : State) : Out :=
  let me := s.me
  match s.brw me.base, s.borrowSlot me.core, s.freeFrame me.core with
  | false, some k, some f =>
    let s := zeroLocal me.core (f * 4096) 3200 s
    let s := zeroLocal me.core (f * 4096 + offHist) 128 s
    let s := s.modSlot (me.core * 16 + k) (fun x =>
      { x with frame := BitVec.ofNat 8 f, v := false, withheld := true, block := none, searchFrom := none })
    let s := s.modCtx me.key (fun c => { c with borrow := some (me.core * 16 + k, f) })
    ok (((s.setBrw me.base true).setW me.base d 1).advPc me.base 8)
  | _, _, _ => ok ((s.setW me.base d 0).advPc me.base 8)

/-- `retbr` (R146). -/
def execRetbr (s : State) : Out :=
  let me := s.me
  if s.brw me.base then ok ((returnBorrow me.key s).advPc me.base 8) else ok (s.advPc me.base 8)

/-- The place of a register of a class in a workspace, and its size (R132, R146): its number is taken modulo the size
of the class. -/
def classPlace (c : XClass) (n : Nat) : Nat × Nat :=
  match c with
  | .w => (8 * (n % 16), 8)
  | .p => (offP + 8 * (n % 8), 8)
  | .v => (offV + 64 * (n % 32), 64)
  | .af => (offAf + 64 * (n % 8), 64)

/-- `xmv` (R146, R396). A register of the borrowed workspace in a lost line raises `#MCHK` (R257). -/
def execXmv (cls : XClass) (from_ : Bool) (d : BitVec 5) (a : WReg) (s : State) : Out :=
  let me := s.me
  match (s.ctx me.key).borrow with
  | none => ok (trap prot s)
  | some (k, f) =>
    let mine := classPlace cls d.toNat
    let other := classPlace cls ((s.getW me.base a).toNat % 32)
    let mineAt := me.base + mine.1
    let otherAt := wsBase (k / 16) f + other.1
    match s.lostAt otherAt other.2 accRead with
    | some t => ok (trap t s)
    | none =>
      let s := if from_ then s.wr mineAt mine.2 (s.rd otherAt mine.2) else s.wr otherAt mine.2 (s.rd mineAt mine.2)
      ok (s.advPc me.base 8)

/-! ### Work identifier and team barrier (R222, R226) -/

/-- The field of a WID that a selector names (R222). -/
def widField (ws : List Nat) (wid sel : Nat) : Nat := bits wid ((ws.take sel).foldl (· + ·) 0) (ws.getD sel 0)

/-- `wid` (R222, R397). -/
def execWid (d : WReg) (sel : Fin 8) (s : State) : Out :=
  let me := s.me
  let ln := (s.ctx me.key).ln
  let w := s.ws me.base offWid
  let v := if sel.val = 7 then ln
    else if sel.val = 6 then w
    else widField (tget (s.part (s.partOf me.core)).launches ln).widths w sel.val
  ok ((s.setW me.base d (BitVec.ofNat 64 v)).advPc me.base 8)

/-- `tbar` (R226, R398): the release at `.clu`, then the arrival; the PC passes it when the barrier opens. -/
def execTbar (s : State) : Out :=
  let me := s.me
  if s.kindOf me.base = 1 then ok (trap { cause := .block } s)
  else if s.kindOf me.base = 2 then ok (trap prot s)
  else ok (startProg me { prog := [.release .clu, .finish .tbar] } s)

/-- `BARRIER_OPEN` (R226): every live member of the team has arrived. -/
def execBarrierOpen (cluster entry : Nat) (s : State) : Out :=
  let t := s.team cluster entry
  let ms := s.barrierMembers t
  if !ms.isEmpty && ms.all (fun k => (s.ctx k).barrierTs.isSome && s.delivers k) then ok (openBarrier t s) else ok s

end Sys2Proof.Machine
end

