-- ==== Sys2Proof/Machine/Rings.lean ====
section
/-! DEFINITION. The movement of records: their arrival at rings (R113, R114), the dispatch of codelets, herd threads and
stage items (R233 to R235), end-of-stream records (R238), the governor (R237) and the balancer (R239). -/

namespace Sys2Proof.Machine

open Sys2Proof

/-! ### Arrival (R113, R114) -/

/-- `RING_ENQUEUE` (R113): a record arrives, behind the earlier ones of its sender, and is placed or refused; a refused
one is held at its sender (R114), and one at a halted cluster at its interface (R277). -/
def execRingEnqueue (msg : Nat) (s : State) : Out :=
  match s.msg? msg with
  | some (.record target rec ctx st sender late) =>
    let r := RingId.ofTarget target
    if s.behindSent msg target sender then ok s
    else if s.halted r.cluster then ok (heldAtCluster msg (.record target rec ctx st sender late) s)
    else
      let ctx := match ctx with
        | some k => if thas s.ctxs k && !(s.ctx k).ended then some k else none
        | none => none
      match arriveRecord { id := msg, ctx := ctx, target := target, bytes := rec, stamp := st, sender := sender, late := late }
        (s.drop msg) with
      | (true, s) => ok (wake (fun _ w => w.block = .ring msg) s)
      | (false, s) => ok s
  | _ => ok s

/-- The records held before another. -/
def heldBefore (id : Nat) : List HeldRec → List HeldRec
  | [] => []
  | h :: r => if h.id = id then [] else h :: heldBefore id r

/-- A record held for a thread of a halted cluster, whose workspace does not change (R277). -/
def State.senderHalted (s : State) (h : HeldRec) : Bool := h.ctx.any s.ctxHalted

/-- `RING_REOFFER` (R114): HEAD has advanced since the record's refusal, or the record before it is in, and it is offered
again; it is counted at its first refusal only. -/
def execRingReoffer (held : Nat) (s : State) : Out :=
  match s.held.find? (fun h => h.id = held) with
  | none => ok s
  | some h =>
    let r := RingId.ofTarget h.target
    let head := (s.ring r).map (·.head)
    if behindHeld h.target h.sender (heldBefore held s.held) || s.halted r.cluster || s.senderHalted h then ok s
    else if h.since.isSome && head = h.headAt then ok s
    else
      match enqueue r h.bytes h.stamp s with
      | some s =>
        let s := recordEntered r h.bytes h.sender { s with held := s.held.filter (fun x => x.id ≠ held) }
        ok (wake (fun _ w => w.block = .ring held) s)
      | none =>
        let first := h.since.isNone
        let s := { s with held := s.held.map (fun x =>
          if x.id = held then { x with since := some (x.since.getD (s.gt r.die)), headAt := head } else x) }
        ok (if first then countRefused r s else s)

/-- INFO0 of `#RINGFULL` (R245): the core, or 0x8000 + stage. -/
def ringInfo (target : Nat) : Nat := if target < 0x8000 then target else 0x8000 + (target - 0x8000) % 4

/-- `RINGFULL_TIMEOUT` (R114): 16 us after its first refusal a thread's record is discarded and its sender traps. -/
def execRingfullTimeout (held : Nat) (s : State) : Out :=
  match s.held.find? (fun h => h.id = held) with
  | none => ok s
  | some h =>
    match h.ctx, h.since with
    | some key, some t =>
      if s.gt (RingId.ofTarget h.target).die < t + 16000 || s.senderHalted h then ok s
      else
        let s := { s with held := s.held.filter (fun x => x.id ≠ held) }
        match s.meOf key with
        | some me =>
          ok (trapEntry me { cause := .ringfull, info0 := ringInfo h.target, rcopy := h.bytes, late := h.late }
            (s.clearWait key))
        | none => ok s
    | _, _ => ok s

/-! ### Dispatch (R233, R144) -/

/-- The head record of a ring taken, and logged as dropped (R227, R233). -/
def dropHead (r : RingId) (why : String) (s : State) : State :=
  match dequeue r s with
  | some (rec, _, s) => s.logEvent why (leNat rec % 2 ^ 64)
  | none => s

/-- The codelet team of a launch in a cluster (R223). -/
def State.codeletTeam (s : State) (p ln cl : Nat) : Nat :=
  (((s.cluster cl).teams.find? (fun t => t.2.part = p && t.2.ln = ln && t.2.team.isNone)).map Prod.fst).getD 0

/-- A codelet dispatched from its record, or a stage item at its stage's ENTRY (R144, R232, R235). -/
def startCodelet (core slot frame : Nat) (stage : Option Nat) (entry : Word) (rec : List Byte) (st : RecStamp) (s : State) :
    State :=
  let p := s.partOf core
  let n := leNat rec
  let h := n % 2 ^ 64
  let ln := recLn h
  let l := tget (s.part p).launches ln
  let len := bits h 4 2
  let wid := if stage.isSome then bits n 64 64 else if len = 0 then 0 else bits n 128 64
  let first := if stage.isSome then 2 else 3
  let args := rec.length / 8 - first
  let c : NewCtx :=
    { kind := 1, pc := if stage.isSome then entry else BitVec.ofNat 64 (bits n 64 64), afr := st.afr, ln := ln
      entry := s.codeletTeam p ln (clusterOf core), enqueued := st.enq, stage := stage
      ws := [(0, 8 * args, n / 2 ^ (64 * first)), (offWid, 8, wid), (offPtroot, 8, l.ptroot.toNat),
             (offHslab, 8, l.hsl.toNat)] }
  (dispatch core (some slot) frame c (noteWait core st s)).2

/-- The lost line of a workspace by its place (R257). -/
def State.wsLostAt (s : State) (loc : Loc) : Option Nat :=
  match loc with
  | .hbm image => s.imageLost image
  | .frame g f => (s.lostIn (wsBase g f) 4096).map (· * 128)
  | _ => none

/-- A record with FR = 1 at the head of a ready ring (R233). A context of a team that is swapped out is resumed with its
team, so its record is dropped. DESIGN CHOICE: log 30. -/
def dispatchFrame (core slot : Nat) (rec : List Byte) (s : State) : State :=
  let d := leNat rec / 2 ^ 64
  let key := s.keyOf core (d % 2 ^ 24)
  let f := bits d 24 8
  let c := s.ctx key
  let r := RingId.ready core
  let take := fun (s : State) =>
    match dequeue r s with
    | some (_, st, s) => noteSearch core slot (noteWait core st s)
    | none => s
  let out := (s.part (s.partOf core)).waiting.any (fun w => w.saved && w.members.contains key)
  if !thas (s.part (s.partOf core)).launches (recLn (leNat rec)) then dropHead r "record discarded" s
  else if !thas s.ctxs key || c.ended || c.killing || c.slot.isSome || out then dropHead r "record dropped" s
  else
    match c.loc with
    | .none => dropHead r "record dropped" s
    | .spilling .. | .filling .. => s
    | loc =>
      if loc = .frame core f then runOn core slot key (take s)
      else
        match s.freeFrame core with
        | none => s
        | some free =>
          match (match loc with | .hbm image => snoopRange image 4096 false s | _ => (true, s)) with
          | (false, s) => s
          | (true, s) =>
            match s.wsLostAt loc with
            | some a => fatalLost key core a (take s)
            | none => runOn core slot key (bringIn key core free (take s))

/-- A record of KIND 1 with FR = 0 at the head of a ready ring: discarded, forwarded, or dispatched (R227, R233).
DEDUCED: log 40. -/
def dispatchCodelet (core slot : Nat) (rec : List Byte) (s : State) : State :=
  let p := s.partOf core
  let cl := clusterOf core
  let ln := recLn (leNat rec)
  let r := RingId.ready core
  if !thas (s.part p).launches ln then dropHead r "record discarded" s
  else if !s.codeletIn p ln cl then
    match dequeue r s, maskClusters (tget (s.part p).launches ln).cmask with
    | some (rec, st, s), c :: _ =>
      sendRecord (.ready (c * 8 + core % 8)) rec none st (dispatchSender core) false (s.logEvent "record moved" ln)
    | _, _ => s
  else
    match s.freeFrame core with
    | none => s
    | some f =>
      match dequeue r s with
      | some (rec, st, s) => startCodelet core slot f none 0 rec st s
      | none => s

/-- The head of a stage queue: an item is dispatched, an end-of-stream record is held by the core (R235, R238).
DEDUCED: log 42. -/
def dispatchStage (core slot k : Nat) (s : State) : State :=
  let cl := clusterOf core
  let p := s.partOf core
  let r := RingId.stage cl k
  match s.peekRing r with
  | none => s
  | some (_, rec) =>
    let h := leNat rec % 2 ^ 64
    if recKind h = 3 then
      match dequeue r s with
      | none => s
      | some (_, _, s) =>
        let running := (s.ctxs.filter (fun c => c.2.stage = some k && c.2.cluster = cl && !c.2.ended)).map Prod.fst
        s.modCluster cl (fun c => { c with gov := { c.gov with eosHeld := c.gov.eosHeld ++ [(core, k, running)] } })
    else if recKind h ≠ 4 || !recordShape h 0 then dropHead r "record dropped" s
    else if !s.codeletIn p (recLn h) cl then dropHead r "record discarded" s
    else
      match s.freeFrame core, s.govTable cl with
      | some f, some gt =>
        let entry := BitVec.ofNat 64 (s.clusterRd cl (stageEntry gt k) 8)
        match dequeue r s with
        | some (rec, st, s) => startCodelet core slot f (some k) entry rec st s
        | none => s
      | _, _ => s

/-- `RING_DISPATCH` (R233): a free named slot takes the head of the ready ring, else of the core's stage queue. A record that
no dispatch of a ready ring takes, one of KIND 3 or 4 that a `decr` readied among them, is dropped. DESIGN CHOICE: log 62. -/
def execRingDispatch (core : Nat) (s : State) : Out :=
  match s.freeNamed core with
  | [] => ok s
  | slot :: _ =>
    if s.halted (clusterOf core) then ok s
    else
      match s.peekRing (.ready core) with
      | some (_, rec) =>
        let h := leNat rec % 2 ^ 64
        if recKind h ≠ 1 || !recordShape h (leNat rec / 2 ^ 64 % 2 ^ 64) then ok (dropHead (.ready core) "record dropped" s)
        else if recFr h then ok (dispatchFrame core slot rec s)
        else ok (dispatchCodelet core slot rec s)
      | none =>
        match s.stageOf core with
        | some k => ok (dispatchStage core slot k s)
        | none => ok s

/-- `EOS_FORWARD` (R238): the earlier items have ended, and the record moves to the next stage or fills EOSFE. -/
def execEosForward (core : Nat) (s : State) : Out :=
  let cl := clusterOf core
  match (s.cluster cl).gov.eosHeld.find? (fun e => e.1 = core && e.2.2.isEmpty), s.govTable cl with
  | some e, some gt =>
    let s := s.modCluster cl (fun c => { c with gov := { c.gov with eosHeld := c.gov.eosHeld.erase e } })
    if e.2.1 + 1 < s.clusterRd cl gt 1 then
      ok (sendRecord (.stage cl (e.2.1 + 1)) eosRecord none {} (dispatchSender core) false s)
    else
      let fe := s.clusterRd cl (gt + 8) 8
      ok (fillAndWake (localPa (dectCore fe) (dectOff fe)) (s.gtOf core) core s)
  | _, _ => ok s

/-! ### The governor (R237) -/

/-- A stage as the governor samples it. -/
structure StageView where
  k : Nat
  occ : Nat
  high : Nat
  low : Nat
  minc : Nat
  cores : Nat
  deriving DecidableEq, Repr

def State.stageView (s : State) (cl gt k : Nat) : StageView :=
  let e := fun o n => s.clusterRd cl (stageEntry gt k + o) n
  { k := k, occ := (e 28 4 + 2 ^ 32 - e 24 4) % 2 ^ 32, high := e 16 4, low := e 20 4, minc := e 13 1, cores := e 32 1 }

/-- Stages by descending occupancy, or by ascending, the lower number first on equal occupancy. -/
def insertStage (before : StageView → StageView → Bool) (x : StageView) : List StageView → List StageView
  | [] => [x]
  | y :: r => if before x y then x :: y :: r else y :: insertStage before x r
def sortStages (before : StageView → StageView → Bool) (xs : List StageView) : List StageView :=
  xs.foldl (fun acc x => insertStage before x acc) []

/-- The units of a stage that HOLD lets move, highest first: cores, or whole quads that leave MINC cores. -/
def movable (gran hold now : Nat) (moves : List (Nat × Nat)) (d : StageView) : List (List Nat) :=
  let free := fun (c : Nat) => bit d.cores c && !moves.any (fun m => m.1 = c && decide (now < m.2 + hold * 1000))
  if gran = 0 then ((List.range 8).reverse.filter free).map (fun c => [c])
  else
    ([1, 0].map (fun q => (List.range 4).map (fun i => 4 * q + i))).filter (fun u =>
      u.all free && decide (d.minc + 4 ≤ popCount 8 d.cores))

/-- One move of the governor, for the busiest stages first. -/
def governorMove (cl gt now : Nat) (views : List StageView) : List StageView → State → State
  | [], s => s
  | x :: r, s =>
    if x.occ < x.high then s
    else
      let gran := s.clusterRd cl (gt + 1) 1
      let hold := s.clusterRd cl (gt + 4) 4
      let donors := sortStages (fun a b => decide (a.occ < b.occ))
        (views.filter (fun d => d.k ≠ x.k && decide (d.occ ≤ d.low) &&
          (if gran = 0 then decide (d.minc < popCount 8 d.cores)
           else [0, 1].any (fun q => bits d.cores (4 * q) 4 = 15 && decide (d.minc + 4 ≤ popCount 8 d.cores)))))
      match donors with
      | [] => governorMove cl gt now views r s
      | d :: _ =>
        match movable gran hold now (s.cluster cl).gov.lastMove d with
        | [] => s
        | u :: _ =>
          let m := u.foldl (fun a c => a + 2 ^ c) 0
          let s := s.wr (clusterPa cl (stageEntry gt d.k + 32)) 1 (d.cores - m)
          let s := s.wr (clusterPa cl (stageEntry gt x.k + 32)) 1 (x.cores + m)
          noteRing (.stage cl 0) (s.modCluster cl (fun c => { c with gov := { c.gov with
            lastMove := c.gov.lastMove.filter (fun e => !u.contains e.1) ++ u.map (fun c => (c, now)) } }))

/-- `GOVERNOR_SAMPLE` (R237). -/
def execGovernorSample (cluster : Nat) (s : State) : Out :=
  match s.govTable cluster with
  | none => ok s
  | some gt =>
    if s.halted cluster then ok s
    else
      let views := (List.range (s.clusterRd cluster gt 1)).map (s.stageView cluster gt)
      ok (governorMove cluster gt (s.gtOf (cluster * 8)) views
        (sortStages (fun a b => decide (b.occ < a.occ)) views) s)

/-! ### The balancer (R239) -/

/-- The used bytes of a core's ready ring. -/
def State.usedBytes (s : State) (core : Nat) : Nat := ((s.core core).rrTail + 2 ^ 32 - (s.core core).rrHead) % 2 ^ 32

/-- The pairs of cores that the balancer makes, at most a number of them, and their commands. DEDUCED: log 47. -/
def balancePairs (s : State) : Nat → List Nat → List (Nat × Nat × Nat)
  | 0, _ => []
  | _, [] => []
  | n + 1, c :: cs =>
    let donor := cs.foldl (fun m g => if s.usedBytes m < s.usedBytes g then g else m) c
    let receiver := cs.foldl (fun m g => if s.usedBytes g < s.usedBytes m then g else m) c
    let diff := s.usedBytes donor - s.usedBytes receiver
    if diff < 1024 then []
    else (donor, receiver, min 16 (diff / 256)) :: balancePairs s n ((c :: cs).filter (fun g => g ≠ donor && g ≠ receiver))

/-- `BALANCER_PASS` (R239): each partition of the die on its own, every ready ring of it; stopped while BALOFF is set (R269). -/
def execBalancerPass (die : Nat) (s : State) : Out :=
  if s.dev.baloff then ok s
  else
    ok ((List.range 4).foldl (fun s p =>
      let cores := (s.coresOf p).filter (fun g => dieOf g = die)
      (balancePairs s 8 cores).foldl (fun s m => s.send (.migrate m.1 m.2.1 m.2.2)) s) s)

/-- Up to `n` records leave the donor's head for the receiver, in order (R239). -/
def migrateRecords (donor receiver : Nat) : Nat → State → State
  | 0, s => s
  | n + 1, s =>
    match s.peekRing (.ready donor) with
    | none => s
    | some (_, rec) =>
      let h := leNat rec % 2 ^ 64
      if recKind h ≠ 1 || recFr h || !s.codeletIn (s.partOf receiver) (recLn h) (clusterOf receiver) then s
      else
        match dequeue (.ready donor) s with
        | none => s
        | some (rec, st, s) =>
          migrateRecords donor receiver n (sendRecord (.ready receiver) rec none st (dispatchSender donor) false s)

/-- `MIGRATION_COMMAND` (R239). -/
def execMigrationCommand (msg : Nat) (s : State) : Out :=
  match s.msg? msg with
  | some (.migrate donor receiver n) =>
    if s.halted (clusterOf donor) then ok s else ok (migrateRecords donor receiver n (s.drop msg))
  | _ => ok s

/-! ### Teams and launches (R224, R225, R227) -/

/-- `TEAM_PLACE` (R224). -/
def execTeamPlace (part : Nat) (s : State) : Out := ok ((placeHead part s).getD s)

/-- The contexts of a team that can be pre-empted now leave their slots (R225, R251). -/
def parkAll (ms : List Nat) (s : State) : State :=
  ms.foldl (fun s k =>
    if (s.ctx k).slot.isSome && s.canPreempt k && !(s.ctx k).killing then preempt k s else s) s

/-- A team whose members are all parked leaves its cluster (R192, R225): its pair goes to its domain record, and the
record to a block of the context-image pool. -/
def saveTeam (cluster entry team image : Nat) (s : State) : State :=
  let t := s.team cluster entry
  let s := setPair cluster entry t.afnext t.aflim s
  let record := s.rd (clusterPa cluster t.drec) 16
  let s := s.modPart t.part (fun x => { x with pool := x.pool.filter (· ≠ image) })
  let s := hwWrite image 16 record s
  let s := s.modCluster cluster (fun c => { c with teams := tdel c.teams entry })
  s.modPart t.part (fun x => { x with waiting := x.waiting ++
    [{ ln := t.ln, saved := true, team := team, domid := t.domid, image := image, members := t.members }] })

/-- `TEAM_SWAP_OUT` (R192, R225): QUANT has passed since placement while teams wait for a place. Its contexts leave their
slots as each can, and the team is saved once all have and a block of the image pool is free for its record; until one is,
it stays parked (R192). DEDUCED: log 30. DESIGN CHOICE: log 63. -/
def execTeamSwapOut (cluster entry : Nat) (s : State) : Out :=
  let t := s.team cluster entry
  let l := tget (s.part t.part).launches t.ln
  match t.team with
  | none => ok s
  | some u =>
    let due := !s.dev.bring && !(s.part t.part).waiting.isEmpty &&
      decide (t.placed + l.quant * 1000 ≤ s.gtOf (cluster * 8))
    if t.members.isEmpty || s.halted cluster || !(t.leaving || due) then ok s
    else
      let s := parkAll t.members (s.setTeam cluster entry { t with leaving := true })
      let parked := t.members.all (fun k => (s.ctx k).slot.isNone && !(s.ctx k).killing && s.delivers k)
      match parked, (s.part t.part).pool with
      | true, image :: _ =>
        let s := saveTeam cluster entry u image s
        ok ((placeHead t.part s).getD s)
      | _, _ => ok s

/-- `TEAM_END` (R227): the entry and the DOMID are free, and the head of the queue is placed at once. -/
def execTeamEnd (cluster entry : Nat) (s : State) : Out :=
  let t := s.team cluster entry
  if thas (s.cluster cluster).teams entry && t.team.isSome && t.members.isEmpty then
    let s := s.modCluster cluster (fun c => { c with teams := tdel c.teams entry })
    ok ((placeHead t.part s).getD s)
  else ok s

/-- The records from the head of a ring to its tail. -/
def ringRecords (s : State) (v : RingView) : Nat → Nat → List Nat
  | 0, _ => []
  | fuel + 1, head =>
    if head = v.tail then []
    else
      let h := s.rd (v.base + head % v.size) 8
      h :: ringRecords s v fuel ((head + recLen h) % 2 ^ 32)

/-- A record of a launch, by its header: LN of KIND 1 or 4. -/
def recordOf (ln h : Nat) : Bool := (recKind h = 1 || recKind h = 4) && recLn h = ln

/-- A ring that holds a record of a launch; in a stage queue of its governor, any record (R236). -/
def State.ringHolds (s : State) (r : RingId) (ln : Nat) : Bool :=
  match s.ring r with
  | none => false
  | some v =>
    match r with
    | .ready _ => (ringRecords s v (v.size / 16) v.head).any (recordOf ln)
    | .stage .. => v.head ≠ v.tail

/-- The clusters whose governor a launch holds. -/
def State.govClusters (s : State) (p ln : Nat) : List Nat :=
  (s.clusters.filter (fun c => c.2.gov.ln = some (p, ln))).map Prod.fst

/-- A record on its way that belongs to a launch: by its header, or by the stage queue it goes to. -/
def State.recordFor (s : State) (p ln target : Nat) (rec : List Byte) : Bool :=
  match RingId.ofTarget target with
  | .ready g => s.partOf g = p && recordOf ln (leNat rec)
  | .stage cl _ => (s.cluster cl).gov.ln = some (p, ln)

/-- Nothing of a launch is left: contexts, teams, records in rings, records on their way (R227). -/
def State.launchOver (s : State) (p ln : Nat) : Bool :=
  !s.ctxs.any (fun c => c.1 / 2 ^ 24 = p && c.2.ln = ln && !c.2.ended) &&
  !(s.part p).waiting.any (fun w => w.ln = ln) &&
  !s.clusters.any (fun c => c.2.teams.any (fun t => t.2.part = p && t.2.ln = ln && t.2.team.isSome)) &&
  !(tkeys s.cores).any (fun g => s.partOf g = p && s.ringHolds (.ready g) ln) &&
  !(s.govClusters p ln).any (fun cl => (List.range 4).any (fun k => s.ringHolds (.stage cl k) ln) ||
    !(s.cluster cl).gov.eosHeld.isEmpty) &&
  !s.held.any (fun h => s.recordFor p ln h.target h.bytes) &&
  !(s.net ++ s.heldBeats).any (fun m => match m.body with
    | .record t b _ _ _ _ => s.recordFor p ln t b
    | _ => false)

/-- A launch's command: complete, or waiting for the acknowledgements of peers that its release at `.sys` covers
(R266). -/
def endLaunchCommand (part : Nat) (l : Launch) (s : State) : State :=
  match l.command with
  | none => s
  | some (q, _) =>
    if l.peers.isEmpty then cmdDone part q 0 s
    else s.setQueue part q { s.queue part q with ended := true, peers := l.peers }

/-- `LAUNCH_END` (R227): its release at `.dev` covers the writes of all its contexts; then DONE is filled with the end GT,
and LN and the codelet teams are free. -/
def execLaunchEnd (part ln : Nat) (s : State) : Out :=
  let l := tget (s.part part).launches ln
  if !thas (s.part part).launches ln || !s.launchOver part ln || decide (s.gt (partDie part) < l.vt) then ok s
  else
    let s := if l.done = 0 then s
      else fillAndWake (localPa (dectCore l.done.toNat) (dectOff l.done.toNat)) (s.gtOf (dectCore l.done.toNat)) 0x3000 s
    let s := { s with clusters := s.clusters.map (fun (c : Nat × Cluster) =>
      (c.1, { c.2 with teams := c.2.teams.filter (fun t => !(t.2.part = part && t.2.ln = ln))
                       gov := if c.2.gov.ln = some (part, ln) then {} else c.2.gov })) }
    ok (endLaunchCommand part l (s.modPart part (fun x => { x with launches := tdel x.launches ln })))

end Sys2Proof.Machine
end

