-- ==== Sys2Proof/Machine/Resets.lean ====
section
/-! DEFINITION. Lost lines (R31, R256), the resets of the watchdog ladder (R12, R268), power and links (R262, R273) and
alarms (R272). -/

namespace Sys2Proof.Machine

open Sys2Proof

/-! ### Errors of memory (R31, R256) -/

/-- `SCRUB_VISIT` (R31): a correctable error, where the visit meets one, is corrected and counted; whether it meets one
is open (assumption log 9). DESIGN CHOICE: log 9. -/
def execScrubVisit (line : Nat) (s : State) : Out :=
  match regionOf (line * 128) with
  | .hbm _ =>
    match s.choose 2 with
    | (n, s) => ok (s.modBank (s.bankOf (line * 128)) (fun b => { b with corrected := b.corrected + n }))
  | _ => ok s

/-- `UNCORRECTABLE_ERROR` (R256): the line is lost and retired, with a log entry. -/
def execUncorrectableError (line : Nat) (s : State) : Out :=
  match regionOf (line * 128) with
  | .hbm _ => ok ((s.modLine line (fun x => { x with lost := true })).logEvent "line lost" line)
  | .local _ => ok ({ s with lostLocal := if s.lostLocal.contains line then s.lostLocal else feIns s.lostLocal line }.logEvent "line lost" line)
  | _ => ok s

/-! ### The resets (R268) -/

/-- A context of a unit that is reset is killed (R258, R268): it leaves its slot at once, and ends when the work that is
granted to it elsewhere has finished. A spill or a fill that was under way ends where it began. DESIGN CHOICE: log 49. -/
def resetKill (why : KillCause) (key : Nat) (s : State) : State :=
  if !thas s.ctxs key || (s.ctx key).ended then s
  else
    let s := { s with held := s.held.filter (fun h => h.ctx ≠ some key) }
    let s := match (s.ctx key).loc with
      | .spilling g f img => setLoc key (.frame g f) (s.modPart (key / 2 ^ 24) (fun p => { p with pool := p.pool ++ [img] }))
      | .filling _ _ img => setLoc key (.hbm img) s
      | _ => s
    let s := s.modPart (key / 2 ^ 24) (fun p => { p with fatal := p.fatal.filter (fun r => r.ctx ≠ key) })
    let s := releaseDeliveries key (wakeTransit key (withdrawEntries key s))
    let s := match (s.ctx key).slot with
      | some k => emptySlot k s
      | none => s
    let s := (markKill key s).modCtx key (fun c => { c with slot := none, why := why, wait := some { block := .ending } })
    if s.killReady key then finishKill key s else s

/-- The lines of a holder that is reset go to their homes: tokens are never destroyed (R49). DESIGN CHOICE: log 49. -/
def returnLines (h : Nat) (s : State) : State :=
  (tget s.copies h).foldl (fun s (e : Nat × Copy) =>
    let s := (deactivate h e.1 (windowSpill h e.2 s)).delCopy h e.1
    if e.2.tokens = 0 then s
    else joinHome e.1 e.2.tokens e.2.owner e.2.dirty (e.2.data.map (·.toNat)) e.2.stamp s) s

/-- The holders that lie in a core: its L1 and its window lines. -/
def State.coreHolders (s : State) (core : Nat) : List Nat :=
  (tkeys s.copies).filter (fun h => h ≠ bridge && holderCore h = core)

/-- A core reset (R12, R102, R268): its contexts end, its caches return their tokens, its registers take their reset
values. DESIGN CHOICE: log 49. -/
def resetCore (why : KillCause) (core : Nat) (s : State) : State :=
  let s := (s.ctxsOfCore core).foldl (fun s k => resetKill why k s) s
  let s := (s.coreHolders core).foldl (fun s h => returnLines h s) s
  let lo := localPa core 0
  let s := { s with
    fe := s.fe.filter (fun d => d * 8 < lo || lo + 0x100000 ≤ d * 8)
    held := s.held.filter (fun h => h.sender ≠ dispatchSender core) }
  let s := s.modCluster (clusterOf core) (fun c =>
    { c with gov := { c.gov with eosHeld := c.gov.eosHeld.filter (fun e => e.1 ≠ core) } })
  let s := s.setCore core { rotBase := s.cycle, lastIssue := s.cycle }
  (List.range 16).foldl (fun s k => s.setSlot (core * 16 + k) { searchFrom := some (s.gtOf core) }) s

/-- The cluster that holds a beat (R277). -/
def State.beatCluster (s : State) (b : MsgBody) : Option Nat :=
  match b with
  | .record target _ _ _ _ _ =>
    (match RingId.ofTarget target with | .ready g => some (clusterOf g) | .stage cl _ => some cl)
  | .fill pa _ _ | .poke pa _ _ => (match regionOf pa with | .local g => some (clusterOf g) | _ => none)
  | .decr d _ _ => some (clusterOf (dectCore d))
  | .access key => (match s.waitOf key with | some (.halted cl) => some cl | _ => none)
  | .deposit key .. | .drainFlags key .. | .pushAck key .. =>
    (match (s.ctx key).loc with | .frame g _ => some (clusterOf g) | _ => none)
  | _ => none

/-- A command that a reset ends (assumption log 4): its effects stop, and it completes with FAULT.
DESIGN CHOICE: log 49. -/
def failCommand (p : Nat) (c : Option (Nat × Nat)) (s : State) : State :=
  match c with
  | some (q, _) => cmdDone p q 4 s
  | none => s

/-- The contexts of a cluster's teams, wherever their workspaces lie. -/
def State.ctxsOfCluster (s : State) (cl : Nat) : List Nat :=
  (tkeys s.ctxs).filter (fun k => (s.ctx k).cluster = cl && (s.teamOf k).members.contains k)

/-- A cluster reset (R268, R274): its cores, its Eland units, its copy engine, its rendezvous table, its debug module and
the pairs of its team table (R139). DESIGN CHOICE: log 49. -/
def resetCluster (why : KillCause) (cl : Nat) (s : State) : State :=
  let cmds := (s.cluster cl).chans.flatMap (fun c => c.2.ops.filterMap (fun o => o.command))
  let p := s.partOf (cl * 8)
  let s := (s.setQuad (2 * cl) {}).setQuad (2 * cl + 1) {}
  let s := (List.range 8).foldl (fun s i => resetCore why (cl * 8 + i) s) s
  let s := (s.ctxsOfCluster cl).foldl (fun s k => resetKill why k s) s
  let s := s.modCluster cl (fun c =>
    { c with rdv := [], chans := [], tls := [], dbg := {}, tlb := [], gov := { c.gov with lastMove := [], eosHeld := [] }
             teams := c.teams.map (fun t => (t.1, { t.2 with afnext := 0, aflim := 0 })) })
  let s := cmds.foldl (fun s c => failCommand p (some c) s) s
  let s := { s with heldBeats := s.heldBeats.filter (fun m => s.beatCluster m.body ≠ some cl) }
  wake (fun _ w => w.block = .halted cl) s

/-- The clusters of a partition. -/
def State.clustersOf (s : State) (p : Nat) : List Nat := (List.range 48).filter (fun cl => s.partOf (cl * 8) = p)

/-- A message of the queues of records, or of the balancer, within a partition. -/
def State.recordIn (s : State) (p : Nat) (b : MsgBody) : Bool :=
  match b with
  | .record t _ _ _ _ _ => (match RingId.ofTarget t with | .ready g => s.partOf g = p | .stage cl _ => s.partOf (cl * 8) = p)
  | .migrate d _ _ => s.partOf d = p
  | _ => false

/-- A partition reset (R258, R268): every context of it ends, and its launches with their commands.
DESIGN CHOICE: log 49. -/
def resetPartition (p : Nat) (s : State) : State :=
  let s := (s.clustersOf p).foldl (fun s cl => resetCluster .partition cl s) s
  let s := ((tkeys s.ctxs).filter (fun k => k / 2 ^ 24 = p)).foldl (fun s k => resetKill .partition k s) s
  let s := { s with
    net := s.net.filter (fun m => !s.recordIn p m.body)
    held := s.held.filter (fun h => !s.recordIn p (.record h.target [] none {} 0 false))
    clusters := s.clusters.map (fun (c : Nat × Cluster) =>
      if s.partOf (c.1 * 8) = p then (c.1, { c.2 with teams := [], gov := {} }) else c) }
  let cmds := (s.part p).launches.map (fun l => l.2.command)
  let s := s.modPart p (fun x => { x with launches := [], waiting := [], fatal := []
                                          pool := x.pool ++ (x.waiting.filter (·.saved)).map (·.image) })
  cmds.foldl (fun s c => failCommand p c s) s

/-- A device reset (R12, R49, R267, R268, R271): every unit at its Reset column, with the host link, the straps, the
fuses and the contents of memory as they are; the current value of every line is at its home. DESIGN CHOICE: log 49. -/
def resetDevice (s : State) : State :=
  let s := (tkeys s.copies).foldl (fun s h => returnLines h s) s
  let s := s.net.foldl (fun s m =>
    match ownerData m.body with
    | some (l, d) => s.wr (l * 128) 128 d
    | none => s) s
  { State.reset with
    mem := s.mem
    lines := (s.lines.filter (fun e => e.2.lost)).map (fun e => (e.1, { lost := true }))
    lostLocal := s.lostLocal
    dev := { s.dev with
      qcfg := 4, thr := 0, seca := false, alarms := 0, keys := true, baloff := false, bring := true
      highSince := none, lowSince := none, staging := none, patch := none, bar2 := none, snoopers := [] }
    agenda := s.agenda, todo := [], turnCore := s.turnCore, turnSlot := s.turnSlot, closing := s.closing, free := s.free
    nextId := s.nextId }
where
  /-- The data that travels with an owner token. -/
  ownerData : MsgBody → Option (Nat × Nat)
    | .tokens _ l _ owner _ data _ _ => if owner then data.map (fun d => (l, d)) else none
    | .writeBack _ l _ owner _ data _ _ => if owner then data.map (fun d => (l, d)) else none
    | _ => none

def execCoreReset (core : Nat) (s : State) : Out := ok (if core < 384 then resetCore .reset core s else s)
def execClusterReset (cluster : Nat) (s : State) : Out := ok (if cluster < 48 then resetCluster .reset cluster s else s)
def execPartitionReset (part : Nat) (s : State) : Out := ok (resetPartition part s)
def execDeviceReset (s : State) : Out := ok (resetDevice s)

/-- `POWER_ON` (R12, R262, R269): the strap is latched, the fuse stays as it was blown, and every unit is at its Reset
column; memory holds what assumption log 6 says. DESIGN CHOICE: log 49. -/
def execPowerOn (cxlen : Bool) (s : State) : Out :=
  ok { State.reset with
    dev := { ({} : Device) with cxlen := cxlen, cxl := cxlen, idgone := s.dev.idgone }
    agenda := s.agenda, turnCore := s.turnCore, turnSlot := s.turnSlot, closing := s.closing, free := s.free
    nextId := s.nextId }

/-- `LINK_TRAINING` (R262): as the strap selects. -/
def execLinkTraining (s : State) : Out :=
  ok { s with dev := { s.dev with trained := true, trainedCxl := s.dev.cxlen, cxl := s.dev.cxlen } }

/-! ### Power, heat, alarms (R272, R273) -/

/-- A die at or above 105 C. -/
def State.hot (s : State) : Bool := s.dies.any (fun d => d.2.hot)

/-- `POWER_SAMPLE` (R273): above 3,400 W for 100 us THR rises by one level; below 3,200 W for 1 ms it falls, but not
while a die's heat forces it. -/
def execPowerSample (watts : Nat) (s : State) : Out :=
  let d := s.dev
  let now := s.refGt
  if 3400 < watts then
    let t := d.highSince.getD now
    if t + 100000 ≤ now then
      ok { s with dev := { d with thr := if d.thr = 3 then 3 else d.thr + 1, highSince := some now, lowSince := none } }
    else ok { s with dev := { d with highSince := some t, lowSince := none } }
  else if watts < 3200 then
    let t := d.lowSince.getD now
    if t + 1000000 ≤ now then
      ok { s with dev := { d with thr := if d.thr = 0 ∨ s.hot then d.thr else d.thr - 1, highSince := none, lowSince := some now } }
    else ok { s with dev := { d with highSince := none, lowSince := some t } }
  else ok { s with dev := { d with highSince := none, lowSince := none } }

/-- `THERMAL_LIMIT` (R273): at 105 C a die forces THR to 3; at 115 C power is removed. -/
def execThermalLimit (die celsius : Nat) (s : State) : Out :=
  let s := s.modDie die (fun d => { d with hot := decide (105 ≤ celsius) })
  let s := if 105 ≤ celsius then { s with dev := { s.dev with thr := 3 } } else s
  ok (if 115 ≤ celsius then { s with dev := { s.dev with powered := false } } else s)

/-- `SECURITY_ALARM` (R272): the first erases the volatile keys and sets SECA; a second before the next device reset
blows the erase fuse. -/
def execSecurityAlarm (s : State) : Out :=
  let d := s.dev
  ok { s with dev := { d with keys := false, seca := true, alarms := d.alarms + 1, idgone := d.idgone || d.seca } }

end Sys2Proof.Machine
end

