-- ==== Sys2Proof/Machine/Dump.lean ====
section
/-! DEFINITION. Dumps of fatal contexts (R259 to R261) and rung 1 of the watchdog ladder (R268). -/

namespace Sys2Proof.Machine

open Sys2Proof

/-- The dump record of R260 as one number, with its length in bytes. -/
def dumpRecord (r : FatalRec) (ln : Nat) : Nat × Nat :=
  let nest := r.nested.length
  let len := 4416 + 264 * nest
  let hdr := len % 2 ^ 16 + 2 ^ 16 + nest % 16 * 2 ^ 24 + b2n r.trunc * 2 ^ 28 + b2n r.queued * 2 ^ 29
  let ctxn := r.frame / 2 ^ (8 * offCtxn) % 2 ^ 64
  let fault := setBits r.record 16 4 nest
  let nested := r.nested.foldr (fun (e : Nat × Nat) acc => e.1 % 2 ^ 64 + 2 ^ 64 * (e.2 % 2 ^ 2048) + 2 ^ 2112 * acc) 0
  (len, hdr + ctxn * 2 ^ 64 + ((r.locid + ln * 2 ^ 56) % 2 ^ 64) * 2 ^ 128 + r.gt % 2 ^ 64 * 2 ^ 192
    + fault % 2 ^ 2048 * 2 ^ 512 + r.frame % 2 ^ 32768 * 2 ^ 2560 + nested * 2 ^ 35328)

/-- The place of a line of the dump area (R261): none for a page fault, or for a lost line that a partial write would
have to read. DESIGN CHOICE: log 45. -/
def dumpPlace (core : Nat) (pt : Word) (va n : Nat) (s : State) : Option (Option Nat) × State :=
  match xlateChecked core pt true (va % 2 ^ 64) accWrite { w := true } s with
  | (.ok l, s) =>
    let pa := l.phys (va % 2 ^ 57)
    let lost := match regionOf pa with
      | .hbm _ => (s.line (pa / 128)).lost && n ≠ 128
      | .local _ => (s.lostIn pa n).isSome && n ≠ 128
      | _ => false
    (some (if lost then none else some pa), s)
  | (.trap _, s) => (some none, s)
  | (.held, s) | (.snoop .., s) => (none, s)

/-- The record written up to the first fault, one line at a time: whether it was written whole. -/
def dumpWrite (core : Nat) (pt : Word) : Nat → Nat → Nat → Nat → State → Option Bool × State
  | 0, _, _, _, s => (some true, s)
  | k + 1, va, n, v, s =>
    if n = 0 then (some true, s)
    else
      let m := min n (128 - va % 128)
      match dumpPlace core pt va m s with
      | (some (some pa), s) => dumpWrite core pt k (va + m) (n - m) (v / 2 ^ (8 * m)) (hwWrite pa m (v % 2 ^ (8 * m)) s)
      | (some none, s) => (some false, s)
      | (none, s) => (none, s)

/-- TRUNC set in a header that can still be written (R261). -/
def markTrunc (core : Nat) (pt : Word) (va hdr : Nat) (s : State) : State :=
  match dumpPlace core pt va 8 s with
  | (some (some pa), s) => hwWrite pa 8 (setBits (hdr % 2 ^ 64) 28 1 1) s
  | (_, s) => s

/-- A fatal context's dump is over: its frame and number are free. -/
def endDump (p key : Nat) (s : State) : State :=
  finishKill key (dropWait key (s.modPart p (fun x => { x with fatal := x.fatal.filter (fun r => r.ctx ≠ key) })))

/-- `FATAL_DUMP` (R259 to R261): the record of the context that has been fatal longest is written, once its granted work
has finished, and the context ends; the frames of a halted cluster stay as they are (R277). A fault in the dump area takes the next rung: a core reset.
DESIGN CHOICE: log 45. -/
def execFatalDump (part : Nat) (s : State) : Out :=
  match (s.part part).fatal with
  | [] => ok s
  | r :: _ =>
    if !thas s.ctxs r.ctx || (s.ctx r.ctx).ended then
      ok (s.modPart part (fun x => { x with fatal := x.fatal.drop 1 }))
    else if !s.killReady r.ctx || s.ctxHalted r.ctx then ok s
    else
      let core := match (s.ctx r.ctx).loc with
        | .frame g _ => g
        | _ => (s.ctx r.ctx).cluster * 8
      let d := dumpRecord r (s.ctx r.ctx).ln
      match (s.part part).dumpArea with
      | none => ok (endDump part r.ctx s)
      | some (base, size, pt) =>
        let at0 := base + (s.part part).dumpNext
        if size < (s.part part).dumpNext + d.1 then ok (endDump part r.ctx s)
        else
          match dumpWrite core pt (d.1 / 128 + 2) at0 d.1 d.2 s with
          | (none, s) => ok s
          | (some true, s) =>
            let s := s.modPart part (fun x => { x with dumpNext := x.dumpNext + d.1 })
            ok (endDump part r.ctx (s.logEvent "dump" r.ctx))
          | (some false, s) =>
            let s := (markTrunc core pt at0 d.2 s).modPart part (fun x => { x with dumpNext := x.dumpNext + d.1 })
            ok (resetCore .reset core (endDump part r.ctx (s.logEvent "dump truncated" r.ctx)))

/-- A wait for a memory, translation or home reply (R268). -/
def Block.isReply : Block → Bool
  | .walk .. | .recheck | .line .. | .reply .. | .snoop .. | .unmap .. | .acks .. => true
  | _ => false

/-- The trigger of rung 1 for a slot (R268). -/
def State.slotExpired (s : State) (core slot : Nat) : Bool :=
  let now := s.gtOf core
  let c := s.core core
  let holds := s.dev.bring && c.turnHolder = some slot && decide (c.turnSince + 100000000 ≤ now)
  let waits := s.ctxs.any (fun e => e.2.slot = some (core * 16 + slot) && !e.2.killing &&
    (match e.2.wait with
     | some w => w.block.isReply && decide (w.since + 100000000 ≤ now)
     | none => false))
  holds || waits

/-- `WATCHDOG_SLOT_KILL` (R259, R268): the slot's context is fatal with `#WDOG`; it does not count the time that its
cluster is halted (R277). -/
def execWatchdogSlotKill (core slot : Nat) (s : State) : Out :=
  if s.halted (clusterOf core) || !s.slotExpired core slot then ok s
  else
    match s.ctxs.find? (fun e => e.2.slot = some (core * 16 + slot)) with
    | none => ok s
    | some (key, _) =>
      let now := s.gtOf core
      let t : TrapInfo := { cause := .wdog, info0 := now }
      let pc := match s.baseOf key with
        | some b => s.ws b offPc
        | none => 0
      let s := fatal key core slot (packFields (t.fields pc pc now)) now s
      ok ((s.modCtx key (fun c => { c with why := .watchdog })).yieldTurns core (core * 16 + slot))

end Sys2Proof.Machine
end

