-- ==== Sys2Proof/Machine/DebugUnit.lean ====
section
/-! DEFINITION. The debug modules (R274 to R278), message logs (R279, R280), profiling (R282, R283) and the writes of the
device register window. -/

namespace Sys2Proof.Machine

open Sys2Proof

/-! ### Halting (R275) -/

/-- A wait whose end a halt waits for: work that has been issued, granted or requested (R275). -/
def Block.settles : Block → Bool
  | .div .. | .walk .. | .recheck | .line .. | .reply .. | .snoop .. | .unmap .. | .acks .. | .pushPend | .release .. | .peerAcks _
  | .eland .. | .granted .. | .transit _ | .fillOf _ | .spillOf _ => true
  | _ => false

/-- Everything that was issued in a cluster has settled (R275). -/
def State.settled (s : State) (cl : Nat) : Bool :=
  !s.ctxs.any (fun e =>
    (match e.2.slot with | some k => decide (clusterOf (k / 16) = cl) | none => false) &&
    (match e.2.wait with | some w => w.block.settles | none => false)) &&
  (List.range 8).all (fun i =>
    let c := s.core (cl * 8 + i)
    c.vlist.isEmpty && c.tlist.isEmpty && !c.seq.placed && c.seq.outstanding.isEmpty) &&
  (s.quad (2 * cl)).granted.isEmpty && (s.quad (2 * cl + 1)).granted.isEmpty

/-- `DBGCTL_HALT` (R274, R275): ignored unless STATE is 0. -/
def execDbgctlHalt (cluster : Nat) (s : State) : Out := ok (haltCluster cluster s)

/-- `CROSS_TRIGGER` (R275): the halt of another cluster has driven the line, and a running cluster with XIN halts with
it. One halt drives it once. -/
def execCrossTrigger (cluster : Nat) (s : State) : Out :=
  if (s.cluster cluster).dbg.trigger then
    ok (haltCluster cluster (s.modCluster cluster (fun c => { c with dbg := { c.dbg with trigger := false } })))
  else ok s

/-- `HALT_SETTLED` (R275): STATE becomes 2. -/
def execHaltSettled (cluster : Nat) (s : State) : Out :=
  if (s.cluster cluster).dbg.state = 1 && s.settled cluster then
    ok (s.modCluster cluster (fun c => { c with dbg := { c.dbg with state := 2 } }))
  else ok s

/-! ### Resuming (R278) -/

/-- The state that an outcome gives, or the one before it. -/
def Out.orElse (o : Out) (s : State) : State :=
  match o with
  | .next s => s
  | _ => s

/-- A held beat applied (R278). DEDUCED: log 44. -/
def applyBeat (m : Msg) (s : State) : State :=
  let again := fun (f : Nat → State → Out) =>
    let s := { s with net := s.net ++ [m] }
    Out.orElse (f m.id s) s
  match m.body with
  | .record .. => again execRingEnqueue
  | .deposit .. => again execDepositDelivery
  | .drainFlags .. => again execDrainFlagDeposit
  | .pushAck .. => again execPushAckArrival
  | .access key => resume false key s
  | .fill pa v src => fillAndWake pa v src s
  | .poke pa n v => hwWrite pa n v s
  | .decr d ts sender => (decrement d ts none sender false s).2
  | _ => s

/-- The times that a halted cluster does not count (R277): the time slice, HOLD, and rungs 1 and 2. -/
def skipHalt (cl d : Nat) (s : State) : State :=
  let s := s.modCluster cl (fun c =>
    { c with teams := c.teams.map (fun t => (t.1, { t.2 with placed := t.2.placed + d }))
             gov := { c.gov with lastMove := c.gov.lastMove.map (fun m => (m.1, m.2 + d)) } })
  let s := (List.range 8).foldl (fun s i =>
    s.modCore (cl * 8 + i) (fun c => { c with turnSince := c.turnSince + d, lastIssue := s.cycle, stuckFrom := none })) s
  { s with ctxs := s.ctxs.map (fun (e : Nat × Ctx) =>
    (e.1,
      if e.2.cluster = cl then
        { e.2 with wait := e.2.wait.map (fun w => { w with since := w.since + d }), killGt := e.2.killGt + d }
      else e.2)) }

/-- `DBGCTL_RESUME` (R278): ignored unless STATE is 2; the held beats are applied in order of arrival, the cores issue
again, and STATE returns to 0. DEDUCED: log 44. -/
def execDbgctlResume (cluster : Nat) (s : State) : Out :=
  let d := (s.cluster cluster).dbg
  if d.state ≠ 2 then ok s
  else
    let s := s.modCluster cluster (fun c => { c with dbg := { d with state := 3 } })
    let beats := s.heldBeats.filter (fun m => s.beatCluster m.body = some cluster)
    let s := { s with heldBeats := s.heldBeats.filter (fun m => s.beatCluster m.body ≠ some cluster) }
    let s := beats.foldl (fun s m => applyBeat m s) s
    let s := skipHalt cluster (s.gtOf (cluster * 8) - d.haltedAt) s
    ok (s.modCluster cluster (fun c => { c with dbg := { c.dbg with state := 0 } }))

/-! ### Logs and profiling (R279 to R283) -/

/-- `NILOG` written (R279): a write of EN = 1 starts the log at the area's base. -/
def writeNilog (core v : Nat) (s : State) : State :=
  s.modCore core (fun c =>
    { c with log := { base := bits v 12 40 * 4096, size := satTo (bits v 2 5) 14, ovf := c.log.ovf && !bit v 1
                      en := bit v 0, seq := if bit v 0 then 0 else c.log.seq } })

/-- `NILOG_ENABLE` (R279): a write that leaves EN at 0 stops the log. -/
def execNilogEnable (core : Nat) (value : Word) (s : State) : Out := ok (writeNilog core value.toNat s)

/-- `ACCOUNTING_COUNTER_READ` (R282): read and cleared. -/
def execAccountingCounterRead (core : Nat) (which : AcctReg) (s : State) : Out :=
  let c := s.core core
  match which with
  | .waitns => ok (answer c.waitns (s.setCore core { c with waitns := 0 }))
  | .runns => ok (answer c.runns (s.setCore core { c with runns := 0 }))
  | .searchns => ok (answer c.searchns (s.setCore core { c with searchns := 0 }))
  | .stealfail => ok (answer c.stealfail (s.setCore core { c with stealfail := 0 }))
  | .stealok => ok (answer c.stealok (s.setCore core { c with stealok := 0 }))

/-- The 32 cores of a droop detector's clusters, in ascending order (R283). -/
def droopCores (die detector : Nat) : List Nat := (List.range 32).map (fun i => (24 * die + 4 * detector) * 8 + i)

/-- The 272 bytes of a droop sample (R283). DESIGN CHOICE: log 46. -/
def droopSample (s : State) (die detector : Nat) : Nat :=
  let pcs := (droopCores die detector).foldr (fun g acc => (s.core g).lastPc % 2 ^ 64 + 2 ^ 64 * acc) 0
  s.gt die + (detector + die * 2 ^ 32) * 2 ^ 64 + pcs * 2 ^ 128

/-- `DROOP_TRIP` (R283): one sample, unless the detector wrote one within 10 us. -/
def execDroopTrip (die detector : Nat) (s : State) : Out :=
  let d := s.die die
  let last := tget d.droopLast detector
  if 6 ≤ detector || (last ≠ 0 && decide (s.gt die < last - 1 + 10000)) then ok s
  else
    let s := hwWrite d.droopArea 272 (droopSample s die detector) s
    ok (s.modDie die (fun x => { x with droopLast := tset x.droopLast detector (s.gt die + 1) }))

/-! ### The device register window (R11, R13, R274) -/

/-- `DBGCTL` written (R274): its fields, then HALT and RESUME. -/
def writeDbgctl (cl v : Nat) (s : State) : State :=
  let s := s.modCluster cl (fun c =>
    { c with dbg := { c.dbg with xin := bit v 5, xout := bit v 4, brkclaim := bit v 3 } })
  let s := if bit v 0 then haltCluster cl s else s
  if bit v 1 then Out.orElse (execDbgctlResume cl s) s else s

/-- A register of a core written through the window: as `mts` stores it, without its conditions of privilege. -/
def writeCoreReg (core : Nat) (r : SysReg) (v : Nat) (s : State) : State :=
  match r with
  | .pushq => writePushq core v s
  | .lmcfg => writeFrames core (clampFrames v) s
  | .rrcfg => writeRrcfg core v s
  | .pushref => s.modCore core (fun c => { c with pushref := v % 2 ^ 32 })
  | .rrref => s.modCore core (fun c => { c with rrref := v % 2 ^ 32 })
  | .rtab0 => s.modCore core (fun c => { c with rtab0 := BitVec.ofNat 64 v })
  | .rtab1 => s.modCore core (fun c => { c with rtab1 := BitVec.ofNat 64 v })
  | .lease => s.modDie (dieOf core) (fun d => { d with lease := clampLease v })
  | _ => s

/-- `REGISTER_WRITE` (R11). -/
def execRegisterWrite (r : WinReg) (value : Word) (s : State) : Out :=
  let v := value.toNat
  match r with
  | .dbgctl cl => ok (writeDbgctl cl v s)
  | .nilog core => ok (writeNilog core v s)
  | .coreReg core r => ok (writeCoreReg core r v s)
  | .droopArea die => ok (s.modDie die (fun d => { d with droopArea := v }))
  | .lease die => ok (s.modDie die (fun d => { d with lease := clampLease v }))
  | .localWord core off => ok (s.store (localPa core off) 8 v)

/-- The value of `DBGCTL` as it reads (R11, R274): HALT and RESUME read as zero. -/
def Debug.word (d : Debug) : Nat :=
  b2n d.brkclaim * 2 ^ 3 + b2n d.xout * 2 ^ 4 + b2n d.xin * 2 ^ 5 + d.state % 4 * 2 ^ 6

/-- The value of `NILOG` as it reads (R11, R279). -/
def MsgLog.word (l : MsgLog) : Nat :=
  b2n l.en + b2n l.ovf * 2 + l.size % 32 * 2 ^ 2 + l.base / 4096 % 2 ^ 40 * 2 ^ 12

/-- What a read of the device register window answers (R11). -/
def State.windowReg (s : State) (r : WinReg) : Nat :=
  match r with
  | .dbgctl cl => (s.cluster cl).dbg.word
  | .nilog core => (s.core core).log.word
  | .coreReg core .lease => (s.die (dieOf core)).lease
  | .coreReg core r => (s.core core).reg r
  | .droopArea die => (s.die die).droopArea
  | .lease die => (s.die die).lease
  | .localWord core off => s.rd (localPa core off) 8

/-- A bank's correctable-error count, as the command processors read it (R31). -/
def State.correctedErrors (s : State) (bank : Nat) : Nat := (s.bank bank).corrected

end Sys2Proof.Machine
end

