-- ==== Sys2Proof/Machine/Commands.lean ====
section
/-! DEFINITION. The commands of the host (R219, R262, R265 to R267, R270, R272). Each row is one step of its command at
the head of a queue: its start, or, when its effects are made, its completion. -/

namespace Sys2Proof.Machine

open Sys2Proof

/-! ### Queues (R265) -/

/-- A partition of the present `QCFG`, by its lowest quarter. -/
def State.isPart (s : State) (p : Nat) : Bool := decide (p < 4) && decide (partOfQuarter s.qmode p = p)

/-- `DOORBELL` (R265): the new tail, kept in the queue's block. -/
def execDoorbell (part queue tail : Nat) (s : State) : Out :=
  if s.isPart part && decide (queue < 16) then ok (hwWrite ((s.part part).qbase + 64 * queue + 16) 4 (tail % 2 ^ 32) s)
  else ok s

/-- A command in hand: its queue, its block, its entry and its arguments. -/
structure Cmd where
  p : Nat
  q : Nat
  blk : Nat
  entry : Nat
  deriving DecidableEq, Repr

def Cmd.op (c : Cmd) : Nat := qbField c.entry 0 2
/-- The argument bytes of an entry (R266). DESIGN CHOICE: log 10. -/
def Cmd.args (c : Cmd) : List Byte := natBytes 48 (c.entry / 2 ^ 128)
def Cmd.root (c : Cmd) : Word := qbPtroot c.blk

/-- The command that a queue runs, or would start. -/
def State.cmdOf (s : State) (p q : Nat) : Option (Nat × Cmd) :=
  if !s.isPart p || 16 ≤ q then none
  else
    let b := s.qblock p q
    match (s.queue p q).busy with
    | some a => some (a, { p := p, q := q, blk := b, entry := s.curRead a 64 })
    | none =>
      if qbHead b = qbTail b then none
      else some (qbEntry b, { p := p, q := q, blk := b, entry := s.curRead (qbEntry b) 64 })

/-- The commands that translate under the block's `PTROOT` (R265). -/
def translates (op : Nat) : Bool := op = 1 || op = 2 || op = 3 || op = 4 || op = 7

/-- A command that completes with INVALID before it does anything (R265): its block, its entry, its OP or its ROOT.
DEDUCED: log 41. DESIGN CHOICE: log 50. -/
def State.cmdInvalid (s : State) (c : Cmd) : Bool :=
  !qbOk c.blk || qbField c.entry 2 2 ≠ 0 || c.op = 0 || 10 < c.op ||
  (translates c.op && !s.inPartHbm c.p (ptBase c.root) 4096)

/-- A queue takes up the command at its head, whose block and entry the firmware reads. -/
def takeUp (p q a : Nat) (s : State) : State :=
  let s := fwRead a 64 (fwRead ((s.part p).qbase + 64 * q) 64 s)
  s.setQueue p q { s.queue p q with busy := some a, started := false }

/-- One step of a command of a code: its queue takes it up if it runs none and has no image to switch to, and an invalid
one completes at once (R265 to R267). What the host holds of the block or the entry is snooped first (R67). A
`PARTITION` is one action, so it finds no command that it would have to hold (R270). -/
def runCmd (code p q : Nat) (body : Cmd → State → State) (s : State) : Out :=
  match snoopRange ((s.part p).qbase + 64 * q) 64 false s with
  | (false, s) => ok s
  | (true, s) =>
    match s.cmdOf p q with
    | none => ok s
    | some (a, c) =>
      match snoopRange a 64 false s with
      | (false, s) => ok s
      | (true, s) =>
        if (s.queue p q).busy.isSome then (if c.op = code then ok (body c s) else ok s)
        else if (s.queue p q).switchTo.isSome then ok s
        else
          if s.cmdInvalid c then ok (cmdDone p q 1 (takeUp p q a s))
          else if c.op = code then ok (body c (takeUp p q a s))
          else ok s

/-- The effects of a command are made: its release at `.sys` ends once GT has reached the `vt` of its writes and the peers
have acknowledged theirs, and it completes (R266). -/
def finishCmd (c : Cmd) (status : Nat) (s : State) : State :=
  let q := s.queue c.p c.q
  if s.gt (partDie c.p) < q.vt || !q.peers.isEmpty then s else cmdDone c.p c.q status s

/-- A write of the firmware within a command, with its visibility time. -/
def cmdWrite (c : Cmd) (pa n v : Nat) (s : State) : State :=
  match hwWriteVt pa n v s with
  | (vt, s) => s.setQueue c.p c.q { s.queue c.p c.q with vt := max (s.queue c.p c.q).vt vt }

def markStarted (c : Cmd) (s : State) : State := s.setQueue c.p c.q { s.queue c.p c.q with started := true }

/-! ### `LAUNCH` and `COPY` (R219, R221, R266) -/

/-- `LAUNCH`: the header is read under the queue's `PTROOT` and the launch is created; it completes at `LAUNCH_END`, or
when the acknowledgements that its release waits for are in. A launch that needs what is not free waits. DEDUCED:
log 41. -/
def launchBody (c : Cmd) (s : State) : State :=
  if (s.queue c.p c.q).started then (if (s.queue c.p c.q).ended then finishCmd c 0 s else s)
  else
    let va := Config.launchHeader c.args
    if va % 128 ≠ 0 then cmdDone c.p c.q 1 s
    else
      match xlateChecked (c.p * 96) c.root true va accRead { rd := true } s with
      | (.held, s) | (.snoop .., s) => s
      | (.trap _, s) => cmdDone c.p c.q 4 s
      | (.ok l, s) =>
        match snoopRange (l.phys (va % 2 ^ 57)) 128 false s with
        | (false, s) => s
        | (true, s) =>
          let s := fwRead (l.phys (va % 2 ^ 57)) 128 s
          let h := s.curRead (l.phys (va % 2 ^ 57)) 128
          if !s.headerOk c.p h then cmdDone c.p c.q 1 s
          else
            match createLaunch c.p (launchOf h c.root false 0 (some (c.q, 0))) s with
            | some (_, s) => markStarted c s
            | none => s

/-- `LAUNCH` (R219, R266). DEDUCED: log 41. -/
def execLaunch (part queue : Nat) (s : State) : Out := runCmd 1 part queue launchBody s

/-- The engine of cluster 0 of a partition as the issuer of a queue's `COPY`. -/
def Cmd.issuer (c : Cmd) : Issuer :=
  { cl := c.p * 12, pt := c.root, priv := true, codelet := false, ctx := 0, command := some (c.q, 0)
    who := unitOf (c.p * 96) }

/-- `COPY`: run by the engine of cluster 0 of the partition; it completes once the copy has completed and what its release
waits for is in (R266). DESIGN CHOICE: log 50. -/
def copyBody (c : Cmd) (s : State) : State :=
  let q := s.queue c.p c.q
  if q.started then (if q.ended then finishCmd c q.status s else s)
  else
    let cl := c.p * 12
    match copyOf c.issuer 0 (Config.copyDescriptor c.args s.mem) s with
    | (.trap _, s) => cmdDone c.p c.q 4 s
    | (.later _, s) => s
    | (.accept ch tl o, s) =>
      if (s.chan cl ch).ops.length < 16 then markStarted c (acceptOp cl ch tl o s) else s

def execCopy (part queue : Nat) (s : State) : Out := runCmd 2 part queue copyBody s

/-! ### `MAP`, `UNMAP` (R262, R266) -/

/-- Page-table entries written, then the shoot-down; complete once it is over and the writes are visible. -/
def mapBody (c : Cmd) (s : State) : State :=
  let q := s.queue c.p c.q
  if q.started then (if q.tinvs.isEmpty then finishCmd c 0 s else s)
  else
    let es := Config.mapEntries c.args s.mem
    if es.any (fun e => e.1 % 8 ≠ 0 || !s.inPartHbm c.p e.1 8) then cmdDone c.p c.q 1 s
    else
      let s := es.foldl (fun s e => cmdWrite c e.1 8 e.2 s) s
      let r := Config.mapRange c.args
      let id := s.nextId
      let s := s.send (.tinv id 0 c.p r.1 r.2.1 r.2.2)
      s.setQueue c.p c.q { s.queue c.p c.q with started := true, tinvs := [id] }

/-- `MAP` of kind 0. DESIGN CHOICE: log 50. -/
def execMapPageEntries (part queue : Nat) (s : State) : Out :=
  runCmd 3 part queue (fun c s => if Config.mapKind c.args = 0 then mapBody c s else s) s

/-- `MAP` of kind 1 (R262): the BAR 2 window onto the partition's HBM; another kind is INVALID.
DESIGN CHOICE: log 50. -/
def bar2Body (c : Cmd) (s : State) : State :=
  if Config.mapKind c.args = 0 then s
  else
    let base := Config.bar2Base c.args
    if Config.mapKind c.args = 1 && s.inPartHbm c.p base (2 ^ 36) then
      cmdDone c.p c.q 0 { s with dev := { s.dev with bar2 := some (c.p, base) } }
    else cmdDone c.p c.q 1 s

/-- `MAP` of kind 1 (R262, R266). DESIGN CHOICE: log 50. -/
def execMapBar2Placement (part queue : Nat) (s : State) : Out := runCmd 3 part queue bar2Body s

/-- `UNMAP`. -/
def execUnmap (part queue : Nat) (s : State) : Out := runCmd 4 part queue mapBody s

/-! ### `FENCE`, `DUMP`, `RESET` (R259, R266, R268) -/

/-- The head of a queue once the commands before its first `FENCE` that has not begun have completed: `n` entries from a
head on. -/
def State.fenceHead (s : State) (p k b : Nat) : Nat → Nat → Nat
  | 0, head => head
  | n + 1, head =>
    let entry := s.curRead (qbBase b + 64 * (head % 2 ^ qbSize b)) 64
    let begun := decide (head = qbHead b) && (s.queue p k).started
    if qbField entry 0 2 = 5 && !begun then head else s.fenceHead p k b n ((head + 1) % 2 ^ 32)

/-- The heads of the partition's other queues at which every earlier command has completed: the commands that stand in
them, but for a `FENCE` that begins later and what follows it. DESIGN CHOICE: log 50. -/
def State.tails (s : State) (p q : Nat) : List (Nat × Nat) :=
  ((List.range 16).filter (fun k => k ≠ q && qbHead (s.qblock p k) ≠ qbTail (s.qblock p k))).map
    (fun k =>
      let b := s.qblock p k
      (k, s.fenceHead p k b (min ((qbTail b + 2 ^ 32 - qbHead b) % 2 ^ 32) (2 ^ qbSize b)) (qbHead b)))

/-- `FENCE`: every earlier command of every queue of the partition has completed. DESIGN CHOICE: log 50. -/
def fenceBody (c : Cmd) (s : State) : State :=
  let s := if (s.queue c.p c.q).started then s
    else s.setQueue c.p c.q { s.queue c.p c.q with started := true, fenceFor := s.tails c.p c.q }
  let passed := (s.queue c.p c.q).fenceFor.all (fun f => decide ((qbHead (s.qblock c.p f.1) + 2 ^ 32 - f.2) % 2 ^ 32 < 2 ^ 31))
  if passed then cmdDone c.p c.q 0 s else s

def execFenceCommand (part queue : Nat) (s : State) : Out := runCmd 5 part queue fenceBody s

/-- `DUMP`: the dump area, under the queue's `PTROOT`. DESIGN CHOICE: log 45. -/
def execDump (part queue : Nat) (s : State) : Out :=
  runCmd 7 part queue (fun c s =>
    let a := Config.dumpArea c.args
    cmdDone c.p c.q 0 (s.modPart c.p (fun x => { x with dumpArea := some (a.1, a.2, c.root), dumpNext := 0 }))) s

/-- `RESET`: a rung of level 2 to 5 on a target of the partition, and then its record. A device reset leaves no queue
whose head could pass the command. -/
def resetBody (c : Cmd) (s : State) : State :=
  let r := Config.resetArg c.args
  match r.1 with
  | 2 => if r.2 < 384 ∧ s.partOf r.2 = c.p then cmdDone c.p c.q 0 (resetCore .reset r.2 s) else cmdDone c.p c.q 1 s
  | 3 => if r.2 < 48 ∧ s.partOf (r.2 * 8) = c.p then cmdDone c.p c.q 0 (resetCluster .reset r.2 s) else cmdDone c.p c.q 1 s
  | 4 => if r.2 = c.p then cmdDone c.p c.q 0 (resetPartition c.p s) else cmdDone c.p c.q 1 s
  | 5 => cmdRecord c.p 0 c.blk c.entry (resetDevice s)
  | _ => cmdDone c.p c.q 1 s

def execReset (part queue : Nat) (s : State) : Out := runCmd 8 part queue resetBody s

/-! ### `ATTEST`, `UPDATE` (R267, R272) -/

/-- The running image of a queue: the ROM's, unless an `UPDATE` has replaced it. -/
def Queue.running (q : Queue) : FwImage := q.image.getD { version := Config.romVersion, measure := Config.romMeasure }

/-- `ATTEST` (R272): DENIED after an alarm or with the erase fuse blown; else the signed report is written. -/
def attestBody (c : Cmd) (s : State) : State :=
  let q := s.queue c.p c.q
  if q.started then finishCmd c 0 s
  else if s.dev.seca || s.dev.idgone then cmdDone c.p c.q 3 s
  else
    let a := Config.attestArg c.args
    let r := Config.attestReport q.running.measure q.running.version s.dev.qcfg.toNat a.2
    finishCmd c 0 (markStarted c (cmdWrite c a.1 r.length (leNat r) s))

def execAttest (part queue : Nat) (s : State) : Out := runCmd 9 part queue attestBody s

/-- The bytes of an image as the command processor copies them, line by line. -/
def readPhys (s : State) : Nat → Nat → Nat → List Byte
  | 0, _, _ => []
  | k + 1, a, n => if n = 0 then [] else
      let m := min n (128 - a % 128)
      natBytes m (s.curRead a m) ++ readPhys s k (a + m) (n - m)

/-- The queues of the device. -/
def State.allQueues (s : State) : List (Nat × Nat) :=
  ((List.range 4).filter s.isPart).flatMap (fun p => (List.range 16).map (fun q => (p, q)))

/-- `UPDATE` (R267): staged, hashed and verified; then every queue switches, and the command completes when all run the
new image: its own queue switches at the boundary that its completion makes. An image of more than 8 MiB is INVALID.
DESIGN CHOICE: log 50. PRESUMED: log 50, the length of the signature. -/
def updateBody (c : Cmd) (s : State) : State :=
  let a := Config.updateArg c.args
  if (s.queue c.p c.q).started then
    if s.allQueues.all (fun k => k = (c.p, c.q) || (s.queue k.1 k.2).switchTo.isNone) then
      let own := (s.queue c.p c.q).switchTo
      let s := cmdDone c.p c.q 0 { s with dev := { s.dev with staging := none } }
      s.setQueue c.p c.q { s.queue c.p c.q with image := own, switchTo := none }
    else s
  else if s.dev.idgone then cmdDone c.p c.q 3 s
  else if s.dev.staging.isSome then cmdDone c.p c.q 2 s
  else if 2 ^ 23 < a.2 then cmdDone c.p c.q 1 s
  else
    let n := a.2 + Config.signatureBytes
    match snoopRange a.1 n false s with
    | (false, s) => s
    | (true, s) =>
      let s := fwRead a.1 n s
      let image := readPhys s (a.2 / 128 + 2) a.1 a.2
      let sig := readPhys s (Config.signatureBytes / 128 + 2) (a.1 + a.2) Config.signatureBytes
      let v := Config.imageVersion image
      if !Config.xmssVerify image sig || v < Config.minVersion then cmdDone c.p c.q 3 s
      else
        let fw : FwImage := { version := v, measure := Config.shake256 image }
        let s := { s with dev := { s.dev with staging := some (c.p, c.q), patch := some fw } }
        markStarted c (s.allQueues.foldl (fun s k => s.setQueue k.1 k.2 { s.queue k.1 k.2 with switchTo := some fw }) s)

def execUpdate (part queue : Nat) (s : State) : Out := runCmd 10 part queue updateBody s

/-- `IMAGE_SWITCH` (R267): at a command boundary, in ascending queue number; the queue of the `UPDATE` itself, whose
boundary is its completion, does not hold up the others. DESIGN CHOICE: log 50. -/
def execImageSwitch (part queue : Nat) (s : State) : Out :=
  let q := s.queue part queue
  match q.switchTo with
  | none => ok s
  | some fw =>
    let first := (List.range queue).all (fun k => (s.queue part k).switchTo.isNone || s.dev.staging = some (part, k))
    if q.busy.isNone && first then ok (s.setQueue part queue { q with image := some fw, switchTo := none }) else ok s

/-! ### `PARTITION` (R36, R270) -/

/-- The quarters whose partition a new MODE changes. -/
def affectedQuarters (old new : Nat) : List Nat :=
  (List.range 4).filter (fun q => quartersOf old (partOfQuarter old q) ≠ quartersOf new (partOfQuarter new q))

/-- A queue of an affected partition with an entry other than the command, or a live launch (R270 step 1). -/
def State.partBusy (s : State) (c : Cmd) (p : Nat) : Bool :=
  !(s.part p).launches.isEmpty ||
  (List.range 16).any (fun k =>
    let b := s.qblock p k
    let n := (qbTail b + 2 ^ 32 - qbHead b) % 2 ^ 32
    if p = c.p && k = c.q then 1 < n else 0 < n)

/-- The memory of the affected quarters zeroed, with their L2 slices and local memories (R36, R102); their banks' tables
start anew, the floor time and the count of corrected errors with them. DESIGN CHOICE: log 50. -/
def zeroQuarters (qs : List Nat) (s : State) : State :=
  let gone := fun (pa : Nat) =>
    match regionOf pa with
    | .hbm q => qs.contains q
    | .local g => qs.contains (quarterOf g)
    | _ => false
  let s := { s with
    mem := s.mem.filter (fun c => !gone c.1)
    fe := s.fe.filter (fun d => !gone (d * 8))
    lines := s.lines.filter (fun e => !gone (e.1 * 128))
    lostLocal := s.lostLocal.filter (fun l => !gone (l * 128))
    frontiers := s.frontiers.filter (fun e => !gone e.1)
    snoopOver := s.snoopOver.filter (fun w => !gone w.1)
    copies := s.copies.map (fun (t : Nat × Tbl Copy) => (t.1, t.2.filter (fun e => !gone (e.1 * 128))))
    net := s.net.filter (fun m => !(lineOf m.body).any (fun l => gone (l * 128)))
    banks := s.banks.filter (fun b => !(decide (b.1 < 96) && qs.contains (b.1 / 24)))
    dev := { s.dev with snoopers := s.dev.snoopers.filter (fun l => !gone (l * 128)) } }
  s
where
  /-- The line that a message of token counting is about. -/
  lineOf : MsgBody → Option Nat
    | .leaseReq _ l _ => some l
    | .leaseReply _ l _ _ _ => some l
    | .readReq _ l => some l
    | .fwdRead _ _ l => some l
    | .writeReq _ l => some l
    | .multi _ _ l => some l
    | .tokens _ l _ _ _ _ _ _ => some l
    | .ownerNotice l _ => some l
    | .writeBack _ l _ _ _ _ _ _ => some l
    | .wbAck _ l _ => some l
    | .pushTurn l _ _ _ _ => some l
    | .refusedTok l _ _ => some l
    | _ => none

/-- Every TLB and walk cache of the affected quarters invalidated (R270 step 4), and the instruction caches with the
memory they were filled from (R36). -/
def dropCaches (qs : List Nat) (s : State) : State :=
  { s with
    cores := s.cores.map (fun (c : Nat × Core) =>
      if qs.contains (quarterOf c.1) then (c.1, { c.2 with tlb := [], icache := [] }) else c)
    clusters := s.clusters.map (fun (c : Nat × Cluster) =>
      if qs.contains (quarterOf (c.1 * 8)) then (c.1, { c.2 with tlb := [] }) else c)
    dies := s.dies.map (fun (d : Nat × Die) =>
      (d.1, { d.2 with walks := d.2.walks.filter (fun w => !qs.contains (w.2.addr / quarterBytes)) })) }

/-- The command processors of a quarter (R264), numbered four to a die. -/
def quarterProcs (q : Nat) : List Nat := [2 * q, 2 * q + 1]

/-- The command processors of a partition: those of its quarters (R264). -/
def State.partProcs (s : State) (p : Nat) : List Nat := (quartersOf s.qmode p).flatMap quarterProcs

/-- A new partition takes its places, its cores their frame counts, and its queues the patch that runs (R264, R267, R270
step 5). -/
def newPartition (c : Cmd) (mem : List Host.Cell) (p : Nat) (s : State) : State :=
  let b := Config.partBases c.args mem p
  let pool := Config.partPool c.args mem p
  let s := s.setPart p
    { tbase := b.1, cltb := b.2.1, qbase := b.2.2.1, peers := Config.partPeers c.args mem p, pool := pool
      queues := (List.range 16).map (fun q => (q, { image := s.dev.patch })) }
  (s.coresOf p).foldl (fun s g => writeFrames g (clampFrames b.2.2.2) s) s

/-- `PARTITION` as one action (R270): check, quiesce, rewrite, shoot-down, release, and its completion. -/
def partitionBody (c : Cmd) (s : State) : State :=
  let mode := Config.partMode c.args
  if 4 < mode then cmdDone c.p c.q 1 s
  else
    let qs := affectedQuarters s.qmode mode
    let olds := ((List.range 4).filter s.isPart).filter (fun p => qs.contains p)
    if olds.any (s.partBusy c) then cmdDone c.p c.q 2 s
    else
      let mem := s.mem
      let cqa := qbField c.entry 8 8
      let vector := qbMsix c.blk
      let s := dropCaches qs (zeroQuarters qs s)
      let s := { s with dev := { s.dev with
        qcfg := BitVec.ofNat 3 mode
        bar2 := match s.dev.bar2 with
          | some (p, b) => if qs.contains p then none else some (p, b)
          | none => none } }
      let news := ((List.range 4).filter s.isPart).filter (fun p => qs.contains p)
      let s := news.foldl (fun s p => newPartition c mem p s) s
      if qs.contains c.p then
        let s := hwWrite cqa 16 (qbField c.entry 4 4 + s.gt (partDie c.p) * 2 ^ 64) s
        let s := { s with dev := { s.dev with msix := vector :: s.dev.msix } }
        s.setQueue c.p c.q { s.queue c.p c.q with busy := none, started := false, vt := 0 }
      else cmdDone c.p c.q 0 s

/-- `PARTITION` (R270). DESIGN CHOICE: log 50. -/
def execPartition (part queue : Nat) (s : State) : Out := runCmd 6 part queue partitionBody s

end Sys2Proof.Machine
end

