-- ==== Sys2Proof/Machine/IntAlu.lean ====
section
/-! DEFINITION. The integer and address instructions but for `scmp` (R304 to R308). -/

namespace Sys2Proof.Machine

open Sys2Proof

/-! ### Results on `n`-bit operands (R304, R305) -/

def aluAdd (n x y : Nat) : Nat := (x + y) % 2 ^ n
def aluSub (n x y : Nat) : Nat := wrapInt n ((x : Int) - y)
def aluMul (n x y : Nat) : Nat := x * y % 2 ^ n
def aluMulh (n x y : Nat) : Nat := wrapInt (2 * n) (toSigned n x * toSigned n y) / 2 ^ n
def aluMulhn (n x y : Nat) : Nat := x * y / 2 ^ n
def aluDiv (n x y : Nat) : Nat := if y = 0 then 2 ^ n - 1 else wrapInt n (Int.tdiv (toSigned n x) (toSigned n y))
def aluDivn (n x y : Nat) : Nat := if y = 0 then 2 ^ n - 1 else x / y
def aluRem (n x y : Nat) : Nat := if y = 0 then x else wrapInt n (Int.tmod (toSigned n x) (toSigned n y))
def aluRemn (_n x y : Nat) : Nat := if y = 0 then x else x % y
def aluAnd (_n x y : Nat) : Nat := x &&& y
def aluOr (_n x y : Nat) : Nat := x ||| y
def aluXor (_n x y : Nat) : Nat := x ^^^ y
def aluAndn (n x y : Nat) : Nat := x &&& (2 ^ n - 1 - y)
def aluShl (n x y : Nat) : Nat := x * 2 ^ (y % n) % 2 ^ n
def aluShr (n x y : Nat) : Nat := x / 2 ^ (y % n)
def aluSra (n x y : Nat) : Nat := wrapInt n (toSigned n x / ((2 ^ (y % n) : Nat) : Int))
def aluRotr (n x y : Nat) : Nat := (x / 2 ^ (y % n) + x * 2 ^ (n - y % n)) % 2 ^ n
def aluMin (n x y : Nat) : Nat := if toSigned n y < toSigned n x then y else x
def aluMax (n x y : Nat) : Nat := if toSigned n x < toSigned n y then y else x
def aluMinn (_n x y : Nat) : Nat := if y < x then y else x
def aluMaxn (_n x y : Nat) : Nat := if x < y then y else x

/-- Leading zeros of an `n`-bit value: the zeros above its highest set bit. -/
def aluClz : Nat → Nat → Nat
  | 0, _ => 0
  | n + 1, x => if bit x n then 0 else 1 + aluClz n x

/-- Trailing zeros of an `n`-bit value. -/
def aluCtz : Nat → Nat → Nat
  | 0, _ => 0
  | n + 1, x => if x % 2 = 1 then 0 else 1 + aluCtz n (x / 2)

/-! ### The shared shapes -/

/-- A two-source operation on `w` registers: sources first, then the destination (R303, R304). -/
def alu2 (f : Nat → Nat → Nat → Nat) (t : Ty) (d a b : WReg) (s : State) : Out :=
  let base := s.me.base
  let n := opBits t
  ok ((s.dst base n d (f n (s.src base n a) (s.src base n b))).advPc base 8)

/-- A one-source operation (R305). -/
def alu1 (f : Nat → Nat → Nat) (t : Ty) (d a : WReg) (s : State) : Out :=
  let base := s.me.base
  let n := opBits t
  ok ((s.dst base n d (f n (s.src base n a))).advPc base 8)

/-- A division: the slot leaves the rotation for 24 cycles, and the result is written then (R304). -/
def startDiv (f : Nat → Nat → Nat → Nat) (t : Ty) (d a b : WReg) (s : State) : Out :=
  let me := s.me
  let n := opBits t
  let v := f n (s.src me.base n a) (s.src me.base n b) % 2 ^ n
  ok ((s.setWait me.key { block := .div d (BitVec.ofNat 64 v) 8 (s.cycle + 24) }).yieldTurns me.core me.slot)

def execAdd (t : Ty) (d a b : WReg) (s : State) : Out := alu2 aluAdd t d a b s
def execSub (t : Ty) (d a b : WReg) (s : State) : Out := alu2 aluSub t d a b s
def execMul (t : Ty) (d a b : WReg) (s : State) : Out := alu2 aluMul t d a b s
def execMulh (t : Ty) (d a b : WReg) (s : State) : Out := alu2 aluMulh t d a b s
def execMulhn (t : Ty) (d a b : WReg) (s : State) : Out := alu2 aluMulhn t d a b s
def execDiv (t : Ty) (d a b : WReg) (s : State) : Out := startDiv aluDiv t d a b s
def execDivn (t : Ty) (d a b : WReg) (s : State) : Out := startDiv aluDivn t d a b s
def execRem (t : Ty) (d a b : WReg) (s : State) : Out := startDiv aluRem t d a b s
def execRemn (t : Ty) (d a b : WReg) (s : State) : Out := startDiv aluRemn t d a b s
def execAnd (t : Ty) (d a b : WReg) (s : State) : Out := alu2 aluAnd t d a b s
def execOr (t : Ty) (d a b : WReg) (s : State) : Out := alu2 aluOr t d a b s
def execXor (t : Ty) (d a b : WReg) (s : State) : Out := alu2 aluXor t d a b s
def execAndn (t : Ty) (d a b : WReg) (s : State) : Out := alu2 aluAndn t d a b s
def execShl (t : Ty) (d a b : WReg) (s : State) : Out := alu2 aluShl t d a b s
def execShr (t : Ty) (d a b : WReg) (s : State) : Out := alu2 aluShr t d a b s
def execSra (t : Ty) (d a b : WReg) (s : State) : Out := alu2 aluSra t d a b s
def execRotr (t : Ty) (d a b : WReg) (s : State) : Out := alu2 aluRotr t d a b s
def execMin (t : Ty) (d a b : WReg) (s : State) : Out := alu2 aluMin t d a b s
def execMax (t : Ty) (d a b : WReg) (s : State) : Out := alu2 aluMax t d a b s
def execMinn (t : Ty) (d a b : WReg) (s : State) : Out := alu2 aluMinn t d a b s
def execMaxn (t : Ty) (d a b : WReg) (s : State) : Out := alu2 aluMaxn t d a b s

/-- The division of a context comes to its end (R304): 24 cycles after its issue the result is written, the PC
passes the instruction and the slot returns to the rotation. Before then the step changes nothing. -/
def execDivisionComplete (ctx : Nat) (s : State) : Out :=
  match s.meOf ctx, s.waitOf ctx with
  | some me, some (.div d v len ready) =>
    if s.cycle < ready then ok s
    else ok (((s.setW me.base d v).advPc me.base len).clearWait ctx)
  | _, _ => ok s

def execClz (t : Ty) (d a : WReg) (s : State) : Out := alu1 aluClz t d a s
def execCtz (t : Ty) (d a : WReg) (s : State) : Out := alu1 aluCtz t d a s
def execPopc (t : Ty) (d a : WReg) (s : State) : Out := alu1 popCount t d a s

/-- `mov` copies all 64 bits (R305). -/
def execMov (d a : WReg) (s : State) : Out :=
  let base := s.me.base
  ok ((s.setW base d (s.getW base a)).advPc base 8)

/-- `sext` extends the low bits by the signedness of the type (R305). -/
def execSext (t : Ty) (d a : WReg) (s : State) : Out :=
  let base := s.me.base
  ok ((s.setW base d (extendLoad t (s.getW base a).toNat)).advPc base 8)

/-- `addi` (R306). -/
def execAddi (t : Ty) (d a : WReg) (imm : Imm) (s : State) : Out :=
  let base := s.me.base
  let n := opBits t
  ok ((s.dst base n d (aluAdd n (s.src base n a) (imm.val.toNat % 2 ^ n))).advPc base (Imm.len imm))

/-- `li` (R306). -/
def execLi (d : WReg) (imm : Imm) (s : State) : Out :=
  let base := s.me.base
  ok ((s.setW base d imm.val).advPc base (Imm.len imm))

/-- `lea` writes the effective address, without an access (R306). -/
def execLea (d : WReg) (b : MBase) (imm : Imm) (s : State) : Out :=
  let base := s.me.base
  ok ((s.setW base d (s.eaOf base b imm)).advPc base (Imm.len imm))

/-- `bfx` (R307). -/
def execBfx (signed : Bool) (d a : WReg) (lsb : BitVec 6) (width : BitVec 7) (s : State) : Out :=
  let base := s.me.base
  let f := bits (s.getW base a).toNat lsb.toNat width.toNat
  let v := if signed then BitVec.ofInt 64 (toSigned width.toNat f) else BitVec.ofNat 64 f
  ok ((s.setW base d v).advPc base 8)

/-- `bfi` reads W[d] as a source (R307). -/
def execBfi (d a : WReg) (lsb : BitVec 6) (width : BitVec 7) (s : State) : Out :=
  let base := s.me.base
  let v := setBits (s.getW base d).toNat lsb.toNat width.toNat (s.getW base a).toNat
  ok ((s.setW base d (BitVec.ofNat 64 v)).advPc base 8)

/-- `sel` compares all 64 bits of W[a] (R308). -/
def execSel (d a b c : WReg) (s : State) : Out :=
  let base := s.me.base
  let v := if s.getW base a ≠ 0 then s.getW base b else s.getW base c
  ok ((s.setW base d v).advPc base 12)

end Sys2Proof.Machine
end

