-- ==== Sys2Proof/Machine/VecMem.lean ====
section
/-! DEFINITION. Vector memory (R332 to R334): `vld`, `vst`, `vlds`, `vgat`, `vsct`. -/

namespace Sys2Proof.Machine

open Sys2Proof

/-- The small steps of an access of `n` elements: every check of every element before any performs (R333). -/
def vecSteps (n : Nat) : List Micro :=
  (List.range n).map Micro.xlate ++ [.prot, .marked, .verify] ++ (List.range n).map Micro.perform

/-- An access of several elements begun: `#ALIGN` of the lowest element that breaks its alignment first (R333). -/
def accessN (op : AccOp) (addrs : List Nat) (size unit : Nat) (data : List Nat) (after : List Micro) (s : State) : Out :=
  match addrs.find? (fun a => a % unit ≠ 0) with
  | some a => ok (trap (align a unit op.acc) s)
  | none =>
    ok (startProg s.me { op := op, elems := addrs.map (fun a => { va := a, size := size }), data := data
                         prog := vecSteps addrs.length ++ after } s)

/-- The addresses of `n` elements from `ea` with a stride. -/
def strided (ea : Word) (stride : Word) (n : Nat) : List Nat :=
  (List.range n).map (fun i => (ea + BitVec.ofNat 64 i * stride).toNat)

/-- The elements of a whole register at an address (R332): two 32-byte halves at a multiple of 64, else one by one. -/
def wholeUnit (t : Ty) (ea : Word) : Nat := if ea.toNat % 64 = 0 then 32 else tyBytes t
def wholeAddrs (t : Ty) (ea : Word) : List Nat := strided ea (BitVec.ofNat 64 (wholeUnit t ea)) (64 / wholeUnit t ea)

/-- `vld` (R332). -/
def execVld (t : Ty) (d : VReg) (a : WReg) (imm : Imm) (s : State) : Out :=
  let ea := s.ea s.me.base a imm
  accessN .read (wholeAddrs t ea) (wholeUnit t ea) (tyBytes t) []
    [.finish (.loadV d (8 * wholeUnit t ea)), .adv (Imm.len imm)] s

/-- `vst` (R332). -/
def execVst (t : Ty) (a : WReg) (imm : Imm) (b : VReg) (s : State) : Out :=
  let base := s.me.base
  let ea := s.ea base a imm
  let u := wholeUnit t ea
  let v := (s.getV base b).toNat
  accessN .write (wholeAddrs t ea) u (tyBytes t) ((List.range (64 / u)).map (elem (8 * u) v)) [.adv (Imm.len imm)] s

/-- `vlds` (R332): W[b] is a signed byte stride. -/
def execVlds (t : Ty) (d : VReg) (a : WReg) (imm : Imm) (b : WReg) (s : State) : Out :=
  let base := s.me.base
  accessN .read (strided (s.ea base a imm) (s.getW base b) (512 / t.bits)) (tyBytes t) (tyBytes t) []
    [.finish (.loadV d t.bits), .adv (Imm.len imm)] s

/-- The addresses of a gather or a scatter (R334): W[a] + s * k, the indices unsigned. -/
def indexed (t : Ty) (a : Word) (idx : Nat) : List Nat :=
  (List.range (512 / t.bits)).map (fun i => (a + BitVec.ofNat 64 (tyBytes t * elem t.bits idx i)).toNat)

/-- `vgat` (R334). -/
def execVgat (t : Ty) (d : VReg) (a : WReg) (b : VReg) (s : State) : Out :=
  let base := s.me.base
  accessN .read (indexed t (s.getW base a) (s.getV base b).toNat) (tyBytes t) (tyBytes t) []
    [.finish (.loadV d t.bits), .adv 8] s

/-- `vsct` (R334): the writes perform in ascending order of element. -/
def execVsct (t : Ty) (a : WReg) (b c : VReg) (s : State) : Out :=
  let base := s.me.base
  let v := (s.getV base c).toNat
  accessN .write (indexed t (s.getW base a) (s.getV base b).toNat) (tyBytes t) (tyBytes t)
    ((List.range (512 / t.bits)).map (elem t.bits v)) [.adv 12] s

end Sys2Proof.Machine
end

