-- ==== Sys2Proof/Machine/Dispatch.lean ====
section
/-! DEFINITION. One arm per instruction or step: a direct call of its meaning. -/

namespace Sys2Proof.Machine

open Sys2Proof

/-- The meaning of each instruction and of each step of the machine. An event whose conditions are not met changes nothing. DESIGN CHOICE: log 13. -/
def exec (i : Instr) (s : State) : Host.Outcome State Fault Refusal :=
  match i with
  | .add t d a b => Sys2Proof.Machine.execAdd t d a b s
  | .sub t d a b => Sys2Proof.Machine.execSub t d a b s
  | .mul t d a b => Sys2Proof.Machine.execMul t d a b s
  | .mulh t d a b => Sys2Proof.Machine.execMulh t d a b s
  | .mulhn t d a b => Sys2Proof.Machine.execMulhn t d a b s
  | .div t d a b => Sys2Proof.Machine.execDiv t d a b s
  | .divn t d a b => Sys2Proof.Machine.execDivn t d a b s
  | .rem t d a b => Sys2Proof.Machine.execRem t d a b s
  | .remn t d a b => Sys2Proof.Machine.execRemn t d a b s
  | .divisionComplete ctx => Sys2Proof.Machine.execDivisionComplete ctx s
  | .and t d a b => Sys2Proof.Machine.execAnd t d a b s
  | .or t d a b => Sys2Proof.Machine.execOr t d a b s
  | .xor t d a b => Sys2Proof.Machine.execXor t d a b s
  | .andn t d a b => Sys2Proof.Machine.execAndn t d a b s
  | .shl t d a b => Sys2Proof.Machine.execShl t d a b s
  | .shr t d a b => Sys2Proof.Machine.execShr t d a b s
  | .sra t d a b => Sys2Proof.Machine.execSra t d a b s
  | .rotr t d a b => Sys2Proof.Machine.execRotr t d a b s
  | .min t d a b => Sys2Proof.Machine.execMin t d a b s
  | .max t d a b => Sys2Proof.Machine.execMax t d a b s
  | .minn t d a b => Sys2Proof.Machine.execMinn t d a b s
  | .maxn t d a b => Sys2Proof.Machine.execMaxn t d a b s
  | .clz t d a => Sys2Proof.Machine.execClz t d a s
  | .ctz t d a => Sys2Proof.Machine.execCtz t d a s
  | .popc t d a => Sys2Proof.Machine.execPopc t d a s
  | .mov d a => Sys2Proof.Machine.execMov d a s
  | .sext t d a => Sys2Proof.Machine.execSext t d a s
  | .addi t d a imm => Sys2Proof.Machine.execAddi t d a imm s
  | .li d imm => Sys2Proof.Machine.execLi d imm s
  | .lea d base imm => Sys2Proof.Machine.execLea d base imm s
  | .bfx signed d a lsb width => Sys2Proof.Machine.execBfx signed d a lsb width s
  | .bfi d a lsb width => Sys2Proof.Machine.execBfi d a lsb width s
  | .sel d a b c => Sys2Proof.Machine.execSel d a b c s
  | .scmp t k d a b => Sys2Proof.Machine.execScmp t k d a b s
  | .b p imm => Sys2Proof.Machine.execB p imm s
  | .bz a imm => Sys2Proof.Machine.execBz a imm s
  | .bnz a imm => Sys2Proof.Machine.execBnz a imm s
  | .j imm => Sys2Proof.Machine.execJ imm s
  | .jal d imm => Sys2Proof.Machine.execJal d imm s
  | .loop a imm => Sys2Proof.Machine.execLoop a imm s
  | .jr a => Sys2Proof.Machine.execJr a s
  | .jalr d a => Sys2Proof.Machine.execJalr d a s
  | .ld t d base imm => Sys2Proof.Machine.execLd t d base imm s
  | .st t a imm b => Sys2Proof.Machine.execSt t a imm b s
  | .lda t sc d a imm => Sys2Proof.Machine.execLda t sc d a imm s
  | .stl t sc a imm b => Sys2Proof.Machine.execStl t sc a imm b s
  | .fence sc => Sys2Proof.Machine.execFence sc s
  | .fenceRel sc => Sys2Proof.Machine.execFenceRel sc s
  | .fenceAcq sc => Sys2Proof.Machine.execFenceAcq sc s
  | .releaseComplete ctx => Sys2Proof.Machine.execReleaseComplete ctx s
  | .ldf d a imm => Sys2Proof.Machine.execLdf d a imm s
  | .ldt d a imm => Sys2Proof.Machine.execLdt d a imm s
  | .stf sc a imm b => Sys2Proof.Machine.execStf sc a imm b s
  | .clre a imm => Sys2Proof.Machine.execClre a imm s
  | .push t form a off b c => Sys2Proof.Machine.execPush t form a off b c s
  | .pushTokenArrival msg => Sys2Proof.Machine.execPushTokenArrival msg s
  | .pushAckArrival msg => Sys2Proof.Machine.execPushAckArrival msg s
  | .pref a imm => Sys2Proof.Machine.execPref a imm s
  | .cwb a imm => Sys2Proof.Machine.execCwb a imm s
  | .cinv a imm => Sys2Proof.Machine.execCinv a imm s
  | .cfl a imm => Sys2Proof.Machine.execCfl a imm s
  | .amo op t ord d a b => Sys2Proof.Machine.execAmo op t ord d a b s
  | .cas t ord d a b c => Sys2Proof.Machine.execCas t ord d a b c s
  | .smap win size a b => Sys2Proof.Machine.execSmap win size a b s
  | .sunmap win => Sys2Proof.Machine.execSunmap win s
  | .swb win => Sys2Proof.Machine.execSwb win s
  | .vld t d a imm => Sys2Proof.Machine.execVld t d a imm s
  | .vst t a imm b => Sys2Proof.Machine.execVst t a imm b s
  | .vlds t d a imm b => Sys2Proof.Machine.execVlds t d a imm b s
  | .vgat t d a b => Sys2Proof.Machine.execVgat t d a b s
  | .vsct t a b c => Sys2Proof.Machine.execVsct t a b c s
  | .vbc t d a p => Sys2Proof.Machine.execVbc t d a p s
  | .vins t d a lane => Sys2Proof.Machine.execVins t d a lane s
  | .vext t d a lane => Sys2Proof.Machine.execVext t d a lane s
  | .vslide t d a n => Sys2Proof.Machine.execVslide t d a n s
  | .vperm t d a b p => Sys2Proof.Machine.execVperm t d a b p s
  | .vadd t rm d a b p => Sys2Proof.Machine.execVadd t rm d a b p s
  | .vsub t rm d a b p => Sys2Proof.Machine.execVsub t rm d a b p s
  | .vmul t rm d a b p => Sys2Proof.Machine.execVmul t rm d a b p s
  | .vmax t d a b p => Sys2Proof.Machine.execVmax t d a b p s
  | .vmin t d a b p => Sys2Proof.Machine.execVmin t d a b p s
  | .vfma t rm d a b c p => Sys2Proof.Machine.execVfma t rm d a b c p s
  | .vfms t rm d a b c p => Sys2Proof.Machine.execVfms t rm d a b c p s
  | .vabs t d a p => Sys2Proof.Machine.execVabs t d a p s
  | .vneg t d a p => Sys2Proof.Machine.execVneg t d a p s
  | .vand t d a b p => Sys2Proof.Machine.execVand t d a b p s
  | .vor t d a b p => Sys2Proof.Machine.execVor t d a b p s
  | .vxor t d a b p => Sys2Proof.Machine.execVxor t d a b p s
  | .vshl t d a b p => Sys2Proof.Machine.execVshl t d a b p s
  | .vshr t d a b p => Sys2Proof.Machine.execVshr t d a b p s
  | .vsra t d a b p => Sys2Proof.Machine.execVsra t d a b p s
  | .vcmp t k d a b p => Sys2Proof.Machine.execVcmp t k d a b p s
  | .vsel t d a b p => Sys2Proof.Machine.execVsel t d a b p s
  | .vcvt u t rm d a p => Sys2Proof.Machine.execVcvt u t rm d a p s
  | .vred t rm d a p => Sys2Proof.Machine.execVred t rm d a p s
  | .vcmpm d a b depth trees => Sys2Proof.Machine.execVcmpm d a b depth trees s
  | .vleaf d a depth trees => Sys2Proof.Machine.execVleaf d a depth trees s
  | .vlut t d a b => Sys2Proof.Machine.execVlut t d a b s
  | .vquant t e5 rm d a p => Sys2Proof.Machine.execVquant t e5 rm d a p s
  | .vdeq t e5 rm d a p => Sys2Proof.Machine.execVdeq t e5 rm d a p s
  | .pand d a b => Sys2Proof.Machine.execPand d a b s
  | .por d a b => Sys2Proof.Machine.execPor d a b s
  | .pxor d a b => Sys2Proof.Machine.execPxor d a b s
  | .pnot d a => Sys2Proof.Machine.execPnot d a s
  | .pmov m => Sys2Proof.Machine.execPmov m s
  | .elandGrant quad tensor => Sys2Proof.Machine.execElandGrant quad tensor s
  | .vectorResultWrite quad entry => Sys2Proof.Machine.execVectorResultWrite quad entry s
  | .tcfg d a => Sys2Proof.Machine.execTcfg d a s
  | .tcfgClaim d a => Sys2Proof.Machine.execTcfgClaim d a s
  | .tcfgRel d a => Sys2Proof.Machine.execTcfgRel d a s
  | .arrayReleaseDone quad => Sys2Proof.Machine.execArrayReleaseDone quad s
  | .tldw a => Sys2Proof.Machine.execTldw a s
  | .planeReady quad entry => Sys2Proof.Machine.execPlaneReady quad entry s
  | .tsmeta a => Sys2Proof.Machine.execTsmeta a s
  | .tscq a count => Sys2Proof.Machine.execTscq a count s
  | .tmma a b => Sys2Proof.Machine.execTmma a b s
  | .tensorStepComplete quad entry => Sys2Proof.Machine.execTensorStepComplete quad entry s
  | .tzero a => Sys2Proof.Machine.execTzero a s
  | .tdrain t rm z amax a b => Sys2Proof.Machine.execTdrain t rm z amax a b s
  | .drainFlagDeposit msg => Sys2Proof.Machine.execDrainFlagDeposit msg s
  | .rpt len reps stride => Sys2Proof.Machine.execRpt len reps stride s
  | .sequencerPlace core => Sys2Proof.Machine.execSequencerPlace core s
  | .cpy a => Sys2Proof.Machine.execCpy a s
  | .gbin a => Sys2Proof.Machine.execGbin a s
  | .operationAccept cluster => Sys2Proof.Machine.execOperationAccept cluster s
  | .engineElementDeliver cluster ch => Sys2Proof.Machine.execEngineElementDeliver cluster ch s
  | .copyComplete cluster ch => Sys2Proof.Machine.execCopyComplete cluster ch s
  | .engineFault cluster ch => Sys2Proof.Machine.execEngineFault cluster ch s
  | .gbinExecute cluster ch => Sys2Proof.Machine.execGbinExecute cluster ch s
  | .binr a ch => Sys2Proof.Machine.execBinr a ch s
  | .binResetExecute cluster ch => Sys2Proof.Machine.execBinResetExecute cluster ch s
  | .cpycan ch => Sys2Proof.Machine.execCpycan ch s
  | .cpyq d ch => Sys2Proof.Machine.execCpyq d ch s
  | .tlread d tl => Sys2Proof.Machine.execTlread d tl s
  | .wptr d ch => Sys2Proof.Machine.execWptr d ch s
  | .tladv d tl => Sys2Proof.Machine.execTladv d tl s
  | .softwareOperationComplete cluster tl n => Sys2Proof.Machine.execSoftwareOperationComplete cluster tl n s
  | .tlwait tl a => Sys2Proof.Machine.execTlwait tl a s
  | .hinit a => Sys2Proof.Machine.execHinit a s
  | .hld d a imm => Sys2Proof.Machine.execHld d a imm s
  | .hst a imm b => Sys2Proof.Machine.execHst a imm b s
  | .hmov op d a b => Sys2Proof.Machine.execHmov op d a b s
  | .hpop d a => Sys2Proof.Machine.execHpop d a s
  | .hnext d a b => Sys2Proof.Machine.execHnext d a b s
  | .hcmp t ge a b => Sys2Proof.Machine.execHcmp t ge a b s
  | .hfound a => Sys2Proof.Machine.execHfound a s
  | .hside set a off => Sys2Proof.Machine.execHside set a off s
  | .hsplit d imm => Sys2Proof.Machine.execHsplit d imm s
  | .hmeet d a => Sys2Proof.Machine.execHmeet d a s
  | .depositDelivery msg => Sys2Proof.Machine.execDepositDelivery msg s
  | .afnew d a b => Sys2Proof.Machine.execAfnew d a b s
  | .afadd d a b => Sys2Proof.Machine.execAfadd d a b s
  | .afsub d a b => Sys2Proof.Machine.execAfsub d a b s
  | .afscl d a b => Sys2Proof.Machine.execAfscl d a b s
  | .afaddc d a b => Sys2Proof.Machine.execAfaddc d a b s
  | .afmul d a b => Sys2Proof.Machine.execAfmul d a b s
  | .afrelu d a => Sys2Proof.Machine.execAfrelu d a s
  | .afcond d a b cap => Sys2Proof.Machine.execAfcond d a b cap s
  | .afrng t d a => Sys2Proof.Machine.execAfrng t d a s
  | .afld d a imm => Sys2Proof.Machine.execAfld d a imm s
  | .afst a imm b => Sys2Proof.Machine.execAfst a imm b s
  | .afmov d a => Sys2Proof.Machine.execAfmov d a s
  | .afdom d => Sys2Proof.Machine.execAfdom d s
  | .afpack t d a b => Sys2Proof.Machine.execAfpack t d a b s
  | .afunpk d a b => Sys2Proof.Machine.execAfunpk d a b s
  | .spawn d a => Sys2Proof.Machine.execSpawn d a s
  | .decr sc a => Sys2Proof.Machine.execDecr sc a s
  | .renq a b => Sys2Proof.Machine.execRenq a b s
  | .rdeq d a => Sys2Proof.Machine.execRdeq d a s
  | .eos stage => Sys2Proof.Machine.execEos stage s
  | .steal d a => Sys2Proof.Machine.execSteal d a s
  | .borrow d => Sys2Proof.Machine.execBorrow d s
  | .xmv cls from_ d a => Sys2Proof.Machine.execXmv cls from_ d a s
  | .wid d sel => Sys2Proof.Machine.execWid d sel s
  | .barrierOpen cluster entry => Sys2Proof.Machine.execBarrierOpen cluster entry s
  | .mfs d r => Sys2Proof.Machine.execMfs d r s
  | .mts r a => Sys2Proof.Machine.execMts r a s
  | .mtsWp a => Sys2Proof.Machine.execMtsWp a s
  | .mtsAfnext a => Sys2Proof.Machine.execMtsAfnext a s
  | .mtsAflim a => Sys2Proof.Machine.execMtsAflim a s
  | .mtsLmcfg a => Sys2Proof.Machine.execMtsLmcfg a s
  | .mtsRrcfg a => Sys2Proof.Machine.execMtsRrcfg a s
  | .mtsPushq a => Sys2Proof.Machine.execMtsPushq a s
  | .mtsLease a => Sys2Proof.Machine.execMtsLease a s
  | .modeBringWrite src => Sys2Proof.Machine.execModeBringWrite src s
  | .trap code => Sys2Proof.Machine.execTrap code s
  | .brk code => Sys2Proof.Machine.execBrk code s
  | .mark code => Sys2Proof.Machine.execMark code s
  | .gtime d => Sys2Proof.Machine.execGtime d s
  | .wfeTimeout ctx => Sys2Proof.Machine.execWfeTimeout ctx s
  | .swp a => Sys2Proof.Machine.execSwp a s
  | .ctxs a b => Sys2Proof.Machine.execCtxs a b s
  | .ctxl a b => Sys2Proof.Machine.execCtxl a b s
  | .tinv a b c => Sys2Proof.Machine.execTinv a b c s
  | .udf bits => Sys2Proof.Machine.execUdf bits s
  | .teamPlace part => Sys2Proof.Machine.execTeamPlace part s
  | .teamSwapOut cluster entry => Sys2Proof.Machine.execTeamSwapOut cluster entry s
  | .teamEnd cluster entry => Sys2Proof.Machine.execTeamEnd cluster entry s
  | .launchEnd part ln => Sys2Proof.Machine.execLaunchEnd part ln s
  | .ringDispatch core => Sys2Proof.Machine.execRingDispatch core s
  | .ringEnqueue msg => Sys2Proof.Machine.execRingEnqueue msg s
  | .ringReoffer held => Sys2Proof.Machine.execRingReoffer held s
  | .ringfullTimeout held => Sys2Proof.Machine.execRingfullTimeout held s
  | .governorSample cluster => Sys2Proof.Machine.execGovernorSample cluster s
  | .eosForward core => Sys2Proof.Machine.execEosForward core s
  | .balancerPass die => Sys2Proof.Machine.execBalancerPass die s
  | .migrationCommand msg => Sys2Proof.Machine.execMigrationCommand msg s
  | .homeReadRequest msg => Sys2Proof.Machine.execHomeReadRequest msg s
  | .forwardedRead msg => Sys2Proof.Machine.execForwardedRead msg s
  | .homeWriteRequest msg => Sys2Proof.Machine.execHomeWriteRequest msg s
  | .writeMulticast msg => Sys2Proof.Machine.execWriteMulticast msg s
  | .tokenAnswer msg => Sys2Proof.Machine.execTokenAnswer msg s
  | .ownerNotice msg => Sys2Proof.Machine.execOwnerNotice msg s
  | .writeBack msg => Sys2Proof.Machine.execWriteBack msg s
  | .requestTimeout holder line => Sys2Proof.Machine.execRequestTimeout holder line s
  | .persistentRetry holder line => Sys2Proof.Machine.execPersistentRetry holder line s
  | .persistentActivate line => Sys2Proof.Machine.execPersistentActivate line s
  | .remoteLeaseRead msg => Sys2Proof.Machine.execRemoteLeaseRead msg s
  | .remoteWrite msg => Sys2Proof.Machine.execRemoteWrite msg s
  | .holdEnd line => Sys2Proof.Machine.execHoldEnd line s
  | .leaseExpiry holder line => Sys2Proof.Machine.execLeaseExpiry holder line s
  | .driftCheck die => Sys2Proof.Machine.execDriftCheck die s
  | .driftTrip die => Sys2Proof.Machine.execDriftTrip die s
  | .driftRecovery die => Sys2Proof.Machine.execDriftRecovery die s
  | .gtResync die => Sys2Proof.Machine.execGtResync die s
  | .migratedResume ctx => Sys2Proof.Machine.execMigratedResume ctx s
  | .snoopTimeout ctx => Sys2Proof.Machine.execSnoopTimeout ctx s
  | .peerWriteAck msg => Sys2Proof.Machine.execPeerWriteAck msg s
  | .memoryReply msg => Sys2Proof.Machine.execMemoryReply msg s
  | .walkComplete ctx => Sys2Proof.Machine.execWalkComplete ctx s
  | .kill ctx => Sys2Proof.Machine.execKill ctx s
  | .contextNumberFree ctx => Sys2Proof.Machine.execContextNumberFree ctx s
  | .fatalDump part => Sys2Proof.Machine.execFatalDump part s
  | .spill ctx => Sys2Proof.Machine.execSpill ctx s
  | .spillComplete ctx => Sys2Proof.Machine.execSpillComplete ctx s
  | .fill ctx => Sys2Proof.Machine.execFill ctx s
  | .watchdogSlotKill core slot => Sys2Proof.Machine.execWatchdogSlotKill core slot s
  | .crossTrigger cluster => Sys2Proof.Machine.execCrossTrigger cluster s
  | .haltSettled cluster => Sys2Proof.Machine.execHaltSettled cluster s
  | .drainComplete quad entry => Sys2Proof.Machine.execDrainComplete quad entry s
  | .tinvComplete id => Sys2Proof.Machine.execTinvComplete id s
  | .refusedTokenReturn msg => Sys2Proof.Machine.execRefusedTokenReturn msg s
  | .modeBaloffWrite on => Sys2Proof.Machine.execModeBaloffWrite on s
  | .doorbell part queue tail => Sys2Proof.Machine.execDoorbell part queue tail s
  | .launch part queue => Sys2Proof.Machine.execLaunch part queue s
  | .copy part queue => Sys2Proof.Machine.execCopy part queue s
  | .mapPageEntries part queue => Sys2Proof.Machine.execMapPageEntries part queue s
  | .mapBar2Placement part queue => Sys2Proof.Machine.execMapBar2Placement part queue s
  | .unmap part queue => Sys2Proof.Machine.execUnmap part queue s
  | .fenceCommand part queue => Sys2Proof.Machine.execFenceCommand part queue s
  | .partition part queue => Sys2Proof.Machine.execPartition part queue s
  | .dump part queue => Sys2Proof.Machine.execDump part queue s
  | .reset part queue => Sys2Proof.Machine.execReset part queue s
  | .attest part queue => Sys2Proof.Machine.execAttest part queue s
  | .update part queue => Sys2Proof.Machine.execUpdate part queue s
  | .imageSwitch part queue => Sys2Proof.Machine.execImageSwitch part queue s
  | .hostRead addr size => Sys2Proof.Machine.execHostRead addr size s
  | .hostWrite addr data => Sys2Proof.Machine.execHostWrite addr data s
  | .hostOwnershipRequest line half => Sys2Proof.Machine.execHostOwnershipRequest line half s
  | .backInvalidateResponse line half dirty => Sys2Proof.Machine.execBackInvalidateResponse line half dirty s
  | .hostSnoop line => Sys2Proof.Machine.execHostSnoop line s
  | .scrubVisit line => Sys2Proof.Machine.execScrubVisit line s
  | .uncorrectableError line => Sys2Proof.Machine.execUncorrectableError line s
  | .coreReset core => Sys2Proof.Machine.execCoreReset core s
  | .clusterReset cluster => Sys2Proof.Machine.execClusterReset cluster s
  | .partitionReset part => Sys2Proof.Machine.execPartitionReset part s
  | .powerOn cxlen => Sys2Proof.Machine.execPowerOn cxlen s
  | .powerSample watts => Sys2Proof.Machine.execPowerSample watts s
  | .thermalLimit die celsius => Sys2Proof.Machine.execThermalLimit die celsius s
  | .dbgctlHalt cluster => Sys2Proof.Machine.execDbgctlHalt cluster s
  | .dbgctlResume cluster => Sys2Proof.Machine.execDbgctlResume cluster s
  | .nilogEnable core value => Sys2Proof.Machine.execNilogEnable core value s
  | .accountingCounterRead core which => Sys2Proof.Machine.execAccountingCounterRead core which s
  | .droopTrip die detector => Sys2Proof.Machine.execDroopTrip die detector s
  | .registerWrite r value => Sys2Proof.Machine.execRegisterWrite r value s
  | .peerRead peer addr size => Sys2Proof.Machine.execPeerRead peer addr size s
  | .peerWrite peer addr data => Sys2Proof.Machine.execPeerWrite peer addr data s
  | .yield => Sys2Proof.Machine.execYield s
  | .endT => Sys2Proof.Machine.execEndT s
  | .icinv => Sys2Proof.Machine.execIcinv s
  | .fbar => Sys2Proof.Machine.execFbar s
  | .tswap => Sys2Proof.Machine.execTswap s
  | .twait => Sys2Proof.Machine.execTwait s
  | .rptw => Sys2Proof.Machine.execRptw s
  | .hdrop => Sys2Proof.Machine.execHdrop s
  | .cdone => Sys2Proof.Machine.execCdone s
  | .retbr => Sys2Proof.Machine.execRetbr s
  | .tbar => Sys2Proof.Machine.execTbar s
  | .eret => Sys2Proof.Machine.execEret s
  | .wfe => Sys2Proof.Machine.execWfe s
  | .tsync => Sys2Proof.Machine.execTsync s
  | .nop => Sys2Proof.Machine.execNop s
  | .pad => Sys2Proof.Machine.execPad s
  | .deviceReset => Sys2Proof.Machine.execDeviceReset s
  | .linkTraining => Sys2Proof.Machine.execLinkTraining s
  | .securityAlarm => Sys2Proof.Machine.execSecurityAlarm s

end Sys2Proof.Machine
end

