-- ==== Sys2Proof/Machine/Turn.lean ====
section
/-! DEFINITION. What happens next: the issue of an instruction in a slot's turn (R228 to R230, R257, R284 to R286), the
passing of a cycle (R22, R65, R271), and the steps of the machine that are due. -/

namespace Sys2Proof.Machine

open Sys2Proof

/-! ### Issue (R228, R230) -/

/-- The context that a slot runs. -/
def State.running (s : State) (core slot : Nat) : Option Nat :=
  (s.ctxs.find? (fun e => e.2.slot = some (core * 16 + slot))).map Prod.fst

/-- A slot in the rotation (R228): it holds a context that waits for nothing, is not stopped, lent or held. -/
def State.inRotation (s : State) (core slot : Nat) : Bool :=
  let x := s.slot (core * 16 + slot)
  x.v && !x.withheld && !s.halted (clusterOf core) &&
  (match s.running core slot with
   | none => false
   | some key =>
     let c := s.ctx key
     c.wait.isNone && !c.migrating && !c.killing && !c.ended)

/-- A slot that may issue in this cycle: it has not issued in the preceding 7 (R228), and a borrower that has resumed can
take its workspace again (R147). -/
def State.eligible (s : State) (core slot : Nat) : Bool :=
  s.inRotation core slot && ((s.running core slot).all (s.canRetake core)) &&
  (match (s.slot (core * 16 + slot)).lastIssue with
   | none => true
   | some c => decide (c + 8 ≤ s.cycle))

/-- The entries of the rotation table from one on, wrapping. -/
def entriesFrom (e : Nat) : List Nat := (List.range 32).map (fun i => (e + i) % 32)

/-- The slot that issues in this cycle: by the pointer (R228), or the one that keeps the turns (R230).
DESIGN CHOICE: log 5. DEDUCED: log 47. -/
def State.nextSlot (s : State) (core : Nat) : Option Nat :=
  let c := s.core core
  if s.dev.bring then
    match c.turnHolder with
    | some k => if s.eligible core k then some k else none
    | none =>
      let at0 := ((List.range 32).find? (fun e => s.rtab core e = c.lastSlot)).getD 31
      ((entriesFrom (at0 + 1)).map (s.rtab core)).find? (s.eligible core)
  else ((entriesFrom ((s.cycle - c.rotBase) % 32)).map (s.rtab core)).find? (s.eligible core)

/-- A turn noted: the slot's spacing, and the slot that issued last, which keeps the turns in BRING mode (R230). -/
def noteTurn (core slot : Nat) (s : State) : State :=
  let now := s.gtOf core
  let s := s.modSlot (core * 16 + slot) (fun x => { x with lastIssue := some s.cycle })
  s.modCore core (fun c =>
    { c with lastSlot := slot, lastIssue := s.cycle, turnHolder := some slot
             turnSince := if s.dev.bring && c.turnHolder = some slot then c.turnSince else now })

/-- An instruction issued at a PC, which a droop sample shows (R283). -/
def noteIssue (me : Me) (s : State) : State :=
  let pc := (s.pc me.base).toNat
  (noteTurn me.core (me.slot % 16) s).modCore me.core (fun c => { c with lastPc := pc })

/-- The instructions that raise `#PRIV` at user level (R302, R386). -/
def privileged : Instr → Bool
  | .mfs _ r => r = .ptroot
  | .mts r _ => mtsPrivileged r
  | .mtsWp _ | .mtsAfnext _ | .mtsAflim _ | .mtsLmcfg _ | .mtsRrcfg _ | .mtsLease _ | .modeBringWrite (.reg _) => true
  | .eret | .swp _ | .ctxs .. | .ctxl .. | .tinv .. | .tsync => true
  | _ => false

/-- The register words of an instruction without what a lost line would have kept (R256). -/
def dropWords (base : Nat) (i : Instr) (s : State) : State :=
  (regSpans i).foldl (fun s r =>
    if (s.lostAt (base + r.1) r.2 accRead).isSome then s.wr (base + r.1) r.2 0 else s) s

/-- A cause has been taken by a context: trap entry at user level, a fatal context at PL = 1 (R243, R259). -/
def tookTrap (me : Me) (s t : State) : Bool :=
  if s.pl me.base then (t.ctx me.key).killing else t.pl me.base

/-- A wait before the last check of an instruction, or at the list of `afpack` or `afunpk`: no effect is made. -/
def Cont.checking (c : Cont) : Bool :=
  match c.prog with
  | .xlate _ :: _ | .prot :: _ | .marked :: _ | .verify :: _ => !c.committed && c.got.isEmpty
  | .finish (.afpack ..) :: _ | .finish (.afunpk ..) :: _ => true
  | _ => false

/-- An instruction with a register word in a lost line (R257): the causes that come before that `#MCHK` are raised, at
once or after a wait; else the `#MCHK` is, and none of its effects is made (R2, R3). DEDUCED: log 51. -/
def executeLost (me : Me) (i : Instr) (t : TrapInfo) (s : State) : Out :=
  match exec i (dropWords me.base i s) with
  | .next s' =>
    if tookTrap me s s' then ok s'
    else
      match (s'.ctx me.key).wait with
      | some w =>
        if w.cont.checking then ok (s'.setWait me.key { w with cont := { w.cont with reg := some t } })
        else ok (trapEntry me t s)
      | none => ok (trapEntry me t s)
  | o => o

/-- The instruction that fetch has read, executed: `#PRIV` comes first (R314); then `#MCHK` for a register word in a lost
line, at its place among the causes (R3, R257). The Eland unit reads the registers of its instructions at their grants
(R331). -/
def execute (me : Me) (i : Instr) (s : State) : Out :=
  if (privileged i && !s.pl me.base) || isVectorOp i || isTensorOp i then exec i s
  else
    match s.lostFirst me.base i, s.lostLater me.base i with
    | some t, _ => ok (trapEntry me t s)
    | none, some t => executeLost me i t s
    | none, none => exec i s

/-- The issue of the instruction at a slot's PC. A pad word takes no turn, and fetch goes on behind it (R285); bytes
that are no instruction raise `#ILL` (R296). DESIGN CHOICE: log 37. -/
def issueAt (me : Me) : Nat → State → Out
  | 0, s => ok s
  | fuel + 1, s =>
    match fetch me s with
    | (.trap t, s) => ok (trapEntry me t (noteTurn me.core (me.slot % 16) s))
    | (.wait b, s) => ok (waitOn me b {} s)
    | (.bytes bs, s) =>
      match decode bs with
      | .error _ => ok (trapEntry me { cause := .ill, info0 := (first64 bs).toNat } (noteIssue me s))
      | .ok (.pad, _) => match execPad s with
        | .next s => issueAt me fuel s
        | o => o
      | .ok (i, _) => execute me i (noteIssue me s)

/-- A slot's turn. A borrower that resumes takes its workspace again first (R147); one whose workspace is in a lost line is
fatal (R257). DESIGN CHOICE: log 14. -/
def issueTurn (core slot : Nat) (s : State) : Out :=
  if !s.inRotation core slot then ok s
  else
    let s := { s with turnCore := core, turnSlot := slot }
    let me := s.me
    match s.borrowLost me.key with
    | some l => ok ((fatalLost me.key core (l * 128) s).yieldTurns core me.slot)
    | none =>
      match reborrow core me.key s with
      | none => ok s
      | some s =>
        match s.wsLost me.base [(offPc, 128)] with
        | some t => ok (trapEntry me t (noteTurn core slot s))
        | none => issueAt me padFuel s

/-! ### Time (R22, R65, R271) -/

/-- One nanosecond of a die's local counter: it stands while its clock is stopped, or while it waits for the
reference. -/
def tickDie (ref : Nat) (d : Die) : Die :=
  if !d.running then d
  else if d.waits then (if d.gt ≤ ref then { d with waits := false } else d)
  else { d with gt := d.gt + 1 }

/-- One core cycle; three cycles are one tick of GT (R22). DESIGN CHOICE: log 52. -/
def tickCycle (s : State) : State :=
  let s := { s with cycle := s.cycle + 1 }
  if s.cycle % 3 = 0 then
    let s := { s with refGt := s.refGt + 1 }
    (s.modDie 0 (tickDie s.refGt)).modDie 1 (tickDie s.refGt)
  else s

/-! ### The steps that are due -/

/-- The row that takes a message, other than an access to memory and a migration. -/
def dueMsg (s : State) (m : Msg) : List Instr :=
  match m.body with
  | .remoteWrite key => if s.heldAtHome key then [] else [Instr.remoteWrite m.id]
  | .vtReply .. | .leaseReply .. | .wbAck .. => [Instr.memoryReply m.id]
  | .leaseReq .. => [Instr.remoteLeaseRead m.id]
  | .readReq .. => [Instr.homeReadRequest m.id]
  | .fwdRead .. => [Instr.forwardedRead m.id]
  | .writeReq .. => [Instr.homeWriteRequest m.id]
  | .multi .. => [Instr.writeMulticast m.id]
  | .tokens .. => [Instr.tokenAnswer m.id]
  | .ownerNotice .. => [Instr.ownerNotice m.id]
  | .writeBack .. => [Instr.writeBack m.id]
  | .pushTurn .. => [Instr.pushTokenArrival m.id]
  | .refusedTok .. => [Instr.refusedTokenReturn m.id]
  | .peerAck _ | .peerDone .. => [Instr.peerWriteAck m.id]
  | .tinv .. => [Instr.tinvComplete m.id]
  | _ => []

/-- The row that takes an acknowledgement for a context's workspace (R60). -/
def dueDelivery (m : Msg) : List Instr :=
  match m.body with
  | .pushAck .. => [Instr.pushAckArrival m.id]
  | _ => []

/-- The row that takes a record on its way to a ring. -/
def dueRecord (m : Msg) : List Instr :=
  match m.body with
  | .record .. => [Instr.ringEnqueue m.id]
  | _ => []

/-- A list with an item put before the first that has a larger key. -/
def insKey {α : Type} (k : Nat) (x : α) : List (Nat × α) → List (Nat × α)
  | [] => [(k, x)]
  | y :: r => if k < y.1 then (k, x) :: y :: r else y :: insKey k x r

/-- The place in R99 of a deposit by a core: that of a slot of the owning core first, else by the number of the sending
core (R142, R143). -/
def State.depositPlace (s : State) (key src : Nat) : Nat :=
  match (s.ctx key).loc with
  | .frame g _ => if g = src then 0 else src + 1
  | _ => src + 1

/-- What reaches a local memory from the cores of its cluster, or a ring from another core, with its place: accesses by the
number of the accessing core, deposits by that of the sending core (R99, R142, R143), steals and migrations by that of the
core that makes them (R240). -/
def State.arrival (s : State) (m : Msg) : Option (Nat × Instr) :=
  match m.body with
  | .access key =>
    if s.heldAtHome key then none else some (((s.meOf key).map (fun me => me.core + 1)).getD 0, .memoryReply m.id)
  | .deposit key _ _ _ _ src => some (s.depositPlace key src, .depositDelivery m.id)
  | .drainFlags key _ src => some (s.depositPlace key src, .drainFlagDeposit m.id)
  | .migrate donor _ _ => if s.halted (clusterOf donor) then none else some (donor + 1, .migrationCommand m.id)
  | _ => none

/-- The arrivals of a cycle in the order of R99 and R240. -/
def dueArrivals (s : State) : List Instr :=
  (s.net.foldl (fun acc m => match s.arrival m with
    | some (k, i) => insKey k i acc
    | none => acc) []).map Prod.snd

/-- A kill by the watchdog that has not ended within 1 ms, so that the next rung is taken (R268), a halt of its cluster not
counted (R277). -/
def State.killOverdue (s : State) (c : Ctx) : Bool :=
  c.killing && c.why = .watchdog && !c.ended && !s.halted c.cluster &&
    decide (c.killGt + 1000000 ≤ s.gtOf (c.cluster * 8))

/-- The core whose reset the ladder takes for a context (R268). -/
def Ctx.core (c : Ctx) : Nat := match c.loc with | .frame g _ => g | _ => c.last / 16

/-- What is due for a context after the turns of the cores. -/
def dueCtx (s : State) (key : Nat) (c : Ctx) : List Instr :=
  (if c.ended then [Instr.contextNumberFree key] else []) ++
  (if c.killing && !c.ended && !(s.part (key / 2 ^ 24)).fatal.any (fun r => r.ctx = key) then [Instr.kill key] else []) ++
  (if s.killOverdue c then [Instr.coreReset c.core] else []) ++
  (match c.loc with
   | .spilling .. => [Instr.spillComplete key]
   | .filling .. => [Instr.fill key]
   | _ => []) ++
  (match c.wait.map (·.block) with
   | some (.walk ..) | some .recheck => [Instr.walkComplete key]
   | some (.snoop ..) => [Instr.snoopTimeout key]
   | _ => [])

/-- What is due for a context before the turns of the cores: the waits that the passing of time ends. -/
def timedCtx (key : Nat) (c : Ctx) : List Instr :=
  (if c.migrating then [Instr.migratedResume key] else []) ++
  (match c.wait.map (·.block) with
   | some (.div ..) => [Instr.divisionComplete key]
   | some (.release ..) | some .pushPend | some (.peerAcks _) => [Instr.releaseComplete key]
   | some (.wfe _) => [Instr.wfeTimeout key]
   | _ => [])

/-- An operation whose writes a streamer delivers (R121, R130). -/
def ChanOp.streamed (o : ChanOp) : Bool :=
  match o.kind, o.lead with
  | .copy .., some (_, src) => src ≠ copySrc
  | .copy .., none => false
  | _, _ => true

/-- The work due at a cluster's channels: that of the cluster copy engine, or that of the streamers (R99). -/
def dueChans (streams : Bool) (cl : Nat) (c : Cluster) : List Instr :=
  c.chans.flatMap (fun e =>
    (match e.2.ops with
     | [] => []
     | o :: _ =>
       if o.streamed ≠ streams then []
       else
         match o.kind with
         | .copy .. => [Instr.engineElementDeliver cl e.1]
         | .gbin .. => [Instr.gbinExecute cl e.1]
         | .binr _ => [Instr.binResetExecute cl e.1]) ++
    (if streams || (e.2.ops.isEmpty && !e.2.asked) then [] else [Instr.engineFault cl e.1, Instr.copyComplete cl e.1])) ++
  (if streams then [] else
    [Instr.operationAccept cl] ++ c.tls.flatMap (fun e => e.2.soft.map (fun x => Instr.softwareOperationComplete cl e.1 x.1)))

/-- What else is due for a cluster. -/
def dueCluster (s : State) (cl : Nat) (c : Cluster) : List Instr :=
  (if c.gov.ln.isSome && decide (s.cycle % 3 = 0) && decide (s.gtOf (cl * 8) % 1000 = 0) then [Instr.governorSample cl] else []) ++
  c.teams.flatMap (fun t => [Instr.barrierOpen cl t.1, .teamSwapOut cl t.1, .teamEnd cl t.1]) ++
  (if c.dbg.trigger then [Instr.crossTrigger cl] else []) ++
  (if c.dbg.state = 1 then [Instr.haltSettled cl] else [])

/-- The work of a quad's Eland unit that ends: results written, planes, steps, the clearing of the array (R171, R175). -/
def dueResults (quad : Nat) (q : Quad) : List Instr :=
  q.granted.flatMap (fun g =>
    match g.instr with
    | .tldw _ => [Instr.planeReady quad g.id]
    | .tmma .. | .twait | .tswap => [Instr.tensorStepComplete quad g.id]
    | .tdrain .. => []
    | .tcfgRel .. => [Instr.arrayReleaseDone quad]
    | _ => [Instr.vectorResultWrite quad g.id]) ++
  (if q.releasing.isSome then [Instr.arrayReleaseDone quad] else [])

/-- What a quad's Eland unit does in local memory, in its place of R99 (R181): drains that end, then two vector grants, to
different lists, and one tensor grant (R170). -/
def dueGrants (s : State) (quad : Nat) (q : Quad) : List Instr :=
  let lists := (List.range 4).filter (fun k => !(s.core (4 * quad + k)).vlist.isEmpty)
  q.granted.flatMap (fun g => match g.instr with | .tdrain .. => [Instr.drainComplete quad g.id] | _ => []) ++
  (if lists.isEmpty then [] else [Instr.elandGrant quad false]) ++
  (if lists.length < 2 then [] else [Instr.elandGrant quad false]) ++
  (if (List.range 4).any (fun k => !(s.core (4 * quad + k)).tlist.isEmpty) then [Instr.elandGrant quad true] else [])

/-- The quads that exist: those with work granted, and those of the cores that have entries. -/
def State.quadsDue (s : State) : List Nat :=
  s.cores.foldl (fun acc c =>
    if (c.2.vlist.isEmpty && c.2.tlist.isEmpty) || acc.contains (quadOf c.1) then acc else acc ++ [quadOf c.1])
    (tkeys s.quads)

/-- A core whose slots have none issue in this cycle while one is eligible: since when that is so (R268). -/
def noteStuck (s : State) (g : Nat) : State :=
  let c := s.core g
  let since := if c.lastIssue = s.cycle || !(List.range 16).any (s.eligible g) then none else some (c.stuckFrom.getD s.cycle)
  if since = c.stuckFrom then s else s.setCore g { c with stuckFrom := since }

/-- No slot of a core has issued for 1 ms while one is eligible (R268). -/
def State.coreStuck (s : State) (g : Nat) : Bool := (s.core g).stuckFrom.any (fun t => decide (t + 3000000 ≤ s.cycle))

/-- What is due for a core after the turns of the cores. -/
def dueCore (s : State) (g : Nat) (c : Core) : List Instr :=
  (if c.seq.ctx.isSome && !s.halted (clusterOf g) then [Instr.sequencerPlace g] else []) ++
  (if (s.cluster (clusterOf g)).gov.eosHeld.any (fun e => e.1 = g) then [Instr.eosForward g] else []) ++
  (match s.oldestParked g with
   | some key => if (s.freeFrames g).length < s.framesWanted g then [Instr.spill key] else []
   | none => []) ++
  (if s.coreStuck g then [Instr.coreReset g] else [])

/-- What is due for a holder's lines. -/
def dueHolder (s : State) (h : Nat) (t : Tbl Copy) : List Instr :=
  t.flatMap (fun e =>
    (match e.2.miss with
     | some m => if s.cycle < m.sent + 64 then [] else [Instr.persistentRetry h e.1, Instr.requestTimeout h e.1]
     | none => []) ++
    (match e.2.lease with
     | some le => if le ≤ s.gt (holderDie h) then [Instr.leaseExpiry h e.1] else []
     | none => []))

/-- What is due for a partition: its launches, its dumps. -/
def duePart (p : Nat) (x : Part) : List Instr :=
  (if x.waiting.isEmpty then [] else [Instr.teamPlace p]) ++ x.launches.map (fun l => Instr.launchEnd p l.1) ++
  (if x.fatal.isEmpty then [] else [Instr.fatalDump p])

/-- What is due for a die: its detector, and the balancer every 10 us. -/
def dueDie (s : State) (die : Nat) (d : Die) : List Instr :=
  (if s.cycle % 12 = 0 then [Instr.driftCheck die] else []) ++
  (if 16 < s.drift die then [Instr.driftTrip die] else []) ++
  (if d.tripped.isSome then [Instr.gtResync die, Instr.driftRecovery die] else []) ++
  (if s.cycle % 3 = 0 ∧ s.gt die % 10000 = 0 then [Instr.balancerPass die] else [])

/-- The steps due before the turns of a cycle's cores: what time alone brings about, the dispatch of ring heads (R240)
and the ends of the Eland units' work. DESIGN CHOICE: log 14. -/
def dueFirst (s : State) : List Instr :=
  s.dies.flatMap (fun d => dueDie s d.1 d.2) ++
  s.ctxs.flatMap (fun c => timedCtx c.1 c.2) ++
  s.cores.flatMap (fun c => if s.hasRecord c.1 then [Instr.ringDispatch c.1] else []) ++
  s.quads.flatMap (fun q => dueResults q.1 q.2)

/-- The steps due once the turns of the cores and the Eland units have been, in the order of R99: what reaches a local
memory or a ring from the cores (R240), the copy engines, the streamers; then acknowledgements, records (R113), messages
and the rest; one whose condition does not hold changes nothing. DESIGN CHOICE: log 14. -/
def dueLast (s : State) : List Instr :=
  dueArrivals s ++
  s.clusters.flatMap (fun c => dueChans false c.1 c.2) ++
  s.clusters.flatMap (fun c => dueChans true c.1 c.2) ++
  s.net.flatMap dueDelivery ++
  s.held.flatMap (fun h => [Instr.ringReoffer h.id]) ++
  s.net.flatMap dueRecord ++
  s.held.flatMap (fun h => [Instr.ringfullTimeout h.id]) ++
  s.net.flatMap (dueMsg s) ++
  s.banks.flatMap (fun b => b.2.persist.map (fun p => Instr.persistentActivate p.line) ++
    b.2.heldReads.map (fun r => Instr.holdEnd r.1)) ++
  s.copies.flatMap (fun h => dueHolder s h.1 h.2) ++
  s.ctxs.flatMap (fun c => dueCtx s c.1 c.2) ++
  s.cores.flatMap (fun c => dueCore s c.1 c.2) ++
  s.clusters.flatMap (fun c => dueCluster s c.1 c.2) ++
  s.parts.flatMap (fun p => duePart p.1 p.2) ++
  s.slots.flatMap (fun x => if s.slotExpired (x.1 / 16) (x.1 % 16) then [Instr.watchdogSlotKill (x.1 / 16) (x.1 % 16)] else [])

/-- The queues that run a command, would start one, or have an image to switch to. -/
def State.dueQueues (s : State) : List (Nat × Nat) :=
  s.allQueues.filter (fun k => (s.cmdOf k.1 k.2).isSome || (s.queue k.1 k.2).switchTo.isSome)

/-- The turn of a command queue: the row of the command at its head, or of the switch of its image (R266, R267). -/
def queueTurn (p q : Nat) (s : State) : Out :=
  match s.cmdOf p q with
  | none => execImageSwitch p q s
  | some (_, c) =>
    if (s.queue p q).switchTo.isSome && (s.queue p q).busy.isNone then execImageSwitch p q s
    else
      match c.op with
      | 1 => execLaunch p q s
      | 2 => execCopy p q s
      | 3 => if Config.mapKind c.args = 0 then execMapPageEntries p q s else execMapBar2Placement p q s
      | 4 => execUnmap p q s
      | 6 => execPartition p q s
      | 7 => execDump p q s
      | 8 => execReset p q s
      | 9 => execAttest p q s
      | 10 => execUpdate p q s
      | _ => execFenceCommand p q s

/-- The cores that take a turn in a cycle, ascending: those with slots. -/
def State.coresDue (s : State) : List Nat := ((tkeys s.slots).map (· / 16)).foldl feIns []

/-- The Eland units' part of a cycle, behind the turns of its cores (R181). DESIGN CHOICE: log 14. -/
def elandCycle (s : State) : State :=
  { s with closing := 1, agenda := (s.quadsDue.flatMap (fun q => dueGrants s q (s.quad q))).map .event }

/-- The rest of a cycle. DESIGN CHOICE: log 14. -/
def closeCycle (s : State) : State :=
  let s := s.coresDue.foldl noteStuck s
  { s with closing := 2
           agenda := (dueLast s).map .event ++ s.dueQueues.map (fun q => .command q.1 q.2) }

/-- The next cycle: time passes, the steps that are due follow, and then each core may issue.
DESIGN CHOICE: log 14, 52. -/
def nextCycle (s : State) : State :=
  let s := tickCycle { s with closing := 0 }
  { s with agenda := (dueFirst s).map .event, todo := s.coresDue }

/-- The next part of a cycle, or the next cycle. DESIGN CHOICE: log 14. -/
def passOn (s : State) : State :=
  match s.closing with
  | 0 => elandCycle s
  | 1 => closeCycle s
  | _ => nextCycle s

/-- An instruction word has no row of its own among the steps of the machine: it runs only where a slot issues it. -/
def isEvent (i : Instr) : Bool := (toFields i).isNone && i ≠ .pad

/-- A turn of the agenda. DESIGN CHOICE: log 7, 13. -/
def runTurn (t : Turn) (s : State) : Out :=
  match t with
  | .issue core slot => issueTurn core slot s
  | .event i => if isEvent i then exec i s else ok s
  | .command p q => queueTurn p q s

/-- A core's turn in the model's own schedule. DESIGN CHOICE: log 14. -/
def coreTurn (core : Nat) (s : State) : Out :=
  match s.nextSlot core with
  | some slot => issueTurn core slot s
  | none => ok s

/-- With power removed nothing happens but a power-on (R273). -/
def poweredOff (s : State) : Out :=
  match s.agenda with
  | .event i :: r =>
    let s := { s with agenda := r }
    match i with
    | .powerOn x => execPowerOn x s
    | _ => ok s
  | _ :: r => ok { s with agenda := r }
  | [] => ok s

end Sys2Proof.Machine
end

