-- ==== Sys2Proof/Machine/Step.lean ====
section
/-! DEFINITION. One step of the machine: the next turn of the agenda, else of the model's own schedule. -/

namespace Sys2Proof.Machine

open Sys2Proof

/-- One step. DESIGN CHOICE: log 7. -/
def step (s : State) : Host.Outcome State Fault Refusal :=
  if !s.dev.powered then poweredOff s
  else
    match s.agenda with
    | t :: r => runTurn t { s with agenda := r }
    | [] =>
      match s.todo with
      | g :: r => coreTurn g { s with todo := r }
      | [] => .next (passOn s)

/-- `s` with an instruction in the fetched block of slot 0 of core 0, which holds a context of number 1 with its PC at
the block, and with that slot's turn next (assumption log 12). DESIGN CHOICE: log 12. -/
def State.withFetchWord (s : State) (nbits w : Nat) : State :=
  let base := wsBase 0 0
  let key := s.partOf 0 * 2 ^ 24 + 1
  let s := s.setPc base 0
  let s := s.setWs base offCtxn (setBits (s.ws base offCtxn) 0 24 1)
  let s := s.setSlot 0 { frame := 0, v := true, block := some (0, BitVec.ofNat 256 (w % 2 ^ nbits)) }
  let s := s.setCtx key { loc := .frame 0 0, slot := some 0 }
  { s with agenda := [.issue 0 0] }

end Sys2Proof.Machine
end

