-- ==== Sys2Proof/Safety.lean ====
section
/-! DEFINITION. What claims say of a run: the invariant that every step keeps, what an action stores and leaves alone,
and the conditions, on the state and the operands alone, under which an access or a unit answers at once. -/

namespace Sys2Proof.Machine

open Sys2Proof

/-- What every state of a run meets: memory is in its canonical form, and BALOFF is clear while BRING is clear
(R269). -/
def Inv (s : State) : Prop := Memory.wf s.mem = true ∧ (s.dev.baloff = true → s.dev.bring = true)

/-- A step that goes on: it answers a next state, no fault and no refusal. -/
def Continues (s : State) : Prop := ∃ t, step s = .next t

/-- `t` is `s` but for memory, and memory is as before outside the byte ranges given as (address, length). -/
def Stores (s t : State) (rs : List (Nat × Nat)) : Prop :=
  t = { s with mem := t.mem } ∧ ∀ a, (∀ r ∈ rs, a < r.1 ∨ r.1 + r.2 ≤ a) → mget t.mem a = mget s.mem a

/-- The issuing context wrote one `w` register and its PC passed an instruction of `len` bytes; nothing else changed. -/
def WroteW (s t : State) (d : WReg) (v : Word) (len : Nat) : Prop :=
  t.getW s.me.base d = v ∧ t.pc s.me.base = s.pc s.me.base + BitVec.ofNat 64 len ∧
    Stores s t [(s.me.base + 8 * d.val, 8), (s.me.base + offPc, 8)]

/-- Memory of `t` is that of `s` outside the byte ranges given as (address, length). -/
def Keeps (s t : State) (rs : List (Nat × Nat)) : Prop :=
  ∀ a, (∀ r ∈ rs, a < r.1 ∨ r.1 + r.2 ≤ a) → mget t.mem a = mget s.mem a

/-- Element `i` of a vector at a width (R6, R330). -/
def lane (w : Nat) (v : Vec) (i : Nat) : BitVec w := v.extractLsb' (i * w) w

/-- Whether element `i` is active under a predicate (R331). -/
def activeAt (s : State) (base : Nat) (p : Option PReg) (i : Nat) : Bool :=
  match p with
  | none => true
  | some p => (s.getP base p).getLsbD i

/-- The issuing context wrote one `v` register, ORed flags into `FPFLAGS`, and its PC passed an instruction of `len`
bytes; no other byte of memory changed. -/
def WroteV (s t : State) (d : VReg) (v : Vec) (flags len : Nat) : Prop :=
  t.getV s.me.base d = v ∧ t.ws s.me.base offFpflags = s.ws s.me.base offFpflags ||| flags ∧
    t.pc s.me.base = s.pc s.me.base + BitVec.ofNat 64 len ∧
    ∀ a, (∀ r ∈ [(s.me.base + offV + 64 * d.val, 64), (s.me.base + offFpflags, 8), (s.me.base + offPc, 8)],
      a < r.1 ∨ r.1 + r.2 ≤ a) → mget t.mem a = mget s.mem a

/-- Trap entry as R243, R246 and R247 give it, for a context at PL = 0: the fault record, `w14` and `w15`, PL, the PC at
the handler of the cause, a block to be fetched anew, and no other byte of memory. -/
def TrapTaken (s t : State) (me : Me) (c : TrapInfo) : Prop :=
  let f := me.base + offFault
  let x := s.ctx me.key
  t.rd f 8 = c.word % 2 ^ 64 ∧
  t.rd (f + 8) 8 = (if c.cause = .call ∨ c.cause = .brk then s.pc me.base + 8 else s.pc me.base).toNat ∧
  t.rd (f + 16) 8 = (s.pc me.base).toNat ∧ t.rd (f + 24) 8 = c.addr % 2 ^ 64 ∧
  t.rd (f + 32) 8 = s.gtOf me.core % 2 ^ 64 ∧ t.rd (f + 40) 8 = c.info0 % 2 ^ 64 ∧ t.rd (f + 48) 8 = c.info1 % 2 ^ 64 ∧
  t.rd (f + 56) 8 = (s.getW me.base 14).toNat ∧ t.rd (f + 64) 8 = (s.getW me.base 15).toNat ∧ t.rd (f + 72) 8 = 0 ∧
  t.rd (f + 80) 8 = x.sign % 2 ^ 64 ∧ t.rd (f + 88) 8 = x.lastdt.toNat ∧ t.rd (f + 96) 8 = x.succp.toNat ∧
  t.rd (f + 104) 24 = 0 ∧ t.rd (f + 128) 64 = leNat c.rcopy % 2 ^ 512 ∧ t.rd (f + 192) 64 = 0 ∧
  t.getW me.base 14 = BitVec.ofNat 64 c.addr ∧ t.getW me.base 15 = BitVec.ofNat 64 c.word ∧
  t.pl me.base = true ∧ t.numOf me.base = s.numOf me.base ∧
  t.pc me.base = BitVec.ofNat 64 ((s.part (s.partOf me.core)).tbase + 256 * c.cause.code) ∧
  (t.slot me.slot).block = none ∧
  ∀ a, (∀ r ∈ [(f, 256), (me.base + 112, 16), (me.base + offPc, 8), (me.base + offCtxn, 8)], a < r.1 ∨ r.1 + r.2 ≤ a) →
    mget t.mem a = mget s.mem a

/-- A cause met at PL = 1 (R243, R259): nothing is written into memory, the context is stopped for a kill, and the
partition holds a record of it for the dump. -/
def FatalTaken (s t : State) (key : Nat) : Prop :=
  t.mem = s.mem ∧ (t.ctx key).killing = true ∧ (t.ctx key).slot = (s.ctx key).slot ∧
    (t.part (key / 2 ^ 24)).fatal.any (fun r => r.ctx = key) = true

/-- A cause met by a context: trap entry at PL = 0, a fatal context at PL = 1. -/
def TrapOr (s t : State) (me : Me) (c : TrapInfo) : Prop :=
  (s.pl me.base = false → TrapTaken s t me c) ∧ (s.pl me.base = true → FatalTaken s t me.key)

/-- The `n` bytes at a virtual address lie in the issuing core's own local memory, at `pa`, through a translation `l`
that a TLB holds and that permits the access: outside every window, in no lost line, on an unchecked page, and not in a
line marked by a drift trip. -/
structure LocalAt (s : State) (me : Me) (op : AccOp) (ea n : Nat) (l : Leaf) : Prop where
  canonical : canonicalVa ea = true
  hit : s.tlbHit me.core (s.ptroot me.base) ea = some l
  permits : l.permits op.need (s.pl me.base) = true
  place : regionOf (l.phys (ea % 2 ^ 57)) = .local me.core
  noWindow : s.windowAt me.core (l.phys (ea % 2 ^ 57) % 0x100000) = none
  general : op.isFe = true → s.inGeneral me.core (l.phys (ea % 2 ^ 57) % 0x100000) 8 = true
  kept : s.lostIn (l.phys (ea % 2 ^ 57)) n = none
  unchecked : l.chk = false
  unmarked : (s.die (dieOf me.core)).marked.contains (l.phys (ea % 2 ^ 57) / 128) = false

/-- The `n` bytes at a virtual address lie in a line of HBM homed on the issuing core's die of which its L1 holds all
512 tokens with data, through a translation `l` that a TLB holds, of a cacheable and unchecked page, and that permits
the access; the line is not lost, not marked, and no half of it is in a host state other than HI. -/
structure HeldAt (s : State) (me : Me) (op : AccOp) (ea n : Nat) (l : Leaf) : Prop where
  core : me.core < 384
  canonical : canonicalVa ea = true
  hit : s.tlbHit me.core (s.ptroot me.base) ea = some l
  permits : l.permits op.need (s.pl me.base) = true
  place : l.phys (ea % 2 ^ 57) < 4 * quarterBytes
  inLine : l.phys (ea % 2 ^ 57) % 128 + n ≤ 128
  size : 0 < n
  home : s.homeDie (l.phys (ea % 2 ^ 57) / 128 * 128) = dieOf me.core
  cacheable : cacheablePol l.pol = true
  unchecked : l.chk = false
  unmarked : (s.die (dieOf me.core)).marked.contains (l.phys (ea % 2 ^ 57) / 128) = false
  half0 : (s.line (l.phys (ea % 2 ^ 57) / 128)).half0 = .hi
  half1 : (s.line (l.phys (ea % 2 ^ 57) / 128)).half1 = .hi
  notLost : (s.line (l.phys (ea % 2 ^ 57) / 128)).lost = false
  tokens : (s.copy me.core (l.phys (ea % 2 ^ 57) / 128)).tokens = 512
  owner : (s.copy me.core (l.phys (ea % 2 ^ 57) / 128)).owner = true
  noLease : (s.copy me.core (l.phys (ea % 2 ^ 57) / 128)).lease = none
  data : (s.copy me.core (l.phys (ea % 2 ^ 57) / 128)).data.isSome = true

/-- A partition keeps no context location table, or one whose lines rest at their homes with all 512 tokens (R250). -/
def TableAtHome (s : State) (p : Nat) : Prop :=
  let base := (s.part p).cltb
  base = 0 ∨ (base % 8 = 0 ∧ base + 2 ^ 27 ≤ localBase ∧ ∀ n, n < 2 ^ 24 →
    (s.line ((base + 8 * n) / 128)).owner = true ∧ (s.line ((base + 8 * n) / 128)).tokens = 512)

/-- A release at a scope completes at once: no push is pending, at `.sys` no peer write is outstanding, and GT has
reached its timestamp (R78, R79). -/
def ReleasesNow (s : State) (me : Me) (sc : Scope) : Prop :=
  sc = .slot ∨ (s.pend me.base = 0 ∧ (sc = .sys → (s.ctx me.key).peerWrites = []) ∧
    s.releaseTs me sc (s.gtOf me.core) ≤ s.gtOf me.core)

/-- The Eland unit of the issuing context's quad is free for it: the context lies in a frame of its core with no lost
line in its workspace, runs no sequence, no list of the quad holds an entry of the resource, and no granted entry is
still to end. -/
def UnitFree (s : State) (me : Me) (tensor : Bool) : Prop :=
  me.core < 384 ∧ s.meOf me.key = some me ∧ s.lostIn me.base 4096 = none ∧ s.seqCore me.key = none ∧ (s.quad (quadOf me.core)).granted = [] ∧
    (∀ k, k < 4 → (s.core (4 * quadOf me.core + k)).entries tensor = []) ∧
    (tensor = true → (s.quad (quadOf me.core)).active.st ≠ 1 ∧ (s.quad (quadOf me.core)).shadow.st ≠ 1)

/-- An Eland instruction issued and granted (R169, R170): its issue places an entry and the slot waits for the grant,
which ends in `b`. -/
def GrantedAs (s : State) (i : Instr) (tensor : Bool) (b : State) : Prop :=
  let q := quadOf s.me.core
  ∃ a, exec i s = .next a ∧ a.waitOf s.me.key = some (.eland q tensor) ∧ a.mem = s.mem ∧
    exec (.elandGrant q tensor) a = .next b

/-- A vector instruction's run (R169 to R171): granted, it writes its results and passes the PC four cycles later, and
nothing of it before. -/
def VectorRuns (s : State) (i : Instr) (P : State → Prop) : Prop :=
  let e := Instr.vectorResultWrite (quadOf s.me.core) s.nextId
  ∃ b t, GrantedAs s i false b ∧ b.mem = s.mem ∧ b.cycle = s.cycle ∧
    (∀ n, n < 4 → exec e { b with cycle := b.cycle + n } = .next { b with cycle := b.cycle + n }) ∧
    exec e { b with cycle := b.cycle + 4 } = .next t ∧ P t

/-- An instruction of the array that is complete with its grant (R169, R350). -/
def ArrayRuns (s : State) (i : Instr) (P : State → Prop) : Prop := ∃ t, GrantedAs s i true t ∧ P t

/-- An instruction of the array whose work ends `n` cycles after its grant, by the step `e`, and not before (R169). -/
def ArrayRunsFor (s : State) (i : Instr) (n : Nat) (e : Instr) (P : State → Prop) : Prop :=
  ∃ b t, GrantedAs s i true b ∧ b.cycle = s.cycle ∧
    (∀ k, k < n → exec e { b with cycle := b.cycle + k } = .next { b with cycle := b.cycle + k }) ∧
    exec e { b with cycle := b.cycle + n } = .next t ∧ P t

/-- An instruction that may reach another core's local memory (R96): at once where it does not, and otherwise its slot
leaves the rotation with nothing written until the replies arrive, which end it. -/
def Runs (s : State) (i : Instr) (far : Prop) (P : State → Prop) : Prop :=
  (¬ far → ∃ t, exec i s = .next t ∧ P t) ∧
  (far → s.meOf s.me.key = some s.me → (s.ctx s.me.key).migrating = false → (s.core s.me.core).log.en = false →
    (∀ m ∈ s.net, m.id < s.nextId) → ∃ t u, exec i s = .next t ∧ t.waitOf s.me.key = some (.reply s.nextId) ∧
      t.mem = s.mem ∧ exec (.memoryReply s.nextId) t = .next u ∧ P u)

/-- An Eland instruction whose grant raises a cause (R169, R184). -/
def GrantTraps (s : State) (i : Instr) (tensor : Bool) (c : TrapInfo) : Prop :=
  ∃ t, GrantedAs s i tensor t ∧ TrapOr s t s.me c

end Sys2Proof.Machine
end

