-- ==== Sys2Proof/Certificates/Slice0/Obligations.lean ====
section
/-! DEFINITION. The statements for the provers. Each says which rules of spec/ it formalises. -/

open Sys2Proof Sys2Proof.Machine


/-! ### Integer and address instructions (R303 to R309) -/

/-- R304: what each two-source instruction but for a division writes into its destination, on operands of `n` bits
zero-extended to 64, with the frame of R303 and R304: the destination, the PC and nothing else.
R304: a division takes its slot out of the rotation with its result decided, and 24 cycles after its issue, not
before, the result is written and the slot goes on. -/
def Obligations.TwoSourceResults : Prop :=
  (∀ (s : State) (ty : Ty) (d a b : WReg), Memory.wf s.mem = true →
    let n := opBits ty
    let x : BitVec n := (s.getW s.me.base a).setWidth n
    let y : BitVec n := (s.getW s.me.base b).setWidth n
    let rows : List ((Ty → WReg → WReg → WReg → Instr) × BitVec n) :=
      [(.add, x + y), (.sub, x - y), (.mul, x * y),
       (.mulh, (x.signExtend (2 * n) * y.signExtend (2 * n)).extractLsb' n n),
       (.mulhn, (x.setWidth (2 * n) * y.setWidth (2 * n)).extractLsb' n n),
       (.and, x &&& y), (.or, x ||| y), (.xor, x ^^^ y), (.andn, x &&& ~~~y),
       (.shl, x <<< (y.toNat % n)), (.shr, x >>> (y.toNat % n)), (.sra, x.sshiftRight (y.toNat % n)),
       (.rotr, x.rotateRight (y.toNat % n)),
       (.min, if y.slt x then y else x), (.max, if x.slt y then y else x),
       (.minn, if y.ult x then y else x), (.maxn, if x.ult y then y else x)]
    ∀ r ∈ rows, ∃ t, exec (r.1 ty d a b) s = .next t ∧ WroteW s t d (r.2.setWidth 64) 8) ∧
  ((∀ (s : State) (ty : Ty) (d a b : WReg),
    let n := opBits ty
    let x : BitVec n := (s.getW s.me.base a).setWidth n
    let y : BitVec n := (s.getW s.me.base b).setWidth n
    let rows : List ((Ty → WReg → WReg → WReg → Instr) × BitVec n) :=
      [(.div, if y = 0 then BitVec.allOnes n else x.sdiv y), (.divn, if y = 0 then BitVec.allOnes n else x.udiv y),
       (.rem, if y = 0 then x else x.srem y), (.remn, if y = 0 then x else x.umod y)]
    ∀ r ∈ rows, ∃ t, exec (r.1 ty d a b) s = .next t ∧
      t.waitOf s.me.key = some (.div d (r.2.setWidth 64) 8 (s.cycle + 24)) ∧ t.mem = s.mem ∧
      ∀ k, k ≠ s.me.key → t.ctx k = s.ctx k) ∧
  (∀ (s : State) (key : Nat) (me : Me) (d : WReg) (v : Word) (len ready : Nat), Memory.wf s.mem = true →
    s.meOf key = some me → s.waitOf key = some (.div d v len ready) →
    (s.cycle < ready → exec (.divisionComplete key) s = .next s) ∧
    (ready ≤ s.cycle → ∃ t, exec (.divisionComplete key) s = .next t ∧ t.getW me.base d = v ∧
      t.pc me.base = s.pc me.base + BitVec.ofNat 64 len ∧ (t.ctx key).wait = none ∧
      ∀ a, (a < me.base + 8 * d.val ∨ me.base + 8 * d.val + 8 ≤ a) → (a < me.base + offPc ∨ me.base + offPc + 8 ≤ a) →
        mget t.mem a = mget s.mem a)))

/-- R305 to R308: the one-source instructions, the immediate and address forms, the bit fields and the select. -/
def Obligations.OneSourceResults : Prop :=
  ∀ (s : State) (ty : Ty) (d a b c : WReg) (imm : Imm) (m : MBase) (lsb : BitVec 6) (width : BitVec 7),
    Memory.wf s.mem = true →
    let base := s.me.base
    let w := fun r => s.getW base r
    let n := opBits ty
    let x := (w a).toNat % 2 ^ n
    let leading := ((List.range n).find? (fun k => x.testBit (n - 1 - k))).getD n
    let trailing := ((List.range n).find? x.testBit).getD n
    let field := ((w a) >>> lsb.toNat).setWidth width.toNat
    let mask := ((BitVec.allOnes width.toNat).setWidth 64) <<< lsb.toNat
    let rows : List (Instr × Word × Nat) :=
      [(.clz ty d a, BitVec.ofNat 64 leading, 8), (.ctz ty d a, BitVec.ofNat 64 trailing, 8),
       (.popc ty d a, BitVec.ofNat 64 ((List.range n).countP x.testBit), 8), (.mov d a, w a, 8),
       (.addi ty d a imm, (((w a).setWidth n : BitVec n) + imm.val.setWidth n).setWidth 64, Imm.len imm),
       (.li d imm, imm.val, Imm.len imm),
       (.lea d m imm, (match m with | .reg r => w r | .pc => s.pc base) + imm.val, Imm.len imm),
       (.sel d a b c, if w a ≠ 0 then w b else w c, 12)]
    (∀ r ∈ rows, ∃ t, exec r.1 s = .next t ∧ WroteW s t d r.2.1 r.2.2) ∧
    (ty.isInt = true → ty.bits ≠ 64 → ∃ t, exec (.sext ty d a) s = .next t ∧
      WroteW s t d (if ty.isSigned then ((w a).setWidth ty.bits).signExtend 64 else ((w a).setWidth ty.bits).setWidth 64) 8) ∧
    (fieldOk lsb.toNat width.toNat = true →
      (∃ t, exec (.bfx false d a lsb width) s = .next t ∧ WroteW s t d (field.setWidth 64) 8) ∧
      (∃ t, exec (.bfx true d a lsb width) s = .next t ∧ WroteW s t d (field.signExtend 64) 8) ∧
      (∃ t, exec (.bfi d a lsb width) s = .next t ∧ WroteW s t d ((w d &&& ~~~mask) ||| ((w a <<< lsb.toNat) &&& mask)) 8))

/-- R309 for the integer types, and the float types by the relation of R157: 1 or 0 into the destination; NV for a
signalling NaN, and no other flag.
R348: the predicate instructions act on all 64 bits. -/
def Obligations.CompareAndPredicateResults : Prop :=
  (∀ (s : State) (ty : Ty) (k : Rel) (d a b : WReg), Memory.wf s.mem = true →
    let base := s.me.base
    let x := (s.getW base a).toNat % 2 ^ ty.bits
    let y := (s.getW base b).toNat % 2 ^ ty.bits
    let xi := ((s.getW base a).setWidth ty.bits).toInt
    let yi := ((s.getW base b).setWidth ty.bits).toInt
    let holds : Bool :=
      if ty.isInt then
        (match k with
         | .lt => if ty.isSigned then decide (xi < yi) else decide (x < y)
         | .le => if ty.isSigned then decide (xi ≤ yi) else decide (x ≤ y)
         | .eq => decide (x = y)
         | .ne => decide (x ≠ y))
      else (fpRel (fmtOf ty) k x y).1
    let flags := if ty.isInt then 0 else (fpRel (fmtOf ty) k x y).2
    ∃ t, exec (.scmp ty k d a b) s = .next t ∧ t.getW base d = (if holds then 1 else 0) ∧
      t.ws base offFpflags = s.ws base offFpflags ||| flags ∧ t.pc base = s.pc base + 8 ∧
      Stores s t [(base + 8 * d.val, 8), (base + offFpflags, 8), (base + offPc, 8)] ∧
      (flags = 0 ∨ flags = flagNV)) ∧
  (∀ (s : State) (d a b : PReg) (w : WReg), Memory.wf s.mem = true →
    let base := s.me.base
    let p := fun r => s.getP base r
    let rows : List (Instr × Word) :=
      [(.pand d a b, p a &&& p b), (.por d a b, p a ||| p b), (.pxor d a b, p a ^^^ p b), (.pnot d a, ~~~(p a)),
       (.pmov (.pp d a), p a), (.pmov (.pw d w), s.getW base w)]
    (∀ r ∈ rows, ∃ t, exec r.1 s = .next t ∧ t.getP base d = r.2 ∧ t.pc base = s.pc base + 8 ∧
      Stores s t [(base + offP + 8 * d.val, 8), (base + offPc, 8)]) ∧
    (∃ t, exec (.pmov (.wp w a)) s = .next t ∧ WroteW s t w (p a) 8))

/-! ### Branches, jumps, predicates and the plain system instructions -/

/-- R310: each branch goes to PC + 4 * Imm when it is taken and past itself otherwise; `jal` links and `loop` counts.
A taken branch fetches its target anew.
R311: `jr` and `jalr` jump to the old value of their register, or raise `#ALIGN` in the jump with the target as the
faulting address, INFO0 = 4 and the access kind of a fetch. -/
def Obligations.BranchAndJumpResults : Prop :=
  (∀ (s : State) (p : PReg) (d a : WReg) (imm : Imm), Memory.wf s.mem = true →
    let me := s.me
    let w := s.getW me.base a
    let goes := fun (i : Instr) (taken : Bool) (r : Option (WReg × Word)) =>
      ∃ t, exec i s = .next t ∧
        t.pc me.base = (if taken then s.pc me.base + 4 * imm.val else s.pc me.base + BitVec.ofNat 64 (Imm.len imm)) ∧
        (match r with
         | some (r, v) => t.getW me.base r = v ∧
             ∀ x, (x < me.base + 8 * r.val ∨ me.base + 8 * r.val + 8 ≤ x) → (x < me.base + offPc ∨ me.base + offPc + 8 ≤ x) →
               mget t.mem x = mget s.mem x
         | none => ∀ x, (x < me.base + offPc ∨ me.base + offPc + 8 ≤ x) → mget t.mem x = mget s.mem x) ∧
        (taken = true → (t.slot me.slot).block = none) ∧ t = { s with mem := t.mem, slots := t.slots }
    goes (.b p imm) ((s.getP me.base p).getLsbD 0) none ∧ goes (.bz a imm) (decide (w = 0)) none ∧
    goes (.bnz a imm) (decide (w ≠ 0)) none ∧ goes (.j imm) true none ∧
    goes (.jal d imm) true (some (d, s.pc me.base + BitVec.ofNat 64 (Imm.len imm))) ∧
    goes (.loop a imm) (decide (w - 1 ≠ 0)) (some (a, w - 1))) ∧
  (∀ (s : State) (d a : WReg), Memory.wf s.mem = true →
    let me := s.me
    let v := s.getW me.base a
    (v.toNat % 4 = 0 →
      (∃ t, exec (.jr a) s = .next t ∧ t.pc me.base = v ∧ (t.slot me.slot).block = none ∧
        ∀ x, (x < me.base + offPc ∨ me.base + offPc + 8 ≤ x) → mget t.mem x = mget s.mem x) ∧
      (∃ t, exec (.jalr d a) s = .next t ∧ t.pc me.base = v ∧ t.getW me.base d = s.pc me.base + 8 ∧
        (t.slot me.slot).block = none ∧
        ∀ x, (x < me.base + 8 * d.val ∨ me.base + 8 * d.val + 8 ≤ x) → (x < me.base + offPc ∨ me.base + offPc + 8 ≤ x) →
          mget t.mem x = mget s.mem x)) ∧
    (v.toNat % 4 ≠ 0 →
      exec (.jr a) s = .next (trapEntry me { cause := .align, addr := v.toNat, info0 := 4, acc := 3 } s) ∧
      exec (.jalr d a) s = .next (trapEntry me { cause := .align, addr := v.toNat, info0 := 4, acc := 3 } s)))


/-! ### Exceptions and returns (R243 to R249, R402, R403) -/

/-- R243, R246, R247: what trap entry records and where it goes, for every cause; at PL = 1 the context is fatal and its
workspace stays as it was. -/
def Obligations.TrapEntryEffects : Prop :=
  ∀ (s : State) (me : Me) (c : TrapInfo), Memory.wf s.mem = true →
    (s.pl me.base = false → TrapTaken s (trapEntry me c s) me c) ∧
    (s.pl me.base = true → FatalTaken s (trapEntry me c s) me.key)

/-- R402, R412: `trap`, `udf` and an unclaimed `brk` enter their handlers with INFO0 and RPC as R402 gives them; `brk`
halts the cluster behind itself when BRKCLAIM is set (R276); at PL = 1 each makes the context fatal (R248).
R249, R403: `eret` at PL = 1 restores `w14` and `w15`, clears PL, and resumes at RPC, kills, or kills and dumps, by
ACTION; at PL = 0 it raises `#PRIV`, and with ACTION 0 and a misaligned RPC the context is fatal. -/
def Obligations.TrapAndReturnResults : Prop :=
  (∀ (s : State) (code : BitVec 24) (bits : BitVec 64), Memory.wf s.mem = true →
    let me := s.me
    let cl := clusterOf me.core
    let rows : List (Instr × TrapInfo) :=
      [(.trap code, { cause := .call, info0 := code.toNat }), (.udf bits, { cause := .ill, info0 := bits.toNat })] ++
      (if (s.cluster cl).dbg.brkclaim then [] else [(.brk code, { cause := .brk, info0 := code.toNat })])
    (∀ r ∈ rows, ∃ t, exec r.1 s = .next t ∧
      (s.pl me.base = false → TrapTaken s t me r.2) ∧ (s.pl me.base = true → FatalTaken s t me.key)) ∧
    ((s.cluster cl).dbg.brkclaim = true → (s.cluster cl).dbg.state = 0 →
      ∃ t, exec (.brk code) s = .next t ∧ t.pc me.base = s.pc me.base + 8 ∧ (t.cluster cl).dbg.state = 1 ∧
        t.pl me.base = s.pl me.base)) ∧
  (∀ (s : State), Memory.wf s.mem = true →
    let me := s.me
    let f := me.base + offFault
    let action := s.rd (f + 72) 8
    let rpc := s.rd (f + 8) 8
    (s.pl me.base = true → (action = 0 → rpc % 4 = 0) → ∃ t, exec .eret s = .next t ∧
      t.getW me.base 14 = BitVec.ofNat 64 (s.rd (f + 56) 8) ∧ t.getW me.base 15 = BitVec.ofNat 64 (s.rd (f + 64) 8) ∧
      t.pl me.base = false ∧
      (action = 0 → t.pc me.base = BitVec.ofNat 64 rpc ∧ t.ctxs = s.ctxs) ∧
      (action ≠ 0 → t.pc me.base = s.pc me.base ∧ (t.ctx me.key).killing = true) ∧
      (action = 1 → t.parts = s.parts) ∧
      (2 ≤ action → (t.part (me.key / 2 ^ 24)).fatal.any (fun r => r.ctx = me.key) = true) ∧
      ∀ a, (∀ r ∈ [(me.base + 112, 16), (me.base + offPc, 8), (me.base + offCtxn, 8)], a < r.1 ∨ r.1 + r.2 ≤ a) →
        mget t.mem a = mget s.mem a) ∧
    (s.pl me.base = true → action = 0 → rpc % 4 ≠ 0 → ∃ t, exec .eret s = .next t ∧ FatalTaken s t me.key) ∧
    (s.pl me.base = false → ∃ t, exec .eret s = .next t ∧
      TrapTaken s t me { cause := .priv, info0 := (Instr.eret).first64.toNat }))

/-- R302, R386, R400: the privileged forms at PL = 0 raise `#PRIV` with the instruction's first 64 bits in INFO0.
The instructions that only take their turn, or touch one piece of state beside the PC (R285, R312, R324, R404, R405,
R363, R382, R383, R397, R412). -/
def Obligations.PrivilegeAndPlainResults : Prop :=
  (∀ (s : State) (a b c d : WReg) (r : SysReg), Memory.wf s.mem = true → s.pl s.me.base = false →
    ∀ i ∈ [Instr.eret, .ctxs a b, .ctxl a b, .tinv a b c, .tsync, .mfs d .ptroot, .mtsWp a, .mtsAfnext a, .mtsAflim a,
        .mtsLmcfg a, .mtsRrcfg a, .mtsLease a, .modeBringWrite (.reg a)] ++
        (if r ∈ [.hslab, .ptroot, .rrref, .rtab0, .rtab1] then [.mts r a] else []) ++
        (if (s.getW s.me.base a).toNat ≠ s.numOf s.me.base then [.swp a] else []),
      ∃ t, exec i s = .next t ∧ TrapTaken s t s.me { cause := .priv, info0 := i.first64.toNat }) ∧
  (∀ (s : State) (d : WReg) (code : BitVec 24) (ch : Fin 32) (tl : Fin 64) (fd fa : AfReg) (sel : Fin 8),
    Memory.wf s.mem = true →
    let me := s.me
    let cl := clusterOf me.core
    let t := s.team (s.ctx me.key).cluster (s.ctx me.key).entry
    let ln := (s.ctx me.key).ln
    let ws := (tget (s.part (s.partOf me.core)).launches ln).widths
    let wid := s.ws me.base offWid
    exec .nop s = .next (s.advPc me.base 8) ∧
    (∃ u, exec .pad s = .next u ∧ u.pc me.base = (s.pc me.base ||| 31) + 1 ∧ Stores s u [(me.base + offPc, 8)]) ∧
    (∃ u, exec .yield s = .next u ∧ u.pc me.base = s.pc me.base + 8 ∧ u.slots = s.slots ∧
      (s.dev.bring = true → (u.core me.core).turnHolder ≠ some (me.slot % 16)) ∧ (s.dev.bring = false → u.cores = s.cores)) ∧
    exec .icinv s = .next ((s.setCore me.core { s.core me.core with icache := [] }).advPc me.base 8) ∧
    exec .fbar s = .next ((s.setSlot me.slot { s.slot me.slot with block := none }).advPc me.base 8) ∧
    exec (.mark code) s = .next ((logEntry me.core me.core (s.numOf me.base) 7
      ((s.pc me.base).toNat + code.toNat * 2 ^ 64) s).advPc me.base 8) ∧
    ((s.core me.core).log.en = false → exec (.mark code) s = .next (s.advPc me.base 8)) ∧
    (∃ u, exec (.gtime d) s = .next u ∧ WroteW s u d (BitVec.ofNat 64 (s.die (dieOf me.core)).gt) 8) ∧
    (∃ u, exec (.cpyq d ch) s = .next u ∧ WroteW s u d (BitVec.ofNat 64 (s.chan cl ch.val).status) 8) ∧
    (∃ u, exec (.tlread d tl) s = .next u ∧ WroteW s u d (BitVec.ofNat 64 (s.tl cl tl.val).done) 8) ∧
    (∃ u, exec (.afdom d) s = .next u ∧ WroteW s u d (BitVec.ofNat 64 (t.domid % 2 ^ 16 + t.drec % 2 ^ 23 * 2 ^ 16)) 8) ∧
    (∃ u, exec (.wid d sel) s = .next u ∧ WroteW s u d (BitVec.ofNat 64
      (if sel.val = 7 then ln else if sel.val = 6 then wid
       else wid / 2 ^ (ws.take sel.val).sum % 2 ^ ws.getD sel.val 0)) 8) ∧
    (∃ u, exec (.afmov fd fa) s = .next u ∧ u.getAf me.base fd = s.getAf me.base fa ∧ u.pc me.base = s.pc me.base + 8 ∧
      Stores s u [(me.base + offAf + 64 * fd.val, 64), (me.base + offPc, 8)]))

/-! ### System registers (R135, R400, R401, R269) and the plain system instructions -/

/-- R400: what `mfs` reads, by the maps of the registers; `mfs PTROOT` only at PL = 1.
R400, R60, R191, R59, R62, R100, R111: what `mts` writes at PL = 1; a read-only register ignores it. -/
def Obligations.SystemRegisterResults : Prop :=
  (∀ (s : State) (d : WReg) (i : Fin 8), Memory.wf s.mem = true →
    let me := s.me
    let w := fun off => s.ws me.base off
    let c := s.core me.core
    let t := s.team (s.ctx me.key).cluster (s.ctx me.key).entry
    let x := s.slot me.slot
    let dev := s.dev
    let win := s.win me.core i.val
    let rows : List (SysReg × Nat) :=
      [(.wp, b2n x.v + x.frame.toNat * 2 ^ 12), (.ctxn, w offCtxn &&& 0x8FFFFFFF),
       (.locid, locid me.core (me.slot % 16)), (.netcap, 0x102020),
       (.mode, b2n dev.bring + 2 * b2n dev.baloff + 8 * b2n dev.idgone + 16 * b2n dev.seca + 32 * b2n dev.cxl + 64 * dev.thr.toNat),
       (.qcfg, dev.qcfg.toNat), (.fpflags, w offFpflags % 16), (.pushst, w offPushst &&& 0xFFFFFFFFFF03FF00),
       (.rgn, w offRgn % 2 ^ 16), (.afr, w offAfr), (.hslab, w offHslab &&& 0x7FFFFFFFC0), (.lrs, w offLrs),
       (.afnext, t.afnext.toNat), (.aflim, t.aflim.toNat), (.pushq, c.quota), (.pushref, c.pushref), (.lmcfg, c.frames),
       (.rrcfg, b2n c.rrEn + 2 * (c.rrSize % 8) + 4096 * (c.rrBase % 256)), (.rrptr, c.rrHead + c.rrTail * 2 ^ 32),
       (.rrref, c.rrref), (.rtab0, c.rtab0.toNat), (.rtab1, c.rtab1.toNat),
       (.swin i, b2n win.v + 2 ^ 8 * (win.size % 8) + 2 ^ 11 * (win.lbase % 256) + 2 ^ 19 * (win.vpn % 2 ^ 45)),
       (.lease, (s.die (dieOf me.core)).lease)] ++
      (if s.pl me.base then [(.ptroot, w offPtroot &&& 0xFFFFFFFFFFFFF000)] else [])
    ∀ r ∈ rows, ∃ u, exec (.mfs d r.1) s = .next u ∧ WroteW s u d (BitVec.ofNat 64 r.2) 8) ∧
  (∀ (s : State) (a : WReg) (i : Fin 8), s.pl s.me.base = true →
    let me := s.me
    let v := (s.getW me.base a).toNat
    let x := s.ctx me.key
    let t := s.team x.cluster x.entry
    let c := s.core me.core
    let n := max 16 (min 64 (v % 128))
    let quiet := (s.ctxsOfCore me.core).all (fun k => k = me.key) && !c.rrEn && (List.range 8).all (fun w => !(s.win me.core w).v) &&
      frameWithin me.core n (s.slot me.slot).frame.toNat &&
      (match x.borrow with | some (_, f) => frameWithin me.core n f | none => true)
    let rows : List (Instr × State) :=
      [(.mts .fpflags a, s.setWs me.base offFpflags (v &&& 0xF)),
       (.mts .pushst a, s.setWs me.base offPushst (pushstWrite (s.ws me.base offPushst) v)),
       (.mts .hslab a, s.setWs me.base offHslab (v &&& 0x7FFFFFFFC0)),
       (.mts .ptroot a, s.setWs me.base offPtroot (v &&& 0xFFFFFFFFFFFFF000)),
       (.mts .pushref a, s.setCore me.core { c with pushref := v % 2 ^ 32 }),
       (.mts .rrref a, s.setCore me.core { c with rrref := v % 2 ^ 32 }),
       (.mts .rtab0 a, s.setCore me.core { c with rtab0 := s.getW me.base a }),
       (.mts .rtab1 a, s.setCore me.core { c with rtab1 := s.getW me.base a }),
       (.mtsPushq a, s.setCore me.core { c with quota := min 64 (v % 128) }),
       (.mtsAfnext a, if t.afnext.toNat < v % 2 ^ 16 then setPair x.cluster x.entry (BitVec.ofNat 16 v) t.aflim s else s),
       (.mtsAflim a, setPair x.cluster x.entry t.afnext (BitVec.ofNat 16 (min 65534 (v % 2 ^ 16))) s),
       (.mtsLease a, s.setDie (dieOf me.core) { s.die (dieOf me.core) with lease := max 256 (min 65536 (v % 2 ^ 17)) }),
       (.mtsLmcfg a, if quiet then writeFrames me.core n s else s),
       (.mtsRrcfg a, if c.rrHead = c.rrTail then writeRrcfg me.core v s else s)] ++
      ([.ctxn, .locid, .netcap, .qcfg, .rgn, .afr, .lrs, .rrptr, .swin i] : List SysReg).map (fun r => (.mts r a, s))
    ∀ r ∈ rows, exec r.1 s = .next (r.2.advPc me.base 8))

/-- R401: `mts WP` at PL = 1 parks its context behind the instruction; the slot then runs the parked context of the
frame that the value names, or is free.
R269: `mts MODE` takes effect in QCFG MODE 4 only, the firmware's path always; BALOFF is stored only with BRING. -/
def Obligations.SlotPointerAndModeWrites : Prop :=
  (∀ (s : State) (a : WReg), s.pl s.me.base = true → (s.ctx s.me.key).slot = some s.me.slot →
    let me := s.me
    let v := (s.getW me.base a).toNat
    let f := v / 2 ^ 12 % 256
    let u := (park me.key (s.advPc me.base 8)).modSlot me.slot (fun x => { x with frame := BitVec.ofNat 8 f })
    (u.slot me.slot).v = false ∧ (u.ctx me.key).slot = none ∧
    (v % 2 = 0 ∨ (u.frameList me.core).contains f = false → exec (.mtsWp a) s = .next u) ∧
    (∀ key, v % 2 = 1 → (u.frameList me.core).contains f = true → u.ctxInFrame me.core f = some key →
      (u.ctx key).slot = none → (u.ctx key).killing = false →
      exec (.mtsWp a) s = .next (runOn me.core (me.slot % 16) key u))) ∧
  (∀ (s : State) (a : WReg) (v : Word) (on : Bool),
    let me := s.me
    let w := s.getW me.base a
    (s.pl me.base = true → exec (.modeBringWrite (.reg a)) s = .next
      ((if s.dev.qcfg = 4 then { s with dev := { s.dev with bring := w.getLsbD 0, baloff := w.getLsbD 1 && w.getLsbD 0 } }
        else s).advPc me.base 8)) ∧
    exec (.modeBringWrite (.firmware v)) s =
      .next { s with dev := { s.dev with bring := v.getLsbD 0, baloff := v.getLsbD 1 && v.getLsbD 0 } } ∧
    exec (.modeBaloffWrite on) s = .next { s with dev := { s.dev with baloff := on && s.dev.bring } })


/-! ### Scalar memory (R303, R313 to R329) -/

/-- R315, R316, R318 for the reads, at an aligned address of the issuing core's own local memory: the value read is
extended into W[d], `LRS` rises to the time of the read, `lda`, `ldf` and `ldt` acquire, and `ldt` empties the word.
R315, R316, R318 for the writes, at an aligned address of the issuing core's own local memory: the bytes stored,
the release of `stl` and `stf` before them when it completes at once, and the waiters that a filled word serves.
The model's own choices or readings behind it: assumption log 20. -/
def Obligations.LocalLoadsAndStores : Prop :=
  (∀ (s : State) (ty : Ty) (sc : Scope) (d a : WReg) (imm : Imm) (l : Leaf),
    let me := s.me
    let now := s.gtOf me.core
    let at' := fun (ea : Word) => l.phys (ea.toNat % 2 ^ 57)
    let plain := fun (ea : Word) (t : Ty) (acq take : Bool) =>
      let pa := at' ea
      let s1 := noteRead me.base now (if take then s.setEmpty pa else s)
      let s2 := if acq then acquire me.base s1 else s1
      (((s2.setW me.base d (extendLoad t (s.rd pa (tyBytes t)))).advPc me.base (Imm.len imm)).clearWait me.key)
    let ea := s.ea me.base a imm
    (∀ b, (s.eaOf me.base b imm).toNat % tyBytes ty = 0 → LocalAt s me .read (s.eaOf me.base b imm).toNat (tyBytes ty) l →
      exec (.ld ty d b imm) s = .next (plain (s.eaOf me.base b imm) ty false false)) ∧
    (ea.toNat % tyBytes ty = 0 → LocalAt s me .read ea.toNat (tyBytes ty) l →
      exec (.lda ty sc d a imm) s = .next (plain ea ty true false)) ∧
    (ea.toNat % 8 = 0 → LocalAt s me .ldf ea.toNat 8 l → s.isFull (at' ea) = true →
      exec (.ldf d a imm) s = .next (plain ea .nt true false)) ∧
    (ea.toNat % 8 = 0 → LocalAt s me .ldt ea.toNat 8 l → s.isFull (at' ea) = true →
      exec (.ldt d a imm) s = .next (plain ea .nt true true))) ∧
  (∀ (s : State) (ty : Ty) (sc : Scope) (a b : WReg) (imm : Imm) (l : Leaf), Memory.wf s.mem = true →
    let me := s.me
    let now := s.gtOf me.core
    let ea := s.ea me.base a imm
    let pa := l.phys (ea.toNat % 2 ^ 57)
    let v := s.getW me.base b
    let wrote := fun (n : Nat) (u : State) => (u.wr pa n (v.toNat % 2 ^ (8 * n))).modCtx me.key
      (fun c => { c with performed := max c.performed now })
    let fin := fun (u : State) => (u.advPc me.base (Imm.len imm)).clearWait me.key
    (ea.toNat % tyBytes ty = 0 → LocalAt s me .write ea.toNat (tyBytes ty) l →
      exec (.st ty a imm b) s = .next (fin (wrote (tyBytes ty) s)) ∧
      (ReleasesNow s me sc → exec (.stl ty sc a imm b) s = .next (fin (wrote (tyBytes ty) (closeRegion me now s))))) ∧
    (ea.toNat % 8 = 0 → LocalAt s me .stf ea.toNat 8 l → ReleasesNow s me sc →
      exec (.stf sc a imm b) s = .next (fin (wakeWfeCores (fun g => clusterOf g = clusterOf me.core)
        (serveWaiters pa ((wrote 8 (closeRegion me now s)).setFull pa))))) ∧
    (ea.toNat % 8 = 0 → LocalAt s me .clre ea.toNat 8 l →
      exec (.clre a imm) s = .next (fin (s.setEmpty pa))))

/-- R315, R304: what the plain load and store of local memory leave alone: every byte of memory outside the destination
register, `LRS`, the PC and the stored bytes. -/
def Obligations.LocalAccessFrame : Prop :=
  ∀ (s : State) (ty : Ty) (d a b : WReg) (imm : Imm) (l : Leaf), Memory.wf s.mem = true →
    let me := s.me
    let ea := s.ea me.base a imm
    ea.toNat % tyBytes ty = 0 →
    (LocalAt s me .read ea.toNat (tyBytes ty) l → ∃ t, exec (.ld ty d (.reg a) imm) s = .next t ∧
      ∀ x, (∀ r ∈ [(me.base + 8 * d.val, 8), (me.base + offLrs, 8), (me.base + offPc, 8)], x < r.1 ∨ r.1 + r.2 ≤ x) →
        mget t.mem x = mget s.mem x) ∧
    (LocalAt s me .write ea.toNat (tyBytes ty) l → ∃ t, exec (.st ty a imm b) s = .next t ∧
      ∀ x, (∀ r ∈ [(l.phys (ea.toNat % 2 ^ 57), tyBytes ty), (me.base + offPc, 8)], x < r.1 ∨ r.1 + r.2 ≤ x) →
        mget t.mem x = mget s.mem x)

/-- R50, R81, R88: a load and a store of an aligned address of HBM in a line of which the core's L1 holds all 512
tokens: the load reads the copy and raises `LRS` to its stamp, the store merges its bytes into the copy, makes it dirty
and stamps it, and memory itself is not touched. -/
def Obligations.HeldLineAccess : Prop :=
  ∀ (s : State) (ty : Ty) (d a b : WReg) (imm : Imm) (l : Leaf), Memory.wf s.mem = true →
    let me := s.me
    let ea := s.ea me.base a imm
    let pa := l.phys (ea.toNat % 2 ^ 57)
    let ln := pa / 128
    let c := s.copy me.core ln
    ea.toNat % tyBytes ty = 0 →
    (HeldAt s me .read ea.toNat (tyBytes ty) l → ∃ t, exec (.ld ty d (.reg a) imm) s = .next t ∧
      t.getW me.base d = extendLoad ty (copyBytes c pa (tyBytes ty)) ∧
      t.ws me.base offLrs = max (s.ws me.base offLrs) c.stamp.vt % 2 ^ 64 ∧
      t.pc me.base = s.pc me.base + BitVec.ofNat 64 (Imm.len imm) ∧ t.copy me.core ln = { c with untouched := false }) ∧
    (HeldAt s me .write ea.toNat (tyBytes ty) l → ∃ t, exec (.st ty a imm b) s = .next t ∧
      (t.copy me.core ln).data = some (BitVec.ofNat 1024
        (spliceBytes ((c.data.getD 0).toNat) (pa % 128) (tyBytes ty) ((s.getW me.base b).toNat % 2 ^ (8 * tyBytes ty)))) ∧
      (t.copy me.core ln).dirty = true ∧ (t.copy me.core ln).tokens = 512 ∧
      (t.copy me.core ln).stamp = { vt := s.writeVt ln, ctx := s.numOf me.base, region := s.ws me.base offRgn % 2 ^ 16 } ∧
      t.pc me.base = s.pc me.base + BitVec.ofNat 64 (Imm.len imm) ∧
      ∀ x, (x < me.base + offPc ∨ me.base + offPc + 8 ≤ x) → mget t.mem x = mget s.mem x)

/-- R325, R326: an atomic at an aligned address of the issuing core's own local memory: the new value, the old value in
W[d], the flags of the float forms, the release before it and the acquire after it, as its ordering names them.
The model's own choices or readings behind it: assumption log 20. -/
def Obligations.LocalAtomics : Prop :=
  ∀ (s : State) (ty : Ty) (ord : AmoOrd) (d a b c : WReg) (l : Leaf), Memory.wf s.mem = true →
    let me := s.me
    let now := s.gtOf me.core
    let ea := (s.getW me.base a).toNat
    let pa := l.phys (ea % 2 ^ 57)
    let rel : Option Scope := match ord with | .rel sc => some sc | .acqrel sc => some sc | _ => none
    let acq := match ord with | .acq _ => true | .acqrel _ => true | _ => false
    let s1 := if rel.isSome then closeRegion me now s else s
    let old : BitVec ty.bits := BitVec.ofNat _ (s1.rd pa (tyBytes ty))
    let fin := fun (len : Nat) (flags : Option Nat) (new : Option Nat) =>
      let s2 := match new with
        | some v => (s1.wr pa (tyBytes ty) v).modCtx me.key (fun c => { c with performed := max c.performed now })
        | none => s1
      let s3 := noteRead me.base now s2
      let s4 := if acq then acquire me.base s3 else s3
      let s5 := match flags with | some f => s4.orFlags me.base f | none => s4
      (((s5.setW me.base d (extendLoad ty old.toNat)).advPc me.base len).clearWait me.key)
    let v : BitVec ty.bits := (s.getW me.base b).setWidth _
    let rows : List (AmoOp × BitVec ty.bits) :=
      [(.add, old + v), (.and, old &&& v), (.or, old ||| v), (.xor, old ^^^ v), (.xchg, v),
       (.min, if v.slt old then v else old), (.max, if old.slt v then v else old),
       (.minn, if v.ult old then v else old), (.maxn, if old.ult v then v else old)]
    ea % tyBytes ty = 0 → (∀ sc, rel = some sc → ReleasesNow s me sc) →
    (∀ r ∈ rows, r.1.tyOk ty = true → LocalAt s me (.amo r.1 ty (s.getW me.base b)) ea (tyBytes ty) l →
      exec (.amo r.1 ty ord d a b) s = .next (fin 8 none (some r.2.toNat))) ∧
    (∀ r ∈ [(AmoOp.fadd, fpAdd (fmtOf ty) .rne old.toNat v.toNat),
        (.famax, fpMinMax (fmtOf ty) true old.toNat (v.toNat % 2 ^ (ty.bits - 1)))],
      r.1.tyOk ty = true → LocalAt s me (.amo r.1 ty (s.getW me.base b)) ea (tyBytes ty) l →
      exec (.amo r.1 ty ord d a b) s = .next (fin 8 (some r.2.2) (some r.2.1))) ∧
    (ty = .n32 ∨ ty = .n64 → LocalAt s me (.cas ty (s.getW me.base b) (s.getW me.base c)) ea (tyBytes ty) l →
      exec (.cas ty ord d a b c) s = .next
        (fin 12 none (if old = v then some ((s.getW me.base c).setWidth ty.bits : BitVec _).toNat else none)))

/-- R314 and R303: the alignment of a scalar access is checked first, and an address that is not canonical comes next;
each is taken as the trap of R245 with the effective address as the faulting address. -/
def Obligations.ScalarAccessFaults : Prop :=
  ∀ (s : State) (ty : Ty) (sc : Scope) (ord : AmoOrd) (op : AmoOp) (d a b c : WReg) (imm : Imm), Memory.wf s.mem = true →
    let me := s.me
    let ea := (s.ea me.base a imm).toNat
    let ra := (s.getW me.base a).toNat
    let n := tyBytes ty
    let rows : List (Instr × Nat × Nat × Nat) :=
      [(.ld ty d (.reg a) imm, ea, n, 1), (.lda ty sc d a imm, ea, n, 1), (.st ty a imm b, ea, n, 2),
       (.stl ty sc a imm b, ea, n, 2), (.ldf d a imm, ea, 8, 1), (.ldt d a imm, ea, 8, 1), (.stf sc a imm b, ea, 8, 2),
       (.clre a imm, ea, 8, 2), (.amo op ty ord d a b, ra, n, 4), (.cas ty ord d a b c, ra, n, 4)]
    ∀ r ∈ rows, ∃ t, exec r.1 s = .next t ∧
      (r.2.1 % r.2.2.1 ≠ 0 → t = trapEntry me { cause := .align, addr := r.2.1, info0 := r.2.2.1, acc := r.2.2.2 } s) ∧
      (r.2.1 % r.2.2.1 = 0 → canonicalVa r.2.1 = false →
        t = trapEntry me { cause := .page, addr := r.2.1, acc := r.2.2.2 } (s.clearWait me.key))

/-- R103, R104, R318: `ldf` and `ldt` of an empty word of the issuing core's own local memory take the slot out of the
rotation; a codelet takes `#BLOCK` instead. A fill of the word, by `stf` or by the hardware, serves such a waiter, which
then holds the value in its destination and goes on, and an `ldt` leaves the word empty; of several waiters, each `ldf` is
served in the order of their waits, up to and with the first `ldt`, and those behind it still wait.
R317, R77 to R79, R89: a fence that can complete closes its region and, for an acquire, raises `AFR`; a release whose
pushes, whose peer writes or whose timestamp are outstanding takes its slot out of the rotation, and `RELEASE_COMPLETE`
ends it once they are in and GT has reached the timestamp, not before, and not while the context waits after a migration.
The model's own choices or readings behind it: assumption log 20. -/
def Obligations.FenceAndWaitResults : Prop :=
  (∀ (s : State) (d a : WReg) (imm : Imm) (l : Leaf), Memory.wf s.mem = true →
    let me := s.me
    let ea := s.ea me.base a imm
    let pa := l.phys (ea.toNat % 2 ^ 57)
    ea.toNat % 8 = 0 → s.isFull pa = false →
    ∀ r ∈ [(Instr.ldf d a imm, AccOp.ldf, false), (.ldt d a imm, .ldt, true)], LocalAt s me r.2.1 ea.toNat 8 l →
      ∃ t, exec r.1 s = .next t ∧
        (s.kindOf me.base ≠ 1 → t.waitOf me.key = some (.fe (pa / 8) r.2.2 s.nextId) ∧ t.mem = s.mem ∧ t.fe = s.fe) ∧
        (s.kindOf me.base = 1 →
          t = trapEntry me { cause := .block, addr := ea.toNat, acc := 1 } (s.clearWait me.key))) ∧
  (∀ (s : State) (pa src key len : Nat) (v : Word) (who : Me) (w : Wait) (d : WReg), Memory.wf s.mem = true → pa % 8 = 0 →
    s.meOf key = some who → (s.ctx key).wait = some w →
    w.cont.prog = [.acquire, .finish (.loadW d .nt), .adv len] → (s.core who.core).log.en = false →
    (pa + 8 ≤ who.base ∨ who.base + 4096 ≤ pa) →
    let served := fun (t : State) (v : Word) => t.waitOf key = none ∧ t.getW who.base d = v ∧
      t.pc who.base = s.pc who.base + BitVec.ofNat 64 len ∧ t.rd pa 8 = v.toNat
    (∀ order take, s.feWaiters pa = [(order, take, key)] →
      (served (fillWord pa v.toNat src s) v ∧ (fillWord pa v.toNat src s).isFull pa = !take) ∧
      ∀ sc a b imm l, s.me.key ≠ key → (s.me.base + 4096 ≤ who.base ∨ who.base + 4096 ≤ s.me.base) →
        (pa + 8 ≤ s.me.base ∨ s.me.base + 4096 ≤ pa) → let ea := s.ea s.me.base a imm
        ea.toNat % 8 = 0 → LocalAt s s.me .stf ea.toNat 8 l → l.phys (ea.toNat % 2 ^ 57) = pa → ReleasesNow s s.me sc →
        ∃ t, exec (.stf sc a imm b) s = .next t ∧ served t (s.getW s.me.base b) ∧ t.isFull pa = !take) ∧
    (∀ o1 o2 first other take rest, s.feWaiters pa = (o1, false, first) :: (o2, take, key) :: rest → first ≠ key →
      s.meOf first = some other → (s.core other.core).log.en = false →
      (other.base + 4096 ≤ who.base ∨ who.base + 4096 ≤ other.base) →
      (pa + 8 ≤ other.base ∨ other.base + 4096 ≤ pa) →
      (∀ x ∈ rest, x.2.2 ≠ first ∧ x.2.2 ≠ key) → (take = false → rest = []) →
      let t := fillWord pa v.toNat src s
      served t v ∧ t.waitOf first = none ∧ t.isFull pa = !take ∧ ∀ x ∈ rest, t.waitOf x.2.2 = s.waitOf x.2.2)) ∧
  (∀ (s : State) (sc : Scope),
    let me := s.me
    let now := s.gtOf me.core
    let fin := fun (u : State) => (u.advPc me.base 8).clearWait me.key
    (ReleasesNow s me sc →
      exec (.fence sc) s = .next (fin (acquire me.base (closeRegion me now s))) ∧
      exec (.fenceRel sc) s = .next (fin (closeRegion me now s))) ∧
    exec (.fenceAcq sc) s = .next (fin (acquire me.base s)) ∧
    (¬ ReleasesNow s me sc → ∀ i ∈ [Instr.fence sc, .fenceRel sc], ∃ t, exec i s = .next t ∧ t.mem = s.mem ∧
      (s.pend me.base ≠ 0 → t.waitOf me.key = some .pushPend) ∧
      (s.pend me.base = 0 → sc = .sys → (s.ctx me.key).peerWrites ≠ [] → t.waitOf me.key = some (.peerAcks sc)) ∧
      (s.pend me.base = 0 → (sc = .sys → (s.ctx me.key).peerWrites = []) → now < s.releaseTs me sc now →
        t.waitOf me.key = some (.release sc (s.releaseTs me sc now)))) ∧
    (∀ key who w, s.meOf key = some who → (s.ctx key).wait = some w →
      let at' := s.gtOf who.core
      let closed := fun (acq : Bool) =>
        let u := closeRegion who at' (s.clearWait key)
        (((if acq then acquire who.base u else u).advPc who.base 8).clearWait who.key)
      ((s.ctx key).migrating = true → exec (.releaseComplete key) s = .next s) ∧
      ((s.ctx key).migrating = false →
        (∀ ts, w.block = .release sc ts →
          (at' < ts → exec (.releaseComplete key) s = .next s) ∧
          (ts ≤ at' → w.cont.reg = none → ∀ r ∈ [([Micro.adv 8], false), ([.acquire, .adv 8], true)], w.cont.prog = r.1 →
            exec (.releaseComplete key) s = .next (closed r.2))) ∧
        (w.block = .pushPend → w.cont.prog ≠ [] → s.pend who.base ≠ 0 → exec (.releaseComplete key) s = .next s) ∧
        (w.block = .peerAcks sc → (s.ctx key).peerWrites ≠ [] → exec (.releaseComplete key) s = .next s) ∧
        (w.block = .pushPend ∨ w.block = .peerAcks sc → s.pend who.base = 0 → sc ≠ .slot → w.cont.skip = false → w.cont.reg = none →
          (w.block = .peerAcks sc ∨ sc = .sys → (s.ctx key).peerWrites = []) →
          ∀ r ∈ [([Micro.release sc, .adv 8], false), ([.release sc, .acquire, .adv 8], true)], w.cont.prog = r.1 →
            let ts := s.releaseTs who sc w.cont.issued
            (ts ≤ at' → exec (.releaseComplete key) s = .next (closed r.2)) ∧
            (at' < ts → ∃ t, exec (.releaseComplete key) s = .next t ∧ t.mem = s.mem ∧
              t.waitOf key = some (.release sc ts))))))

/-- R56 to R60, R319, R320: `push` performs its write first. To a local address every other target is refused with cause
REMOTE; in a line whose 512 tokens the L1 holds, PEND rises by one and the distribution to the other targets begins, in
their order. While PEND is 255 the slot waits. A target word that R319 refuses raises `#PROT`.
The model's own choices or readings behind it: assumption log 26. -/
def Obligations.PushResults : Prop :=
  ∀ (s : State) (ty : Ty) (a b c : WReg) (off : BitVec 32) (l : Leaf), Memory.wf s.mem = true →
    let me := s.me
    let ea := (s.getW me.base a + off.signExtend 64).toNat
    let pa := l.phys (ea % 2 ^ 57)
    let targets := fun (f : PushForm) => pushTargets s me.core f (s.getW me.base c)
    (∀ f, targets f = none → exec (.push ty f a off b c) s = .next (trapEntry me { cause := .prot } s)) ∧
    (∀ f ts, targets f = some ts → s.pend me.base ≠ 255 → ea % tyBytes ty = 0 → LocalAt s me .write ea (tyBytes ty) l →
      (ts.filter (· ≠ me.core) = [] → exec (.push ty f a off b c) s =
        .next ((((s.wr pa (tyBytes ty) ((s.getW me.base b).toNat % 2 ^ (8 * tyBytes ty))).modCtx me.key
          (fun x => { x with performed := max x.performed (s.gtOf me.core) })).advPc me.base 12).clearWait me.key)) ∧
      (ts.filter (· ≠ me.core) ≠ [] → (pa + tyBytes ty ≤ me.base ∨ me.base + 4096 ≤ pa) → ∃ t,
        exec (.push ty f a off b c) s = .next t ∧ t.rd pa (tyBytes ty) = (s.getW me.base b).toNat % 2 ^ (8 * tyBytes ty) ∧
        bits (t.ws me.base offPushst) 32 32 =
          min 0xFFFFFFFF (bits (s.ws me.base offPushst) 32 32 + (ts.filter (· ≠ me.core)).length) ∧
        bit (t.ws me.base offPushst) 17 = true ∧
        bits (t.ws me.base offPushst) 8 9 = (ts.filter (· ≠ me.core)).getLastD 0 % 512 ∧ t.net = s.net)) ∧
    (∀ f ts, targets f = some ts → s.pend me.base = 255 → ∃ t, exec (.push ty f a off b c) s = .next t ∧
      t.waitOf me.key = some .pushPend ∧ t.mem = s.mem ∧ t.net = s.net) ∧
    (∀ f ts, targets f = some ts → s.pend me.base < 255 → ea % tyBytes ty = 0 → HeldAt s me .write ea (tyBytes ty) l →
      let ln := pa / 128
      let others := ts.filter (· ≠ me.core)
      let held := s.copy me.core ln
      ∃ t, exec (.push ty f a off b c) s = .next t ∧ t.pc me.base = s.pc me.base + 12 ∧
        t.copy me.core ln = { held with
          data := some (BitVec.ofNat 1024 (spliceBytes ((held.data.getD 0).toNat) (pa % 128) (tyBytes ty)
            ((s.getW me.base b).toNat % 2 ^ (8 * tyBytes ty))))
          dirty := true, untouched := false
          stamp := { vt := s.writeVt ln, ctx := s.numOf me.base, region := s.ws me.base offRgn % 2 ^ 16 } } ∧
        (others = [] → t.net = s.net ∧ t.pend me.base = s.pend me.base) ∧
        (others ≠ [] → t.pend me.base = s.pend me.base + 1 ∧
          (t.ctx me.key).pushes = (s.ctx me.key).pushes ++ [{ id := s.nextId, line := ln, left := others.length }] ∧
          t.net = s.net ++ [{ id := s.nextId + 1, body := .pushTurn ln me.core me.key s.nextId others }]))

/-- R321, R322, R44: `pref` of an address that does not translate, that its page does not permit or that no cache takes,
and of a line that the L1 holds, does nothing but advance; one that the core's TLB misses waits for its walk, and passes
one that ends in a fault; a line that is not held is requested, at a home of the own die as a read and at that of the
other as a lease, behind a snoop where the host has it exclusively, without a wait. `cwb`, `cinv` and `cfl` do nothing
on local memory, and on a line whose 512 tokens the L1 holds they send the tokens home (`cwb` all but one, the line
staying valid) and wait for the home's acknowledgement of that write-back. R106, R108, R328, R329: `smap` sets the
descriptor when every check passes; `sunmap` and `swb` of a window none of whose lines is held end at once, `sunmap`
with V clear; of one line that is held, `sunmap` sends every token home and leaves the line's bytes in the local range
beneath, `swb` the owner token, the data and all but one token, and both wait for the home; on an invalid window both
raise `#PROT`.
The model's own choices or readings behind it: assumption log 22, 53, 55. -/
def Obligations.LineAndWindowResults : Prop :=
  (∀ (s : State) (a : WReg) (imm : Imm) (l : Leaf),
    let me := s.me
    let ea := (s.ea me.base a imm).toNat
    let pa := l.phys (ea % 2 ^ 57)
    let ln := pa / 128
    let len := Imm.len imm
    let c := s.copy me.core ln
    let passes := fun (t : State) => t = (s.advPc me.base len).clearWait me.key
    let asks := fun (copy : Copy) (b : MsgBody) => ∃ t, exec (.pref a imm) s = .next t ∧ t.waitOf me.key = none ∧
      t.pc me.base = s.pc me.base + BitVec.ofNat 64 len ∧ t.copy me.core ln = copy ∧
      t.net = s.net ++ [{ id := s.nextId, body := b }] ∧ Keeps s t [(me.base + offPc, 8)]
    let absent := s.copy me.core ln = {} ∧
      ((tget s.copies me.core).filter (fun e => usesFrame e.2)).length < Config.l1Lines
    (canonicalVa ea = false → ∃ t, exec (.pref a imm) s = .next t ∧ passes t) ∧
    (canonicalVa ea = true → s.tlbHit me.core (s.ptroot me.base) ea = none → ∃ t, exec (.pref a imm) s = .next t ∧
      t.waitOf me.key = some (.walk me.core (s.ptroot me.base) ea accRead) ∧ t.mem = s.mem ∧ t.net = s.net) ∧
    (canonicalVa ea = true → s.tlbHit me.core (s.ptroot me.base) ea = some l →
      (l.permits { rd := true } (s.pl me.base) = false ∨ cacheablePol l.pol = false ∨
        ((∀ q, regionOf pa ≠ .hbm q) ∧ regionOf pa ≠ .host) → ∃ t, exec (.pref a imm) s = .next t ∧ passes t) ∧
      (l.permits { rd := true } (s.pl me.base) = true → cacheablePol l.pol = true → pa < 4 * quarterBytes → absent →
        Memory.wf s.mem = true →
        (s.snoopHalf pa 1 false = none → s.homeDie (ln * 128) = dieOf me.core →
          asks { miss := some { sent := s.cycle } } (.readReq me.core ln)) ∧
        (s.snoopHalf pa 1 false = none → s.homeDie (ln * 128) ≠ dieOf me.core → (s.die (dieOf me.core)).tripped = none →
          asks { miss := some { sent := s.cycle } } (.leaseReq me.core ln (s.die (dieOf me.core)).lease)) ∧
        (∀ k, s.snoopHalf pa 1 false = some k → (s.homeDie (ln * 128) ≠ dieOf me.core →
            (s.die (dieOf me.core)).tripped = none) → ∃ t, exec (.pref a imm) s = .next t ∧
          t.waitOf me.key = none ∧ t.copy me.core ln = {} ∧ t.net = s.net ∧
          (t.line ln).prefs = (s.line ln).prefs ++ [(me.core, pa, l)] ∧
          (if k = 0 then (t.line ln).snoop0 else (t.line ln).snoop1).isSome = true ∧ Keeps s t [(me.base + offPc, 8)]))) ∧
    (LocalAt s me .read ea 1 l →
      ∀ i ∈ [Instr.pref a imm, .cwb a imm, .cinv a imm, .cfl a imm], ∃ t, exec i s = .next t ∧ passes t) ∧
    (HeldAt s me .read ea 1 l → c.miss = none →
      (∃ t, exec (.pref a imm) s = .next t ∧ passes t) ∧
      (∃ t, exec (.cwb a imm) s = .next t ∧ t.waitOf me.key = some (.acks [s.nextId]) ∧
        t.copy me.core ln = { c with tokens := 1, owner := false, dirty := false } ∧
        t.net = s.net ++ [{ id := s.nextId
                            body := .writeBack me.core ln 511 true c.dirty (c.data.map (·.toNat)) c.stamp false }]) ∧
      ∀ r ∈ [(Instr.cinv a imm, false), (.cfl a imm, true)],
        ∃ t, exec r.1 s = .next t ∧ t.waitOf me.key = some (.acks [s.nextId]) ∧
          t.copy me.core ln = { evicting := some s.nextId } ∧
          t.net = s.net ++ [{ id := s.nextId
                              body := .writeBack me.core ln 512 true c.dirty (c.data.map (·.toNat)) c.stamp r.2 }])) ∧
  (∀ (s u : State) (key va len : Nat) (who : Me) (w : Wait) (cause : TrapInfo), Memory.wf s.mem = true →
    let pt := s.ptroot who.base
    s.meOf key = some who → (s.ctx key).wait = some w → w.block = .walk who.core pt va accRead →
    w.cont.prog = [.finish .prefetch, .adv len] → w.cont.elems = [{ va := va, size := 1 }] → w.cont.walked = [] →
    w.cont.reg = none → (s.ctx key).migrating = false → canonicalVa va = true → s.clusterTlb who.core pt va = none →
    s.tlbHit who.core pt va = none → s.walking key = true →
    walkNow who.core pt va accRead s = (.trap cause, u) → (u.core who.core).log.en = false →
    u.walkSharers { core := who.core, pt := pt, va := va, acc := accRead } (.trap cause) = [key] →
    ∃ t, exec (.walkComplete key) s = .next t ∧ t.waitOf key = none ∧
      t.pc who.base = s.pc who.base + BitVec.ofNat 64 len ∧ t.net = s.net ∧
      Keeps s t [(who.base + offPc, 8), (who.base + offLrs, 8)]) ∧
  (∀ (s : State) (i : Fin 8) (size : BitVec 3) (a b : WReg), Memory.wf s.mem = true →
    let me := s.me
    let va := (s.getW me.base a).toNat
    let off := (s.getW me.base b).toNat
    let n := 2 ^ size.toNat
    let win := s.win me.core i.val
    (va % (4096 * n) = 0 → off % (4096 * n) = 0 → win.v = false → s.inGeneral me.core off (4096 * n) = true →
      s.meetsWindow me.core off (4096 * n) = false → s.meetsRing me.core off (4096 * n) = false →
      (∀ k, k < n → canonicalVa ((va + 4096 * k) % 2 ^ 64) = true ∧
        ∃ l, s.tlbHit me.core (s.ptroot me.base) ((va + 4096 * k) % 2 ^ 64) = some l ∧ l.pol = 3 ∧
          l.permits { rd := true } (s.pl me.base) = true) →
      exec (.smap i size a b) s = .next (((s.setWin me.core i.val
        { v := true, vpn := va % 2 ^ 57 / 4096, lbase := off / 4096, size := size.toNat, ptroot := s.ptroot me.base
          priv := s.pl me.base }).advPc me.base 8).clearWait me.key)) ∧
    (win.v = false → exec (.sunmap i) s = .next (trapEntry me { cause := .prot } s) ∧
      exec (.swb i) s = .next (trapEntry me { cause := .prot } s)) ∧
    (win.v = true → win.unmapping = false → s.windowCopies me.core i.val = [] → ∃ u, exec (.sunmap i) s = .next u ∧
      u.win me.core i.val = { win with v := false, lines := [] } ∧ u.mem = (s.advPc me.base 8).mem) ∧
    (win.v = true → s.windowCopies me.core i.val = [] → exec (.swb i) s = .next (s.advPc me.base 8)) ∧
    (∀ h ln, win.v = true → s.windowCopies me.core i.val = [(h, ln)] →
      let c := s.copy h ln
      let beneath := localPa me.core (win.lbase * 4096 + winIdx h * 128)
      let sent := fun (t : State) (n : Nat) (owner : Bool) => t.waitOf me.key = some (.acks [s.nextId]) ∧
        t.net = s.net ++ [{ id := s.nextId
                            body := .writeBack h ln n owner c.dirty (c.data.map (·.toNat)) c.stamp false }]
      let spilled := fun (t : State) => (∀ d, c.data = some d → t.rd beneath 128 = d.toNat) ∧ Keeps s t [(beneath, 128)]
      c.miss = none → c.evicting = none → 0 < c.tokens →
      (win.unmapping = false → (∀ k w, (s.ctx k).wait = some w → w.block ≠ .line h ln) →
        ∃ t, exec (.sunmap i) s = .next t ∧ sent t c.tokens c.owner ∧ t.copy h ln = { evicting := some s.nextId } ∧
          t.win me.core i.val = { win with unmapping := true } ∧ spilled t) ∧
      (c.owner = false → exec (.swb i) s = .next (s.advPc me.base 8)) ∧
      (c.owner = true → 1 < c.tokens → ∃ t, exec (.swb i) s = .next t ∧ sent t (c.tokens - 1) true ∧
        t.copy h ln = { c with tokens := 1, owner := false, dirty := false } ∧ t.mem = s.mem) ∧
      (c.owner = true → c.tokens = 1 → ∃ t, exec (.swb i) s = .next t ∧ sent t 1 true ∧ t.copy h ln = {} ∧ spilled t)))

/-! ### Vector memory and the vector section (R330 to R347, R168 to R171) -/

/-- R332 to R334: the vector loads and stores whose elements lie, aligned, in the issuing core's own local memory and
outside its workspace: lane `i` of the destination is element `i` of memory, the stores perform in ascending order of
element; the lowest element that breaks its alignment is the faulting address of `#ALIGN`.
R185, R344, R345: `vcmpm` and `vlut` with every table entry in general regions, outside every window and in no lost
line: each bit of the mask is the outcome of its node, each lane the value of its entry; an aligned table that leaves the
general regions raises `#PROT`, a misaligned one `#ALIGN`.
The model's own choices or readings behind it: assumption log 16, 36, 61. -/
def Obligations.VectorMemoryAndTables : Prop :=
  (∀ (s : State) (ty : Ty) (d x : VReg) (a b : WReg) (imm : Imm) (l : Nat → Leaf), Memory.wf s.mem = true →
    let me := s.me
    let base := me.base
    let ea := s.ea base a imm
    let steps := strided ea (s.getW base b) (512 / ty.bits)
    let idx := indexed ty (s.getW base a) (s.getV base x).toNat
    let pa := fun (e : Nat) => (l e).phys (e % 2 ^ 57)
    let clear := fun (op : AccOp) (u e : Nat) => e % u = 0 ∧ LocalAt s me op e u (l e) ∧ (pa e + u ≤ base ∨ base + 4096 ≤ pa e)
    let loads : List (Instr × List Nat × Nat × Nat) :=
      [(.vld ty d a imm, wholeAddrs ty ea, wholeUnit ty ea, Imm.len imm), (.vlds ty d a imm b, steps, tyBytes ty, Imm.len imm),
       (.vgat ty d a x, idx, tyBytes ty, 8)]
    let stores : List (Instr × List Nat × Nat × Nat) :=
      [(.vst ty a imm d, wholeAddrs ty ea, wholeUnit ty ea, Imm.len imm), (.vsct ty a x d, idx, tyBytes ty, 12)]
    (∀ r ∈ loads, WellFormed r.1 = true → (∀ e ∈ r.2.1, clear .read r.2.2.1 e) → ∃ t, exec r.1 s = .next t ∧
      (∀ i, i < r.2.1.length →
        lane (8 * r.2.2.1) (t.getV base d) i = BitVec.ofNat _ (s.rd (pa (r.2.1.getD i 0)) r.2.2.1)) ∧
      t.ws base offLrs = max (s.ws base offLrs) (s.gtOf me.core) % 2 ^ 64 ∧
      t.pc base = s.pc base + BitVec.ofNat 64 r.2.2.2 ∧
      ∀ y, (∀ q ∈ [(base + offV + 64 * d.val, 64), (base + offLrs, 8), (base + offPc, 8)], y < q.1 ∨ q.1 + q.2 ≤ y) →
        mget t.mem y = mget s.mem y) ∧
    (∀ r ∈ stores, WellFormed r.1 = true → (∀ e ∈ r.2.1, clear .write r.2.2.1 e) → ∃ t, exec r.1 s = .next t ∧
      t.mem = (((List.range r.2.1.length).foldl (fun (u : State) i =>
        u.wr (pa (r.2.1.getD i 0)) r.2.2.1 (lane (8 * r.2.2.1) (s.getV base d) i).toNat) s).advPc base r.2.2.2).mem) ∧
    (∀ r ∈ loads ++ stores, ∀ e, r.2.1.find? (fun e => e % r.2.2.1 ≠ 0) = some e → exec r.1 s = .next
      (trapEntry me { cause := .align, addr := e, info0 := r.2.2.1, acc := if r.1 ∈ loads.map Prod.fst then 1 else 2 } s))) ∧
  (∀ (s : State) (ty : Ty) (d a : VReg) (b : WReg) (pd : PReg) (depth : BitVec 3) (trees : BitVec 6),
    Memory.wf s.mem = true → UnitFree s s.me false →
    let me := s.me
    let base := me.base
    let cl := clusterOf me.core
    let tab := (s.getW base b).toNat
    let reads := fun (la n : Nat) => s.clusterGeneral cl la n = true ∧ s.clusterWindow cl la n = false ∧
      s.clusterLost cl la n 0 1 = none
    let ks := nodeList depth.toNat trees.toNat
    let node := fun k => s.clusterRd cl (tab + 8 * k) 8
    let x := fun i => (lane 32 (s.getV base a) i).toNat
    let n := lutBytes ty
    let at' := fun i => tab + n * x i
    (WellFormed (.vcmpm pd a b depth trees) = true →
      (tab % 8 = 0 → tab < 2 ^ 23 → (∀ k ∈ ks, reads (tab + 8 * k) 8 ∧ nodeBad (node k) = false) →
        VectorRuns s (.vcmpm pd a b depth trees) (fun t => t.pc base = s.pc base + 8 ∧
          (∀ k, k < 64 → (t.getP base pd).getLsbD k =
            (ks.contains k && (nodeOutcome (node k) (x (bits (node k) 32 4))).1)) ∧
          ∀ m, (∀ o ∈ [(base + offP + 8 * pd.val, 8), (base + offFpflags, 8), (base + offPc, 8)], m < o.1 ∨ o.1 + o.2 ≤ m) →
            mget t.mem m = mget s.mem m)) ∧
      (tab % 8 ≠ 0 → GrantTraps s (.vcmpm pd a b depth trees) false { cause := .align, addr := tab, info0 := 8, acc := 1 }) ∧
      (tab % 8 = 0 → ks.any (fun k => !s.clusterGeneral cl (tab + 8 * k) 8) = true →
        GrantTraps s (.vcmpm pd a b depth trees) false { cause := .prot })) ∧
    (WellFormed (.vlut ty d a b) = true → (∀ i, i < 16 → at' i % n = 0) →
      (tab < 2 ^ 23 → (∀ i, i < 16 → at' i < 2 ^ 23 ∧ reads (at' i) n) →
        ∃ v fl, VectorRuns s (.vlut ty d a b) (fun t => WroteV s t d v fl 8) ∧
          ∀ i, i < 16 → lane 32 v i = BitVec.ofNat 32 (lutValue ty (s.clusterRd cl (at' i) n)).1) ∧
      (∀ i, i < 16 → s.clusterGeneral cl (at' i) n = false → GrantTraps s (.vlut ty d a b) false { cause := .prot })))

/-- R330, R331, R335 to R339: the element results of the integer vector instructions and of those that move bits, with
the old element where the predicate is clear, no flag, and the frame of `WroteV`.
The model's own choices or readings behind it: assumption log 36. -/
def Obligations.VectorIntegerResults : Prop :=
  ∀ (s : State) (ty : Ty) (rm : Rm) (d a b : VReg) (w : WReg) (p : Option PReg) (q : PReg) (k : BitVec 6),
    Memory.wf s.mem = true → UnitFree s s.me false →
    let base := s.me.base
    let n := ty.elems
    let x := fun i => lane ty.bits (s.getV base a) i
    let y := fun i => lane ty.bits (s.getV base b) i
    let old := fun i => lane ty.bits (s.getV base d) i
    let less := fun (u v : BitVec ty.bits) => if ty.isSigned then u.slt v else u.ult v
    let all := fun (_ : Nat) => true
    let act := activeAt s base p
    let len := if p.isSome then 12 else 8
    let rows : List (Instr × (Nat → BitVec ty.bits) × (Nat → Bool) × Nat) :=
      (if ty.isInt then
        [(.vadd ty rm d a b p, fun i => x i + y i, act, len), (.vsub ty rm d a b p, fun i => x i - y i, act, len),
         (.vmul ty rm d a b p, fun i => x i * y i, act, len),
         (.vmax ty d a b p, fun i => if less (x i) (y i) then y i else x i, act, len),
         (.vmin ty d a b p, fun i => if less (y i) (x i) then y i else x i, act, len),
         (.vabs ty d a p, fun i => if (x i).msb then -(x i) else x i, act, len), (.vneg ty d a p, fun i => -(x i), act, len),
         (.vand ty d a b p, fun i => x i &&& y i, act, len), (.vor ty d a b p, fun i => x i ||| y i, act, len),
         (.vxor ty d a b p, fun i => x i ^^^ y i, act, len),
         (.vshl ty d a b p, fun i => x i <<< ((y i).toNat % ty.bits), act, len),
         (.vshr ty d a b p, fun i => x i >>> ((y i).toNat % ty.bits), act, len),
         (.vsra ty d a b p, fun i => (x i).sshiftRight ((y i).toNat % ty.bits), act, len)] else []) ++
      [(.vbc ty d w p, fun _ => (s.getW base w).setWidth _, act, len),
       (.vins ty d w k, fun i => if i = k.toNat then (s.getW base w).setWidth _ else old i, all, 8),
       (.vslide ty d a k, fun i => if i + k.toNat < n then x (i + k.toNat) else 0, all, 8),
       (.vperm ty d a b p, fun i => x ((y i).toNat % n), act, len),
       (.vsel ty d a b q, fun i => if (s.getP base q).getLsbD i then x i else y i, all, 12)]
    ∀ r ∈ rows, WellFormed r.1 = true → ∃ v, VectorRuns s r.1 (fun t => WroteV s t d v 0 r.2.2.2) ∧
      ∀ i, i < n → lane ty.bits v i = if r.2.2.1 i then r.2.1 i else old i

/-- R336 to R338, R340, R343 for the floating-point types: each active element is the rounded result of R151 to R155 on
the elements of the sources, the flags are the union of the active elements', inactive elements stay.
The model's own choices or readings behind it: assumption log 36. -/
def Obligations.VectorFloatResults : Prop :=
  ∀ (s : State) (ty : Ty) (rm : Rm) (d a b c : VReg) (p : Option PReg), Memory.wf s.mem = true → UnitFree s s.me false →
    ty.isFlt = true →
    let base := s.me.base
    let f := fmtOf ty
    let x := fun i => (lane ty.bits (s.getV base a) i).toNat
    let y := fun i => (lane ty.bits (s.getV base b) i).toNat
    let z := fun i => (lane ty.bits (s.getV base c) i).toNat
    let act := activeAt s base p
    let len := if p.isSome then 12 else 8
    let rows : List (Instr × (Nat → Nat × Nat) × Nat) :=
      [(.vadd ty rm d a b p, fun i => fpAdd f rm (x i) (y i), len), (.vsub ty rm d a b p, fun i => fpSub f rm (x i) (y i), len),
       (.vmul ty rm d a b p, fun i => fpMul f rm (x i) (y i), len),
       (.vmax ty d a b p, fun i => fpMinMax f true (x i) (y i), len),
       (.vmin ty d a b p, fun i => fpMinMax f false (x i) (y i), len),
       (.vfma ty rm d a b c p, fun i => fpFma f rm false (x i) (y i) (z i), 12),
       (.vfms ty rm d a b c p, fun i => fpFma f rm true (x i) (y i) (z i), 12),
       (.vabs ty d a p, fun i => (x i % 2 ^ (ty.bits - 1), 0), len),
       (.vneg ty d a p, fun i => (x i ^^^ 2 ^ (ty.bits - 1), 0), len)]
    ∀ r ∈ rows, ∃ v, VectorRuns s r.1 (fun t =>
      WroteV s t d v ((List.range ty.elems).foldl (fun g i => if act i then g ||| (r.2.1 i).2 else g) 0) r.2.2) ∧
      ∀ i, i < ty.elems →
        lane ty.bits v i = if act i then BitVec.ofNat _ (r.2.1 i).1 else lane ty.bits (s.getV base d) i

/-- R166, R335, R340, R342, R343, R186, R347: the vector instructions of other shapes: `vext` and `vred` write a `w`
register, the floating-point `vred` by the fixed tree of R166, whose inactive leaves are the zero of its rounding mode;
`vcmp` a predicate with every other bit clear, `vcvt` as many elements as the wider type has, `vleaf` the leaves that the
outcome mask leads to, `vquant` a block image of 32 inputs and `vdeq` 32 outputs into a pair; the flags of each are the
union of its active elements' or nodes'.
The model's own choices or readings behind it: assumption log 36. -/
def Obligations.VectorShapedResults : Prop :=
  ∀ (s : State) (ty out : Ty) (rm : Rm) (k : Rel) (d a b : VReg) (w : WReg) (pd : PReg) (p : Option PReg) (q : PReg)
    (i6 : BitVec 6) (depth : BitVec 3) (e5 : Bool), Memory.wf s.mem = true → UnitFree s s.me false →
    let base := s.me.base
    let x := fun i => lane ty.bits (s.getV base a) i
    let y := fun i => lane ty.bits (s.getV base b) i
    let act := activeAt s base p
    let len := if p.isSome then 12 else 8
    let flagsOf := fun (n : Nat) (f : Nat → Nat) => (List.range n).foldl (fun g i => if act i then g ||| f i else g) 0
    let goes := fun (i : Instr) (n : Nat) (flags : Nat) (outs : List (Nat × Nat × Nat)) =>
      VectorRuns s i (fun t => t.pc base = s.pc base + BitVec.ofNat 64 n ∧
        t.ws base offFpflags = s.ws base offFpflags ||| flags ∧ (∀ o ∈ outs, t.rd (base + o.1) o.2.1 = o.2.2) ∧
        ∀ m, (∀ o ∈ outs, m < base + o.1 ∨ base + o.1 + o.2.1 ≤ m) → (m < base + offFpflags ∨ base + offFpflags + 8 ≤ m) →
          (m < base + offPc ∨ base + offPc + 8 ≤ m) → mget t.mem m = mget s.mem m)
    (WellFormed (.vext ty w a i6) = true → goes (.vext ty w a i6) 8 0
      [(8 * w.val, 8, if ty.isSigned then ((x i6.toNat).signExtend 64).toNat else (x i6.toNat).toNat)]) ∧
    (ty.isInt = true → goes (.vred ty rm w a q) 8 0 [(8 * w.val, 8, ((List.range ty.elems).foldl
      (fun acc i => if (s.getP base q).getLsbD i then acc + x i else acc) 0).toNat)]) ∧
    (ty.isFlt = true →
      let idle : Nat × Nat := (if rm = .rdn then 0 else 0x80000000, 0)
      let leaf := fun (i : Nat) =>
        let v := (fmtOf ty).decode (x i).toNat
        if (s.getP base q).getLsbD i = false then idle
        else if ty = .f32 then ((x i).toNat, 0) else ((fmtF32.deliver .rne v).1, flagsInvalid v.isSnan)
      let node := fun (child : Nat → Nat × Nat) (i : Nat) =>
        let l := child (2 * i)
        let r := child (2 * i + 1)
        let sum := fpAdd fmtF32 rm l.1 r.1
        (sum.1, l.2 ||| r.2 ||| sum.2)
      let root := if ty = .f32 then node (node (node (node leaf))) 0 else node (node (node (node (node leaf)))) 0
      goes (.vred ty rm w a q) 8 root.2 [(8 * w.val, 8, root.1 % 2 ^ 64)] ∧
      ((∀ i, i < ty.elems → (s.getP base q).getLsbD i = false) → root = idle)) ∧
    (ty.isInt = true → ∃ m, goes (.vcmp ty k pd a b p) len 0 [(offP + 8 * pd.val, 8, m)] ∧
      ∀ i, m.testBit i = (decide (i < ty.elems) && act i && (match k with
        | .lt => if ty.isSigned then (x i).slt (y i) else (x i).ult (y i)
        | .le => if ty.isSigned then (x i).sle (y i) else (x i).ule (y i)
        | .eq => x i == y i
        | .ne => x i != y i))) ∧
    (ty.isFlt = true → ∃ m, goes (.vcmp ty k pd a b p) len
        (flagsOf ty.elems (fun i => (fpRel (fmtOf ty) k (x i).toNat (y i).toNat).2)) [(offP + 8 * pd.val, 8, m)] ∧
      ∀ i, m.testBit i = (decide (i < ty.elems) && act i && (fpRel (fmtOf ty) k (x i).toNat (y i).toNat).1)) ∧
    (WellFormed (.vcvt out ty rm d a p) = true → ∃ v, goes (.vcvt out ty rm d a p) len
        (flagsOf (512 / max out.bits ty.bits) (fun i => (convert out ty rm (x i).toNat).2)) [(offV + 64 * d.val, 64, v)] ∧
      v < 2 ^ (out.bits * (512 / max out.bits ty.bits)) ∧
      ∀ i, i < 512 / max out.bits ty.bits → elem out.bits v i =
        if act i then (convert out ty rm (x i).toNat).1 % 2 ^ out.bits else (lane out.bits (s.getV base d) i).toNat) ∧
    (WellFormed (.vleaf d pd depth i6) = true → ∃ v,
      goes (.vleaf d pd depth i6) 8 0 ((offV + 64 * d.val, 64, v) ::
        (if 16 < i6.toNat then [(offV + 64 * (d.val + 1), 64, ofElems 32 16 (fun i =>
          if 16 + i < i6.toNat then leafWalk (s.getP base pd).toNat (16 + i) depth.toNat depth.toNat 0 else 0))] else [])) ∧
      ∀ t, t < 16 → elem 32 v t =
        if t < i6.toNat then leafWalk (s.getP base pd).toNat t depth.toNat depth.toNat 0 % 2 ^ 32 else 0) ∧
    (WellFormed (.vquant ty e5 rm d a p) = true →
      let inp := fun i => (lane 32 (if i < 16 then s.getV base a else s.getV base (a + 1)) (i % 16)).toNat
      let val := fun i => if act i then fmtF32.decode (inp i) else Fp.zero false
      let z := quantise ty e5 rm ((List.range 32).map val)
      goes (.vquant ty e5 rm d a p) len (z.2.2 ||| flagsInvalid ((List.range 32).any (fun i => (val i).isSnan)))
        [(offV + 64 * d.val, 64, (ofElems (blockBits ty) 32 (fun i => if act i then z.2.1.getD i 0 else 0) + z.1 * 2 ^ 256)
          % 2 ^ 512)]) ∧
    (WellFormed (.vdeq ty e5 rm d a p) = true →
      let img := (s.getV base a).toNat
      let scale := let c := bits img 256 (scaleBits ty); if isS12 ty then s12Value c else e8m0Value c
      let f := fun i => fmtF32.deliver rm (blockValue (blockElem ty e5).1 scale (elem (blockBits ty) img i))
      ∃ lo hi, goes (.vdeq ty e5 rm d a p) len (flagsOf 32 (fun i => (f i).2))
          [(offV + 64 * d.val, 64, lo), (offV + 64 * (d.val + 1), 64, hi)] ∧
        ∀ i, i < 32 → elem 32 (if i < 16 then lo else hi) (i % 16) =
          if act i then (f i).1 % 2 ^ 32 else (lane 32 (s.getV base (if i < 16 then d else d + 1)) (i % 16)).toNat)

/-- R169 to R171: an issued instruction of the vector section takes its slot out of the
rotation at the end of its core's list; the grant goes to the first list after the last granted core that holds an
entry, reads the operands then, and the result is written at its end, not before.
The model's own choices or readings behind it: assumption log 36. -/
def Obligations.ElandVectorFlow : Prop :=
  ∀ (s : State), Memory.wf s.mem = true →
    (∀ ty d a b, s.seqCore s.me.key = none →
      ∃ t, exec (.vand ty d a b none) s = .next t ∧ t.mem = s.mem ∧
        (t.core s.me.core).vlist =
          (s.core s.me.core).vlist ++ [{ ctx := s.me.key, instr := .vand ty d a b none, len := 8 }] ∧
        t.waitOf s.me.key = some (.eland (quadOf s.me.core) false)) ∧
    (∀ quad k e rest base ws fl, k < 4 → e.step = none →
      (∀ i, i < 4 → (s.core (4 * quad + ((s.quad quad).lastV + 1 + i) % 4)).vlist = [] ∨
        (∃ j, j ≤ i ∧ ((s.quad quad).lastV + 1 + j) % 4 = k)) →
      (s.core (4 * quad + k)).vlist = e :: rest → s.baseOf e.ctx = some base → s.delivers e.ctx = true →
      s.lostIn base 4096 = none → regionOf base = .local (4 * quad + k) → base % 4096 = 0 →
      vecValue (fun off n => s.wsRd base off n) (4 * quad + k) e.instr s = (.writes ws fl, s) →
      ∃ t, exec (.elandGrant quad false) s = .next t ∧ t.mem = s.mem ∧ (t.core (4 * quad + k)).vlist = rest ∧
        (t.quad quad).lastV = k ∧ t.waitOf e.ctx = some (.granted quad s.nextId) ∧
        (t.quad quad).granted = (s.quad quad).granted ++
          [{ id := s.nextId, ctx := e.ctx, instr := e.instr, len := e.len, ready := s.cycle + 4, writes := ws, flags := fl
             core := 4 * quad + k }]) ∧
    (∀ quad, (∀ i, i < 4 → (s.core (4 * quad + i)).vlist = []) → exec (.elandGrant quad false) s = .next s) ∧
    (∀ quad g me off v, s.dueEntry quad g.id isVectorOp = some g → s.meOf g.ctx = some me → me.core < 384 →
      me.base + 4096 ≤ localPa me.core 0x100000 →
      g.step = none → g.writes = [(off, 64, v)] → off + 64 ≤ offPc → g.flags = 0 →
      s.waitOf g.ctx = some (.granted quad g.id) →
      ∃ t, exec (.vectorResultWrite quad g.id) s = .next t ∧ t.rd (me.base + off) 64 = v % 2 ^ 512 ∧
        t.pc me.base = BitVec.ofNat 64 ((s.pc me.base).toNat + g.len) ∧ t.waitOf g.ctx = none ∧
        (t.quad quad).granted = (s.quad quad).granted.filter (fun x => x.id ≠ g.id) ∧
        ∀ m, (m < me.base + off ∨ me.base + off + 64 ≤ m) → (m < me.base + offPc ∨ me.base + offPc + 8 ≤ m) →
          mget t.mem m = mget s.mem m) ∧
    (∀ quad entry, (∀ g ∈ (s.quad quad).granted, g.id = entry → s.cycle < g.ready) →
      exec (.vectorResultWrite quad entry) s = .next s)

/-! ### The tensor array and the sequencer (R172 to R184, R350 to R360) -/

/-- R172, R173, R350 to R352: `tcfg`, `tcfg.claim` and `tcfg.rel` by a team that may configure the array: the old
configuration in W[d], the fields of W[a], the planes emptied when the weight format changed; a claim takes a free array
and waits for one that another team holds, and a release clears the array when its 512 cycles are over, not before.
The model's own choices or readings behind it: assumption log 34, 35. -/
def Obligations.ArrayConfiguration : Prop :=
  ∀ (s : State) (d a : WReg), Memory.wf s.mem = true → UnitFree s s.me true →
    let me := s.me
    let quad := quadOf me.core
    let q := s.quad quad
    let v := (s.getW me.base a).toNat
    let new := v - bits v 16 1 * 2 ^ 16
    let c := q.conf.toNat
    let team := s.domOf me.key
    let same : Bool := confSp c = confSp (confFields v) ∧ confWsc c = confWsc (confFields v) ∧ confWel c = confWel (confFields v)
    let configured := fun (old : Nat) (t : State) =>
      t.getW me.base d = BitVec.ofNat 64 old ∧ t.pc me.base = s.pc me.base + 8 ∧
      (t.quad quad).conf = BitVec.ofNat 20 (confFields v) ∧ (t.quad quad).acc = q.acc ∧
      (if same then (t.quad quad).active = q.active ∧ (t.quad quad).scaleQ = q.scaleQ
       else (t.quad quad).active = {} ∧ (t.quad quad).shadow = {} ∧ (t.quad quad).scaleQ = []) ∧
      ∀ x, (x < me.base + 8 * d.val ∨ me.base + 8 * d.val + 8 ≤ x) → (x < me.base + offPc ∨ me.base + offPc + 8 ≤ x) →
        mget t.mem x = mget s.mem x
    (confOk new = true →
      (q.owner = some team → ∀ i ∈ [Instr.tcfg d a, .tcfgClaim d a],
        ArrayRuns s i (fun t => configured q.tconf t ∧ (t.quad quad).owner = some team)) ∧
      (q.owner = none → q.releasing = none →
        ArrayRuns s (.tcfgClaim d a) (fun t => configured q.tconf t ∧ (t.quad quad).owner = some team)) ∧
      (∀ other, q.owner = some other → other ≠ team →
        (s.kindOf me.base ≠ 1 → ArrayRuns s (.tcfgClaim d a) (fun t =>
          t.waitOf me.key = some (.claim quad s.nextId) ∧ t.mem = s.mem)) ∧
        (s.kindOf me.base = 1 → GrantTraps s (.tcfgClaim d a) true { cause := .block }))) ∧
    (q.owner = some team → confOk new = false → ∀ i ∈ [Instr.tcfg d a, .tcfgClaim d a],
      GrantTraps s i true { cause := .prot }) ∧
    (q.owner = some team → ArrayRunsFor s (.tcfgRel d a) 512 (.arrayReleaseDone quad) (fun t =>
      t.getW me.base d = BitVec.ofNat 64 q.tconf ∧ t.pc me.base = s.pc me.base + 8 ∧ (t.quad quad).owner = none ∧
      (t.quad quad).releasing = none ∧ (t.quad quad).conf = 0 ∧ (t.quad quad).acc = [] ∧
      ∀ x, (x < me.base + 8 * d.val ∨ me.base + 8 * d.val + 8 ≤ x) → (x < me.base + offPc ∨ me.base + offPc + 8 ≤ x) →
        mget t.mem x = mget s.mem x)) ∧
    (q.owner ≠ some team → ∀ i ∈ [Instr.tcfg d a, .tcfgRel d a], GrantTraps s i true { cause := .prot }) ∧
    (∀ k due, (s.quad k).releasing = some due →
      (s.cycle < due → exec (.arrayReleaseDone k) s = .next s) ∧
      (due ≤ s.cycle → (s.quad k).granted = [] → ∃ t, exec (.arrayReleaseDone k) s = .next t ∧
        (t.quad k).releasing = none ∧ (t.quad k).conf = 0 ∧ (t.quad k).active = {} ∧ (t.quad k).shadow = {} ∧
        (t.quad k).scaleQ = [] ∧ (t.quad k).acc = [] ∧ t.mem = s.mem ∧
        ∀ key order, s.waitOf key = some (.claim k order) → t.waitOf key = none))

/-- R175, R176, R178, R353 to R355: `tldw`, `tsmeta`, `tscq`, `tswap`, `twait` and `tzero` by the team that holds the
array, with their operands aligned, in general regions, outside windows and in no lost line.
The model's own choices or readings behind it: assumption log 34. -/
def Obligations.ArrayOperandResults : Prop :=
  ∀ (s : State) (a : WReg) (count : BitVec 5), Memory.wf s.mem = true → UnitFree s s.me true →
    let me := s.me
    let quad := quadOf me.core
    let cl := quad / 2
    let q := s.quad quad
    let c := q.conf.toNat
    let x := (s.getW me.base a).toNat
    let reads := fun (n : Nat) => x % 32 = 0 ∧ x < 2 ^ 23 ∧ s.clusterGeneral cl x n = true ∧
      s.clusterWindow cl x n = false ∧ s.clusterLost cl x n 0 1 = none
    let tile := (shapeOf c).2.1 * 128 * codeBits (confWel c) / 8
    let need := if confWsc c = 0 then 0 else (shapeOf c).1 / 32
    let entry := 128 * scaleBytes (confWsc c)
    let mask := fun i => bits (s.clusterRd cl x 8192) (128 * i) 128
    let rising := (q.acc.map Prod.fst).Pairwise (· < ·)
    let ran := fun (t : State) => t.pc me.base = s.pc me.base + 8 ∧
      ∀ m, (m < me.base + offPc ∨ me.base + offPc + 8 ≤ m) → mget t.mem m = mget s.mem m
    let goes := fun (i : Instr) (r : Quad → Prop) => ArrayRuns s i (fun t => r (t.quad quad) ∧ ran t)
    s.holdsArray quad me.key = true →
    (reads tile → need ≤ q.scaleQ.length → (confSp c ≠ 0 → q.shadow.metaSt = true) →
      ArrayRunsFor s (.tldw a) (tile / 128) (.planeReady quad s.nextId) (fun t =>
        (t.quad quad).shadow.st = 2 ∧ (t.quad quad).shadow.tile = s.clusterRd cl x tile ∧
        (t.quad quad).scaleQ = q.scaleQ.drop need ∧ (t.quad quad).active = q.active ∧ (t.quad quad).acc = q.acc ∧ ran t)) ∧
    (reads 8192 → confSp c ≠ 0 → (∀ i, i < 512 → popCount 128 (mask i) = sparseN (confSp c)) →
      goes (.tsmeta a) (fun u => u.shadow.metaSt = true ∧ u.shadow.metaBits = s.clusterRd cl x 8192 ∧ u.acc = q.acc)) ∧
    (WellFormed (.tscq a count) = true → reads (count.toNat * entry) → confWsc c ≠ 0 →
      q.scaleQ.length + count.toNat ≤ 16 →
      goes (.tscq a count) (fun u => u.scaleQ.length = q.scaleQ.length + count.toNat ∧
        (∀ i, i < count.toNat → u.scaleQ.getD (q.scaleQ.length + i) 0 =
          bits (s.clusterRd cl x (count.toNat * entry)) (8 * entry * i) (8 * entry)) ∧
        u.acc = q.acc)) ∧
    (q.shadow.st ≠ 0 → goes .tswap (fun u => u.active = { q.shadow with metaSt := false } ∧
      u.shadow = { q.active with metaSt := false } ∧ u.acc = q.acc)) ∧
    (q.shadow.st = 0 → GrantTraps s .tswap true { cause := .prot }) ∧
    goes .twait (fun u => u = { q with lastT := me.core % 4 }) ∧
    (bits x 19 6 = 0 → stepAcc x + stepRows x ≤ 512 → rising → goes (.tzero a) (fun u =>
      (∀ r, stepAcc x ≤ r → r < stepAcc x + stepRows x → tget u.acc r = 0) ∧
      ∀ r, (r < stepAcc x ∨ stepAcc x + stepRows x ≤ r) → tget u.acc r = tget q.acc r))

/-- R177, R356: `tmma` streams its activation rows through the active plane: each of the step's accumulator rows becomes
`stepRow` of the plane, the row's activations and scales, and its old value; every other row stays; an active plane that
is EMPTY, a reserved bit or rows past 512 raise `#PROT`.
The model's own choices or readings behind it: assumption log 34. -/
def Obligations.ArrayStepResult : Prop :=
  ∀ (s : State) (a b : WReg), Memory.wf s.mem = true → UnitFree s s.me true →
    let me := s.me
    let quad := quadOf me.core
    let cl := quad / 2
    let q := s.quad quad
    let c := q.conf.toNat
    let x := (s.getW me.base a).toNat
    let w := (s.getW me.base b).toNat
    let n := (shapeOf c).1 * codeBits (confAel c) / 8
    let sn := (shapeOf c).1 / 32 * scaleBytes (confAsc c)
    let reads := fun (la n : Nat) => s.clusterGeneral cl la n = true ∧ s.clusterWindow cl la n = false ∧
      s.clusterLost cl la n 0 1 = none
    let scale := fun m => if confAsc c = 0 then 0 else s.clusterRd cl (stepScales w + m * sn) sn
    s.holdsArray quad me.key = true → x % 32 = 0 → (confAsc c ≠ 0 → stepScales w % scaleBytes (confAsc c) = 0) →
    (x < 2 ^ 23 → q.active.st = 2 → bits w 19 6 = 0 → stepAcc w + stepRows w ≤ 512 → n ≤ stepStride w →
      (∀ m, m < stepRows w → reads (x + m * stepStride w) n ∧ (confAsc c ≠ 0 → reads (stepScales w + m * sn) sn)) →
      ArrayRunsFor s (.tmma a b) (stepRows w * (shapeOf c).2.2 + 300) (.tensorStepComplete quad s.nextId) (fun t =>
        t.pc me.base = s.pc me.base + 8 ∧
        (∀ m, m < stepRows w → tget (t.quad quad).acc (stepAcc w + m) =
          stepRow q.active c (s.clusterRd cl (x + m * stepStride w) n) (scale m) (tget q.acc (stepAcc w + m))) ∧
        (∀ r, (r < stepAcc w ∨ stepAcc w + stepRows w ≤ r) → tget (t.quad quad).acc r = tget q.acc r) ∧
        (t.quad quad).active = q.active ∧ (t.quad quad).shadow = q.shadow ∧ (t.quad quad).scaleQ = q.scaleQ ∧
        ∀ m, (m < me.base + offPc ∨ me.base + offPc + 8 ≤ m) → mget t.mem m = mget s.mem m)) ∧
    (q.active.st = 0 ∨ bits w 19 6 ≠ 0 ∨ 512 < stepAcc w + stepRows w → GrantTraps s (.tmma a b) true { cause := .prot })

/-- R180, R357, R156, R169, R175: `tdrain` writes its converted rows in ascending order and clears them with `.z`; the
flags travel as a deposit, which `DRAIN_FLAG_DEPOSIT` ORs into the issuer's `FPFLAGS`; and a granted entry of the array
ends, with its slot behind the instruction, when its work is due and not before.
The model's own choices or readings behind it: assumption log 34. -/
def Obligations.ArrayDrainResult : Prop :=
  ∀ (s : State), Memory.wf s.mem = true →
    (∀ (ty : Ty) (rm : Rm) (z : Bool) (a b : WReg), UnitFree s s.me true →
      let me := s.me
      let quad := quadOf me.core
      let cl := quad / 2
      let q := s.quad quad
      let x := (s.getW me.base a).toNat
      let w := (s.getW me.base b).toNat
      let n := 128 * tyBytes ty
      let row := fun m => drainRow ty rm (tget q.acc (stepAcc w + m))
      let flags : Nat := ((List.range (stepRows w)).flatMap row).foldl (fun f e => f ||| e.2) 0
      WellFormed (.tdrain ty rm z none a b) = true → me.core < 384 → s.holdsArray quad me.key = true →
      x % 32 = 0 → bits w 19 6 = 0 → stepAcc w + stepRows w ≤ 512 → n ≤ stepStride w →
      x / 0x100000 = (x + stepRows w * stepStride w) / 0x100000 → x + stepRows w * stepStride w < 2 ^ 23 →
      (me.base + 4096 ≤ clusterPa cl x ∨ clusterPa cl x + stepRows w * stepStride w ≤ me.base) →
      (∀ m, m < stepRows w → s.clusterGeneral cl (x + m * stepStride w) n = true ∧
        s.clusterWindow cl (x + m * stepStride w) n = false ∧ s.clusterLost cl (x + m * stepStride w) n 0 1 = none) →
      ArrayRunsFor s (.tdrain ty rm z none a b) (stepRows w) (.drainComplete quad s.nextId) (fun t =>
        t.pc me.base = s.pc me.base + 8 ∧
        (∀ m i, m < stepRows w → i < 128 →
          elem ty.bits (t.rd (clusterPa cl (x + m * stepStride w)) n) i = ((row m).getD i (0, 0)).1 % 2 ^ ty.bits) ∧
        (z = false → (t.quad quad).acc = q.acc) ∧
        (z = true → (t.quad quad).acc = q.acc.filter (fun r => r.1 < stepAcc w || stepAcc w + stepRows w ≤ r.1)) ∧
        t.net.length = s.net.length + (if flags = 0 then 0 else 1) ∧
        ∀ y, (y < clusterPa cl x ∨ clusterPa cl x + stepRows w * stepStride w ≤ y) →
          (y < me.base + offPc ∨ me.base + offPc + 8 ≤ y) → mget t.mem y = mget s.mem y)) ∧
    (∀ (quad : Nat) (g : Granted) (me : Me) (e : Instr), s.meOf g.ctx = some me → me.core < 384 →
      me.base + 4096 ≤ localPa me.core 0x100000 → g.step = none → g.writes = [] → g.flags = 0 → g.amax = none →
      s.waitOf g.ctx = some (.granted quad g.id) → (s.quad quad).granted = [g] → s.delivers g.ctx = true →
      (e = .planeReady quad g.id ∧ (∃ a, g.instr = .tldw a) ∨ e = .tensorStepComplete quad g.id ∧ (∃ a b, g.instr = .tmma a b) ∨
        e = .drainComplete quad g.id ∧ (∃ ty rm z am a b, g.instr = .tdrain ty rm z am a b)) →
      (s.cycle < g.ready → exec e s = .next s) ∧
      (g.ready ≤ s.cycle → ∃ t, exec e s = .next t ∧ (t.quad quad).granted = [] ∧ t.waitOf g.ctx = none ∧
        t.pc me.base = BitVec.ofNat 64 ((s.pc me.base).toNat + g.len) ∧
        ((∃ a, g.instr = .tldw a) → (s.quad quad).shadow.loader = g.id → (s.quad quad).shadow.st = 1 →
          (t.quad quad).shadow.st = 2) ∧
        ∀ m, (m < me.base + offPc ∨ me.base + offPc + 8 ≤ m) → mget t.mem m = mget s.mem m)) ∧
    (∀ (msg key flags src : Nat) (me : Me), s.msg? msg = some (.drainFlags key flags src) → s.meOf key = some me →
      me.core < 384 → me.base + 4096 ≤ localPa me.core 0x100000 → (s.core me.core).log.en = false → s.halted (clusterOf me.core) = false → (s.ctx key).ended = false →
      flags < 16 → (∀ g, s.waitOf key ≠ some (.wfe g)) → ∃ t, exec (.drainFlagDeposit msg) s = .next t ∧
        t.ws me.base offFpflags = s.ws me.base offFpflags ||| flags ∧ t.net = s.net.filter (fun m => m.id ≠ msg) ∧
        ∀ m, (m < me.base + offFpflags ∨ me.base + offFpflags + 8 ≤ m) → mget t.mem m = mget s.mem m)

/-- R182, R183, R359, R360: `rpt` buffers the instructions that follow it, past pad words, and goes on behind them,
where they lie in the block that its slot has fetched and wherever fetch reads them without a wait; what fetch waits for
takes the slot out of the rotation with nothing done, a fault of the fetch comes before `#ILL` of a word, the context's
own sequence is waited for, and another context's buffer too, or `#BLOCK` in a codelet. R182, R183, R360: the sequencer
places the next step with every `w` and `v` field raised by repetition times stride, and otherwise nothing; `rptw` waits
while the sequence runs, passes when there is none, and raises the fault of one that has ended with it.
The model's own choices or readings behind it: assumption log 36, 37. -/
def Obligations.SequenceResults : Prop :=
  ∀ (s : State) (len : Fin 16) (reps : BitVec 12) (stride : Fin 8), Memory.wf s.mem = true →
    let me := s.me
    let rpt := Instr.rpt len reps stride
    let pc := (s.pc me.base).toNat
    let fetched := rptFetch me [] padFuel ((pc + 8) % 2 ^ 64) (len.val + 1) [] s
    let started := fun (u : State) (is : List Instr) (next : Nat) (t : State) => t.pc me.base = BitVec.ofNat 64 next ∧
      (t.core me.core).seq = { ctx := some me.key, instrs := is, reps := reps.toNat + 1, stride := stride.val } ∧
      t.waitOf me.key = none ∧ ∀ x, (x < me.base + offPc ∨ me.base + offPc + 8 ≤ x) → mget t.mem x = mget u.mem x
    (∀ (b : BitVec 256) (is : List Instr) (rest : List Byte),
      s.seqCore me.key = none → (s.core me.core).seq.ctx = none → pc < 2 ^ 56 → is.length = len.val + 1 →
      (s.slot me.slot).block = some (pc / 32 * 32, b) →
      (∀ i ∈ is, WellFormed i = true ∧ (isVectorOp i || isTensorOp i) = true) →
      (natBytes 32 b.toNat).drop (pc % 32 + 8) = (is.map (fun i => (encode i).getD [])).flatten ++ rest →
      ∃ t, exec rpt s = .next t ∧ started s is (pc + 8 + (is.map Instr.length).sum) t ∧ t.slots = s.slots) ∧
    (∀ ws next u is, fetched = (.ok ws next, u) → rptDecode ws = .ok is → Memory.wf u.mem = true →
      (u.seqCore me.key = none → (u.core me.core).seq.ctx = none → ∃ t, exec rpt s = .next t ∧ started u is next t) ∧
      (∀ other, u.seqCore me.key = none → (u.core me.core).seq.ctx = some other → ∃ t, exec rpt s = .next t ∧
        (u.kindOf me.base ≠ 1 → t.waitOf me.key = some .buffer ∧ t.mem = u.mem) ∧
        (u.kindOf me.base = 1 → TrapOr u t me { cause := .block })) ∧
      (∀ core, u.seqCore me.key = some core → (u.core core).seq.over = false → ∃ t, exec rpt s = .next t ∧
        t.waitOf me.key = some (.sequence true) ∧ t.mem = u.mem)) ∧
    (∀ ws next u bs, fetched = (.ok ws next, u) → rptDecode ws = .error bs → Memory.wf u.mem = true →
      ∃ t, exec rpt s = .next t ∧ TrapOr u t me { cause := .ill, info0 := (first64 bs).toNat }) ∧
    (∀ c u, fetched = (.trap c, u) → Memory.wf u.mem = true → ∃ t, exec rpt s = .next t ∧ TrapOr u t me c) ∧
    (∀ b u, fetched = (.wait b, u) → ∃ t, exec rpt s = .next t ∧ t.waitOf me.key = some b ∧ t.mem = u.mem ∧
      t.pc me.base = u.pc me.base) ∧
    (s.seqCore me.key = none → exec .rptw s = .next (s.advPc me.base 8)) ∧
    (∀ core, s.seqCore me.key = some core →
      ((s.core core).seq.over = false → ∃ t, exec .rptw s = .next t ∧ t.waitOf me.key = some (.sequence false) ∧ t.mem = s.mem) ∧
      ((s.core core).seq.over = true → (s.core core).seq.fault = none → exec .rptw s = .next (s.advPc me.base 8)) ∧
      (∀ c, (s.core core).seq.over = true → (s.core core).seq.fault = some c →
        ∃ t, exec .rptw s = .next t ∧ TrapOr s t me c ∧ (t.core core).seq = {})) ∧
    (∀ core,
      let q := (s.core core).seq
      (∀ key i, q.ctx = some key → q.instrs[q.idx]? = some i → q.placed = false → q.waitStep = false →
        q.claim = false → q.fault = none → q.rep < q.reps →
        let e : ElandEntry := { ctx := key, step := some (q.rep, q.idx), instr := stagger (q.rep * q.stride) i }
        ∃ t, exec (.sequencerPlace core) s = .next t ∧ t.mem = s.mem ∧
          (t.core core).tlist = (s.core core).tlist ++ (if isTensorOp e.instr then [e] else []) ∧
          (t.core core).vlist = (s.core core).vlist ++ (if isTensorOp e.instr then [] else [e]) ∧
          (t.core core).seq = { q with placed := true }) ∧
      (q.placed = true ∨ q.waitStep = true ∨ q.claim = true ∨ q.fault ≠ none ∨ q.reps ≤ q.rep ∨ q.ctx = none →
        exec (.sequencerPlace core) s = .next s)) ∧
    (∀ (n : Nat) (ty : Ty) (rm : Rm) (d a b : VReg) (x y : WReg) (p : Option PReg),
      let v := fun (r : VReg) => (⟨(r.val + n) % 32, Nat.mod_lt _ (by decide)⟩ : VReg)
      let w := fun (r : WReg) => (⟨(r.val + n) % 16, Nat.mod_lt _ (by decide)⟩ : WReg)
      stagger n (.vxor ty d a b p) = .vxor ty (v d) (v a) (v b) p ∧ stagger n (.vbc ty d x p) = .vbc ty (v d) (w x) p ∧
      stagger n (.vfma ty rm d a b d p) = .vfma ty rm (v d) (v a) (v b) (v d) p ∧
      stagger n (.tmma x y) = .tmma (w x) (w y) ∧ stagger n (.tcfg x y) = .tcfg (w x) (w y) ∧ stagger n .tswap = .tswap)

/-! ### The copy engine, the streamers and the timelines (R115 to R131, R361 to R365) -/

/-- R116, R119, R122, R361, R362: an operation that passes every check is accepted at the end of its channel, its pointer
range beginning where the channel's last range ends, takes the next number of its timeline, and the slot goes on; a full
channel takes the slot out of the rotation, or raises `#BLOCK` in a codelet; a misaligned record raises `#ALIGN`.
R126, R127, R363: `cpycan` of an idle channel passes; otherwise it waits, and in the copy engine's place of the cycle the
fault of a channel with no operation ends with the pointer behind the faulted range, a copy that has not completed ends
with cause 4 once GT has reached its writes, and the slot goes on; `wptr` reads the pointer and acquires its last advance,
or raises a faulted channel's cause with ENG.
R116, R117: the acceptance takes the waiting slot of a channel with room, and reads its copy's descriptor and shape then.
The model's own choices or readings behind it: assumption log 32, 33. -/
def Obligations.EngineIssueAndChannels : Prop :=
  (∀ (s : State) (a : WReg) (ch0 : Fin 32), Memory.wf s.mem = true →
    let me := s.me
    let cl := clusterOf me.core
    let x := (s.getW me.base a).toNat
    let iss := issuerOf me [] s
    let reads := fun (la n : Nat) => la < 2 ^ 23 ∧ s.clusterGeneral cl la n = true ∧ s.clusterWindow cl la n = false ∧
      s.clusterLost cl la n 0 1 = none
    let d := s.clusterRd cl x 64
    let sh := fld d 16 4
    let r := s.clusterRd cl sh (32 + 32 * (s.clusterRd cl sh 1 % 16))
    let got : Local Unit := .got ()
    let op : ChanOp := { kind := .binr 0, ctx := me.key, ptroot := iss.pt, priv := iss.priv }
    let goes := fun (i : Instr) (ch tl : Nat) (o : ChanOp) =>
      ((s.chan cl ch).ops.length < 16 → ∃ t, exec i s = .next t ∧ t.pc me.base = s.pc me.base + 8 ∧
        (t.chan cl ch).ops = (s.chan cl ch).ops ++ [{ o with
          tl := if tl = 255 then none else some (tl, (s.tl cl tl).issued + 1), start := (s.chan cl ch).rangeEnd }] ∧
        (tl ≠ 255 → (t.tl cl tl).issued = (s.tl cl tl).issued + 1) ∧
        ∀ m, (m < me.base + offPc ∨ me.base + offPc + 8 ≤ m) → mget t.mem m = mget s.mem m) ∧
      (16 ≤ (s.chan cl ch).ops.length → ∃ t, exec i s = .next t ∧
        (s.kindOf me.base ≠ 1 → t.waitOf me.key = some (.channel cl ch tl o) ∧ t.mem = s.mem) ∧
        (s.kindOf me.base = 1 → TrapOr s t me { cause := .block }))
    (x % 64 = 0 → reads x 64 → sh % 32 = 0 → reads sh (32 + 32 * (s.clusterRd cl sh 1 % 16)) →
      copyFieldsOk d r = true → dstApart (shapeEsize r) (shapeDims r) = true → (s.chan cl (fld d 20 1)).fault = none →
      placesOk iss (fld d 0 8) (fld d 8 8) (fld d 22 1) (shapeDims r) s = (got, s) →
      s.targetsOk cl (fld d 23 1) (fld d 24 8) (fld d 32 8) = true →
      goes (.cpy a) (fld d 20 1) (fld d 21 1) { op with
        kind := .copy (fld d 0 8) (fld d 8 8) (shapeEsize r) (fld d 22 1) (shapeDims r), flags := fld d 23 1
        dect := BitVec.ofNat 64 (fld d 24 8), fet := BitVec.ofNat 64 (fld d 32 8), desc := some x }) ∧
    (x % 64 = 0 → reads x 64 → gbinFieldsOk d = true → (s.chan cl (fld d 29 1)).fault = none → fld d 40 8 % 32 = 0 →
      gbinPlaces iss d s = (got, s) → s.targetsOk cl (fld d 31 1) (fld d 48 8) (fld d 56 8) = true →
      goes (.gbin a) (fld d 29 1) (fld d 30 1) { op with
        kind := .gbin (fld d 0 8) (toSigned 64 (fld d 8 8)) (fld d 16 8) (fld d 24 4) (fld d 28 1) (fld d 32 4)
          (fld d 36 4) (fld d 40 8)
        flags := fld d 31 1, dect := BitVec.ofNat 64 (fld d 48 8), fet := BitVec.ofNat 64 (fld d 56 8) }) ∧
    (∀ pa, x % 32 = 0 → (s.chan cl ch0.val).fault = none → firstPlace iss x 2 { rd := true, w := true } s = (.got pa, s) →
      goes (.binr a ch0) ch0.val 255 { op with kind := .binr x }) ∧
    (x % 64 ≠ 0 → ∀ i ∈ [Instr.cpy a, .gbin a], ∃ t, exec i s = .next t ∧
      TrapOr s t me { cause := .align, addr := x, info0 := 64, acc := 1 }) ∧
    (x % 32 ≠ 0 → ∃ t, exec (.binr a ch0) s = .next t ∧
      TrapOr s t me { cause := .align, addr := x, info0 := 32, acc := 2 })) ∧
  (∀ (s : State) (d : WReg) (ch : Fin 32), Memory.wf s.mem = true →
    let me := s.me
    let cl := clusterOf me.core
    let c := s.chan cl ch.val
    (c.ops = [] → c.fault = none → exec (.cpycan ch) s = .next (s.advPc me.base 8)) ∧
    (c.ops ≠ [] ∨ c.fault ≠ none → ∃ t, exec (.cpycan ch) s = .next t ∧ t.waitOf me.key = some (.cancel cl ch.val) ∧
      t.mem = s.mem ∧ t.chan cl ch.val = { c with ops := c.ops.map (fun o => { o with cancel := true }), asked := true }) ∧
    (c.fault = none → ∃ t, exec (.wptr d ch) s = .next t ∧ t.getW me.base d = BitVec.ofNat 64 c.ptr ∧
      t.ws me.base offAfr = max (s.ws me.base offAfr) c.ptrGt % 2 ^ 64 ∧ t.pc me.base = s.pc me.base + 8 ∧
      Stores s t [(me.base + 8 * d.val, 8), (me.base + offAfr, 8), (me.base + offPc, 8)]) ∧
    (∀ f, c.fault = some f → ∃ t, exec (.wptr d ch) s = .next t ∧
      TrapOr s t me { f with eng := true }) ∧
    (∀ cluster n key who w, let k := s.chan cluster n
      k.asked = true → s.waiters (fun _ w => w.block = .cancel cluster n) = [key] → s.meOf key = some who →
      (s.ctx key).wait = some w → w.block = .cancel cluster n → w.cont.prog = [.adv 8] → w.cont.reg = none →
      (s.ctx key).migrating = false →
      let ended := fun (t : State) => t.waitOf key = none ∧ t.mem = (s.advPc who.base 8).mem ∧
        (t.chan cluster n).ops = [] ∧ (t.chan cluster n).fault = none ∧ (t.chan cluster n).asked = false
      (∀ f, k.ops = [] → k.fault = some f → k.cancelling = false → ∃ t, exec (.copyComplete cluster n) s = .next t ∧
        ended t ∧ (t.chan cluster n).ptr = k.faultEnd) ∧
      (∀ o src dst es fill ds, k.ops = [o] → k.fault = none → o.cancel = true → o.kind = .copy src dst es fill ds →
        o.kept = none → o.tl = none → o.flags = 0 → o.command = none →
        (o.vt ≤ s.gtOf (cluster * 8) → ∃ t, exec (.copyComplete cluster n) s = .next t ∧ ended t ∧
          (t.chan cluster n).cause = 4 ∧ (t.chan cluster n).bytes = o.bytes % 2 ^ 48 ∧
          (t.chan cluster n).ptr = (o.start + es * dimCount ds) % 2 ^ 64) ∧
        (s.gtOf (cluster * 8) < o.vt → ∃ t, exec (.copyComplete cluster n) s = .next t ∧ t.mem = s.mem ∧
          (t.chan cluster n).ops = [{ o with cause := 4, delivered := true }] ∧ t.waitOf key = s.waitOf key))) ∧
    (∀ cluster n tl o o' u key who w,
      (s.ctxs.filter (fun e => match e.2.wait with
        | some { block := .channel .., .. } => true
        | _ => false)) = [(key, s.ctx key)] → s.meOf key = some who → (s.ctx key).slot = some who.slot →
      (s.ctx key).migrating = false → (s.ctx key).wait = some w → w.block = .channel cluster n tl o →
      w.cont.prog = [.adv 8] → w.cont.reg = none → (s.chan cluster n).ops.length < 16 →
      rereadOp cluster o s = (some o', u) → u.meOf key = some who → u.ctx key = s.ctx key →
      exec (.operationAccept cluster) s = .next (((acceptOp cluster n tl o' u).advPc who.base 8).clearWait key)) ∧
    (∀ cluster o a, let cs := s.clusterRd cluster
      let reads := fun (la n : Nat) => la < 2 ^ 23 ∧ s.clusterGeneral cluster la n = true ∧
        s.clusterWindow cluster la n = false ∧ s.clusterLost cluster la n 0 1 = none
      let dsc := cs a 64
      let sh := fld dsc 16 4
      let r := cs sh (32 + 32 * (cs sh 1 % 16))
      (o.desc = none → rereadOp cluster o s = (some o, s)) ∧
      (o.desc = some a → reads a 64 → sh % 32 = 0 → reads sh (32 + 32 * (cs sh 1 % 16)) → copyFieldsOk dsc r = true →
        dstApart (shapeEsize r) (shapeDims r) = true → s.targetsOk cluster (fld dsc 23 1) (fld dsc 24 8) (fld dsc 32 8) = true →
        rereadOp cluster o s = (some { o with
          kind := .copy (fld dsc 0 8) (fld dsc 8 8) (shapeEsize r) (fld dsc 22 1) (shapeDims r), flags := fld dsc 23 1
          dect := BitVec.ofNat 64 (fld dsc 24 8), fet := BitVec.ofNat 64 (fld dsc 32 8) }, s))) ∧
    (∀ cluster, (∀ e ∈ s.ctxs, ∀ w n tl o, e.2.wait = some w → w.block = .channel cluster n tl o →
        16 ≤ (s.chan cluster n).ops.length) → exec (.operationAccept cluster) s = .next s))

/-- R120, R122, R125: the delivery of an element of the head copy, once its lead engine is chosen (R121): its bytes are
read and written where its addresses lie, in local memory, in a line of HBM, or in a window line that the core holds; the
pointer passes it, and the last element leaves the copy delivered; an out-of-bounds element is filled with the pattern of
its code, or keeps its destination; a part that waits changes nothing of the operation, and a fault of the read or of the
write stops it there. R28, R87: an aligned 32-byte element of a peer window is read and written in two halves.
R129, R130: a `gbin` whose pairs the overflow list cannot hold is decided with cause 5 and writes nothing, and otherwise
reserves them in OVRES; a bin that pairs name gives them slots behind BUMP while it has any; a placed row is copied into
its slot; the reservation ends with the operation delivered; and each step it takes is one step of the machine.
R131: a `binr` waits while OVRES is not zero, and otherwise zeroes OVCOUNT and BUMP and OVF of every bin.
The model's own choices or readings behind it: assumption log 31, 32, 33, 59. -/
def Obligations.EngineTransferResults : Prop :=
  (∀ (s : State) (cl ch : Nat) (o : ChanOp) (e : Nat × Nat) (u : State), s.runningOp cl ch = some o → o.faulted = none →
    o.lead = none → leadOf cl o o.kind.leadVa s = (some e, u) →
    let chosen := fun (i : Instr) => ∃ t, exec i s = .next t ∧ t.mem = u.mem ∧
      (t.chan cl ch).ops = { o with lead := some e } :: (u.chan cl ch).ops.tail
    (∀ src dst es fill ds, o.kind = .copy src dst es fill ds → chosen (.engineElementDeliver cl ch)) ∧
    (∀ src rstr idx rows k rowsz row0 table, o.kind = .gbin src rstr idx rows k rowsz row0 table →
      chosen (.gbinExecute cl ch)) ∧
    (∀ table, o.kind = .binr table → chosen (.binResetExecute cl ch)) ∧
    (∀ va l, o.kind.leadVa = some va → engineXlate cl o.ptroot o.priv va 6 { rd := true } s = (.ok l, s) →
      let pa := l.phys (va % 2 ^ 57)
      (pa < 4 * quarterBytes → e = (s.homeDie pa, 0x1000 + s.bankOf pa)) ∧
      (∀ g, regionOf pa = .local g → e = (dieOf (cl * 8), 0x2000)))) ∧
  (∀ (s : State) (cl ch src dst es fill : Nat) (ds : List Dim) (o : ChanOp) (e : Nat × Nat), Memory.wf s.mem = true →
    s.runningOp cl ch = some o → o.kind = .copy src dst es fill ds → 0 < es → o.faulted = none → o.lead = some e →
    o.half = none → o.kept = none →
    let m := o.mover cl
    let at' := elemAddr src dst ds o.next
    let is := fun (t w : State) (o' : ChanOp) => t.mem = w.mem ∧ (t.chan cl ch).ops = o' :: (w.chan cl ch).ops.tail
    let passed := fun (t w : State) (n : Nat) (x : Moved) =>
      is t w { o with next := o.next + 1, started := true, bytes := o.bytes + n, vt := max o.vt x.vt
                      peers := o.peers ++ x.peers, delivered := decide (o.cause = 4) || decide (dimCount ds ≤ o.next + 1) } ∧
      (t.chan cl ch).ptr = (o.start + (o.next + 1) * es) % 2 ^ 64 ∧ (t.chan cl ch).ptrGt = w.gtOf (cl * 8)
    let goes := fun (P : State → Prop) => ∃ t, exec (.engineElementDeliver cl ch) s = .next t ∧ P t
    let fills := fun (code w v : Nat) => at'.2.2 = false ∧ fill = code ∧ es % w = 0 ∧ v < 2 ^ (8 * w)
    (at'.2.2 = true → peerHalves m at'.1 es 6 false s = false →
      (∀ v u, moveReadVa m at'.1 es s = (.got v, u) → peerHalves m at'.2.1 es 7 true u = false →
        (∀ x w, moveWrite m at'.2.1 es v u = (.got x, w) → goes (fun t => passed t w es x)) ∧
        (∀ c w, moveWrite m at'.2.1 es v u = (.trap c, w) → goes (fun t => is t w { o with started := true, faulted := some c })) ∧
        (∀ b w, moveWrite m at'.2.1 es v u = (.later b, w) → goes (fun t => t = w))) ∧
      (∀ v u x w, moveReadVa m at'.1 es s = (.got v, u) → peerHalves m at'.2.1 es 7 true u = true →
        moveWrite m at'.2.1 16 (v % 2 ^ 128) u = (.got x, w) →
        goes (fun t => is t w { o with started := true, kept := some v, vt := max o.vt x.vt, peers := o.peers ++ x.peers })) ∧
      (∀ c u, moveReadVa m at'.1 es s = (.trap c, u) → goes (fun t => is t u { o with started := true, faulted := some c })) ∧
      (∀ b u, moveReadVa m at'.1 es s = (.later b, u) → goes (fun t => t = u))) ∧
    (∀ v u, at'.2.2 = true → peerHalves m at'.1 es 6 false s = true → moveReadVa m at'.1 16 s = (.got v, u) →
      goes (fun t => is t u { o with started := true, half := some v })) ∧
    (∀ r ∈ [(0, 1, 0), (1, 4, 0x7FC00000), (2, 2, 0x7FC0), (3, 2, 0x7E00), (4, 1, 0x7F), (5, 1, 0x7E)],
      fills r.1 r.2.1 r.2.2 → peerHalves m at'.2.1 es 7 true s = false →
      ∃ v, (∀ i, i < es / r.2.1 → bits v (8 * r.2.1 * i) (8 * r.2.1) = r.2.2) ∧ v < 2 ^ (8 * es) ∧
        ∀ x w, moveWrite m at'.2.1 es v s = (.got x, w) → goes (fun t => passed t w 0 x)) ∧
    (at'.2.2 = false → fill = 6 → goes (fun t => passed t s 0 {}))) ∧
  (∀ (s : State) (m : Mover) (va n v : Nat) (t : Target), Memory.wf s.mem = true → 0 < n → va % 128 + n ≤ 128 → t.pa % 128 + n ≤ 128 →
    let l := t.pa / 128
    let c := s.copy t.holder l
    let reads := fun (x : Nat) => ∃ u, moveReadVa m va n s = (.got x, u) ∧ u.mem = s.mem ∧ u.copies = s.copies
    let resting := t.pa < 4 * quarterBytes ∧ (s.line l).owner = true ∧ (s.line l).lost = false ∧ (s.line l).active = none
    (movePlace m va n 6 false s = (.got t, s) →
      (∀ g, t.kind = .plain → regionOf t.pa = .local g → s.lostIn t.pa n = none → reads (s.rd t.pa n)) ∧
      (t.kind = .home → resting → s.snoopHalf t.pa n false = none → (s.homeDie t.pa = m.die ∨ s.isHeld l = false) →
        reads (s.rd t.pa n)) ∧
      (t.kind = .token → t.pa < 4 * quarterBytes → (s.line l).lost = false → reads (copyBytes c t.pa n))) ∧
    (movePlace m va n 7 true s = (.got t, s) → v < 2 ^ (8 * n) →
      (∀ g, t.kind = .plain → regionOf t.pa = .local g → s.lostIn t.pa n = none → (s.core g).log.en = false →
        ∃ x u, moveWrite m va n v s = (.got x, u) ∧ u.rd t.pa n = v ∧ x.vt = 0 ∧ x.peers = [] ∧ Keeps s u [(t.pa, n)]) ∧
      (t.kind = .home → resting → (s.line l).tokens = 512 → s.holders l = [] → s.snoopHalf t.pa n true = none →
        (∀ k ∈ s.net, ∀ h st le d, k.body ≠ .leaseReply h l d st le) →
        ∃ x u, moveWrite m va n v s = (.got x, u) ∧ u.rd t.pa n = v ∧ x.vt = s.writeVt l ∧ x.peers = [] ∧
          (u.line l).stamp = { vt := s.writeVt l, ctx := 0, region := 0 } ∧ Keeps s u [(t.pa, n)]) ∧
      (t.kind = .token → t.pa < 4 * quarterBytes → (s.line l).lost = false → s.lineDie l = s.homeDie t.pa →
        ∃ x u, moveWrite m va n v s = (.got x, u) ∧ u.mem = s.mem ∧ x.peers = [] ∧
          (u.copy t.holder l).data = some (BitVec.ofNat 1024 (spliceBytes ((c.data.getD 0).toNat) (t.pa % 128) n v)) ∧
          (u.copy t.holder l).dirty = true))) ∧
  (∀ (s : State) (cl ch : Nat) (o : ChanOp) (e : Nat × Nat), Memory.wf s.mem = true →
    s.runningOp cl ch = some o → o.faulted = none → o.lead = some e →
    let m := o.mover cl
    let b := o.bin
    let reads := fun (a n v : Nat) => moveReadVa m (a % 2 ^ 64) n s = (.got v, s)
    let writes := fun (a n v vt : Nat) (u : State) => moveWrite m (a % 2 ^ 64) n (v % 2 ^ (8 * n)) s = (.got { vt := vt }, u)
    (∀ src rstr idx rows k rowsz row0 table, o.kind = .gbin src rstr idx rows k rowsz row0 table →
      let goes := fun (u : State) (o' : ChanOp) => ∃ t, exec (.gbinExecute cl ch) s = .next t ∧ t.mem = u.mem ∧
        (t.chan cl ch).ops = { o' with started := true } :: (u.chan cl ch).ops.tail
      let one := gbinStep m o src rstr idx rows k rowsz row0 table s
      (∀ o' u, one = (.got o', u) → goes u o') ∧ (∀ c u, one = (.trap c, u) → goes u { o with faulted := some c }) ∧
      (∀ hdr, b.at_ = 0 → reads table 32 hdr →
        (fld hdr 16 4 < fld hdr 20 4 + fld hdr 24 4 + rows * k → goes s { o with delivered := true, cause := 5 }) ∧
        (∀ vt u, fld hdr 20 4 + fld hdr 24 4 + rows * k ≤ fld hdr 16 4 →
          writes (table + 24) 4 (fld hdr 24 4 + rows * k) vt u →
          goes u { o with bin := { at_ := 1, nbins := fld hdr 0 4, ovbase := fld hdr 8 8 }, vt := max o.vt vt })) ∧
      (∀ x vt u, b.at_ = 2 → b.bin < b.nbins → b.bin ∈ b.idxs → reads (table + 32 + 32 * b.bin) 32 x →
        let c := (b.idxs.filter (· = b.bin)).length
        let placed := min c (fld x 8 4 - fld x 12 4)
        writes (table + 32 + 32 * b.bin) 32
          (setBits (setBits x 96 32 (fld x 12 4 + placed)) 128 32 (min (fld x 16 4 + c - placed) 0xFFFFFFFF)) vt u →
        goes u { o with bin := { b with bin := b.bin + 1, taken := b.taken ++ [(b.bin, fld x 0 8, fld x 12 4, placed)] }
                        vt := max o.vt vt }) ∧
      (∀ e base first placed v vt u, b.at_ = 4 → b.idxs[b.pair]? = some e → b.taken = [(e, base, first, placed)] →
        let j := ((b.idxs.take b.pair).filter (· = e)).length
        j < placed → moveReadVa m (wrapInt 64 (src + (b.pair / k : Nat) * rstr)) rowsz s = (.got v, s) →
        writes (base + (first + j) * rowsz) rowsz v vt u →
        goes u { o with bytes := o.bytes + rowsz, bin := { b with pair := b.pair + 1 }, vt := max o.vt vt }) ∧
      (∀ hdr vt u, b.at_ = 5 → reads table 32 hdr → writes (table + 24) 4 (fld hdr 24 4 - rows * k) vt u →
        goes u { o with delivered := true, vt := max o.vt vt })) ∧
    (∀ table hdr, o.kind = .binr table → moveReadVa m table 32 s = (.got hdr, s) →
      (fld hdr 24 4 ≠ 0 → exec (.binResetExecute cl ch) s = .next s) ∧
      (∀ o1 u1 o2 u2 tried, fld hdr 24 4 = 0 → binSet m { o with started := true } (table + 20) 4 0 s = (.got o1, u1) →
        resetBins m table (fld hdr 0 4) 0 o1 u1 = (some (o2, u2), tried) →
        ∃ t, exec (.binResetExecute cl ch) s = .next t ∧ t.mem = u2.mem ∧
          (t.chan cl ch).ops = o2 :: (u2.chan cl ch).ops.tail)))

/-- R364, R365: `tladv` takes the next number of its timeline and does not wait; the operation completes when the earlier
pushes are acknowledged and GT has reached the earlier writes; `tlwait` acquires when DONE has reached its number, raises
a fault at or below it, and otherwise waits, or raises `#BLOCK` in a codelet.
R84, R123, R125: a delivered operation completes once GT has reached the `vt` of its writes, not before: it leaves its
channel with cause and bytes, a copy leaves the pointer behind its range, its timeline's DONE reaches its number, its fill
stores cause and bytes in a word that is then full, and its decrement takes one from the counter, unless it was cancelled
or has faulted; an engine's fault puts the channel into FAULT with cause and address and completes the copy with that
cause, FAULTOP and the latch of its timeline with it.
The model's own choices or readings behind it: assumption log 32. -/
def Obligations.TimelineAndCompletionResults : Prop :=
  (∀ (s : State) (d a : WReg) (tl : Fin 64), Memory.wf s.mem = true →
    let me := s.me
    let cl := clusterOf me.core
    let t0 := s.tl cl tl.val
    let x := s.ctx me.key
    let n := (s.getW me.base a).toNat
    (∃ t, exec (.tladv d tl) s = .next t ∧ t.getW me.base d = BitVec.ofNat 64 (t0.issued + 1) ∧
      t.pc me.base = s.pc me.base + 8 ∧
      t.tl cl tl.val = { t0 with
        issued := t0.issued + 1
        soft := t0.soft ++ [(t0.issued + 1, me.key, max x.vtDie0 (max x.vtDie1 x.performed), x.pushes.map (·.id))] } ∧
      ∀ m, (m < me.base + 8 * d.val ∨ me.base + 8 * d.val + 8 ≤ m) → (m < me.base + offPc ∨ me.base + offPc + 8 ≤ m) →
        mget t.mem m = mget s.mem m) ∧
    (∀ c k key vt, (s.tl c k).soft = [((s.tl c k).done + 1, key, vt, [])] → (s.tl c k).finished = [] →
      (s.gtOf (c * 8) < vt → exec (.softwareOperationComplete c k ((s.tl c k).done + 1)) s = .next s) ∧
      (vt ≤ s.gtOf (c * 8) →
        ∃ t, exec (.softwareOperationComplete c k ((s.tl c k).done + 1)) s = .next t ∧
        t.mem = s.mem ∧ (t.tl c k).done = (s.tl c k).done + 1 ∧ (t.tl c k).soft = [] ∧
        ∀ q, s.waitOf q = some (.timeline c k) → t.waitOf q = none)) ∧
    (t0.faultop = 0 ∨ n < t0.faultop → n ≤ t0.done →
      exec (.tlwait tl a) s = .next ((acquireAt me.base t0.doneGt s).advPc me.base 8)) ∧
    (t0.faultop ≠ 0 → t0.faultop ≤ n → ∃ t, exec (.tlwait tl a) s = .next t ∧
      TrapOr s t me { t0.latch with eng := true } ∧ (t.tl cl tl.val).faultop = 0) ∧
    (t0.faultop = 0 ∨ n < t0.faultop → t0.done < n → ∃ t, exec (.tlwait tl a) s = .next t ∧
      (s.kindOf me.base ≠ 1 → t.waitOf me.key = some (.timeline cl tl.val) ∧ t.mem = s.mem) ∧
      (s.kindOf me.base = 1 → TrapOr s t me { cause := .block }))) ∧
  (∀ (s : State) (cl ch : Nat) (o : ChanOp) (rest : List ChanOp),
    let c := s.chan cl ch
    let now := s.gtOf (cl * 8)
    c.ops = o :: rest → o.command = none → c.asked = false → c.cancelling = false →
    let leaves := fun (t : State) (tl' : Timeline → Timeline) => (t.chan cl ch).ops = rest ∧
      ∀ tl, o.tl = some (tl, (s.tl cl tl).done + 1) → (s.tl cl tl).finished = [] → t.tl cl tl = tl' (s.tl cl tl) ∧
        ∀ k, s.waitOf k = some (.timeline cl tl) → t.waitOf k = none
    let done := fun (t : State) => leaves t (fun x => { x with done := x.done + 1, doneGt := now })
    (o.delivered = false ∨ now < o.vt → exec (.copyComplete cl ch) s = .next s) ∧
    (∀ src dst es fill ds, o.kind = .copy src dst es fill ds → o.delivered = true → o.vt ≤ now →
      (o.flags = 0 ∨ (o.flags = 1 ∧ o.cause = 4) → o.cause = 0 ∨ o.cause = 4 → ∃ t, exec (.copyComplete cl ch) s = .next t ∧
        t.mem = s.mem ∧ done t ∧ t.chan cl ch = { c with ops := rest, cause := o.cause, bytes := o.bytes % 2 ^ 48
                                                         ptr := (o.start + es * dimCount ds) % 2 ^ 64, ptrGt := now }) ∧
      (let g := dectCore o.fet.toNat
       let pa := localPa g (dectOff o.fet.toNat)
       o.flags = 2 → o.cause = 0 ∨ o.cause = 4 → Memory.wf s.mem = true → g < 384 → pa % 8 = 0 →
       s.halted (clusterOf g) = false → (s.core g).log.en = false → s.feWaiters pa = [] →
       (∀ k c', s.waitOf k ≠ some (.wfe c')) → ∃ t, exec (.copyComplete cl ch) s = .next t ∧
        done t ∧ t.rd pa 8 = o.cause * 2 ^ 56 + o.bytes % 2 ^ 48 ∧ t.isFull pa = true ∧ Keeps s t [(pa, 8)]) ∧
      (let g := dectCore o.dect.toNat
       let pa := localPa g (dectOff o.dect.toNat)
       o.flags = 1 → o.cause = 0 → Memory.wf s.mem = true → s.halted (clusterOf g) = false → 1 < s.rd pa 8 % 2 ^ 32 →
       ∃ t, exec (.copyComplete cl ch) s = .next t ∧ done t ∧ t.rd pa 8 = s.rd pa 8 - 1 ∧ t.net = s.net ∧
        Keeps s t [(pa, 8)])) ∧
    (∀ f, s.runningOp cl ch = some o → o.faulted = some f → o.flags = 0 ∨ o.flags = 1 →
      (now < o.vt → exec (.engineFault cl ch) s = .next s) ∧
      (o.vt ≤ now → ∃ t, exec (.engineFault cl ch) s = .next t ∧ t.mem = s.mem ∧
        leaves t (fun x => { x with
          done := x.done + 1, doneGt := now
          faultop := if x.faultop = 0 ∨ x.done + 1 < x.faultop then x.done + 1 else x.faultop
          latch := if x.faultop = 0 ∨ x.done + 1 < x.faultop then f else x.latch }) ∧
        (t.chan cl ch).fault = some f ∧ (t.chan cl ch).bytes = o.bytes % 2 ^ 48 ∧
        (t.chan cl ch).cause = (match f.cause with | .page => 1 | .mchk => 3 | _ => 2) ∧
        (t.chan cl ch).faultEnd = (o.start + opRange o.kind) % 2 ^ 64)) ∧
    (s.runningOp cl ch = some o → o.faulted = none → exec (.engineFault cl ch) s = .next s))

/-! ### Herds (R204 to R216, R366 to R378) -/

/-- R210, R371, R372, R213, R215: what the herd instructions on registers leave, with the issuing context's rendezvous
entry sealed first; `hinit`, and a write of `hm` that reads no `hm`, raise `#PROT` while the entry is unsealed.
R206 to R209, R373, R374: `hcmp` divides the members of `hm` among the three registers by comparing each member's
key with the node's; `hfound` and `hside` write the records of the members, and nothing else. Members above QLAST and
an invalid slab raise `#PROT`, an invalid SLOT `#ILL`.
The model's own choices or readings behind it: assumption log 61. -/
def Obligations.HerdInstructionResults : Prop :=
  (∀ (s : State) (d a b : WReg) (hd ha hb : HReg) (op : HmovOp), Memory.wf s.mem = true →
    let me := s.me
    let v := (s.getW me.base a).toNat
    let x := s.getH me.base ha
    let y := s.getH me.base hb
    let unsealed := ∃ k e, s.ownRdv me = some (k, e) ∧ e.sealed = false
    let fits := v % 256 = 0 ∧ v < 2 ^ 16 ∧ v ≤ slabQlast (s.hslab me.base)
    let blind := hd = .hm ∧ ha ≠ .hm ∧ (op = .mov ∨ hb ≠ .hm)
    let goes := fun (i : Instr) (rs : List (Nat × Nat)) (P : State → Prop) =>
      ∃ t, exec i s = .next t ∧ P t ∧ t.pc me.base = s.pc me.base + 8 ∧
        (∀ k e, s.ownRdv me = some (k, e) → tget (t.cluster (clusterOf me.core)).rdv k = { e with sealed := true }) ∧
        (s.ownRdv me = none → t.clusters = s.clusters) ∧ Keeps s t ((me.base + offPc, 8) :: rs)
    (unsealed ∨ ¬ fits → ∃ t, exec (.hinit a) s = .next t ∧ TrapOr s t me prot) ∧
    (unsealed → blind → ∃ t, exec (.hmov op hd ha hb) s = .next t ∧ TrapOr s t me prot) ∧
    ((s.ctx me.key).deposits = 0 →
      (¬ unsealed → fits → goes (.hinit a) [(me.base + 128, 96), (me.base + offHbase, 8)] (fun t =>
        t.hbase me.base = v ∧ t.getH me.base .hm = 0 ∧ t.getH me.base .hx = 0 ∧ t.getH me.base .hf = 0)) ∧
      (¬ (unsealed ∧ blind) → goes (.hmov op hd ha hb) [(me.base + offH hd, 32)] (fun t =>
        t.getH me.base hd =
          match op with | .mov => x | .or => x ||| y | .and => x &&& y | .andn => x &&& (2 ^ 256 - 1 - y))) ∧
      goes (.hpop d ha) [(me.base + 8 * d.val, 8)] (fun t =>
        (t.getW me.base d).toNat = ((List.range 256).filter (bit x)).length) ∧
      goes (.hnext d ha b) [(me.base + 8 * d.val, 8)] (fun t => (t.getW me.base d).toNat =
        match (List.range 256).find? (fun i => bit x i && decide ((s.getW me.base b).toNat ≤ s.hbase me.base + i)) with
        | some i => s.hbase me.base + i
        | none => 2 ^ 64 - 1))) ∧
  (∀ (s : State) (ty : Ty) (ge set : Bool) (a b : WReg) (off : BitVec 6), Memory.wf s.mem = true →
    let me := s.me
    let h := s.hslab me.base
    let q := s.hbase me.base
    let rec' := fun i => slabRec (clusterOf me.core) h (q + i)
    let va := s.getW me.base a
    let ctl := (s.getW me.base b).toNat
    let hm := s.getH me.base .hm
    let hf := s.getH me.base .hf
    let usable := fun (reg : Nat) => ∀ i, i < 256 → bit reg i = true → q + i ≤ slabQlast h ∧
      s.lostIn (rec' i) 64 = none ∧ (rec' i + 64 ≤ me.base ∨ me.base + 4096 ≤ rec' i)
    let exceeds := fun (reg : Nat) => ∃ i, i < 256 ∧ bit reg i = true ∧ slabQlast h < q + i
    let far := fun (reg : Nat) => ∃ i, i < 256 ∧ bit reg i = true ∧ regionOf (rec' i) ≠ .local me.core
    let traps := fun (i : Instr) (c : TrapInfo) => ∃ t, exec i s = .next t ∧ TrapOr s t me c
    (keySlot ty (bits ctl 2 4) = none → traps (.hcmp ty ge a b)
      { cause := .ill, info0 := (Instr.first64 (.hcmp ty ge a b)).toNat }) ∧
    (keySlot ty (bits ctl 2 4) ≠ none → 64 ≤ ctl → traps (.hcmp ty ge a b) prot) ∧
    (s.slabOk (clusterOf me.core) h = false →
      (keySlot ty (bits ctl 2 4) ≠ none → traps (.hcmp ty ge a b) prot) ∧ traps (.hfound a) prot ∧
      traps (.hside set a off) prot) ∧
    (s.slabOk (clusterOf me.core) h = true → (s.ctx me.key).deposits = 0 →
      (exceeds hf → traps (.hfound a) prot) ∧
      (exceeds hm → traps (.hside set a off) prot ∧
        (keySlot ty (bits ctl 2 4) ≠ none → ctl < 64 → traps (.hcmp ty ge a b) prot)) ∧
      (∀ o, keySlot ty (bits ctl 2 4) = some o → ctl < 64 → usable hm →
        let x := fun i => valueOf ty (s.rd (rec' i + o) (tyBytes ty))
        let k := valueOf ty (va.toNat % 2 ^ ty.bits)
        let lacks := fun i => (decide (o = 0) && bit (s.rd (rec' i + 10) 2) 0) || (x i).isNan || k.isNan
        let found := fun i => !lacks i && (x i).cmp k = some .eq && !ge
        let left := fun i => if lacks i then !bit ctl 1 else (x i).cmp k = some .lt
        Runs s (.hcmp ty ge a b) (far hm) (fun t =>
          (∀ i, i < 256 → bit (t.getH me.base .hf) i = (bit hm i && found i) ∧
            bit (t.getH me.base .hm) i = (bit hm i && !found i && (left i != bit ctl 0)) ∧
            bit (t.getH me.base .hx) i = (bit hm i && !found i && (left i == bit ctl 0))) ∧
          t.ws me.base offFpflags = s.ws me.base offFpflags |||
            flagsInvalid (k.isSnan || ((List.range 256).filter (bit hm)).any (fun i => (x i).isSnan)) ∧
          (hm ≠ 0 → t.ws me.base offLrs = max (s.ws me.base offLrs) (s.gtOf me.core) % 2 ^ 64) ∧
          t.pc me.base = s.pc me.base + 8 ∧
          Keeps s t [(me.base + 128, 96), (me.base + offFpflags, 8), (me.base + offLrs, 8), (me.base + offPc, 8)])) ∧
      (usable hf → Runs s (.hfound a) (far hf) (fun t => t.pc me.base = s.pc me.base + 8 ∧
        (∀ i, i < 256 → bit hf i = true → t.rd (rec' i + 16) 8 = va.toNat ∧
          t.rd (rec' i + 10) 2 = setBits (s.rd (rec' i + 10) 2) 1 1 1) ∧
        Keeps s t ((me.base + offPc, 8) :: ((List.range 256).filter (bit hf)).flatMap
          (fun i => [(rec' i + 10, 2), (rec' i + 16, 8)])))) ∧
      (usable hm → WellFormed (.hside set a off) = true → Runs s (.hside set a off) (far hm) (fun t =>
        t.pc me.base = s.pc me.base + 8 ∧
        (∀ i, i < 256 → bit hm i = true → t.rd (rec' i + off.toNat) 2 =
          if set then va.toNat % 2 ^ 16 else min (s.rd (rec' i + off.toNat) 2 + va.toNat % 2 ^ 16) 65535) ∧
        Keeps s t ((me.base + offPc, 8) :: ((List.range 256).filter (bit hm)).map (fun i => (rec' i + off.toNat, 2)))))))

/-- R370, R211 to R214, R375 to R377, R143: `hld` and `hst` of the issuing core's own local memory; the three ends of
`hmeet`; `hsplit` with nothing to hand over, with no place for a thread, and with a place, where the new thread starts
at the target with `hm` the old `hx`; and the delivery of a deposit.
The model's own choices or readings behind it: assumption log 39. -/
def Obligations.HerdFlow : Prop :=
  ∀ (s : State) (d a : WReg) (hd : HReg) (imm : Imm) (target : BitVec 24) (l : Leaf), Memory.wf s.mem = true →
    let me := s.me
    let cl := clusterOf me.core
    let ea := (s.ea me.base a imm).toNat
    let pa := l.phys (ea % 2 ^ 57)
    let unsealed := ∃ k e, s.ownRdv me = some (k, e) ∧ e.sealed = false
    let v := (s.getW me.base a).toNat
    let addr := bits v 3 54
    let dom := (s.teamOf me.key).domid
    let hb := s.hbaseQb me.base
    let set := rdvSet v dom hb
    let rdv := match s.ownRdv me with | some (k, _) => tdel (s.cluster cl).rdv k | none => (s.cluster cl).rdv
    let same := fun k => thas rdv k = true ∧ (tget rdv k).addr = addr ∧ (tget rdv k).dom = dom ∧ (tget rdv k).hb = hb
    let entry : Rdv := { sealed := false, ctx := me.key, hb := hb, dom := dom, addr := addr, installed := s.nextId }
    (ea % 32 ≠ 0 → ∃ t, exec (.hst a imm hd) s = .next t ∧ TrapOr s t me { cause := .align, addr := ea, info0 := 32, acc := 2 }) ∧
    (hd = .hm → unsealed → ∃ t, exec (.hld hd a imm) s = .next t ∧ TrapOr s t me prot) ∧
    (v % 8 ≠ 0 → ∃ t, exec (.hmeet d a) s = .next t ∧ TrapOr s t me { cause := .align, addr := v, info0 := 8 }) ∧
    ((s.ctx me.key).deposits = 0 →
      (¬ (hd = .hm ∧ unsealed) → ea % 32 = 0 → LocalAt s me .read ea 32 l → ∃ t, exec (.hld hd a imm) s = .next t ∧
        t.getH me.base hd = s.rd pa 32 ∧ t.pc me.base = s.pc me.base + BitVec.ofNat 64 (Imm.len imm) ∧
        t.ws me.base offLrs = max (s.ws me.base offLrs) (s.gtOf me.core) % 2 ^ 64 ∧
        Keeps s t [(me.base + offH hd, 32), (me.base + offLrs, 8), (me.base + offPc, 8)]) ∧
      (ea % 32 = 0 → LocalAt s me .write ea 32 l → (pa + 32 ≤ me.base ∨ me.base + 4096 ≤ pa) →
        ∃ t, exec (.hst a imm hd) s = .next t ∧ t.rd pa 32 = s.getH me.base hd ∧
        t.pc me.base = s.pc me.base + BitVec.ofNat 64 (Imm.len imm) ∧ Keeps s t [(pa, 32), (me.base + offPc, 8)]) ∧
      (v % 8 = 0 → ∃ t, exec (.hmeet d a) s = .next t ∧ t.pc me.base = s.pc me.base + 8 ∧
        t.getW me.base d = t.getP me.base 0 ∧
        Keeps s t [(me.base + 8 * d.val, 8), (me.base + 128, 32), (me.base + offP, 8), (me.base + offPc, 8)] ∧
        ((∀ w, w < 8 → ¬ same (set * 8 + w)) → t.getP me.base 0 = 0 ∧ t.getH me.base .hm = s.getH me.base .hm ∧
          t.net = s.net ∧ tget (t.cluster cl).rdv (rdvWay rdv set) = entry) ∧
        ∀ w, w < 8 → same (set * 8 + w) → (∀ u, u < w → ¬ same (set * 8 + u)) →
          let e := tget rdv (set * 8 + w)
          (e.sealed = true → t.getP me.base 0 = 0 ∧ t.getH me.base .hm = s.getH me.base .hm ∧ t.net = s.net ∧
            let left := tdel rdv (set * 8 + w)
            tget (t.cluster cl).rdv (rdvWay left set) = entry) ∧
          (e.sealed = false → t.getP me.base 0 = 1 ∧ t.getH me.base .hm = 0 ∧
            t.net = s.net ++ [{ id := s.nextId, body := .deposit e.ctx 128 32 (s.getH me.base .hm) true me.core }] ∧
            (t.ctx e.ctx).deposits = (s.ctx e.ctx).deposits + 1)) ∧
      (s.getH me.base .hx = 0 → ∃ t, exec (.hsplit d target) s = .next t ∧ t.getW me.base d = 0 ∧
        t.pc me.base = s.pc me.base + 8 ∧ t.ctx me.key = { s.ctx me.key with wait := none } ∧
        Keeps s t [(me.base + 8 * d.val, 8), (me.base + offPc, 8)]) ∧
      (s.getH me.base .hx ≠ 0 → ReleasesNow s me .clu →
        (s.splitChoice me.core = none → ∃ t, exec (.hsplit d target) s = .next t ∧ t.getW me.base d = 0 ∧
          t.pc me.base = s.pc me.base + 8 ∧ t.getH me.base .hx = s.getH me.base .hx) ∧
        (∀ g k f, s.splitChoice me.core = some (g, some k, f) → wsBase g f ≠ me.base → k < 16 → f < 256 → me.core < 384 →
          TableAtHome s (s.partOf g) → s.partOf g = s.partOf me.core → (s.part (s.partOf g)).nextCtx < 2 ^ 24 →
          ∃ t num, exec (.hsplit d target) s = .next t ∧ t.getW me.base d = BitVec.ofNat 64 num ∧
            t.pc me.base = s.pc me.base + 8 ∧ t.getH me.base .hx = 0 ∧
            t.pc (wsBase g f) = branchTarget (s.pc me.base) (target.signExtend 64) ∧
            t.getH (wsBase g f) .hm = s.getH me.base .hx ∧ (∀ r, t.getW (wsBase g f) r = s.getW me.base r) ∧
            t.numOf (wsBase g f) = num ∧ t.kindOf (wsBase g f) = 2 ∧ t.pl (wsBase g f) = false ∧
            (∀ o ∈ [offWid, offHbase, offPtroot, offHslab], t.ws (wsBase g f) o = s.ws me.base o) ∧
            (t.slot (g * 16 + k)).v = true ∧ (t.slot (g * 16 + k)).frame = BitVec.ofNat 8 f))) ∧
    (∀ msg key off n x isOr src b, s.msg? msg = some (.deposit key off n x isOr src) →
      (s.baseOf key = none → exec (.depositDelivery msg) s = .next (s.drop msg)) ∧
      (s.baseOf key = some b → (s.ctx key).ended = false →
        (s.ctxHalted key = false → s.delivers key = false → exec (.depositDelivery msg) s = .next s) ∧
        (∀ g f, (s.ctx key).loc = .frame g f → s.ctxHalted key = false → (s.core g).log.en = false →
          (∃ c, regionOf (b + off) = .local c) → s.waiters (fun k w => k = key && w.block = .deposits) = [] →
          ∃ t, exec (.depositDelivery msg) s = .next t ∧ t.msg? msg = none ∧
            (t.ctx key).deposits = (s.ctx key).deposits - 1 ∧
            t.rd (b + off) n = (if isOr then s.rd (b + off) n ||| x else x) % 2 ^ (8 * n) ∧
            Keeps s t [(b + off, n)])))

/-! ### Affine forms (R188 to R203, R379 to R385) -/

/-- R190 to R203, R379 to R385: each affine instruction checks its forms, ends with the value of its operation on the
team's domain, writes one form and, where the result mints, advances the team's `AFNEXT` and the domain record; its
trap leaves all of it alone. `afrng`, `afld`, `afst`, `afpack` and `afunpk` move forms to and from other registers and
local memory.
The model's own choices or readings behind it: assumption log 17, 18, 19. -/
def Obligations.AffineResults : Prop :=
  ∀ (s : State) (ty : Ty) (d a b : AfReg) (wd wa wb : WReg) (va : VReg) (cap : BitVec 4) (imm : Imm) (l : Leaf),
    Memory.wf s.mem = true →
    let me := s.me
    let cl := (s.ctx me.key).cluster
    let j := (s.ctx me.key).entry
    let tm := s.team cl j
    let dm : Domain := { dom := tm.domid, next := tm.afnext.toNat, lim := tm.aflim.toNat }
    let rp := clusterPa cl (tm.drec + 2)
    let w := fun (r : WReg) => (s.getW me.base r).toNat
    let traps := fun (i : Instr) (c : TrapInfo) => ∃ t, exec i s = .next t ∧ TrapOr s t me c
    let lst := w wb
    let far := lst / 2 ^ 20 % 8 ≠ me.core % 8
    let ends := fun (i : Instr) (far : Prop) (r : AfEnd) =>
      (∀ c, r = .trap c → Runs s i far (fun t => TrapOr s t me c)) ∧
      (∀ v, r = .form v false → Runs s i far (fun t => t.getAf me.base d = v % 2 ^ 512 ∧
        t.pc me.base = s.pc me.base + 8 ∧ Keeps s t [(me.base + offAf + 64 * d.val, 64), (me.base + offPc, 8)] ∧
        (¬ far → Stores s t [(me.base + offAf + 64 * d.val, 64), (me.base + offPc, 8)]))) ∧
      (∀ v, r = .form v true → (rp + 4 ≤ me.base ∨ me.base + 4096 ≤ rp) → Runs s i far (fun t =>
        t.getAf me.base d = v % 2 ^ 512 ∧ t.pc me.base = s.pc me.base + 8 ∧
        t.team cl j = { tm with afnext := tm.afnext + 1 } ∧
        t.rd rp 4 = (tm.afnext + 1).toNat + tm.aflim.toNat * 2 ^ 16 ∧
        Keeps s t [(rp, 4), (me.base + offAf + 64 * d.val, 64), (me.base + offPc, 8)]))
    let good := fun (r : AfReg) (x : Form) => parseForm (s.getAf me.base r) = some x ∧ (x.dom = 0 ∨ x.dom = tm.domid)
    let bad := fun (r : AfReg) => ∀ x, ¬ good r x
    let ls := s.clusterRd (clusterOf me.core) lst 32
    let listed := lst % 32 = 0 ∧ lst < 2 ^ 23 ∧ s.clusterGeneral (clusterOf me.core) lst 32 = true ∧
      s.clusterWindow (clusterOf me.core) lst 32 = false ∧ s.clusterLost (clusterOf me.core) lst 32 0 1 = none
    let ea := (s.ea me.base wa imm).toNat
    let pa := l.phys (ea % 2 ^ 57)
    let pb := l.phys ((ea + 32) % 2 ^ 57)
    let v := s.rd pa 32 + s.rd pb 32 * 2 ^ 256
    let u := noteRead me.base (s.gtOf me.core) s
    ends (.afnew d wa wb) False (valAfnew dm (w wa % 2 ^ 32) (w wb % 2 ^ 32)) ∧
    (bad a → ∀ i ∈ [Instr.afadd d a b, .afsub d a b, .afmul d a b, .afscl d a wb, .afaddc d a wb, .afrelu d a,
      .afcond d a wb cap, .afrng ty wd a, .afpack ty va a wb], traps i prot) ∧
    (bad b → ∀ i ∈ [Instr.afadd d a b, .afsub d a b, .afmul d a b], traps i prot) ∧
    (∀ x, good a x →
      ends (.afscl d a wb) False (valAfscl dm x (w wb % 2 ^ 32)) ∧ ends (.afaddc d a wb) False (valAfaddc dm x (w wb % 2 ^ 32)) ∧
      ends (.afrelu d a) False (valAfrelu dm x) ∧
      ends (.afcond d a wb cap) False (valAfcond dm x (s.getAf me.base a) (w wb % 2 ^ 32) cap.toNat) ∧
      (WellFormed (.afrng ty wd a) = true →
        let r := formRange (fmtOf ty) x
        (ty ≠ .f64 → ∃ t, exec (.afrng ty wd a) s = .next t ∧ WroteW s t wd (BitVec.ofNat 64 (r.1 + r.2 * 2 ^ 32)) 8) ∧
        (ty = .f64 → ∃ t, exec (.afrng ty wd a) s = .next t ∧ t.getW me.base wd = BitVec.ofNat 64 r.1 ∧
          t.getW me.base (wd + 1) = BitVec.ofNat 64 r.2 ∧ t.pc me.base = s.pc me.base + 8 ∧
          Stores s t [(me.base + 8 * wd.val, 16), (me.base + offPc, 8)])) ∧
      (listed → listOk ls = true → Runs s (.afpack ty va a wb) far (fun t =>
        t.getV me.base va = BitVec.ofNat 512 (valAfpack (ty = .bf16) x ls) ∧ t.pc me.base = s.pc me.base + 8 ∧
        Keeps s t [(me.base + offV + 64 * va.val, 64), (me.base + offPc, 8)] ∧
        (¬ far → Stores s t [(me.base + offV + 64 * va.val, 64), (me.base + offPc, 8)]))) ∧
      ∀ y, good b y → ends (.afadd d a b) False (valAfadd false dm x y) ∧ ends (.afsub d a b) False (valAfadd true dm x y) ∧
        ends (.afmul d a b) False (valAfmul dm x y)) ∧
    (listed → listOk ls = true → ends (.afunpk d va wb) far (valAfunpk dm (s.getV me.base va).toNat ls)) ∧
    (listed → listOk ls = false → Runs s (.afunpk d va wb) far (fun t => TrapOr s t me prot)) ∧
    (lst % 32 ≠ 0 → traps (.afunpk d va wb) { cause := .align, addr := lst, info0 := 32, acc := 1 }) ∧
    (ea % 64 ≠ 0 → traps (.afld d wa imm) { cause := .align, addr := ea, info0 := 64, acc := 1 } ∧
      traps (.afst wa imm a) { cause := .align, addr := ea, info0 := 64, acc := 2 }) ∧
    (ea % 64 = 0 → LocalAt s me .read ea 32 l → LocalAt s me .read (ea + 32) 32 l →
      (pb + 32 ≤ me.base ∨ me.base + 4096 ≤ pb) →
      (canonicalForm v = true → ∃ t, exec (.afld d wa imm) s = .next t ∧ t.getAf me.base d = v ∧
        t.pc me.base = s.pc me.base + BitVec.ofNat 64 (Imm.len imm) ∧
        Keeps s t [(me.base + offAf + 64 * d.val, 64), (me.base + offLrs, 8), (me.base + offPc, 8)]) ∧
      (canonicalForm v = false → ∃ t, exec (.afld d wa imm) s = .next t ∧
        TrapOr u t me { cause := .prot, addr := ea, acc := 1 })) ∧
    (ea % 64 = 0 → LocalAt s me .write ea 32 l → LocalAt s me .write (ea + 32) 32 l →
      (canonicalForm (s.getAf me.base a) = false → traps (.afst wa imm a) prot) ∧
      (canonicalForm (s.getAf me.base a) = true → pb = pa + 32 → (pa + 64 ≤ me.base ∨ me.base + 4096 ≤ pa) →
        ∃ t, exec (.afst wa imm a) s = .next t ∧ t.rd pa 64 = s.getAf me.base a ∧
        t.pc me.base = s.pc me.base + BitVec.ofNat 64 (Imm.len imm) ∧ Keeps s t [(pa, 64), (me.base + offPc, 8)]))

/-! ### Tasks (R219 to R231, R388 to R398) -/

/-- R313, R377, R391, R258: `end`, `hdrop` and `cdone` with no member left in `hm` free the slot and take the context
out of its team; with members left, or from a context of the wrong kind, they raise `#PROT`. -/
def Obligations.ContextEnds : Prop :=
  ∀ (s : State) (i : Instr), Memory.wf s.mem = true →
    let me := s.me
    let c := s.ctx me.key
    let traps := ∃ t, exec i s = .next t ∧ TrapOr s t me prot
    (i = .endT → s.kindOf me.base = 1 → traps) ∧ (i = .cdone → s.kindOf me.base ≠ 1 → traps) ∧
    ((i = .endT ∧ s.kindOf me.base ≠ 1) ∨ (i = .cdone ∧ s.kindOf me.base = 1) ∨ i = .hdrop → c.deposits = 0 →
      (s.getH me.base .hm ≠ 0 → traps) ∧
      (s.getH me.base .hm = 0 → s.elandBusy me.key = true →
        ∃ t, exec i s = .next t ∧ t.waitOf me.key = some .ending ∧ t.mem = s.mem) ∧
      (s.getH me.base .hm = 0 → s.elandBusy me.key = false → ReleasesNow s me .dev → c.slot = some me.slot →
        c.borrow = none → c.savedBorrow = none → c.savedBytes = none → ∃ t, exec i s = .next t ∧ (t.slot me.slot).v = false ∧ (t.slot me.slot).block = none ∧
          (t.team c.cluster c.entry).members.contains me.key = false ∧
          ((s.part (me.key / 2 ^ 24)).cltb = 0 → Keeps s t [(me.base + offRgn, 8), (me.base + offHist, 128)])))

/-- R231, R389, R77, R78: `decr` after its release: a counter at zero has only its bit 63 set; one above one is
decremented, the frontier of the block rising to the release; the decrement to zero takes the block's frontier and sends
the block's record to the ready ring of the block's core, and the slot waits until it is in; the record enters the ring,
or is held where the ring has no room for it and its slot still waits. A word that breaks the rules of R123, or a record
that software may not offer, raises `#PROT`. A block in another core takes the slot out of the rotation, and the
decrement is applied at the reply (R96). R219 to R221, R388: `spawn` of a header in the issuing core's own local memory,
after its release at `.dev`: the launch's number plus one when the header is valid and what it needs is free, else zero.
The model's own choices or readings behind it: assumption log 9, 40. -/
def Obligations.DecrementAndSpawnResults : Prop :=
  (∀ (s : State) (sc : Scope) (a : WReg), Memory.wf s.mem = true →
    let me := s.me
    let dt := s.getW me.base a
    let g := dectCore dt.toNat
    let ad := localPa g (dectOff dt.toNat)
    let w := s.rd ad 8
    let ts := if sc = .slot then s.gtOf me.core else s.releaseTs me sc (s.gtOf me.core)
    let fr := max ts (tget s.frontiers ad)
    let goes := fun (P : Nat → State → Prop) =>
      (g = me.core → ∃ t, exec (.decr sc a) s = .next t ∧ P s.nextId t) ∧
      (g ≠ me.core → s.meOf me.key = some me → (s.ctx me.key).migrating = false → (s.core me.core).log.en = false →
        (∀ m ∈ s.net, m.id < s.nextId) → ∃ t, exec (.decr sc a) s = .next t ∧
          t.waitOf me.key = some (.reply s.nextId) ∧ t.rd ad 32 = s.rd ad 32 ∧
          ∃ u, exec (.memoryReply s.nextId) t = .next u ∧ P (s.nextId + 1) u)
    (s.dectOk (s.partOf me.core) dt.toNat = false → ∃ t, exec (.decr sc a) s = .next t ∧ TrapOr s t me prot) ∧
    (s.dectOk (s.partOf me.core) dt.toNat = true → ReleasesNow s me sc → s.lostIn ad 8 = none →
      (ad + 80 ≤ me.base ∨ me.base + 4096 ≤ ad) →
      (s.halted (clusterOf g) = true → goes (fun _ t =>
        t.waitOf me.key = some (.halted (clusterOf g)) ∧ t.rd ad 32 = s.rd ad 32)) ∧
      (s.halted (clusterOf g) = false → w % 2 ^ 32 ≠ 1 → goes (fun _ t =>
        (t.ctx me.key).sign = min ((s.ctx me.key).sign + 1) (2 ^ 64 - 1) ∧ (t.ctx me.key).lastdt = dt ∧
        t.pc me.base = s.pc me.base + 8 ∧
        Keeps s t [(ad, 8), (me.base + offRgn, 8), (me.base + offHist, 128), (me.base + offPc, 8)] ∧
        (w % 2 ^ 32 = 0 → t.rd ad 8 = setBits w 63 1 1 ∧ t.frontiers = s.frontiers) ∧
        (1 < w % 2 ^ 32 → t.rd ad 8 = w - 1 ∧ tget t.frontiers ad = fr))) ∧
      (s.halted (clusterOf g) = false → w % 2 ^ 32 = 1 →
        let h := s.rd (ad + 16) 8
        let n := recLen h
        let c := s.core g
        let size := 4096 * 2 ^ c.rrSize
        let pos := c.rrTail % size
        let pad := if size - pos < n then size - pos else 0
        let base := localPa g (c.rrBase * 4096)
        let fits := c.rrEn = true ∧ (c.rrTail + 2 ^ 32 - c.rrHead) % 2 ^ 32 + pad + n ≤ size
        (recordShape h (s.rd (ad + 24) 8) = false → goes (fun _ t => TrapOr (closeRegion me (s.gtOf me.core) s) t me prot)) ∧
        (recordShape h (s.rd (ad + 24) 8) = true → behindHeld g me.slot s.held = false → c.rrSize < 16 →
          c.rrTail < 2 ^ 32 → c.log.en = false → (base + size ≤ me.base ∨ me.base + 4096 ≤ base) →
          (∀ m ∈ s.net, ∀ t r x st late, m.body ≠ MsgBody.record t r x st me.slot late) → s.meOf me.key = some me →
          (s.ctx me.key).migrating = false → (s.ctx me.key).ended = false → thas s.ctxs me.key = true →
          (∀ m ∈ s.net, m.id < s.nextId) → (∀ k c', s.waitOf k ≠ some (.wfe c')) →
          goes (fun id t => t.rd ad 8 = w - 1 ∧ (t.ctx me.key).lastdt = dt ∧ tget t.frontiers ad = 0 ∧
            (t.ctx me.key).sign = min ((s.ctx me.key).sign + 1) (2 ^ 64 - 1) ∧ t.pc me.base = s.pc me.base ∧
            t.waitOf me.key = some (.ring id) ∧ t.net = s.net ++ [{ id := id, body := .record g (natBytes n (s.rd (ad + 16) n)) (some me.key) { afr := fr } me.slot true }] ∧
            ∃ u, exec (.ringEnqueue id) t = .next u ∧
              (fits → u.pc me.base = s.pc me.base + 8 ∧ u.waitOf me.key = none ∧ u.held = s.held ∧
                (u.core g).rrTail = ((c.rrTail + pad) % 2 ^ 32 + n) % 2 ^ 32 ∧
                u.rd (base + (c.rrTail + pad) % 2 ^ 32 % size) n = s.rd (ad + 16) n ∧
                ((u.core g).stamps.getLast?.map (fun x => x.2.afr)) = some fr) ∧
              (¬ fits → u.pc me.base = s.pc me.base ∧ u.waitOf me.key = some (.ring id) ∧
                (u.core g).rrref = min (c.rrref + 1) 0xFFFFFFFF ∧
                ∃ r, u.held = s.held ++ [r] ∧ r.id = id ∧ r.bytes = natBytes n (s.rd (ad + 16) n) ∧ r.target = g)))))) ∧
  (∀ (s : State) (d a : WReg) (l : Leaf), Memory.wf s.mem = true →
    let me := s.me
    let now := s.gtOf me.core
    let v := (s.getW me.base a).toNat
    let at' := fun i => l.phys ((v + 32 * i) % 2 ^ 57)
    let h := s.rd (at' 0) 32 + s.rd (at' 1) 32 * 2 ^ 256 + s.rd (at' 2) 32 * 2 ^ 512 + s.rd (at' 3) 32 * 2 ^ 768
    let u := noteRead me.base now (closeRegion me now s)
    let r := if u.headerOk (s.partOf me.core) h = true then
        createLaunch (s.partOf me.core) (launchOf h (s.ptroot me.base) true (s.releaseTs me .dev now) none) u
      else none
    (v % 128 ≠ 0 → ∃ t, exec (.spawn d a) s = .next t ∧ TrapOr s t me { cause := .align, addr := v, info0 := 128, acc := 1 }) ∧
    (v % 128 = 0 → ReleasesNow s me .dev →
      (∀ i, i < 4 → LocalAt s me .read (v + 32 * i) 32 l ∧ (at' i + 32 ≤ me.base ∨ me.base + 4096 ≤ at' i)) →
      (s.core me.core).log.en = false →
      (∀ ln t, r = some (ln, t) → exec (.spawn d a) s =
        .next (((t.setW me.base d (BitVec.ofNat 64 (ln + 1))).advPc me.base 8).clearWait me.key)) ∧
      (r = none → exec (.spawn d a) s = .next (((u.setW me.base d 0).advPc me.base 8).clearWait me.key))))

/-- R226, R398, R77: `tbar` raises `#BLOCK` in a codelet and `#PROT` in a split thread, and otherwise waits with the
timestamp of its release; once every live launch and spawned thread of the team has arrived, the barrier opens: each
passes its `tbar` and acquires the latest of the releases.
R145, R146, R396: `borrow` takes a free slot, withheld, and a free frame, zeroed, and answers 1, or answers 0; `xmv`
moves one register either way and raises `#PROT` without a borrowed workspace; `retbr` gives slot and frame back. -/
def Obligations.BarrierAndBorrowResults : Prop :=
  (∀ (s : State), Memory.wf s.mem = true →
    let me := s.me
    (s.kindOf me.base = 1 → ∃ t, exec .tbar s = .next t ∧ TrapOr s t me { cause := .block }) ∧
    (s.kindOf me.base = 2 → ∃ t, exec .tbar s = .next t ∧ TrapOr s t me prot) ∧
    (s.kindOf me.base ≠ 1 → s.kindOf me.base ≠ 2 → ReleasesNow s me .clu → ∃ t, exec .tbar s = .next t ∧
      t.waitOf me.key = some .barrier ∧ (t.ctx me.key).barrierTs = some (s.releaseTs me .clu (s.gtOf me.core)) ∧
      t.pc me.base = s.pc me.base) ∧
    ∀ cl j, let ms := s.barrierMembers (s.team cl j)
      ((ms = [] ∨ ∃ k ∈ ms, (s.ctx k).barrierTs = none) → exec (.barrierOpen cl j) s = .next s) ∧
      (∀ m, ms ≠ [] → ms.Nodup →
        (∀ k ∈ ms, ∃ g f b, (s.ctx k).loc = .frame g f ∧ g < 384 ∧ f < 256 ∧ (s.ctx k).barrierTs = some b ∧ b ≤ m) →
        (∃ k ∈ ms, (s.ctx k).barrierTs = some m) →
        (∀ k ∈ ms, ∀ k' ∈ ms, (s.ctx k).loc = (s.ctx k').loc → k = k') →
        ∃ t, exec (.barrierOpen cl j) s = .next t ∧ ∀ k ∈ ms, ∀ g f, (s.ctx k).loc = .frame g f →
          let b := wsBase g f
          t.waitOf k = none ∧ (t.ctx k).barrierTs = none ∧ t.pc b = s.pc b + 8 ∧
            t.ws b offAfr = max (max (s.ws b offAfr) (s.ws b offLrs)) m % 2 ^ 64)) ∧
  (∀ (s : State) (d a : WReg) (cls : XClass) (n : BitVec 5), Memory.wf s.mem = true →
    let me := s.me
    let c := s.ctx me.key
    let place := fun (base k : Nat) => match cls with
      | .w => base + 8 * k | .p => base + offP + 8 * k | .v => base + offV + 64 * k | .af => base + offAf + 64 * k
    let size := match cls with | .w => 8 | .p => 8 | .v => 64 | .af => 64
    (s.brw me.base = true ∨ s.borrowSlot me.core = none ∨ s.freeFrame me.core = none →
      ∃ t, exec (.borrow d) s = .next t ∧ WroteW s t d 0 8) ∧
    (∀ k f, s.brw me.base = false → s.borrowSlot me.core = some k → s.freeFrame me.core = some f →
      wsBase me.core f ≠ me.base → f < 256 → ∃ t, exec (.borrow d) s = .next t ∧ t.getW me.base d = 1 ∧
        t.pc me.base = s.pc me.base + 8 ∧ t.brw me.base = true ∧ (t.ctx me.key).borrow = some (me.core * 16 + k, f) ∧
        t.slot (me.core * 16 + k) = { s.slot (me.core * 16 + k) with
          frame := BitVec.ofNat 8 f, v := false, withheld := true, block := none } ∧
        t.rd (wsBase me.core f) 3200 = 0 ∧
        Keeps s t [(wsBase me.core f, 4096), (me.base + 8 * d.val, 8), (me.base + offCtxn, 8), (me.base + offPc, 8)]) ∧
    (s.brw me.base = false → exec .retbr s = .next (s.advPc me.base 8)) ∧
    (∀ k f g x, s.brw me.base = true → c.borrow = some (k, f) → c.loc = .frame g x → me.base = wsBase g x →
      wsBase (k / 16) f ≠ me.base → f < 256 → ∃ t, exec .retbr s = .next t ∧ t.brw me.base = false ∧
        t.pc me.base = s.pc me.base + 8 ∧ t.rd (wsBase (k / 16) f) 4096 = 0 ∧ (t.ctx me.key).borrow = none ∧
        (t.slot k).v = false ∧ (t.slot k).withheld = false ∧
        Keeps s t [(wsBase (k / 16) f, 4096), (me.base + offCtxn, 8), (me.base + offPc, 8)]) ∧
    (c.borrow = none → ∃ t, exec (.xmv cls false n a) s = .next t ∧ TrapOr s t me prot) ∧
    (∀ k f from_, c.borrow = some (k, f) → wsBase (k / 16) f ≠ me.base → f < 256 →
      WellFormed (.xmv cls from_ n a) = true →
      let other := place (wsBase (k / 16) f) ((s.getW me.base a).toNat % cls.limit)
      let mine := place me.base n.toNat
      ∃ t, exec (.xmv cls from_ n a) s = .next t ∧ t.pc me.base = s.pc me.base + 8 ∧
        (from_ = true → t.rd mine size = s.rd other size ∧ Stores s t [(mine, size), (me.base + offPc, 8)]) ∧
        (from_ = false → t.rd other size = s.rd mine size ∧ Stores s t [(other, size), (me.base + offPc, 8)])))


/-! ### Records, rings and the balancer (R111 to R114, R232 to R240, R392 to R395) -/

/-- R392 to R395, R234, R240, R96: `renq` and `eos` send their record to its ring and wait for its acceptance; `rdeq`
takes the head record of the issuing core's ring, or answers zero; `steal` moves one record or answers zero, and counts
it, at its arrival behind the slots of the cycle. A `renq` or `rdeq` that reaches another core's local memory acts at
its arrival, and nothing of it before: the record stays in its ring. A misaligned operand raises `#ALIGN`; a record, a
target or a victim that the rules refuse raises `#PROT`.
The model's own choices or readings behind it: assumption log 19, 42. -/
def Obligations.RecordInstructions : Prop :=
  ∀ (s : State) (d a b : WReg) (stage : Fin 4), Memory.wf s.mem = true →
    let me := s.me
    let cl := clusterOf me.core
    let v := (s.getW me.base a).toNat
    let traps := fun (i : Instr) (c : TrapInfo) => ∃ t, exec i s = .next t ∧ TrapOr s t me c
    let n := recLen (s.clusterRd cl v 8)
    let r := s.clusterRd cl v n
    let reads := v % 16 = 0 ∧ v < 2 ^ 23 ∧ s.clusterGeneral cl v 16 = true ∧ s.clusterGeneral cl v n = true ∧
      s.clusterWindow cl v n = false ∧ s.clusterLost cl v n 0 1 = none
    let far := ¬ (v / 0x100000 = me.core % 8 ∧ (v + 63) / 0x100000 = me.core % 8)
    let logged : Prop := s.meOf me.key = some me ∧ (s.ctx me.key).migrating = false ∧ (s.core me.core).log.en = false ∧
      ∀ m ∈ s.net, m.id < s.nextId
    let goes := fun (i : Instr) (P : Nat → State → Prop) => (¬ far → ∃ t, exec i s = .next t ∧ P s.nextId t) ∧
      (far → logged → ∃ t u, exec i s = .next t ∧ t.mem = s.mem ∧ (t.core me.core).rrHead = (s.core me.core).rrHead ∧
        t.waitOf me.key = some (.reply s.nextId) ∧ t.net = s.net ++ [{ id := s.nextId, body := .access me.key }] ∧
        exec (.memoryReply s.nextId) t = .next u ∧ P (s.nextId + 1) u)
    let sent := fun (target : Nat) (rec : List Byte) (id : Nat) (t : State) =>
      t.waitOf me.key = some (.ring id) ∧ t.mem = s.mem ∧
      t.net = s.net ++ [{ id := id, body := .record target rec (some me.key) {} me.slot false }]
    (v % 16 ≠ 0 → traps (.renq a b) { cause := .align, addr := v, info0 := 16, acc := 1 } ∧
      traps (.rdeq d a) { cause := .align, addr := v, info0 := 16, acc := 2 }) ∧
    (reads → s.renqPlace me (r % 2 ^ 64) (r / 2 ^ 64 % 2 ^ 64) (s.getW me.base b) = none →
      goes (.renq a b) (fun _ t => TrapOr s t me prot)) ∧
    (∀ ring, reads → s.renqPlace me (r % 2 ^ 64) (r / 2 ^ 64 % 2 ^ 64) (s.getW me.base b) = some ring →
      goes (.renq a b) (sent ring.target (natBytes n r))) ∧
    (let stands : Prop := s.holdsGov (s.partOf me.core) (s.ctx me.key).ln cl = true ∧ (s.ring (.stage cl stage.val)).isSome = true
     (¬ stands → traps (.eos stage) prot) ∧ (stands → ∃ t, exec (.eos stage) s = .next t ∧
      sent (0x8000 + 4 * cl + stage.val) (natBytes 16 3) s.nextId t)) ∧
    (v % 16 = 0 → v < 2 ^ 23 → s.clusterGeneral cl v 64 = true →
      let none' := fun (_ : Nat) (t : State) => t.getW me.base d = 0 ∧ t.pc me.base = s.pc me.base + 8 ∧
        (t.core me.core).rrHead = (s.core me.core).rrHead ∧ Keeps s t [(me.base + 8 * d.val, 8), (me.base + offPc, 8)]
      (s.peekRing (.ready me.core) = none → goes (.rdeq d a) none') ∧
      (∀ pos rec, s.peekRing (.ready me.core) = some (pos, rec) → recFr (leNat rec) = true → goes (.rdeq d a) none') ∧
      (∀ pos rec, s.peekRing (.ready me.core) = some (pos, rec) → recFr (leNat rec) = false →
        s.clusterWindow cl v rec.length = false → s.clusterLost cl v rec.length 0 1 = none →
        v % 0x100000 + rec.length ≤ 0x100000 →
        (clusterPa cl v + rec.length ≤ me.base ∨ me.base + 4096 ≤ clusterPa cl v) →
        goes (.rdeq d a) (fun _ t => t.getW me.base d = BitVec.ofNat 64 rec.length ∧
          t.pc me.base = s.pc me.base + 8 ∧ t.rd (clusterPa cl v) rec.length = leNat rec % 2 ^ (8 * rec.length) ∧
          (t.core me.core).rrHead = (pos + rec.length) % 2 ^ 32 ∧
          Keeps s t [(clusterPa cl v, rec.length), (me.base + 8 * d.val, 8), (me.base + offPc, 8)]))) ∧
    (let named := v < 384 ∧ dieOf v = dieOf me.core ∧ s.partOf v = s.partOf me.core
     let arrives := fun (P : State → Prop) => logged → s.halted (clusterOf v) = false →
      (∀ k c', s.waitOf k ≠ some (.wfe c')) → ∃ t u, exec (.steal d a) s = .next t ∧ t.mem = s.mem ∧
        t.waitOf me.key = some (.reply s.nextId) ∧ t.net = s.net ++ [{ id := s.nextId, body := .access me.key }] ∧
        exec (.memoryReply s.nextId) t = .next u ∧ u.pc me.base = s.pc me.base + 8 ∧ u.waitOf me.key = none ∧ P u
     (¬ named → traps (.steal d a) prot) ∧
      (named → moveRecord v me.core s = none → arrives (fun t => t.getW me.base d = 0 ∧
        (t.core me.core).stealfail = min ((s.core me.core).stealfail + 1) (2 ^ 64 - 1) ∧
        Keeps s t [(me.base + 8 * d.val, 8), (me.base + offPc, 8)])) ∧
      (∀ u, named → moveRecord v me.core s = some u → arrives (fun t => t.getW me.base d = 1 ∧
        (t.core me.core).stealok = min ((u.core me.core).stealok + 1) (2 ^ 64 - 1) ∧
        (t.core v).rrHead = (u.core v).rrHead ∧ (t.core me.core).rrTail = (u.core me.core).rrTail)))

/-- R113, R114: a record that fits behind TAIL, past the pad that keeps it whole, is placed and its sender goes on; one
that does not is counted and held; a held record is offered again in its sender's order once HEAD has moved, and a
thread's record is discarded with `#RINGFULL` 16 us after its first refusal. -/
def Obligations.RingFlow : Prop :=
  ∀ (s : State) (g : Nat) (rec : List Byte) (st : RecStamp) (v : RingView), Memory.wf s.mem = true →
    let r := RingId.ready g
    let pos := v.tail % v.size
    let pad := if v.size - pos < rec.length then v.size - pos else 0
    let fits := v.used + pad + rec.length ≤ v.size
    g < 384 → s.halted (clusterOf g) = false →
    (s.ring r = some v → 0 < v.size →
      (¬ fits → enqueue r rec st s = none) ∧
      (fits → ∃ u, enqueue r rec st s = some u ∧ (u.core g).rrTail = ((v.tail + pad) % 2 ^ 32 + rec.length) % 2 ^ 32 ∧
        u.rd (v.base + (v.tail + pad) % 2 ^ 32 % v.size) rec.length = leNat rec % 2 ^ (8 * rec.length) ∧
        Keeps s u [(v.base + pos, 8), (v.base + (v.tail + pad) % 2 ^ 32 % v.size, rec.length)])) ∧
    (∀ msg ctx sender late, s.msg? msg = some (.record g rec ctx st sender late) →
      (s.behindSent msg g sender = true → exec (.ringEnqueue msg) s = .next s) ∧
      (s.behindSent msg g sender = false → behindHeld g sender s.held = true → ∃ t, exec (.ringEnqueue msg) s = .next t ∧
        t.mem = s.mem ∧ (t.core g).rrref = (s.core g).rrref ∧
        ∃ h, t.held = s.held ++ [h] ∧ h.id = msg ∧ h.bytes = rec ∧ h.target = g ∧ h.since = none) ∧
      (s.behindSent msg g sender = false → behindHeld g sender s.held = false →
      (∀ u, enqueue r rec st (s.drop msg) = some u →
        exec (.ringEnqueue msg) s = .next (wake (fun _ w => w.block = .ring msg) (recordEntered r rec sender u))) ∧
      (enqueue r rec st (s.drop msg) = none → ∃ t, exec (.ringEnqueue msg) s = .next t ∧ t.mem = s.mem ∧
        (t.core g).rrref = min ((s.core g).rrref + 1) 0xFFFFFFFF ∧
        ∃ h, t.held = s.held ++ [h] ∧ h.id = msg ∧ h.bytes = rec ∧ h.target = g ∧ h.since = some (s.gtOf g) ∧
          h.headAt = (s.ring r).map (·.head)))) ∧
    (∀ h, s.held.find? (fun x => x.id = h.id) = some h → h.target = g → h.bytes = rec → h.stamp = st →
      s.senderHalted h = false → behindHeld g h.sender (heldBefore h.id s.held) = false →
      (h.since.isSome = true → (s.ring r).map (·.head) = h.headAt → exec (.ringReoffer h.id) s = .next s) ∧
      (h.since = none ∨ (s.ring r).map (·.head) ≠ h.headAt →
        (∀ u, enqueue r rec st s = some u → exec (.ringReoffer h.id) s = .next (wake (fun _ w => w.block = .ring h.id)
          (recordEntered r rec h.sender { u with held := u.held.filter (fun x => x.id ≠ h.id) }))) ∧
        (enqueue r rec st s = none → ∃ t, exec (.ringReoffer h.id) s = .next t ∧ t.mem = s.mem ∧ t.net = s.net ∧
          (h.since.isSome = true → (t.core g).rrref = (s.core g).rrref)))) ∧
    (∀ h key t0 who, s.held.find? (fun x => x.id = h.id) = some h → h.target = g → h.ctx = some key → h.since = some t0 →
      s.senderHalted h = false → s.meOf key = some who →
      (s.gtOf g < t0 + 16000 → exec (.ringfullTimeout h.id) s = .next s) ∧
      (t0 + 16000 ≤ s.gtOf g → ∃ t, exec (.ringfullTimeout h.id) s = .next t ∧
        t.held = s.held.filter (fun x => x.id ≠ h.id) ∧
        (s.pl who.base = false →
          TrapTaken s t who { cause := .ringfull, info0 := g, rcopy := h.bytes, late := h.late })))

/-- R144, R227, R232, R233, R235: a free slot that the rotation table names takes the head of its core's ready ring: a
codelet starts at its record's address with its arguments, a record of no live launch, or one of a shape that R232 does
not give, is discarded; nothing happens without a slot or a record. R239: the balancer's commands, none while BALOFF is
set; R237, R238: the governor's move of a core and the forwarding of an end-of-stream record.
The model's own choices or readings behind it: assumption log 40, 47, 62. -/
def Obligations.DispatchEvents : Prop :=
  ∀ (s : State), Memory.wf s.mem = true →
    (∀ core, s.freeNamed core = [] ∨ s.halted (clusterOf core) = true ∨
        (s.peekRing (.ready core) = none ∧ s.stageOf core = none) → exec (.ringDispatch core) s = .next s) ∧
    (∀ core slot rest pos rec, s.freeNamed core = slot :: rest → s.halted (clusterOf core) = false →
      s.peekRing (.ready core) = some (pos, rec) →
      let n := leNat rec
      let h := n % 2 ^ 64
      let p := s.partOf core
      let ln := recLn h
      let args := rec.length / 8 - 3
      (recKind h ≠ 1 ∨ recordShape h (n / 2 ^ 64 % 2 ^ 64) = false ∨ (recFr h = false ∧ thas (s.part p).launches (recLn n) = false) → ∃ t,
        exec (.ringDispatch core) s = .next t ∧ t.mem = s.mem ∧
        (t.core core).rrHead = (pos + rec.length) % 2 ^ 32 ∧ t.ctxs = s.ctxs) ∧
      (∀ f, recKind h = 1 → recordShape h (n / 2 ^ 64 % 2 ^ 64) = true → recFr h = false → n < 2 ^ (8 * rec.length) → thas (s.part p).launches ln = true →
        s.codeletIn p ln (clusterOf core) = true → s.freeFrame core = some f → f < 256 → TableAtHome s p →
        (s.part p).nextCtx < 2 ^ 24 → ∃ t, exec (.ringDispatch core) s = .next t ∧
        (t.core core).rrHead = (pos + rec.length) % 2 ^ 32 ∧
        (t.slot (core * 16 + slot)).v = true ∧ (t.slot (core * 16 + slot)).frame = BitVec.ofNat 8 f ∧
        let base := wsBase core f
        t.pc base = BitVec.ofNat 64 (bits n 64 64) ∧ t.kindOf base = 1 ∧ t.pl base = false ∧
          t.rd base (8 * args) = n / 2 ^ 192 % 2 ^ (64 * args) ∧ t.rd (base + 8 * args) (3072 - 8 * args) = 0 ∧
          t.ws base offPtroot = (tget (s.part p).launches ln).ptroot.toNat)) ∧
    (∀ die, (s.dev.baloff = true → exec (.balancerPass die) s = .next s) ∧
      ∃ t ms, exec (.balancerPass die) s = .next t ∧ t.mem = s.mem ∧ t.net = s.net ++ ms ∧ ∀ m ∈ ms, ∃ x y n,
        m.body = .migrate x y n ∧ s.usedBytes y + 1024 ≤ s.usedBytes x ∧ n = min 16 ((s.usedBytes x - s.usedBytes y) / 256) ∧
        dieOf x = die ∧ dieOf y = die ∧ s.partOf x = s.partOf y) ∧
    (∀ msg donor receiver pos rec, s.msg? msg = some (.migrate donor receiver 1) →
      (s.halted (clusterOf donor) = true → exec (.migrationCommand msg) s = .next s) ∧
      (s.halted (clusterOf donor) = false → s.peekRing (.ready donor) = some (pos, rec) → recKind (leNat rec % 2 ^ 64) = 1 →
        recFr (leNat rec % 2 ^ 64) = false →
        s.codeletIn (s.partOf receiver) (recLn (leNat rec % 2 ^ 64)) (clusterOf receiver) = true →
        ∃ t st, exec (.migrationCommand msg) s = .next t ∧ t.mem = s.mem ∧
          (t.core donor).rrHead = (pos + rec.length) % 2 ^ 32 ∧ t.net = (s.drop msg).net ++
            [{ id := s.nextId, body := .record receiver rec none st (dispatchSender donor) false }])) ∧
    (∀ cl, (s.govTable cl = none → exec (.governorSample cl) s = .next s) ∧
      ∀ gt c, s.govTable cl = some gt → s.halted cl = false → s.clusterRd cl gt 1 = 2 → s.clusterRd cl (gt + 1) 1 = 0 →
        let x := s.stageView cl gt 0
        let y := s.stageView cl gt 1
        let now := s.gtOf (cl * 8)
        let hold := s.clusterRd cl (gt + 4) 4
        let free := fun k => bit y.cores k = true ∧
          ∀ m ∈ (s.cluster cl).gov.lastMove, m.1 = k → m.2 + hold * 1000 ≤ now
        let mask := fun k => clusterPa cl (stageEntry gt k + 32)
        (x.occ < x.high → y.occ < y.high → exec (.governorSample cl) s = .next s) ∧
        (x.high ≤ x.occ → y.occ < x.occ → y.occ ≤ y.low → y.minc < popCount 8 y.cores → c < 8 → free c →
          (∀ k, c < k → k < 8 → ¬ free k) → bit x.cores c = false → x.cores < 256 → y.cores < 256 →
          ∃ t, exec (.governorSample cl) s = .next t ∧ t.rd (mask 0) 1 = x.cores + 2 ^ c ∧ t.rd (mask 1) 1 = y.cores - 2 ^ c ∧
            (c, now) ∈ (t.cluster cl).gov.lastMove ∧ Keeps s t [(mask 0, 1), (mask 1, 1)])) ∧
    (∀ core k gt, let cl := clusterOf core
      (s.cluster cl).gov.eosHeld = [(core, k, [])] → s.govTable cl = some gt →
      (k + 1 < s.clusterRd cl gt 1 → ∃ t, exec (.eosForward core) s = .next t ∧ (t.cluster cl).gov.eosHeld = [] ∧
        t.net = s.net ++ [{ id := s.nextId
                            body := .record (0x8000 + 4 * cl + (k + 1)) (natBytes 16 3) none {} (dispatchSender core) false }]) ∧
      (s.clusterRd cl gt 1 ≤ k + 1 → ∃ u, exec (.eosForward core) s =
          .next (fillAndWake (localPa (dectCore (s.clusterRd cl (gt + 8) 8)) (dectOff (s.clusterRd cl (gt + 8) 8)))
            (s.gtOf core) core u) ∧ u.mem = s.mem ∧ (u.cluster cl).gov.eosHeld = []))

/-! ### Teams and launches (R219 to R227) -/

/-- R222 to R227: the head of a partition's queue is placed, a fresh team of one thread with its table entry, its domain
and its thread's registers; a team whose members have ended frees its entry; a team is swapped out once QUANT has passed
while teams wait, its contexts parked and its domain record saved; a launch of which nothing is left fills DONE and is
free with its codelet teams and governors. Nothing happens otherwise.
The model's own choices or readings behind it: assumption log 30, 57, 58, 63. -/
def Obligations.TeamEvents : Prop :=
  ∀ (s : State) (p : Nat), Memory.wf s.mem = true →
    ((s.part p).waiting = [] → exec (.teamPlace p) s = .next s) ∧
    (∀ w rest, (s.part p).waiting = w :: rest →
      let l := tget (s.part p).launches w.ln
      (s.placeCluster l (if w.saved then w.members.length else teamSize l.tf l.extents) = none →
        exec (.teamPlace p) s = .next s) ∧
      (w.saved = false → 65535 ≤ (s.domids p).length → exec (.teamPlace p) s = .next s) ∧
      (∀ cl j g k ks f, w.saved = false → (s.domids p).length < 65535 → teamSize l.tf l.extents = 1 → s.placeCluster l 1 = some cl →
        s.freeEntry cl = some j → s.placeCore cl (threadIndex l 0) = some g → s.freeNamed g = k :: ks →
        s.freeFrame g = some f → f < 256 → clusterOf g = cl → TableAtHome s (s.partOf g) →
        (s.part (s.partOf g)).nextCtx < 2 ^ 24 → s.partOf g = p →
        ∃ t key, exec (.teamPlace p) s = .next t ∧
          (t.part p).waiting = (if w.first + 1 < w.upto then [{ w with first := w.first + 1 }] else []) ++ rest ∧
          (∃ domid, t.team cl j = { part := p, ln := w.ln, team := some (teamNumber l w.first), domid := domid
                                    drec := l.drbase + 16 * j, afnext := 1, aflim := BitVec.ofNat 16 l.aflim0
                                    hslab := l.hsl, placed := s.gtOf (cl * 8), members := [key] }) ∧
          (t.slot (g * 16 + k)).v = true ∧ (t.slot (g * 16 + k)).frame = BitVec.ofNat 8 f ∧
          (t.ctx key).loc = .frame g f ∧ (t.ctx key).born = s.gtOf g ∧
          let b := wsBase g f
          t.pc b = l.entry ∧ t.getW b 0 = l.arg ∧ (∀ r : WReg, r ≠ 0 → t.getW b r = 0) ∧
            t.ws b offWid = (teamNumber l w.first * 2 ^ teamShift l + threadIndex l 0) % 2 ^ 64 ∧
            t.ws b offPtroot = l.ptroot.toNat ∧ t.ws b offHslab = l.hsl.toNat ∧ t.numOf b = key % 2 ^ 24 ∧
            t.kindOf b = (if l.spawned then 3 else 0) ∧ t.pl b = false ∧
            t.ws b offAfr = max (s.gtOf g) l.ts % 2 ^ 64 ∧ t.ws b offLrs = s.gtOf g % 2 ^ 64)) ∧
    (∀ cl j, let tm := s.team cl j
      (¬ (thas (s.cluster cl).teams j = true ∧ tm.team.isSome = true ∧ tm.members = []) →
        exec (.teamEnd cl j) s = .next s) ∧
      (thas (s.cluster cl).teams j = true → tm.team.isSome = true → tm.members = [] → (s.part tm.part).waiting = [] →
        exec (.teamEnd cl j) s = .next (s.modCluster cl (fun c => { c with teams := tdel c.teams j }))) ∧
      (let early := s.dev.bring = true ∨ (s.part tm.part).waiting = [] ∨
          s.gtOf (cl * 8) < tm.placed + (tget (s.part tm.part).launches tm.ln).quant * 1000;
       (tm.team = none ∨ tm.members = [] ∨ s.halted cl = true ∨ (tm.leaving = false ∧ early) →
          exec (.teamSwapOut cl j) s = .next s) ∧
        (∀ num, tm.team = some num → tm.members ≠ [] → s.halted cl = false → (tm.leaving = true ∨ ¬ early) →
          let ready := fun k => s.canPreempt k = true ∧ (s.ctx k).killing = false ∧ s.delivers k = true
          (∀ k ∈ tm.members, ¬ ready k → (s.ctx k).slot ≠ none → (s.ctx k).killing = false → ∃ t,
            exec (.teamSwapOut cl j) s = .next t ∧ t.mem = s.mem ∧ (t.ctx k).slot = (s.ctx k).slot ∧
            (t.part tm.part).waiting = (s.part tm.part).waiting ∧ (t.team cl j).leaving = true ∧
            ∀ i ∈ tm.members, ready i → (t.ctx i).slot = none) ∧
          (∀ image pool, (∀ k ∈ tm.members, ready k) → (s.part tm.part).pool = image :: pool → image % 128 = 0 →
            image + 4096 ≤ 4 * quarterBytes → tm.drec % 16 = 0 →
            ∃ u w, exec (.teamSwapOut cl j) s = .next ((placeHead tm.part u).getD u) ∧
              (∀ k ∈ tm.members, (u.ctx k).slot = none) ∧ (u.part tm.part).waiting = (s.part tm.part).waiting ++ [w] ∧
              w.saved = true ∧ w.ln = tm.ln ∧ w.team = num ∧ w.domid = tm.domid ∧ w.members = tm.members ∧
              w.image = image ∧ (u.part tm.part).pool.contains image = false ∧ thas (u.cluster cl).teams j = false ∧
              bits (u.rd image 16) 16 16 = tm.afnext.toNat ∧ bits (u.rd image 16) 32 16 = tm.aflim.toNat)))) ∧
    ∀ ln, let l := tget (s.part p).launches ln
      let pa := localPa (dectCore l.done.toNat) (dectOff l.done.toNat)
      (thas (s.part p).launches ln = false ∨ s.launchOver p ln = false ∨ s.gt (partDie p) < l.vt → exec (.launchEnd p ln) s = .next s) ∧
      (thas (s.part p).launches ln = true → s.launchOver p ln = true → l.vt ≤ s.gt (partDie p) →
        l.command = none ∨ l.peers ≠ [] → ∃ t, exec (.launchEnd p ln) s = .next t ∧
        (∀ q e, l.command = some (q, e) → (t.queue p q).ended = true ∧ (t.queue p q).peers = l.peers) ∧
        (∀ c ∈ t.clusters, c.2.gov.ln ≠ some (p, ln) ∧ ∀ e ∈ c.2.teams, ¬ (e.2.part = p ∧ e.2.ln = ln)) ∧
        (l.done = 0 → t.mem = s.mem) ∧
        (l.done ≠ 0 → dectCore l.done.toNat < 384 → s.halted (clusterOf (dectCore l.done.toNat)) = false →
          (s.core (dectCore l.done.toNat)).log.en = false → s.feWaiters pa = [] → t.rd pa 8 = s.gtOf (dectCore l.done.toNat) % 2 ^ 64 ∧ t.isFull pa = true ∧
          Keeps s t [(pa, 8)]))

/-! ### Waiting, shoot-downs, and contexts moved and stopped (R46, R82, R250 to R261, R268, R406 to R411) -/

/-- R406, R410, R411, R46: `wfe` takes its slot out of the rotation after it, `#BLOCK` in a codelet, and ends one
microsecond of GT later; `tinv` goes on at once and its completion drops every translation that it names from TLBs and
walk caches; `tsync` waits for the context's shoot-downs. At PL 0 both raise `#PRIV`.
The model's own choices or readings behind it: assumption log 11, 48. -/
def Obligations.ShootDownResults : Prop :=
  ∀ (s : State) (a b c : WReg), Memory.wf s.mem = true →
    let me := s.me
    let priv := fun (i : Instr) => ∃ t, exec i s = .next t ∧ TrapTaken s t me { cause := .priv, info0 := i.first64.toNat }
    let sel := (s.getW me.base c).toNat
    let lo := (s.getW me.base a).toNat
    let hi := min (lo + (s.getW me.base b).toNat) (2 ^ 64)
    let asid' := if bit sel 12 then none else some (sel % 2 ^ 12)
    (s.kindOf me.base = 1 → ∃ t, exec .wfe s = .next t ∧ TrapOr s t me { cause := .block }) ∧
    (s.kindOf me.base ≠ 1 → ∃ t, exec .wfe s = .next t ∧ t.waitOf me.key = some (.wfe (s.gtOf me.core)) ∧
      t.pc me.base = s.pc me.base + 8 ∧ Keeps s t [(me.base + offPc, 8)]) ∧
    (∀ key k start, (s.ctx key).slot = some k → s.waitOf key = some (.wfe start) →
      (s.gtOf (k / 16) < start + 1000 → exec (.wfeTimeout key) s = .next s) ∧
      (start + 1000 ≤ s.gtOf (k / 16) → exec (.wfeTimeout key) s = .next (s.clearWait key))) ∧
    (s.pl me.base = false → priv (.tinv a b c) ∧ priv .tsync) ∧
    (s.pl me.base = true →
      (2 ^ 13 ≤ sel → ∃ t, exec (.tinv a b c) s = .next t ∧ FatalTaken s t me.key) ∧
      (sel < 2 ^ 13 → ∃ t, exec (.tinv a b c) s = .next t ∧ t.pc me.base = s.pc me.base + 12 ∧
        (t.ctx me.key).tinvs = (s.ctx me.key).tinvs ++ [s.nextId] ∧ Keeps s t [(me.base + offPc, 8)] ∧
        t.net = s.net ++ [{ id := s.nextId, body := .tinv s.nextId me.key (s.partOf me.core) lo hi asid' }]) ∧
      ((s.ctx me.key).tinvs = [] → exec .tsync s = .next (s.advPc me.base 8)) ∧
      ((s.ctx me.key).tinvs ≠ [] → ∃ t, exec .tsync s = .next t ∧ t.waitOf me.key = some .tsync ∧ t.mem = s.mem)) ∧
    (∀ id n key p l h asid, s.msg? id = some (.tinv n key p l h asid) →
      (s.pendingIn p l h = true → exec (.tinvComplete id) s = .next s) ∧
      (s.pendingIn p l h = false → s.waiters (fun k w => k = key && w.block = .tsync) = [] →
        ∃ t, exec (.tinvComplete id) s = .next t ∧ t.msg? id = none ∧ t.mem = s.mem ∧
        (∀ x ∈ t.cores, s.partOf x.1 = p → ∀ e ∈ x.2.tlb, (asidMeets asid e.asid && meetsRange e.va e.leaf.logSize l h) = false) ∧
        (∀ x ∈ t.clusters, s.partOf (x.1 * 8) = p → ∀ e ∈ x.2.tlb,
          (asidMeets asid e.asid && meetsRange e.va e.leaf.logSize l h) = false) ∧
        (∀ x ∈ t.dies, ∀ e ∈ x.2.walks, partOfQuarter s.qmode (e.2.addr / quarterBytes) = p → asidMeets asid e.2.asid = true →
          meetsRange (e.2.va * 2 ^ e.2.logSize) e.2.logSize l h = false) ∧
        (key ≠ 0 → thas s.ctxs key = true → (t.ctx key).tinvs = (s.ctx key).tinvs.filter (· ≠ n))))

/-- R407 to R409, R250, R252, R253, R82: the switch of a slot to a parked context and the moves of a workspace between a
frame and its image in HBM: what each begins and what its completion leaves. The three instructions are privileged but
for a `swp` that names the context itself.
The model's own choices or readings behind it: assumption log 15, 29, 43. -/
def Obligations.ContextMoves : Prop :=
  ∀ (s : State) (a b : WReg), Memory.wf s.mem = true →
    let me := s.me
    let p := me.key / 2 ^ 24
    let v := (s.getW me.base a).toNat
    let w := (s.getW me.base b).toNat
    let key := p * 2 ^ 24 + v
    let live := 0 < v ∧ v < 2 ^ 24 ∧ thas s.ctxs key = true ∧ (s.ctx key).ended = false ∧ (s.ctx key).killing = false
    let priv := fun (i : Instr) => ∃ t, exec i s = .next t ∧ TrapTaken s t me { cause := .priv, info0 := i.first64.toNat }
    let dies := fun (i : Instr) => ∃ t, exec i s = .next t ∧ FatalTaken s t me.key
    let rests := fun (image : Nat) => image % 128 = 0 ∧ image + 4096 ≤ 4 * quarterBytes ∧ ∀ i, i < 32 →
      (s.line (image / 128 + i)).owner = true ∧ (s.line (image / 128 + i)).tokens = 512 ∧
      (s.line (image / 128 + i)).half0 = .hi ∧ (s.line (image / 128 + i)).half1 = .hi
    (v = s.numOf me.base → exec (.swp a) s = .next (s.advPc me.base 8)) ∧
    (s.pl me.base = false → (v ≠ s.numOf me.base → priv (.swp a)) ∧ priv (.ctxs a b) ∧ priv (.ctxl a b)) ∧
    (s.pl me.base = true → v ≠ s.numOf me.base →
      (¬ live → dies (.swp a)) ∧
      (∀ f, live → (s.ctx key).loc = .frame me.core f → (s.ctx key).slot = none → (s.ctx me.key).slot = some me.slot →
        (s.ctx me.key).borrow = none → s.turnSlot < 16 → ∃ t, exec (.swp a) s = .next t ∧
          t.mem = (s.advPc me.base 8).mem ∧ (t.ctx me.key).slot = none ∧ (t.ctx key).slot = some me.slot ∧
          (t.slot me.slot).v = true ∧ (t.slot me.slot).frame = BitVec.ofNat 8 f ∧ (t.slot me.slot).block = none) ∧
      (∀ image f, live → (s.ctx key).loc = .hbm image → (s.ctx key).cluster = clusterOf me.core →
        s.freeFrame me.core = some f → (s.part p).cltb = 0 → ∃ t, exec (.swp a) s = .next t ∧
          t.waitOf me.key = some (.fillOf key) ∧ (t.ctx key).loc = .filling me.core f image ∧ t.mem = s.mem)) ∧
    (s.pl me.base = true →
      (w % 4096 ≠ 0 ∨ (s.part p).pool.contains w = false ∨ ¬ live → dies (.ctxs a b)) ∧
      (2 ^ 8 ≤ w ∨ ¬ live → dies (.ctxl a b)) ∧
      (∀ g f, w % 4096 = 0 → (s.part p).pool.contains w = true → live → (s.ctx key).loc = .frame g f → key ≠ me.key →
        (s.ctx key).slot = none → clusterOf g = clusterOf me.core → (s.ctx key).deposits = 0 → (s.part p).cltb = 0 →
        ∃ t, exec (.ctxs a b) s = .next t ∧ t.waitOf me.key = some (.spillOf key) ∧
          (t.ctx key).loc = .spilling g f w ∧ (t.part p).pool.contains w = false ∧ t.mem = s.mem) ∧
      (∀ image, w < 2 ^ 8 → live → (s.ctx key).loc = .hbm image → (s.frameList me.core).contains w = true →
        s.frameFree me.core w = true → (s.ctx key).cluster = clusterOf me.core → (s.part p).cltb = 0 →
        ∃ t, exec (.ctxl a b) s = .next t ∧ t.waitOf me.key = some (.fillOf key) ∧
          (t.ctx key).loc = .filling me.core w image ∧ t.mem = s.mem)) ∧
    (∀ k g f, (s.ctx k).loc = .frame g f →
      let short := s.freeFrame g = none ∨ (s.freeFrames g).length < s.framesWanted g
      (¬ short ∨ s.oldestParked g ≠ some k ∨ (s.ctx k).deposits ≠ 0 → exec (.spill k) s = .next s) ∧
      (∀ image rest, short → s.oldestParked g = some k → (s.ctx k).deposits = 0 →
        (s.part (k / 2 ^ 24)).pool = image :: rest → (s.part (k / 2 ^ 24)).cltb = 0 →
        ∃ t, exec (.spill k) s = .next t ∧ (t.ctx k).loc = .spilling g f image ∧ t.mem = s.mem)) ∧
    (∀ k g f image, rests image → (s.part (k / 2 ^ 24)).cltb = 0 → f < 256 → g < 384 →
      s.waiters (fun _ w => w.block = .transit k || w.block = .spillOf k || w.block = .fillOf k) = [] →
      s.heldBeats.any (fun m => m.body.forCtx k) = false →
      ((s.ctx k).loc = .spilling g f image → s.lostIn (wsBase g f) 4096 = none → (s.ctx k).savedBorrow = none →
        ∃ t, exec (.spillComplete k) s = .next t ∧ (t.ctx k).loc = .hbm image ∧
          t.rd image 4096 = s.rd (wsBase g f) 4096 ∧ Keeps s t [(image, 4096)]) ∧
      ((s.ctx k).loc = .filling g f image → s.imageLost image = none → s.halted (clusterOf g) = false →
        ∃ t, exec (.fill k) s = .next t ∧ (t.ctx k).loc = .frame g f ∧
          t.rd (wsBase g f) 4096 = s.rd image 4096 ∧ Keeps s t [(wsBase g f, 4096)] ∧
          (t.part (k / 2 ^ 24)).pool = (s.part (k / 2 ^ 24)).pool ++ [image])) ∧
    (∀ k x, (s.ctx k).slot = some x →
      let due := (s.ctx k).migrating = true ∧ s.resumeAt (dieOf (x / 16)) (s.ctx k) < s.gtOf (x / 16)
      (¬ due → exec (.migratedResume k) s = .next s) ∧
      (due → ∃ t, exec (.migratedResume k) s = .next t ∧ t.ctx k = { s.ctx k with migrating := false } ∧ t.mem = s.mem))

/-- R258 to R261, R268: a kill waits for what it must let finish and then frees the slot, with a log entry of its cause;
a number is free once no delivery to it is in flight; the context that has been fatal longest is dumped and ends; the
watchdog makes a context that waited 100 ms for a reply, or kept the turns so long, fatal.
The model's own choices or readings behind it: assumption log 43, 45. -/
def Obligations.KillResults : Prop :=
  ∀ (s : State) (key : Nat), Memory.wf s.mem = true →
    let c := s.ctx key
    let p := key / 2 ^ 24
    let isFatal := (s.part p).fatal.any (fun r => r.ctx = key)
    let idle := s.elandBusy key = false ∧ c.pushes = [] ∧ c.deposits = 0 ∧ s.delivers key = true
    let gone := fun (t : State) => (∀ k, c.slot = some k → (t.slot k).v = false) ∧
      (t.team c.cluster c.entry).members.contains key = false
    (thas s.ctxs key = false ∨ c.ended = true ∨ isFatal = true → exec (.kill key) s = .next s) ∧
    (thas s.ctxs key = true → c.ended = false → isFatal = false →
      (s.canStop key = false → ∃ t, exec (.kill key) s = .next t ∧ (t.ctx key).killing = true ∧ (t.ctx key).wait = c.wait ∧
        (t.ctx key).slot = c.slot ∧ t.mem = s.mem) ∧
      (s.canStop key = true → ¬ idle → ∃ t, exec (.kill key) s = .next t ∧ (t.ctx key).killing = true ∧
        t.waitOf key = some .ending ∧ (t.ctx key).slot = c.slot ∧ t.mem = s.mem) ∧
      (s.canStop key = true → idle → s.ctxHalted key = false → ∃ t, exec (.kill key) s = .next t ∧ gone t ∧
        t.dev.log = { gt := s.refGt, what := c.why.name, arg := key } :: s.dev.log)) ∧
    (let flying := s.net.any (fun m => m.body.forCtx key)
     (c.ended = false ∨ flying = true → exec (.contextNumberFree key) s = .next s) ∧
      (c.ended = true → flying = false → exec (.contextNumberFree key) s = .next { s with ctxs := tdel s.ctxs key })) ∧
    (∀ q, ((s.part q).fatal = [] → exec (.fatalDump q) s = .next s) ∧
      ∀ r rest, (s.part q).fatal = r :: rest → r.ctx = key → thas s.ctxs key = true → c.ended = false →
        (s.killReady key = false → exec (.fatalDump q) s = .next s) ∧
        (s.killReady key = true → (s.part q).dumpArea = none → ∃ t, exec (.fatalDump q) s = .next t ∧ gone t ∧
          (t.part q).fatal.any (fun r => r.ctx = key) = false) ∧
        (∀ base size pt u, s.killReady key = true → (s.part q).dumpArea = some (base, size, pt) →
          let d := dumpRecord r c.ln
          let core := match c.loc with | .frame g _ => g | _ => c.cluster * 8
          (s.part q).dumpNext + d.1 ≤ size →
          dumpWrite core pt (d.1 / 128 + 2) (base + (s.part q).dumpNext) d.1 d.2 s = (some true, u) →
          ∃ t, exec (.fatalDump q) s = .next t ∧ (t.part q).dumpNext = (u.part q).dumpNext + d.1 ∧
            t.dev.log = { gt := u.refGt, what := c.why.name, arg := key } :: { gt := u.refGt, what := "dump", arg := key } ::
              u.dev.log)) ∧
    (∀ core slot, (s.halted (clusterOf core) = true ∨ s.slotExpired core slot = false →
        exec (.watchdogSlotKill core slot) s = .next s) ∧
      (∀ x, s.halted (clusterOf core) = false → s.slotExpired core slot = true →
        s.ctxs.find? (fun e => e.2.slot = some (core * 16 + slot)) = some (key, x) →
        ∃ t, exec (.watchdogSlotKill core slot) s = .next t ∧ FatalTaken s t key))

/-! ### Token counting (R49 to R60) -/

/-- R51, R52, R55: what the home and the holders do with a read request, a forwarded read, a write request, its
multicast, an answer with tokens, an owner notice and a write-back: which tokens and data leave, to whom, and what
stays; the owner token's move voids the notices of earlier owners that are still on their way.
The model's own choices or readings behind it: assumption log 11, 23. -/
def Obligations.TokenMessages : Prop :=
  ∀ (s : State) (msg h l : Nat), Memory.wf s.mem = true →
    let x := s.line l
    let home := some (s.homeData l)
    let void := fun (ms : List MsgBody) => ms.filter (fun b => match b with | .ownerNotice l' _ => l' ≠ l | _ => true)
    let moves := fun (owner : Bool) (t : State) (ms : List MsgBody) =>
      t.net.map (·.body) = (if owner then void ((s.drop msg).net.map (·.body)) else (s.drop msg).net.map (·.body)) ++ ms
    let sends := moves false
    let val := fun (c : Copy) => c.data.map (·.toNat)
    let bank := s.homeSrc l
    (x.resident = false → (s.bank (s.lineBank l)).l2.contains l = false) →
    (s.msg? msg = some (.readReq h l) →
      (x.owner = true → 2 ≤ x.spare → ∃ t, exec (.homeReadRequest msg) s = .next t ∧ t.mem = s.mem ∧
        sends t [.tokens h l 1 false false home x.stamp bank] ∧ (t.line l).tokens = x.tokens - 1 ∧ (t.line l).owner = true ∧
        (t.line l).filter.contains (holderMark h) = true) ∧
      (x.owner = true → x.spare < 2 → ∃ t, exec (.homeReadRequest msg) s = .next t ∧ t.mem = s.mem ∧
        sends t [.tokens h l 1 true x.dirty home x.stamp bank] ∧ (t.line l).tokens = x.tokens - 1 ∧
        (t.line l).owner = false ∧ (t.line l).ownerRec = some h ∧ (t.line l).dirty = false) ∧
      (∀ o, x.owner = false → x.ownerRec = some o → ∃ t, exec (.homeReadRequest msg) s = .next t ∧ t.mem = s.mem ∧
        sends t [.fwdRead o h l] ∧ (t.line l).tokens = x.tokens ∧ ((s.bank (s.lineBank l)).fwd.length < 64 →
          (t.bank (s.lineBank l)).fwd = (s.bank (s.lineBank l)).fwd ++ [(l, h)]))) ∧
    (∀ o, s.msg? msg = some (.fwdRead o h l) → let c := s.copy o l
      (c.owner = false → exec (.forwardedRead msg) s = .next (s.drop msg)) ∧
      (c.owner = true → c.data.isSome = true → x.active ≠ some o →
        (2 ≤ c.tokens → ∃ t, exec (.forwardedRead msg) s = .next t ∧ t.mem = s.mem ∧
          sends t [.tokens h l 1 false false (val c) c.stamp (holderSrc o)] ∧ t.copy o l = { c with tokens := c.tokens - 1 }) ∧
        (c.tokens = 1 → isWin o = false → ∃ t, exec (.forwardedRead msg) s = .next t ∧ t.mem = s.mem ∧
          moves true t [.tokens h l 1 true c.dirty (val c) c.stamp (holderSrc o), .ownerNotice l h] ∧
          t.copies = (clearCopy o l s).copies))) ∧
    (s.msg? msg = some (.writeReq h l) → ∃ t, exec (.homeWriteRequest msg) s = .next t ∧ t.mem = s.mem ∧
      sends t ((if x.spare = 0 then [] else
          [.tokens h l x.spare x.owner x.dirty (if x.owner then home else none) x.stamp bank]) ++
        ((s.holders l).filter (fun o => o ≠ h && (!x.resident || x.filter.contains (holderMark o)))).map (fun o => .multi o h l)) ∧
      (t.line l).tokens = x.tokens - x.spare ∧ (0 < x.spare → (t.line l).owner = false) ∧
      (0 < x.spare → x.owner = true → (t.line l).ownerRec = some h)) ∧
    (∀ o, s.msg? msg = some (.multi o h l) → let c := s.copy o l
      ((∃ m, c.miss = some m ∧ m.write = true) ∨ x.active = some o ∨ c.tokens = 0 →
        exec (.writeMulticast msg) s = .next (s.drop msg)) ∧
      (¬ (∃ m, c.miss = some m ∧ m.write = true) → x.active = none → 0 < c.tokens → isWin o = false →
        ∃ t, exec (.writeMulticast msg) s = .next t ∧ t.mem = s.mem ∧ t.copies = (clearCopy o l s).copies ∧
          moves c.owner t (.tokens h l c.tokens c.owner c.dirty (val c) c.stamp (holderSrc o) :: (if c.owner then [.ownerNotice l h] else [])))) ∧
    (∀ n owner dirty data st src m, s.msg? msg = some (.tokens h l n owner dirty data st src) → h < 384 →
      (s.core h).log.en = false → x.active = none → (s.copy h l).miss = some m →
      s.waiters (fun _ w => w.block = .line h l) = [] → let c := s.copy h l
      ∃ t, exec (.tokenAnswer msg) s = .next t ∧ t.mem = s.mem ∧ (t.copy h l).tokens = c.tokens + n ∧
        (t.copy h l).owner = (c.owner || owner) ∧ (t.copy h l).dirty = (c.dirty || dirty) ∧
        (t.copy h l).data = (if c.data.isNone then data.map (BitVec.ofNat 1024) else c.data) ∧
        ((t.copy h l).miss = none ↔
          (c.data.isSome || data.isSome) = true ∧ (if m.write then c.tokens + n = 512 else 1 ≤ c.tokens + n))) ∧
    (∀ r n owner dirty data st src, s.msg? msg = some (.tokens h l n owner dirty data st src) → h < 384 → r ≠ h →
      (s.core h).log.en = false → x.active = some r → ∃ t, exec (.tokenAnswer msg) s = .next t ∧
        moves owner t (.tokens r l n owner dirty data st (holderSrc h) :: (if owner then [.ownerNotice l r] else []))) ∧
    (s.msg? msg = some (.ownerNotice l h) →
      (x.owner = true → exec (.ownerNotice msg) s = .next (s.drop msg)) ∧
      (x.owner = false → ∃ t, exec (.ownerNotice msg) s = .next t ∧ (t.line l).ownerRec = some h ∧
        (t.line l).tokens = x.tokens ∧ t.mem = s.mem)) ∧
    (∀ n owner dirty data st flush, s.msg? msg = some (.writeBack h l n owner dirty data st flush) → x.active = none →
      (s.bank (s.lineBank l)).fwd.filter (fun f => f.1 = l) = [] →
      ∃ t, exec (.writeBack msg) s = .next t ∧ moves owner t [.wbAck h l msg] ∧ (t.line l).tokens = x.tokens + n ∧
        (t.line l).owner = (x.owner || owner) ∧ (owner = true → (t.line l).stamp = st) ∧
        (flush = true → (t.line l).dirty = false) ∧ (owner = false ∨ data = none → t.mem = s.mem) ∧
        (∀ d, owner = true → data = some d → t.rd (l * 128) 128 = d % 2 ^ 1024 ∧ Keeps s t [(l * 128, 128)]))

/-- R53, R54, R56, R58 to R60: a request is sent again after 512 cycles and then registered, its registration retried
every 64 cycles under its number; an activation sends the home's tokens to the oldest entry of the line; a push gives one
token to each target in its turn while its writer holds the owner token and two, and counts the others as refused; a
pushed token is installed, joined or refused by the first row of R58 that holds, an active persistent request before all
but a halt, whoever requests; and its acknowledgement lowers PEND and counts the refusals in `PUSHST`.
The model's own choices or readings behind it: assumption log 23, 26. -/
def Obligations.RequestsAndPushes : Prop :=
  ∀ (s : State) (msg h l : Nat), Memory.wf s.mem = true →
    let x := s.line l
    let c := s.copy h l
    let b := s.lineBank l
    let sends := fun (t : State) (ms : List MsgBody) => t.net.map (·.body) = (s.drop msg).net.map (·.body) ++ ms
    (c.miss = none → exec (.requestTimeout h l) s = .next s ∧ exec (.persistentRetry h l) s = .next s) ∧
    (∀ m, c.miss = some m →
      (s.cycle < m.sent + 512 → exec (.requestTimeout h l) s = .next s) ∧
      (m.sent + 512 ≤ s.cycle → s.lineDie l = holderDie h → s.registered h l = false →
        (m.tries = 1 → ∃ t, exec (.requestTimeout h l) s = .next t ∧ t.mem = s.mem ∧
          t.copy h l = { c with miss := some { m with tries := 2, sent := s.cycle } } ∧
          t.net = s.net ++ [{ id := s.nextId, body := if m.write then .writeReq h l else .readReq h l }]) ∧
        (m.tries ≠ 1 → (s.bank b).persist.length < 32 → (s.bank b).waiting = [] →
          ∃ t, exec (.requestTimeout h l) s = .next t ∧ t.net = s.net ∧
          (t.bank b).attempts = (s.bank b).attempts + 1 ∧
          { line := l, holder := h, number := (s.bank b).attempts, write := m.write } ∈ (t.bank b).persist ∧
          (t.copy h l).miss = some { m with persist := true, number := (s.bank b).attempts })) ∧
      (∀ r, s.waitingReq h l = some r →
        (s.cycle < m.sent + 64 → exec (.persistentRetry h l) s = .next s) ∧
        (m.sent + 64 ≤ s.cycle → (s.bank b).persist.length < 32 → (s.bank b).waiting = [r] →
          ∃ t, exec (.persistentRetry h l) s = .next t ∧ r ∈ (t.bank b).persist ∧ (t.bank b).waiting = [] ∧
            (t.copy h l).miss = some { m with persist := true, number := r.number }))) ∧
    ((s.bank b).persist.find? (fun p => p.line = l) = none → x.active = none →
      exec (.persistentActivate l) s = .next s) ∧
    (∀ g, x.active = some g →
      ((s.copy g l).miss ≠ none ∨ s.needsLine g l = true → exec (.persistentActivate l) s = .next s) ∧
      ((s.copy g l).miss = none → s.needsLine g l = false →
        exec (.persistentActivate l) s = .next (deactivate g l s))) ∧
    (∀ p, (s.bank b).persist.find? (fun p => p.line = l) = some p → x.active = none →
      ∃ t, exec (.persistentActivate l) s = .next t ∧ (t.line l).active = some p.holder ∧
        (t.line l).tokens = min x.tokens (if x.inFilter then 1 else 0)) ∧
    (∀ writer key push rest, s.msg? msg = some (.pushTurn l writer key push (h :: rest)) →
      let v := s.copy writer l
      (∀ d, v.owner = true → 2 ≤ v.tokens → v.data = some d → writer ≠ h → isWin writer = false → h < 384 →
        (s.core h).log.en = false → s.waiters (fun _ w => w.block = .line h l) = [] →
        let ends := fun (ms : List MsgBody) (P : State → Prop) => ∃ t, exec (.pushTokenArrival msg) s = .next t ∧
          t.mem = s.mem ∧ t.copy writer l = { v with tokens := v.tokens - 1 } ∧
          sends t (ms ++ if rest.isEmpty then [] else [.pushTurn l writer key push rest]) ∧ P t
        let counted := fun (t : State) => (t.core h).pushref = min ((s.core h).pushref + 1) 0xFFFFFFFF
        let refused := ends [.refusedTok l d.toNat v.stamp, .pushAck key push h true]
          (fun t => t.copy h l = c ∧ counted t)
        let held := 0 < c.tokens ∨ c.miss ≠ none
        (s.halted (clusterOf h) = true → refused) ∧
        (s.halted (clusterOf h) = false → x.active = none →
          (c.evicting ≠ none → refused) ∧
          (c.evicting = none → 0 < c.tokens → c.miss = none →
            ends [.pushAck key push h false] (fun t => (t.copy h l).tokens = c.tokens + 1)) ∧
          (∀ m, c.evicting = none → c.miss = some m → m.write = false → ends [.pushAck key push h false] (fun t =>
            (t.copy h l).tokens = c.tokens + 1 ∧ (t.copy h l).miss = none)) ∧
          (c.evicting = none → ¬ held → (s.core h).quota ≤ s.untouched h → refused) ∧
          (c.evicting = none → ¬ held → s.untouched h < (s.core h).quota →
            ((tget s.copies h).filter (fun e => usesFrame e.2)).length < 512 → ends [.pushAck key push h false] (fun t =>
              t.copy h l = { tokens := 1, data := some d, stamp := v.stamp, untouched := true }))) ∧
        (∀ r, s.halted (clusterOf h) = false → x.active = some r →
          (r ≠ h → ends [.tokens r l 1 false false (some d.toNat) v.stamp h, .pushAck key push h true]
            (fun t => t.copy h l = c ∧ counted t)) ∧
          (r = h → (c.tokens ≠ 0 ∨ c.miss ≠ none) → ends [.pushAck key push h true]
            (fun t => (t.copy h l).tokens = c.tokens + 1 ∧ counted t)))) ∧
      (∀ g f p, v.owner = false ∨ v.tokens < 2 ∨ v.data = none → (s.ctx key).loc = .frame g f → g < 384 → f < 256 →
        (s.ctx key).ended = false → (s.ctx key).pushes.find? (fun q => q.id = push) = some p →
        s.waiters (fun k w => k = key && w.block = .pushPend) = [] →
        let base := wsBase g f
        let n := rest.length + 1
        ∃ t, exec (.pushTokenArrival msg) s = .next t ∧ Keeps s t [(base + offPushst, 8)] ∧ sends t [] ∧
          bits (t.ws base offPushst) 32 32 = min (bits (s.ws base offPushst) 32 32 + n) 0xFFFFFFFF ∧
          (n < p.left → t.pend base = s.pend base) ∧ (p.left ≤ n → t.pend base = s.pend base - 1))) ∧
    (∀ key push target refused, s.msg? msg = some (.pushAck key push target refused) → ∀ g f p,
      (s.ctx key).loc = .frame g f → g < 384 → f < 256 → (s.core g).log.en = false → s.halted (clusterOf g) = false →
      (s.ctx key).pushes.find? (fun q => q.id = push) = some p → (s.ctx key).ended = false →
      s.waiters (fun k w => k = key && w.block = .pushPend) = [] →
      let base := wsBase g f
      let w := s.ws base offPushst
      ∃ t, exec (.pushAckArrival msg) s = .next t ∧ Keeps s t [(base + offPushst, 8)] ∧
        bits (t.ws base offPushst) 32 32 = (if refused then min (bits w 32 32 + 1) 0xFFFFFFFF else bits w 32 32) ∧
        (refused = true → bits (t.ws base offPushst) 8 9 = target % 512) ∧
        (1 < p.left → t.pend base = s.pend base ∧ (t.ctx key).pushes = (s.ctx key).pushes.map (fun q =>
          if q.id = push then { q with left := q.left - 1 } else q)) ∧
        (p.left ≤ 1 → t.pend base = s.pend base - 1 ∧ (t.ctx key).pushes = (s.ctx key).pushes.filter (fun q => q.id ≠ push))) ∧
    (∀ data st, s.msg? msg = some (.refusedTok l data st) → x.active = none →
      ∃ t, exec (.refusedTokenReturn msg) s = .next t ∧ (t.line l).tokens = x.tokens + 1 ∧ (t.line l).owner = x.owner ∧
        t.mem = s.mem)

/-! ### Leases, remote writes, replies and drift (R45, R61 to R65, R68, R73, R76, R271) -/

/-- R45, R61, R63, R64, R71, R73, R76, R81: a lease request is answered with the line's value and entered in the lease
table, or held while the line is held; a leased copy ends with its lease; a remote write performs at the home, whose
reply brings its visibility time, and no leased copy of the writer's die is left; a reply lets its context go on; a walk
waits for a walker, for the hold of a line and for a snoop, and then enters its translation in the TLBs of core and
cluster or raises its fault, its reads raising `LRS`; what the cluster's TLB holds needs no walk. A lease that reaches a
die whose drift detector has tripped is not installed, and an acknowledgement ends the eviction and the waits of its own
write-back alone.
The model's own choices or readings behind it: assumption log 11, 15, 22, 23, 25. -/
def Obligations.LeaseAndReplies : Prop :=
  ∀ (s : State) (msg h l key : Nat), Memory.wf s.mem = true →
    let x := s.line l
    let now := s.gt (s.lineDie l)
    let b := s.lineBank l
    let bodies := fun (t : State) => t.net.map (·.body)
    let room := (s.bank b).leases.length < 4096 ∨ (s.bank b).leases.any (fun e => e.1 = l) = true
    (∀ len, s.msg? msg = some (.leaseReq h l len) →
      (s.isHeld l = true → ∃ t, exec (.remoteLeaseRead msg) s = .next t ∧ bodies t = bodies (s.drop msg) ∧
        (t.bank b).heldReads = (s.bank b).heldReads ++ [(l, h, len)]) ∧
      (s.isHeld l = false → x.owner = true → x.active = none → ∃ t, exec (.remoteLeaseRead msg) s = .next t ∧
        bodies t = bodies (s.drop msg) ++ [.leaseReply h l (s.homeData l) x.stamp (some (now + len))] ∧
        (room → now + len ≤ t.leaseEnd l) ∧ t.mem = s.mem ∧ (now, len) ∈ (t.die (s.lineDie l)).grants ∧
        (s.gt (holderDie h), len) ∈ (t.die (holderDie h)).grants)) ∧
    (s.isHeld l = true → exec (.holdEnd l) s = .next s) ∧
    (∀ len, s.isHeld l = false → (s.bank b).heldReads = [(l, h, len)] → x.owner = true → x.active = none →
      ∃ t, exec (.holdEnd l) s = .next t ∧ (t.bank b).heldReads = [] ∧
        bodies t = bodies s ++ [.leaseReply h l (s.homeData l) x.stamp (some (now + len))]) ∧
    (∀ le, (s.copy h l).lease = some le → h < 384 → (s.copy h l).miss = none → (s.copy h l).evicting = none →
      (s.gt (holderDie h) < le → exec (.leaseExpiry h l) s = .next s) ∧
      (le ≤ s.gt (holderDie h) → exec (.leaseExpiry h l) s = .next (s.delCopy h l))) ∧
    (s.msg? msg = some (.remoteWrite key) →
      (s.waitOf key ≠ some (.reply msg) → exec (.remoteWrite msg) s = .next (s.drop msg)) ∧
      (∀ who w e v rest, s.meOf key = some who → (s.ctx key).wait = some w → (s.ctx key).migrating = false →
        w.block = .reply msg → w.cont.op = .write → w.cont.elems = [e] → e.late = none → w.cont.reg = none →
        (∀ g ∈ s.holders l, isWin g = false) →
        (∀ m ∈ s.net, ∀ g d st le, m.body = .leaseReply g l d st le → holderDie g ≠ dieOf who.core) → w.cont.data = [v] → w.cont.prog = .perform 0 :: rest → e.pa / 128 = l →
        e.pa < 4 * quarterBytes → 0 < e.size → e.pa % 128 + e.size ≤ 128 → s.lineDie l ≠ dieOf who.core →
        e.leaf.permits { w := true } (s.pl who.base) = true → e.leaf.chk = false → x.half0 = .hi → x.half1 = .hi →
        x.owner = true → x.tokens = 512 → x.lost = false → x.active = none → ∃ t, exec (.remoteWrite msg) s = .next t ∧
          t.rd e.pa e.size = v % 2 ^ (8 * e.size) ∧ Keeps s t [(e.pa, e.size)] ∧
          (t.line l).stamp = { vt := s.writeVt l, ctx := s.numOf who.base, region := s.ws who.base offRgn % 2 ^ 16 } ∧
          t.waitOf key = some (.reply s.nextId) ∧
          ((∀ k, ((tget s.copies k).map Prod.fst).Pairwise (· < ·)) →
            ∀ g, holderDie g = dieOf who.core → (t.copy g l).lease = none) ∧
          bodies t = bodies (s.drop msg) ++ [.vtReply key (s.writeVt l) b])) ∧
    (s.msg? msg = some (.access key) → s.waitOf key ≠ some (.reply msg) →
      exec (.memoryReply msg) s = .next (s.drop msg)) ∧
    (s.msg? msg = some (.access key) → s.waitOf key = some (.reply msg) → s.heldAtHome key = true →
      exec (.memoryReply msg) s = .next s) ∧
    (∀ vt bank who w len, s.msg? msg = some (.vtReply key vt bank) → s.meOf key = some who → (s.ctx key).wait = some w →
      w.block = .reply msg → w.cont.prog = [.adv len] → w.cont.reg = none → (s.core who.core).log.en = false → (s.ctx key).migrating = false →
      exec (.memoryReply msg) s =
        .next (((((s.drop msg).clearWait key).advPc who.base len)).clearWait who.key)) ∧
    (∀ data st le m, s.msg? msg = some (.leaseReply h l data st le) → h < 384 → (s.core h).log.en = false →
      (s.copy h l).miss = some m → s.waiters (fun _ w => w.block = .line h l) = [] →
      ∃ t, exec (.memoryReply msg) s = .next t ∧ t.mem = s.mem ∧
        ((s.die (holderDie h)).tripped = none → t.copy h l = { s.copy h l with
          data := some (BitVec.ofNat 1024 data), stamp := st, lease := le, miss := none }) ∧
        ((s.die (holderDie h)).tripped ≠ none → t.copy h l = { s.copy h l with miss := none })) ∧
    (∀ who w wb len, s.msg? msg = some (.wbAck h l wb) → s.meOf key = some who → (s.ctx key).wait = some w →
      w.block = .acks [wb] → w.cont.prog = [.adv len] → w.cont.reg = none → (s.core (holderCore h)).log.en = false →
      (s.ctx key).migrating = false →
      s.waiters (fun _ w => match w.block with
        | .acks wbs => wbs.filter (· ≠ wb) = []
        | .unmap _ _ => true
        | _ => false) = [key] → thas s.ctxs key = true → (s.ctxs.map Prod.fst).Pairwise (· < ·) → who.key = key →
      ∃ t, exec (.memoryReply msg) s = .next t ∧ t.waitOf key = none ∧
        t.pc who.base = s.pc who.base + BitVec.ofNat 64 len ∧
        ((s.copy h l).tokens ≠ 0 → (s.copy h l).evicting = some wb → t.copy h l = { s.copy h l with evicting := none }) ∧
        ((s.copy h l).evicting ≠ some wb → t.copy h l = s.copy h l)) ∧
    (∀ who core pt va acc, s.meOf key = some who → s.waitOf key = some (.walk core pt va acc) →
      canonicalVa va = false ∨ s.clusterTlb core pt va = none → s.walking key = false → ∃ t,
      exec (.walkComplete key) s = .next t ∧ t.mem = s.mem ∧ t.waitOf key = s.waitOf key) ∧
    (∀ who w va acc i rest, let pt := s.ptroot who.base
      s.meOf key = some who → (s.ctx key).wait = some w → w.block = .walk who.core pt va acc → canonicalVa va = true →
      (s.ctx key).migrating = false → s.tlbHit who.core pt va = none → (s.core who.core).log.en = false →
      w.cont.prog = [] ∨ w.cont.prog = .xlate i :: rest →
      let goesOn := fun (u : State) => if w.cont.prog = [] then u.clearWait key else resume false key u
      let enters := fun (from' : State) (leaf : Leaf) => ∃ u, exec (.walkComplete key) s =
          .next (pumpWalks (dieOf who.core) (goesOn u)) ∧ u.tlbHit who.core pt va = some leaf ∧
        u.clusterTlb who.core pt va = some leaf ∧ u.mem = from'.mem ∧ u.waitOf key = s.waitOf key
      (∀ leaf, s.clusterTlb who.core pt va = some leaf → enters s leaf) ∧
      (s.clusterTlb who.core pt va = none → s.walking key = true →
        (∀ fin, s.walkSharers { core := who.core, pt := pt, va := va, acc := acc } fin = [key]) →
        let r := walk s (s.partOf who.core) (dieOf who.core) pt (va % 2 ^ 57)
        let read := noteRead who.base (s.walkVt who.core pt va) s
        let addr := if w.cont.prog = [] then (s.pc who.base).toNat else va
        let kind := if w.cont.prog = [] then accFetch else acc
        let waits := fun (t : State) => exec (.walkComplete key) s = .next t ∧ t.mem = s.mem ∧ t.waitOf key = s.waitOf key
        (r.fin = .held → ∃ t, waits t) ∧
        (∀ line k, r.fin = .snoop line k →
          (s.gtOf who.core < w.since + 1000000 → ∃ t, waits t ∧
            (if k = 0 then (t.line line).snoop0 else (t.line line).snoop1).isSome = true) ∧
          (∀ t0 inval, (if k = 0 then (s.line line).snoop0 else (s.line line).snoop1) = some (t0, inval) →
            max w.since t0 + 1000000 ≤ s.gtOf who.core → w.cont.committed = false → w.cont.prog = [] →
            ∃ t, exec (.walkComplete key) s = .next t ∧
              TrapOr s t who { cause := .timeout, addr := addr, acc := kind, info0 := line * 128 + 64 * k })) ∧
        (∀ e a lv, acc ≠ accWalk → r.fin = .fault e a lv → ∃ t, exec (.walkComplete key) s = .next t ∧
          TrapOr read t who { cause := .page, addr := addr, acc := kind, level := lv, info0 := e, info1 := a }) ∧
        (∀ a, r.fin = .lost a → w.cont.prog = [] → ∃ t, exec (.walkComplete key) s = .next t ∧
          TrapOr read t who (s.mchk addr a accWalk)) ∧
        (∀ leaf, r.fin = .leaf leaf → enters read leaf)))

/-- R65, R68, R76, R271: a drift trip drops the leased copies of its die and marks their lines; the detector recovers
after 1 us within 4 ns; the time of a trip is the die's own; a resynchronised counter is stepped forward or waits; a
snoop without a response for 1 ms raises `#TIMEOUT`; the acknowledgements of writes to and from peers.
The model's own choices or readings behind it: assumption log 25, 28. -/
def Obligations.DriftAndPeers : Prop :=
  ∀ (s : State) (die msg : Nat),
    let d := s.die die
    (d.tripped = none → ∃ t, exec (.driftCheck die) s = .next t ∧ t.die die = d ∧ t.mem = s.mem) ∧
    (d.tripped ≠ none → ∃ t, exec (.driftCheck die) s = .next t ∧ t.mem = s.mem ∧ t.die die =
      { d with backSince := if s.drift die ≤ 4 then some (d.backSince.getD s.refGt) else none }) ∧
    (s.drift die ≤ 16 ∨ d.tripped ≠ none → exec (.driftTrip die) s = .next s) ∧
    (16 < s.drift die → d.tripped = none → ∃ t, exec (.driftTrip die) s = .next t ∧
      (t.die die).tripped = some s.refGt ∧ (t.die die).tripGt = d.gt ∧ (t.die die).gt = d.gt ∧
      (∀ e ∈ s.leasedCopies die, e.2 ∈ (t.die die).marked) ∧ (∀ l ∈ d.marked, l ∈ (t.die die).marked) ∧
      ((∀ k, ((tget s.copies k).map Prod.fst).Pairwise (· < ·)) →
        ∀ e ∈ s.leasedCopies die, (t.copy e.1 e.2).lease = none)) ∧
    (∀ t0 t1, d.tripped = some t0 → d.backSince = some t1 →
      (4 < s.drift die ∨ s.refGt < t1 + 1000 → exec (.driftRecovery die) s = .next s) ∧
      (s.drift die ≤ 4 → t1 + 1000 ≤ s.refGt →
        exec (.driftRecovery die) s = .next (s.setDie die { d with tripped := none, backSince := none }))) ∧
    (d.tripped = none → exec (.gtResync die) s = .next s) ∧
    (d.tripped ≠ none → ∃ t, exec (.gtResync die) s = .next t ∧ t.gt die = max d.gt s.refGt ∧
      ((t.die die).waits = true ↔ s.refGt < d.gt) ∧ (t.die die).running = true ∧ t.mem = s.mem) ∧
    (∀ key who w l k since, Memory.wf s.mem = true → s.meOf key = some who → (s.ctx key).wait = some w →
      w.block = .snoop l k since →
      (w.cont.committed = true ∨ s.gtOf who.core < since + 1000000 → exec (.snoopTimeout key) s = .next s) ∧
      (∀ e rest, w.cont.committed = false → since + 1000000 ≤ s.gtOf who.core → w.cont.prog = .perform 0 :: rest → w.cont.elems = [e] →
        ∃ t, exec (.snoopTimeout key) s = .next t ∧
          TrapOr s t who { cause := .timeout, addr := e.va, acc := w.cont.op.acc, info0 := l * 128 + 64 * k })) ∧
    (s.msg? msg = some (.peerAck 0) → ∃ t, exec (.peerWriteAck msg) s = .next t ∧ t.msg? msg = none ∧ t.mem = s.mem ∧
      ∀ cl ch, (t.chan cl ch).ops = (s.chan cl ch).ops.map (fun o => { o with peers := o.peers.filter (· ≠ msg) })) ∧
    (∀ key, key ≠ 0 → s.msg? msg = some (.peerAck key) →
      s.waiters (fun k w => k = key && (match w.block with | .peerAcks _ => true | _ => false)) = [] →
      ∃ t, exec (.peerWriteAck msg) s = .next t ∧ t.msg? msg = none ∧ t.mem = s.mem ∧
        (t.ctx key).peerWrites = (s.ctx key).peerWrites.filter (· ≠ msg)) ∧
    (∀ peer vt, s.msg? msg = some (.peerDone peer die vt) →
      (s.gt die < vt → exec (.peerWriteAck msg) s = .next s) ∧
      (vt ≤ s.gt die → ∃ t, exec (.peerWriteAck msg) s = .next t ∧ t.msg? msg = none ∧
        t.dev.peerAcks = (peer, s.gt die) :: s.dev.peerAcks ∧ t.mem = s.mem))

/-! ### Debug, resets and power (R12, R31, R65, R256, R262, R268 to R283) -/

/-- R274 to R283, R11: a running cluster halts when it is told to or triggered, driving the cross-trigger where its XOUT
is set; it has halted once its work has settled, and resumes with its held beats applied and its times not counted; the
log starts at its area; an accounting counter is read and cleared; a droop sample holds the time and the last PCs of its
32 cores; a register of the window is written, and HALT and RESUME read as zero.
The model's own choices or readings behind it: assumption log 44, 46. -/
def Obligations.DebugResults : Prop :=
  ∀ (s : State) (cl core : Nat), Memory.wf s.mem = true →
    let g := (s.cluster cl).dbg
    let halts := fun (i : Instr) => ∃ t, exec i s = .next t ∧ t.mem = s.mem ∧
      (t.cluster cl).dbg = { g with state := 1, haltedAt := s.gtOf (cl * 8), trigger := false } ∧
      (g.xout = true → ∀ c ∈ t.clusters, c.1 ≠ cl → c.2.dbg.xin = true → c.2.dbg.state = 0 → c.2.dbg.trigger = true) ∧
      (g.xout = false → ∀ c ∈ t.clusters, c.1 ≠ cl → c ∈ s.clusters)
    (g.state ≠ 0 → exec (.dbgctlHalt cl) s = .next s) ∧ (g.state = 0 → halts (.dbgctlHalt cl)) ∧
    (g.trigger = false → exec (.crossTrigger cl) s = .next s) ∧
    (g.trigger = true → g.state = 0 → halts (.crossTrigger cl)) ∧
    (g.trigger = true → g.state ≠ 0 → ∃ t, exec (.crossTrigger cl) s = .next t ∧ t.mem = s.mem ∧
      (t.cluster cl).dbg = { g with trigger := false }) ∧
    (g.state ≠ 1 ∨ s.settled cl = false → exec (.haltSettled cl) s = .next s) ∧
    (g.state = 1 → s.settled cl = true → ∃ t, exec (.haltSettled cl) s = .next t ∧ t.mem = s.mem ∧
      (t.cluster cl).dbg = { g with state := 2 }) ∧
    (g.state ≠ 2 → exec (.dbgctlResume cl) s = .next s) ∧
    (g.state = 2 → s.waiters (fun _ w => w.block = .halted cl) = [] →
      let beats := s.heldBeats.filter (fun m => s.beatCluster m.body = some cl)
      let kept := s.heldBeats.filter (fun m => s.beatCluster m.body ≠ some cl)
      (beats = [] → ∃ t, exec (.dbgctlResume cl) s = .next t ∧ t.mem = s.mem ∧ (t.cluster cl).dbg.state = 0 ∧
        t.heldBeats = kept ∧ ∀ j, thas (s.cluster cl).teams j = true →
          (t.team cl j).placed = (s.team cl j).placed + (s.gtOf (cl * 8) - g.haltedAt)) ∧
      (∀ id pa v src, beats = [{ id := id, body := .fill pa v src }] → regionOf pa = .local (cl * 8) → s.feWaiters pa = [] →
        (s.core (cl * 8)).log.en = false →
        ∃ t, exec (.dbgctlResume cl) s = .next t ∧ t.rd pa 8 = v % 2 ^ 64 ∧ t.isFull pa = true ∧ Keeps s t [(pa, 8)] ∧
        t.heldBeats = kept ∧ (t.cluster cl).dbg.state = 0) ∧
      (∀ id dect ts sender, beats = [{ id := id, body := .decr dect ts sender }] → dectCore dect = cl * 8 →
        let a := localPa (cl * 8) (dectOff dect)
        1 < s.rd a 4 → ∃ t, exec (.dbgctlResume cl) s = .next t ∧ t.rd a 4 = s.rd a 4 - 1 ∧ Keeps s t [(a, 8)] ∧
          t.heldBeats = kept ∧ (t.cluster cl).dbg.state = 0)) ∧
    (∀ v : Word, ∃ t, exec (.nilogEnable core v) s = .next t ∧ exec (.registerWrite (.nilog core) v) s = .next t ∧
      t.mem = s.mem ∧ (t.core core).log = {
        base := bits v.toNat 12 40 * 4096, size := min (bits v.toNat 2 5) 14,
        ovf := (s.core core).log.ovf && !bit v.toNat 1, en := bit v.toNat 0,
        seq := if bit v.toNat 0 then 0 else (s.core core).log.seq }) ∧
    (∀ r ∈ [(AcctReg.waitns, fun (c : Core) => c.waitns), (.runns, fun c => c.runns), (.searchns, fun c => c.searchns),
        (.stealfail, fun c => c.stealfail), (.stealok, fun c => c.stealok)],
      ∃ t, exec (.accountingCounterRead core r.1) s = .next t ∧ r.2 (t.core core) = 0 ∧
        t.dev.hostData = r.2 (s.core core) :: s.dev.hostData ∧ t.mem = s.mem) ∧
    (∀ die det, let d := s.die die
      (6 ≤ det ∨ (tget d.droopLast det ≠ 0 ∧ s.gt die + 1 < tget d.droopLast det + 10000) →
        exec (.droopTrip die det) s = .next s) ∧
      (die < 2 → det < 6 → (tget d.droopLast det = 0 ∨ tget d.droopLast det + 10000 ≤ s.gt die + 1) →
        d.droopArea % 128 = 0 → d.droopArea + 384 ≤ 4 * quarterBytes → (∀ i, i < 3 →
          let x := s.line (d.droopArea / 128 + i)
          x.owner = true ∧ x.tokens = 512 ∧ x.half0 = .hi ∧ x.half1 = .hi) →
        ∃ t, exec (.droopTrip die det) s = .next t ∧ Keeps s t [(d.droopArea, 272)] ∧
          t.rd d.droopArea 8 = s.gt die % 2 ^ 64 ∧ tget (t.die die).droopLast det = s.gt die + 1 ∧
          ∀ i, i < 32 → t.rd (d.droopArea + 16 + 8 * i) 8 = (s.core ((24 * die + 4 * det) * 8 + i)).lastPc % 2 ^ 64)) ∧
    (∀ (v : Word) (die : Nat),
      (∃ t, exec (.registerWrite (.lease die) v) s = .next t ∧ t.mem = s.mem ∧
        (t.die die).lease = max 256 (min (v.toNat % 2 ^ 17) 65536)) ∧
      (∃ t, exec (.registerWrite (.coreReg core .lease) v) s = .next t ∧
        t.windowReg (.coreReg core .lease) = max 256 (min (v.toNat % 2 ^ 17) 65536)) ∧
      (∃ t, exec (.registerWrite (.droopArea die) v) s = .next t ∧ (t.die die).droopArea = v.toNat) ∧
      (∃ t, exec (.registerWrite (.coreReg core .pushq) v) s = .next t ∧ (t.core core).quota = min (v.toNat % 2 ^ 7) 64) ∧
      (∃ t, exec (.registerWrite (.coreReg core .pushref) v) s = .next t ∧ (t.core core).pushref = v.toNat % 2 ^ 32) ∧
      (∃ t, exec (.registerWrite (.coreReg core .rtab0) v) s = .next t ∧ (t.core core).rtab0 = v) ∧
      (bit v.toNat 1 = false → ∃ t, exec (.registerWrite (.dbgctl cl) v) s = .next t ∧
        (t.cluster cl).dbg.xin = bit v.toNat 5 ∧ (t.cluster cl).dbg.xout = bit v.toNat 4 ∧
        (t.cluster cl).dbg.brkclaim = bit v.toNat 3 ∧
        (t.cluster cl).dbg.state = (if bit v.toNat 0 && g.state = 0 then 1 else g.state) ∧
        bits (t.windowReg (.dbgctl cl)) 0 3 = 0 ∧ bits (t.windowReg (.dbgctl cl)) 3 3 = bits v.toNat 3 3 ∧
        bits (t.windowReg (.dbgctl cl)) 6 2 = (t.cluster cl).dbg.state % 4) ∧
      (∀ off, ∃ t, exec (.registerWrite (.localWord core off) v) s = .next t ∧ t.rd (localPa core off) 8 = v.toNat ∧
        Keeps s t [(localPa core off, 8)]))

/-- R12, R31, R256, R262, R268, R272, R273: what the resets of each unit leave, the loss of a line, the scrub's count, the
training of the host link, the throttle level by power and heat, and the alarms.
The model's own choices or readings behind it: assumption log 9, 49. -/
def Obligations.ResetAndPowerResults : Prop :=
  ∀ (s : State),
    let d := s.dev
    (∀ l, (∀ q, regionOf (l * 128) = .hbm q →
        (∃ t n, exec (.scrubVisit l) s = .next t ∧ n < 2 ∧ t.mem = s.mem ∧
          (t.bank (s.bankOf (l * 128))).corrected = (s.bank (s.bankOf (l * 128))).corrected + n) ∧
        ∃ t, exec (.uncorrectableError l) s = .next t ∧ (t.line l).lost = true ∧ t.mem = s.mem ∧
          (t.line l).tokens = (s.line l).tokens) ∧
      (∀ g, regionOf (l * 128) = .local g → exec (.scrubVisit l) s = .next s ∧
        ∃ t, exec (.uncorrectableError l) s = .next t ∧ l ∈ t.lostLocal ∧ t.mem = s.mem)) ∧
    (∀ g, (384 ≤ g → exec (.coreReset g) s = .next s) ∧
      (g < 384 → ∃ t n, exec (.coreReset g) s = .next t ∧ t.core g = { rotBase := n, lastIssue := n } ∧
        ∀ k, k < 16 → (t.slot (g * 16 + k)).v = false ∧ (t.slot (g * 16 + k)).withheld = false ∧
          (t.slot (g * 16 + k)).block = none)) ∧
    (∀ cl, (48 ≤ cl → exec (.clusterReset cl) s = .next s) ∧
      (cl < 48 → s.ctxs = [] → (∀ c ∈ (s.cluster cl).chans, ∀ o ∈ c.2.ops, o.command = none) →
        ∃ t, exec (.clusterReset cl) s = .next t ∧ t.cluster cl = { s.cluster cl with
          rdv := [], chans := [], tls := [], dbg := {}, tlb := [],
          teams := (s.cluster cl).teams.map (fun x => (x.1, { x.2 with afnext := 0, aflim := 0 })),
          gov := { (s.cluster cl).gov with lastMove := [], eosHeld := [] } } ∧
        t.quad (2 * cl) = {} ∧ t.quad (2 * cl + 1) = {} ∧ ∀ m ∈ t.heldBeats, s.beatCluster m.body ≠ some cl)) ∧
    (∀ p, ∃ t, exec (.partitionReset p) s = .next t ∧ (t.part p).launches = [] ∧ (t.part p).waiting = [] ∧
      (t.part p).fatal = [] ∧ ∀ c ∈ t.clusters, t.partOf (c.1 * 8) = p → c.2.teams = [] ∧ c.2.gov = {}) ∧
    (∃ t, exec .deviceReset s = .next t ∧ t.cores = [] ∧ t.slots = [] ∧ t.quads = [] ∧ t.clusters = [] ∧ t.ctxs = [] ∧
      t.parts = [] ∧ t.dies = [] ∧ t.copies = [] ∧ t.banks = [] ∧ t.net = [] ∧ t.fe = [] ∧ t.refGt = 0 ∧ t.cycle = 0 ∧
      t.dev.qcfg = 4 ∧ t.dev.bring = true ∧ t.dev.baloff = false ∧ t.dev.thr = 0 ∧ t.dev.seca = false ∧
      (s.copies = [] → s.net = [] → t.mem = s.mem ∧ t.dev.idgone = d.idgone ∧ t.dev.cxlen = d.cxlen)) ∧
    (∀ b, ∃ t, exec (.powerOn b) s = .next t ∧ t.mem = [] ∧ t.ctxs = [] ∧ t.cores = [] ∧ t.lines = [] ∧ t.dev.cxlen = b ∧
      t.dev.cxl = b ∧ t.dev.idgone = d.idgone ∧ t.dev.bring = true ∧ t.dev.powered = true) ∧
    exec .linkTraining s = .next { s with dev := { d with trained := true, trainedCxl := d.cxlen, cxl := d.cxlen } } ∧
    (∀ w : Nat, ∃ t, exec (.powerSample w) s = .next t ∧ t = { s with dev := t.dev } ∧
      (3400 < w → t.dev.lowSince = none ∧
        (d.highSince = none → t.dev.thr = d.thr ∧ t.dev.highSince = some s.refGt) ∧
        ∀ t0, d.highSince = some t0 →
          (s.refGt < t0 + 100000 → t.dev.thr = d.thr ∧ t.dev.highSince = some t0) ∧
          (t0 + 100000 ≤ s.refGt → t.dev.thr.toNat = min (d.thr.toNat + 1) 3 ∧ t.dev.highSince = some s.refGt)) ∧
      (3200 ≤ w → w ≤ 3400 → t.dev = { d with highSince := none, lowSince := none }) ∧
      (w < 3200 → t.dev.highSince = none ∧
        (d.lowSince = none → t.dev.thr = d.thr ∧ t.dev.lowSince = some s.refGt) ∧
        ∀ t0, d.lowSince = some t0 →
          (s.refGt < t0 + 1000000 → t.dev.thr = d.thr ∧ t.dev.lowSince = some t0) ∧
          (t0 + 1000000 ≤ s.refGt → t.dev.lowSince = some s.refGt ∧
            t.dev.thr.toNat = if s.hot then d.thr.toNat else d.thr.toNat - 1))) ∧
    (∀ die c : Nat, ∃ t, exec (.thermalLimit die c) s = .next t ∧ (t.die die).hot = decide (105 ≤ c) ∧
      t.dev.thr = (if 105 ≤ c then 3 else d.thr) ∧ t.dev.powered = (if 115 ≤ c then false else d.powered) ∧
      t.mem = s.mem) ∧
    exec .securityAlarm s = .next { s with dev := { d with
      keys := false, seca := true, alarms := d.alarms + 1, idgone := d.idgone || d.seca } }

/-! ### The host, peers and commands (R66 to R68, R76, R219, R259, R262, R265 to R272) -/

/-- R66 to R68, R76, R262: reads and writes of HBM by the host and by peers perform at the home; under CXL a read leaves
the half shared, an ownership request leaves it exclusive with all 512 tokens at the home, a response to a snoop merges
dirty data and frees the half; a snoop of a cached host line brings all its tokens and its current value to the bridge.
The model's own choices or readings behind it: assumption log 9, 23, 27, 28, 55. -/
def Obligations.HostAndPeerAccess : Prop :=
  ∀ (s : State) (addr n peer : Nat) (data : List Byte), Memory.wf s.mem = true →
    let l := addr / 128
    let x := s.line l
    let k := addr % 128 / 64
    let rests := x.owner = true ∧ x.tokens = 512
    let free := x.half0 = .hi ∧ x.half1 = .hi
    let quiet := x.active = none ∧ x.lost = false
    let inLine := fun (m : Nat) => 0 < m ∧ addr % 128 + m ≤ 128 ∧ addr + m ≤ 4 * quarterBytes
    let room := s.dev.snoopers.contains l = true ∨ s.dev.snoopers.length < 65536
    (s.hostSees addr n = false → exec (.hostRead addr n) s = .next s) ∧
    (s.hostSees addr n = true → inLine n → x.owner = true → quiet →
      (s.dev.trainedCxl = false → ∃ t, exec (.hostRead addr n) s = .next t ∧
        t.dev.hostData = s.rd addr n :: s.dev.hostData ∧ t.mem = s.mem ∧ t.net = s.net) ∧
      (s.dev.trainedCxl = true → addr % 64 + n ≤ 64 → room → x.half k = .hi → 2 ≤ x.tokens → s.holders l = [] →
        ∃ t, exec (.hostRead addr n) s = .next t ∧ t.dev.hostData = s.rd addr n :: s.dev.hostData ∧ t.mem = s.mem ∧
          (t.line l).half k = .hs ∧ (t.line l).half (1 - k) = x.half (1 - k) ∧ t.dev.snoopers.contains l = true)) ∧
    (s.hostSees addr data.length = false → exec (.hostWrite addr data) s = .next s) ∧
    (s.hostSees addr data.length = true → inLine data.length → rests → ∃ t, exec (.hostWrite addr data) s = .next t ∧
      t.rd addr data.length = leNat data ∧ Keeps s t [(addr, data.length)] ∧
      (t.line l).stamp = { vt := s.writeVt l, ctx := 0, region := 0 }) ∧
    (∀ h, (s.dev.trainedCxl = false ∨ 1 < h → exec (.hostOwnershipRequest l h) s = .next s) ∧
      (s.dev.trainedCxl = true → h ≤ 1 → l * 128 + 128 ≤ 4 * quarterBytes → room → rests → x.active = none → s.holders l = [] →
        ∃ t, exec (.hostOwnershipRequest l h) s = .next t ∧ (t.line l).half h = .he ∧ (t.line l).tokens = 512 ∧
          (t.line l).owner = true ∧ t.mem = s.mem)) ∧
    (∀ h dirty, h ≤ 1 → let sn := if h = 0 then x.snoop0 else x.snoop1
      (sn = none → exec (.backInvalidateResponse l h dirty) s = .next s) ∧
      (∀ t0 inval, sn = some (t0, inval) → l * 128 + 128 ≤ 4 * quarterBytes → rests → s.snoopOver = [] → x.prefs = [] →
        s.waiters (fun _ w => match w.block with | .snoop l' k' _ => l' = l && k' = h | _ => false) = [] →
        ∃ t, exec (.backInvalidateResponse l h dirty) s = .next t ∧
          (t.line l).half h = (if x.half h = .he ∧ inval = false then .hs else .hi) ∧
          (if h = 0 then (t.line l).snoop0 else (t.line l).snoop1) = none ∧
          (dirty = none ∨ x.half h ≠ .he → t.mem = s.mem) ∧
          (∀ d, dirty = some d → d.length = 64 → x.half h = .he → t.rd (l * 128 + 64 * h) 64 = leNat d ∧
            Keeps s t [(l * 128 + 64 * h, 64)])) ∧
      (∀ t0 inval pa m v, sn = some (t0, inval) → l * 128 + 128 ≤ 4 * quarterBytes → rests → x.prefs = [] →
        s.snoopOver = [(pa, m, v)] → pa / 64 = l * 2 + h → 0 < m → pa % 64 + m ≤ 64 → dirty = none →
        s.waiters (fun _ w => match w.block with | .snoop l' k' _ => l' = l && k' = h | _ => false) = [] →
        ∃ t, exec (.backInvalidateResponse l h dirty) s = .next t ∧ t.snoopOver = [] ∧ t.rd pa m = v % 2 ^ (8 * m) ∧
          Keeps s t [(pa, m)])) ∧
    (∀ pa m v, l = pa / 128 → 0 < m → pa % 64 + m ≤ 64 → pa + m ≤ 4 * quarterBytes → x.mustSnoop (pa % 128 / 64) true = true →
      let t := hwWrite pa m v s
      t.mem = s.mem ∧ t.snoopOver = s.snoopOver ++ [(pa, m, v % 2 ^ (8 * m))] ∧
        (if pa % 128 / 64 = 0 then (t.line l).snoop0 else (t.line l).snoop1).isSome = true) ∧
    (regionOf (l * 128) = .host → x.active = none → ∃ t, exec (.hostSnoop l) s = .next t ∧ (t.line l).owner = true ∧
      (t.line l).tokens = 512 ∧ t.rd (l * 128) 128 = (s.lineValue l).1 % 2 ^ 1024) ∧
    ((∀ q, regionOf (l * 128) = .hbm q → exec (.hostSnoop l) s = .next s)) ∧
    (inLine n → x.owner = true → quiet →
      ((snoopRange addr n false s).1 = true → ∃ t, exec (.peerRead peer addr n) s = .next t ∧
        t.dev.hostData = s.rd addr n :: s.dev.hostData ∧ t.mem = s.mem ∧ t.net = s.net) ∧
      ((snoopRange addr n false s).1 = false → exec (.peerRead peer addr n) s = .next (snoopRange addr n false s).2)) ∧
    (inLine data.length →
      ((snoopRange addr data.length true s).1 = false →
        exec (.peerWrite peer addr data) s = .next (snoopRange addr data.length true s).2) ∧
      (rests → free → ∃ t, exec (.peerWrite peer addr data) s = .next t ∧
        t.rd addr data.length = leNat data ∧ Keeps s t [(addr, data.length)] ∧
        t.net = s.net ++ [{ id := s.nextId, body := .peerDone peer (s.homeDie addr) (s.writeVt l) }]))

/-- R219, R221, R259, R262, R265 to R272: a queue with no image to switch to takes up the command at its head; an
invalid one, or one whose conditions fail, completes at once with its status; each other command has its effect and
completes with status 0 as its rule says. The layout of a command's arguments is the model's (assumption log 10).
The model's own choices or readings behind it: assumption log 10, 41, 45, 50. -/
def Obligations.CommandResults : Prop :=
  ∀ (s : State) (p q a : Nat) (c : Cmd), s.cmdOf p q = some (a, c) → (s.queue p q).busy = none →
    snoopRange ((s.part p).qbase + 64 * q) 64 false s = (true, s) → snoopRange a 64 false s = (true, s) →
    (s.queue p q).switchTo = none →
    let u := takeUp p q a s
    let done := fun (i : Instr) (status : Nat) (v : State) => exec i s = .next (cmdDone p q status v)
    let rows : List (Nat × Instr) := [(1, .launch p q), (2, .copy p q), (3, .mapPageEntries p q), (3, .mapBar2Placement p q),
      (4, .unmap p q), (5, .fenceCommand p q), (6, .partition p q), (7, .dump p q), (8, .reset p q), (9, .attest p q),
      (10, .update p q)]
    (u.queue p q).busy = some a ∧
    (s.cmdInvalid c = true → ∀ r ∈ rows, done r.2 1 u) ∧
    (s.cmdInvalid c = false → (∀ r ∈ rows, c.op ≠ r.1 → exec r.2 s = .next s) ∧
      (c.op = 1 → let va := Config.launchHeader c.args
        let found := xlateChecked (p * 96) c.root true va accRead { rd := true } u
        (va % 128 ≠ 0 → done (.launch p q) 1 u) ∧
        (∀ c' w, va % 128 = 0 → found = (.trap c', w) → done (.launch p q) 4 w) ∧
        (∀ w, va % 128 = 0 → found = (.held, w) → exec (.launch p q) s = .next w) ∧
        ∀ l w v, va % 128 = 0 → found = (.ok l, w) → snoopRange (l.phys (va % 2 ^ 57)) 128 false w = (true, v) →
          let r := fwRead (l.phys (va % 2 ^ 57)) 128 v
          let h := r.curRead (l.phys (va % 2 ^ 57)) 128
          (r.headerOk p h = false → done (.launch p q) 1 r) ∧
          (r.headerOk p h = true →
            (createLaunch p (launchOf h c.root false 0 (some (q, 0))) r = none → exec (.launch p q) s = .next r) ∧
            ∀ ln w, createLaunch p (launchOf h c.root false 0 (some (q, 0))) r = some (ln, w) →
              exec (.launch p q) s = .next (markStarted c w))) ∧
      (c.op = 2 → let issue := copyOf c.issuer 0 (Config.copyDescriptor c.args u.mem) u
        (∀ c' v, issue = (.trap c', v) → done (.copy p q) 4 v) ∧
        ∀ ch tl o v, issue = (.accept ch tl o, v) → (v.chan (p * 12) ch).ops.length < 16 →
          exec (.copy p q) s = .next (markStarted c (acceptOp (p * 12) ch tl o v))) ∧
      (∀ r ∈ [(3, Instr.mapPageEntries p q), (4, .unmap p q)], c.op = r.1 → (r.1 = 3 → Config.mapKind c.args = 0) →
        let es := Config.mapEntries c.args u.mem
        let placed := fun (e : Nat × Nat) => e.1 % 8 = 0 ∧ u.inPartHbm p e.1 8 = true
        ((∃ e ∈ es, ¬ placed e) → done r.2 1 u) ∧
        ((∀ m ∈ u.net, m.id < u.nextId) → (∀ e ∈ es, placed e) → ∃ t id, exec r.2 s = .next t ∧
          (t.queue p q).started = true ∧ (t.queue p q).tinvs = [id] ∧
          t.msg? id = some (.tinv id 0 p (Config.mapRange c.args).1 (Config.mapRange c.args).2.1
            (Config.mapRange c.args).2.2) ∧
          (Memory.wf u.mem = true → es.Pairwise (fun e f => e.1 ≠ f.1) →
            (∀ e ∈ es, let x := u.line (e.1 / 128)
              x.owner = true ∧ x.tokens = 512 ∧ x.half0 = .hi ∧ x.half1 = .hi ∧ x.active = none) →
            (∀ e ∈ es, t.rd e.1 8 = e.2 % 2 ^ 64) ∧ Keeps u t (es.map (fun e => (e.1, 8)))))) ∧
      (c.op = 3 → Config.mapKind c.args = 1 →
        (u.inPartHbm p (Config.bar2Base c.args) (2 ^ 36) = true →
          done (.mapBar2Placement p q) 0 { u with dev := { u.dev with bar2 := some (p, Config.bar2Base c.args) } }) ∧
        (u.inPartHbm p (Config.bar2Base c.args) (2 ^ 36) = false → done (.mapBar2Placement p q) 1 u)) ∧
      (c.op = 3 → 1 < Config.mapKind c.args → done (.mapBar2Placement p q) 1 u) ∧
      (c.op = 5 →
        let w := u.setQueue p q { u.queue p q with started := true, fenceFor := u.tails p q }
        (u.tails p q = [] → done (.fenceCommand p q) 0 w) ∧
        (∀ k head, u.tails p q = [(k, head)] →
          let ahead := (head + 2 ^ 32 - qbHead (w.qblock p k)) % 2 ^ 32
          (ahead = 0 → done (.fenceCommand p q) 0 w) ∧
          (0 < ahead → ahead ≤ 2 ^ 16 → exec (.fenceCommand p q) s = .next w))) ∧
      (c.op = 6 → (4 < Config.partMode c.args → done (.partition p q) 1 u) ∧
        (Config.partMode c.args ≤ 4 →
          let qs := affectedQuarters u.qmode (Config.partMode c.args)
          let olds := ((List.range 4).filter u.isPart).filter (fun p => qs.contains p)
          (olds.any (u.partBusy c) = true → done (.partition p q) 2 u) ∧
          (olds.any (u.partBusy c) = false → ∃ t, exec (.partition p q) s = .next t ∧
            t.dev.qcfg = BitVec.ofNat 3 (Config.partMode c.args) ∧
            (∀ p' k, t.isPart p' = true → qs.contains p' = true → k < 16 → (t.queue p' k).image = u.dev.patch) ∧
            (qs.contains p = true → Memory.wf u.mem = true → ∀ pa k, regionOf pa = .hbm k → qs.contains k = true →
              (pa < qbField c.entry 8 8 ∨ qbField c.entry 8 8 + 16 ≤ pa) → mget t.mem pa = 0)))) ∧
      (c.op = 7 → done (.dump p q) 0 (u.modPart p (fun x => { x with
        dumpArea := some ((Config.dumpArea c.args).1, (Config.dumpArea c.args).2, c.root), dumpNext := 0 }))) ∧
      (c.op = 8 → let r := Config.resetArg c.args
        (r.1 = 2 → r.2 < 384 → u.partOf r.2 = p → done (.reset p q) 0 (resetCore .reset r.2 u)) ∧
        (r.1 = 3 → r.2 < 48 → u.partOf (r.2 * 8) = p → done (.reset p q) 0 (resetCluster .reset r.2 u)) ∧
        (r.1 = 4 → r.2 = p → done (.reset p q) 0 (resetPartition p u)) ∧
        (r.1 = 5 → exec (.reset p q) s = .next (cmdRecord p 0 c.blk c.entry (resetDevice u))) ∧
        (r.1 < 2 ∨ 5 < r.1 → done (.reset p q) 1 u)) ∧
      (c.op = 9 →
        (u.dev.seca = true ∨ u.dev.idgone = true → done (.attest p q) 3 u) ∧
        (u.dev.seca = false → u.dev.idgone = false →
          let g := Config.attestArg c.args
          let r := Config.attestReport (u.queue p q).running.measure (u.queue p q).running.version u.dev.qcfg.toNat g.2
          exec (.attest p q) s = .next (finishCmd c 0 (markStarted c (cmdWrite c g.1 r.length (leNat r) u))))) ∧
      (c.op = 10 →
        let g := Config.updateArg c.args
        (u.dev.idgone = true → done (.update p q) 3 u) ∧
        (u.dev.idgone = false → u.dev.staging.isSome = true → done (.update p q) 2 u) ∧
        (u.dev.idgone = false → u.dev.staging = none → 2 ^ 23 < g.2 → done (.update p q) 1 u) ∧
        (u.dev.idgone = false → u.dev.staging = none → g.2 ≤ 2 ^ 23 →
          snoopRange g.1 (g.2 + Config.signatureBytes) false u = (true, u) →
          let r := fwRead g.1 (g.2 + Config.signatureBytes) u
          let image := readPhys r (g.2 / 128 + 2) g.1 g.2
          let sig := readPhys r (Config.signatureBytes / 128 + 2) (g.1 + g.2) Config.signatureBytes
          let good := Config.xmssVerify image sig = true ∧ Config.minVersion ≤ Config.imageVersion image
          (¬ good → done (.update p q) 3 r) ∧
          (good → ∃ t, exec (.update p q) s = .next t ∧
            t.dev.staging = some (p, q) ∧ ∀ k ∈ u.allQueues, (t.queue k.1 k.2).switchTo =
              some { version := Config.imageVersion image, measure := Config.shake256 image }))))

/-- R265 to R267: the completion of a command writes its record, sends its vector and moves HEAD past it; a doorbell
moves TAIL; a queue switches its firmware image at a command boundary, in ascending number but for the queue of the
`UPDATE` itself; a queue with no command at its head does nothing.
The model's own choices or readings behind it: assumption log 50. -/
def Obligations.QueueResults : Prop :=
  ∀ (s : State) (p q : Nat), Memory.wf s.mem = true →
    let block := (s.part p).qbase + 64 * q
    let homed := fun (pa n : Nat) => 0 < n ∧ pa % 128 + n ≤ 128 ∧ pa + n ≤ 4 * quarterBytes ∧
      (s.line (pa / 128)).owner = true ∧ (s.line (pa / 128)).tokens = 512 ∧ (s.line (pa / 128)).half0 = .hi ∧
      (s.line (pa / 128)).half1 = .hi
    let b := s.rd block 64
    (snoopRange block 64 false s = (true, s) → s.cmdOf p q = none → ∀ i ∈ [Instr.launch p q, .copy p q, .mapPageEntries p q, .mapBar2Placement p q, .unmap p q,
      .fenceCommand p q, .partition p q, .dump p q, .reset p q, .attest p q, .update p q], exec i s = .next s) ∧
    (∀ tail, (s.isPart p = false ∨ 16 ≤ q → exec (.doorbell p q tail) s = .next s) ∧
      (s.isPart p = true → q < 16 → block % 64 = 0 → homed block 64 → ∃ t, exec (.doorbell p q tail) s = .next t ∧
        t.rd (block + 16) 4 = tail % 2 ^ 32 ∧ Keeps s t [(block + 16, 4)])) ∧
    (∀ a status, (s.queue p q).busy = some a → block % 64 = 0 → homed block 64 → homed a 64 →
      let e := s.rd a 64
      let cqa := qbField e 8 8
      homed cqa 16 → (cqa + 16 ≤ block ∨ block + 64 ≤ cqa) → status < 2 ^ 32 →
      let t := cmdDone p q status s
      t.rd cqa 4 = qbField e 4 4 ∧ t.rd (cqa + 4) 4 = status ∧ t.rd (cqa + 8) 8 = s.gt (p / 2) % 2 ^ 64 ∧
        t.rd (block + 12) 4 = (qbField b 12 4 + 1) % 2 ^ 32 ∧ t.dev.msix = qbField b 20 4 :: s.dev.msix ∧
        (t.queue p q).busy = none ∧ Keeps s t [(cqa, 16), (block + 12, 4)]) ∧
    ((s.queue p q).switchTo = none → exec (.imageSwitch p q) s = .next s) ∧
    (∀ fw, (s.queue p q).switchTo = some fw →
      ((s.queue p q).busy ≠ none → exec (.imageSwitch p q) s = .next s) ∧
      ((s.queue p q).busy = none → (∀ k, k < q → (s.queue p k).switchTo = none ∨ s.dev.staging = some (p, k)) →
        exec (.imageSwitch p q) s = .next (s.setQueue p q { s.queue p q with image := some fw, switchTo := none })))

/-! ### The machine as a whole -/

/-- What reset leaves. By the spec: the device's mode and quarter registers (R34, R269), the push quota and the frame
count of a core (R59, R100), the rotation table that names slot `i mod 16` (R140), the lease length and the counters
(R62, R271), slots that hold nothing (R136), every line at its home with 512 tokens and the owner token (R49), no
message, no context, no launch and no team. The model's own choice (assumption log entries 1 to 9): memory with nothing
listed and every listed register at zero. The invariant of `Inv` holds. -/
def Obligations.ResetState : Prop :=
  let s := State.reset
  Inv s ∧ s.dev.qcfg = 4 ∧ s.dev.thr = 0 ∧ s.dev.seca = false ∧ s.dev.baloff = false ∧ s.dev.bring = true ∧
  s.refGt = 0 ∧ s.net = [] ∧ s.held = [] ∧ s.heldBeats = [] ∧ s.mem = [] ∧ s.fe = [] ∧ s.ctxs = [] ∧
  (∀ a n, s.rd a n = 0) ∧
  (∀ g, (s.core g).quota = 32 ∧ (s.core g).pushref = 0 ∧ (s.core g).frames = 64 ∧ (s.core g).rrEn = false ∧
    (∀ e, e < 32 → s.rtab g e = e % 16) ∧ ∀ w, (s.win g w).v = false) ∧
  (∀ k, (s.slot k).v = false ∧ (s.slot k).frame = 0 ∧ (s.slot k).block = none) ∧
  (∀ q, (s.quad q).owner = none ∧ (s.quad q).conf = 0 ∧ (s.quad q).active = {} ∧ (s.quad q).shadow = {} ∧
    (s.quad q).acc = [] ∧ (s.quad q).scaleQ = []) ∧
  (∀ cl, (s.cluster cl).teams = [] ∧ (s.cluster cl).dbg.state = 0 ∧ ∀ ch, (s.chan cl ch).status = 0) ∧
  (∀ die, (s.die die).gt = 0 ∧ (s.die die).lease = 4096 ∧ (s.die die).tripped = none) ∧
  (∀ l, (s.line l).tokens = 512 ∧ (s.line l).owner = true ∧ (s.line l).lost = false) ∧
  (∀ p, (s.part p).launches = [] ∧ (s.part p).waiting = []) ∧
  ∀ core slot, s.inRotation core slot = false

/-- R228, R285, R286, R296, R257, R314: a slot's turn runs the instruction that the bytes at its PC decode to, at the
state in which its block is fetched and the issue is noted; a pad word takes no turn, and fetch goes on behind it; bytes
that are no instruction raise `#ILL` with their first 64 bits; a fault of the fetch is raised; a named register word in a
lost line raises `#MCHK` at its place among the causes of the instruction, behind the `#PRIV` of a privileged one, but
for an entry of the Eland unit, whose registers are read at its grant; without a translation the slot waits for a walk; a
resumed borrower takes its slot and its workspace again first (R147). An event's turn is the meaning of its row, a
queue's that of the command at its head, and a core's turn in the model's own schedule the issue turn of the slot that the
rotation names; with no turn left the next part of the cycle follows, or the next cycle.
The model's own choices or readings behind it: assumption log 14, 37, 51. -/
def Obligations.StepRunsDecoded : Prop :=
  ∀ (s : State), s.dev.powered = true →
    (∀ core slot rest, s.agenda = .issue core slot :: rest →
      let v := { s with agenda := rest }
      let w := { v with turnCore := core, turnSlot := slot }
      let me := w.me
      let c := w.ctx me.key
      (v.inRotation core slot = false → step s = .next v) ∧
      (c.savedBorrow = none → c.savedBytes = none → w.borrowLost me.key = none ∧ reborrow core me.key w = some w) ∧
      (v.inRotation core slot = true →
        (∀ l, w.borrowLost me.key = some l →
          step s = .next ((fatalLost me.key core (l * 128) w).yieldTurns core me.slot)) ∧
        (w.borrowLost me.key = none → reborrow core me.key w = none → step s = .next w) ∧
        ∀ z, w.borrowLost me.key = none → reborrow core me.key w = some z →
          (∀ t, z.wsLost me.base [(offPc, 128)] = some t → step s = .next (trapEntry me t (noteTurn core slot z))) ∧
          (z.wsLost me.base [(offPc, 128)] = none →
            (∀ bs f i len, fetch me z = (.bytes bs, f) → decode bs = .ok (i, len) → i ≠ .pad →
              let u := noteIssue me f
              let late := (privileged i && !u.pl me.base) || isVectorOp i || isTensorOp i
              (late = true → step s = exec i u) ∧
              (late = false → u.lostFirst me.base i = none → u.lostLater me.base i = none → step s = exec i u) ∧
              (∀ t, late = false → u.lostFirst me.base i = some t → step s = .next (trapEntry me t u)) ∧
              (∀ t x, late = false → u.lostFirst me.base i = none → u.lostLater me.base i = some t →
                exec i (dropWords me.base i u) = .next x →
                (tookTrap me u x = true → step s = .next x) ∧
                (∀ y, tookTrap me u x = false → (x.ctx me.key).wait = some y → y.cont.checking = true →
                  step s = .next (x.setWait me.key { y with cont := { y.cont with reg := some t } })) ∧
                (tookTrap me u x = false → (∀ y, (x.ctx me.key).wait = some y → y.cont.checking = false) →
                  step s = .next (trapEntry me t u)))) ∧
            (∀ bs f e, fetch me z = (.bytes bs, f) → decode bs = .error e →
              step s = .next (trapEntry me { cause := .ill, info0 := (first64 bs).toNat } (noteIssue me f))) ∧
            (∀ bs f p bs' f' i len, fetch me z = (.bytes bs, f) → decode bs = .ok (.pad, 4) → exec .pad f = .next p →
              fetch me p = (.bytes bs', f') → decode bs' = .ok (i, len) → i ≠ .pad →
              (noteIssue me f').lostLater me.base i = none → (noteIssue me f').lostFirst me.base i = none →
              step s = exec i (noteIssue me f')) ∧
            (∀ t f, fetch me z = (.trap t, f) → step s = .next (trapEntry me t (noteTurn me.core (me.slot % 16) f))) ∧
            (∀ b f, fetch me z = (.wait b, f) → step s = .next (waitOn me b {} f))))) ∧
    (∀ i rest, s.agenda = .event i :: rest → isEvent i = true → step s = exec i { s with agenda := rest }) ∧
    (∀ p q rest, s.agenda = .command p q :: rest → step s = queueTurn p q { s with agenda := rest }) ∧
    (∀ core rest, s.agenda = [] → s.todo = core :: rest →
      let v := { s with todo := rest }
      (v.nextSlot core = none → step s = .next v) ∧
      (∀ slot, v.nextSlot core = some slot → step s = step { v with agenda := [.issue core slot] })) ∧
    (s.agenda = [] → s.todo = [] → ∃ t, step s = .next t ∧
      (s.closing < 2 → t.closing = s.closing + 1 ∧ t.cycle = s.cycle) ∧
      (2 ≤ s.closing → t.closing = 0 ∧ t.cycle = s.cycle + 1))

/-- R284, R286, R323, R324: the bytes from PC to the end of its aligned 32-byte block, from the block that the slot
holds, else through the instruction cache, which keeps what it holds and takes a missing line from its home; the slot
then holds the block. A PC that is no multiple of 4, or not canonical, a page without permission, and a lost line that
the cache does not hold raise their fault with access kind fetch; a half of a missing line that the host holds
exclusively is snooped first (R67) (a misaligned PC: the model's own reading, assumption log 21).
The model's own choices or readings behind it: assumption log 11, 21. -/
def Obligations.FetchResults : Prop :=
  ∀ (s : State) (me : Me),
    let pc := (s.pc me.base).toNat
    let blk := pc / 32 * 32
    let traps := fun (c : TrapInfo) => fetch me s = (.trap { c with addr := pc, acc := accFetch }, s)
    (pc % 4 ≠ 0 → traps { cause := .align, info0 := 4 }) ∧
    (pc % 4 = 0 →
      (∀ b, (s.slot me.slot).block = some (blk, b) →
        fetch me s = (.bytes ((natBytes 32 b.toNat).drop (pc % 32)), s)) ∧
      ((∀ b, (s.slot me.slot).block ≠ some (blk, b)) →
        (canonicalVa pc = false → traps { cause := .page }) ∧
        (canonicalVa pc = true →
          (s.tlbHit me.core (s.ptroot me.base) pc = none →
            fetch me s = (.wait (.walk me.core (s.ptroot me.base) pc accFetch), s)) ∧
          ∀ l, s.tlbHit me.core (s.ptroot me.base) pc = some l →
            let pa := l.phys blk
            let kept := (s.core me.core).icache.find? (fun e => e.1 = pa / 128)
            let block := fun (v : Nat) => v / 2 ^ (8 * (pa % 128 / 32 * 32)) % 2 ^ 256
            (l.permits { x := true } (s.pl me.base) = false → traps { cause := .prot }) ∧
            (l.permits { x := true } (s.pl me.base) = true →
              (∀ g, regionOf pa = .local g → clusterOf g ≠ clusterOf me.core → traps { cause := .prot }) ∧
              ((∃ q, regionOf pa = .hbm q) →
                (kept = none → (s.line (pa / 128)).lost = true → traps (s.mchk pc pa accFetch)) ∧
                (kept = none → (s.line (pa / 128)).lost = false →
                  let x := s.line (pa / 128)
                  let snoops := fun (k : Nat) => fetch me s =
                    (.wait (.snoop (pa / 128) k (s.gtOf me.core)), sendSnoop (pa / 128) k false s)
                  (x.half0 = .he → snoops 0) ∧ (x.half0 ≠ .he → x.half1 = .he → snoops 1) ∧
                  (x.half0 ≠ .he → x.half1 ≠ .he →
                    let v := s.homeData (pa / 128)
                    ∃ t, fetch me s = (.bytes ((natBytes 32 (block v)).drop (pc % 32)), t) ∧
                      ((s.core me.core).log.en = false → t.mem = s.mem) ∧
                      (t.slot me.slot).block = some (blk, BitVec.ofNat 256 (block v)) ∧
                      (t.core me.core).icache.head? = some (pa / 128, BitVec.ofNat 1024 v))) ∧
                (∀ e, kept = some e →
                  ∃ t, fetch me s = (.bytes ((natBytes 32 (block e.2.toNat)).drop (pc % 32)), t) ∧ t.mem = s.mem ∧
                    (t.slot me.slot).block = some (blk, BitVec.ofNat 256 (block e.2.toNat)) ∧
                    t.core me.core = s.core me.core))))))

/-- R284, R287 to R295: words written out from the spec's encodings decode to the instructions that they stand for, one
or two of every section of the opcode table. -/
def Obligations.DecodesWords : Prop :=
  ∀ p ∈ ([(8, 0x00000C0A000088C0, .ld .f32 2 (.reg 1) (.i24 12)), (8, 0x0000000A00311080, .scmp .f32 .lt 4 2 3),
      (8, 0x00000A0000020094, .bnz 4 (.i24 10)), (12, 0x7FFFFFFF0000000000003879, .li 14 (.i32 0x7FFFFFFF)),
      (8, 0x00002300008009B4, .vcmpm 2 0 8 3 4), (8, 0x00000000000000B0, .endT), (4, 0xFFFFFFFF, .pad),
      (8, 0x000000A860310500, .amo .add .n64 (.acqrel .dev) 1 2 3), (8, 0x0000000002010600, .tcfgClaim 1 2),
      (8, 0x000000000000822C, .cpy 1), (8, 0x000018000200829C, .hside true 1 24), (8, 0x00000000003106C0, .afnew 1 2 3),
      (8, 0x0000006000018304, .decr .clu 3), (8, 0x0000210000018334, .mtsAflim 3)] : List (Nat × Nat × Instr)),
    decode (natBytes p.1 p.2.1) = .ok (p.2.2, p.1)

/-- R284 to R296: for every well-formed instruction of the table that has an encoding, with every operand at every value
that its encoding admits, the bytes that the encoder gives decode to it, whatever follows them in the block. -/
def Obligations.EncodeDecode : Prop :=
  ∀ (i : Instr) (bs rest : List Byte), WellFormed i = true → encode i = some bs →
    decode (bs ++ rest) = .ok (i, bs.length) ∧ bs.length = i.length

/-- Every step keeps the invariant: memory in its canonical form, and BALOFF clear while BRING is clear (R269).
The model's own choices or readings behind it: assumption log 6. -/
def Obligations.StepKeepsInv : Prop := ∀ (s t : State), Inv s → step s = .next t → Inv t

/-- Every instruction and every step of the machine goes on in every state: none stops in a fault or a refusal, since
the spec gives each its effect, and gives one to every condition that an action can meet.
The model's own choices or readings behind it: assumption log 13. -/
def Obligations.EveryStepContinues : Prop := (∀ (i : Instr) (s : State), ∃ t, exec i s = .next t) ∧ ∀ s, Continues s

/-- What completes, on conditions of the state and the operands alone. R77 to R79, R89, R317: with no push pending, no
peer write outstanding and GT past the context's writes, `fence`, `fence.rel` and `fence.acq` of every scope pass at once:
a release closes the region, an acquire raises `AFR`; a release that waits ends once GT reaches its timestamp. R56, R319:
`push` with PEND below 255 writes and passes. R182, R183, R359, R360: `rpt` with a free buffer starts its sequence and
passes behind its instructions, the sequencer places the next step, and `rptw` passes where no sequence runs. R122, R130,
R131: the engine passes an element that a copy leaves as it is, takes the step of a `gbin` that no bin is left for, and
resets a table of no bins.
The model's own choices or readings behind it: assumption log 26, 33. -/
def Obligations.SynchronizingFormsComplete : Prop :=
  ∀ (s : State), Memory.wf s.mem = true →
    let me := s.me
    let now := s.gtOf me.core
    let settled := s.pend me.base = 0 ∧ (s.ctx me.key).peerWrites = [] ∧ (s.ctx me.key).vtDie0 ≤ now ∧
      (s.ctx me.key).vtDie1 ≤ now ∧ (s.ctx me.key).performed ≤ now
    let history := fun (base : Nat) => base + offHist + 8 * (s.ws base offRgn % 2 ^ 16 % 16)
    let closed := fun (base key gt : Nat) (t : State) =>
      t.ws base offRgn = (s.ws base offRgn % 2 ^ 16 + 1) % 2 ^ 16 ∧
      t.rd (history base) 8 = max gt (s.ctx key).vtRegion % 2 ^ 64 ∧ t.pc base = s.pc base + 8 ∧ t.waitOf key = none
    (∀ sc,
      (settled →
        (∃ t, exec (.fenceRel sc) s = .next t ∧ closed me.base me.key now t ∧
          Keeps s t [(me.base + offRgn, 8), (history me.base, 8), (me.base + offPc, 8)]) ∧
        (∃ t, exec (.fence sc) s = .next t ∧ closed me.base me.key now t ∧
          t.ws me.base offAfr = max (s.ws me.base offAfr) (s.ws me.base offLrs) ∧
          Keeps s t [(me.base + offRgn, 8), (history me.base, 8), (me.base + offAfr, 8), (me.base + offPc, 8)])) ∧
      (∃ t, exec (.fenceAcq sc) s = .next t ∧ t.pc me.base = s.pc me.base + 8 ∧ t.waitOf me.key = none ∧
        t.ws me.base offAfr = max (s.ws me.base offAfr) (s.ws me.base offLrs) ∧
        Keeps s t [(me.base + offAfr, 8), (me.base + offPc, 8)]) ∧
      ∀ key who w ts, s.meOf key = some who → (s.ctx key).wait = some w → (s.ctx key).migrating = false →
        w.block = .release sc ts → w.cont.prog = [.adv 8] → w.cont.reg = none → ts ≤ s.gtOf who.core → ∃ t,
          exec (.releaseComplete key) s = .next t ∧ closed who.base key (s.gtOf who.core) t ∧
          Keeps s t [(who.base + offRgn, 8), (history who.base, 8), (who.base + offPc, 8)]) ∧
    (∀ ty f a off b c ts l, let ea := (s.getW me.base a + off.signExtend 64).toNat
      let pa := l.phys (ea % 2 ^ 57)
      pushTargets s me.core f (s.getW me.base c) = some ts → s.pend me.base < 255 → ea % tyBytes ty = 0 →
      (pa + tyBytes ty ≤ me.base ∨ me.base + 4096 ≤ pa) →
      (LocalAt s me .write ea (tyBytes ty) l → ∃ t, exec (.push ty f a off b c) s = .next t ∧ t.waitOf me.key = none ∧
        t.pc me.base = s.pc me.base + 12 ∧ t.rd pa (tyBytes ty) = (s.getW me.base b).toNat % 2 ^ (8 * tyBytes ty)) ∧
      (HeldAt s me .write ea (tyBytes ty) l → ∃ t, exec (.push ty f a off b c) s = .next t ∧ t.waitOf me.key = none ∧
        t.pc me.base = s.pc me.base + 12 ∧ (t.copy me.core (pa / 128)).dirty = true)) ∧
    (∀ (len : Fin 16) (reps : BitVec 12) (stride : Fin 8) (b : BitVec 256) (is : List Instr) (rest : List Byte),
      let pc := (s.pc me.base).toNat
      s.seqCore me.key = none → (s.core me.core).seq.ctx = none → pc < 2 ^ 56 → is.length = len.val + 1 →
      (s.slot me.slot).block = some (pc / 32 * 32, b) →
      (∀ i ∈ is, WellFormed i = true ∧ (isVectorOp i || isTensorOp i) = true) →
      (natBytes 32 b.toNat).drop (pc % 32 + 8) = (is.map (fun i => (encode i).getD [])).flatten ++ rest →
      ∃ t, exec (.rpt len reps stride) s = .next t ∧
        t.pc me.base = BitVec.ofNat 64 (pc + 8 + (is.map Instr.length).sum) ∧ t.waitOf me.key = none ∧
        (t.core me.core).seq = { ctx := some me.key, instrs := is, reps := reps.toNat + 1, stride := stride.val }) ∧
    (s.seqCore me.key = none → exec .rptw s = .next (s.advPc me.base 8)) ∧
    (∀ core key i, let q := (s.core core).seq
      q.ctx = some key → q.instrs[q.idx]? = some i → q.placed = false → q.waitStep = false → q.claim = false → q.fault = none →
      q.rep < q.reps → ∃ t, exec (.sequencerPlace core) s = .next t ∧ (t.core core).seq = { q with placed := true } ∧
        (∀ tensor, (t.core core).entries tensor = (s.core core).entries tensor ++
          (if tensor = isTensorOp (stagger (q.rep * q.stride) i) then
            [{ ctx := key, step := some (q.rep, q.idx), instr := stagger (q.rep * q.stride) i }] else []))) ∧
    (∀ cl ch o e, s.runningOp cl ch = some o → o.faulted = none → o.lead = some e →
      let is := fun (t w : State) (o' : ChanOp) => t.mem = w.mem ∧ (t.chan cl ch).ops = o' :: (w.chan cl ch).ops.tail
      (∀ src dst es ds, o.kind = .copy src dst es 6 ds → (elemAddr src dst ds o.next).2.2 = false → o.half = none →
        o.kept = none → ∃ t, exec (.engineElementDeliver cl ch) s = .next t ∧ is t s { o with
          next := o.next + 1, started := true
          delivered := decide (o.cause = 4) || decide (dimCount ds ≤ o.next + 1) }) ∧
      (∀ src rstr idx rows k rowsz row0 table, o.kind = .gbin src rstr idx rows k rowsz row0 table → o.bin.at_ = 2 →
        (∀ b ∈ o.bin.idxs, b < o.bin.bin ∨ o.bin.nbins ≤ b) → ∃ t, exec (.gbinExecute cl ch) s = .next t ∧
          is t s { o with started := true, bin := { o.bin with at_ := 3, bin := o.bin.nbins } }) ∧
      (∀ table hdr x u, o.kind = .binr table → moveReadVa (o.mover cl) table 32 s = (.got hdr, s) → fld hdr 0 4 = 0 →
        fld hdr 24 4 = 0 → moveWrite (o.mover cl) ((table + 20) % 2 ^ 64) 4 0 s = (.got x, u) →
        ∃ t, exec (.binResetExecute cl ch) s = .next t ∧ is t u
          { o with started := true, delivered := true, vt := max o.vt x.vt, peers := o.peers ++ x.peers }))
end

