-- ==== Sys2Proof/Laws/State.lean ====
section
/-! SUPPORT. One lemma per field of the state per update of it, each true by definition. -/

namespace Sys2Proof.Machine

open Sys2Proof

/-! ### `setCore` -/

@[simp] theorem State.setCore_mem (s : State) (g : Nat) (x : Core) : (s.setCore g x).mem = s.mem := rfl
@[simp] theorem State.setCore_fe (s : State) (g : Nat) (x : Core) : (s.setCore g x).fe = s.fe := rfl
@[simp] theorem State.setCore_lines (s : State) (g : Nat) (x : Core) : (s.setCore g x).lines = s.lines := rfl
@[simp] theorem State.setCore_copies (s : State) (g : Nat) (x : Core) : (s.setCore g x).copies = s.copies := rfl
@[simp] theorem State.setCore_banks (s : State) (g : Nat) (x : Core) : (s.setCore g x).banks = s.banks := rfl
@[simp] theorem State.setCore_lostLocal (s : State) (g : Nat) (x : Core) : (s.setCore g x).lostLocal = s.lostLocal := rfl
@[simp] theorem State.setCore_cores (s : State) (g : Nat) (x : Core) : (s.setCore g x).cores = tset s.cores g x := rfl
@[simp] theorem State.setCore_slots (s : State) (g : Nat) (x : Core) : (s.setCore g x).slots = s.slots := rfl
@[simp] theorem State.setCore_quads (s : State) (g : Nat) (x : Core) : (s.setCore g x).quads = s.quads := rfl
@[simp] theorem State.setCore_clusters (s : State) (g : Nat) (x : Core) : (s.setCore g x).clusters = s.clusters := rfl
@[simp] theorem State.setCore_dies (s : State) (g : Nat) (x : Core) : (s.setCore g x).dies = s.dies := rfl
@[simp] theorem State.setCore_parts (s : State) (g : Nat) (x : Core) : (s.setCore g x).parts = s.parts := rfl
@[simp] theorem State.setCore_ctxs (s : State) (g : Nat) (x : Core) : (s.setCore g x).ctxs = s.ctxs := rfl
@[simp] theorem State.setCore_dev (s : State) (g : Nat) (x : Core) : (s.setCore g x).dev = s.dev := rfl
@[simp] theorem State.setCore_net (s : State) (g : Nat) (x : Core) : (s.setCore g x).net = s.net := rfl
@[simp] theorem State.setCore_heldBeats (s : State) (g : Nat) (x : Core) : (s.setCore g x).heldBeats = s.heldBeats := rfl
@[simp] theorem State.setCore_snoopOver (s : State) (g : Nat) (x : Core) : (s.setCore g x).snoopOver = s.snoopOver := rfl
@[simp] theorem State.setCore_held (s : State) (g : Nat) (x : Core) : (s.setCore g x).held = s.held := rfl
@[simp] theorem State.setCore_frontiers (s : State) (g : Nat) (x : Core) : (s.setCore g x).frontiers = s.frontiers := rfl
@[simp] theorem State.setCore_refGt (s : State) (g : Nat) (x : Core) : (s.setCore g x).refGt = s.refGt := rfl
@[simp] theorem State.setCore_cycle (s : State) (g : Nat) (x : Core) : (s.setCore g x).cycle = s.cycle := rfl
@[simp] theorem State.setCore_agenda (s : State) (g : Nat) (x : Core) : (s.setCore g x).agenda = s.agenda := rfl
@[simp] theorem State.setCore_todo (s : State) (g : Nat) (x : Core) : (s.setCore g x).todo = s.todo := rfl
@[simp] theorem State.setCore_turnCore (s : State) (g : Nat) (x : Core) : (s.setCore g x).turnCore = s.turnCore := rfl
@[simp] theorem State.setCore_turnSlot (s : State) (g : Nat) (x : Core) : (s.setCore g x).turnSlot = s.turnSlot := rfl
@[simp] theorem State.setCore_closing (s : State) (g : Nat) (x : Core) : (s.setCore g x).closing = s.closing := rfl
@[simp] theorem State.setCore_free (s : State) (g : Nat) (x : Core) : (s.setCore g x).free = s.free := rfl
@[simp] theorem State.setCore_nextId (s : State) (g : Nat) (x : Core) : (s.setCore g x).nextId = s.nextId := rfl

/-! ### `modCore` -/

@[simp] theorem State.modCore_mem (s : State) (g : Nat) (f : Core → Core) : (s.modCore g f).mem = s.mem := rfl
@[simp] theorem State.modCore_fe (s : State) (g : Nat) (f : Core → Core) : (s.modCore g f).fe = s.fe := rfl
@[simp] theorem State.modCore_lines (s : State) (g : Nat) (f : Core → Core) : (s.modCore g f).lines = s.lines := rfl
@[simp] theorem State.modCore_copies (s : State) (g : Nat) (f : Core → Core) : (s.modCore g f).copies = s.copies := rfl
@[simp] theorem State.modCore_banks (s : State) (g : Nat) (f : Core → Core) : (s.modCore g f).banks = s.banks := rfl
@[simp] theorem State.modCore_lostLocal (s : State) (g : Nat) (f : Core → Core) : (s.modCore g f).lostLocal = s.lostLocal := rfl
@[simp] theorem State.modCore_cores (s : State) (g : Nat) (f : Core → Core) : (s.modCore g f).cores = tset s.cores g (f (s.core g)) := rfl
@[simp] theorem State.modCore_slots (s : State) (g : Nat) (f : Core → Core) : (s.modCore g f).slots = s.slots := rfl
@[simp] theorem State.modCore_quads (s : State) (g : Nat) (f : Core → Core) : (s.modCore g f).quads = s.quads := rfl
@[simp] theorem State.modCore_clusters (s : State) (g : Nat) (f : Core → Core) : (s.modCore g f).clusters = s.clusters := rfl
@[simp] theorem State.modCore_dies (s : State) (g : Nat) (f : Core → Core) : (s.modCore g f).dies = s.dies := rfl
@[simp] theorem State.modCore_parts (s : State) (g : Nat) (f : Core → Core) : (s.modCore g f).parts = s.parts := rfl
@[simp] theorem State.modCore_ctxs (s : State) (g : Nat) (f : Core → Core) : (s.modCore g f).ctxs = s.ctxs := rfl
@[simp] theorem State.modCore_dev (s : State) (g : Nat) (f : Core → Core) : (s.modCore g f).dev = s.dev := rfl
@[simp] theorem State.modCore_net (s : State) (g : Nat) (f : Core → Core) : (s.modCore g f).net = s.net := rfl
@[simp] theorem State.modCore_heldBeats (s : State) (g : Nat) (f : Core → Core) : (s.modCore g f).heldBeats = s.heldBeats := rfl
@[simp] theorem State.modCore_snoopOver (s : State) (g : Nat) (f : Core → Core) : (s.modCore g f).snoopOver = s.snoopOver := rfl
@[simp] theorem State.modCore_held (s : State) (g : Nat) (f : Core → Core) : (s.modCore g f).held = s.held := rfl
@[simp] theorem State.modCore_frontiers (s : State) (g : Nat) (f : Core → Core) : (s.modCore g f).frontiers = s.frontiers := rfl
@[simp] theorem State.modCore_refGt (s : State) (g : Nat) (f : Core → Core) : (s.modCore g f).refGt = s.refGt := rfl
@[simp] theorem State.modCore_cycle (s : State) (g : Nat) (f : Core → Core) : (s.modCore g f).cycle = s.cycle := rfl
@[simp] theorem State.modCore_agenda (s : State) (g : Nat) (f : Core → Core) : (s.modCore g f).agenda = s.agenda := rfl
@[simp] theorem State.modCore_todo (s : State) (g : Nat) (f : Core → Core) : (s.modCore g f).todo = s.todo := rfl
@[simp] theorem State.modCore_turnCore (s : State) (g : Nat) (f : Core → Core) : (s.modCore g f).turnCore = s.turnCore := rfl
@[simp] theorem State.modCore_turnSlot (s : State) (g : Nat) (f : Core → Core) : (s.modCore g f).turnSlot = s.turnSlot := rfl
@[simp] theorem State.modCore_closing (s : State) (g : Nat) (f : Core → Core) : (s.modCore g f).closing = s.closing := rfl
@[simp] theorem State.modCore_free (s : State) (g : Nat) (f : Core → Core) : (s.modCore g f).free = s.free := rfl
@[simp] theorem State.modCore_nextId (s : State) (g : Nat) (f : Core → Core) : (s.modCore g f).nextId = s.nextId := rfl

/-! ### `setSlot` -/

@[simp] theorem State.setSlot_mem (s : State) (k : Nat) (x : Slot) : (s.setSlot k x).mem = s.mem := rfl
@[simp] theorem State.setSlot_fe (s : State) (k : Nat) (x : Slot) : (s.setSlot k x).fe = s.fe := rfl
@[simp] theorem State.setSlot_lines (s : State) (k : Nat) (x : Slot) : (s.setSlot k x).lines = s.lines := rfl
@[simp] theorem State.setSlot_copies (s : State) (k : Nat) (x : Slot) : (s.setSlot k x).copies = s.copies := rfl
@[simp] theorem State.setSlot_banks (s : State) (k : Nat) (x : Slot) : (s.setSlot k x).banks = s.banks := rfl
@[simp] theorem State.setSlot_lostLocal (s : State) (k : Nat) (x : Slot) : (s.setSlot k x).lostLocal = s.lostLocal := rfl
@[simp] theorem State.setSlot_cores (s : State) (k : Nat) (x : Slot) : (s.setSlot k x).cores = s.cores := rfl
@[simp] theorem State.setSlot_slots (s : State) (k : Nat) (x : Slot) : (s.setSlot k x).slots = tset s.slots k x := rfl
@[simp] theorem State.setSlot_quads (s : State) (k : Nat) (x : Slot) : (s.setSlot k x).quads = s.quads := rfl
@[simp] theorem State.setSlot_clusters (s : State) (k : Nat) (x : Slot) : (s.setSlot k x).clusters = s.clusters := rfl
@[simp] theorem State.setSlot_dies (s : State) (k : Nat) (x : Slot) : (s.setSlot k x).dies = s.dies := rfl
@[simp] theorem State.setSlot_parts (s : State) (k : Nat) (x : Slot) : (s.setSlot k x).parts = s.parts := rfl
@[simp] theorem State.setSlot_ctxs (s : State) (k : Nat) (x : Slot) : (s.setSlot k x).ctxs = s.ctxs := rfl
@[simp] theorem State.setSlot_dev (s : State) (k : Nat) (x : Slot) : (s.setSlot k x).dev = s.dev := rfl
@[simp] theorem State.setSlot_net (s : State) (k : Nat) (x : Slot) : (s.setSlot k x).net = s.net := rfl
@[simp] theorem State.setSlot_heldBeats (s : State) (k : Nat) (x : Slot) : (s.setSlot k x).heldBeats = s.heldBeats := rfl
@[simp] theorem State.setSlot_snoopOver (s : State) (k : Nat) (x : Slot) : (s.setSlot k x).snoopOver = s.snoopOver := rfl
@[simp] theorem State.setSlot_held (s : State) (k : Nat) (x : Slot) : (s.setSlot k x).held = s.held := rfl
@[simp] theorem State.setSlot_frontiers (s : State) (k : Nat) (x : Slot) : (s.setSlot k x).frontiers = s.frontiers := rfl
@[simp] theorem State.setSlot_refGt (s : State) (k : Nat) (x : Slot) : (s.setSlot k x).refGt = s.refGt := rfl
@[simp] theorem State.setSlot_cycle (s : State) (k : Nat) (x : Slot) : (s.setSlot k x).cycle = s.cycle := rfl
@[simp] theorem State.setSlot_agenda (s : State) (k : Nat) (x : Slot) : (s.setSlot k x).agenda = s.agenda := rfl
@[simp] theorem State.setSlot_todo (s : State) (k : Nat) (x : Slot) : (s.setSlot k x).todo = s.todo := rfl
@[simp] theorem State.setSlot_turnCore (s : State) (k : Nat) (x : Slot) : (s.setSlot k x).turnCore = s.turnCore := rfl
@[simp] theorem State.setSlot_turnSlot (s : State) (k : Nat) (x : Slot) : (s.setSlot k x).turnSlot = s.turnSlot := rfl
@[simp] theorem State.setSlot_closing (s : State) (k : Nat) (x : Slot) : (s.setSlot k x).closing = s.closing := rfl
@[simp] theorem State.setSlot_free (s : State) (k : Nat) (x : Slot) : (s.setSlot k x).free = s.free := rfl
@[simp] theorem State.setSlot_nextId (s : State) (k : Nat) (x : Slot) : (s.setSlot k x).nextId = s.nextId := rfl

/-! ### `modSlot` -/

@[simp] theorem State.modSlot_mem (s : State) (k : Nat) (f : Slot → Slot) : (s.modSlot k f).mem = s.mem := rfl
@[simp] theorem State.modSlot_fe (s : State) (k : Nat) (f : Slot → Slot) : (s.modSlot k f).fe = s.fe := rfl
@[simp] theorem State.modSlot_lines (s : State) (k : Nat) (f : Slot → Slot) : (s.modSlot k f).lines = s.lines := rfl
@[simp] theorem State.modSlot_copies (s : State) (k : Nat) (f : Slot → Slot) : (s.modSlot k f).copies = s.copies := rfl
@[simp] theorem State.modSlot_banks (s : State) (k : Nat) (f : Slot → Slot) : (s.modSlot k f).banks = s.banks := rfl
@[simp] theorem State.modSlot_lostLocal (s : State) (k : Nat) (f : Slot → Slot) : (s.modSlot k f).lostLocal = s.lostLocal := rfl
@[simp] theorem State.modSlot_cores (s : State) (k : Nat) (f : Slot → Slot) : (s.modSlot k f).cores = s.cores := rfl
@[simp] theorem State.modSlot_slots (s : State) (k : Nat) (f : Slot → Slot) : (s.modSlot k f).slots = tset s.slots k (f (s.slot k)) := rfl
@[simp] theorem State.modSlot_quads (s : State) (k : Nat) (f : Slot → Slot) : (s.modSlot k f).quads = s.quads := rfl
@[simp] theorem State.modSlot_clusters (s : State) (k : Nat) (f : Slot → Slot) : (s.modSlot k f).clusters = s.clusters := rfl
@[simp] theorem State.modSlot_dies (s : State) (k : Nat) (f : Slot → Slot) : (s.modSlot k f).dies = s.dies := rfl
@[simp] theorem State.modSlot_parts (s : State) (k : Nat) (f : Slot → Slot) : (s.modSlot k f).parts = s.parts := rfl
@[simp] theorem State.modSlot_ctxs (s : State) (k : Nat) (f : Slot → Slot) : (s.modSlot k f).ctxs = s.ctxs := rfl
@[simp] theorem State.modSlot_dev (s : State) (k : Nat) (f : Slot → Slot) : (s.modSlot k f).dev = s.dev := rfl
@[simp] theorem State.modSlot_net (s : State) (k : Nat) (f : Slot → Slot) : (s.modSlot k f).net = s.net := rfl
@[simp] theorem State.modSlot_heldBeats (s : State) (k : Nat) (f : Slot → Slot) : (s.modSlot k f).heldBeats = s.heldBeats := rfl
@[simp] theorem State.modSlot_snoopOver (s : State) (k : Nat) (f : Slot → Slot) : (s.modSlot k f).snoopOver = s.snoopOver := rfl
@[simp] theorem State.modSlot_held (s : State) (k : Nat) (f : Slot → Slot) : (s.modSlot k f).held = s.held := rfl
@[simp] theorem State.modSlot_frontiers (s : State) (k : Nat) (f : Slot → Slot) : (s.modSlot k f).frontiers = s.frontiers := rfl
@[simp] theorem State.modSlot_refGt (s : State) (k : Nat) (f : Slot → Slot) : (s.modSlot k f).refGt = s.refGt := rfl
@[simp] theorem State.modSlot_cycle (s : State) (k : Nat) (f : Slot → Slot) : (s.modSlot k f).cycle = s.cycle := rfl
@[simp] theorem State.modSlot_agenda (s : State) (k : Nat) (f : Slot → Slot) : (s.modSlot k f).agenda = s.agenda := rfl
@[simp] theorem State.modSlot_todo (s : State) (k : Nat) (f : Slot → Slot) : (s.modSlot k f).todo = s.todo := rfl
@[simp] theorem State.modSlot_turnCore (s : State) (k : Nat) (f : Slot → Slot) : (s.modSlot k f).turnCore = s.turnCore := rfl
@[simp] theorem State.modSlot_turnSlot (s : State) (k : Nat) (f : Slot → Slot) : (s.modSlot k f).turnSlot = s.turnSlot := rfl
@[simp] theorem State.modSlot_closing (s : State) (k : Nat) (f : Slot → Slot) : (s.modSlot k f).closing = s.closing := rfl
@[simp] theorem State.modSlot_free (s : State) (k : Nat) (f : Slot → Slot) : (s.modSlot k f).free = s.free := rfl
@[simp] theorem State.modSlot_nextId (s : State) (k : Nat) (f : Slot → Slot) : (s.modSlot k f).nextId = s.nextId := rfl

/-! ### `setQuad` -/

@[simp] theorem State.setQuad_mem (s : State) (k : Nat) (x : Quad) : (s.setQuad k x).mem = s.mem := rfl
@[simp] theorem State.setQuad_fe (s : State) (k : Nat) (x : Quad) : (s.setQuad k x).fe = s.fe := rfl
@[simp] theorem State.setQuad_lines (s : State) (k : Nat) (x : Quad) : (s.setQuad k x).lines = s.lines := rfl
@[simp] theorem State.setQuad_copies (s : State) (k : Nat) (x : Quad) : (s.setQuad k x).copies = s.copies := rfl
@[simp] theorem State.setQuad_banks (s : State) (k : Nat) (x : Quad) : (s.setQuad k x).banks = s.banks := rfl
@[simp] theorem State.setQuad_lostLocal (s : State) (k : Nat) (x : Quad) : (s.setQuad k x).lostLocal = s.lostLocal := rfl
@[simp] theorem State.setQuad_cores (s : State) (k : Nat) (x : Quad) : (s.setQuad k x).cores = s.cores := rfl
@[simp] theorem State.setQuad_slots (s : State) (k : Nat) (x : Quad) : (s.setQuad k x).slots = s.slots := rfl
@[simp] theorem State.setQuad_quads (s : State) (k : Nat) (x : Quad) : (s.setQuad k x).quads = tset s.quads k x := rfl
@[simp] theorem State.setQuad_clusters (s : State) (k : Nat) (x : Quad) : (s.setQuad k x).clusters = s.clusters := rfl
@[simp] theorem State.setQuad_dies (s : State) (k : Nat) (x : Quad) : (s.setQuad k x).dies = s.dies := rfl
@[simp] theorem State.setQuad_parts (s : State) (k : Nat) (x : Quad) : (s.setQuad k x).parts = s.parts := rfl
@[simp] theorem State.setQuad_ctxs (s : State) (k : Nat) (x : Quad) : (s.setQuad k x).ctxs = s.ctxs := rfl
@[simp] theorem State.setQuad_dev (s : State) (k : Nat) (x : Quad) : (s.setQuad k x).dev = s.dev := rfl
@[simp] theorem State.setQuad_net (s : State) (k : Nat) (x : Quad) : (s.setQuad k x).net = s.net := rfl
@[simp] theorem State.setQuad_heldBeats (s : State) (k : Nat) (x : Quad) : (s.setQuad k x).heldBeats = s.heldBeats := rfl
@[simp] theorem State.setQuad_snoopOver (s : State) (k : Nat) (x : Quad) : (s.setQuad k x).snoopOver = s.snoopOver := rfl
@[simp] theorem State.setQuad_held (s : State) (k : Nat) (x : Quad) : (s.setQuad k x).held = s.held := rfl
@[simp] theorem State.setQuad_frontiers (s : State) (k : Nat) (x : Quad) : (s.setQuad k x).frontiers = s.frontiers := rfl
@[simp] theorem State.setQuad_refGt (s : State) (k : Nat) (x : Quad) : (s.setQuad k x).refGt = s.refGt := rfl
@[simp] theorem State.setQuad_cycle (s : State) (k : Nat) (x : Quad) : (s.setQuad k x).cycle = s.cycle := rfl
@[simp] theorem State.setQuad_agenda (s : State) (k : Nat) (x : Quad) : (s.setQuad k x).agenda = s.agenda := rfl
@[simp] theorem State.setQuad_todo (s : State) (k : Nat) (x : Quad) : (s.setQuad k x).todo = s.todo := rfl
@[simp] theorem State.setQuad_turnCore (s : State) (k : Nat) (x : Quad) : (s.setQuad k x).turnCore = s.turnCore := rfl
@[simp] theorem State.setQuad_turnSlot (s : State) (k : Nat) (x : Quad) : (s.setQuad k x).turnSlot = s.turnSlot := rfl
@[simp] theorem State.setQuad_closing (s : State) (k : Nat) (x : Quad) : (s.setQuad k x).closing = s.closing := rfl
@[simp] theorem State.setQuad_free (s : State) (k : Nat) (x : Quad) : (s.setQuad k x).free = s.free := rfl
@[simp] theorem State.setQuad_nextId (s : State) (k : Nat) (x : Quad) : (s.setQuad k x).nextId = s.nextId := rfl

/-! ### `modQuad` -/

@[simp] theorem State.modQuad_mem (s : State) (k : Nat) (f : Quad → Quad) : (s.modQuad k f).mem = s.mem := rfl
@[simp] theorem State.modQuad_fe (s : State) (k : Nat) (f : Quad → Quad) : (s.modQuad k f).fe = s.fe := rfl
@[simp] theorem State.modQuad_lines (s : State) (k : Nat) (f : Quad → Quad) : (s.modQuad k f).lines = s.lines := rfl
@[simp] theorem State.modQuad_copies (s : State) (k : Nat) (f : Quad → Quad) : (s.modQuad k f).copies = s.copies := rfl
@[simp] theorem State.modQuad_banks (s : State) (k : Nat) (f : Quad → Quad) : (s.modQuad k f).banks = s.banks := rfl
@[simp] theorem State.modQuad_lostLocal (s : State) (k : Nat) (f : Quad → Quad) : (s.modQuad k f).lostLocal = s.lostLocal := rfl
@[simp] theorem State.modQuad_cores (s : State) (k : Nat) (f : Quad → Quad) : (s.modQuad k f).cores = s.cores := rfl
@[simp] theorem State.modQuad_slots (s : State) (k : Nat) (f : Quad → Quad) : (s.modQuad k f).slots = s.slots := rfl
@[simp] theorem State.modQuad_quads (s : State) (k : Nat) (f : Quad → Quad) : (s.modQuad k f).quads = tset s.quads k (f (s.quad k)) := rfl
@[simp] theorem State.modQuad_clusters (s : State) (k : Nat) (f : Quad → Quad) : (s.modQuad k f).clusters = s.clusters := rfl
@[simp] theorem State.modQuad_dies (s : State) (k : Nat) (f : Quad → Quad) : (s.modQuad k f).dies = s.dies := rfl
@[simp] theorem State.modQuad_parts (s : State) (k : Nat) (f : Quad → Quad) : (s.modQuad k f).parts = s.parts := rfl
@[simp] theorem State.modQuad_ctxs (s : State) (k : Nat) (f : Quad → Quad) : (s.modQuad k f).ctxs = s.ctxs := rfl
@[simp] theorem State.modQuad_dev (s : State) (k : Nat) (f : Quad → Quad) : (s.modQuad k f).dev = s.dev := rfl
@[simp] theorem State.modQuad_net (s : State) (k : Nat) (f : Quad → Quad) : (s.modQuad k f).net = s.net := rfl
@[simp] theorem State.modQuad_heldBeats (s : State) (k : Nat) (f : Quad → Quad) : (s.modQuad k f).heldBeats = s.heldBeats := rfl
@[simp] theorem State.modQuad_snoopOver (s : State) (k : Nat) (f : Quad → Quad) : (s.modQuad k f).snoopOver = s.snoopOver := rfl
@[simp] theorem State.modQuad_held (s : State) (k : Nat) (f : Quad → Quad) : (s.modQuad k f).held = s.held := rfl
@[simp] theorem State.modQuad_frontiers (s : State) (k : Nat) (f : Quad → Quad) : (s.modQuad k f).frontiers = s.frontiers := rfl
@[simp] theorem State.modQuad_refGt (s : State) (k : Nat) (f : Quad → Quad) : (s.modQuad k f).refGt = s.refGt := rfl
@[simp] theorem State.modQuad_cycle (s : State) (k : Nat) (f : Quad → Quad) : (s.modQuad k f).cycle = s.cycle := rfl
@[simp] theorem State.modQuad_agenda (s : State) (k : Nat) (f : Quad → Quad) : (s.modQuad k f).agenda = s.agenda := rfl
@[simp] theorem State.modQuad_todo (s : State) (k : Nat) (f : Quad → Quad) : (s.modQuad k f).todo = s.todo := rfl
@[simp] theorem State.modQuad_turnCore (s : State) (k : Nat) (f : Quad → Quad) : (s.modQuad k f).turnCore = s.turnCore := rfl
@[simp] theorem State.modQuad_turnSlot (s : State) (k : Nat) (f : Quad → Quad) : (s.modQuad k f).turnSlot = s.turnSlot := rfl
@[simp] theorem State.modQuad_closing (s : State) (k : Nat) (f : Quad → Quad) : (s.modQuad k f).closing = s.closing := rfl
@[simp] theorem State.modQuad_free (s : State) (k : Nat) (f : Quad → Quad) : (s.modQuad k f).free = s.free := rfl
@[simp] theorem State.modQuad_nextId (s : State) (k : Nat) (f : Quad → Quad) : (s.modQuad k f).nextId = s.nextId := rfl

/-! ### `setCluster` -/

@[simp] theorem State.setCluster_mem (s : State) (k : Nat) (x : Cluster) : (s.setCluster k x).mem = s.mem := rfl
@[simp] theorem State.setCluster_fe (s : State) (k : Nat) (x : Cluster) : (s.setCluster k x).fe = s.fe := rfl
@[simp] theorem State.setCluster_lines (s : State) (k : Nat) (x : Cluster) : (s.setCluster k x).lines = s.lines := rfl
@[simp] theorem State.setCluster_copies (s : State) (k : Nat) (x : Cluster) : (s.setCluster k x).copies = s.copies := rfl
@[simp] theorem State.setCluster_banks (s : State) (k : Nat) (x : Cluster) : (s.setCluster k x).banks = s.banks := rfl
@[simp] theorem State.setCluster_lostLocal (s : State) (k : Nat) (x : Cluster) : (s.setCluster k x).lostLocal = s.lostLocal := rfl
@[simp] theorem State.setCluster_cores (s : State) (k : Nat) (x : Cluster) : (s.setCluster k x).cores = s.cores := rfl
@[simp] theorem State.setCluster_slots (s : State) (k : Nat) (x : Cluster) : (s.setCluster k x).slots = s.slots := rfl
@[simp] theorem State.setCluster_quads (s : State) (k : Nat) (x : Cluster) : (s.setCluster k x).quads = s.quads := rfl
@[simp] theorem State.setCluster_clusters (s : State) (k : Nat) (x : Cluster) : (s.setCluster k x).clusters = tset s.clusters k x := rfl
@[simp] theorem State.setCluster_dies (s : State) (k : Nat) (x : Cluster) : (s.setCluster k x).dies = s.dies := rfl
@[simp] theorem State.setCluster_parts (s : State) (k : Nat) (x : Cluster) : (s.setCluster k x).parts = s.parts := rfl
@[simp] theorem State.setCluster_ctxs (s : State) (k : Nat) (x : Cluster) : (s.setCluster k x).ctxs = s.ctxs := rfl
@[simp] theorem State.setCluster_dev (s : State) (k : Nat) (x : Cluster) : (s.setCluster k x).dev = s.dev := rfl
@[simp] theorem State.setCluster_net (s : State) (k : Nat) (x : Cluster) : (s.setCluster k x).net = s.net := rfl
@[simp] theorem State.setCluster_heldBeats (s : State) (k : Nat) (x : Cluster) : (s.setCluster k x).heldBeats = s.heldBeats := rfl
@[simp] theorem State.setCluster_snoopOver (s : State) (k : Nat) (x : Cluster) : (s.setCluster k x).snoopOver = s.snoopOver := rfl
@[simp] theorem State.setCluster_held (s : State) (k : Nat) (x : Cluster) : (s.setCluster k x).held = s.held := rfl
@[simp] theorem State.setCluster_frontiers (s : State) (k : Nat) (x : Cluster) : (s.setCluster k x).frontiers = s.frontiers := rfl
@[simp] theorem State.setCluster_refGt (s : State) (k : Nat) (x : Cluster) : (s.setCluster k x).refGt = s.refGt := rfl
@[simp] theorem State.setCluster_cycle (s : State) (k : Nat) (x : Cluster) : (s.setCluster k x).cycle = s.cycle := rfl
@[simp] theorem State.setCluster_agenda (s : State) (k : Nat) (x : Cluster) : (s.setCluster k x).agenda = s.agenda := rfl
@[simp] theorem State.setCluster_todo (s : State) (k : Nat) (x : Cluster) : (s.setCluster k x).todo = s.todo := rfl
@[simp] theorem State.setCluster_turnCore (s : State) (k : Nat) (x : Cluster) : (s.setCluster k x).turnCore = s.turnCore := rfl
@[simp] theorem State.setCluster_turnSlot (s : State) (k : Nat) (x : Cluster) : (s.setCluster k x).turnSlot = s.turnSlot := rfl
@[simp] theorem State.setCluster_closing (s : State) (k : Nat) (x : Cluster) : (s.setCluster k x).closing = s.closing := rfl
@[simp] theorem State.setCluster_free (s : State) (k : Nat) (x : Cluster) : (s.setCluster k x).free = s.free := rfl
@[simp] theorem State.setCluster_nextId (s : State) (k : Nat) (x : Cluster) : (s.setCluster k x).nextId = s.nextId := rfl

/-! ### `modCluster` -/

@[simp] theorem State.modCluster_mem (s : State) (k : Nat) (f : Cluster → Cluster) : (s.modCluster k f).mem = s.mem := rfl
@[simp] theorem State.modCluster_fe (s : State) (k : Nat) (f : Cluster → Cluster) : (s.modCluster k f).fe = s.fe := rfl
@[simp] theorem State.modCluster_lines (s : State) (k : Nat) (f : Cluster → Cluster) : (s.modCluster k f).lines = s.lines := rfl
@[simp] theorem State.modCluster_copies (s : State) (k : Nat) (f : Cluster → Cluster) : (s.modCluster k f).copies = s.copies := rfl
@[simp] theorem State.modCluster_banks (s : State) (k : Nat) (f : Cluster → Cluster) : (s.modCluster k f).banks = s.banks := rfl
@[simp] theorem State.modCluster_lostLocal (s : State) (k : Nat) (f : Cluster → Cluster) : (s.modCluster k f).lostLocal = s.lostLocal := rfl
@[simp] theorem State.modCluster_cores (s : State) (k : Nat) (f : Cluster → Cluster) : (s.modCluster k f).cores = s.cores := rfl
@[simp] theorem State.modCluster_slots (s : State) (k : Nat) (f : Cluster → Cluster) : (s.modCluster k f).slots = s.slots := rfl
@[simp] theorem State.modCluster_quads (s : State) (k : Nat) (f : Cluster → Cluster) : (s.modCluster k f).quads = s.quads := rfl
@[simp] theorem State.modCluster_clusters (s : State) (k : Nat) (f : Cluster → Cluster) : (s.modCluster k f).clusters = tset s.clusters k (f (s.cluster k)) := rfl
@[simp] theorem State.modCluster_dies (s : State) (k : Nat) (f : Cluster → Cluster) : (s.modCluster k f).dies = s.dies := rfl
@[simp] theorem State.modCluster_parts (s : State) (k : Nat) (f : Cluster → Cluster) : (s.modCluster k f).parts = s.parts := rfl
@[simp] theorem State.modCluster_ctxs (s : State) (k : Nat) (f : Cluster → Cluster) : (s.modCluster k f).ctxs = s.ctxs := rfl
@[simp] theorem State.modCluster_dev (s : State) (k : Nat) (f : Cluster → Cluster) : (s.modCluster k f).dev = s.dev := rfl
@[simp] theorem State.modCluster_net (s : State) (k : Nat) (f : Cluster → Cluster) : (s.modCluster k f).net = s.net := rfl
@[simp] theorem State.modCluster_heldBeats (s : State) (k : Nat) (f : Cluster → Cluster) : (s.modCluster k f).heldBeats = s.heldBeats := rfl
@[simp] theorem State.modCluster_snoopOver (s : State) (k : Nat) (f : Cluster → Cluster) : (s.modCluster k f).snoopOver = s.snoopOver := rfl
@[simp] theorem State.modCluster_held (s : State) (k : Nat) (f : Cluster → Cluster) : (s.modCluster k f).held = s.held := rfl
@[simp] theorem State.modCluster_frontiers (s : State) (k : Nat) (f : Cluster → Cluster) : (s.modCluster k f).frontiers = s.frontiers := rfl
@[simp] theorem State.modCluster_refGt (s : State) (k : Nat) (f : Cluster → Cluster) : (s.modCluster k f).refGt = s.refGt := rfl
@[simp] theorem State.modCluster_cycle (s : State) (k : Nat) (f : Cluster → Cluster) : (s.modCluster k f).cycle = s.cycle := rfl
@[simp] theorem State.modCluster_agenda (s : State) (k : Nat) (f : Cluster → Cluster) : (s.modCluster k f).agenda = s.agenda := rfl
@[simp] theorem State.modCluster_todo (s : State) (k : Nat) (f : Cluster → Cluster) : (s.modCluster k f).todo = s.todo := rfl
@[simp] theorem State.modCluster_turnCore (s : State) (k : Nat) (f : Cluster → Cluster) : (s.modCluster k f).turnCore = s.turnCore := rfl
@[simp] theorem State.modCluster_turnSlot (s : State) (k : Nat) (f : Cluster → Cluster) : (s.modCluster k f).turnSlot = s.turnSlot := rfl
@[simp] theorem State.modCluster_closing (s : State) (k : Nat) (f : Cluster → Cluster) : (s.modCluster k f).closing = s.closing := rfl
@[simp] theorem State.modCluster_free (s : State) (k : Nat) (f : Cluster → Cluster) : (s.modCluster k f).free = s.free := rfl
@[simp] theorem State.modCluster_nextId (s : State) (k : Nat) (f : Cluster → Cluster) : (s.modCluster k f).nextId = s.nextId := rfl

/-! ### `setDie` -/

@[simp] theorem State.setDie_mem (s : State) (k : Nat) (x : Die) : (s.setDie k x).mem = s.mem := rfl
@[simp] theorem State.setDie_fe (s : State) (k : Nat) (x : Die) : (s.setDie k x).fe = s.fe := rfl
@[simp] theorem State.setDie_lines (s : State) (k : Nat) (x : Die) : (s.setDie k x).lines = s.lines := rfl
@[simp] theorem State.setDie_copies (s : State) (k : Nat) (x : Die) : (s.setDie k x).copies = s.copies := rfl
@[simp] theorem State.setDie_banks (s : State) (k : Nat) (x : Die) : (s.setDie k x).banks = s.banks := rfl
@[simp] theorem State.setDie_lostLocal (s : State) (k : Nat) (x : Die) : (s.setDie k x).lostLocal = s.lostLocal := rfl
@[simp] theorem State.setDie_cores (s : State) (k : Nat) (x : Die) : (s.setDie k x).cores = s.cores := rfl
@[simp] theorem State.setDie_slots (s : State) (k : Nat) (x : Die) : (s.setDie k x).slots = s.slots := rfl
@[simp] theorem State.setDie_quads (s : State) (k : Nat) (x : Die) : (s.setDie k x).quads = s.quads := rfl
@[simp] theorem State.setDie_clusters (s : State) (k : Nat) (x : Die) : (s.setDie k x).clusters = s.clusters := rfl
@[simp] theorem State.setDie_dies (s : State) (k : Nat) (x : Die) : (s.setDie k x).dies = tset s.dies k x := rfl
@[simp] theorem State.setDie_parts (s : State) (k : Nat) (x : Die) : (s.setDie k x).parts = s.parts := rfl
@[simp] theorem State.setDie_ctxs (s : State) (k : Nat) (x : Die) : (s.setDie k x).ctxs = s.ctxs := rfl
@[simp] theorem State.setDie_dev (s : State) (k : Nat) (x : Die) : (s.setDie k x).dev = s.dev := rfl
@[simp] theorem State.setDie_net (s : State) (k : Nat) (x : Die) : (s.setDie k x).net = s.net := rfl
@[simp] theorem State.setDie_heldBeats (s : State) (k : Nat) (x : Die) : (s.setDie k x).heldBeats = s.heldBeats := rfl
@[simp] theorem State.setDie_snoopOver (s : State) (k : Nat) (x : Die) : (s.setDie k x).snoopOver = s.snoopOver := rfl
@[simp] theorem State.setDie_held (s : State) (k : Nat) (x : Die) : (s.setDie k x).held = s.held := rfl
@[simp] theorem State.setDie_frontiers (s : State) (k : Nat) (x : Die) : (s.setDie k x).frontiers = s.frontiers := rfl
@[simp] theorem State.setDie_refGt (s : State) (k : Nat) (x : Die) : (s.setDie k x).refGt = s.refGt := rfl
@[simp] theorem State.setDie_cycle (s : State) (k : Nat) (x : Die) : (s.setDie k x).cycle = s.cycle := rfl
@[simp] theorem State.setDie_agenda (s : State) (k : Nat) (x : Die) : (s.setDie k x).agenda = s.agenda := rfl
@[simp] theorem State.setDie_todo (s : State) (k : Nat) (x : Die) : (s.setDie k x).todo = s.todo := rfl
@[simp] theorem State.setDie_turnCore (s : State) (k : Nat) (x : Die) : (s.setDie k x).turnCore = s.turnCore := rfl
@[simp] theorem State.setDie_turnSlot (s : State) (k : Nat) (x : Die) : (s.setDie k x).turnSlot = s.turnSlot := rfl
@[simp] theorem State.setDie_closing (s : State) (k : Nat) (x : Die) : (s.setDie k x).closing = s.closing := rfl
@[simp] theorem State.setDie_free (s : State) (k : Nat) (x : Die) : (s.setDie k x).free = s.free := rfl
@[simp] theorem State.setDie_nextId (s : State) (k : Nat) (x : Die) : (s.setDie k x).nextId = s.nextId := rfl

/-! ### `modDie` -/

@[simp] theorem State.modDie_mem (s : State) (k : Nat) (f : Die → Die) : (s.modDie k f).mem = s.mem := rfl
@[simp] theorem State.modDie_fe (s : State) (k : Nat) (f : Die → Die) : (s.modDie k f).fe = s.fe := rfl
@[simp] theorem State.modDie_lines (s : State) (k : Nat) (f : Die → Die) : (s.modDie k f).lines = s.lines := rfl
@[simp] theorem State.modDie_copies (s : State) (k : Nat) (f : Die → Die) : (s.modDie k f).copies = s.copies := rfl
@[simp] theorem State.modDie_banks (s : State) (k : Nat) (f : Die → Die) : (s.modDie k f).banks = s.banks := rfl
@[simp] theorem State.modDie_lostLocal (s : State) (k : Nat) (f : Die → Die) : (s.modDie k f).lostLocal = s.lostLocal := rfl
@[simp] theorem State.modDie_cores (s : State) (k : Nat) (f : Die → Die) : (s.modDie k f).cores = s.cores := rfl
@[simp] theorem State.modDie_slots (s : State) (k : Nat) (f : Die → Die) : (s.modDie k f).slots = s.slots := rfl
@[simp] theorem State.modDie_quads (s : State) (k : Nat) (f : Die → Die) : (s.modDie k f).quads = s.quads := rfl
@[simp] theorem State.modDie_clusters (s : State) (k : Nat) (f : Die → Die) : (s.modDie k f).clusters = s.clusters := rfl
@[simp] theorem State.modDie_dies (s : State) (k : Nat) (f : Die → Die) : (s.modDie k f).dies = tset s.dies k (f (s.die k)) := rfl
@[simp] theorem State.modDie_parts (s : State) (k : Nat) (f : Die → Die) : (s.modDie k f).parts = s.parts := rfl
@[simp] theorem State.modDie_ctxs (s : State) (k : Nat) (f : Die → Die) : (s.modDie k f).ctxs = s.ctxs := rfl
@[simp] theorem State.modDie_dev (s : State) (k : Nat) (f : Die → Die) : (s.modDie k f).dev = s.dev := rfl
@[simp] theorem State.modDie_net (s : State) (k : Nat) (f : Die → Die) : (s.modDie k f).net = s.net := rfl
@[simp] theorem State.modDie_heldBeats (s : State) (k : Nat) (f : Die → Die) : (s.modDie k f).heldBeats = s.heldBeats := rfl
@[simp] theorem State.modDie_snoopOver (s : State) (k : Nat) (f : Die → Die) : (s.modDie k f).snoopOver = s.snoopOver := rfl
@[simp] theorem State.modDie_held (s : State) (k : Nat) (f : Die → Die) : (s.modDie k f).held = s.held := rfl
@[simp] theorem State.modDie_frontiers (s : State) (k : Nat) (f : Die → Die) : (s.modDie k f).frontiers = s.frontiers := rfl
@[simp] theorem State.modDie_refGt (s : State) (k : Nat) (f : Die → Die) : (s.modDie k f).refGt = s.refGt := rfl
@[simp] theorem State.modDie_cycle (s : State) (k : Nat) (f : Die → Die) : (s.modDie k f).cycle = s.cycle := rfl
@[simp] theorem State.modDie_agenda (s : State) (k : Nat) (f : Die → Die) : (s.modDie k f).agenda = s.agenda := rfl
@[simp] theorem State.modDie_todo (s : State) (k : Nat) (f : Die → Die) : (s.modDie k f).todo = s.todo := rfl
@[simp] theorem State.modDie_turnCore (s : State) (k : Nat) (f : Die → Die) : (s.modDie k f).turnCore = s.turnCore := rfl
@[simp] theorem State.modDie_turnSlot (s : State) (k : Nat) (f : Die → Die) : (s.modDie k f).turnSlot = s.turnSlot := rfl
@[simp] theorem State.modDie_closing (s : State) (k : Nat) (f : Die → Die) : (s.modDie k f).closing = s.closing := rfl
@[simp] theorem State.modDie_free (s : State) (k : Nat) (f : Die → Die) : (s.modDie k f).free = s.free := rfl
@[simp] theorem State.modDie_nextId (s : State) (k : Nat) (f : Die → Die) : (s.modDie k f).nextId = s.nextId := rfl

/-! ### `setPart` -/

@[simp] theorem State.setPart_mem (s : State) (k : Nat) (x : Part) : (s.setPart k x).mem = s.mem := rfl
@[simp] theorem State.setPart_fe (s : State) (k : Nat) (x : Part) : (s.setPart k x).fe = s.fe := rfl
@[simp] theorem State.setPart_lines (s : State) (k : Nat) (x : Part) : (s.setPart k x).lines = s.lines := rfl
@[simp] theorem State.setPart_copies (s : State) (k : Nat) (x : Part) : (s.setPart k x).copies = s.copies := rfl
@[simp] theorem State.setPart_banks (s : State) (k : Nat) (x : Part) : (s.setPart k x).banks = s.banks := rfl
@[simp] theorem State.setPart_lostLocal (s : State) (k : Nat) (x : Part) : (s.setPart k x).lostLocal = s.lostLocal := rfl
@[simp] theorem State.setPart_cores (s : State) (k : Nat) (x : Part) : (s.setPart k x).cores = s.cores := rfl
@[simp] theorem State.setPart_slots (s : State) (k : Nat) (x : Part) : (s.setPart k x).slots = s.slots := rfl
@[simp] theorem State.setPart_quads (s : State) (k : Nat) (x : Part) : (s.setPart k x).quads = s.quads := rfl
@[simp] theorem State.setPart_clusters (s : State) (k : Nat) (x : Part) : (s.setPart k x).clusters = s.clusters := rfl
@[simp] theorem State.setPart_dies (s : State) (k : Nat) (x : Part) : (s.setPart k x).dies = s.dies := rfl
@[simp] theorem State.setPart_parts (s : State) (k : Nat) (x : Part) : (s.setPart k x).parts = tset s.parts k x := rfl
@[simp] theorem State.setPart_ctxs (s : State) (k : Nat) (x : Part) : (s.setPart k x).ctxs = s.ctxs := rfl
@[simp] theorem State.setPart_dev (s : State) (k : Nat) (x : Part) : (s.setPart k x).dev = s.dev := rfl
@[simp] theorem State.setPart_net (s : State) (k : Nat) (x : Part) : (s.setPart k x).net = s.net := rfl
@[simp] theorem State.setPart_heldBeats (s : State) (k : Nat) (x : Part) : (s.setPart k x).heldBeats = s.heldBeats := rfl
@[simp] theorem State.setPart_snoopOver (s : State) (k : Nat) (x : Part) : (s.setPart k x).snoopOver = s.snoopOver := rfl
@[simp] theorem State.setPart_held (s : State) (k : Nat) (x : Part) : (s.setPart k x).held = s.held := rfl
@[simp] theorem State.setPart_frontiers (s : State) (k : Nat) (x : Part) : (s.setPart k x).frontiers = s.frontiers := rfl
@[simp] theorem State.setPart_refGt (s : State) (k : Nat) (x : Part) : (s.setPart k x).refGt = s.refGt := rfl
@[simp] theorem State.setPart_cycle (s : State) (k : Nat) (x : Part) : (s.setPart k x).cycle = s.cycle := rfl
@[simp] theorem State.setPart_agenda (s : State) (k : Nat) (x : Part) : (s.setPart k x).agenda = s.agenda := rfl
@[simp] theorem State.setPart_todo (s : State) (k : Nat) (x : Part) : (s.setPart k x).todo = s.todo := rfl
@[simp] theorem State.setPart_turnCore (s : State) (k : Nat) (x : Part) : (s.setPart k x).turnCore = s.turnCore := rfl
@[simp] theorem State.setPart_turnSlot (s : State) (k : Nat) (x : Part) : (s.setPart k x).turnSlot = s.turnSlot := rfl
@[simp] theorem State.setPart_closing (s : State) (k : Nat) (x : Part) : (s.setPart k x).closing = s.closing := rfl
@[simp] theorem State.setPart_free (s : State) (k : Nat) (x : Part) : (s.setPart k x).free = s.free := rfl
@[simp] theorem State.setPart_nextId (s : State) (k : Nat) (x : Part) : (s.setPart k x).nextId = s.nextId := rfl

/-! ### `modPart` -/

@[simp] theorem State.modPart_mem (s : State) (k : Nat) (f : Part → Part) : (s.modPart k f).mem = s.mem := rfl
@[simp] theorem State.modPart_fe (s : State) (k : Nat) (f : Part → Part) : (s.modPart k f).fe = s.fe := rfl
@[simp] theorem State.modPart_lines (s : State) (k : Nat) (f : Part → Part) : (s.modPart k f).lines = s.lines := rfl
@[simp] theorem State.modPart_copies (s : State) (k : Nat) (f : Part → Part) : (s.modPart k f).copies = s.copies := rfl
@[simp] theorem State.modPart_banks (s : State) (k : Nat) (f : Part → Part) : (s.modPart k f).banks = s.banks := rfl
@[simp] theorem State.modPart_lostLocal (s : State) (k : Nat) (f : Part → Part) : (s.modPart k f).lostLocal = s.lostLocal := rfl
@[simp] theorem State.modPart_cores (s : State) (k : Nat) (f : Part → Part) : (s.modPart k f).cores = s.cores := rfl
@[simp] theorem State.modPart_slots (s : State) (k : Nat) (f : Part → Part) : (s.modPart k f).slots = s.slots := rfl
@[simp] theorem State.modPart_quads (s : State) (k : Nat) (f : Part → Part) : (s.modPart k f).quads = s.quads := rfl
@[simp] theorem State.modPart_clusters (s : State) (k : Nat) (f : Part → Part) : (s.modPart k f).clusters = s.clusters := rfl
@[simp] theorem State.modPart_dies (s : State) (k : Nat) (f : Part → Part) : (s.modPart k f).dies = s.dies := rfl
@[simp] theorem State.modPart_parts (s : State) (k : Nat) (f : Part → Part) : (s.modPart k f).parts = tset s.parts k (f (s.part k)) := rfl
@[simp] theorem State.modPart_ctxs (s : State) (k : Nat) (f : Part → Part) : (s.modPart k f).ctxs = s.ctxs := rfl
@[simp] theorem State.modPart_dev (s : State) (k : Nat) (f : Part → Part) : (s.modPart k f).dev = s.dev := rfl
@[simp] theorem State.modPart_net (s : State) (k : Nat) (f : Part → Part) : (s.modPart k f).net = s.net := rfl
@[simp] theorem State.modPart_heldBeats (s : State) (k : Nat) (f : Part → Part) : (s.modPart k f).heldBeats = s.heldBeats := rfl
@[simp] theorem State.modPart_snoopOver (s : State) (k : Nat) (f : Part → Part) : (s.modPart k f).snoopOver = s.snoopOver := rfl
@[simp] theorem State.modPart_held (s : State) (k : Nat) (f : Part → Part) : (s.modPart k f).held = s.held := rfl
@[simp] theorem State.modPart_frontiers (s : State) (k : Nat) (f : Part → Part) : (s.modPart k f).frontiers = s.frontiers := rfl
@[simp] theorem State.modPart_refGt (s : State) (k : Nat) (f : Part → Part) : (s.modPart k f).refGt = s.refGt := rfl
@[simp] theorem State.modPart_cycle (s : State) (k : Nat) (f : Part → Part) : (s.modPart k f).cycle = s.cycle := rfl
@[simp] theorem State.modPart_agenda (s : State) (k : Nat) (f : Part → Part) : (s.modPart k f).agenda = s.agenda := rfl
@[simp] theorem State.modPart_todo (s : State) (k : Nat) (f : Part → Part) : (s.modPart k f).todo = s.todo := rfl
@[simp] theorem State.modPart_turnCore (s : State) (k : Nat) (f : Part → Part) : (s.modPart k f).turnCore = s.turnCore := rfl
@[simp] theorem State.modPart_turnSlot (s : State) (k : Nat) (f : Part → Part) : (s.modPart k f).turnSlot = s.turnSlot := rfl
@[simp] theorem State.modPart_closing (s : State) (k : Nat) (f : Part → Part) : (s.modPart k f).closing = s.closing := rfl
@[simp] theorem State.modPart_free (s : State) (k : Nat) (f : Part → Part) : (s.modPart k f).free = s.free := rfl
@[simp] theorem State.modPart_nextId (s : State) (k : Nat) (f : Part → Part) : (s.modPart k f).nextId = s.nextId := rfl

/-! ### `setCtx` -/

@[simp] theorem State.setCtx_mem (s : State) (k : Nat) (x : Ctx) : (s.setCtx k x).mem = s.mem := rfl
@[simp] theorem State.setCtx_fe (s : State) (k : Nat) (x : Ctx) : (s.setCtx k x).fe = s.fe := rfl
@[simp] theorem State.setCtx_lines (s : State) (k : Nat) (x : Ctx) : (s.setCtx k x).lines = s.lines := rfl
@[simp] theorem State.setCtx_copies (s : State) (k : Nat) (x : Ctx) : (s.setCtx k x).copies = s.copies := rfl
@[simp] theorem State.setCtx_banks (s : State) (k : Nat) (x : Ctx) : (s.setCtx k x).banks = s.banks := rfl
@[simp] theorem State.setCtx_lostLocal (s : State) (k : Nat) (x : Ctx) : (s.setCtx k x).lostLocal = s.lostLocal := rfl
@[simp] theorem State.setCtx_cores (s : State) (k : Nat) (x : Ctx) : (s.setCtx k x).cores = s.cores := rfl
@[simp] theorem State.setCtx_slots (s : State) (k : Nat) (x : Ctx) : (s.setCtx k x).slots = s.slots := rfl
@[simp] theorem State.setCtx_quads (s : State) (k : Nat) (x : Ctx) : (s.setCtx k x).quads = s.quads := rfl
@[simp] theorem State.setCtx_clusters (s : State) (k : Nat) (x : Ctx) : (s.setCtx k x).clusters = s.clusters := rfl
@[simp] theorem State.setCtx_dies (s : State) (k : Nat) (x : Ctx) : (s.setCtx k x).dies = s.dies := rfl
@[simp] theorem State.setCtx_parts (s : State) (k : Nat) (x : Ctx) : (s.setCtx k x).parts = s.parts := rfl
@[simp] theorem State.setCtx_ctxs (s : State) (k : Nat) (x : Ctx) : (s.setCtx k x).ctxs = tset s.ctxs k x := rfl
@[simp] theorem State.setCtx_dev (s : State) (k : Nat) (x : Ctx) : (s.setCtx k x).dev = s.dev := rfl
@[simp] theorem State.setCtx_net (s : State) (k : Nat) (x : Ctx) : (s.setCtx k x).net = s.net := rfl
@[simp] theorem State.setCtx_heldBeats (s : State) (k : Nat) (x : Ctx) : (s.setCtx k x).heldBeats = s.heldBeats := rfl
@[simp] theorem State.setCtx_snoopOver (s : State) (k : Nat) (x : Ctx) : (s.setCtx k x).snoopOver = s.snoopOver := rfl
@[simp] theorem State.setCtx_held (s : State) (k : Nat) (x : Ctx) : (s.setCtx k x).held = s.held := rfl
@[simp] theorem State.setCtx_frontiers (s : State) (k : Nat) (x : Ctx) : (s.setCtx k x).frontiers = s.frontiers := rfl
@[simp] theorem State.setCtx_refGt (s : State) (k : Nat) (x : Ctx) : (s.setCtx k x).refGt = s.refGt := rfl
@[simp] theorem State.setCtx_cycle (s : State) (k : Nat) (x : Ctx) : (s.setCtx k x).cycle = s.cycle := rfl
@[simp] theorem State.setCtx_agenda (s : State) (k : Nat) (x : Ctx) : (s.setCtx k x).agenda = s.agenda := rfl
@[simp] theorem State.setCtx_todo (s : State) (k : Nat) (x : Ctx) : (s.setCtx k x).todo = s.todo := rfl
@[simp] theorem State.setCtx_turnCore (s : State) (k : Nat) (x : Ctx) : (s.setCtx k x).turnCore = s.turnCore := rfl
@[simp] theorem State.setCtx_turnSlot (s : State) (k : Nat) (x : Ctx) : (s.setCtx k x).turnSlot = s.turnSlot := rfl
@[simp] theorem State.setCtx_closing (s : State) (k : Nat) (x : Ctx) : (s.setCtx k x).closing = s.closing := rfl
@[simp] theorem State.setCtx_free (s : State) (k : Nat) (x : Ctx) : (s.setCtx k x).free = s.free := rfl
@[simp] theorem State.setCtx_nextId (s : State) (k : Nat) (x : Ctx) : (s.setCtx k x).nextId = s.nextId := rfl

/-! ### `modCtx` -/

@[simp] theorem State.modCtx_mem (s : State) (k : Nat) (f : Ctx → Ctx) : (s.modCtx k f).mem = s.mem := rfl
@[simp] theorem State.modCtx_fe (s : State) (k : Nat) (f : Ctx → Ctx) : (s.modCtx k f).fe = s.fe := rfl
@[simp] theorem State.modCtx_lines (s : State) (k : Nat) (f : Ctx → Ctx) : (s.modCtx k f).lines = s.lines := rfl
@[simp] theorem State.modCtx_copies (s : State) (k : Nat) (f : Ctx → Ctx) : (s.modCtx k f).copies = s.copies := rfl
@[simp] theorem State.modCtx_banks (s : State) (k : Nat) (f : Ctx → Ctx) : (s.modCtx k f).banks = s.banks := rfl
@[simp] theorem State.modCtx_lostLocal (s : State) (k : Nat) (f : Ctx → Ctx) : (s.modCtx k f).lostLocal = s.lostLocal := rfl
@[simp] theorem State.modCtx_cores (s : State) (k : Nat) (f : Ctx → Ctx) : (s.modCtx k f).cores = s.cores := rfl
@[simp] theorem State.modCtx_slots (s : State) (k : Nat) (f : Ctx → Ctx) : (s.modCtx k f).slots = s.slots := rfl
@[simp] theorem State.modCtx_quads (s : State) (k : Nat) (f : Ctx → Ctx) : (s.modCtx k f).quads = s.quads := rfl
@[simp] theorem State.modCtx_clusters (s : State) (k : Nat) (f : Ctx → Ctx) : (s.modCtx k f).clusters = s.clusters := rfl
@[simp] theorem State.modCtx_dies (s : State) (k : Nat) (f : Ctx → Ctx) : (s.modCtx k f).dies = s.dies := rfl
@[simp] theorem State.modCtx_parts (s : State) (k : Nat) (f : Ctx → Ctx) : (s.modCtx k f).parts = s.parts := rfl
@[simp] theorem State.modCtx_ctxs (s : State) (k : Nat) (f : Ctx → Ctx) : (s.modCtx k f).ctxs = tset s.ctxs k (f (s.ctx k)) := rfl
@[simp] theorem State.modCtx_dev (s : State) (k : Nat) (f : Ctx → Ctx) : (s.modCtx k f).dev = s.dev := rfl
@[simp] theorem State.modCtx_net (s : State) (k : Nat) (f : Ctx → Ctx) : (s.modCtx k f).net = s.net := rfl
@[simp] theorem State.modCtx_heldBeats (s : State) (k : Nat) (f : Ctx → Ctx) : (s.modCtx k f).heldBeats = s.heldBeats := rfl
@[simp] theorem State.modCtx_snoopOver (s : State) (k : Nat) (f : Ctx → Ctx) : (s.modCtx k f).snoopOver = s.snoopOver := rfl
@[simp] theorem State.modCtx_held (s : State) (k : Nat) (f : Ctx → Ctx) : (s.modCtx k f).held = s.held := rfl
@[simp] theorem State.modCtx_frontiers (s : State) (k : Nat) (f : Ctx → Ctx) : (s.modCtx k f).frontiers = s.frontiers := rfl
@[simp] theorem State.modCtx_refGt (s : State) (k : Nat) (f : Ctx → Ctx) : (s.modCtx k f).refGt = s.refGt := rfl
@[simp] theorem State.modCtx_cycle (s : State) (k : Nat) (f : Ctx → Ctx) : (s.modCtx k f).cycle = s.cycle := rfl
@[simp] theorem State.modCtx_agenda (s : State) (k : Nat) (f : Ctx → Ctx) : (s.modCtx k f).agenda = s.agenda := rfl
@[simp] theorem State.modCtx_todo (s : State) (k : Nat) (f : Ctx → Ctx) : (s.modCtx k f).todo = s.todo := rfl
@[simp] theorem State.modCtx_turnCore (s : State) (k : Nat) (f : Ctx → Ctx) : (s.modCtx k f).turnCore = s.turnCore := rfl
@[simp] theorem State.modCtx_turnSlot (s : State) (k : Nat) (f : Ctx → Ctx) : (s.modCtx k f).turnSlot = s.turnSlot := rfl
@[simp] theorem State.modCtx_closing (s : State) (k : Nat) (f : Ctx → Ctx) : (s.modCtx k f).closing = s.closing := rfl
@[simp] theorem State.modCtx_free (s : State) (k : Nat) (f : Ctx → Ctx) : (s.modCtx k f).free = s.free := rfl
@[simp] theorem State.modCtx_nextId (s : State) (k : Nat) (f : Ctx → Ctx) : (s.modCtx k f).nextId = s.nextId := rfl

/-! ### `setLine` -/

@[simp] theorem State.setLine_mem (s : State) (k : Nat) (x : Line) : (s.setLine k x).mem = s.mem := rfl
@[simp] theorem State.setLine_fe (s : State) (k : Nat) (x : Line) : (s.setLine k x).fe = s.fe := rfl
@[simp] theorem State.setLine_lines (s : State) (k : Nat) (x : Line) : (s.setLine k x).lines = tset s.lines k x := rfl
@[simp] theorem State.setLine_copies (s : State) (k : Nat) (x : Line) : (s.setLine k x).copies = s.copies := rfl
@[simp] theorem State.setLine_banks (s : State) (k : Nat) (x : Line) : (s.setLine k x).banks = s.banks := rfl
@[simp] theorem State.setLine_lostLocal (s : State) (k : Nat) (x : Line) : (s.setLine k x).lostLocal = s.lostLocal := rfl
@[simp] theorem State.setLine_cores (s : State) (k : Nat) (x : Line) : (s.setLine k x).cores = s.cores := rfl
@[simp] theorem State.setLine_slots (s : State) (k : Nat) (x : Line) : (s.setLine k x).slots = s.slots := rfl
@[simp] theorem State.setLine_quads (s : State) (k : Nat) (x : Line) : (s.setLine k x).quads = s.quads := rfl
@[simp] theorem State.setLine_clusters (s : State) (k : Nat) (x : Line) : (s.setLine k x).clusters = s.clusters := rfl
@[simp] theorem State.setLine_dies (s : State) (k : Nat) (x : Line) : (s.setLine k x).dies = s.dies := rfl
@[simp] theorem State.setLine_parts (s : State) (k : Nat) (x : Line) : (s.setLine k x).parts = s.parts := rfl
@[simp] theorem State.setLine_ctxs (s : State) (k : Nat) (x : Line) : (s.setLine k x).ctxs = s.ctxs := rfl
@[simp] theorem State.setLine_dev (s : State) (k : Nat) (x : Line) : (s.setLine k x).dev = s.dev := rfl
@[simp] theorem State.setLine_net (s : State) (k : Nat) (x : Line) : (s.setLine k x).net = s.net := rfl
@[simp] theorem State.setLine_heldBeats (s : State) (k : Nat) (x : Line) : (s.setLine k x).heldBeats = s.heldBeats := rfl
@[simp] theorem State.setLine_snoopOver (s : State) (k : Nat) (x : Line) : (s.setLine k x).snoopOver = s.snoopOver := rfl
@[simp] theorem State.setLine_held (s : State) (k : Nat) (x : Line) : (s.setLine k x).held = s.held := rfl
@[simp] theorem State.setLine_frontiers (s : State) (k : Nat) (x : Line) : (s.setLine k x).frontiers = s.frontiers := rfl
@[simp] theorem State.setLine_refGt (s : State) (k : Nat) (x : Line) : (s.setLine k x).refGt = s.refGt := rfl
@[simp] theorem State.setLine_cycle (s : State) (k : Nat) (x : Line) : (s.setLine k x).cycle = s.cycle := rfl
@[simp] theorem State.setLine_agenda (s : State) (k : Nat) (x : Line) : (s.setLine k x).agenda = s.agenda := rfl
@[simp] theorem State.setLine_todo (s : State) (k : Nat) (x : Line) : (s.setLine k x).todo = s.todo := rfl
@[simp] theorem State.setLine_turnCore (s : State) (k : Nat) (x : Line) : (s.setLine k x).turnCore = s.turnCore := rfl
@[simp] theorem State.setLine_turnSlot (s : State) (k : Nat) (x : Line) : (s.setLine k x).turnSlot = s.turnSlot := rfl
@[simp] theorem State.setLine_closing (s : State) (k : Nat) (x : Line) : (s.setLine k x).closing = s.closing := rfl
@[simp] theorem State.setLine_free (s : State) (k : Nat) (x : Line) : (s.setLine k x).free = s.free := rfl
@[simp] theorem State.setLine_nextId (s : State) (k : Nat) (x : Line) : (s.setLine k x).nextId = s.nextId := rfl

/-! ### `modLine` -/

@[simp] theorem State.modLine_mem (s : State) (k : Nat) (f : Line → Line) : (s.modLine k f).mem = s.mem := rfl
@[simp] theorem State.modLine_fe (s : State) (k : Nat) (f : Line → Line) : (s.modLine k f).fe = s.fe := rfl
@[simp] theorem State.modLine_lines (s : State) (k : Nat) (f : Line → Line) : (s.modLine k f).lines = tset s.lines k (f (s.line k)) := rfl
@[simp] theorem State.modLine_copies (s : State) (k : Nat) (f : Line → Line) : (s.modLine k f).copies = s.copies := rfl
@[simp] theorem State.modLine_banks (s : State) (k : Nat) (f : Line → Line) : (s.modLine k f).banks = s.banks := rfl
@[simp] theorem State.modLine_lostLocal (s : State) (k : Nat) (f : Line → Line) : (s.modLine k f).lostLocal = s.lostLocal := rfl
@[simp] theorem State.modLine_cores (s : State) (k : Nat) (f : Line → Line) : (s.modLine k f).cores = s.cores := rfl
@[simp] theorem State.modLine_slots (s : State) (k : Nat) (f : Line → Line) : (s.modLine k f).slots = s.slots := rfl
@[simp] theorem State.modLine_quads (s : State) (k : Nat) (f : Line → Line) : (s.modLine k f).quads = s.quads := rfl
@[simp] theorem State.modLine_clusters (s : State) (k : Nat) (f : Line → Line) : (s.modLine k f).clusters = s.clusters := rfl
@[simp] theorem State.modLine_dies (s : State) (k : Nat) (f : Line → Line) : (s.modLine k f).dies = s.dies := rfl
@[simp] theorem State.modLine_parts (s : State) (k : Nat) (f : Line → Line) : (s.modLine k f).parts = s.parts := rfl
@[simp] theorem State.modLine_ctxs (s : State) (k : Nat) (f : Line → Line) : (s.modLine k f).ctxs = s.ctxs := rfl
@[simp] theorem State.modLine_dev (s : State) (k : Nat) (f : Line → Line) : (s.modLine k f).dev = s.dev := rfl
@[simp] theorem State.modLine_net (s : State) (k : Nat) (f : Line → Line) : (s.modLine k f).net = s.net := rfl
@[simp] theorem State.modLine_heldBeats (s : State) (k : Nat) (f : Line → Line) : (s.modLine k f).heldBeats = s.heldBeats := rfl
@[simp] theorem State.modLine_snoopOver (s : State) (k : Nat) (f : Line → Line) : (s.modLine k f).snoopOver = s.snoopOver := rfl
@[simp] theorem State.modLine_held (s : State) (k : Nat) (f : Line → Line) : (s.modLine k f).held = s.held := rfl
@[simp] theorem State.modLine_frontiers (s : State) (k : Nat) (f : Line → Line) : (s.modLine k f).frontiers = s.frontiers := rfl
@[simp] theorem State.modLine_refGt (s : State) (k : Nat) (f : Line → Line) : (s.modLine k f).refGt = s.refGt := rfl
@[simp] theorem State.modLine_cycle (s : State) (k : Nat) (f : Line → Line) : (s.modLine k f).cycle = s.cycle := rfl
@[simp] theorem State.modLine_agenda (s : State) (k : Nat) (f : Line → Line) : (s.modLine k f).agenda = s.agenda := rfl
@[simp] theorem State.modLine_todo (s : State) (k : Nat) (f : Line → Line) : (s.modLine k f).todo = s.todo := rfl
@[simp] theorem State.modLine_turnCore (s : State) (k : Nat) (f : Line → Line) : (s.modLine k f).turnCore = s.turnCore := rfl
@[simp] theorem State.modLine_turnSlot (s : State) (k : Nat) (f : Line → Line) : (s.modLine k f).turnSlot = s.turnSlot := rfl
@[simp] theorem State.modLine_closing (s : State) (k : Nat) (f : Line → Line) : (s.modLine k f).closing = s.closing := rfl
@[simp] theorem State.modLine_free (s : State) (k : Nat) (f : Line → Line) : (s.modLine k f).free = s.free := rfl
@[simp] theorem State.modLine_nextId (s : State) (k : Nat) (f : Line → Line) : (s.modLine k f).nextId = s.nextId := rfl

/-! ### `setBank` -/

@[simp] theorem State.setBank_mem (s : State) (k : Nat) (x : Bank) : (s.setBank k x).mem = s.mem := rfl
@[simp] theorem State.setBank_fe (s : State) (k : Nat) (x : Bank) : (s.setBank k x).fe = s.fe := rfl
@[simp] theorem State.setBank_lines (s : State) (k : Nat) (x : Bank) : (s.setBank k x).lines = s.lines := rfl
@[simp] theorem State.setBank_copies (s : State) (k : Nat) (x : Bank) : (s.setBank k x).copies = s.copies := rfl
@[simp] theorem State.setBank_banks (s : State) (k : Nat) (x : Bank) : (s.setBank k x).banks = tset s.banks k x := rfl
@[simp] theorem State.setBank_lostLocal (s : State) (k : Nat) (x : Bank) : (s.setBank k x).lostLocal = s.lostLocal := rfl
@[simp] theorem State.setBank_cores (s : State) (k : Nat) (x : Bank) : (s.setBank k x).cores = s.cores := rfl
@[simp] theorem State.setBank_slots (s : State) (k : Nat) (x : Bank) : (s.setBank k x).slots = s.slots := rfl
@[simp] theorem State.setBank_quads (s : State) (k : Nat) (x : Bank) : (s.setBank k x).quads = s.quads := rfl
@[simp] theorem State.setBank_clusters (s : State) (k : Nat) (x : Bank) : (s.setBank k x).clusters = s.clusters := rfl
@[simp] theorem State.setBank_dies (s : State) (k : Nat) (x : Bank) : (s.setBank k x).dies = s.dies := rfl
@[simp] theorem State.setBank_parts (s : State) (k : Nat) (x : Bank) : (s.setBank k x).parts = s.parts := rfl
@[simp] theorem State.setBank_ctxs (s : State) (k : Nat) (x : Bank) : (s.setBank k x).ctxs = s.ctxs := rfl
@[simp] theorem State.setBank_dev (s : State) (k : Nat) (x : Bank) : (s.setBank k x).dev = s.dev := rfl
@[simp] theorem State.setBank_net (s : State) (k : Nat) (x : Bank) : (s.setBank k x).net = s.net := rfl
@[simp] theorem State.setBank_heldBeats (s : State) (k : Nat) (x : Bank) : (s.setBank k x).heldBeats = s.heldBeats := rfl
@[simp] theorem State.setBank_snoopOver (s : State) (k : Nat) (x : Bank) : (s.setBank k x).snoopOver = s.snoopOver := rfl
@[simp] theorem State.setBank_held (s : State) (k : Nat) (x : Bank) : (s.setBank k x).held = s.held := rfl
@[simp] theorem State.setBank_frontiers (s : State) (k : Nat) (x : Bank) : (s.setBank k x).frontiers = s.frontiers := rfl
@[simp] theorem State.setBank_refGt (s : State) (k : Nat) (x : Bank) : (s.setBank k x).refGt = s.refGt := rfl
@[simp] theorem State.setBank_cycle (s : State) (k : Nat) (x : Bank) : (s.setBank k x).cycle = s.cycle := rfl
@[simp] theorem State.setBank_agenda (s : State) (k : Nat) (x : Bank) : (s.setBank k x).agenda = s.agenda := rfl
@[simp] theorem State.setBank_todo (s : State) (k : Nat) (x : Bank) : (s.setBank k x).todo = s.todo := rfl
@[simp] theorem State.setBank_turnCore (s : State) (k : Nat) (x : Bank) : (s.setBank k x).turnCore = s.turnCore := rfl
@[simp] theorem State.setBank_turnSlot (s : State) (k : Nat) (x : Bank) : (s.setBank k x).turnSlot = s.turnSlot := rfl
@[simp] theorem State.setBank_closing (s : State) (k : Nat) (x : Bank) : (s.setBank k x).closing = s.closing := rfl
@[simp] theorem State.setBank_free (s : State) (k : Nat) (x : Bank) : (s.setBank k x).free = s.free := rfl
@[simp] theorem State.setBank_nextId (s : State) (k : Nat) (x : Bank) : (s.setBank k x).nextId = s.nextId := rfl

/-! ### `modBank` -/

@[simp] theorem State.modBank_mem (s : State) (k : Nat) (f : Bank → Bank) : (s.modBank k f).mem = s.mem := rfl
@[simp] theorem State.modBank_fe (s : State) (k : Nat) (f : Bank → Bank) : (s.modBank k f).fe = s.fe := rfl
@[simp] theorem State.modBank_lines (s : State) (k : Nat) (f : Bank → Bank) : (s.modBank k f).lines = s.lines := rfl
@[simp] theorem State.modBank_copies (s : State) (k : Nat) (f : Bank → Bank) : (s.modBank k f).copies = s.copies := rfl
@[simp] theorem State.modBank_banks (s : State) (k : Nat) (f : Bank → Bank) : (s.modBank k f).banks = tset s.banks k (f (s.bank k)) := rfl
@[simp] theorem State.modBank_lostLocal (s : State) (k : Nat) (f : Bank → Bank) : (s.modBank k f).lostLocal = s.lostLocal := rfl
@[simp] theorem State.modBank_cores (s : State) (k : Nat) (f : Bank → Bank) : (s.modBank k f).cores = s.cores := rfl
@[simp] theorem State.modBank_slots (s : State) (k : Nat) (f : Bank → Bank) : (s.modBank k f).slots = s.slots := rfl
@[simp] theorem State.modBank_quads (s : State) (k : Nat) (f : Bank → Bank) : (s.modBank k f).quads = s.quads := rfl
@[simp] theorem State.modBank_clusters (s : State) (k : Nat) (f : Bank → Bank) : (s.modBank k f).clusters = s.clusters := rfl
@[simp] theorem State.modBank_dies (s : State) (k : Nat) (f : Bank → Bank) : (s.modBank k f).dies = s.dies := rfl
@[simp] theorem State.modBank_parts (s : State) (k : Nat) (f : Bank → Bank) : (s.modBank k f).parts = s.parts := rfl
@[simp] theorem State.modBank_ctxs (s : State) (k : Nat) (f : Bank → Bank) : (s.modBank k f).ctxs = s.ctxs := rfl
@[simp] theorem State.modBank_dev (s : State) (k : Nat) (f : Bank → Bank) : (s.modBank k f).dev = s.dev := rfl
@[simp] theorem State.modBank_net (s : State) (k : Nat) (f : Bank → Bank) : (s.modBank k f).net = s.net := rfl
@[simp] theorem State.modBank_heldBeats (s : State) (k : Nat) (f : Bank → Bank) : (s.modBank k f).heldBeats = s.heldBeats := rfl
@[simp] theorem State.modBank_snoopOver (s : State) (k : Nat) (f : Bank → Bank) : (s.modBank k f).snoopOver = s.snoopOver := rfl
@[simp] theorem State.modBank_held (s : State) (k : Nat) (f : Bank → Bank) : (s.modBank k f).held = s.held := rfl
@[simp] theorem State.modBank_frontiers (s : State) (k : Nat) (f : Bank → Bank) : (s.modBank k f).frontiers = s.frontiers := rfl
@[simp] theorem State.modBank_refGt (s : State) (k : Nat) (f : Bank → Bank) : (s.modBank k f).refGt = s.refGt := rfl
@[simp] theorem State.modBank_cycle (s : State) (k : Nat) (f : Bank → Bank) : (s.modBank k f).cycle = s.cycle := rfl
@[simp] theorem State.modBank_agenda (s : State) (k : Nat) (f : Bank → Bank) : (s.modBank k f).agenda = s.agenda := rfl
@[simp] theorem State.modBank_todo (s : State) (k : Nat) (f : Bank → Bank) : (s.modBank k f).todo = s.todo := rfl
@[simp] theorem State.modBank_turnCore (s : State) (k : Nat) (f : Bank → Bank) : (s.modBank k f).turnCore = s.turnCore := rfl
@[simp] theorem State.modBank_turnSlot (s : State) (k : Nat) (f : Bank → Bank) : (s.modBank k f).turnSlot = s.turnSlot := rfl
@[simp] theorem State.modBank_closing (s : State) (k : Nat) (f : Bank → Bank) : (s.modBank k f).closing = s.closing := rfl
@[simp] theorem State.modBank_free (s : State) (k : Nat) (f : Bank → Bank) : (s.modBank k f).free = s.free := rfl
@[simp] theorem State.modBank_nextId (s : State) (k : Nat) (f : Bank → Bank) : (s.modBank k f).nextId = s.nextId := rfl

/-! ### `setCopy` -/

@[simp] theorem State.setCopy_mem (s : State) (h l : Nat) (c : Copy) : (s.setCopy h l c).mem = s.mem := rfl
@[simp] theorem State.setCopy_fe (s : State) (h l : Nat) (c : Copy) : (s.setCopy h l c).fe = s.fe := rfl
@[simp] theorem State.setCopy_lines (s : State) (h l : Nat) (c : Copy) : (s.setCopy h l c).lines = s.lines := rfl
@[simp] theorem State.setCopy_copies (s : State) (h l : Nat) (c : Copy) : (s.setCopy h l c).copies = tset s.copies h (tset (tget s.copies h) l c) := rfl
@[simp] theorem State.setCopy_banks (s : State) (h l : Nat) (c : Copy) : (s.setCopy h l c).banks = s.banks := rfl
@[simp] theorem State.setCopy_lostLocal (s : State) (h l : Nat) (c : Copy) : (s.setCopy h l c).lostLocal = s.lostLocal := rfl
@[simp] theorem State.setCopy_cores (s : State) (h l : Nat) (c : Copy) : (s.setCopy h l c).cores = s.cores := rfl
@[simp] theorem State.setCopy_slots (s : State) (h l : Nat) (c : Copy) : (s.setCopy h l c).slots = s.slots := rfl
@[simp] theorem State.setCopy_quads (s : State) (h l : Nat) (c : Copy) : (s.setCopy h l c).quads = s.quads := rfl
@[simp] theorem State.setCopy_clusters (s : State) (h l : Nat) (c : Copy) : (s.setCopy h l c).clusters = s.clusters := rfl
@[simp] theorem State.setCopy_dies (s : State) (h l : Nat) (c : Copy) : (s.setCopy h l c).dies = s.dies := rfl
@[simp] theorem State.setCopy_parts (s : State) (h l : Nat) (c : Copy) : (s.setCopy h l c).parts = s.parts := rfl
@[simp] theorem State.setCopy_ctxs (s : State) (h l : Nat) (c : Copy) : (s.setCopy h l c).ctxs = s.ctxs := rfl
@[simp] theorem State.setCopy_dev (s : State) (h l : Nat) (c : Copy) : (s.setCopy h l c).dev = s.dev := rfl
@[simp] theorem State.setCopy_net (s : State) (h l : Nat) (c : Copy) : (s.setCopy h l c).net = s.net := rfl
@[simp] theorem State.setCopy_heldBeats (s : State) (h l : Nat) (c : Copy) : (s.setCopy h l c).heldBeats = s.heldBeats := rfl
@[simp] theorem State.setCopy_snoopOver (s : State) (h l : Nat) (c : Copy) : (s.setCopy h l c).snoopOver = s.snoopOver := rfl
@[simp] theorem State.setCopy_held (s : State) (h l : Nat) (c : Copy) : (s.setCopy h l c).held = s.held := rfl
@[simp] theorem State.setCopy_frontiers (s : State) (h l : Nat) (c : Copy) : (s.setCopy h l c).frontiers = s.frontiers := rfl
@[simp] theorem State.setCopy_refGt (s : State) (h l : Nat) (c : Copy) : (s.setCopy h l c).refGt = s.refGt := rfl
@[simp] theorem State.setCopy_cycle (s : State) (h l : Nat) (c : Copy) : (s.setCopy h l c).cycle = s.cycle := rfl
@[simp] theorem State.setCopy_agenda (s : State) (h l : Nat) (c : Copy) : (s.setCopy h l c).agenda = s.agenda := rfl
@[simp] theorem State.setCopy_todo (s : State) (h l : Nat) (c : Copy) : (s.setCopy h l c).todo = s.todo := rfl
@[simp] theorem State.setCopy_turnCore (s : State) (h l : Nat) (c : Copy) : (s.setCopy h l c).turnCore = s.turnCore := rfl
@[simp] theorem State.setCopy_turnSlot (s : State) (h l : Nat) (c : Copy) : (s.setCopy h l c).turnSlot = s.turnSlot := rfl
@[simp] theorem State.setCopy_closing (s : State) (h l : Nat) (c : Copy) : (s.setCopy h l c).closing = s.closing := rfl
@[simp] theorem State.setCopy_free (s : State) (h l : Nat) (c : Copy) : (s.setCopy h l c).free = s.free := rfl
@[simp] theorem State.setCopy_nextId (s : State) (h l : Nat) (c : Copy) : (s.setCopy h l c).nextId = s.nextId := rfl

/-! ### `delCopy` -/

@[simp] theorem State.delCopy_mem (s : State) (h l : Nat) : (s.delCopy h l).mem = s.mem := rfl
@[simp] theorem State.delCopy_fe (s : State) (h l : Nat) : (s.delCopy h l).fe = s.fe := rfl
@[simp] theorem State.delCopy_lines (s : State) (h l : Nat) : (s.delCopy h l).lines = s.lines := rfl
@[simp] theorem State.delCopy_copies (s : State) (h l : Nat) : (s.delCopy h l).copies = tset s.copies h (tdel (tget s.copies h) l) := rfl
@[simp] theorem State.delCopy_banks (s : State) (h l : Nat) : (s.delCopy h l).banks = s.banks := rfl
@[simp] theorem State.delCopy_lostLocal (s : State) (h l : Nat) : (s.delCopy h l).lostLocal = s.lostLocal := rfl
@[simp] theorem State.delCopy_cores (s : State) (h l : Nat) : (s.delCopy h l).cores = s.cores := rfl
@[simp] theorem State.delCopy_slots (s : State) (h l : Nat) : (s.delCopy h l).slots = s.slots := rfl
@[simp] theorem State.delCopy_quads (s : State) (h l : Nat) : (s.delCopy h l).quads = s.quads := rfl
@[simp] theorem State.delCopy_clusters (s : State) (h l : Nat) : (s.delCopy h l).clusters = s.clusters := rfl
@[simp] theorem State.delCopy_dies (s : State) (h l : Nat) : (s.delCopy h l).dies = s.dies := rfl
@[simp] theorem State.delCopy_parts (s : State) (h l : Nat) : (s.delCopy h l).parts = s.parts := rfl
@[simp] theorem State.delCopy_ctxs (s : State) (h l : Nat) : (s.delCopy h l).ctxs = s.ctxs := rfl
@[simp] theorem State.delCopy_dev (s : State) (h l : Nat) : (s.delCopy h l).dev = s.dev := rfl
@[simp] theorem State.delCopy_net (s : State) (h l : Nat) : (s.delCopy h l).net = s.net := rfl
@[simp] theorem State.delCopy_heldBeats (s : State) (h l : Nat) : (s.delCopy h l).heldBeats = s.heldBeats := rfl
@[simp] theorem State.delCopy_snoopOver (s : State) (h l : Nat) : (s.delCopy h l).snoopOver = s.snoopOver := rfl
@[simp] theorem State.delCopy_held (s : State) (h l : Nat) : (s.delCopy h l).held = s.held := rfl
@[simp] theorem State.delCopy_frontiers (s : State) (h l : Nat) : (s.delCopy h l).frontiers = s.frontiers := rfl
@[simp] theorem State.delCopy_refGt (s : State) (h l : Nat) : (s.delCopy h l).refGt = s.refGt := rfl
@[simp] theorem State.delCopy_cycle (s : State) (h l : Nat) : (s.delCopy h l).cycle = s.cycle := rfl
@[simp] theorem State.delCopy_agenda (s : State) (h l : Nat) : (s.delCopy h l).agenda = s.agenda := rfl
@[simp] theorem State.delCopy_todo (s : State) (h l : Nat) : (s.delCopy h l).todo = s.todo := rfl
@[simp] theorem State.delCopy_turnCore (s : State) (h l : Nat) : (s.delCopy h l).turnCore = s.turnCore := rfl
@[simp] theorem State.delCopy_turnSlot (s : State) (h l : Nat) : (s.delCopy h l).turnSlot = s.turnSlot := rfl
@[simp] theorem State.delCopy_closing (s : State) (h l : Nat) : (s.delCopy h l).closing = s.closing := rfl
@[simp] theorem State.delCopy_free (s : State) (h l : Nat) : (s.delCopy h l).free = s.free := rfl
@[simp] theorem State.delCopy_nextId (s : State) (h l : Nat) : (s.delCopy h l).nextId = s.nextId := rfl

/-! ### `setWin` -/

@[simp] theorem State.setWin_mem (s : State) (g w : Nat) (x : Window) : (s.setWin g w x).mem = s.mem := rfl
@[simp] theorem State.setWin_fe (s : State) (g w : Nat) (x : Window) : (s.setWin g w x).fe = s.fe := rfl
@[simp] theorem State.setWin_lines (s : State) (g w : Nat) (x : Window) : (s.setWin g w x).lines = s.lines := rfl
@[simp] theorem State.setWin_copies (s : State) (g w : Nat) (x : Window) : (s.setWin g w x).copies = s.copies := rfl
@[simp] theorem State.setWin_banks (s : State) (g w : Nat) (x : Window) : (s.setWin g w x).banks = s.banks := rfl
@[simp] theorem State.setWin_lostLocal (s : State) (g w : Nat) (x : Window) : (s.setWin g w x).lostLocal = s.lostLocal := rfl
@[simp] theorem State.setWin_cores (s : State) (g w : Nat) (x : Window) : (s.setWin g w x).cores = tset s.cores g { s.core g with wins := tset (s.core g).wins w x } := rfl
@[simp] theorem State.setWin_slots (s : State) (g w : Nat) (x : Window) : (s.setWin g w x).slots = s.slots := rfl
@[simp] theorem State.setWin_quads (s : State) (g w : Nat) (x : Window) : (s.setWin g w x).quads = s.quads := rfl
@[simp] theorem State.setWin_clusters (s : State) (g w : Nat) (x : Window) : (s.setWin g w x).clusters = s.clusters := rfl
@[simp] theorem State.setWin_dies (s : State) (g w : Nat) (x : Window) : (s.setWin g w x).dies = s.dies := rfl
@[simp] theorem State.setWin_parts (s : State) (g w : Nat) (x : Window) : (s.setWin g w x).parts = s.parts := rfl
@[simp] theorem State.setWin_ctxs (s : State) (g w : Nat) (x : Window) : (s.setWin g w x).ctxs = s.ctxs := rfl
@[simp] theorem State.setWin_dev (s : State) (g w : Nat) (x : Window) : (s.setWin g w x).dev = s.dev := rfl
@[simp] theorem State.setWin_net (s : State) (g w : Nat) (x : Window) : (s.setWin g w x).net = s.net := rfl
@[simp] theorem State.setWin_heldBeats (s : State) (g w : Nat) (x : Window) : (s.setWin g w x).heldBeats = s.heldBeats := rfl
@[simp] theorem State.setWin_snoopOver (s : State) (g w : Nat) (x : Window) : (s.setWin g w x).snoopOver = s.snoopOver := rfl
@[simp] theorem State.setWin_held (s : State) (g w : Nat) (x : Window) : (s.setWin g w x).held = s.held := rfl
@[simp] theorem State.setWin_frontiers (s : State) (g w : Nat) (x : Window) : (s.setWin g w x).frontiers = s.frontiers := rfl
@[simp] theorem State.setWin_refGt (s : State) (g w : Nat) (x : Window) : (s.setWin g w x).refGt = s.refGt := rfl
@[simp] theorem State.setWin_cycle (s : State) (g w : Nat) (x : Window) : (s.setWin g w x).cycle = s.cycle := rfl
@[simp] theorem State.setWin_agenda (s : State) (g w : Nat) (x : Window) : (s.setWin g w x).agenda = s.agenda := rfl
@[simp] theorem State.setWin_todo (s : State) (g w : Nat) (x : Window) : (s.setWin g w x).todo = s.todo := rfl
@[simp] theorem State.setWin_turnCore (s : State) (g w : Nat) (x : Window) : (s.setWin g w x).turnCore = s.turnCore := rfl
@[simp] theorem State.setWin_turnSlot (s : State) (g w : Nat) (x : Window) : (s.setWin g w x).turnSlot = s.turnSlot := rfl
@[simp] theorem State.setWin_closing (s : State) (g w : Nat) (x : Window) : (s.setWin g w x).closing = s.closing := rfl
@[simp] theorem State.setWin_free (s : State) (g w : Nat) (x : Window) : (s.setWin g w x).free = s.free := rfl
@[simp] theorem State.setWin_nextId (s : State) (g w : Nat) (x : Window) : (s.setWin g w x).nextId = s.nextId := rfl

/-! ### `setChan` -/

@[simp] theorem State.setChan_mem (s : State) (cl ch : Nat) (x : Chan) : (s.setChan cl ch x).mem = s.mem := rfl
@[simp] theorem State.setChan_fe (s : State) (cl ch : Nat) (x : Chan) : (s.setChan cl ch x).fe = s.fe := rfl
@[simp] theorem State.setChan_lines (s : State) (cl ch : Nat) (x : Chan) : (s.setChan cl ch x).lines = s.lines := rfl
@[simp] theorem State.setChan_copies (s : State) (cl ch : Nat) (x : Chan) : (s.setChan cl ch x).copies = s.copies := rfl
@[simp] theorem State.setChan_banks (s : State) (cl ch : Nat) (x : Chan) : (s.setChan cl ch x).banks = s.banks := rfl
@[simp] theorem State.setChan_lostLocal (s : State) (cl ch : Nat) (x : Chan) : (s.setChan cl ch x).lostLocal = s.lostLocal := rfl
@[simp] theorem State.setChan_cores (s : State) (cl ch : Nat) (x : Chan) : (s.setChan cl ch x).cores = s.cores := rfl
@[simp] theorem State.setChan_slots (s : State) (cl ch : Nat) (x : Chan) : (s.setChan cl ch x).slots = s.slots := rfl
@[simp] theorem State.setChan_quads (s : State) (cl ch : Nat) (x : Chan) : (s.setChan cl ch x).quads = s.quads := rfl
@[simp] theorem State.setChan_clusters (s : State) (cl ch : Nat) (x : Chan) : (s.setChan cl ch x).clusters = tset s.clusters cl { s.cluster cl with chans := tset (s.cluster cl).chans ch x } := rfl
@[simp] theorem State.setChan_dies (s : State) (cl ch : Nat) (x : Chan) : (s.setChan cl ch x).dies = s.dies := rfl
@[simp] theorem State.setChan_parts (s : State) (cl ch : Nat) (x : Chan) : (s.setChan cl ch x).parts = s.parts := rfl
@[simp] theorem State.setChan_ctxs (s : State) (cl ch : Nat) (x : Chan) : (s.setChan cl ch x).ctxs = s.ctxs := rfl
@[simp] theorem State.setChan_dev (s : State) (cl ch : Nat) (x : Chan) : (s.setChan cl ch x).dev = s.dev := rfl
@[simp] theorem State.setChan_net (s : State) (cl ch : Nat) (x : Chan) : (s.setChan cl ch x).net = s.net := rfl
@[simp] theorem State.setChan_heldBeats (s : State) (cl ch : Nat) (x : Chan) : (s.setChan cl ch x).heldBeats = s.heldBeats := rfl
@[simp] theorem State.setChan_snoopOver (s : State) (cl ch : Nat) (x : Chan) : (s.setChan cl ch x).snoopOver = s.snoopOver := rfl
@[simp] theorem State.setChan_held (s : State) (cl ch : Nat) (x : Chan) : (s.setChan cl ch x).held = s.held := rfl
@[simp] theorem State.setChan_frontiers (s : State) (cl ch : Nat) (x : Chan) : (s.setChan cl ch x).frontiers = s.frontiers := rfl
@[simp] theorem State.setChan_refGt (s : State) (cl ch : Nat) (x : Chan) : (s.setChan cl ch x).refGt = s.refGt := rfl
@[simp] theorem State.setChan_cycle (s : State) (cl ch : Nat) (x : Chan) : (s.setChan cl ch x).cycle = s.cycle := rfl
@[simp] theorem State.setChan_agenda (s : State) (cl ch : Nat) (x : Chan) : (s.setChan cl ch x).agenda = s.agenda := rfl
@[simp] theorem State.setChan_todo (s : State) (cl ch : Nat) (x : Chan) : (s.setChan cl ch x).todo = s.todo := rfl
@[simp] theorem State.setChan_turnCore (s : State) (cl ch : Nat) (x : Chan) : (s.setChan cl ch x).turnCore = s.turnCore := rfl
@[simp] theorem State.setChan_turnSlot (s : State) (cl ch : Nat) (x : Chan) : (s.setChan cl ch x).turnSlot = s.turnSlot := rfl
@[simp] theorem State.setChan_closing (s : State) (cl ch : Nat) (x : Chan) : (s.setChan cl ch x).closing = s.closing := rfl
@[simp] theorem State.setChan_free (s : State) (cl ch : Nat) (x : Chan) : (s.setChan cl ch x).free = s.free := rfl
@[simp] theorem State.setChan_nextId (s : State) (cl ch : Nat) (x : Chan) : (s.setChan cl ch x).nextId = s.nextId := rfl

/-! ### `setTl` -/

@[simp] theorem State.setTl_mem (s : State) (cl k : Nat) (x : Timeline) : (s.setTl cl k x).mem = s.mem := rfl
@[simp] theorem State.setTl_fe (s : State) (cl k : Nat) (x : Timeline) : (s.setTl cl k x).fe = s.fe := rfl
@[simp] theorem State.setTl_lines (s : State) (cl k : Nat) (x : Timeline) : (s.setTl cl k x).lines = s.lines := rfl
@[simp] theorem State.setTl_copies (s : State) (cl k : Nat) (x : Timeline) : (s.setTl cl k x).copies = s.copies := rfl
@[simp] theorem State.setTl_banks (s : State) (cl k : Nat) (x : Timeline) : (s.setTl cl k x).banks = s.banks := rfl
@[simp] theorem State.setTl_lostLocal (s : State) (cl k : Nat) (x : Timeline) : (s.setTl cl k x).lostLocal = s.lostLocal := rfl
@[simp] theorem State.setTl_cores (s : State) (cl k : Nat) (x : Timeline) : (s.setTl cl k x).cores = s.cores := rfl
@[simp] theorem State.setTl_slots (s : State) (cl k : Nat) (x : Timeline) : (s.setTl cl k x).slots = s.slots := rfl
@[simp] theorem State.setTl_quads (s : State) (cl k : Nat) (x : Timeline) : (s.setTl cl k x).quads = s.quads := rfl
@[simp] theorem State.setTl_clusters (s : State) (cl k : Nat) (x : Timeline) : (s.setTl cl k x).clusters = tset s.clusters cl { s.cluster cl with tls := tset (s.cluster cl).tls k x } := rfl
@[simp] theorem State.setTl_dies (s : State) (cl k : Nat) (x : Timeline) : (s.setTl cl k x).dies = s.dies := rfl
@[simp] theorem State.setTl_parts (s : State) (cl k : Nat) (x : Timeline) : (s.setTl cl k x).parts = s.parts := rfl
@[simp] theorem State.setTl_ctxs (s : State) (cl k : Nat) (x : Timeline) : (s.setTl cl k x).ctxs = s.ctxs := rfl
@[simp] theorem State.setTl_dev (s : State) (cl k : Nat) (x : Timeline) : (s.setTl cl k x).dev = s.dev := rfl
@[simp] theorem State.setTl_net (s : State) (cl k : Nat) (x : Timeline) : (s.setTl cl k x).net = s.net := rfl
@[simp] theorem State.setTl_heldBeats (s : State) (cl k : Nat) (x : Timeline) : (s.setTl cl k x).heldBeats = s.heldBeats := rfl
@[simp] theorem State.setTl_snoopOver (s : State) (cl k : Nat) (x : Timeline) : (s.setTl cl k x).snoopOver = s.snoopOver := rfl
@[simp] theorem State.setTl_held (s : State) (cl k : Nat) (x : Timeline) : (s.setTl cl k x).held = s.held := rfl
@[simp] theorem State.setTl_frontiers (s : State) (cl k : Nat) (x : Timeline) : (s.setTl cl k x).frontiers = s.frontiers := rfl
@[simp] theorem State.setTl_refGt (s : State) (cl k : Nat) (x : Timeline) : (s.setTl cl k x).refGt = s.refGt := rfl
@[simp] theorem State.setTl_cycle (s : State) (cl k : Nat) (x : Timeline) : (s.setTl cl k x).cycle = s.cycle := rfl
@[simp] theorem State.setTl_agenda (s : State) (cl k : Nat) (x : Timeline) : (s.setTl cl k x).agenda = s.agenda := rfl
@[simp] theorem State.setTl_todo (s : State) (cl k : Nat) (x : Timeline) : (s.setTl cl k x).todo = s.todo := rfl
@[simp] theorem State.setTl_turnCore (s : State) (cl k : Nat) (x : Timeline) : (s.setTl cl k x).turnCore = s.turnCore := rfl
@[simp] theorem State.setTl_turnSlot (s : State) (cl k : Nat) (x : Timeline) : (s.setTl cl k x).turnSlot = s.turnSlot := rfl
@[simp] theorem State.setTl_closing (s : State) (cl k : Nat) (x : Timeline) : (s.setTl cl k x).closing = s.closing := rfl
@[simp] theorem State.setTl_free (s : State) (cl k : Nat) (x : Timeline) : (s.setTl cl k x).free = s.free := rfl
@[simp] theorem State.setTl_nextId (s : State) (cl k : Nat) (x : Timeline) : (s.setTl cl k x).nextId = s.nextId := rfl

/-! ### `setTeam` -/

@[simp] theorem State.setTeam_mem (s : State) (cl j : Nat) (x : Team) : (s.setTeam cl j x).mem = s.mem := rfl
@[simp] theorem State.setTeam_fe (s : State) (cl j : Nat) (x : Team) : (s.setTeam cl j x).fe = s.fe := rfl
@[simp] theorem State.setTeam_lines (s : State) (cl j : Nat) (x : Team) : (s.setTeam cl j x).lines = s.lines := rfl
@[simp] theorem State.setTeam_copies (s : State) (cl j : Nat) (x : Team) : (s.setTeam cl j x).copies = s.copies := rfl
@[simp] theorem State.setTeam_banks (s : State) (cl j : Nat) (x : Team) : (s.setTeam cl j x).banks = s.banks := rfl
@[simp] theorem State.setTeam_lostLocal (s : State) (cl j : Nat) (x : Team) : (s.setTeam cl j x).lostLocal = s.lostLocal := rfl
@[simp] theorem State.setTeam_cores (s : State) (cl j : Nat) (x : Team) : (s.setTeam cl j x).cores = s.cores := rfl
@[simp] theorem State.setTeam_slots (s : State) (cl j : Nat) (x : Team) : (s.setTeam cl j x).slots = s.slots := rfl
@[simp] theorem State.setTeam_quads (s : State) (cl j : Nat) (x : Team) : (s.setTeam cl j x).quads = s.quads := rfl
@[simp] theorem State.setTeam_clusters (s : State) (cl j : Nat) (x : Team) : (s.setTeam cl j x).clusters = tset s.clusters cl { s.cluster cl with teams := tset (s.cluster cl).teams j x } := rfl
@[simp] theorem State.setTeam_dies (s : State) (cl j : Nat) (x : Team) : (s.setTeam cl j x).dies = s.dies := rfl
@[simp] theorem State.setTeam_parts (s : State) (cl j : Nat) (x : Team) : (s.setTeam cl j x).parts = s.parts := rfl
@[simp] theorem State.setTeam_ctxs (s : State) (cl j : Nat) (x : Team) : (s.setTeam cl j x).ctxs = s.ctxs := rfl
@[simp] theorem State.setTeam_dev (s : State) (cl j : Nat) (x : Team) : (s.setTeam cl j x).dev = s.dev := rfl
@[simp] theorem State.setTeam_net (s : State) (cl j : Nat) (x : Team) : (s.setTeam cl j x).net = s.net := rfl
@[simp] theorem State.setTeam_heldBeats (s : State) (cl j : Nat) (x : Team) : (s.setTeam cl j x).heldBeats = s.heldBeats := rfl
@[simp] theorem State.setTeam_snoopOver (s : State) (cl j : Nat) (x : Team) : (s.setTeam cl j x).snoopOver = s.snoopOver := rfl
@[simp] theorem State.setTeam_held (s : State) (cl j : Nat) (x : Team) : (s.setTeam cl j x).held = s.held := rfl
@[simp] theorem State.setTeam_frontiers (s : State) (cl j : Nat) (x : Team) : (s.setTeam cl j x).frontiers = s.frontiers := rfl
@[simp] theorem State.setTeam_refGt (s : State) (cl j : Nat) (x : Team) : (s.setTeam cl j x).refGt = s.refGt := rfl
@[simp] theorem State.setTeam_cycle (s : State) (cl j : Nat) (x : Team) : (s.setTeam cl j x).cycle = s.cycle := rfl
@[simp] theorem State.setTeam_agenda (s : State) (cl j : Nat) (x : Team) : (s.setTeam cl j x).agenda = s.agenda := rfl
@[simp] theorem State.setTeam_todo (s : State) (cl j : Nat) (x : Team) : (s.setTeam cl j x).todo = s.todo := rfl
@[simp] theorem State.setTeam_turnCore (s : State) (cl j : Nat) (x : Team) : (s.setTeam cl j x).turnCore = s.turnCore := rfl
@[simp] theorem State.setTeam_turnSlot (s : State) (cl j : Nat) (x : Team) : (s.setTeam cl j x).turnSlot = s.turnSlot := rfl
@[simp] theorem State.setTeam_closing (s : State) (cl j : Nat) (x : Team) : (s.setTeam cl j x).closing = s.closing := rfl
@[simp] theorem State.setTeam_free (s : State) (cl j : Nat) (x : Team) : (s.setTeam cl j x).free = s.free := rfl
@[simp] theorem State.setTeam_nextId (s : State) (cl j : Nat) (x : Team) : (s.setTeam cl j x).nextId = s.nextId := rfl

/-! ### `send` -/

@[simp] theorem State.send_mem (s : State) (b : MsgBody) : (s.send b).mem = s.mem := rfl
@[simp] theorem State.send_fe (s : State) (b : MsgBody) : (s.send b).fe = s.fe := rfl
@[simp] theorem State.send_lines (s : State) (b : MsgBody) : (s.send b).lines = s.lines := rfl
@[simp] theorem State.send_copies (s : State) (b : MsgBody) : (s.send b).copies = s.copies := rfl
@[simp] theorem State.send_banks (s : State) (b : MsgBody) : (s.send b).banks = s.banks := rfl
@[simp] theorem State.send_lostLocal (s : State) (b : MsgBody) : (s.send b).lostLocal = s.lostLocal := rfl
@[simp] theorem State.send_cores (s : State) (b : MsgBody) : (s.send b).cores = s.cores := rfl
@[simp] theorem State.send_slots (s : State) (b : MsgBody) : (s.send b).slots = s.slots := rfl
@[simp] theorem State.send_quads (s : State) (b : MsgBody) : (s.send b).quads = s.quads := rfl
@[simp] theorem State.send_clusters (s : State) (b : MsgBody) : (s.send b).clusters = s.clusters := rfl
@[simp] theorem State.send_dies (s : State) (b : MsgBody) : (s.send b).dies = s.dies := rfl
@[simp] theorem State.send_parts (s : State) (b : MsgBody) : (s.send b).parts = s.parts := rfl
@[simp] theorem State.send_ctxs (s : State) (b : MsgBody) : (s.send b).ctxs = s.ctxs := rfl
@[simp] theorem State.send_dev (s : State) (b : MsgBody) : (s.send b).dev = s.dev := rfl
@[simp] theorem State.send_net (s : State) (b : MsgBody) : (s.send b).net = s.net ++ [{ id := s.nextId, body := b }] := rfl
@[simp] theorem State.send_heldBeats (s : State) (b : MsgBody) : (s.send b).heldBeats = s.heldBeats := rfl
@[simp] theorem State.send_snoopOver (s : State) (b : MsgBody) : (s.send b).snoopOver = s.snoopOver := rfl
@[simp] theorem State.send_held (s : State) (b : MsgBody) : (s.send b).held = s.held := rfl
@[simp] theorem State.send_frontiers (s : State) (b : MsgBody) : (s.send b).frontiers = s.frontiers := rfl
@[simp] theorem State.send_refGt (s : State) (b : MsgBody) : (s.send b).refGt = s.refGt := rfl
@[simp] theorem State.send_cycle (s : State) (b : MsgBody) : (s.send b).cycle = s.cycle := rfl
@[simp] theorem State.send_agenda (s : State) (b : MsgBody) : (s.send b).agenda = s.agenda := rfl
@[simp] theorem State.send_todo (s : State) (b : MsgBody) : (s.send b).todo = s.todo := rfl
@[simp] theorem State.send_turnCore (s : State) (b : MsgBody) : (s.send b).turnCore = s.turnCore := rfl
@[simp] theorem State.send_turnSlot (s : State) (b : MsgBody) : (s.send b).turnSlot = s.turnSlot := rfl
@[simp] theorem State.send_closing (s : State) (b : MsgBody) : (s.send b).closing = s.closing := rfl
@[simp] theorem State.send_free (s : State) (b : MsgBody) : (s.send b).free = s.free := rfl
@[simp] theorem State.send_nextId (s : State) (b : MsgBody) : (s.send b).nextId = s.nextId + 1 := rfl

/-! ### `drop` -/

@[simp] theorem State.drop_mem (s : State) (id : Nat) : (s.drop id).mem = s.mem := rfl
@[simp] theorem State.drop_fe (s : State) (id : Nat) : (s.drop id).fe = s.fe := rfl
@[simp] theorem State.drop_lines (s : State) (id : Nat) : (s.drop id).lines = s.lines := rfl
@[simp] theorem State.drop_copies (s : State) (id : Nat) : (s.drop id).copies = s.copies := rfl
@[simp] theorem State.drop_banks (s : State) (id : Nat) : (s.drop id).banks = s.banks := rfl
@[simp] theorem State.drop_lostLocal (s : State) (id : Nat) : (s.drop id).lostLocal = s.lostLocal := rfl
@[simp] theorem State.drop_cores (s : State) (id : Nat) : (s.drop id).cores = s.cores := rfl
@[simp] theorem State.drop_slots (s : State) (id : Nat) : (s.drop id).slots = s.slots := rfl
@[simp] theorem State.drop_quads (s : State) (id : Nat) : (s.drop id).quads = s.quads := rfl
@[simp] theorem State.drop_clusters (s : State) (id : Nat) : (s.drop id).clusters = s.clusters := rfl
@[simp] theorem State.drop_dies (s : State) (id : Nat) : (s.drop id).dies = s.dies := rfl
@[simp] theorem State.drop_parts (s : State) (id : Nat) : (s.drop id).parts = s.parts := rfl
@[simp] theorem State.drop_ctxs (s : State) (id : Nat) : (s.drop id).ctxs = s.ctxs := rfl
@[simp] theorem State.drop_dev (s : State) (id : Nat) : (s.drop id).dev = s.dev := rfl
@[simp] theorem State.drop_net (s : State) (id : Nat) : (s.drop id).net = s.net.filter (fun m => m.id ≠ id) := rfl
@[simp] theorem State.drop_heldBeats (s : State) (id : Nat) : (s.drop id).heldBeats = s.heldBeats := rfl
@[simp] theorem State.drop_snoopOver (s : State) (id : Nat) : (s.drop id).snoopOver = s.snoopOver := rfl
@[simp] theorem State.drop_held (s : State) (id : Nat) : (s.drop id).held = s.held := rfl
@[simp] theorem State.drop_frontiers (s : State) (id : Nat) : (s.drop id).frontiers = s.frontiers := rfl
@[simp] theorem State.drop_refGt (s : State) (id : Nat) : (s.drop id).refGt = s.refGt := rfl
@[simp] theorem State.drop_cycle (s : State) (id : Nat) : (s.drop id).cycle = s.cycle := rfl
@[simp] theorem State.drop_agenda (s : State) (id : Nat) : (s.drop id).agenda = s.agenda := rfl
@[simp] theorem State.drop_todo (s : State) (id : Nat) : (s.drop id).todo = s.todo := rfl
@[simp] theorem State.drop_turnCore (s : State) (id : Nat) : (s.drop id).turnCore = s.turnCore := rfl
@[simp] theorem State.drop_turnSlot (s : State) (id : Nat) : (s.drop id).turnSlot = s.turnSlot := rfl
@[simp] theorem State.drop_closing (s : State) (id : Nat) : (s.drop id).closing = s.closing := rfl
@[simp] theorem State.drop_free (s : State) (id : Nat) : (s.drop id).free = s.free := rfl
@[simp] theorem State.drop_nextId (s : State) (id : Nat) : (s.drop id).nextId = s.nextId := rfl

/-! ### `logEvent` -/

@[simp] theorem State.logEvent_mem (s : State) (what : String) (arg : Nat) : (s.logEvent what arg).mem = s.mem := rfl
@[simp] theorem State.logEvent_fe (s : State) (what : String) (arg : Nat) : (s.logEvent what arg).fe = s.fe := rfl
@[simp] theorem State.logEvent_lines (s : State) (what : String) (arg : Nat) : (s.logEvent what arg).lines = s.lines := rfl
@[simp] theorem State.logEvent_copies (s : State) (what : String) (arg : Nat) : (s.logEvent what arg).copies = s.copies := rfl
@[simp] theorem State.logEvent_banks (s : State) (what : String) (arg : Nat) : (s.logEvent what arg).banks = s.banks := rfl
@[simp] theorem State.logEvent_lostLocal (s : State) (what : String) (arg : Nat) : (s.logEvent what arg).lostLocal = s.lostLocal := rfl
@[simp] theorem State.logEvent_cores (s : State) (what : String) (arg : Nat) : (s.logEvent what arg).cores = s.cores := rfl
@[simp] theorem State.logEvent_slots (s : State) (what : String) (arg : Nat) : (s.logEvent what arg).slots = s.slots := rfl
@[simp] theorem State.logEvent_quads (s : State) (what : String) (arg : Nat) : (s.logEvent what arg).quads = s.quads := rfl
@[simp] theorem State.logEvent_clusters (s : State) (what : String) (arg : Nat) : (s.logEvent what arg).clusters = s.clusters := rfl
@[simp] theorem State.logEvent_dies (s : State) (what : String) (arg : Nat) : (s.logEvent what arg).dies = s.dies := rfl
@[simp] theorem State.logEvent_parts (s : State) (what : String) (arg : Nat) : (s.logEvent what arg).parts = s.parts := rfl
@[simp] theorem State.logEvent_ctxs (s : State) (what : String) (arg : Nat) : (s.logEvent what arg).ctxs = s.ctxs := rfl
@[simp] theorem State.logEvent_dev (s : State) (what : String) (arg : Nat) : (s.logEvent what arg).dev = { s.dev with log := { gt := s.refGt, what := what, arg := arg } :: s.dev.log } := rfl
@[simp] theorem State.logEvent_net (s : State) (what : String) (arg : Nat) : (s.logEvent what arg).net = s.net := rfl
@[simp] theorem State.logEvent_heldBeats (s : State) (what : String) (arg : Nat) : (s.logEvent what arg).heldBeats = s.heldBeats := rfl
@[simp] theorem State.logEvent_snoopOver (s : State) (what : String) (arg : Nat) : (s.logEvent what arg).snoopOver = s.snoopOver := rfl
@[simp] theorem State.logEvent_held (s : State) (what : String) (arg : Nat) : (s.logEvent what arg).held = s.held := rfl
@[simp] theorem State.logEvent_frontiers (s : State) (what : String) (arg : Nat) : (s.logEvent what arg).frontiers = s.frontiers := rfl
@[simp] theorem State.logEvent_refGt (s : State) (what : String) (arg : Nat) : (s.logEvent what arg).refGt = s.refGt := rfl
@[simp] theorem State.logEvent_cycle (s : State) (what : String) (arg : Nat) : (s.logEvent what arg).cycle = s.cycle := rfl
@[simp] theorem State.logEvent_agenda (s : State) (what : String) (arg : Nat) : (s.logEvent what arg).agenda = s.agenda := rfl
@[simp] theorem State.logEvent_todo (s : State) (what : String) (arg : Nat) : (s.logEvent what arg).todo = s.todo := rfl
@[simp] theorem State.logEvent_turnCore (s : State) (what : String) (arg : Nat) : (s.logEvent what arg).turnCore = s.turnCore := rfl
@[simp] theorem State.logEvent_turnSlot (s : State) (what : String) (arg : Nat) : (s.logEvent what arg).turnSlot = s.turnSlot := rfl
@[simp] theorem State.logEvent_closing (s : State) (what : String) (arg : Nat) : (s.logEvent what arg).closing = s.closing := rfl
@[simp] theorem State.logEvent_free (s : State) (what : String) (arg : Nat) : (s.logEvent what arg).free = s.free := rfl
@[simp] theorem State.logEvent_nextId (s : State) (what : String) (arg : Nat) : (s.logEvent what arg).nextId = s.nextId := rfl

/-! ### `setFull` -/

@[simp] theorem State.setFull_mem (s : State) (pa : Nat) : (s.setFull pa).mem = s.mem := rfl
@[simp] theorem State.setFull_fe (s : State) (pa : Nat) : (s.setFull pa).fe = feIns s.fe (pa / 8) := rfl
@[simp] theorem State.setFull_lines (s : State) (pa : Nat) : (s.setFull pa).lines = s.lines := rfl
@[simp] theorem State.setFull_copies (s : State) (pa : Nat) : (s.setFull pa).copies = s.copies := rfl
@[simp] theorem State.setFull_banks (s : State) (pa : Nat) : (s.setFull pa).banks = s.banks := rfl
@[simp] theorem State.setFull_lostLocal (s : State) (pa : Nat) : (s.setFull pa).lostLocal = s.lostLocal := rfl
@[simp] theorem State.setFull_cores (s : State) (pa : Nat) : (s.setFull pa).cores = s.cores := rfl
@[simp] theorem State.setFull_slots (s : State) (pa : Nat) : (s.setFull pa).slots = s.slots := rfl
@[simp] theorem State.setFull_quads (s : State) (pa : Nat) : (s.setFull pa).quads = s.quads := rfl
@[simp] theorem State.setFull_clusters (s : State) (pa : Nat) : (s.setFull pa).clusters = s.clusters := rfl
@[simp] theorem State.setFull_dies (s : State) (pa : Nat) : (s.setFull pa).dies = s.dies := rfl
@[simp] theorem State.setFull_parts (s : State) (pa : Nat) : (s.setFull pa).parts = s.parts := rfl
@[simp] theorem State.setFull_ctxs (s : State) (pa : Nat) : (s.setFull pa).ctxs = s.ctxs := rfl
@[simp] theorem State.setFull_dev (s : State) (pa : Nat) : (s.setFull pa).dev = s.dev := rfl
@[simp] theorem State.setFull_net (s : State) (pa : Nat) : (s.setFull pa).net = s.net := rfl
@[simp] theorem State.setFull_heldBeats (s : State) (pa : Nat) : (s.setFull pa).heldBeats = s.heldBeats := rfl
@[simp] theorem State.setFull_snoopOver (s : State) (pa : Nat) : (s.setFull pa).snoopOver = s.snoopOver := rfl
@[simp] theorem State.setFull_held (s : State) (pa : Nat) : (s.setFull pa).held = s.held := rfl
@[simp] theorem State.setFull_frontiers (s : State) (pa : Nat) : (s.setFull pa).frontiers = s.frontiers := rfl
@[simp] theorem State.setFull_refGt (s : State) (pa : Nat) : (s.setFull pa).refGt = s.refGt := rfl
@[simp] theorem State.setFull_cycle (s : State) (pa : Nat) : (s.setFull pa).cycle = s.cycle := rfl
@[simp] theorem State.setFull_agenda (s : State) (pa : Nat) : (s.setFull pa).agenda = s.agenda := rfl
@[simp] theorem State.setFull_todo (s : State) (pa : Nat) : (s.setFull pa).todo = s.todo := rfl
@[simp] theorem State.setFull_turnCore (s : State) (pa : Nat) : (s.setFull pa).turnCore = s.turnCore := rfl
@[simp] theorem State.setFull_turnSlot (s : State) (pa : Nat) : (s.setFull pa).turnSlot = s.turnSlot := rfl
@[simp] theorem State.setFull_closing (s : State) (pa : Nat) : (s.setFull pa).closing = s.closing := rfl
@[simp] theorem State.setFull_free (s : State) (pa : Nat) : (s.setFull pa).free = s.free := rfl
@[simp] theorem State.setFull_nextId (s : State) (pa : Nat) : (s.setFull pa).nextId = s.nextId := rfl

/-! ### `setEmpty` -/

@[simp] theorem State.setEmpty_mem (s : State) (pa : Nat) : (s.setEmpty pa).mem = s.mem := rfl
@[simp] theorem State.setEmpty_fe (s : State) (pa : Nat) : (s.setEmpty pa).fe = s.fe.filter (· ≠ pa / 8) := rfl
@[simp] theorem State.setEmpty_lines (s : State) (pa : Nat) : (s.setEmpty pa).lines = s.lines := rfl
@[simp] theorem State.setEmpty_copies (s : State) (pa : Nat) : (s.setEmpty pa).copies = s.copies := rfl
@[simp] theorem State.setEmpty_banks (s : State) (pa : Nat) : (s.setEmpty pa).banks = s.banks := rfl
@[simp] theorem State.setEmpty_lostLocal (s : State) (pa : Nat) : (s.setEmpty pa).lostLocal = s.lostLocal := rfl
@[simp] theorem State.setEmpty_cores (s : State) (pa : Nat) : (s.setEmpty pa).cores = s.cores := rfl
@[simp] theorem State.setEmpty_slots (s : State) (pa : Nat) : (s.setEmpty pa).slots = s.slots := rfl
@[simp] theorem State.setEmpty_quads (s : State) (pa : Nat) : (s.setEmpty pa).quads = s.quads := rfl
@[simp] theorem State.setEmpty_clusters (s : State) (pa : Nat) : (s.setEmpty pa).clusters = s.clusters := rfl
@[simp] theorem State.setEmpty_dies (s : State) (pa : Nat) : (s.setEmpty pa).dies = s.dies := rfl
@[simp] theorem State.setEmpty_parts (s : State) (pa : Nat) : (s.setEmpty pa).parts = s.parts := rfl
@[simp] theorem State.setEmpty_ctxs (s : State) (pa : Nat) : (s.setEmpty pa).ctxs = s.ctxs := rfl
@[simp] theorem State.setEmpty_dev (s : State) (pa : Nat) : (s.setEmpty pa).dev = s.dev := rfl
@[simp] theorem State.setEmpty_net (s : State) (pa : Nat) : (s.setEmpty pa).net = s.net := rfl
@[simp] theorem State.setEmpty_heldBeats (s : State) (pa : Nat) : (s.setEmpty pa).heldBeats = s.heldBeats := rfl
@[simp] theorem State.setEmpty_snoopOver (s : State) (pa : Nat) : (s.setEmpty pa).snoopOver = s.snoopOver := rfl
@[simp] theorem State.setEmpty_held (s : State) (pa : Nat) : (s.setEmpty pa).held = s.held := rfl
@[simp] theorem State.setEmpty_frontiers (s : State) (pa : Nat) : (s.setEmpty pa).frontiers = s.frontiers := rfl
@[simp] theorem State.setEmpty_refGt (s : State) (pa : Nat) : (s.setEmpty pa).refGt = s.refGt := rfl
@[simp] theorem State.setEmpty_cycle (s : State) (pa : Nat) : (s.setEmpty pa).cycle = s.cycle := rfl
@[simp] theorem State.setEmpty_agenda (s : State) (pa : Nat) : (s.setEmpty pa).agenda = s.agenda := rfl
@[simp] theorem State.setEmpty_todo (s : State) (pa : Nat) : (s.setEmpty pa).todo = s.todo := rfl
@[simp] theorem State.setEmpty_turnCore (s : State) (pa : Nat) : (s.setEmpty pa).turnCore = s.turnCore := rfl
@[simp] theorem State.setEmpty_turnSlot (s : State) (pa : Nat) : (s.setEmpty pa).turnSlot = s.turnSlot := rfl
@[simp] theorem State.setEmpty_closing (s : State) (pa : Nat) : (s.setEmpty pa).closing = s.closing := rfl
@[simp] theorem State.setEmpty_free (s : State) (pa : Nat) : (s.setEmpty pa).free = s.free := rfl
@[simp] theorem State.setEmpty_nextId (s : State) (pa : Nat) : (s.setEmpty pa).nextId = s.nextId := rfl

/-! ### `wr` -/

@[simp] theorem State.wr_mem (s : State) (a n v : Nat) : (s.wr a n v).mem = mwrite s.mem a n v := rfl
@[simp] theorem State.wr_fe (s : State) (a n v : Nat) : (s.wr a n v).fe = s.fe := rfl
@[simp] theorem State.wr_lines (s : State) (a n v : Nat) : (s.wr a n v).lines = s.lines := rfl
@[simp] theorem State.wr_copies (s : State) (a n v : Nat) : (s.wr a n v).copies = s.copies := rfl
@[simp] theorem State.wr_banks (s : State) (a n v : Nat) : (s.wr a n v).banks = s.banks := rfl
@[simp] theorem State.wr_lostLocal (s : State) (a n v : Nat) : (s.wr a n v).lostLocal = s.lostLocal := rfl
@[simp] theorem State.wr_cores (s : State) (a n v : Nat) : (s.wr a n v).cores = s.cores := rfl
@[simp] theorem State.wr_slots (s : State) (a n v : Nat) : (s.wr a n v).slots = s.slots := rfl
@[simp] theorem State.wr_quads (s : State) (a n v : Nat) : (s.wr a n v).quads = s.quads := rfl
@[simp] theorem State.wr_clusters (s : State) (a n v : Nat) : (s.wr a n v).clusters = s.clusters := rfl
@[simp] theorem State.wr_dies (s : State) (a n v : Nat) : (s.wr a n v).dies = s.dies := rfl
@[simp] theorem State.wr_parts (s : State) (a n v : Nat) : (s.wr a n v).parts = s.parts := rfl
@[simp] theorem State.wr_ctxs (s : State) (a n v : Nat) : (s.wr a n v).ctxs = s.ctxs := rfl
@[simp] theorem State.wr_dev (s : State) (a n v : Nat) : (s.wr a n v).dev = s.dev := rfl
@[simp] theorem State.wr_net (s : State) (a n v : Nat) : (s.wr a n v).net = s.net := rfl
@[simp] theorem State.wr_heldBeats (s : State) (a n v : Nat) : (s.wr a n v).heldBeats = s.heldBeats := rfl
@[simp] theorem State.wr_snoopOver (s : State) (a n v : Nat) : (s.wr a n v).snoopOver = s.snoopOver := rfl
@[simp] theorem State.wr_held (s : State) (a n v : Nat) : (s.wr a n v).held = s.held := rfl
@[simp] theorem State.wr_frontiers (s : State) (a n v : Nat) : (s.wr a n v).frontiers = s.frontiers := rfl
@[simp] theorem State.wr_refGt (s : State) (a n v : Nat) : (s.wr a n v).refGt = s.refGt := rfl
@[simp] theorem State.wr_cycle (s : State) (a n v : Nat) : (s.wr a n v).cycle = s.cycle := rfl
@[simp] theorem State.wr_agenda (s : State) (a n v : Nat) : (s.wr a n v).agenda = s.agenda := rfl
@[simp] theorem State.wr_todo (s : State) (a n v : Nat) : (s.wr a n v).todo = s.todo := rfl
@[simp] theorem State.wr_turnCore (s : State) (a n v : Nat) : (s.wr a n v).turnCore = s.turnCore := rfl
@[simp] theorem State.wr_turnSlot (s : State) (a n v : Nat) : (s.wr a n v).turnSlot = s.turnSlot := rfl
@[simp] theorem State.wr_closing (s : State) (a n v : Nat) : (s.wr a n v).closing = s.closing := rfl
@[simp] theorem State.wr_free (s : State) (a n v : Nat) : (s.wr a n v).free = s.free := rfl
@[simp] theorem State.wr_nextId (s : State) (a n v : Nat) : (s.wr a n v).nextId = s.nextId := rfl

/-! ### `zero` -/

@[simp] theorem State.zero_mem (s : State) (lo hi : Nat) : (s.zero lo hi).mem = mzero s.mem lo hi := rfl
@[simp] theorem State.zero_fe (s : State) (lo hi : Nat) : (s.zero lo hi).fe = s.fe := rfl
@[simp] theorem State.zero_lines (s : State) (lo hi : Nat) : (s.zero lo hi).lines = s.lines := rfl
@[simp] theorem State.zero_copies (s : State) (lo hi : Nat) : (s.zero lo hi).copies = s.copies := rfl
@[simp] theorem State.zero_banks (s : State) (lo hi : Nat) : (s.zero lo hi).banks = s.banks := rfl
@[simp] theorem State.zero_lostLocal (s : State) (lo hi : Nat) : (s.zero lo hi).lostLocal = s.lostLocal := rfl
@[simp] theorem State.zero_cores (s : State) (lo hi : Nat) : (s.zero lo hi).cores = s.cores := rfl
@[simp] theorem State.zero_slots (s : State) (lo hi : Nat) : (s.zero lo hi).slots = s.slots := rfl
@[simp] theorem State.zero_quads (s : State) (lo hi : Nat) : (s.zero lo hi).quads = s.quads := rfl
@[simp] theorem State.zero_clusters (s : State) (lo hi : Nat) : (s.zero lo hi).clusters = s.clusters := rfl
@[simp] theorem State.zero_dies (s : State) (lo hi : Nat) : (s.zero lo hi).dies = s.dies := rfl
@[simp] theorem State.zero_parts (s : State) (lo hi : Nat) : (s.zero lo hi).parts = s.parts := rfl
@[simp] theorem State.zero_ctxs (s : State) (lo hi : Nat) : (s.zero lo hi).ctxs = s.ctxs := rfl
@[simp] theorem State.zero_dev (s : State) (lo hi : Nat) : (s.zero lo hi).dev = s.dev := rfl
@[simp] theorem State.zero_net (s : State) (lo hi : Nat) : (s.zero lo hi).net = s.net := rfl
@[simp] theorem State.zero_heldBeats (s : State) (lo hi : Nat) : (s.zero lo hi).heldBeats = s.heldBeats := rfl
@[simp] theorem State.zero_snoopOver (s : State) (lo hi : Nat) : (s.zero lo hi).snoopOver = s.snoopOver := rfl
@[simp] theorem State.zero_held (s : State) (lo hi : Nat) : (s.zero lo hi).held = s.held := rfl
@[simp] theorem State.zero_frontiers (s : State) (lo hi : Nat) : (s.zero lo hi).frontiers = s.frontiers := rfl
@[simp] theorem State.zero_refGt (s : State) (lo hi : Nat) : (s.zero lo hi).refGt = s.refGt := rfl
@[simp] theorem State.zero_cycle (s : State) (lo hi : Nat) : (s.zero lo hi).cycle = s.cycle := rfl
@[simp] theorem State.zero_agenda (s : State) (lo hi : Nat) : (s.zero lo hi).agenda = s.agenda := rfl
@[simp] theorem State.zero_todo (s : State) (lo hi : Nat) : (s.zero lo hi).todo = s.todo := rfl
@[simp] theorem State.zero_turnCore (s : State) (lo hi : Nat) : (s.zero lo hi).turnCore = s.turnCore := rfl
@[simp] theorem State.zero_turnSlot (s : State) (lo hi : Nat) : (s.zero lo hi).turnSlot = s.turnSlot := rfl
@[simp] theorem State.zero_closing (s : State) (lo hi : Nat) : (s.zero lo hi).closing = s.closing := rfl
@[simp] theorem State.zero_free (s : State) (lo hi : Nat) : (s.zero lo hi).free = s.free := rfl
@[simp] theorem State.zero_nextId (s : State) (lo hi : Nat) : (s.zero lo hi).nextId = s.nextId := rfl

/-! ### `setW` -/

@[simp] theorem State.setW_mem (s : State) (base : Nat) (r : WReg) (v : Word) : (s.setW base r v).mem = mwrite s.mem (base + 8 * r.val) 8 v.toNat := State.wr_mem s _ _ _
@[simp] theorem State.setW_fe (s : State) (base : Nat) (r : WReg) (v : Word) : (s.setW base r v).fe = s.fe := State.wr_fe s _ _ _
@[simp] theorem State.setW_lines (s : State) (base : Nat) (r : WReg) (v : Word) : (s.setW base r v).lines = s.lines := State.wr_lines s _ _ _
@[simp] theorem State.setW_copies (s : State) (base : Nat) (r : WReg) (v : Word) : (s.setW base r v).copies = s.copies := State.wr_copies s _ _ _
@[simp] theorem State.setW_banks (s : State) (base : Nat) (r : WReg) (v : Word) : (s.setW base r v).banks = s.banks := State.wr_banks s _ _ _
@[simp] theorem State.setW_lostLocal (s : State) (base : Nat) (r : WReg) (v : Word) : (s.setW base r v).lostLocal = s.lostLocal := State.wr_lostLocal s _ _ _
@[simp] theorem State.setW_cores (s : State) (base : Nat) (r : WReg) (v : Word) : (s.setW base r v).cores = s.cores := State.wr_cores s _ _ _
@[simp] theorem State.setW_slots (s : State) (base : Nat) (r : WReg) (v : Word) : (s.setW base r v).slots = s.slots := State.wr_slots s _ _ _
@[simp] theorem State.setW_quads (s : State) (base : Nat) (r : WReg) (v : Word) : (s.setW base r v).quads = s.quads := State.wr_quads s _ _ _
@[simp] theorem State.setW_clusters (s : State) (base : Nat) (r : WReg) (v : Word) : (s.setW base r v).clusters = s.clusters := State.wr_clusters s _ _ _
@[simp] theorem State.setW_dies (s : State) (base : Nat) (r : WReg) (v : Word) : (s.setW base r v).dies = s.dies := State.wr_dies s _ _ _
@[simp] theorem State.setW_parts (s : State) (base : Nat) (r : WReg) (v : Word) : (s.setW base r v).parts = s.parts := State.wr_parts s _ _ _
@[simp] theorem State.setW_ctxs (s : State) (base : Nat) (r : WReg) (v : Word) : (s.setW base r v).ctxs = s.ctxs := State.wr_ctxs s _ _ _
@[simp] theorem State.setW_dev (s : State) (base : Nat) (r : WReg) (v : Word) : (s.setW base r v).dev = s.dev := State.wr_dev s _ _ _
@[simp] theorem State.setW_net (s : State) (base : Nat) (r : WReg) (v : Word) : (s.setW base r v).net = s.net := State.wr_net s _ _ _
@[simp] theorem State.setW_heldBeats (s : State) (base : Nat) (r : WReg) (v : Word) : (s.setW base r v).heldBeats = s.heldBeats := State.wr_heldBeats s _ _ _
@[simp] theorem State.setW_snoopOver (s : State) (base : Nat) (r : WReg) (v : Word) : (s.setW base r v).snoopOver = s.snoopOver := State.wr_snoopOver s _ _ _
@[simp] theorem State.setW_held (s : State) (base : Nat) (r : WReg) (v : Word) : (s.setW base r v).held = s.held := State.wr_held s _ _ _
@[simp] theorem State.setW_frontiers (s : State) (base : Nat) (r : WReg) (v : Word) : (s.setW base r v).frontiers = s.frontiers := State.wr_frontiers s _ _ _
@[simp] theorem State.setW_refGt (s : State) (base : Nat) (r : WReg) (v : Word) : (s.setW base r v).refGt = s.refGt := State.wr_refGt s _ _ _
@[simp] theorem State.setW_cycle (s : State) (base : Nat) (r : WReg) (v : Word) : (s.setW base r v).cycle = s.cycle := State.wr_cycle s _ _ _
@[simp] theorem State.setW_agenda (s : State) (base : Nat) (r : WReg) (v : Word) : (s.setW base r v).agenda = s.agenda := State.wr_agenda s _ _ _
@[simp] theorem State.setW_todo (s : State) (base : Nat) (r : WReg) (v : Word) : (s.setW base r v).todo = s.todo := State.wr_todo s _ _ _
@[simp] theorem State.setW_turnCore (s : State) (base : Nat) (r : WReg) (v : Word) : (s.setW base r v).turnCore = s.turnCore := State.wr_turnCore s _ _ _
@[simp] theorem State.setW_turnSlot (s : State) (base : Nat) (r : WReg) (v : Word) : (s.setW base r v).turnSlot = s.turnSlot := State.wr_turnSlot s _ _ _
@[simp] theorem State.setW_closing (s : State) (base : Nat) (r : WReg) (v : Word) : (s.setW base r v).closing = s.closing := State.wr_closing s _ _ _
@[simp] theorem State.setW_free (s : State) (base : Nat) (r : WReg) (v : Word) : (s.setW base r v).free = s.free := State.wr_free s _ _ _
@[simp] theorem State.setW_nextId (s : State) (base : Nat) (r : WReg) (v : Word) : (s.setW base r v).nextId = s.nextId := State.wr_nextId s _ _ _

/-! ### `setP` -/

@[simp] theorem State.setP_mem (s : State) (base : Nat) (r : PReg) (v : Word) : (s.setP base r v).mem = mwrite s.mem (base + offP + 8 * r.val) 8 v.toNat := State.wr_mem s _ _ _
@[simp] theorem State.setP_fe (s : State) (base : Nat) (r : PReg) (v : Word) : (s.setP base r v).fe = s.fe := State.wr_fe s _ _ _
@[simp] theorem State.setP_lines (s : State) (base : Nat) (r : PReg) (v : Word) : (s.setP base r v).lines = s.lines := State.wr_lines s _ _ _
@[simp] theorem State.setP_copies (s : State) (base : Nat) (r : PReg) (v : Word) : (s.setP base r v).copies = s.copies := State.wr_copies s _ _ _
@[simp] theorem State.setP_banks (s : State) (base : Nat) (r : PReg) (v : Word) : (s.setP base r v).banks = s.banks := State.wr_banks s _ _ _
@[simp] theorem State.setP_lostLocal (s : State) (base : Nat) (r : PReg) (v : Word) : (s.setP base r v).lostLocal = s.lostLocal := State.wr_lostLocal s _ _ _
@[simp] theorem State.setP_cores (s : State) (base : Nat) (r : PReg) (v : Word) : (s.setP base r v).cores = s.cores := State.wr_cores s _ _ _
@[simp] theorem State.setP_slots (s : State) (base : Nat) (r : PReg) (v : Word) : (s.setP base r v).slots = s.slots := State.wr_slots s _ _ _
@[simp] theorem State.setP_quads (s : State) (base : Nat) (r : PReg) (v : Word) : (s.setP base r v).quads = s.quads := State.wr_quads s _ _ _
@[simp] theorem State.setP_clusters (s : State) (base : Nat) (r : PReg) (v : Word) : (s.setP base r v).clusters = s.clusters := State.wr_clusters s _ _ _
@[simp] theorem State.setP_dies (s : State) (base : Nat) (r : PReg) (v : Word) : (s.setP base r v).dies = s.dies := State.wr_dies s _ _ _
@[simp] theorem State.setP_parts (s : State) (base : Nat) (r : PReg) (v : Word) : (s.setP base r v).parts = s.parts := State.wr_parts s _ _ _
@[simp] theorem State.setP_ctxs (s : State) (base : Nat) (r : PReg) (v : Word) : (s.setP base r v).ctxs = s.ctxs := State.wr_ctxs s _ _ _
@[simp] theorem State.setP_dev (s : State) (base : Nat) (r : PReg) (v : Word) : (s.setP base r v).dev = s.dev := State.wr_dev s _ _ _
@[simp] theorem State.setP_net (s : State) (base : Nat) (r : PReg) (v : Word) : (s.setP base r v).net = s.net := State.wr_net s _ _ _
@[simp] theorem State.setP_heldBeats (s : State) (base : Nat) (r : PReg) (v : Word) : (s.setP base r v).heldBeats = s.heldBeats := State.wr_heldBeats s _ _ _
@[simp] theorem State.setP_snoopOver (s : State) (base : Nat) (r : PReg) (v : Word) : (s.setP base r v).snoopOver = s.snoopOver := State.wr_snoopOver s _ _ _
@[simp] theorem State.setP_held (s : State) (base : Nat) (r : PReg) (v : Word) : (s.setP base r v).held = s.held := State.wr_held s _ _ _
@[simp] theorem State.setP_frontiers (s : State) (base : Nat) (r : PReg) (v : Word) : (s.setP base r v).frontiers = s.frontiers := State.wr_frontiers s _ _ _
@[simp] theorem State.setP_refGt (s : State) (base : Nat) (r : PReg) (v : Word) : (s.setP base r v).refGt = s.refGt := State.wr_refGt s _ _ _
@[simp] theorem State.setP_cycle (s : State) (base : Nat) (r : PReg) (v : Word) : (s.setP base r v).cycle = s.cycle := State.wr_cycle s _ _ _
@[simp] theorem State.setP_agenda (s : State) (base : Nat) (r : PReg) (v : Word) : (s.setP base r v).agenda = s.agenda := State.wr_agenda s _ _ _
@[simp] theorem State.setP_todo (s : State) (base : Nat) (r : PReg) (v : Word) : (s.setP base r v).todo = s.todo := State.wr_todo s _ _ _
@[simp] theorem State.setP_turnCore (s : State) (base : Nat) (r : PReg) (v : Word) : (s.setP base r v).turnCore = s.turnCore := State.wr_turnCore s _ _ _
@[simp] theorem State.setP_turnSlot (s : State) (base : Nat) (r : PReg) (v : Word) : (s.setP base r v).turnSlot = s.turnSlot := State.wr_turnSlot s _ _ _
@[simp] theorem State.setP_closing (s : State) (base : Nat) (r : PReg) (v : Word) : (s.setP base r v).closing = s.closing := State.wr_closing s _ _ _
@[simp] theorem State.setP_free (s : State) (base : Nat) (r : PReg) (v : Word) : (s.setP base r v).free = s.free := State.wr_free s _ _ _
@[simp] theorem State.setP_nextId (s : State) (base : Nat) (r : PReg) (v : Word) : (s.setP base r v).nextId = s.nextId := State.wr_nextId s _ _ _

/-! ### `setV` -/

@[simp] theorem State.setV_mem (s : State) (base : Nat) (r : VReg) (v : Vec) : (s.setV base r v).mem = mwrite s.mem (base + offV + 64 * r.val) 64 v.toNat := State.wr_mem s _ _ _
@[simp] theorem State.setV_fe (s : State) (base : Nat) (r : VReg) (v : Vec) : (s.setV base r v).fe = s.fe := State.wr_fe s _ _ _
@[simp] theorem State.setV_lines (s : State) (base : Nat) (r : VReg) (v : Vec) : (s.setV base r v).lines = s.lines := State.wr_lines s _ _ _
@[simp] theorem State.setV_copies (s : State) (base : Nat) (r : VReg) (v : Vec) : (s.setV base r v).copies = s.copies := State.wr_copies s _ _ _
@[simp] theorem State.setV_banks (s : State) (base : Nat) (r : VReg) (v : Vec) : (s.setV base r v).banks = s.banks := State.wr_banks s _ _ _
@[simp] theorem State.setV_lostLocal (s : State) (base : Nat) (r : VReg) (v : Vec) : (s.setV base r v).lostLocal = s.lostLocal := State.wr_lostLocal s _ _ _
@[simp] theorem State.setV_cores (s : State) (base : Nat) (r : VReg) (v : Vec) : (s.setV base r v).cores = s.cores := State.wr_cores s _ _ _
@[simp] theorem State.setV_slots (s : State) (base : Nat) (r : VReg) (v : Vec) : (s.setV base r v).slots = s.slots := State.wr_slots s _ _ _
@[simp] theorem State.setV_quads (s : State) (base : Nat) (r : VReg) (v : Vec) : (s.setV base r v).quads = s.quads := State.wr_quads s _ _ _
@[simp] theorem State.setV_clusters (s : State) (base : Nat) (r : VReg) (v : Vec) : (s.setV base r v).clusters = s.clusters := State.wr_clusters s _ _ _
@[simp] theorem State.setV_dies (s : State) (base : Nat) (r : VReg) (v : Vec) : (s.setV base r v).dies = s.dies := State.wr_dies s _ _ _
@[simp] theorem State.setV_parts (s : State) (base : Nat) (r : VReg) (v : Vec) : (s.setV base r v).parts = s.parts := State.wr_parts s _ _ _
@[simp] theorem State.setV_ctxs (s : State) (base : Nat) (r : VReg) (v : Vec) : (s.setV base r v).ctxs = s.ctxs := State.wr_ctxs s _ _ _
@[simp] theorem State.setV_dev (s : State) (base : Nat) (r : VReg) (v : Vec) : (s.setV base r v).dev = s.dev := State.wr_dev s _ _ _
@[simp] theorem State.setV_net (s : State) (base : Nat) (r : VReg) (v : Vec) : (s.setV base r v).net = s.net := State.wr_net s _ _ _
@[simp] theorem State.setV_heldBeats (s : State) (base : Nat) (r : VReg) (v : Vec) : (s.setV base r v).heldBeats = s.heldBeats := State.wr_heldBeats s _ _ _
@[simp] theorem State.setV_snoopOver (s : State) (base : Nat) (r : VReg) (v : Vec) : (s.setV base r v).snoopOver = s.snoopOver := State.wr_snoopOver s _ _ _
@[simp] theorem State.setV_held (s : State) (base : Nat) (r : VReg) (v : Vec) : (s.setV base r v).held = s.held := State.wr_held s _ _ _
@[simp] theorem State.setV_frontiers (s : State) (base : Nat) (r : VReg) (v : Vec) : (s.setV base r v).frontiers = s.frontiers := State.wr_frontiers s _ _ _
@[simp] theorem State.setV_refGt (s : State) (base : Nat) (r : VReg) (v : Vec) : (s.setV base r v).refGt = s.refGt := State.wr_refGt s _ _ _
@[simp] theorem State.setV_cycle (s : State) (base : Nat) (r : VReg) (v : Vec) : (s.setV base r v).cycle = s.cycle := State.wr_cycle s _ _ _
@[simp] theorem State.setV_agenda (s : State) (base : Nat) (r : VReg) (v : Vec) : (s.setV base r v).agenda = s.agenda := State.wr_agenda s _ _ _
@[simp] theorem State.setV_todo (s : State) (base : Nat) (r : VReg) (v : Vec) : (s.setV base r v).todo = s.todo := State.wr_todo s _ _ _
@[simp] theorem State.setV_turnCore (s : State) (base : Nat) (r : VReg) (v : Vec) : (s.setV base r v).turnCore = s.turnCore := State.wr_turnCore s _ _ _
@[simp] theorem State.setV_turnSlot (s : State) (base : Nat) (r : VReg) (v : Vec) : (s.setV base r v).turnSlot = s.turnSlot := State.wr_turnSlot s _ _ _
@[simp] theorem State.setV_closing (s : State) (base : Nat) (r : VReg) (v : Vec) : (s.setV base r v).closing = s.closing := State.wr_closing s _ _ _
@[simp] theorem State.setV_free (s : State) (base : Nat) (r : VReg) (v : Vec) : (s.setV base r v).free = s.free := State.wr_free s _ _ _
@[simp] theorem State.setV_nextId (s : State) (base : Nat) (r : VReg) (v : Vec) : (s.setV base r v).nextId = s.nextId := State.wr_nextId s _ _ _

/-! ### `setAf` -/

@[simp] theorem State.setAf_mem (s : State) (base : Nat) (r : AfReg) (v : Nat) : (s.setAf base r v).mem = mwrite s.mem (base + offAf + 64 * r.val) 64 v := State.wr_mem s _ _ _
@[simp] theorem State.setAf_fe (s : State) (base : Nat) (r : AfReg) (v : Nat) : (s.setAf base r v).fe = s.fe := State.wr_fe s _ _ _
@[simp] theorem State.setAf_lines (s : State) (base : Nat) (r : AfReg) (v : Nat) : (s.setAf base r v).lines = s.lines := State.wr_lines s _ _ _
@[simp] theorem State.setAf_copies (s : State) (base : Nat) (r : AfReg) (v : Nat) : (s.setAf base r v).copies = s.copies := State.wr_copies s _ _ _
@[simp] theorem State.setAf_banks (s : State) (base : Nat) (r : AfReg) (v : Nat) : (s.setAf base r v).banks = s.banks := State.wr_banks s _ _ _
@[simp] theorem State.setAf_lostLocal (s : State) (base : Nat) (r : AfReg) (v : Nat) : (s.setAf base r v).lostLocal = s.lostLocal := State.wr_lostLocal s _ _ _
@[simp] theorem State.setAf_cores (s : State) (base : Nat) (r : AfReg) (v : Nat) : (s.setAf base r v).cores = s.cores := State.wr_cores s _ _ _
@[simp] theorem State.setAf_slots (s : State) (base : Nat) (r : AfReg) (v : Nat) : (s.setAf base r v).slots = s.slots := State.wr_slots s _ _ _
@[simp] theorem State.setAf_quads (s : State) (base : Nat) (r : AfReg) (v : Nat) : (s.setAf base r v).quads = s.quads := State.wr_quads s _ _ _
@[simp] theorem State.setAf_clusters (s : State) (base : Nat) (r : AfReg) (v : Nat) : (s.setAf base r v).clusters = s.clusters := State.wr_clusters s _ _ _
@[simp] theorem State.setAf_dies (s : State) (base : Nat) (r : AfReg) (v : Nat) : (s.setAf base r v).dies = s.dies := State.wr_dies s _ _ _
@[simp] theorem State.setAf_parts (s : State) (base : Nat) (r : AfReg) (v : Nat) : (s.setAf base r v).parts = s.parts := State.wr_parts s _ _ _
@[simp] theorem State.setAf_ctxs (s : State) (base : Nat) (r : AfReg) (v : Nat) : (s.setAf base r v).ctxs = s.ctxs := State.wr_ctxs s _ _ _
@[simp] theorem State.setAf_dev (s : State) (base : Nat) (r : AfReg) (v : Nat) : (s.setAf base r v).dev = s.dev := State.wr_dev s _ _ _
@[simp] theorem State.setAf_net (s : State) (base : Nat) (r : AfReg) (v : Nat) : (s.setAf base r v).net = s.net := State.wr_net s _ _ _
@[simp] theorem State.setAf_heldBeats (s : State) (base : Nat) (r : AfReg) (v : Nat) : (s.setAf base r v).heldBeats = s.heldBeats := State.wr_heldBeats s _ _ _
@[simp] theorem State.setAf_snoopOver (s : State) (base : Nat) (r : AfReg) (v : Nat) : (s.setAf base r v).snoopOver = s.snoopOver := State.wr_snoopOver s _ _ _
@[simp] theorem State.setAf_held (s : State) (base : Nat) (r : AfReg) (v : Nat) : (s.setAf base r v).held = s.held := State.wr_held s _ _ _
@[simp] theorem State.setAf_frontiers (s : State) (base : Nat) (r : AfReg) (v : Nat) : (s.setAf base r v).frontiers = s.frontiers := State.wr_frontiers s _ _ _
@[simp] theorem State.setAf_refGt (s : State) (base : Nat) (r : AfReg) (v : Nat) : (s.setAf base r v).refGt = s.refGt := State.wr_refGt s _ _ _
@[simp] theorem State.setAf_cycle (s : State) (base : Nat) (r : AfReg) (v : Nat) : (s.setAf base r v).cycle = s.cycle := State.wr_cycle s _ _ _
@[simp] theorem State.setAf_agenda (s : State) (base : Nat) (r : AfReg) (v : Nat) : (s.setAf base r v).agenda = s.agenda := State.wr_agenda s _ _ _
@[simp] theorem State.setAf_todo (s : State) (base : Nat) (r : AfReg) (v : Nat) : (s.setAf base r v).todo = s.todo := State.wr_todo s _ _ _
@[simp] theorem State.setAf_turnCore (s : State) (base : Nat) (r : AfReg) (v : Nat) : (s.setAf base r v).turnCore = s.turnCore := State.wr_turnCore s _ _ _
@[simp] theorem State.setAf_turnSlot (s : State) (base : Nat) (r : AfReg) (v : Nat) : (s.setAf base r v).turnSlot = s.turnSlot := State.wr_turnSlot s _ _ _
@[simp] theorem State.setAf_closing (s : State) (base : Nat) (r : AfReg) (v : Nat) : (s.setAf base r v).closing = s.closing := State.wr_closing s _ _ _
@[simp] theorem State.setAf_free (s : State) (base : Nat) (r : AfReg) (v : Nat) : (s.setAf base r v).free = s.free := State.wr_free s _ _ _
@[simp] theorem State.setAf_nextId (s : State) (base : Nat) (r : AfReg) (v : Nat) : (s.setAf base r v).nextId = s.nextId := State.wr_nextId s _ _ _

/-! ### `setH` -/

@[simp] theorem State.setH_mem (s : State) (base : Nat) (r : HReg) (v : Nat) : (s.setH base r v).mem = mwrite s.mem (base + offH r) 32 v := State.wr_mem s _ _ _
@[simp] theorem State.setH_fe (s : State) (base : Nat) (r : HReg) (v : Nat) : (s.setH base r v).fe = s.fe := State.wr_fe s _ _ _
@[simp] theorem State.setH_lines (s : State) (base : Nat) (r : HReg) (v : Nat) : (s.setH base r v).lines = s.lines := State.wr_lines s _ _ _
@[simp] theorem State.setH_copies (s : State) (base : Nat) (r : HReg) (v : Nat) : (s.setH base r v).copies = s.copies := State.wr_copies s _ _ _
@[simp] theorem State.setH_banks (s : State) (base : Nat) (r : HReg) (v : Nat) : (s.setH base r v).banks = s.banks := State.wr_banks s _ _ _
@[simp] theorem State.setH_lostLocal (s : State) (base : Nat) (r : HReg) (v : Nat) : (s.setH base r v).lostLocal = s.lostLocal := State.wr_lostLocal s _ _ _
@[simp] theorem State.setH_cores (s : State) (base : Nat) (r : HReg) (v : Nat) : (s.setH base r v).cores = s.cores := State.wr_cores s _ _ _
@[simp] theorem State.setH_slots (s : State) (base : Nat) (r : HReg) (v : Nat) : (s.setH base r v).slots = s.slots := State.wr_slots s _ _ _
@[simp] theorem State.setH_quads (s : State) (base : Nat) (r : HReg) (v : Nat) : (s.setH base r v).quads = s.quads := State.wr_quads s _ _ _
@[simp] theorem State.setH_clusters (s : State) (base : Nat) (r : HReg) (v : Nat) : (s.setH base r v).clusters = s.clusters := State.wr_clusters s _ _ _
@[simp] theorem State.setH_dies (s : State) (base : Nat) (r : HReg) (v : Nat) : (s.setH base r v).dies = s.dies := State.wr_dies s _ _ _
@[simp] theorem State.setH_parts (s : State) (base : Nat) (r : HReg) (v : Nat) : (s.setH base r v).parts = s.parts := State.wr_parts s _ _ _
@[simp] theorem State.setH_ctxs (s : State) (base : Nat) (r : HReg) (v : Nat) : (s.setH base r v).ctxs = s.ctxs := State.wr_ctxs s _ _ _
@[simp] theorem State.setH_dev (s : State) (base : Nat) (r : HReg) (v : Nat) : (s.setH base r v).dev = s.dev := State.wr_dev s _ _ _
@[simp] theorem State.setH_net (s : State) (base : Nat) (r : HReg) (v : Nat) : (s.setH base r v).net = s.net := State.wr_net s _ _ _
@[simp] theorem State.setH_heldBeats (s : State) (base : Nat) (r : HReg) (v : Nat) : (s.setH base r v).heldBeats = s.heldBeats := State.wr_heldBeats s _ _ _
@[simp] theorem State.setH_snoopOver (s : State) (base : Nat) (r : HReg) (v : Nat) : (s.setH base r v).snoopOver = s.snoopOver := State.wr_snoopOver s _ _ _
@[simp] theorem State.setH_held (s : State) (base : Nat) (r : HReg) (v : Nat) : (s.setH base r v).held = s.held := State.wr_held s _ _ _
@[simp] theorem State.setH_frontiers (s : State) (base : Nat) (r : HReg) (v : Nat) : (s.setH base r v).frontiers = s.frontiers := State.wr_frontiers s _ _ _
@[simp] theorem State.setH_refGt (s : State) (base : Nat) (r : HReg) (v : Nat) : (s.setH base r v).refGt = s.refGt := State.wr_refGt s _ _ _
@[simp] theorem State.setH_cycle (s : State) (base : Nat) (r : HReg) (v : Nat) : (s.setH base r v).cycle = s.cycle := State.wr_cycle s _ _ _
@[simp] theorem State.setH_agenda (s : State) (base : Nat) (r : HReg) (v : Nat) : (s.setH base r v).agenda = s.agenda := State.wr_agenda s _ _ _
@[simp] theorem State.setH_todo (s : State) (base : Nat) (r : HReg) (v : Nat) : (s.setH base r v).todo = s.todo := State.wr_todo s _ _ _
@[simp] theorem State.setH_turnCore (s : State) (base : Nat) (r : HReg) (v : Nat) : (s.setH base r v).turnCore = s.turnCore := State.wr_turnCore s _ _ _
@[simp] theorem State.setH_turnSlot (s : State) (base : Nat) (r : HReg) (v : Nat) : (s.setH base r v).turnSlot = s.turnSlot := State.wr_turnSlot s _ _ _
@[simp] theorem State.setH_closing (s : State) (base : Nat) (r : HReg) (v : Nat) : (s.setH base r v).closing = s.closing := State.wr_closing s _ _ _
@[simp] theorem State.setH_free (s : State) (base : Nat) (r : HReg) (v : Nat) : (s.setH base r v).free = s.free := State.wr_free s _ _ _
@[simp] theorem State.setH_nextId (s : State) (base : Nat) (r : HReg) (v : Nat) : (s.setH base r v).nextId = s.nextId := State.wr_nextId s _ _ _

/-! ### `setWs` -/

@[simp] theorem State.setWs_mem (s : State) (base off v : Nat) : (s.setWs base off v).mem = mwrite s.mem (base + off) 8 v := State.wr_mem s _ _ _
@[simp] theorem State.setWs_fe (s : State) (base off v : Nat) : (s.setWs base off v).fe = s.fe := State.wr_fe s _ _ _
@[simp] theorem State.setWs_lines (s : State) (base off v : Nat) : (s.setWs base off v).lines = s.lines := State.wr_lines s _ _ _
@[simp] theorem State.setWs_copies (s : State) (base off v : Nat) : (s.setWs base off v).copies = s.copies := State.wr_copies s _ _ _
@[simp] theorem State.setWs_banks (s : State) (base off v : Nat) : (s.setWs base off v).banks = s.banks := State.wr_banks s _ _ _
@[simp] theorem State.setWs_lostLocal (s : State) (base off v : Nat) : (s.setWs base off v).lostLocal = s.lostLocal := State.wr_lostLocal s _ _ _
@[simp] theorem State.setWs_cores (s : State) (base off v : Nat) : (s.setWs base off v).cores = s.cores := State.wr_cores s _ _ _
@[simp] theorem State.setWs_slots (s : State) (base off v : Nat) : (s.setWs base off v).slots = s.slots := State.wr_slots s _ _ _
@[simp] theorem State.setWs_quads (s : State) (base off v : Nat) : (s.setWs base off v).quads = s.quads := State.wr_quads s _ _ _
@[simp] theorem State.setWs_clusters (s : State) (base off v : Nat) : (s.setWs base off v).clusters = s.clusters := State.wr_clusters s _ _ _
@[simp] theorem State.setWs_dies (s : State) (base off v : Nat) : (s.setWs base off v).dies = s.dies := State.wr_dies s _ _ _
@[simp] theorem State.setWs_parts (s : State) (base off v : Nat) : (s.setWs base off v).parts = s.parts := State.wr_parts s _ _ _
@[simp] theorem State.setWs_ctxs (s : State) (base off v : Nat) : (s.setWs base off v).ctxs = s.ctxs := State.wr_ctxs s _ _ _
@[simp] theorem State.setWs_dev (s : State) (base off v : Nat) : (s.setWs base off v).dev = s.dev := State.wr_dev s _ _ _
@[simp] theorem State.setWs_net (s : State) (base off v : Nat) : (s.setWs base off v).net = s.net := State.wr_net s _ _ _
@[simp] theorem State.setWs_heldBeats (s : State) (base off v : Nat) : (s.setWs base off v).heldBeats = s.heldBeats := State.wr_heldBeats s _ _ _
@[simp] theorem State.setWs_snoopOver (s : State) (base off v : Nat) : (s.setWs base off v).snoopOver = s.snoopOver := State.wr_snoopOver s _ _ _
@[simp] theorem State.setWs_held (s : State) (base off v : Nat) : (s.setWs base off v).held = s.held := State.wr_held s _ _ _
@[simp] theorem State.setWs_frontiers (s : State) (base off v : Nat) : (s.setWs base off v).frontiers = s.frontiers := State.wr_frontiers s _ _ _
@[simp] theorem State.setWs_refGt (s : State) (base off v : Nat) : (s.setWs base off v).refGt = s.refGt := State.wr_refGt s _ _ _
@[simp] theorem State.setWs_cycle (s : State) (base off v : Nat) : (s.setWs base off v).cycle = s.cycle := State.wr_cycle s _ _ _
@[simp] theorem State.setWs_agenda (s : State) (base off v : Nat) : (s.setWs base off v).agenda = s.agenda := State.wr_agenda s _ _ _
@[simp] theorem State.setWs_todo (s : State) (base off v : Nat) : (s.setWs base off v).todo = s.todo := State.wr_todo s _ _ _
@[simp] theorem State.setWs_turnCore (s : State) (base off v : Nat) : (s.setWs base off v).turnCore = s.turnCore := State.wr_turnCore s _ _ _
@[simp] theorem State.setWs_turnSlot (s : State) (base off v : Nat) : (s.setWs base off v).turnSlot = s.turnSlot := State.wr_turnSlot s _ _ _
@[simp] theorem State.setWs_closing (s : State) (base off v : Nat) : (s.setWs base off v).closing = s.closing := State.wr_closing s _ _ _
@[simp] theorem State.setWs_free (s : State) (base off v : Nat) : (s.setWs base off v).free = s.free := State.wr_free s _ _ _
@[simp] theorem State.setWs_nextId (s : State) (base off v : Nat) : (s.setWs base off v).nextId = s.nextId := State.wr_nextId s _ _ _

/-! ### `setPc` -/

@[simp] theorem State.setPc_mem (s : State) (base : Nat) (v : Word) : (s.setPc base v).mem = mwrite s.mem (base + offPc) 8 v.toNat := State.wr_mem s _ _ _
@[simp] theorem State.setPc_fe (s : State) (base : Nat) (v : Word) : (s.setPc base v).fe = s.fe := State.wr_fe s _ _ _
@[simp] theorem State.setPc_lines (s : State) (base : Nat) (v : Word) : (s.setPc base v).lines = s.lines := State.wr_lines s _ _ _
@[simp] theorem State.setPc_copies (s : State) (base : Nat) (v : Word) : (s.setPc base v).copies = s.copies := State.wr_copies s _ _ _
@[simp] theorem State.setPc_banks (s : State) (base : Nat) (v : Word) : (s.setPc base v).banks = s.banks := State.wr_banks s _ _ _
@[simp] theorem State.setPc_lostLocal (s : State) (base : Nat) (v : Word) : (s.setPc base v).lostLocal = s.lostLocal := State.wr_lostLocal s _ _ _
@[simp] theorem State.setPc_cores (s : State) (base : Nat) (v : Word) : (s.setPc base v).cores = s.cores := State.wr_cores s _ _ _
@[simp] theorem State.setPc_slots (s : State) (base : Nat) (v : Word) : (s.setPc base v).slots = s.slots := State.wr_slots s _ _ _
@[simp] theorem State.setPc_quads (s : State) (base : Nat) (v : Word) : (s.setPc base v).quads = s.quads := State.wr_quads s _ _ _
@[simp] theorem State.setPc_clusters (s : State) (base : Nat) (v : Word) : (s.setPc base v).clusters = s.clusters := State.wr_clusters s _ _ _
@[simp] theorem State.setPc_dies (s : State) (base : Nat) (v : Word) : (s.setPc base v).dies = s.dies := State.wr_dies s _ _ _
@[simp] theorem State.setPc_parts (s : State) (base : Nat) (v : Word) : (s.setPc base v).parts = s.parts := State.wr_parts s _ _ _
@[simp] theorem State.setPc_ctxs (s : State) (base : Nat) (v : Word) : (s.setPc base v).ctxs = s.ctxs := State.wr_ctxs s _ _ _
@[simp] theorem State.setPc_dev (s : State) (base : Nat) (v : Word) : (s.setPc base v).dev = s.dev := State.wr_dev s _ _ _
@[simp] theorem State.setPc_net (s : State) (base : Nat) (v : Word) : (s.setPc base v).net = s.net := State.wr_net s _ _ _
@[simp] theorem State.setPc_heldBeats (s : State) (base : Nat) (v : Word) : (s.setPc base v).heldBeats = s.heldBeats := State.wr_heldBeats s _ _ _
@[simp] theorem State.setPc_snoopOver (s : State) (base : Nat) (v : Word) : (s.setPc base v).snoopOver = s.snoopOver := State.wr_snoopOver s _ _ _
@[simp] theorem State.setPc_held (s : State) (base : Nat) (v : Word) : (s.setPc base v).held = s.held := State.wr_held s _ _ _
@[simp] theorem State.setPc_frontiers (s : State) (base : Nat) (v : Word) : (s.setPc base v).frontiers = s.frontiers := State.wr_frontiers s _ _ _
@[simp] theorem State.setPc_refGt (s : State) (base : Nat) (v : Word) : (s.setPc base v).refGt = s.refGt := State.wr_refGt s _ _ _
@[simp] theorem State.setPc_cycle (s : State) (base : Nat) (v : Word) : (s.setPc base v).cycle = s.cycle := State.wr_cycle s _ _ _
@[simp] theorem State.setPc_agenda (s : State) (base : Nat) (v : Word) : (s.setPc base v).agenda = s.agenda := State.wr_agenda s _ _ _
@[simp] theorem State.setPc_todo (s : State) (base : Nat) (v : Word) : (s.setPc base v).todo = s.todo := State.wr_todo s _ _ _
@[simp] theorem State.setPc_turnCore (s : State) (base : Nat) (v : Word) : (s.setPc base v).turnCore = s.turnCore := State.wr_turnCore s _ _ _
@[simp] theorem State.setPc_turnSlot (s : State) (base : Nat) (v : Word) : (s.setPc base v).turnSlot = s.turnSlot := State.wr_turnSlot s _ _ _
@[simp] theorem State.setPc_closing (s : State) (base : Nat) (v : Word) : (s.setPc base v).closing = s.closing := State.wr_closing s _ _ _
@[simp] theorem State.setPc_free (s : State) (base : Nat) (v : Word) : (s.setPc base v).free = s.free := State.wr_free s _ _ _
@[simp] theorem State.setPc_nextId (s : State) (base : Nat) (v : Word) : (s.setPc base v).nextId = s.nextId := State.wr_nextId s _ _ _

/-! ### `setPl` -/

@[simp] theorem State.setPl_mem (s : State) (base : Nat) (b : Bool) : (s.setPl base b).mem = mwrite s.mem (base + offCtxn) 8 (setBits (s.ws base offCtxn) 31 1 (b2n b)) := State.wr_mem s _ _ _
@[simp] theorem State.setPl_fe (s : State) (base : Nat) (b : Bool) : (s.setPl base b).fe = s.fe := State.wr_fe s _ _ _
@[simp] theorem State.setPl_lines (s : State) (base : Nat) (b : Bool) : (s.setPl base b).lines = s.lines := State.wr_lines s _ _ _
@[simp] theorem State.setPl_copies (s : State) (base : Nat) (b : Bool) : (s.setPl base b).copies = s.copies := State.wr_copies s _ _ _
@[simp] theorem State.setPl_banks (s : State) (base : Nat) (b : Bool) : (s.setPl base b).banks = s.banks := State.wr_banks s _ _ _
@[simp] theorem State.setPl_lostLocal (s : State) (base : Nat) (b : Bool) : (s.setPl base b).lostLocal = s.lostLocal := State.wr_lostLocal s _ _ _
@[simp] theorem State.setPl_cores (s : State) (base : Nat) (b : Bool) : (s.setPl base b).cores = s.cores := State.wr_cores s _ _ _
@[simp] theorem State.setPl_slots (s : State) (base : Nat) (b : Bool) : (s.setPl base b).slots = s.slots := State.wr_slots s _ _ _
@[simp] theorem State.setPl_quads (s : State) (base : Nat) (b : Bool) : (s.setPl base b).quads = s.quads := State.wr_quads s _ _ _
@[simp] theorem State.setPl_clusters (s : State) (base : Nat) (b : Bool) : (s.setPl base b).clusters = s.clusters := State.wr_clusters s _ _ _
@[simp] theorem State.setPl_dies (s : State) (base : Nat) (b : Bool) : (s.setPl base b).dies = s.dies := State.wr_dies s _ _ _
@[simp] theorem State.setPl_parts (s : State) (base : Nat) (b : Bool) : (s.setPl base b).parts = s.parts := State.wr_parts s _ _ _
@[simp] theorem State.setPl_ctxs (s : State) (base : Nat) (b : Bool) : (s.setPl base b).ctxs = s.ctxs := State.wr_ctxs s _ _ _
@[simp] theorem State.setPl_dev (s : State) (base : Nat) (b : Bool) : (s.setPl base b).dev = s.dev := State.wr_dev s _ _ _
@[simp] theorem State.setPl_net (s : State) (base : Nat) (b : Bool) : (s.setPl base b).net = s.net := State.wr_net s _ _ _
@[simp] theorem State.setPl_heldBeats (s : State) (base : Nat) (b : Bool) : (s.setPl base b).heldBeats = s.heldBeats := State.wr_heldBeats s _ _ _
@[simp] theorem State.setPl_snoopOver (s : State) (base : Nat) (b : Bool) : (s.setPl base b).snoopOver = s.snoopOver := State.wr_snoopOver s _ _ _
@[simp] theorem State.setPl_held (s : State) (base : Nat) (b : Bool) : (s.setPl base b).held = s.held := State.wr_held s _ _ _
@[simp] theorem State.setPl_frontiers (s : State) (base : Nat) (b : Bool) : (s.setPl base b).frontiers = s.frontiers := State.wr_frontiers s _ _ _
@[simp] theorem State.setPl_refGt (s : State) (base : Nat) (b : Bool) : (s.setPl base b).refGt = s.refGt := State.wr_refGt s _ _ _
@[simp] theorem State.setPl_cycle (s : State) (base : Nat) (b : Bool) : (s.setPl base b).cycle = s.cycle := State.wr_cycle s _ _ _
@[simp] theorem State.setPl_agenda (s : State) (base : Nat) (b : Bool) : (s.setPl base b).agenda = s.agenda := State.wr_agenda s _ _ _
@[simp] theorem State.setPl_todo (s : State) (base : Nat) (b : Bool) : (s.setPl base b).todo = s.todo := State.wr_todo s _ _ _
@[simp] theorem State.setPl_turnCore (s : State) (base : Nat) (b : Bool) : (s.setPl base b).turnCore = s.turnCore := State.wr_turnCore s _ _ _
@[simp] theorem State.setPl_turnSlot (s : State) (base : Nat) (b : Bool) : (s.setPl base b).turnSlot = s.turnSlot := State.wr_turnSlot s _ _ _
@[simp] theorem State.setPl_closing (s : State) (base : Nat) (b : Bool) : (s.setPl base b).closing = s.closing := State.wr_closing s _ _ _
@[simp] theorem State.setPl_free (s : State) (base : Nat) (b : Bool) : (s.setPl base b).free = s.free := State.wr_free s _ _ _
@[simp] theorem State.setPl_nextId (s : State) (base : Nat) (b : Bool) : (s.setPl base b).nextId = s.nextId := State.wr_nextId s _ _ _

/-! ### `setBrw` -/

@[simp] theorem State.setBrw_mem (s : State) (base : Nat) (b : Bool) : (s.setBrw base b).mem = mwrite s.mem (base + offCtxn) 8 (setBits (s.ws base offCtxn) 27 1 (b2n b)) := State.wr_mem s _ _ _
@[simp] theorem State.setBrw_fe (s : State) (base : Nat) (b : Bool) : (s.setBrw base b).fe = s.fe := State.wr_fe s _ _ _
@[simp] theorem State.setBrw_lines (s : State) (base : Nat) (b : Bool) : (s.setBrw base b).lines = s.lines := State.wr_lines s _ _ _
@[simp] theorem State.setBrw_copies (s : State) (base : Nat) (b : Bool) : (s.setBrw base b).copies = s.copies := State.wr_copies s _ _ _
@[simp] theorem State.setBrw_banks (s : State) (base : Nat) (b : Bool) : (s.setBrw base b).banks = s.banks := State.wr_banks s _ _ _
@[simp] theorem State.setBrw_lostLocal (s : State) (base : Nat) (b : Bool) : (s.setBrw base b).lostLocal = s.lostLocal := State.wr_lostLocal s _ _ _
@[simp] theorem State.setBrw_cores (s : State) (base : Nat) (b : Bool) : (s.setBrw base b).cores = s.cores := State.wr_cores s _ _ _
@[simp] theorem State.setBrw_slots (s : State) (base : Nat) (b : Bool) : (s.setBrw base b).slots = s.slots := State.wr_slots s _ _ _
@[simp] theorem State.setBrw_quads (s : State) (base : Nat) (b : Bool) : (s.setBrw base b).quads = s.quads := State.wr_quads s _ _ _
@[simp] theorem State.setBrw_clusters (s : State) (base : Nat) (b : Bool) : (s.setBrw base b).clusters = s.clusters := State.wr_clusters s _ _ _
@[simp] theorem State.setBrw_dies (s : State) (base : Nat) (b : Bool) : (s.setBrw base b).dies = s.dies := State.wr_dies s _ _ _
@[simp] theorem State.setBrw_parts (s : State) (base : Nat) (b : Bool) : (s.setBrw base b).parts = s.parts := State.wr_parts s _ _ _
@[simp] theorem State.setBrw_ctxs (s : State) (base : Nat) (b : Bool) : (s.setBrw base b).ctxs = s.ctxs := State.wr_ctxs s _ _ _
@[simp] theorem State.setBrw_dev (s : State) (base : Nat) (b : Bool) : (s.setBrw base b).dev = s.dev := State.wr_dev s _ _ _
@[simp] theorem State.setBrw_net (s : State) (base : Nat) (b : Bool) : (s.setBrw base b).net = s.net := State.wr_net s _ _ _
@[simp] theorem State.setBrw_heldBeats (s : State) (base : Nat) (b : Bool) : (s.setBrw base b).heldBeats = s.heldBeats := State.wr_heldBeats s _ _ _
@[simp] theorem State.setBrw_snoopOver (s : State) (base : Nat) (b : Bool) : (s.setBrw base b).snoopOver = s.snoopOver := State.wr_snoopOver s _ _ _
@[simp] theorem State.setBrw_held (s : State) (base : Nat) (b : Bool) : (s.setBrw base b).held = s.held := State.wr_held s _ _ _
@[simp] theorem State.setBrw_frontiers (s : State) (base : Nat) (b : Bool) : (s.setBrw base b).frontiers = s.frontiers := State.wr_frontiers s _ _ _
@[simp] theorem State.setBrw_refGt (s : State) (base : Nat) (b : Bool) : (s.setBrw base b).refGt = s.refGt := State.wr_refGt s _ _ _
@[simp] theorem State.setBrw_cycle (s : State) (base : Nat) (b : Bool) : (s.setBrw base b).cycle = s.cycle := State.wr_cycle s _ _ _
@[simp] theorem State.setBrw_agenda (s : State) (base : Nat) (b : Bool) : (s.setBrw base b).agenda = s.agenda := State.wr_agenda s _ _ _
@[simp] theorem State.setBrw_todo (s : State) (base : Nat) (b : Bool) : (s.setBrw base b).todo = s.todo := State.wr_todo s _ _ _
@[simp] theorem State.setBrw_turnCore (s : State) (base : Nat) (b : Bool) : (s.setBrw base b).turnCore = s.turnCore := State.wr_turnCore s _ _ _
@[simp] theorem State.setBrw_turnSlot (s : State) (base : Nat) (b : Bool) : (s.setBrw base b).turnSlot = s.turnSlot := State.wr_turnSlot s _ _ _
@[simp] theorem State.setBrw_closing (s : State) (base : Nat) (b : Bool) : (s.setBrw base b).closing = s.closing := State.wr_closing s _ _ _
@[simp] theorem State.setBrw_free (s : State) (base : Nat) (b : Bool) : (s.setBrw base b).free = s.free := State.wr_free s _ _ _
@[simp] theorem State.setBrw_nextId (s : State) (base : Nat) (b : Bool) : (s.setBrw base b).nextId = s.nextId := State.wr_nextId s _ _ _

/-! ### `orFlags` -/

@[simp] theorem State.orFlags_mem (s : State) (base flags : Nat) : (s.orFlags base flags).mem = mwrite s.mem (base + offFpflags) 8 (s.ws base offFpflags ||| flags) := State.wr_mem s _ _ _
@[simp] theorem State.orFlags_fe (s : State) (base flags : Nat) : (s.orFlags base flags).fe = s.fe := State.wr_fe s _ _ _
@[simp] theorem State.orFlags_lines (s : State) (base flags : Nat) : (s.orFlags base flags).lines = s.lines := State.wr_lines s _ _ _
@[simp] theorem State.orFlags_copies (s : State) (base flags : Nat) : (s.orFlags base flags).copies = s.copies := State.wr_copies s _ _ _
@[simp] theorem State.orFlags_banks (s : State) (base flags : Nat) : (s.orFlags base flags).banks = s.banks := State.wr_banks s _ _ _
@[simp] theorem State.orFlags_lostLocal (s : State) (base flags : Nat) : (s.orFlags base flags).lostLocal = s.lostLocal := State.wr_lostLocal s _ _ _
@[simp] theorem State.orFlags_cores (s : State) (base flags : Nat) : (s.orFlags base flags).cores = s.cores := State.wr_cores s _ _ _
@[simp] theorem State.orFlags_slots (s : State) (base flags : Nat) : (s.orFlags base flags).slots = s.slots := State.wr_slots s _ _ _
@[simp] theorem State.orFlags_quads (s : State) (base flags : Nat) : (s.orFlags base flags).quads = s.quads := State.wr_quads s _ _ _
@[simp] theorem State.orFlags_clusters (s : State) (base flags : Nat) : (s.orFlags base flags).clusters = s.clusters := State.wr_clusters s _ _ _
@[simp] theorem State.orFlags_dies (s : State) (base flags : Nat) : (s.orFlags base flags).dies = s.dies := State.wr_dies s _ _ _
@[simp] theorem State.orFlags_parts (s : State) (base flags : Nat) : (s.orFlags base flags).parts = s.parts := State.wr_parts s _ _ _
@[simp] theorem State.orFlags_ctxs (s : State) (base flags : Nat) : (s.orFlags base flags).ctxs = s.ctxs := State.wr_ctxs s _ _ _
@[simp] theorem State.orFlags_dev (s : State) (base flags : Nat) : (s.orFlags base flags).dev = s.dev := State.wr_dev s _ _ _
@[simp] theorem State.orFlags_net (s : State) (base flags : Nat) : (s.orFlags base flags).net = s.net := State.wr_net s _ _ _
@[simp] theorem State.orFlags_heldBeats (s : State) (base flags : Nat) : (s.orFlags base flags).heldBeats = s.heldBeats := State.wr_heldBeats s _ _ _
@[simp] theorem State.orFlags_snoopOver (s : State) (base flags : Nat) : (s.orFlags base flags).snoopOver = s.snoopOver := State.wr_snoopOver s _ _ _
@[simp] theorem State.orFlags_held (s : State) (base flags : Nat) : (s.orFlags base flags).held = s.held := State.wr_held s _ _ _
@[simp] theorem State.orFlags_frontiers (s : State) (base flags : Nat) : (s.orFlags base flags).frontiers = s.frontiers := State.wr_frontiers s _ _ _
@[simp] theorem State.orFlags_refGt (s : State) (base flags : Nat) : (s.orFlags base flags).refGt = s.refGt := State.wr_refGt s _ _ _
@[simp] theorem State.orFlags_cycle (s : State) (base flags : Nat) : (s.orFlags base flags).cycle = s.cycle := State.wr_cycle s _ _ _
@[simp] theorem State.orFlags_agenda (s : State) (base flags : Nat) : (s.orFlags base flags).agenda = s.agenda := State.wr_agenda s _ _ _
@[simp] theorem State.orFlags_todo (s : State) (base flags : Nat) : (s.orFlags base flags).todo = s.todo := State.wr_todo s _ _ _
@[simp] theorem State.orFlags_turnCore (s : State) (base flags : Nat) : (s.orFlags base flags).turnCore = s.turnCore := State.wr_turnCore s _ _ _
@[simp] theorem State.orFlags_turnSlot (s : State) (base flags : Nat) : (s.orFlags base flags).turnSlot = s.turnSlot := State.wr_turnSlot s _ _ _
@[simp] theorem State.orFlags_closing (s : State) (base flags : Nat) : (s.orFlags base flags).closing = s.closing := State.wr_closing s _ _ _
@[simp] theorem State.orFlags_free (s : State) (base flags : Nat) : (s.orFlags base flags).free = s.free := State.wr_free s _ _ _
@[simp] theorem State.orFlags_nextId (s : State) (base flags : Nat) : (s.orFlags base flags).nextId = s.nextId := State.wr_nextId s _ _ _

/-! ### `advPc` -/

@[simp] theorem State.advPc_mem (s : State) (base len : Nat) : (s.advPc base len).mem = mwrite s.mem (base + offPc) 8 (s.pc base + BitVec.ofNat 64 len).toNat := State.wr_mem s _ _ _
@[simp] theorem State.advPc_fe (s : State) (base len : Nat) : (s.advPc base len).fe = s.fe := State.wr_fe s _ _ _
@[simp] theorem State.advPc_lines (s : State) (base len : Nat) : (s.advPc base len).lines = s.lines := State.wr_lines s _ _ _
@[simp] theorem State.advPc_copies (s : State) (base len : Nat) : (s.advPc base len).copies = s.copies := State.wr_copies s _ _ _
@[simp] theorem State.advPc_banks (s : State) (base len : Nat) : (s.advPc base len).banks = s.banks := State.wr_banks s _ _ _
@[simp] theorem State.advPc_lostLocal (s : State) (base len : Nat) : (s.advPc base len).lostLocal = s.lostLocal := State.wr_lostLocal s _ _ _
@[simp] theorem State.advPc_cores (s : State) (base len : Nat) : (s.advPc base len).cores = s.cores := State.wr_cores s _ _ _
@[simp] theorem State.advPc_slots (s : State) (base len : Nat) : (s.advPc base len).slots = s.slots := State.wr_slots s _ _ _
@[simp] theorem State.advPc_quads (s : State) (base len : Nat) : (s.advPc base len).quads = s.quads := State.wr_quads s _ _ _
@[simp] theorem State.advPc_clusters (s : State) (base len : Nat) : (s.advPc base len).clusters = s.clusters := State.wr_clusters s _ _ _
@[simp] theorem State.advPc_dies (s : State) (base len : Nat) : (s.advPc base len).dies = s.dies := State.wr_dies s _ _ _
@[simp] theorem State.advPc_parts (s : State) (base len : Nat) : (s.advPc base len).parts = s.parts := State.wr_parts s _ _ _
@[simp] theorem State.advPc_ctxs (s : State) (base len : Nat) : (s.advPc base len).ctxs = s.ctxs := State.wr_ctxs s _ _ _
@[simp] theorem State.advPc_dev (s : State) (base len : Nat) : (s.advPc base len).dev = s.dev := State.wr_dev s _ _ _
@[simp] theorem State.advPc_net (s : State) (base len : Nat) : (s.advPc base len).net = s.net := State.wr_net s _ _ _
@[simp] theorem State.advPc_heldBeats (s : State) (base len : Nat) : (s.advPc base len).heldBeats = s.heldBeats := State.wr_heldBeats s _ _ _
@[simp] theorem State.advPc_snoopOver (s : State) (base len : Nat) : (s.advPc base len).snoopOver = s.snoopOver := State.wr_snoopOver s _ _ _
@[simp] theorem State.advPc_held (s : State) (base len : Nat) : (s.advPc base len).held = s.held := State.wr_held s _ _ _
@[simp] theorem State.advPc_frontiers (s : State) (base len : Nat) : (s.advPc base len).frontiers = s.frontiers := State.wr_frontiers s _ _ _
@[simp] theorem State.advPc_refGt (s : State) (base len : Nat) : (s.advPc base len).refGt = s.refGt := State.wr_refGt s _ _ _
@[simp] theorem State.advPc_cycle (s : State) (base len : Nat) : (s.advPc base len).cycle = s.cycle := State.wr_cycle s _ _ _
@[simp] theorem State.advPc_agenda (s : State) (base len : Nat) : (s.advPc base len).agenda = s.agenda := State.wr_agenda s _ _ _
@[simp] theorem State.advPc_todo (s : State) (base len : Nat) : (s.advPc base len).todo = s.todo := State.wr_todo s _ _ _
@[simp] theorem State.advPc_turnCore (s : State) (base len : Nat) : (s.advPc base len).turnCore = s.turnCore := State.wr_turnCore s _ _ _
@[simp] theorem State.advPc_turnSlot (s : State) (base len : Nat) : (s.advPc base len).turnSlot = s.turnSlot := State.wr_turnSlot s _ _ _
@[simp] theorem State.advPc_closing (s : State) (base len : Nat) : (s.advPc base len).closing = s.closing := State.wr_closing s _ _ _
@[simp] theorem State.advPc_free (s : State) (base len : Nat) : (s.advPc base len).free = s.free := State.wr_free s _ _ _
@[simp] theorem State.advPc_nextId (s : State) (base len : Nat) : (s.advPc base len).nextId = s.nextId := State.wr_nextId s _ _ _

/-! ### `dst` -/

@[simp] theorem State.dst_mem (s : State) (base n : Nat) (r : WReg) (v : Nat) : (s.dst base n r v).mem = mwrite s.mem (base + 8 * r.val) 8 (BitVec.ofNat 64 (v % 2 ^ n)).toNat := State.wr_mem s _ _ _
@[simp] theorem State.dst_fe (s : State) (base n : Nat) (r : WReg) (v : Nat) : (s.dst base n r v).fe = s.fe := State.wr_fe s _ _ _
@[simp] theorem State.dst_lines (s : State) (base n : Nat) (r : WReg) (v : Nat) : (s.dst base n r v).lines = s.lines := State.wr_lines s _ _ _
@[simp] theorem State.dst_copies (s : State) (base n : Nat) (r : WReg) (v : Nat) : (s.dst base n r v).copies = s.copies := State.wr_copies s _ _ _
@[simp] theorem State.dst_banks (s : State) (base n : Nat) (r : WReg) (v : Nat) : (s.dst base n r v).banks = s.banks := State.wr_banks s _ _ _
@[simp] theorem State.dst_lostLocal (s : State) (base n : Nat) (r : WReg) (v : Nat) : (s.dst base n r v).lostLocal = s.lostLocal := State.wr_lostLocal s _ _ _
@[simp] theorem State.dst_cores (s : State) (base n : Nat) (r : WReg) (v : Nat) : (s.dst base n r v).cores = s.cores := State.wr_cores s _ _ _
@[simp] theorem State.dst_slots (s : State) (base n : Nat) (r : WReg) (v : Nat) : (s.dst base n r v).slots = s.slots := State.wr_slots s _ _ _
@[simp] theorem State.dst_quads (s : State) (base n : Nat) (r : WReg) (v : Nat) : (s.dst base n r v).quads = s.quads := State.wr_quads s _ _ _
@[simp] theorem State.dst_clusters (s : State) (base n : Nat) (r : WReg) (v : Nat) : (s.dst base n r v).clusters = s.clusters := State.wr_clusters s _ _ _
@[simp] theorem State.dst_dies (s : State) (base n : Nat) (r : WReg) (v : Nat) : (s.dst base n r v).dies = s.dies := State.wr_dies s _ _ _
@[simp] theorem State.dst_parts (s : State) (base n : Nat) (r : WReg) (v : Nat) : (s.dst base n r v).parts = s.parts := State.wr_parts s _ _ _
@[simp] theorem State.dst_ctxs (s : State) (base n : Nat) (r : WReg) (v : Nat) : (s.dst base n r v).ctxs = s.ctxs := State.wr_ctxs s _ _ _
@[simp] theorem State.dst_dev (s : State) (base n : Nat) (r : WReg) (v : Nat) : (s.dst base n r v).dev = s.dev := State.wr_dev s _ _ _
@[simp] theorem State.dst_net (s : State) (base n : Nat) (r : WReg) (v : Nat) : (s.dst base n r v).net = s.net := State.wr_net s _ _ _
@[simp] theorem State.dst_heldBeats (s : State) (base n : Nat) (r : WReg) (v : Nat) : (s.dst base n r v).heldBeats = s.heldBeats := State.wr_heldBeats s _ _ _
@[simp] theorem State.dst_snoopOver (s : State) (base n : Nat) (r : WReg) (v : Nat) : (s.dst base n r v).snoopOver = s.snoopOver := State.wr_snoopOver s _ _ _
@[simp] theorem State.dst_held (s : State) (base n : Nat) (r : WReg) (v : Nat) : (s.dst base n r v).held = s.held := State.wr_held s _ _ _
@[simp] theorem State.dst_frontiers (s : State) (base n : Nat) (r : WReg) (v : Nat) : (s.dst base n r v).frontiers = s.frontiers := State.wr_frontiers s _ _ _
@[simp] theorem State.dst_refGt (s : State) (base n : Nat) (r : WReg) (v : Nat) : (s.dst base n r v).refGt = s.refGt := State.wr_refGt s _ _ _
@[simp] theorem State.dst_cycle (s : State) (base n : Nat) (r : WReg) (v : Nat) : (s.dst base n r v).cycle = s.cycle := State.wr_cycle s _ _ _
@[simp] theorem State.dst_agenda (s : State) (base n : Nat) (r : WReg) (v : Nat) : (s.dst base n r v).agenda = s.agenda := State.wr_agenda s _ _ _
@[simp] theorem State.dst_todo (s : State) (base n : Nat) (r : WReg) (v : Nat) : (s.dst base n r v).todo = s.todo := State.wr_todo s _ _ _
@[simp] theorem State.dst_turnCore (s : State) (base n : Nat) (r : WReg) (v : Nat) : (s.dst base n r v).turnCore = s.turnCore := State.wr_turnCore s _ _ _
@[simp] theorem State.dst_turnSlot (s : State) (base n : Nat) (r : WReg) (v : Nat) : (s.dst base n r v).turnSlot = s.turnSlot := State.wr_turnSlot s _ _ _
@[simp] theorem State.dst_closing (s : State) (base n : Nat) (r : WReg) (v : Nat) : (s.dst base n r v).closing = s.closing := State.wr_closing s _ _ _
@[simp] theorem State.dst_free (s : State) (base n : Nat) (r : WReg) (v : Nat) : (s.dst base n r v).free = s.free := State.wr_free s _ _ _
@[simp] theorem State.dst_nextId (s : State) (base n : Nat) (r : WReg) (v : Nat) : (s.dst base n r v).nextId = s.nextId := State.wr_nextId s _ _ _

/-! ### `setWait` -/

@[simp] theorem State.setWait_mem (s : State) (key : Nat) (w : Wait) : (s.setWait key w).mem = s.mem := rfl
@[simp] theorem State.setWait_fe (s : State) (key : Nat) (w : Wait) : (s.setWait key w).fe = s.fe := rfl
@[simp] theorem State.setWait_lines (s : State) (key : Nat) (w : Wait) : (s.setWait key w).lines = s.lines := rfl
@[simp] theorem State.setWait_copies (s : State) (key : Nat) (w : Wait) : (s.setWait key w).copies = s.copies := rfl
@[simp] theorem State.setWait_banks (s : State) (key : Nat) (w : Wait) : (s.setWait key w).banks = s.banks := rfl
@[simp] theorem State.setWait_lostLocal (s : State) (key : Nat) (w : Wait) : (s.setWait key w).lostLocal = s.lostLocal := rfl
@[simp] theorem State.setWait_cores (s : State) (key : Nat) (w : Wait) : (s.setWait key w).cores = s.cores := rfl
@[simp] theorem State.setWait_slots (s : State) (key : Nat) (w : Wait) : (s.setWait key w).slots = s.slots := rfl
@[simp] theorem State.setWait_quads (s : State) (key : Nat) (w : Wait) : (s.setWait key w).quads = s.quads := rfl
@[simp] theorem State.setWait_clusters (s : State) (key : Nat) (w : Wait) : (s.setWait key w).clusters = s.clusters := rfl
@[simp] theorem State.setWait_dies (s : State) (key : Nat) (w : Wait) : (s.setWait key w).dies = s.dies := rfl
@[simp] theorem State.setWait_parts (s : State) (key : Nat) (w : Wait) : (s.setWait key w).parts = s.parts := rfl
@[simp] theorem State.setWait_ctxs (s : State) (key : Nat) (w : Wait) : (s.setWait key w).ctxs = tset s.ctxs key { s.ctx key with wait := some w } := rfl
@[simp] theorem State.setWait_dev (s : State) (key : Nat) (w : Wait) : (s.setWait key w).dev = s.dev := rfl
@[simp] theorem State.setWait_net (s : State) (key : Nat) (w : Wait) : (s.setWait key w).net = s.net := rfl
@[simp] theorem State.setWait_heldBeats (s : State) (key : Nat) (w : Wait) : (s.setWait key w).heldBeats = s.heldBeats := rfl
@[simp] theorem State.setWait_snoopOver (s : State) (key : Nat) (w : Wait) : (s.setWait key w).snoopOver = s.snoopOver := rfl
@[simp] theorem State.setWait_held (s : State) (key : Nat) (w : Wait) : (s.setWait key w).held = s.held := rfl
@[simp] theorem State.setWait_frontiers (s : State) (key : Nat) (w : Wait) : (s.setWait key w).frontiers = s.frontiers := rfl
@[simp] theorem State.setWait_refGt (s : State) (key : Nat) (w : Wait) : (s.setWait key w).refGt = s.refGt := rfl
@[simp] theorem State.setWait_cycle (s : State) (key : Nat) (w : Wait) : (s.setWait key w).cycle = s.cycle := rfl
@[simp] theorem State.setWait_agenda (s : State) (key : Nat) (w : Wait) : (s.setWait key w).agenda = s.agenda := rfl
@[simp] theorem State.setWait_todo (s : State) (key : Nat) (w : Wait) : (s.setWait key w).todo = s.todo := rfl
@[simp] theorem State.setWait_turnCore (s : State) (key : Nat) (w : Wait) : (s.setWait key w).turnCore = s.turnCore := rfl
@[simp] theorem State.setWait_turnSlot (s : State) (key : Nat) (w : Wait) : (s.setWait key w).turnSlot = s.turnSlot := rfl
@[simp] theorem State.setWait_closing (s : State) (key : Nat) (w : Wait) : (s.setWait key w).closing = s.closing := rfl
@[simp] theorem State.setWait_free (s : State) (key : Nat) (w : Wait) : (s.setWait key w).free = s.free := rfl
@[simp] theorem State.setWait_nextId (s : State) (key : Nat) (w : Wait) : (s.setWait key w).nextId = s.nextId := rfl

/-! ### `clearWait` -/

@[simp] theorem State.clearWait_mem (s : State) (key : Nat) : (s.clearWait key).mem = s.mem := rfl
@[simp] theorem State.clearWait_fe (s : State) (key : Nat) : (s.clearWait key).fe = s.fe := rfl
@[simp] theorem State.clearWait_lines (s : State) (key : Nat) : (s.clearWait key).lines = s.lines := rfl
@[simp] theorem State.clearWait_copies (s : State) (key : Nat) : (s.clearWait key).copies = s.copies := rfl
@[simp] theorem State.clearWait_banks (s : State) (key : Nat) : (s.clearWait key).banks = s.banks := rfl
@[simp] theorem State.clearWait_lostLocal (s : State) (key : Nat) : (s.clearWait key).lostLocal = s.lostLocal := rfl
@[simp] theorem State.clearWait_cores (s : State) (key : Nat) : (s.clearWait key).cores = s.cores := rfl
@[simp] theorem State.clearWait_slots (s : State) (key : Nat) : (s.clearWait key).slots = s.slots := rfl
@[simp] theorem State.clearWait_quads (s : State) (key : Nat) : (s.clearWait key).quads = s.quads := rfl
@[simp] theorem State.clearWait_clusters (s : State) (key : Nat) : (s.clearWait key).clusters = s.clusters := rfl
@[simp] theorem State.clearWait_dies (s : State) (key : Nat) : (s.clearWait key).dies = s.dies := rfl
@[simp] theorem State.clearWait_parts (s : State) (key : Nat) : (s.clearWait key).parts = s.parts := rfl
@[simp] theorem State.clearWait_ctxs (s : State) (key : Nat) : (s.clearWait key).ctxs = tset s.ctxs key { s.ctx key with wait := none } := rfl
@[simp] theorem State.clearWait_dev (s : State) (key : Nat) : (s.clearWait key).dev = s.dev := rfl
@[simp] theorem State.clearWait_net (s : State) (key : Nat) : (s.clearWait key).net = s.net := rfl
@[simp] theorem State.clearWait_heldBeats (s : State) (key : Nat) : (s.clearWait key).heldBeats = s.heldBeats := rfl
@[simp] theorem State.clearWait_snoopOver (s : State) (key : Nat) : (s.clearWait key).snoopOver = s.snoopOver := rfl
@[simp] theorem State.clearWait_held (s : State) (key : Nat) : (s.clearWait key).held = s.held := rfl
@[simp] theorem State.clearWait_frontiers (s : State) (key : Nat) : (s.clearWait key).frontiers = s.frontiers := rfl
@[simp] theorem State.clearWait_refGt (s : State) (key : Nat) : (s.clearWait key).refGt = s.refGt := rfl
@[simp] theorem State.clearWait_cycle (s : State) (key : Nat) : (s.clearWait key).cycle = s.cycle := rfl
@[simp] theorem State.clearWait_agenda (s : State) (key : Nat) : (s.clearWait key).agenda = s.agenda := rfl
@[simp] theorem State.clearWait_todo (s : State) (key : Nat) : (s.clearWait key).todo = s.todo := rfl
@[simp] theorem State.clearWait_turnCore (s : State) (key : Nat) : (s.clearWait key).turnCore = s.turnCore := rfl
@[simp] theorem State.clearWait_turnSlot (s : State) (key : Nat) : (s.clearWait key).turnSlot = s.turnSlot := rfl
@[simp] theorem State.clearWait_closing (s : State) (key : Nat) : (s.clearWait key).closing = s.closing := rfl
@[simp] theorem State.clearWait_free (s : State) (key : Nat) : (s.clearWait key).free = s.free := rfl
@[simp] theorem State.clearWait_nextId (s : State) (key : Nat) : (s.clearWait key).nextId = s.nextId := rfl

/-! ### `jumpPc` -/

@[simp] theorem State.jumpPc_mem (s : State) (me : Me) (v : Word) : (s.jumpPc me v).mem = mwrite s.mem (me.base + offPc) 8 v.toNat := rfl
@[simp] theorem State.jumpPc_fe (s : State) (me : Me) (v : Word) : (s.jumpPc me v).fe = s.fe := rfl
@[simp] theorem State.jumpPc_lines (s : State) (me : Me) (v : Word) : (s.jumpPc me v).lines = s.lines := rfl
@[simp] theorem State.jumpPc_copies (s : State) (me : Me) (v : Word) : (s.jumpPc me v).copies = s.copies := rfl
@[simp] theorem State.jumpPc_banks (s : State) (me : Me) (v : Word) : (s.jumpPc me v).banks = s.banks := rfl
@[simp] theorem State.jumpPc_lostLocal (s : State) (me : Me) (v : Word) : (s.jumpPc me v).lostLocal = s.lostLocal := rfl
@[simp] theorem State.jumpPc_cores (s : State) (me : Me) (v : Word) : (s.jumpPc me v).cores = s.cores := rfl
@[simp] theorem State.jumpPc_slots (s : State) (me : Me) (v : Word) : (s.jumpPc me v).slots = tset s.slots me.slot { s.slot me.slot with block := none } := rfl
@[simp] theorem State.jumpPc_quads (s : State) (me : Me) (v : Word) : (s.jumpPc me v).quads = s.quads := rfl
@[simp] theorem State.jumpPc_clusters (s : State) (me : Me) (v : Word) : (s.jumpPc me v).clusters = s.clusters := rfl
@[simp] theorem State.jumpPc_dies (s : State) (me : Me) (v : Word) : (s.jumpPc me v).dies = s.dies := rfl
@[simp] theorem State.jumpPc_parts (s : State) (me : Me) (v : Word) : (s.jumpPc me v).parts = s.parts := rfl
@[simp] theorem State.jumpPc_ctxs (s : State) (me : Me) (v : Word) : (s.jumpPc me v).ctxs = s.ctxs := rfl
@[simp] theorem State.jumpPc_dev (s : State) (me : Me) (v : Word) : (s.jumpPc me v).dev = s.dev := rfl
@[simp] theorem State.jumpPc_net (s : State) (me : Me) (v : Word) : (s.jumpPc me v).net = s.net := rfl
@[simp] theorem State.jumpPc_heldBeats (s : State) (me : Me) (v : Word) : (s.jumpPc me v).heldBeats = s.heldBeats := rfl
@[simp] theorem State.jumpPc_snoopOver (s : State) (me : Me) (v : Word) : (s.jumpPc me v).snoopOver = s.snoopOver := rfl
@[simp] theorem State.jumpPc_held (s : State) (me : Me) (v : Word) : (s.jumpPc me v).held = s.held := rfl
@[simp] theorem State.jumpPc_frontiers (s : State) (me : Me) (v : Word) : (s.jumpPc me v).frontiers = s.frontiers := rfl
@[simp] theorem State.jumpPc_refGt (s : State) (me : Me) (v : Word) : (s.jumpPc me v).refGt = s.refGt := rfl
@[simp] theorem State.jumpPc_cycle (s : State) (me : Me) (v : Word) : (s.jumpPc me v).cycle = s.cycle := rfl
@[simp] theorem State.jumpPc_agenda (s : State) (me : Me) (v : Word) : (s.jumpPc me v).agenda = s.agenda := rfl
@[simp] theorem State.jumpPc_todo (s : State) (me : Me) (v : Word) : (s.jumpPc me v).todo = s.todo := rfl
@[simp] theorem State.jumpPc_turnCore (s : State) (me : Me) (v : Word) : (s.jumpPc me v).turnCore = s.turnCore := rfl
@[simp] theorem State.jumpPc_turnSlot (s : State) (me : Me) (v : Word) : (s.jumpPc me v).turnSlot = s.turnSlot := rfl
@[simp] theorem State.jumpPc_closing (s : State) (me : Me) (v : Word) : (s.jumpPc me v).closing = s.closing := rfl
@[simp] theorem State.jumpPc_free (s : State) (me : Me) (v : Word) : (s.jumpPc me v).free = s.free := rfl
@[simp] theorem State.jumpPc_nextId (s : State) (me : Me) (v : Word) : (s.jumpPc me v).nextId = s.nextId := rfl

/-! ### `setQueue` -/

@[simp] theorem State.setQueue_mem (s : State) (p q : Nat) (x : Queue) : (s.setQueue p q x).mem = s.mem := rfl
@[simp] theorem State.setQueue_fe (s : State) (p q : Nat) (x : Queue) : (s.setQueue p q x).fe = s.fe := rfl
@[simp] theorem State.setQueue_lines (s : State) (p q : Nat) (x : Queue) : (s.setQueue p q x).lines = s.lines := rfl
@[simp] theorem State.setQueue_copies (s : State) (p q : Nat) (x : Queue) : (s.setQueue p q x).copies = s.copies := rfl
@[simp] theorem State.setQueue_banks (s : State) (p q : Nat) (x : Queue) : (s.setQueue p q x).banks = s.banks := rfl
@[simp] theorem State.setQueue_lostLocal (s : State) (p q : Nat) (x : Queue) : (s.setQueue p q x).lostLocal = s.lostLocal := rfl
@[simp] theorem State.setQueue_cores (s : State) (p q : Nat) (x : Queue) : (s.setQueue p q x).cores = s.cores := rfl
@[simp] theorem State.setQueue_slots (s : State) (p q : Nat) (x : Queue) : (s.setQueue p q x).slots = s.slots := rfl
@[simp] theorem State.setQueue_quads (s : State) (p q : Nat) (x : Queue) : (s.setQueue p q x).quads = s.quads := rfl
@[simp] theorem State.setQueue_clusters (s : State) (p q : Nat) (x : Queue) : (s.setQueue p q x).clusters = s.clusters := rfl
@[simp] theorem State.setQueue_dies (s : State) (p q : Nat) (x : Queue) : (s.setQueue p q x).dies = s.dies := rfl
@[simp] theorem State.setQueue_parts (s : State) (p q : Nat) (x : Queue) : (s.setQueue p q x).parts = tset s.parts p { s.part p with queues := tset (s.part p).queues q x } := rfl
@[simp] theorem State.setQueue_ctxs (s : State) (p q : Nat) (x : Queue) : (s.setQueue p q x).ctxs = s.ctxs := rfl
@[simp] theorem State.setQueue_dev (s : State) (p q : Nat) (x : Queue) : (s.setQueue p q x).dev = s.dev := rfl
@[simp] theorem State.setQueue_net (s : State) (p q : Nat) (x : Queue) : (s.setQueue p q x).net = s.net := rfl
@[simp] theorem State.setQueue_heldBeats (s : State) (p q : Nat) (x : Queue) : (s.setQueue p q x).heldBeats = s.heldBeats := rfl
@[simp] theorem State.setQueue_snoopOver (s : State) (p q : Nat) (x : Queue) : (s.setQueue p q x).snoopOver = s.snoopOver := rfl
@[simp] theorem State.setQueue_held (s : State) (p q : Nat) (x : Queue) : (s.setQueue p q x).held = s.held := rfl
@[simp] theorem State.setQueue_frontiers (s : State) (p q : Nat) (x : Queue) : (s.setQueue p q x).frontiers = s.frontiers := rfl
@[simp] theorem State.setQueue_refGt (s : State) (p q : Nat) (x : Queue) : (s.setQueue p q x).refGt = s.refGt := rfl
@[simp] theorem State.setQueue_cycle (s : State) (p q : Nat) (x : Queue) : (s.setQueue p q x).cycle = s.cycle := rfl
@[simp] theorem State.setQueue_agenda (s : State) (p q : Nat) (x : Queue) : (s.setQueue p q x).agenda = s.agenda := rfl
@[simp] theorem State.setQueue_todo (s : State) (p q : Nat) (x : Queue) : (s.setQueue p q x).todo = s.todo := rfl
@[simp] theorem State.setQueue_turnCore (s : State) (p q : Nat) (x : Queue) : (s.setQueue p q x).turnCore = s.turnCore := rfl
@[simp] theorem State.setQueue_turnSlot (s : State) (p q : Nat) (x : Queue) : (s.setQueue p q x).turnSlot = s.turnSlot := rfl
@[simp] theorem State.setQueue_closing (s : State) (p q : Nat) (x : Queue) : (s.setQueue p q x).closing = s.closing := rfl
@[simp] theorem State.setQueue_free (s : State) (p q : Nat) (x : Queue) : (s.setQueue p q x).free = s.free := rfl
@[simp] theorem State.setQueue_nextId (s : State) (p q : Nat) (x : Queue) : (s.setQueue p q x).nextId = s.nextId := rfl

/-! ### `yieldTurns` -/

@[simp] theorem State.yieldTurns_mem (s : State) (core slot : Nat) : (s.yieldTurns core slot).mem = s.mem := rfl
@[simp] theorem State.yieldTurns_fe (s : State) (core slot : Nat) : (s.yieldTurns core slot).fe = s.fe := rfl
@[simp] theorem State.yieldTurns_lines (s : State) (core slot : Nat) : (s.yieldTurns core slot).lines = s.lines := rfl
@[simp] theorem State.yieldTurns_copies (s : State) (core slot : Nat) : (s.yieldTurns core slot).copies = s.copies := rfl
@[simp] theorem State.yieldTurns_banks (s : State) (core slot : Nat) : (s.yieldTurns core slot).banks = s.banks := rfl
@[simp] theorem State.yieldTurns_lostLocal (s : State) (core slot : Nat) : (s.yieldTurns core slot).lostLocal = s.lostLocal := rfl
@[simp] theorem State.yieldTurns_slots (s : State) (core slot : Nat) : (s.yieldTurns core slot).slots = s.slots := rfl
@[simp] theorem State.yieldTurns_quads (s : State) (core slot : Nat) : (s.yieldTurns core slot).quads = s.quads := rfl
@[simp] theorem State.yieldTurns_clusters (s : State) (core slot : Nat) : (s.yieldTurns core slot).clusters = s.clusters := rfl
@[simp] theorem State.yieldTurns_dies (s : State) (core slot : Nat) : (s.yieldTurns core slot).dies = s.dies := rfl
@[simp] theorem State.yieldTurns_parts (s : State) (core slot : Nat) : (s.yieldTurns core slot).parts = s.parts := rfl
@[simp] theorem State.yieldTurns_ctxs (s : State) (core slot : Nat) : (s.yieldTurns core slot).ctxs = s.ctxs := rfl
@[simp] theorem State.yieldTurns_dev (s : State) (core slot : Nat) : (s.yieldTurns core slot).dev = s.dev := rfl
@[simp] theorem State.yieldTurns_net (s : State) (core slot : Nat) : (s.yieldTurns core slot).net = s.net := rfl
@[simp] theorem State.yieldTurns_heldBeats (s : State) (core slot : Nat) : (s.yieldTurns core slot).heldBeats = s.heldBeats := rfl
@[simp] theorem State.yieldTurns_snoopOver (s : State) (core slot : Nat) : (s.yieldTurns core slot).snoopOver = s.snoopOver := rfl
@[simp] theorem State.yieldTurns_held (s : State) (core slot : Nat) : (s.yieldTurns core slot).held = s.held := rfl
@[simp] theorem State.yieldTurns_frontiers (s : State) (core slot : Nat) : (s.yieldTurns core slot).frontiers = s.frontiers := rfl
@[simp] theorem State.yieldTurns_refGt (s : State) (core slot : Nat) : (s.yieldTurns core slot).refGt = s.refGt := rfl
@[simp] theorem State.yieldTurns_cycle (s : State) (core slot : Nat) : (s.yieldTurns core slot).cycle = s.cycle := rfl
@[simp] theorem State.yieldTurns_agenda (s : State) (core slot : Nat) : (s.yieldTurns core slot).agenda = s.agenda := rfl
@[simp] theorem State.yieldTurns_todo (s : State) (core slot : Nat) : (s.yieldTurns core slot).todo = s.todo := rfl
@[simp] theorem State.yieldTurns_turnCore (s : State) (core slot : Nat) : (s.yieldTurns core slot).turnCore = s.turnCore := rfl
@[simp] theorem State.yieldTurns_turnSlot (s : State) (core slot : Nat) : (s.yieldTurns core slot).turnSlot = s.turnSlot := rfl
@[simp] theorem State.yieldTurns_closing (s : State) (core slot : Nat) : (s.yieldTurns core slot).closing = s.closing := rfl
@[simp] theorem State.yieldTurns_free (s : State) (core slot : Nat) : (s.yieldTurns core slot).free = s.free := rfl
@[simp] theorem State.yieldTurns_nextId (s : State) (core slot : Nat) : (s.yieldTurns core slot).nextId = s.nextId := rfl

/-! ### `tick` and `choose` -/

@[simp] theorem State.tick_mem (s : State) : s.tick.2.mem = s.mem := rfl
@[simp] theorem State.choose_mem (s : State) (n : Nat) : (s.choose n).2.mem = s.mem := rfl
@[simp] theorem State.tick_fe (s : State) : s.tick.2.fe = s.fe := rfl
@[simp] theorem State.choose_fe (s : State) (n : Nat) : (s.choose n).2.fe = s.fe := rfl
@[simp] theorem State.tick_lines (s : State) : s.tick.2.lines = s.lines := rfl
@[simp] theorem State.choose_lines (s : State) (n : Nat) : (s.choose n).2.lines = s.lines := rfl
@[simp] theorem State.tick_copies (s : State) : s.tick.2.copies = s.copies := rfl
@[simp] theorem State.choose_copies (s : State) (n : Nat) : (s.choose n).2.copies = s.copies := rfl
@[simp] theorem State.tick_banks (s : State) : s.tick.2.banks = s.banks := rfl
@[simp] theorem State.choose_banks (s : State) (n : Nat) : (s.choose n).2.banks = s.banks := rfl
@[simp] theorem State.tick_lostLocal (s : State) : s.tick.2.lostLocal = s.lostLocal := rfl
@[simp] theorem State.choose_lostLocal (s : State) (n : Nat) : (s.choose n).2.lostLocal = s.lostLocal := rfl
@[simp] theorem State.tick_cores (s : State) : s.tick.2.cores = s.cores := rfl
@[simp] theorem State.choose_cores (s : State) (n : Nat) : (s.choose n).2.cores = s.cores := rfl
@[simp] theorem State.tick_slots (s : State) : s.tick.2.slots = s.slots := rfl
@[simp] theorem State.choose_slots (s : State) (n : Nat) : (s.choose n).2.slots = s.slots := rfl
@[simp] theorem State.tick_quads (s : State) : s.tick.2.quads = s.quads := rfl
@[simp] theorem State.choose_quads (s : State) (n : Nat) : (s.choose n).2.quads = s.quads := rfl
@[simp] theorem State.tick_clusters (s : State) : s.tick.2.clusters = s.clusters := rfl
@[simp] theorem State.choose_clusters (s : State) (n : Nat) : (s.choose n).2.clusters = s.clusters := rfl
@[simp] theorem State.tick_dies (s : State) : s.tick.2.dies = s.dies := rfl
@[simp] theorem State.choose_dies (s : State) (n : Nat) : (s.choose n).2.dies = s.dies := rfl
@[simp] theorem State.tick_parts (s : State) : s.tick.2.parts = s.parts := rfl
@[simp] theorem State.choose_parts (s : State) (n : Nat) : (s.choose n).2.parts = s.parts := rfl
@[simp] theorem State.tick_ctxs (s : State) : s.tick.2.ctxs = s.ctxs := rfl
@[simp] theorem State.choose_ctxs (s : State) (n : Nat) : (s.choose n).2.ctxs = s.ctxs := rfl
@[simp] theorem State.tick_dev (s : State) : s.tick.2.dev = s.dev := rfl
@[simp] theorem State.choose_dev (s : State) (n : Nat) : (s.choose n).2.dev = s.dev := rfl
@[simp] theorem State.tick_net (s : State) : s.tick.2.net = s.net := rfl
@[simp] theorem State.choose_net (s : State) (n : Nat) : (s.choose n).2.net = s.net := rfl
@[simp] theorem State.tick_heldBeats (s : State) : s.tick.2.heldBeats = s.heldBeats := rfl
@[simp] theorem State.choose_heldBeats (s : State) (n : Nat) : (s.choose n).2.heldBeats = s.heldBeats := rfl
@[simp] theorem State.tick_snoopOver (s : State) : s.tick.2.snoopOver = s.snoopOver := rfl
@[simp] theorem State.choose_snoopOver (s : State) (n : Nat) : (s.choose n).2.snoopOver = s.snoopOver := rfl
@[simp] theorem State.tick_held (s : State) : s.tick.2.held = s.held := rfl
@[simp] theorem State.choose_held (s : State) (n : Nat) : (s.choose n).2.held = s.held := rfl
@[simp] theorem State.tick_frontiers (s : State) : s.tick.2.frontiers = s.frontiers := rfl
@[simp] theorem State.choose_frontiers (s : State) (n : Nat) : (s.choose n).2.frontiers = s.frontiers := rfl
@[simp] theorem State.tick_refGt (s : State) : s.tick.2.refGt = s.refGt := rfl
@[simp] theorem State.choose_refGt (s : State) (n : Nat) : (s.choose n).2.refGt = s.refGt := rfl
@[simp] theorem State.tick_cycle (s : State) : s.tick.2.cycle = s.cycle := rfl
@[simp] theorem State.choose_cycle (s : State) (n : Nat) : (s.choose n).2.cycle = s.cycle := rfl
@[simp] theorem State.tick_agenda (s : State) : s.tick.2.agenda = s.agenda := rfl
@[simp] theorem State.choose_agenda (s : State) (n : Nat) : (s.choose n).2.agenda = s.agenda := rfl
@[simp] theorem State.tick_todo (s : State) : s.tick.2.todo = s.todo := rfl
@[simp] theorem State.choose_todo (s : State) (n : Nat) : (s.choose n).2.todo = s.todo := rfl
@[simp] theorem State.tick_turnCore (s : State) : s.tick.2.turnCore = s.turnCore := rfl
@[simp] theorem State.choose_turnCore (s : State) (n : Nat) : (s.choose n).2.turnCore = s.turnCore := rfl
@[simp] theorem State.tick_turnSlot (s : State) : s.tick.2.turnSlot = s.turnSlot := rfl
@[simp] theorem State.choose_turnSlot (s : State) (n : Nat) : (s.choose n).2.turnSlot = s.turnSlot := rfl
@[simp] theorem State.tick_closing (s : State) : s.tick.2.closing = s.closing := rfl
@[simp] theorem State.choose_closing (s : State) (n : Nat) : (s.choose n).2.closing = s.closing := rfl
@[simp] theorem State.tick_free (s : State) : s.tick.2.free = s.free := rfl
@[simp] theorem State.choose_free (s : State) (n : Nat) : (s.choose n).2.free = s.free + 1 := rfl
@[simp] theorem State.tick_nextId (s : State) : s.tick.2.nextId = s.nextId + 1 := rfl
@[simp] theorem State.choose_nextId (s : State) (n : Nat) : (s.choose n).2.nextId = s.nextId := rfl

end Sys2Proof.Machine
end

