-- ==== Sys2Proof/Laws/Memory.lean ====
section
/-! SUPPORT. Memory: what a byte reads as after a write, and that every operation keeps the canonical form. -/

namespace Sys2Proof.Machine

open Sys2Proof

/-! ### The canonical form -/

/-- A bound on the addresses of a list in canonical form. -/
def Above : Option Nat → Nat → Prop
  | none, _ => True
  | some l, a => l < a

theorem memWfFrom_cons (lo : Option Nat) (k : Nat) (v : Byte) (r : List Host.Cell) :
    memWfFrom lo ((k, v) :: r) = true ↔ Above lo k ∧ v ≠ unlisted ∧ memWfFrom (some k) r = true := by
  cases lo <;> simp [memWfFrom, Above, and_assoc]

theorem Above.trans {lo : Option Nat} {k a : Nat} (h : Above lo k) (g : k < a) : Above lo a := by
  cases lo with
  | none => trivial
  | some l => exact Nat.lt_trans h g

/-- A list in canonical form above `a` is in canonical form above whatever lies below `a`. -/
theorem memWfFrom_lower {lo : Option Nat} {a : Nat} (m : List Host.Cell) (hl : Above lo a)
    (h : memWfFrom (some a) m = true) : memWfFrom lo m = true := by
  cases m with
  | nil => cases lo <;> rfl
  | cons c r =>
    obtain ⟨k, v⟩ := c
    rw [memWfFrom_cons] at h ⊢
    exact ⟨hl.trans h.1, h.2⟩

/-- A byte read below every listed address is what an unlisted address reads as. -/
theorem mget_below {m : List Host.Cell} {lo a : Nat} (h : memWfFrom (some lo) m = true) (hb : a ≤ lo) :
    mget m a = unlisted := by
  cases m with
  | nil => rfl
  | cons c r =>
    obtain ⟨k, v⟩ := c
    have hk : lo < k := ((memWfFrom_cons _ _ _ _).1 h).1
    have h1 : a ≠ k := by omega
    have h2 : a < k := by omega
    simp [mget, h1, h2]

/-- A byte written keeps the canonical form. -/
theorem mset_wfFrom (m : List Host.Cell) (lo : Option Nat) (a : Nat) (v : Byte) (hl : Above lo a)
    (h : memWfFrom lo m = true) : memWfFrom lo (mset m a v) = true := by
  induction m generalizing lo with
  | nil =>
    by_cases hv : v = unlisted
    · simpa [mset, hv] using h
    · rw [mset, if_neg hv, memWfFrom_cons]; exact ⟨hl, hv, rfl⟩
  | cons c r ih =>
    obtain ⟨k, w⟩ := c
    have hc := (memWfFrom_cons _ _ _ _).1 h
    by_cases h1 : a < k
    · by_cases hv : v = unlisted
      · simpa [mset, h1, hv] using h
      · rw [mset, if_pos h1, if_neg hv, memWfFrom_cons]
        exact ⟨hl, hv, (memWfFrom_cons _ _ _ _).2 ⟨h1, hc.2⟩⟩
    · by_cases h2 : a = k
      · by_cases hv : v = unlisted
        · rw [mset, if_neg h1, if_pos h2, if_pos hv]; exact memWfFrom_lower r hc.1 hc.2.2
        · rw [mset, if_neg h1, if_pos h2, if_neg hv, memWfFrom_cons]
          exact ⟨hl, hv, h2 ▸ hc.2.2⟩
      · rw [mset, if_neg h1, if_neg h2, memWfFrom_cons]
        exact ⟨hc.1, hc.2.1, ih (some k) (by show k < a; omega) hc.2.2⟩

theorem mset_wf {m : List Host.Cell} (a : Nat) (v : Byte) (h : Memory.wf m = true) : Memory.wf (mset m a v) = true :=
  mset_wfFrom m none a v trivial h

/-- A number written keeps the canonical form. -/
theorem mwrite_wf {m : List Host.Cell} (a n v : Nat) (h : Memory.wf m = true) : Memory.wf (mwrite m a n v) = true := by
  induction n generalizing m a v with
  | zero => exact h
  | succ n ih => exact ih (a + 1) (v / 256) (mset_wf a _ h)

theorem mzero_wfFrom (m : List Host.Cell) (lo : Option Nat) (a b : Nat) (h : memWfFrom lo m = true) :
    memWfFrom lo (mzero m a b) = true := by
  induction m generalizing lo with
  | nil => exact h
  | cons c r ih =>
    obtain ⟨k, w⟩ := c
    have hc := (memWfFrom_cons _ _ _ _).1 h
    by_cases hk : (decide (k < a) || decide (b ≤ k)) = true
    · rw [mzero, List.filter_cons_of_pos (by simpa using hk), memWfFrom_cons]
      exact ⟨hc.1, hc.2.1, ih (some k) hc.2.2⟩
    · rw [mzero, List.filter_cons_of_neg (by simpa using hk)]
      exact memWfFrom_lower _ hc.1 (ih (some k) hc.2.2)

/-- Zeroing a range keeps the canonical form. -/
theorem mzero_wf {m : List Host.Cell} (a b : Nat) (h : Memory.wf m = true) : Memory.wf (mzero m a b) = true :=
  mzero_wfFrom m none a b h

/-- The memory of the machine after reset has the canonical form. -/
theorem reset_mem_wf : Memory.wf State.reset.mem = true := rfl

/-! ### Reading after writing -/

theorem mget_mset_from (m : List Host.Cell) (lo : Option Nat) (a b : Nat) (v : Byte) (h : memWfFrom lo m = true) :
    mget (mset m a v) b = if b = a then v else mget m b := by
  induction m generalizing lo with
  | nil =>
    by_cases hv : v = unlisted <;> by_cases hb : b = a <;> simp [mset, mget, hv, hb]
  | cons c r ih =>
    obtain ⟨k, w⟩ := c
    have hc := (memWfFrom_cons _ _ _ _).1 h
    by_cases h1 : a < k
    · by_cases hv : v = unlisted
      · by_cases hb : b = a
        · have h2 : b ≠ k := by omega
          have h3 : b < k := by omega
          rw [mset, if_pos h1, if_pos hv, if_pos hb, mget, if_neg h2, if_pos h3, hv]
        · rw [mset, if_pos h1, if_pos hv, if_neg hb]
      · by_cases hb : b = a
        · rw [mset, if_pos h1, if_neg hv, if_pos hb, mget, if_pos hb]
        · by_cases hlt : b < a
          · have h2 : b ≠ k := by omega
            have h3 : b < k := by omega
            rw [mset, if_pos h1, if_neg hv, if_neg hb, mget, if_neg hb, if_pos hlt, mget, if_neg h2, if_pos h3]
          · rw [mset, if_pos h1, if_neg hv, if_neg hb, mget, if_neg hb, if_neg hlt]
    · by_cases h2 : a = k
      · subst h2
        by_cases hb : b = a
        · subst hb
          by_cases hv : v = unlisted
          · rw [mset, if_neg h1, if_pos rfl, if_pos hv, if_pos rfl, hv]
            exact mget_below hc.2.2 (Nat.le_refl _)
          · rw [mset, if_neg h1, if_pos rfl, if_neg hv, if_pos rfl, mget, if_pos rfl]
        · by_cases hv : v = unlisted
          · rw [mset, if_neg h1, if_pos rfl, if_pos hv, if_neg hb, mget, if_neg hb]
            by_cases hlt : b < a
            · rw [if_pos hlt]; exact mget_below hc.2.2 (by omega)
            · rw [if_neg hlt]
          · rw [mset, if_neg h1, if_pos rfl, if_neg hv, if_neg hb, mget, if_neg hb, mget, if_neg hb]
      · rw [mset, if_neg h1, if_neg h2, mget, mget]
        by_cases hb : b = k
        · have : b ≠ a := by omega
          rw [if_pos hb, if_neg this, if_pos hb]
        · rw [if_neg hb, if_neg hb]
          by_cases hlt : b < k
          · have : b ≠ a := by omega
            rw [if_pos hlt, if_neg this, if_pos hlt]
          · rw [if_neg hlt, if_neg hlt]; exact ih (some k) hc.2.2

/-- What a byte reads as after a write of one byte. -/
theorem mget_mset {m : List Host.Cell} (h : Memory.wf m = true) (a b : Nat) (v : Byte) :
    mget (mset m a v) b = if b = a then v else mget m b := mget_mset_from m none a b v h

/-- A byte outside a written range reads as before. -/
theorem mget_mwrite_out {m : List Host.Cell} (h : Memory.wf m = true) (a n v b : Nat) (hb : b < a ∨ a + n ≤ b) :
    mget (mwrite m a n v) b = mget m b := by
  induction n generalizing m a v with
  | zero => rfl
  | succ n ih =>
    have h1 : b ≠ a := by omega
    rw [mwrite, ih (mset_wf a _ h) (a + 1) (v / 256) (by omega), mget_mset h, if_neg h1]

/-- A byte inside a written range reads as the byte of the number at its place. -/
theorem mget_mwrite_in {m : List Host.Cell} (h : Memory.wf m = true) (a n v i : Nat) (hi : i < n) :
    mget (mwrite m a n v) (a + i) = BitVec.ofNat 8 (v / 256 ^ i) := by
  induction n generalizing m a v i with
  | zero => omega
  | succ n ih =>
    cases i with
    | zero =>
      rw [mwrite, mget_mwrite_out (mset_wf a _ h) (a + 1) n _ _ (by omega), mget_mset h, if_pos (by omega)]
      simp
    | succ i =>
      have := ih (mset_wf a (BitVec.ofNat 8 v) h) (a + 1) (v / 256) i (by omega)
      rw [mwrite, show a + (i + 1) = a + 1 + i by omega, this, Nat.div_div_eq_div_mul, Nat.pow_succ, Nat.mul_comm 256]

/-- Two memories that agree on a range read the same number there. -/
theorem mread_congr {m m' : List Host.Cell} (a n : Nat) (h : ∀ b, a ≤ b → b < a + n → mget m b = mget m' b) :
    mread m a n = mread m' a n := by
  induction n generalizing a with
  | zero => rfl
  | succ n ih =>
    rw [mread, mread, h a (Nat.le_refl _) (by omega), ih (a + 1) (fun b h1 h2 => h b (by omega) (by omega))]

/-- A range away from a written range reads as before. -/
theorem mread_mwrite_out {m : List Host.Cell} (h : Memory.wf m = true) (a n v b k : Nat)
    (hd : b + k ≤ a ∨ a + n ≤ b) : mread (mwrite m a n v) b k = mread m b k :=
  mread_congr b k (fun c h1 h2 => mget_mwrite_out h a n v c (by omega))

/-- A written range reads back as the number written, cut to the range. -/
theorem mread_mwrite {m : List Host.Cell} (h : Memory.wf m = true) (a n v : Nat) :
    mread (mwrite m a n v) a n = v % 256 ^ n := by
  induction n generalizing m a v with
  | zero => simp [mread, Nat.mod_one]
  | succ n ih =>
    have h1 : mget (mwrite m a (n + 1) v) a = BitVec.ofNat 8 v := by
      have := mget_mwrite_in h a (n + 1) v 0 (by omega)
      simpa using this
    rw [mread, h1]
    have h2 : mread (mwrite m a (n + 1) v) (a + 1) n = v / 256 % 256 ^ n := ih (mset_wf a _ h) (a + 1) (v / 256)
    rw [h2, Nat.pow_succ, Nat.mul_comm (256 ^ n), Nat.mod_mul]
    simp

/-- A number read from `n` bytes is below 256 ^ `n`. -/
theorem mread_lt (m : List Host.Cell) (a n : Nat) : mread m a n < 256 ^ n := by
  induction n generalizing a with
  | zero => simp [mread]
  | succ n ih =>
    have h1 := ih (a + 1)
    have h2 : (mget m a).toNat < 256 := (mget m a).isLt
    rw [mread, Nat.pow_succ]
    omega

/-- A byte of a zeroed range reads as zero, and every other byte as before. -/
theorem mget_mzero_from (m : List Host.Cell) (lo : Option Nat) (h : memWfFrom lo m = true) (a b c : Nat) :
    mget (mzero m a b) c = if a ≤ c ∧ c < b then unlisted else mget m c := by
  induction m generalizing lo with
  | nil => by_cases hc : a ≤ c ∧ c < b <;> simp [mzero, mget]
  | cons x r ih =>
    obtain ⟨k, w⟩ := x
    have hc := (memWfFrom_cons _ _ _ _).1 h
    have hr := mzero_wfFrom r (some k) a b hc.2.2
    have ih := ih (some k) hc.2.2
    by_cases hk : (decide (k < a) || decide (b ≤ k)) = true
    · rw [mzero, List.filter_cons_of_pos (by simpa using hk)]
      change mget ((k, w) :: mzero r a b) c = _
      simp only [mget]
      by_cases h1 : c = k
      · have : ¬(a ≤ c ∧ c < b) := by simp at hk; omega
        simp [h1 ▸ this, h1]
      · by_cases h2 : c < k
        · simp [h1, h2]
        · simp [h1, h2, ih]
    · rw [mzero, List.filter_cons_of_neg (by simpa using hk)]
      change mget (mzero r a b) c = _
      simp at hk
      by_cases h1 : c = k
      · have hcc : a ≤ c ∧ c < b := by omega
        rw [ih, if_pos hcc, if_pos hcc]
      · simp only [mget, h1, if_false]
        by_cases h2 : c < k
        · rw [mget_below hr (by omega)]; simp [h2]
        · simp [h2, ih]

theorem mget_mzero {m : List Host.Cell} (h : Memory.wf m = true) (a b c : Nat) :
    mget (mzero m a b) c = if a ≤ c ∧ c < b then unlisted else mget m c := mget_mzero_from m none h a b c

/-! ### The operations of the state -/

theorem State.wr_wf {s : State} (a n v : Nat) (h : Memory.wf s.mem = true) : Memory.wf (s.wr a n v).mem = true :=
  mwrite_wf a n v h

theorem State.zero_wf {s : State} (a b : Nat) (h : Memory.wf s.mem = true) : Memory.wf (s.zero a b).mem = true :=
  mzero_wf a b h

theorem State.rd_wr {s : State} (h : Memory.wf s.mem = true) (a n v : Nat) : (s.wr a n v).rd a n = v % 256 ^ n :=
  mread_mwrite h a n v

theorem State.rd_wr_out {s : State} (h : Memory.wf s.mem = true) (a n v b k : Nat) (hd : b + k ≤ a ∨ a + n ≤ b) :
    (s.wr a n v).rd b k = s.rd b k := mread_mwrite_out h a n v b k hd

theorem State.rd_lt (s : State) (a n : Nat) : s.rd a n < 256 ^ n := mread_lt s.mem a n

end Sys2Proof.Machine
end

