-- ==== Sys2Proof/Laws/Table.lean ====
section
/-! SUPPORT. Tables: what a key holds after an update, and so what each unit of the machine is after one of another. -/

namespace Sys2Proof.Machine

open Sys2Proof

theorem tget_tset_same {α : Type} [Inhabited α] (t : Tbl α) (a : Nat) (v : α) : tget (tset t a v) a = v := by
  induction t with
  | nil => simp [tset, tget]
  | cons x r ih =>
    obtain ⟨k, w⟩ := x
    by_cases h1 : a < k
    · simp [tset, tget, h1]
    · by_cases h2 : a = k
      · simp [tset, tget, h2]
      · simp [tset, tget, h1, h2, ih]

theorem tget_tset_other {α : Type} [Inhabited α] (t : Tbl α) (a b : Nat) (v : α) (h : b ≠ a) :
    tget (tset t a v) b = tget t b := by
  induction t with
  | nil => by_cases hb : b < a <;> simp [tset, tget, h]
  | cons x r ih =>
    obtain ⟨k, w⟩ := x
    by_cases h1 : a < k
    · by_cases hb : b < a
      · have h3 : b ≠ k := by omega
        have h4 : b < k := by omega
        simp [tset, tget, h1, h, hb, h3, h4]
      · simp [tset, tget, h1, h, hb]
    · by_cases h2 : a = k
      · subst h2; simp [tset, tget, h]
      · by_cases h3 : b = k
        · simp [tset, tget, h1, h2, h3]
        · by_cases h4 : b < k <;> simp [tset, tget, h1, h2, h3, h4, ih]

theorem tget_tset {α : Type} [Inhabited α] (t : Tbl α) (a b : Nat) (v : α) :
    tget (tset t a v) b = if b = a then v else tget t b := by
  by_cases h : b = a
  · subst h; simp [tget_tset_same]
  · simp [h, tget_tset_other]

/-! ### The units of the machine after an update -/

theorem State.core_setCore (s : State) (k j : Nat) (x : Core) : (s.setCore k x).core j = if j = k then x else s.core j :=
  tget_tset s.cores k j x
@[simp] theorem State.core_setCore_same (s : State) (k : Nat) (x : Core) : (s.setCore k x).core k = x := tget_tset_same s.cores k x
theorem State.core_setCore_other (s : State) (k j : Nat) (x : Core) (h : j ≠ k) : (s.setCore k x).core j = s.core j :=
  tget_tset_other s.cores k j x h
theorem State.core_modCore (s : State) (k j : Nat) (f : Core → Core) :
    (s.modCore k f).core j = if j = k then f (s.core k) else s.core j := tget_tset s.cores k j _
@[simp] theorem State.core_modCore_same (s : State) (k : Nat) (f : Core → Core) : (s.modCore k f).core k = f (s.core k) :=
  tget_tset_same s.cores k _
theorem State.core_modCore_other (s : State) (k j : Nat) (f : Core → Core) (h : j ≠ k) : (s.modCore k f).core j = s.core j :=
  tget_tset_other s.cores k j _ h

theorem State.slot_setSlot (s : State) (k j : Nat) (x : Slot) : (s.setSlot k x).slot j = if j = k then x else s.slot j :=
  tget_tset s.slots k j x
@[simp] theorem State.slot_setSlot_same (s : State) (k : Nat) (x : Slot) : (s.setSlot k x).slot k = x := tget_tset_same s.slots k x
theorem State.slot_setSlot_other (s : State) (k j : Nat) (x : Slot) (h : j ≠ k) : (s.setSlot k x).slot j = s.slot j :=
  tget_tset_other s.slots k j x h
theorem State.slot_modSlot (s : State) (k j : Nat) (f : Slot → Slot) :
    (s.modSlot k f).slot j = if j = k then f (s.slot k) else s.slot j := tget_tset s.slots k j _
@[simp] theorem State.slot_modSlot_same (s : State) (k : Nat) (f : Slot → Slot) : (s.modSlot k f).slot k = f (s.slot k) :=
  tget_tset_same s.slots k _
theorem State.slot_modSlot_other (s : State) (k j : Nat) (f : Slot → Slot) (h : j ≠ k) : (s.modSlot k f).slot j = s.slot j :=
  tget_tset_other s.slots k j _ h

theorem State.quad_setQuad (s : State) (k j : Nat) (x : Quad) : (s.setQuad k x).quad j = if j = k then x else s.quad j :=
  tget_tset s.quads k j x
@[simp] theorem State.quad_setQuad_same (s : State) (k : Nat) (x : Quad) : (s.setQuad k x).quad k = x := tget_tset_same s.quads k x
theorem State.quad_setQuad_other (s : State) (k j : Nat) (x : Quad) (h : j ≠ k) : (s.setQuad k x).quad j = s.quad j :=
  tget_tset_other s.quads k j x h
theorem State.quad_modQuad (s : State) (k j : Nat) (f : Quad → Quad) :
    (s.modQuad k f).quad j = if j = k then f (s.quad k) else s.quad j := tget_tset s.quads k j _
@[simp] theorem State.quad_modQuad_same (s : State) (k : Nat) (f : Quad → Quad) : (s.modQuad k f).quad k = f (s.quad k) :=
  tget_tset_same s.quads k _
theorem State.quad_modQuad_other (s : State) (k j : Nat) (f : Quad → Quad) (h : j ≠ k) : (s.modQuad k f).quad j = s.quad j :=
  tget_tset_other s.quads k j _ h

theorem State.cluster_setCluster (s : State) (k j : Nat) (x : Cluster) : (s.setCluster k x).cluster j = if j = k then x else s.cluster j :=
  tget_tset s.clusters k j x
@[simp] theorem State.cluster_setCluster_same (s : State) (k : Nat) (x : Cluster) : (s.setCluster k x).cluster k = x := tget_tset_same s.clusters k x
theorem State.cluster_setCluster_other (s : State) (k j : Nat) (x : Cluster) (h : j ≠ k) : (s.setCluster k x).cluster j = s.cluster j :=
  tget_tset_other s.clusters k j x h
theorem State.cluster_modCluster (s : State) (k j : Nat) (f : Cluster → Cluster) :
    (s.modCluster k f).cluster j = if j = k then f (s.cluster k) else s.cluster j := tget_tset s.clusters k j _
@[simp] theorem State.cluster_modCluster_same (s : State) (k : Nat) (f : Cluster → Cluster) : (s.modCluster k f).cluster k = f (s.cluster k) :=
  tget_tset_same s.clusters k _
theorem State.cluster_modCluster_other (s : State) (k j : Nat) (f : Cluster → Cluster) (h : j ≠ k) : (s.modCluster k f).cluster j = s.cluster j :=
  tget_tset_other s.clusters k j _ h

theorem State.die_setDie (s : State) (k j : Nat) (x : Die) : (s.setDie k x).die j = if j = k then x else s.die j :=
  tget_tset s.dies k j x
@[simp] theorem State.die_setDie_same (s : State) (k : Nat) (x : Die) : (s.setDie k x).die k = x := tget_tset_same s.dies k x
theorem State.die_setDie_other (s : State) (k j : Nat) (x : Die) (h : j ≠ k) : (s.setDie k x).die j = s.die j :=
  tget_tset_other s.dies k j x h
theorem State.die_modDie (s : State) (k j : Nat) (f : Die → Die) :
    (s.modDie k f).die j = if j = k then f (s.die k) else s.die j := tget_tset s.dies k j _
@[simp] theorem State.die_modDie_same (s : State) (k : Nat) (f : Die → Die) : (s.modDie k f).die k = f (s.die k) :=
  tget_tset_same s.dies k _
theorem State.die_modDie_other (s : State) (k j : Nat) (f : Die → Die) (h : j ≠ k) : (s.modDie k f).die j = s.die j :=
  tget_tset_other s.dies k j _ h

theorem State.part_setPart (s : State) (k j : Nat) (x : Part) : (s.setPart k x).part j = if j = k then x else s.part j :=
  tget_tset s.parts k j x
@[simp] theorem State.part_setPart_same (s : State) (k : Nat) (x : Part) : (s.setPart k x).part k = x := tget_tset_same s.parts k x
theorem State.part_setPart_other (s : State) (k j : Nat) (x : Part) (h : j ≠ k) : (s.setPart k x).part j = s.part j :=
  tget_tset_other s.parts k j x h
theorem State.part_modPart (s : State) (k j : Nat) (f : Part → Part) :
    (s.modPart k f).part j = if j = k then f (s.part k) else s.part j := tget_tset s.parts k j _
@[simp] theorem State.part_modPart_same (s : State) (k : Nat) (f : Part → Part) : (s.modPart k f).part k = f (s.part k) :=
  tget_tset_same s.parts k _
theorem State.part_modPart_other (s : State) (k j : Nat) (f : Part → Part) (h : j ≠ k) : (s.modPart k f).part j = s.part j :=
  tget_tset_other s.parts k j _ h

theorem State.ctx_setCtx (s : State) (k j : Nat) (x : Ctx) : (s.setCtx k x).ctx j = if j = k then x else s.ctx j :=
  tget_tset s.ctxs k j x
@[simp] theorem State.ctx_setCtx_same (s : State) (k : Nat) (x : Ctx) : (s.setCtx k x).ctx k = x := tget_tset_same s.ctxs k x
theorem State.ctx_setCtx_other (s : State) (k j : Nat) (x : Ctx) (h : j ≠ k) : (s.setCtx k x).ctx j = s.ctx j :=
  tget_tset_other s.ctxs k j x h
theorem State.ctx_modCtx (s : State) (k j : Nat) (f : Ctx → Ctx) :
    (s.modCtx k f).ctx j = if j = k then f (s.ctx k) else s.ctx j := tget_tset s.ctxs k j _
@[simp] theorem State.ctx_modCtx_same (s : State) (k : Nat) (f : Ctx → Ctx) : (s.modCtx k f).ctx k = f (s.ctx k) :=
  tget_tset_same s.ctxs k _
theorem State.ctx_modCtx_other (s : State) (k j : Nat) (f : Ctx → Ctx) (h : j ≠ k) : (s.modCtx k f).ctx j = s.ctx j :=
  tget_tset_other s.ctxs k j _ h

theorem State.line_setLine (s : State) (k j : Nat) (x : Line) : (s.setLine k x).line j = if j = k then x else s.line j :=
  tget_tset s.lines k j x
@[simp] theorem State.line_setLine_same (s : State) (k : Nat) (x : Line) : (s.setLine k x).line k = x := tget_tset_same s.lines k x
theorem State.line_setLine_other (s : State) (k j : Nat) (x : Line) (h : j ≠ k) : (s.setLine k x).line j = s.line j :=
  tget_tset_other s.lines k j x h
theorem State.line_modLine (s : State) (k j : Nat) (f : Line → Line) :
    (s.modLine k f).line j = if j = k then f (s.line k) else s.line j := tget_tset s.lines k j _
@[simp] theorem State.line_modLine_same (s : State) (k : Nat) (f : Line → Line) : (s.modLine k f).line k = f (s.line k) :=
  tget_tset_same s.lines k _
theorem State.line_modLine_other (s : State) (k j : Nat) (f : Line → Line) (h : j ≠ k) : (s.modLine k f).line j = s.line j :=
  tget_tset_other s.lines k j _ h

theorem State.bank_setBank (s : State) (k j : Nat) (x : Bank) : (s.setBank k x).bank j = if j = k then x else s.bank j :=
  tget_tset s.banks k j x
@[simp] theorem State.bank_setBank_same (s : State) (k : Nat) (x : Bank) : (s.setBank k x).bank k = x := tget_tset_same s.banks k x
theorem State.bank_setBank_other (s : State) (k j : Nat) (x : Bank) (h : j ≠ k) : (s.setBank k x).bank j = s.bank j :=
  tget_tset_other s.banks k j x h
theorem State.bank_modBank (s : State) (k j : Nat) (f : Bank → Bank) :
    (s.modBank k f).bank j = if j = k then f (s.bank k) else s.bank j := tget_tset s.banks k j _
@[simp] theorem State.bank_modBank_same (s : State) (k : Nat) (f : Bank → Bank) : (s.modBank k f).bank k = f (s.bank k) :=
  tget_tset_same s.banks k _
theorem State.bank_modBank_other (s : State) (k j : Nat) (f : Bank → Bank) (h : j ≠ k) : (s.modBank k f).bank j = s.bank j :=
  tget_tset_other s.banks k j _ h

theorem State.copy_setCopy_same (s : State) (h l : Nat) (c : Copy) : (s.setCopy h l c).copy h l = c := by
  simp [State.copy, State.setCopy, tget_tset_same]

theorem State.copy_setCopy_other (s : State) (h l h' l' : Nat) (c : Copy) (hd : h' ≠ h ∨ l' ≠ l) :
    (s.setCopy h l c).copy h' l' = s.copy h' l' := by
  simp only [State.copy, State.setCopy]
  by_cases hh : h' = h
  · subst hh; rw [tget_tset_same, tget_tset_other]; rcases hd with h1 | h1
    · exact absurd rfl h1
    · exact h1
  · rw [tget_tset_other _ _ _ _ hh]

end Sys2Proof.Machine
end

