-- ==== Sys2Proof/Laws/Regs.lean ====
section
/-! SUPPORT. Registers of a workspace: what each reads as after a write of one, and fields of numbers. -/

namespace Sys2Proof.Machine

open Sys2Proof

/-! ### Fields of numbers -/

theorem bits_lt (x lo n : Nat) : bits x lo n < 2 ^ n := Nat.mod_lt _ (Nat.two_pow_pos n)

theorem two_pow_split (lo n : Nat) : 2 ^ (lo + n) = 2 ^ lo * 2 ^ n := Nat.pow_add 2 lo n

/-- A number as its part above a field, the field, and its part below. -/
theorem field_split (x lo n : Nat) : x = x / 2 ^ (lo + n) * 2 ^ (lo + n) + bits x lo n * 2 ^ lo + x % 2 ^ lo := by
  have h1 := Nat.div_add_mod x (2 ^ lo)
  have h2 := Nat.div_add_mod (x / 2 ^ lo) (2 ^ n)
  rw [Nat.div_div_eq_div_mul, ← two_pow_split] at h2
  unfold bits
  have h3 : x / 2 ^ (lo + n) * 2 ^ (lo + n) = 2 ^ lo * (2 ^ n * (x / 2 ^ (lo + n))) := by
    rw [two_pow_split]; ring
  have h4 : x / 2 ^ lo % 2 ^ n * 2 ^ lo = 2 ^ lo * (x / 2 ^ lo % 2 ^ n) := Nat.mul_comm _ _
  rw [h3, h4, ← Nat.mul_add, h2, h1]

theorem setBits_split (x lo n v : Nat) :
    setBits x lo n v = x / 2 ^ (lo + n) * 2 ^ (lo + n) + v % 2 ^ n * 2 ^ lo + x % 2 ^ lo := by
  have h := field_split x lo n
  unfold setBits
  generalize x / 2 ^ (lo + n) * 2 ^ (lo + n) = a at *
  generalize bits x lo n * 2 ^ lo = b at *
  generalize v % 2 ^ n * 2 ^ lo = c at *
  omega

/-- The replaced field. -/
theorem bits_setBits (x lo n v : Nat) : bits (setBits x lo n v) lo n = v % 2 ^ n := by
  rw [setBits_split]
  unfold bits
  have hp : 0 < 2 ^ lo := Nat.two_pow_pos lo
  have h1 : x / 2 ^ (lo + n) * 2 ^ (lo + n) + v % 2 ^ n * 2 ^ lo + x % 2 ^ lo =
      x % 2 ^ lo + 2 ^ lo * (x / 2 ^ (lo + n) * 2 ^ n + v % 2 ^ n) := by rw [two_pow_split]; ring
  rw [h1, Nat.add_mul_div_left _ _ hp, Nat.div_eq_of_lt (Nat.mod_lt _ hp), Nat.zero_add, Nat.add_comm,
    Nat.add_mul_mod_self_right]
  exact Nat.mod_mod _ _

/-- A field below the replaced one. -/
theorem bits_setBits_below (x lo n v lo' n' : Nat) (h : lo' + n' ≤ lo) : bits (setBits x lo n v) lo' n' = bits x lo' n' := by
  have hx := field_split x lo n
  have hs := setBits_split x lo n v
  obtain ⟨k, hk⟩ := Nat.exists_eq_add_of_le h
  have key : ∀ y : Nat, ∀ q : Nat, y = q * 2 ^ lo + x % 2 ^ lo → bits y lo' n' = bits (x % 2 ^ lo) lo' n' := by
    intro y q hy
    unfold bits
    have : q * 2 ^ lo = 2 ^ lo' * (2 ^ n' * (q * 2 ^ k)) := by rw [hk, Nat.pow_add, Nat.pow_add]; ring
    rw [hy, this, Nat.add_comm, Nat.add_mul_div_left _ _ (Nat.two_pow_pos lo'), Nat.add_comm, Nat.mul_comm (2 ^ n'),
      Nat.add_comm, Nat.add_mul_mod_self_right]
  rw [key (setBits x lo n v) (x / 2 ^ (lo + n) * 2 ^ n + v % 2 ^ n) (by rw [hs, two_pow_split]; ring),
    key x (x / 2 ^ (lo + n) * 2 ^ n + bits x lo n) (by conv_lhs => rw [hx]
                                                       rw [two_pow_split]; ring)]

theorem setBits_div (x lo n v : Nat) : setBits x lo n v / 2 ^ (lo + n) = x / 2 ^ (lo + n) := by
  rw [setBits_split]
  have h1 : v % 2 ^ n * 2 ^ lo + x % 2 ^ lo < 2 ^ (lo + n) := by
    have a := Nat.mod_lt v (Nat.two_pow_pos n)
    have b := Nat.mod_lt x (Nat.two_pow_pos lo)
    have : (v % 2 ^ n + 1) * 2 ^ lo ≤ 2 ^ n * 2 ^ lo := Nat.mul_le_mul_right _ a
    rw [two_pow_split, Nat.mul_comm (2 ^ lo)]
    rw [Nat.add_mul, Nat.one_mul] at this
    omega
  rw [Nat.add_assoc, Nat.mul_comm, Nat.mul_add_div (Nat.two_pow_pos _), Nat.div_eq_of_lt h1, Nat.add_zero]

/-- A field above the replaced one. -/
theorem bits_setBits_above (x lo n v lo' n' : Nat) (h : lo + n ≤ lo') : bits (setBits x lo n v) lo' n' = bits x lo' n' := by
  obtain ⟨k, hk⟩ := Nat.exists_eq_add_of_le h
  unfold bits
  rw [hk, two_pow_split (lo + n) k, ← Nat.div_div_eq_div_mul, ← Nat.div_div_eq_div_mul, setBits_div]

/-- A field away from the replaced one. -/
theorem bits_setBits_other (x lo n v lo' n' : Nat) (h : lo' + n' ≤ lo ∨ lo + n ≤ lo') :
    bits (setBits x lo n v) lo' n' = bits x lo' n' := by
  rcases h with h | h
  · exact bits_setBits_below x lo n v lo' n' h
  · exact bits_setBits_above x lo n v lo' n' h

theorem bit_eq_bits (x i : Nat) : bit x i = decide (bits x i 1 = 1) := by simp [bit, bits]

theorem pow_256 (n : Nat) : 256 ^ n = 2 ^ (8 * n) := by rw [Nat.pow_mul]

/-! ### Registers -/

theorem toNat_lt64 (v : Word) : v.toNat < 256 ^ 8 := v.isLt

theorem State.getW_setW {s : State} (h : Memory.wf s.mem = true) (base : Nat) (r : WReg) (v : Word) :
    (s.setW base r v).getW base r = v := by
  unfold State.getW State.setW
  rw [State.rd_wr h, Nat.mod_eq_of_lt (toNat_lt64 v)]
  simp

theorem State.getW_wr_out {s : State} (h : Memory.wf s.mem = true) (base : Nat) (r : WReg) (a n v : Nat)
    (hd : base + 8 * r.val + 8 ≤ a ∨ a + n ≤ base + 8 * r.val) : (s.wr a n v).getW base r = s.getW base r := by
  unfold State.getW
  rw [State.rd_wr_out h a n v _ _ hd]

theorem State.getW_setW_other {s : State} (h : Memory.wf s.mem = true) (base : Nat) (r q : WReg) (v : Word) (hq : q ≠ r) :
    (s.setW base r v).getW base q = s.getW base q := by
  have : q.val ≠ r.val := fun e => hq (Fin.ext e)
  exact State.getW_wr_out h base q _ _ _ (by omega)

theorem State.ws_wr_out {s : State} (h : Memory.wf s.mem = true) (base off a n v : Nat)
    (hd : base + off + 8 ≤ a ∨ a + n ≤ base + off) : (s.wr a n v).ws base off = s.ws base off :=
  State.rd_wr_out h a n v _ _ hd

theorem State.ws_setWs {s : State} (h : Memory.wf s.mem = true) (base off v : Nat) :
    (s.setWs base off v).ws base off = v % 2 ^ 64 := by
  show (s.wr (base + off) 8 v).rd (base + off) 8 = _
  rw [State.rd_wr h, pow_256]

theorem State.ws_setWs_other {s : State} (h : Memory.wf s.mem = true) (base off off' v : Nat)
    (hd : off' + 8 ≤ off ∨ off + 8 ≤ off') : (s.setWs base off v).ws base off' = s.ws base off' :=
  State.ws_wr_out h base off' _ _ _ (by omega)

theorem State.ws_lt (s : State) (base off : Nat) : s.ws base off < 2 ^ 64 := State.rd_lt s (base + off) 8

/-- A register of the workspace below the special words keeps its value when one of them is written. -/
theorem State.getW_setWs {s : State} (h : Memory.wf s.mem = true) (base : Nat) (r : WReg) (off v : Nat) (ho : 128 ≤ off) :
    (s.setWs base off v).getW base r = s.getW base r :=
  State.getW_wr_out h base r _ _ _ (by have := r.isLt; omega)

/-- A special word keeps its value when a `w` register is written. -/
theorem State.ws_setW {s : State} (h : Memory.wf s.mem = true) (base : Nat) (r : WReg) (off : Nat) (v : Word)
    (ho : 128 ≤ off) : (s.setW base r v).ws base off = s.ws base off :=
  State.ws_wr_out h base off _ _ _ (by have := r.isLt; omega)

theorem State.pc_setPc {s : State} (h : Memory.wf s.mem = true) (base : Nat) (v : Word) : (s.setPc base v).pc base = v := by
  unfold State.pc State.setPc
  rw [State.ws_setWs h, Nat.mod_eq_of_lt v.isLt]
  simp

theorem State.pc_advPc {s : State} (h : Memory.wf s.mem = true) (base len : Nat) :
    (s.advPc base len).pc base = s.pc base + BitVec.ofNat 64 len := State.pc_setPc h base _

theorem State.pc_setW {s : State} (h : Memory.wf s.mem = true) (base : Nat) (r : WReg) (v : Word) :
    (s.setW base r v).pc base = s.pc base := by
  unfold State.pc; rw [State.ws_setW h base r offPc v (by decide)]

theorem State.getW_setPc {s : State} (h : Memory.wf s.mem = true) (base : Nat) (r : WReg) (v : Word) :
    (s.setPc base v).getW base r = s.getW base r := State.getW_setWs h base r offPc _ (by decide)

theorem State.getW_advPc {s : State} (h : Memory.wf s.mem = true) (base len : Nat) (r : WReg) :
    (s.advPc base len).getW base r = s.getW base r := State.getW_setPc h base r _

theorem State.getP_setP {s : State} (h : Memory.wf s.mem = true) (base : Nat) (r : PReg) (v : Word) :
    (s.setP base r v).getP base r = v := by
  unfold State.getP State.setP
  rw [State.rd_wr h, Nat.mod_eq_of_lt (toNat_lt64 v)]
  simp

theorem State.getV_setV {s : State} (h : Memory.wf s.mem = true) (base : Nat) (r : VReg) (v : Vec) :
    (s.setV base r v).getV base r = v := by
  unfold State.getV State.setV
  have hv : v.toNat < 256 ^ 64 := by rw [pow_256]; exact v.isLt
  rw [State.rd_wr h, Nat.mod_eq_of_lt hv]
  simp

theorem State.getAf_setAf {s : State} (h : Memory.wf s.mem = true) (base : Nat) (r : AfReg) (v : Nat) :
    (s.setAf base r v).getAf base r = v % 2 ^ 512 := by
  unfold State.getAf State.setAf
  rw [State.rd_wr h, pow_256]

theorem State.getH_setH {s : State} (h : Memory.wf s.mem = true) (base : Nat) (r : HReg) (v : Nat) :
    (s.setH base r v).getH base r = v % 2 ^ 256 := by
  unfold State.getH State.setH
  rw [State.rd_wr h, pow_256]

/-- The privilege level after it is set. -/
theorem State.pl_setPl {s : State} (h : Memory.wf s.mem = true) (base : Nat) (b : Bool) : (s.setPl base b).pl base = b := by
  have hx : (s.setPl base b).ws base offCtxn = setBits (s.ws base offCtxn) 31 1 (b2n b) % 2 ^ 64 :=
    State.ws_setWs h base offCtxn _
  have hm : bits (setBits (s.ws base offCtxn) 31 1 (b2n b) % 2 ^ 64) 31 1 = bits (setBits (s.ws base offCtxn) 31 1 (b2n b)) 31 1 := by
    unfold bits
    generalize setBits (s.ws base offCtxn) 31 1 (b2n b) = y
    omega
  unfold State.pl
  rw [hx, bit_eq_bits, hm, bits_setBits]
  cases b <;> rfl

/-- The context number keeps its value when the privilege level is set. -/
theorem State.numOf_setPl {s : State} (h : Memory.wf s.mem = true) (base : Nat) (b : Bool) :
    (s.setPl base b).numOf base = s.numOf base := by
  have hx : (s.setPl base b).ws base offCtxn = setBits (s.ws base offCtxn) 31 1 (b2n b) % 2 ^ 64 :=
    State.ws_setWs h base offCtxn _
  have hm : bits (setBits (s.ws base offCtxn) 31 1 (b2n b) % 2 ^ 64) 0 24 = bits (setBits (s.ws base offCtxn) 31 1 (b2n b)) 0 24 := by
    unfold bits
    generalize setBits (s.ws base offCtxn) 31 1 (b2n b) = y
    omega
  unfold State.numOf
  rw [hx, hm, bits_setBits_other _ _ _ _ _ _ (by omega)]

end Sys2Proof.Machine
end

