-- ==== Sys2Proof/Laws/Effects.lean ====
section
/-! SUPPORT. What the named operations store: the frame `Stores` and the result `WroteW`, once for each operation. -/

namespace Sys2Proof.Machine

open Sys2Proof

theorem Stores.refl (s : State) (rs : List (Nat × Nat)) : Stores s s rs := ⟨rfl, fun _ _ => rfl⟩

/-- A store inside the named ranges keeps the frame. -/
theorem Stores.wr {s t : State} {rs : List (Nat × Nat)} (h : Stores s t rs) (hw : Memory.wf t.mem = true) (a n v : Nat)
    (hr : (a, n) ∈ rs) : Stores s (t.wr a n v) rs := by
  refine ⟨?_, fun x hx => ?_⟩
  · conv => lhs; rw [h.1]
    rfl
  · have := hx _ hr
    exact (mget_mwrite_out hw a n v x this).trans (h.2 x hx)

theorem Stores.setW {s t : State} {rs : List (Nat × Nat)} (h : Stores s t rs) (hw : Memory.wf t.mem = true) (base : Nat)
    (d : WReg) (v : Word) (hr : (base + 8 * d.val, 8) ∈ rs) : Stores s (t.setW base d v) rs := h.wr hw _ _ _ hr

theorem Stores.setWs {s t : State} {rs : List (Nat × Nat)} (h : Stores s t rs) (hw : Memory.wf t.mem = true) (base off : Nat)
    (v : Nat) (hr : (base + off, 8) ∈ rs) : Stores s (t.setWs base off v) rs := h.wr hw _ _ _ hr

theorem Stores.setP {s t : State} {rs : List (Nat × Nat)} (h : Stores s t rs) (hw : Memory.wf t.mem = true) (base : Nat)
    (d : PReg) (v : Word) (hr : (base + offP + 8 * d.val, 8) ∈ rs) : Stores s (t.setP base d v) rs := h.wr hw _ _ _ hr

theorem Stores.advPc {s t : State} {rs : List (Nat × Nat)} (h : Stores s t rs) (hw : Memory.wf t.mem = true) (base len : Nat)
    (hr : (base + offPc, 8) ∈ rs) : Stores s (t.advPc base len) rs := h.wr hw _ _ _ hr

/-- A register written and the PC past the instruction: the result of most scalar instructions. -/
theorem wroteW_of {s : State} (h : Memory.wf s.mem = true) (d : WReg) (v : Word) (len : Nat) :
    WroteW s ((s.setW s.me.base d v).advPc s.me.base len) d v len := by
  have hw : Memory.wf (s.setW s.me.base d v).mem = true := State.wr_wf (s := s) (s.me.base + 8 * d.val) 8 v.toNat h
  refine ⟨?_, ?_, ?_⟩
  · rw [State.getW_advPc hw]; exact State.getW_setW h _ _ _
  · rw [State.pc_advPc hw, State.pc_setW h]
  · exact ((Stores.refl s _).setW h _ _ _ (by simp)).advPc hw _ _ (by simp)

/-- A result on operands of `n` bits, written zero-extended (R303). -/
theorem dst_eq (s : State) (base n : Nat) (d : WReg) (x : BitVec n) (v : Nat) (hv : v % 2 ^ n = x.toNat) :
    s.dst base n d v = s.setW base d (x.setWidth 64) := by
  unfold State.dst
  congr 1
  apply BitVec.eq_of_toNat_eq
  simp [hv, BitVec.toNat_setWidth]

theorem src_eq (s : State) (base n : Nat) (r : WReg) : s.src base n r = ((s.getW base r).setWidth n : BitVec n).toNat := by
  simp [State.src]

theorem opBits_cases (t : Ty) : opBits t = 32 ∨ opBits t = 64 := by unfold opBits; split <;> simp

end Sys2Proof.Machine
end

