-- ==== Sys2Proof/Laws/Invariant.lean ====
section
/-! SUPPORT. What keeps the invariant `Inv`: a change that leaves memory and the device alone, and every shared operation
that writes memory. -/

namespace Sys2Proof.Machine

open Sys2Proof

/-- A state with the memory and the device of a state that meets the invariant meets it. -/
theorem Inv.of_same {s t : State} (h : Inv s) (hm : t.mem = s.mem) (hd : t.dev = s.dev) : Inv t := by
  unfold Inv; rw [hm, hd]; exact h

/-- A state whose memory is well-formed and whose device is as before. -/
theorem Inv.of_wf {s t : State} (h : Inv s) (hm : Memory.wf t.mem = true) (hd : t.dev = s.dev) : Inv t := by
  unfold Inv; rw [hd]; exact ⟨hm, h.2⟩

theorem Inv.wr {s : State} (h : Inv s) (a n v : Nat) : Inv (s.wr a n v) := h.of_wf (State.wr_wf a n v h.1) rfl
theorem Inv.zero {s : State} (h : Inv s) (a b : Nat) : Inv (s.zero a b) := h.of_wf (State.zero_wf a b h.1) rfl
theorem Inv.setW {s : State} (h : Inv s) (base : Nat) (r : WReg) (v : Word) : Inv (s.setW base r v) := h.wr _ _ _
theorem Inv.setP {s : State} (h : Inv s) (base : Nat) (r : PReg) (v : Word) : Inv (s.setP base r v) := h.wr _ _ _
theorem Inv.setV {s : State} (h : Inv s) (base : Nat) (r : VReg) (v : Vec) : Inv (s.setV base r v) := h.wr _ _ _
theorem Inv.setAf {s : State} (h : Inv s) (base : Nat) (r : AfReg) (v : Nat) : Inv (s.setAf base r v) := h.wr _ _ _
theorem Inv.setH {s : State} (h : Inv s) (base : Nat) (r : HReg) (v : Nat) : Inv (s.setH base r v) := h.wr _ _ _
theorem Inv.setWs {s : State} (h : Inv s) (base off v : Nat) : Inv (s.setWs base off v) := h.wr _ _ _
theorem Inv.setPc {s : State} (h : Inv s) (base : Nat) (v : Word) : Inv (s.setPc base v) := h.wr _ _ _
theorem Inv.setPl {s : State} (h : Inv s) (base : Nat) (b : Bool) : Inv (s.setPl base b) := h.setWs _ _ _
theorem Inv.advPc {s : State} (h : Inv s) (base len : Nat) : Inv (s.advPc base len) := h.setPc _ _
theorem Inv.jumpPc {s : State} (h : Inv s) (me : Me) (v : Word) : Inv (s.jumpPc me v) := (h.setPc _ _).of_same rfl rfl
theorem Inv.setWait {s : State} (h : Inv s) (key : Nat) (w : Wait) : Inv (s.setWait key w) := h.of_same rfl rfl
theorem Inv.yieldTurns {s : State} (h : Inv s) (core slot : Nat) : Inv (s.yieldTurns core slot) := h.of_same rfl rfl
theorem Inv.clearWait {s : State} (h : Inv s) (key : Nat) : Inv (s.clearWait key) := h.of_same rfl rfl

/-- Trap entry keeps the invariant. -/
theorem Inv.trapEntry {s : State} (h : Inv s) (me : Me) (t : TrapInfo) : Inv (trapEntry me t s) := by
  unfold Machine.trapEntry
  dsimp only
  split
  · exact h.of_same rfl rfl
  · apply Inv.yieldTurns
    apply Inv.jumpPc
    apply Inv.setPl
    apply Inv.setW
    apply Inv.setW
    iterate 16 apply Inv.wr
    exact h

/-- The return from a trap keeps the invariant. -/
theorem Inv.eretRestore {s : State} (h : Inv s) (me : Me) : Inv (eretRestore me s) :=
  ((h.setW _ _ _).setW _ _ _).setPl _ _

end Sys2Proof.Machine
end

