-- ==== Sys2Proof/Laws/Local.lean ====
section
/-! SUPPORT. An access to the issuing core's own local memory that `LocalAt` describes: each small step of it answers at
once, and the access performs (R315, R318, R325). -/

namespace Sys2Proof.Machine

open Sys2Proof

/-- The element of an access to own local memory, once translated, with the target that its checks have found. -/
def localElem (ea n : Nat) (l : Leaf) (x : Option Target) : Elem :=
  { va := ea, size := n, pa := l.phys (ea % 2 ^ 57), leaf := l, tgt := x }

/-- Where it performs. -/
def localTarget (ea : Nat) (l : Leaf) : Target := { kind := .plain, pa := l.phys (ea % 2 ^ 57), leaf := l }

/-- An element in the issuing core's own local memory resolves to its own place. -/
theorem resolve_local {s : State} {me : Me} {op : AccOp} {ea n : Nat} {l : Leaf} (h : LocalAt s me op ea n l)
    (ws : List Walked) (x : Option Target) : resolve me ws op (localElem ea n l x) s = (.ok (localTarget ea l), s) := by
  unfold resolve localElem localTarget
  simp only [h.permits, h.place, h.noWindow]
  cases hf : op.isFe
  · simp
  · simp only [h.general hf, Bool.not_true, Bool.and_false, Bool.false_eq_true, if_false]; simp

/-- It is placed there, whether or not its checks have placed it before. -/
theorem place_local {s : State} {me : Me} {ea n : Nat} {l : Leaf} (c : Cont) (h : LocalAt s me c.op ea n l)
    (x : Option Target) : c.place me (localElem ea n l x) s = (.ok (localTarget ea l), s) := by
  unfold Cont.place
  simp only [resolve_local h _ x]
  rfl

/-- No check of R333 stops an element in own local memory; a waiting load finds its word full. -/
theorem check_local {s : State} {me : Me} {op : AccOp} {ea n : Nat} {l : Leaf} (h : LocalAt s me op ea n l)
    (hb : (op = .ldf ∨ op = .ldt) → s.isFull (l.phys (ea % 2 ^ 57)) = true) (x : Option Target) :
    elemCheck me op (localElem ea n l x) (localTarget ea l) s = none := by
  unfold elemCheck State.targetLost localTarget localElem
  simp only [h.place, h.kept, h.unchecked]
  by_cases h1 : op = .ldf ∨ op = .ldt
  · simp [-Nat.reducePow, h1, hb h1]
  · simp [h1]

/-- An element outside every line is there already. -/
theorem obtain_plain (me : Me) (op : AccOp) (e : Elem) (t : Target) (s : State) (h : t.kind = .plain) :
    obtain me op e t s = (none, s) := by
  unfold obtain snoopFirst; simp [h]

/-- The translation of a local element is the one that a TLB holds. -/
theorem xlate_local {s : State} {me : Me} {op : AccOp} {ea n : Nat} {l : Leaf} (h : LocalAt s me op ea n l)
    (c : Cont) (hc : c.elems = [{ va := ea, size := n }]) :
    runMicro me false (.xlate 0) c s = .cont { c with elems := [localElem ea n l none] } s := by
  simp [-Nat.reducePow, runMicro, hc, h.canonical, h.hit, localElem]

/-- No protection cause stops a local element, which keeps its place. -/
theorem prot_local {s : State} {me : Me} {ea n : Nat} {l : Leaf} (c : Cont) (h : LocalAt s me c.op ea n l)
    (hc : c.elems = [localElem ea n l none]) :
    runMicro me false .prot c s = .cont { c with elems := [localElem ea n l (some (localTarget ea l))] } s := by
  simp only [runMicro, runProt, placeAll, hc, place_local c h, List.map, Resolved.trap?, firstCause, keepTargets]
  rfl

/-- No drift mark stops a local element. -/
theorem marked_local {s : State} {me : Me} {ea n : Nat} {l : Leaf} (c : Cont) (h : LocalAt s me c.op ea n l)
    (x : Option Target) (hc : c.elems = [localElem ea n l x]) :
    runMicro me false .marked c s = .cont c s := by
  have := h.unmarked
  simp [-Nat.reducePow] at this
  simp [-Nat.reducePow, runMicro, runMarked, placeAll, hc, place_local c h, Resolved.target?, targetsOf, List.find?,
    localTarget, this]

/-- Verification lets a local element pass. -/
theorem verify_local {s : State} {me : Me} {ea n : Nat} {l : Leaf} (c : Cont) (h : LocalAt s me c.op ea n l)
    (x : Option Target) (hc : c.elems = [localElem ea n l x])
    (hb : (c.op = .ldf ∨ c.op = .ldt) → s.isFull (l.phys (ea % 2 ^ 57)) = true) :
    runMicro me false .verify c s =
      .cont { c with elems := [localElem ea n l (some (localTarget ea l))] } s := by
  have hp : placeAll me c c.elems s = ([(localElem ea n l x, .ok (localTarget ea l))], s) := by
    simp only [hc, placeAll, place_local c h]
  have hk : snoopAll me c.op [(localElem ea n l (some (localTarget ea l)), localTarget ea l)] s = (none, s) := by
    simp [snoopAll, snoopFirst, localTarget]
  have hl : lateCause me c.op s (localElem ea n l (some (localTarget ea l)), .ok (localTarget ea l)) = none := by
    have e : (localElem ea n l (some (localTarget ea l))).late = none := rfl
    simp only [lateCause, e, Resolved.target?, check_local h hb, ite_self]
  have hz : (keepTargets [(localElem ea n l x, .ok (localTarget ea l))]).zip [Resolved.ok (localTarget ea l)] =
      [(localElem ea n l (some (localTarget ea l)), .ok (localTarget ea l))] := rfl
  have ht : targetsOf (beforeTimeout [(localElem ea n l (some (localTarget ea l)), .ok (localTarget ea l))]) =
      [(localElem ea n l (some (localTarget ea l)), localTarget ea l)] := rfl
  simp only [runMicro, runVerify, hp, List.map, Resolved.trap?, firstCause, List.findSome?, Resolved.wait?, hz, ht, hk, hl]
  rfl

/-- The access to a local element performs at once. -/
theorem perform_local {s : State} {me : Me} {ea n : Nat} {l : Leaf} (c : Cont) (h : LocalAt s me c.op ea n l)
    (x : Option Target) (hc : c.elems = [localElem ea n l x])
    (hb : (c.op = .ldf ∨ c.op = .ldt) → s.isFull (l.phys (ea % 2 ^ 57)) = true) (hs : c.op ≠ .stf) :
    runMicro me false (.perform 0) c s =
      .cont (c.done (performPlain me c.op n (c.datum 0) (l.phys (ea % 2 ^ 57)) s).1)
        (performPlain me c.op n (c.datum 0) (l.phys (ea % 2 ^ 57)) s).2 := by
  have hb' : ¬ ((c.op = .ldf ∨ c.op = .ldt) ∧ s.isFull (l.phys (ea % 2 ^ 57)) = false) := by
    rintro ⟨a, b⟩; simp [-Nat.reducePow, hb a] at b
  have hr : regionOf (localTarget ea l).pa = .local me.core := h.place
  have hq : performCheck me false 0 c (localElem ea n l x) (localTarget ea l) s = none := by
    simp only [performCheck, check_local h hb x, ite_self]
  simp only [runMicro, runPerform, hc, List.getD_cons_zero, place_local c h, obtain_plain _ _ _ (localTarget ea l) s rfl, hr, hq]
  simp [-Nat.reducePow, localTarget, localElem, performNow, hb', hs, owePeer, h.place, Cont.datum]

/-- A small step that goes on is followed by the rest of its program, in an instruction with no lost register word. -/
theorem runProg_cons_cont {me m r c s c' s'} (g : c.reg = none) (h : runMicro me false m c s = .cont c' s') :
    runProg me false (m :: r) c s = runProg me false r c' s' := by
  rw [runProg, g, h]

/-- The steps of an access to own local memory, up to what follows the access: the translation, the checks, and the
access itself. -/
theorem run_local {s : State} {me : Me} {ea n : Nat} {l : Leaf} (c : Cont) (h : LocalAt s me c.op ea n l)
    (g : c.reg = none) (hc : c.elems = [{ va := ea, size := n }]) (r : List Micro)
    (hb : (c.op = .ldf ∨ c.op = .ldt) → s.isFull (l.phys (ea % 2 ^ 57)) = true) (hs : c.op ≠ .stf) :
    runProg me false (.xlate 0 :: .prot :: .marked :: .verify :: .perform 0 :: r) c s =
      runProg me false r
        { c with elems := [localElem ea n l (some (localTarget ea l))]
                 got := c.got ++ [(performPlain me c.op n (c.datum 0) (l.phys (ea % 2 ^ 57)) s).1]
                 committed := true, half := none }
        (performPlain me c.op n (c.datum 0) (l.phys (ea % 2 ^ 57)) s).2 := by
  let c1 := { c with elems := [localElem ea n l none] }
  let c2 := { c with elems := [localElem ea n l (some (localTarget ea l))] }
  rw [runProg_cons_cont g (xlate_local h c hc), runProg_cons_cont (show c1.reg = none from g) (prot_local c1 h rfl),
    runProg_cons_cont (show c2.reg = none from g) (marked_local c2 h _ rfl), runProg_cons_cont (show c2.reg = none from g) (verify_local c2 h _ rfl hb),
    runProg_cons_cont (show c2.reg = none from g) (perform_local c2 h _ rfl hb hs)]
  rfl

end Sys2Proof.Machine
end

