-- ==== Sys2Proof/Laws/PerInstr.lean ====
section
/-! SUPPORT. Per instruction: its fields, encoded, pass the checks of R296 and decode to it (family `RoundTrip`). -/

set_option linter.unnecessarySeqFocus false

namespace Sys2Proof.Laws.RoundTrip

open Sys2Proof

/-- The fields of a well-formed instruction decode to it. -/
def Statement (i : Instr) : Prop := ∀ f, WellFormed i = true → toFields i = some f → decodeFields f = .ok i

/-! ### Register fields read back -/

theorem ew_toNat (x : WReg) : (ew x).toNat = x.val := by
  have := x.isLt; simp [ew, r5]; omega
theorem ep_toNat (x : PReg) : (ep x).toNat = x.val := by
  have := x.isLt; simp [ep, r5]; omega
theorem ev_toNat (x : VReg) : (ev x).toNat = x.val := by
  have := x.isLt; simp [ev, r5]
theorem eaf_toNat (x : AfReg) : (eaf x).toNat = x.val := by
  have := x.isLt; simp [eaf, r5]; omega
theorem regW_ew (x : WReg) : regW (ew x) = x := Fin.ext (by have := x.isLt; simp [regW, ew_toNat])
theorem regP_ep (x : PReg) : regP (ep x) = x := Fin.ext (by have := x.isLt; simp [regP, ep_toNat])
theorem regV_ev (x : VReg) : regV (ev x) = x := Fin.ext (by have := x.isLt; simp [regV, ev_toNat])
theorem regAf_eaf (x : AfReg) : regAf (eaf x) = x := Fin.ext (by have := x.isLt; simp [regAf, eaf_toNat])
theorem regH_eh (x : HReg) : regH (eh x) = x := by cases x <;> rfl
theorem regOk_w (fn : Nat) (x : WReg) : regOk .w fn (ew x) = true := by simp [regOk, ew_toNat]
theorem regOk_p (fn : Nat) (x : PReg) : regOk .p fn (ep x) = true := by simp [regOk, ep_toNat]
theorem regOk_af (fn : Nat) (x : AfReg) : regOk .af fn (eaf x) = true := by simp [regOk, eaf_toNat]
theorem regOk_h (fn : Nat) (x : HReg) : regOk .h fn (eh x) = true := by cases x <;> rfl

/-! ### Immediates read back -/

section
variable {op : BitVec 8} {d a b ty : BitVec 5} {fn : BitVec 7} {q : BitVec 3} {p : Option PReg} {c : VReg} {n : Nat} {row : Row}

theorem pred_tail : Fields.pred ⟨op, d, a, b, fn, ty, q, tPred p⟩ = p := by
  cases p with
  | none => exact (by decide : Fields.pred ⟨0, 0, 0, 0, 0, 0, 0, tPred none⟩ = none)
  | some p => exact (by decide : ∀ p : PReg, Fields.pred ⟨0, 0, 0, 0, 0, 0, 0, tPred (some p)⟩ = some p) p

theorem pred_fma : Fields.pred ⟨op, d, a, b, fn, ty, q, tFma c p⟩ = p := by
  cases p with
  | none => exact (by decide : Fields.pred ⟨0, 0, 0, 0, 0, 0, 0, tFma 0 none⟩ = none)
  | some p => exact (by decide : ∀ p : PReg, Fields.pred ⟨0, 0, 0, 0, 0, 0, 0, tFma 0 (some p)⟩ = some p) p

theorem c_fma : Fields.c ⟨op, d, a, b, fn, ty, q, tFma c p⟩ = ev c := by cases p <;> rfl

theorem sub_tail (hn : n < 2 ^ 24) : (Fields.imm24 ⟨op, d, a, b, fn, ty, q, tSub n⟩).toNat = n := by
  simp [Fields.imm24, tSub]; omega

theorem subfield_tail (hn : n < 2 ^ 24) (lo k : Nat) :
    subfield ⟨op, d, a, b, fn, ty, q, tSub n⟩ lo k = BitVec.ofNat k (n / 2 ^ lo) := by
  unfold subfield; rw [sub_tail hn]

end

theorem ty_code (t : Ty) : (BitVec.ofNat 5 (tyCode t)).toNat = tyCode t ∧ tyOf (tyCode t) = t := by cases t <;> decide
theorem rm_code (r : Rm) : (BitVec.ofNat 3 (rmCode r)).toNat = rmCode r ∧ rmOf (rmCode r) = r := by cases r <;> decide

theorem amo_code (op : AmoOp) (ord : AmoOrd) :
    (BitVec.ofNat 7 (amoCode op + 16 * ordCode ord)).toNat = amoCode op + 16 * ordCode ord ∧
    amoOf (amoCode op + 16 * ordCode ord) = op ∧ amoFns.contains (amoCode op + 16 * ordCode ord) = true ∧
    ordOf (amoCode op + 16 * ordCode ord) (scopeOf (BitVec.ofNat 3 (ordScope ord)).toNat) = ord := by
  cases op <;> rcases ord with _ | sc | sc | sc <;> (try cases sc) <;> decide

theorem order_ok {op : BitVec 8} {d a b ty : BitVec 5} {tail : Tail} {row : Row} (x : AmoOp) (ord : AmoOrd) (h : row.q = .order) :
    qualOk row ⟨op, d, a, b, BitVec.ofNat 7 (amoCode x + 16 * ordCode ord), ty, BitVec.ofNat 3 (ordScope ord), tail⟩ = true := by
  simp only [qualOk, h, (amo_code x ord).1]
  cases x <;> rcases ord with _ | sc | sc | sc <;> (try cases sc) <;> rfl

theorem cas_code (ord : AmoOrd) : 16 * ordCode ord = amoCode .add + 16 * ordCode ord ∧
    [0, 16, 32, 48].contains (16 * ordCode ord) = true := by
  rcases ord with _ | sc | sc | sc <;> exact ⟨rfl, rfl⟩

theorem drain_code (z : Bool) (sc : Scope) :
    (BitVec.ofNat 7 (b2n z + 2 + 4 * scopeCode sc)).toNat = b2n z + 2 + 4 * scopeCode sc ∧
    drainFns.contains (b2n z + 2 + 4 * scopeCode sc) = true ∧ (b2n z + 2 + 4 * scopeCode sc) / 2 % 2 = 1 ∧
    decide ((b2n z + 2 + 4 * scopeCode sc) % 2 = 1) = z ∧ scopeOf ((b2n z + 2 + 4 * scopeCode sc) / 4) = sc := by
  cases z <;> cases sc <;> decide

theorem round_ok {op : BitVec 8} {d a b : BitVec 5} {fn : BitVec 7} {tail : Tail} {row : Row} (t : Ty) (rm : Rm) (h : row.q = .round)
    (ho : op.toNat ≠ 0x69) (ht : intCodes.contains (tyCode t) = false) :
    qualOk row ⟨op, d, a, b, fn, BitVec.ofNat 5 (tyCode t), BitVec.ofNat 3 (rmCode rm), tail⟩ = true := by
  simp only [qualOk, h, ho, if_false, (ty_code t).1, ht]
  cases rm <;> rfl

theorem scope_code (s : Scope) : scopeOf (BitVec.ofNat 3 (scopeCode s)).toNat = s := by cases s <;> rfl

theorem scope_ok {op : BitVec 8} {d a b ty : BitVec 5} {fn : BitVec 7} {tail : Tail} {row : Row} (s : Scope) (h : row.q = .scope) :
    qualOk row ⟨op, d, a, b, fn, ty, BitVec.ofNat 3 (scopeCode s), tail⟩ = true := by
  simp only [qualOk, h]
  cases s <;> rfl

theorem sel_tail {op : BitVec 8} {d a b ty : BitVec 5} {fn : BitVec 7} {q : BitVec 3} {p : PReg} :
    fin8 ((Fields.imm32 ⟨op, d, a, b, fn, ty, q, tPred (some p)⟩).truncate 3) = p :=
  (by decide : ∀ p : PReg, fin8 ((Fields.imm32 ⟨0, 0, 0, 0, 0, 0, 0, tPred (some p)⟩).truncate 3) = p) p

theorem pair_field (x : BitVec 6) (y : BitVec 7) :
    x.toNat + 64 * y.toNat < 2 ^ 24 ∧ x.toNat + 64 * y.toNat < 8192 ∧ (x.toNat + 64 * y.toNat) % 64 = x.toNat ∧
    (x.toNat + 64 * y.toNat) / 64 = y.toNat ∧ BitVec.ofNat 6 (x.toNat + 64 * y.toNat) = x ∧
    BitVec.ofNat 7 ((x.toNat + 64 * y.toNat) / 64) = y := by
  have := x.isLt
  have := y.isLt
  refine ⟨by omega, by omega, by omega, by omega, BitVec.eq_of_toNat_eq (by simp; omega), BitVec.eq_of_toNat_eq (by simp; omega)⟩

theorem pair_trees (x : BitVec 3) (y : BitVec 6) :
    x.toNat + 8 * y.toNat < 2 ^ 24 ∧ x.toNat + 8 * y.toNat < 512 ∧ (x.toNat + 8 * y.toNat) % 8 = x.toNat ∧
    (x.toNat + 8 * y.toNat) / 8 = y.toNat ∧ BitVec.ofNat 3 (x.toNat + 8 * y.toNat) = x ∧
    BitVec.ofNat 6 ((x.toNat + 8 * y.toNat) / 8) = y := by
  have := x.isLt
  have := y.isLt
  refine ⟨by omega, by omega, by omega, by omega, BitVec.eq_of_toNat_eq (by simp; omega), BitVec.eq_of_toNat_eq (by simp; omega)⟩

theorem triple_rpt (l : Fin 16) (r : BitVec 12) (s : Fin 8) :
    l.val + 16 * r.toNat + 65536 * s.val < 2 ^ 24 ∧ l.val + 16 * r.toNat + 65536 * s.val < 524288 ∧
    fin16 (BitVec.ofNat 4 (l.val + 16 * r.toNat + 65536 * s.val)) = l ∧
    BitVec.ofNat 12 ((l.val + 16 * r.toNat + 65536 * s.val) / 16) = r ∧
    fin8 (BitVec.ofNat 3 ((l.val + 16 * r.toNat + 65536 * s.val) / 65536)) = s := by
  have := l.isLt
  have := r.isLt
  have := s.isLt
  refine ⟨by omega, by omega, Fin.ext (by simp [fin16]; omega), BitVec.eq_of_toNat_eq (by simp; omega), Fin.ext (by simp [fin8]; omega)⟩

theorem sysOf_sysCode (r : SysReg) :
    sysCode r < 2 ^ 24 ∧ sysOf (sysCode r) = r ∧ sysOf (sysCode r % 4096) = r := by
  cases r with
  | swin i => revert i; decide
  | _ => decide

/-! ### The checks together -/

/-- Check 8 for the register fields. -/
def restOk (row : Row) (f : Fields) : Bool :=
  (row.d ≠ .no || f.d = 0) && (row.a ≠ .no || f.a = 0) && (row.b ≠ .no || f.b = 0) && (row.c ≠ .no || f.c = 0) &&
  (match f.op.toNat with
   | 0x1f | 0x30 => f.fn.toNat ≠ 64 || f.a = 0
   | 0xaa => f.fn.toNat ≠ 0 || f.b = 0
   | 0x85 => decide (f.len = 12) = decide (f.fn.toNat / 2 % 2 = 1) && (f.fn.toNat / 2 % 2 = 1 || f.c = 0)
   | _ => true)

/-- Check 8 for the immediate. -/
def immOk (row : Row) (f : Fields) : Bool :=
  match row.imm with
  | .zero => f.immNat = 0
  | .value | .sub => true
  | .pred => if f.len = 8 then f.immNat = 0 else f.immNat / 8 = 1
  | .fma => f.immNat / 8 = 1 || f.immNat = 0

section
variable {op : BitVec 8} {d a b ty : BitVec 5} {fn : BitVec 7} {q : BitVec 3} {p : Option PReg} {c : VReg} {row : Row}

theorem immOk_pred (h : row.imm = .pred) : immOk row ⟨op, d, a, b, fn, ty, q, tPred p⟩ = true := by
  unfold immOk
  rw [h]
  cases p with
  | none => rfl
  | some p => exact (by decide : ∀ p : PReg, decide ((Fields.immNat ⟨0, 0, 0, 0, 0, 0, 0, tPred (some p)⟩) / 8 = 1) = true) p

theorem immOk_fma (h : row.imm = .fma) : immOk row ⟨op, d, a, b, fn, ty, q, tFma c p⟩ = true := by
  unfold immOk
  rw [h]
  cases p with
  | none => exact (by decide : (decide ((Fields.immNat ⟨0, 0, 0, 0, 0, 0, 0, tFma 0 none⟩) / 8 = 1) ||
      decide ((Fields.immNat ⟨0, 0, 0, 0, 0, 0, 0, tFma 0 none⟩) = 0)) = true)
  | some p => exact (by decide : ∀ p : PReg, (decide ((Fields.immNat ⟨0, 0, 0, 0, 0, 0, 0, tFma 0 (some p)⟩) / 8 = 1) ||
      decide ((Fields.immNat ⟨0, 0, 0, 0, 0, 0, 0, tFma 0 (some p)⟩) = 0)) = true) p

end

/-- The checks of R296 passed one by one. -/
theorem decode_ok {f : Fields} {row : Row} {i : Instr} (h0 : rowOf f.op.toNat = some row)
    (h1 : row.lens.contains f.len = true) (h2 : row.fns.contains f.fn.toNat = true)
    (h3 : typeOk row f = true) (h4 : qualOk row f = true)
    (h5 : regOk row.d f.fn.toNat f.d = true) (h6 : regOk row.a f.fn.toNat f.a = true)
    (h7 : regOk row.b f.fn.toNat f.b = true) (h8 : regOk row.c f.fn.toNat f.c = true) (h9 : parityOk f = true)
    (h10 : restOk row f = true) (h11 : immOk row f = true) (h12 : subfieldOk f = true)
    (h13 : buildInstr f = some i) : decodeFields f = .ok i := by
  have hu : unusedOk row f = true := (Bool.and_eq_true_iff.2 ⟨h10, h11⟩ : (restOk row f && immOk row f) = true)
  unfold decodeFields
  simp only [h0, h1, h2, h3, h4, h5, h6, h7, h8, h9, hu, h12, h13, Bool.and_self, Bool.not_true, Bool.false_eq_true, if_false]

theorem add (t : Ty) (d : WReg) (a : WReg) (b : WReg) : Statement (.add t d a b) := by
  intro f hw hf
  cases hf
  cases t <;> cases hw <;>
  exact decode_ok rfl rfl rfl rfl rfl (regOk_w ..) (regOk_w ..) (regOk_w ..) rfl rfl rfl rfl rfl
    (by (conv => (lhs; whnf)); simp only [enc, regW_ew] <;> rfl)

theorem sub (t : Ty) (d : WReg) (a : WReg) (b : WReg) : Statement (.sub t d a b) := by
  intro f hw hf
  cases hf
  cases t <;> cases hw <;>
  exact decode_ok rfl rfl rfl rfl rfl (regOk_w ..) (regOk_w ..) (regOk_w ..) rfl rfl rfl rfl rfl
    (by (conv => (lhs; whnf)); simp only [enc, regW_ew] <;> rfl)

theorem mul (t : Ty) (d : WReg) (a : WReg) (b : WReg) : Statement (.mul t d a b) := by
  intro f hw hf
  cases hf
  cases t <;> cases hw <;>
  exact decode_ok rfl rfl rfl rfl rfl (regOk_w ..) (regOk_w ..) (regOk_w ..) rfl rfl rfl rfl rfl
    (by (conv => (lhs; whnf)); simp only [enc, regW_ew] <;> rfl)

theorem mulh (t : Ty) (d : WReg) (a : WReg) (b : WReg) : Statement (.mulh t d a b) := by
  intro f hw hf
  cases hf
  cases t <;> cases hw <;>
  exact decode_ok rfl rfl rfl rfl rfl (regOk_w ..) (regOk_w ..) (regOk_w ..) rfl rfl rfl rfl rfl
    (by (conv => (lhs; whnf)); simp only [enc, regW_ew] <;> rfl)

theorem mulhn (t : Ty) (d : WReg) (a : WReg) (b : WReg) : Statement (.mulhn t d a b) := by
  intro f hw hf
  cases hf
  cases t <;> cases hw <;>
  exact decode_ok rfl rfl rfl rfl rfl (regOk_w ..) (regOk_w ..) (regOk_w ..) rfl rfl rfl rfl rfl
    (by (conv => (lhs; whnf)); simp only [enc, regW_ew] <;> rfl)

theorem div (t : Ty) (d : WReg) (a : WReg) (b : WReg) : Statement (.div t d a b) := by
  intro f hw hf
  cases hf
  cases t <;> cases hw <;>
  exact decode_ok rfl rfl rfl rfl rfl (regOk_w ..) (regOk_w ..) (regOk_w ..) rfl rfl rfl rfl rfl
    (by (conv => (lhs; whnf)); simp only [enc, regW_ew] <;> rfl)

theorem divn (t : Ty) (d : WReg) (a : WReg) (b : WReg) : Statement (.divn t d a b) := by
  intro f hw hf
  cases hf
  cases t <;> cases hw <;>
  exact decode_ok rfl rfl rfl rfl rfl (regOk_w ..) (regOk_w ..) (regOk_w ..) rfl rfl rfl rfl rfl
    (by (conv => (lhs; whnf)); simp only [enc, regW_ew] <;> rfl)

theorem rem (t : Ty) (d : WReg) (a : WReg) (b : WReg) : Statement (.rem t d a b) := by
  intro f hw hf
  cases hf
  cases t <;> cases hw <;>
  exact decode_ok rfl rfl rfl rfl rfl (regOk_w ..) (regOk_w ..) (regOk_w ..) rfl rfl rfl rfl rfl
    (by (conv => (lhs; whnf)); simp only [enc, regW_ew] <;> rfl)

theorem remn (t : Ty) (d : WReg) (a : WReg) (b : WReg) : Statement (.remn t d a b) := by
  intro f hw hf
  cases hf
  cases t <;> cases hw <;>
  exact decode_ok rfl rfl rfl rfl rfl (regOk_w ..) (regOk_w ..) (regOk_w ..) rfl rfl rfl rfl rfl
    (by (conv => (lhs; whnf)); simp only [enc, regW_ew] <;> rfl)

theorem divisionComplete (ctx : Nat) : Statement (.divisionComplete ctx) := by
  intro f _ hf
  cases hf

theorem and (t : Ty) (d : WReg) (a : WReg) (b : WReg) : Statement (.and t d a b) := by
  intro f hw hf
  cases hf
  cases t <;> cases hw <;>
  exact decode_ok rfl rfl rfl rfl rfl (regOk_w ..) (regOk_w ..) (regOk_w ..) rfl rfl rfl rfl rfl
    (by (conv => (lhs; whnf)); simp only [enc, regW_ew] <;> rfl)

theorem or (t : Ty) (d : WReg) (a : WReg) (b : WReg) : Statement (.or t d a b) := by
  intro f hw hf
  cases hf
  cases t <;> cases hw <;>
  exact decode_ok rfl rfl rfl rfl rfl (regOk_w ..) (regOk_w ..) (regOk_w ..) rfl rfl rfl rfl rfl
    (by (conv => (lhs; whnf)); simp only [enc, regW_ew] <;> rfl)

theorem xor (t : Ty) (d : WReg) (a : WReg) (b : WReg) : Statement (.xor t d a b) := by
  intro f hw hf
  cases hf
  cases t <;> cases hw <;>
  exact decode_ok rfl rfl rfl rfl rfl (regOk_w ..) (regOk_w ..) (regOk_w ..) rfl rfl rfl rfl rfl
    (by (conv => (lhs; whnf)); simp only [enc, regW_ew] <;> rfl)

theorem andn (t : Ty) (d : WReg) (a : WReg) (b : WReg) : Statement (.andn t d a b) := by
  intro f hw hf
  cases hf
  cases t <;> cases hw <;>
  exact decode_ok rfl rfl rfl rfl rfl (regOk_w ..) (regOk_w ..) (regOk_w ..) rfl rfl rfl rfl rfl
    (by (conv => (lhs; whnf)); simp only [enc, regW_ew] <;> rfl)

theorem shl (t : Ty) (d : WReg) (a : WReg) (b : WReg) : Statement (.shl t d a b) := by
  intro f hw hf
  cases hf
  cases t <;> cases hw <;>
  exact decode_ok rfl rfl rfl rfl rfl (regOk_w ..) (regOk_w ..) (regOk_w ..) rfl rfl rfl rfl rfl
    (by (conv => (lhs; whnf)); simp only [enc, regW_ew] <;> rfl)

theorem shr (t : Ty) (d : WReg) (a : WReg) (b : WReg) : Statement (.shr t d a b) := by
  intro f hw hf
  cases hf
  cases t <;> cases hw <;>
  exact decode_ok rfl rfl rfl rfl rfl (regOk_w ..) (regOk_w ..) (regOk_w ..) rfl rfl rfl rfl rfl
    (by (conv => (lhs; whnf)); simp only [enc, regW_ew] <;> rfl)

theorem sra (t : Ty) (d : WReg) (a : WReg) (b : WReg) : Statement (.sra t d a b) := by
  intro f hw hf
  cases hf
  cases t <;> cases hw <;>
  exact decode_ok rfl rfl rfl rfl rfl (regOk_w ..) (regOk_w ..) (regOk_w ..) rfl rfl rfl rfl rfl
    (by (conv => (lhs; whnf)); simp only [enc, regW_ew] <;> rfl)

theorem rotr (t : Ty) (d : WReg) (a : WReg) (b : WReg) : Statement (.rotr t d a b) := by
  intro f hw hf
  cases hf
  cases t <;> cases hw <;>
  exact decode_ok rfl rfl rfl rfl rfl (regOk_w ..) (regOk_w ..) (regOk_w ..) rfl rfl rfl rfl rfl
    (by (conv => (lhs; whnf)); simp only [enc, regW_ew] <;> rfl)

theorem min (t : Ty) (d : WReg) (a : WReg) (b : WReg) : Statement (.min t d a b) := by
  intro f hw hf
  cases hf
  cases t <;> cases hw <;>
  exact decode_ok rfl rfl rfl rfl rfl (regOk_w ..) (regOk_w ..) (regOk_w ..) rfl rfl rfl rfl rfl
    (by (conv => (lhs; whnf)); simp only [enc, regW_ew] <;> rfl)

theorem max (t : Ty) (d : WReg) (a : WReg) (b : WReg) : Statement (.max t d a b) := by
  intro f hw hf
  cases hf
  cases t <;> cases hw <;>
  exact decode_ok rfl rfl rfl rfl rfl (regOk_w ..) (regOk_w ..) (regOk_w ..) rfl rfl rfl rfl rfl
    (by (conv => (lhs; whnf)); simp only [enc, regW_ew] <;> rfl)

theorem minn (t : Ty) (d : WReg) (a : WReg) (b : WReg) : Statement (.minn t d a b) := by
  intro f hw hf
  cases hf
  cases t <;> cases hw <;>
  exact decode_ok rfl rfl rfl rfl rfl (regOk_w ..) (regOk_w ..) (regOk_w ..) rfl rfl rfl rfl rfl
    (by (conv => (lhs; whnf)); simp only [enc, regW_ew] <;> rfl)

theorem maxn (t : Ty) (d : WReg) (a : WReg) (b : WReg) : Statement (.maxn t d a b) := by
  intro f hw hf
  cases hf
  cases t <;> cases hw <;>
  exact decode_ok rfl rfl rfl rfl rfl (regOk_w ..) (regOk_w ..) (regOk_w ..) rfl rfl rfl rfl rfl
    (by (conv => (lhs; whnf)); simp only [enc, regW_ew] <;> rfl)

theorem clz (t : Ty) (d : WReg) (a : WReg) : Statement (.clz t d a) := by
  intro f hw hf
  cases hf
  cases t <;> cases hw <;>
  exact decode_ok rfl rfl rfl rfl rfl (regOk_w ..) (regOk_w ..) rfl rfl rfl rfl rfl rfl
    (by (conv => (lhs; whnf)); simp only [enc, regW_ew] <;> rfl)

theorem ctz (t : Ty) (d : WReg) (a : WReg) : Statement (.ctz t d a) := by
  intro f hw hf
  cases hf
  cases t <;> cases hw <;>
  exact decode_ok rfl rfl rfl rfl rfl (regOk_w ..) (regOk_w ..) rfl rfl rfl rfl rfl rfl
    (by (conv => (lhs; whnf)); simp only [enc, regW_ew] <;> rfl)

theorem popc (t : Ty) (d : WReg) (a : WReg) : Statement (.popc t d a) := by
  intro f hw hf
  cases hf
  cases t <;> cases hw <;>
  exact decode_ok rfl rfl rfl rfl rfl (regOk_w ..) (regOk_w ..) rfl rfl rfl rfl rfl rfl
    (by (conv => (lhs; whnf)); simp only [enc, regW_ew] <;> rfl)

theorem mov (d : WReg) (a : WReg) : Statement (.mov d a) := by
  intro f hw hf
  cases hf
  cases hw <;>
  exact decode_ok rfl rfl rfl rfl rfl (regOk_w ..) (regOk_w ..) rfl rfl rfl rfl rfl rfl
    (by (conv => (lhs; whnf)); simp only [enc, regW_ew])

theorem sext (t : Ty) (d : WReg) (a : WReg) : Statement (.sext t d a) := by
  intro f hw hf
  cases hf
  cases t <;> cases hw <;>
  exact decode_ok rfl rfl rfl rfl rfl (regOk_w ..) (regOk_w ..) rfl rfl rfl rfl rfl rfl
    (by (conv => (lhs; whnf)); simp only [enc, regW_ew] <;> rfl)

theorem addi (t : Ty) (d : WReg) (a : WReg) (imm : Imm) : Statement (.addi t d a imm) := by
  intro f hw hf
  cases hf
  cases t <;> cases imm <;> cases hw <;>
  exact decode_ok rfl rfl rfl rfl rfl (regOk_w ..) (regOk_w ..) rfl rfl rfl rfl rfl rfl
    (by (conv => (lhs; whnf)); simp only [enc, regW_ew] <;> rfl)

theorem li (d : WReg) (imm : Imm) : Statement (.li d imm) := by
  intro f hw hf
  cases hf
  cases imm <;> cases hw <;>
  exact decode_ok rfl rfl rfl rfl rfl (regOk_w ..) rfl rfl rfl rfl rfl rfl rfl
    (by (conv => (lhs; whnf)); simp only [enc, regW_ew] <;> rfl)

theorem lea (d : WReg) (base : MBase) (imm : Imm) : Statement (.lea d base imm) := by
  intro f hw hf
  cases hf
  cases base <;> cases imm <;> cases hw <;>
  exact decode_ok rfl rfl rfl rfl rfl (regOk_w ..) (by first | exact regOk_w .. | rfl) rfl rfl rfl rfl rfl rfl
    (by (conv => (lhs; whnf)); simp [enc, regW_ew, mbase, ebase, efn] <;> rfl)

theorem bfx (signed : Bool) (d : WReg) (a : WReg) (lsb : BitVec 6) (width : BitVec 7) :
    Statement (.bfx signed d a lsb width) := by
  intro f hw hf
  cases hf
  have h := pair_field lsb width
  cases signed <;>
  exact decode_ok rfl rfl rfl rfl rfl (regOk_w ..) (regOk_w ..) rfl rfl rfl rfl rfl
    (by simp [subfieldOk, enc, sub_tail h.1, h.2.1, h.2.2.1, h.2.2.2.1]; exact hw)
    (by (conv => (lhs; whnf)); simp [enc, subfield_tail h.1, regW_ew, h.2.2.2.2, tyOf, tyCode])

theorem bfi (d : WReg) (a : WReg) (lsb : BitVec 6) (width : BitVec 7) : Statement (.bfi d a lsb width) := by
  intro f hw hf
  cases hf
  have h := pair_field lsb width
  exact decode_ok rfl rfl rfl rfl rfl (regOk_w ..) (regOk_w ..) rfl rfl rfl rfl rfl
    (by simp [subfieldOk, enc, sub_tail h.1, h.2.1, h.2.2.1, h.2.2.2.1]; exact hw)
    (by (conv => (lhs; whnf)); simp [enc, subfield_tail h.1, regW_ew, h.2.2.2.2])

theorem sel (d : WReg) (a : WReg) (b : WReg) (c : WReg) : Statement (.sel d a b c) := by
  intro f hw hf
  cases hf
  cases hw <;>
  exact decode_ok rfl rfl rfl rfl rfl (regOk_w ..) (regOk_w ..) (regOk_w ..) (regOk_w ..) rfl rfl rfl rfl
    (by (conv => (lhs; whnf)); simp only [enc, regW_ew, Fields.c])

theorem scmp (t : Ty) (k : Rel) (d : WReg) (a : WReg) (b : WReg) : Statement (.scmp t k d a b) := by
  intro f hw hf
  cases hf
  cases t <;> cases k <;> cases hw <;>
  exact decode_ok rfl rfl rfl rfl rfl (regOk_w ..) (regOk_w ..) (regOk_w ..) rfl rfl rfl rfl rfl
    (by (conv => (lhs; whnf)); simp only [enc, regW_ew] <;> rfl)

theorem b (p : PReg) (imm : Imm) : Statement (.b p imm) := by
  intro f hw hf
  cases hf
  cases imm <;> cases hw <;>
  exact decode_ok rfl rfl rfl rfl rfl rfl (regOk_p ..) rfl rfl rfl rfl rfl rfl
    (by (conv => (lhs; whnf)); simp only [enc, regP_ep] <;> rfl)

theorem bz (a : WReg) (imm : Imm) : Statement (.bz a imm) := by
  intro f hw hf
  cases hf
  cases imm <;> cases hw <;>
  exact decode_ok rfl rfl rfl rfl rfl rfl (regOk_w ..) rfl rfl rfl rfl rfl rfl
    (by (conv => (lhs; whnf)); simp only [enc, regW_ew] <;> rfl)

theorem bnz (a : WReg) (imm : Imm) : Statement (.bnz a imm) := by
  intro f hw hf
  cases hf
  cases imm <;> cases hw <;>
  exact decode_ok rfl rfl rfl rfl rfl rfl (regOk_w ..) rfl rfl rfl rfl rfl rfl
    (by (conv => (lhs; whnf)); simp only [enc, regW_ew] <;> rfl)

theorem j (imm : Imm) : Statement (.j imm) := by
  intro f hw hf
  cases hf
  cases imm <;> cases hw <;>
  exact decode_ok rfl rfl rfl rfl rfl rfl rfl rfl rfl rfl rfl rfl rfl
    rfl

theorem jal (d : WReg) (imm : Imm) : Statement (.jal d imm) := by
  intro f hw hf
  cases hf
  cases imm <;> cases hw <;>
  exact decode_ok rfl rfl rfl rfl rfl (regOk_w ..) rfl rfl rfl rfl rfl rfl rfl
    (by (conv => (lhs; whnf)); simp only [enc, regW_ew] <;> rfl)

theorem loop (a : WReg) (imm : Imm) : Statement (.loop a imm) := by
  intro f hw hf
  cases hf
  cases imm <;> cases hw <;>
  exact decode_ok rfl rfl rfl rfl rfl rfl (regOk_w ..) rfl rfl rfl rfl rfl rfl
    (by (conv => (lhs; whnf)); simp only [enc, regW_ew] <;> rfl)

theorem jr (a : WReg) : Statement (.jr a) := by
  intro f hw hf
  cases hf
  cases hw <;>
  exact decode_ok rfl rfl rfl rfl rfl rfl (regOk_w ..) rfl rfl rfl rfl rfl rfl
    (by (conv => (lhs; whnf)); simp only [enc, regW_ew])

theorem jalr (d : WReg) (a : WReg) : Statement (.jalr d a) := by
  intro f hw hf
  cases hf
  cases hw <;>
  exact decode_ok rfl rfl rfl rfl rfl (regOk_w ..) (regOk_w ..) rfl rfl rfl rfl rfl rfl
    (by (conv => (lhs; whnf)); simp only [enc, regW_ew])

theorem ld (t : Ty) (d : WReg) (base : MBase) (imm : Imm) : Statement (.ld t d base imm) := by
  intro f hw hf
  cases hf
  cases t <;> cases base <;> cases imm <;> cases hw <;>
  exact decode_ok rfl rfl rfl rfl rfl (regOk_w ..) (by first | exact regOk_w .. | rfl) rfl rfl rfl rfl rfl rfl
    (by (conv => (lhs; whnf)); simp [enc, regW_ew, mbase, ebase, efn, tyOf, tyCode] <;> rfl)

theorem st (t : Ty) (a : WReg) (imm : Imm) (b : WReg) : Statement (.st t a imm b) := by
  intro f hw hf
  cases hf
  cases t <;> cases imm <;> cases hw <;>
  exact decode_ok rfl rfl rfl rfl rfl rfl (regOk_w ..) (regOk_w ..) rfl rfl rfl rfl rfl
    (by (conv => (lhs; whnf)); simp only [enc, regW_ew] <;> rfl)

theorem lda (t : Ty) (sc : Scope) (d : WReg) (a : WReg) (imm : Imm) : Statement (.lda t sc d a imm) := by
  intro f hw hf
  cases hf
  cases t <;> cases imm <;> cases hw <;>
  exact decode_ok rfl rfl rfl rfl (scope_ok sc rfl) (regOk_w ..) (regOk_w ..) rfl rfl rfl rfl rfl rfl
    (by (conv => (lhs; whnf)); simp only [enc, regW_ew, scope_code] <;> rfl)

theorem stl (t : Ty) (sc : Scope) (a : WReg) (imm : Imm) (b : WReg) : Statement (.stl t sc a imm b) := by
  intro f hw hf
  cases hf
  cases t <;> cases imm <;> cases hw <;>
  exact decode_ok rfl rfl rfl rfl (scope_ok sc rfl) rfl (regOk_w ..) (regOk_w ..) rfl rfl rfl rfl rfl
    (by (conv => (lhs; whnf)); simp only [enc, regW_ew, scope_code] <;> rfl)

theorem fence (sc : Scope) : Statement (.fence sc) := by
  intro f hw hf
  cases hf
  cases sc <;> cases hw <;>
  exact decode_ok rfl rfl rfl rfl rfl rfl rfl rfl rfl rfl rfl rfl rfl
    rfl

theorem fenceRel (sc : Scope) : Statement (.fenceRel sc) := by
  intro f hw hf
  cases hf
  cases sc <;> cases hw <;>
  exact decode_ok rfl rfl rfl rfl rfl rfl rfl rfl rfl rfl rfl rfl rfl
    rfl

theorem fenceAcq (sc : Scope) : Statement (.fenceAcq sc) := by
  intro f hw hf
  cases hf
  cases sc <;> cases hw <;>
  exact decode_ok rfl rfl rfl rfl rfl rfl rfl rfl rfl rfl rfl rfl rfl
    rfl

theorem releaseComplete (ctx : Nat) : Statement (.releaseComplete ctx) := by
  intro f _ hf
  cases hf

theorem ldf (d : WReg) (a : WReg) (imm : Imm) : Statement (.ldf d a imm) := by
  intro f hw hf
  cases hf
  cases imm <;> cases hw <;>
  exact decode_ok rfl rfl rfl rfl rfl (regOk_w ..) (regOk_w ..) rfl rfl rfl rfl rfl rfl
    (by (conv => (lhs; whnf)); simp only [enc, regW_ew] <;> rfl)

theorem ldt (d : WReg) (a : WReg) (imm : Imm) : Statement (.ldt d a imm) := by
  intro f hw hf
  cases hf
  cases imm <;> cases hw <;>
  exact decode_ok rfl rfl rfl rfl rfl (regOk_w ..) (regOk_w ..) rfl rfl rfl rfl rfl rfl
    (by (conv => (lhs; whnf)); simp only [enc, regW_ew] <;> rfl)

theorem stf (sc : Scope) (a : WReg) (imm : Imm) (b : WReg) : Statement (.stf sc a imm b) := by
  intro f hw hf
  cases hf
  cases sc <;> cases imm <;> cases hw <;>
  exact decode_ok rfl rfl rfl rfl rfl rfl (regOk_w ..) (regOk_w ..) rfl rfl rfl rfl rfl
    (by (conv => (lhs; whnf)); simp only [enc, regW_ew] <;> rfl)

theorem clre (a : WReg) (imm : Imm) : Statement (.clre a imm) := by
  intro f hw hf
  cases hf
  cases imm <;> cases hw <;>
  exact decode_ok rfl rfl rfl rfl rfl rfl (regOk_w ..) rfl rfl rfl rfl rfl rfl
    (by (conv => (lhs; whnf)); simp only [enc, regW_ew] <;> rfl)

theorem push (t : Ty) (form : PushForm) (a : WReg) (off : BitVec 32) (b : WReg) (c : WReg) : Statement (.push t form a off b c) := by
  intro f hw hf
  cases hf
  cases t <;> cases form <;> cases hw <;>
  exact decode_ok rfl rfl rfl rfl rfl rfl (regOk_w ..) (regOk_w ..) (regOk_w ..) rfl rfl rfl rfl
    (by (conv => (lhs; whnf)); simp only [enc, regW_ew, Fields.c] <;> rfl)

theorem pushTokenArrival (msg : Nat) : Statement (.pushTokenArrival msg) := by
  intro f _ hf
  cases hf

theorem pushAckArrival (msg : Nat) : Statement (.pushAckArrival msg) := by
  intro f _ hf
  cases hf

theorem pref (a : WReg) (imm : Imm) : Statement (.pref a imm) := by
  intro f hw hf
  cases hf
  cases imm <;> cases hw <;>
  exact decode_ok rfl rfl rfl rfl rfl rfl (regOk_w ..) rfl rfl rfl rfl rfl rfl
    (by (conv => (lhs; whnf)); simp only [enc, regW_ew] <;> rfl)

theorem cwb (a : WReg) (imm : Imm) : Statement (.cwb a imm) := by
  intro f hw hf
  cases hf
  cases imm <;> cases hw <;>
  exact decode_ok rfl rfl rfl rfl rfl rfl (regOk_w ..) rfl rfl rfl rfl rfl rfl
    (by (conv => (lhs; whnf)); simp only [enc, regW_ew] <;> rfl)

theorem cinv (a : WReg) (imm : Imm) : Statement (.cinv a imm) := by
  intro f hw hf
  cases hf
  cases imm <;> cases hw <;>
  exact decode_ok rfl rfl rfl rfl rfl rfl (regOk_w ..) rfl rfl rfl rfl rfl rfl
    (by (conv => (lhs; whnf)); simp only [enc, regW_ew] <;> rfl)

theorem cfl (a : WReg) (imm : Imm) : Statement (.cfl a imm) := by
  intro f hw hf
  cases hf
  cases imm <;> cases hw <;>
  exact decode_ok rfl rfl rfl rfl rfl rfl (regOk_w ..) rfl rfl rfl rfl rfl rfl
    (by (conv => (lhs; whnf)); simp only [enc, regW_ew] <;> rfl)

theorem amo (op : AmoOp) (t : Ty) (ord : AmoOrd) (d : WReg) (a : WReg) (b : WReg) : Statement (.amo op t ord d a b) := by
  intro f hw hf
  cases hf
  have h := amo_code op ord
  have ht : [7, 8, 10, 11].contains (tyCode t) = true := by cases t <;> cases op <;> first | rfl | cases hw
  refine decode_ok (row := ⟨[8], amoFns, [7, 8, 10, 11], .order, .zero, .w, .w, .w, .no⟩) rfl rfl ((congrArg _ h.1).trans h.2.2.1)
    ?_ (order_ok op ord rfl) (regOk_w ..) (regOk_w ..) (regOk_w ..) rfl rfl rfl rfl rfl
    (by (conv => (lhs; whnf)); simp only [enc, regW_ew, h.1, h.2.1, h.2.2.2, ty_code])
  simp only [typeOk, enc, h.1, h.2.1, ty_code, ht]
  exact hw

theorem cas (t : Ty) (ord : AmoOrd) (d : WReg) (a : WReg) (b : WReg) (c : WReg) : Statement (.cas t ord d a b c) := by
  intro f hw hf
  cases hf
  have h := amo_code .add ord
  rw [(cas_code ord).1]
  cases t <;> cases hw <;>
  exact decode_ok rfl rfl ((congrArg _ h.1).trans ((cas_code ord).1 ▸ (cas_code ord).2)) rfl (order_ok .add ord rfl)
    (regOk_w ..) (regOk_w ..) (regOk_w ..) (regOk_w ..) rfl rfl rfl rfl
    (by (conv => (lhs; whnf)); simp only [enc, regW_ew, Fields.c, h.1, h.2.2.2] <;> rfl)

theorem smap (win : Fin 8) (size : BitVec 3) (a : WReg) (b : WReg) : Statement (.smap win size a b) := by
  intro f hw hf
  cases hf
  have hn : win.val < 2 ^ 24 := by omega
  have h : size.toNat < 7 := by
    have := size.isLt
    have : size ≠ 7 := by simpa [WellFormed] using hw
    have : size.toNat ≠ 7 := fun e => this (BitVec.eq_of_toNat_eq e)
    omega
  have hs : (BitVec.ofNat 7 size.toNat).toNat = size.toNat := by simp; omega
  exact decode_ok rfl rfl (by simp [enc]; omega) rfl rfl rfl (regOk_w ..) (regOk_w ..) rfl rfl rfl rfl
    (by simp [subfieldOk, enc, sub_tail hn])
    (by (conv => (lhs; whnf)); simp only [enc, hs]; simp [subfield_tail hn, fin8, regW_ew])

theorem sunmap (win : Fin 8) : Statement (.sunmap win) := by
  intro f hw hf
  cases hf
  have hn : win.val < 2 ^ 24 := by omega
  cases hw <;>
  exact decode_ok rfl rfl rfl rfl rfl rfl rfl rfl rfl rfl rfl rfl (by simp [subfieldOk, enc, sub_tail hn])
    (by (conv => (lhs; whnf)); simp [enc, subfield_tail hn, fin8])

theorem swb (win : Fin 8) : Statement (.swb win) := by
  intro f hw hf
  cases hf
  have hn : win.val < 2 ^ 24 := by omega
  cases hw <;>
  exact decode_ok rfl rfl rfl rfl rfl rfl rfl rfl rfl rfl rfl rfl (by simp [subfieldOk, enc, sub_tail hn])
    (by (conv => (lhs; whnf)); simp [enc, subfield_tail hn, fin8])

theorem vld (t : Ty) (d : VReg) (a : WReg) (imm : Imm) : Statement (.vld t d a imm) := by
  intro f hw hf
  cases hf
  cases t <;> cases imm <;> cases hw <;>
  exact decode_ok rfl rfl rfl rfl rfl rfl (regOk_w ..) rfl rfl rfl rfl rfl rfl
    (by (conv => (lhs; whnf)); simp only [enc, regW_ew, regV_ev] <;> rfl)

theorem vst (t : Ty) (a : WReg) (imm : Imm) (b : VReg) : Statement (.vst t a imm b) := by
  intro f hw hf
  cases hf
  cases t <;> cases imm <;> cases hw <;>
  exact decode_ok rfl rfl rfl rfl rfl rfl (regOk_w ..) rfl rfl rfl rfl rfl rfl
    (by (conv => (lhs; whnf)); simp only [enc, regW_ew, regV_ev] <;> rfl)

theorem vlds (t : Ty) (d : VReg) (a : WReg) (imm : Imm) (b : WReg) : Statement (.vlds t d a imm b) := by
  intro f hw hf
  cases hf
  cases t <;> cases imm <;> cases hw <;>
  exact decode_ok rfl rfl rfl rfl rfl rfl (regOk_w ..) (regOk_w ..) rfl rfl rfl rfl rfl
    (by (conv => (lhs; whnf)); simp only [enc, regW_ew, regV_ev] <;> rfl)

theorem vgat (t : Ty) (d : VReg) (a : WReg) (b : VReg) : Statement (.vgat t d a b) := by
  intro f hw hf
  cases hf
  cases t <;> cases hw <;>
  exact decode_ok rfl rfl rfl rfl rfl rfl (regOk_w ..) rfl rfl rfl rfl rfl rfl
    (by (conv => (lhs; whnf)); simp only [enc, regW_ew, regV_ev] <;> rfl)

theorem vsct (t : Ty) (a : WReg) (b : VReg) (c : VReg) : Statement (.vsct t a b c) := by
  intro f hw hf
  cases hf
  cases t <;> cases hw <;>
  exact decode_ok rfl rfl rfl rfl rfl rfl (regOk_w ..) rfl rfl rfl rfl rfl rfl
    (by (conv => (lhs; whnf)); simp only [enc, regW_ew, regV_ev, Fields.c] <;> rfl)

theorem vbc (t : Ty) (d : VReg) (a : WReg) (p : Option PReg) : Statement (.vbc t d a p) := by
  intro f hw hf
  cases hf
  cases t <;> cases hw <;>
  exact decode_ok rfl (by cases p <;> rfl) rfl rfl rfl rfl (regOk_w ..) rfl rfl rfl (by cases p <;> rfl) (immOk_pred rfl) rfl
    (by (conv => (lhs; whnf)); simp only [enc, regW_ew, regV_ev, pred_tail] <;> rfl)

theorem vins (t : Ty) (d : VReg) (a : WReg) (lane : BitVec 6) : Statement (.vins t d a lane) := by
  intro f hw hf
  cases hf
  have hn : lane.toNat < 2 ^ 24 := by omega
  simp only [WellFormed, Bool.and_eq_true, decide_eq_true_eq] at hw
  obtain ⟨hm, hl⟩ := hw
  cases t <;> first
    | cases hm; done
    | exact decode_ok rfl rfl rfl rfl rfl rfl (regOk_w ..) rfl rfl rfl rfl rfl
        (by simp only [subfieldOk, enc, sub_tail hn]; exact decide_eq_true hl)
        (by (conv => (lhs; whnf)); simp [enc, subfield_tail hn, regV_ev, regW_ew, tyOf, tyCode])

theorem vext (t : Ty) (d : WReg) (a : VReg) (lane : BitVec 6) : Statement (.vext t d a lane) := by
  intro f hw hf
  cases hf
  have hn : lane.toNat < 2 ^ 24 := by omega
  simp only [WellFormed, Bool.and_eq_true, decide_eq_true_eq] at hw
  obtain ⟨hm, hl⟩ := hw
  cases t <;> first
    | cases hm; done
    | exact decode_ok rfl rfl rfl rfl rfl (regOk_w ..) rfl rfl rfl rfl rfl rfl
        (by simp only [subfieldOk, enc, sub_tail hn]; exact decide_eq_true hl)
        (by (conv => (lhs; whnf)); simp [enc, subfield_tail hn, regV_ev, regW_ew, tyOf, tyCode])

theorem vslide (t : Ty) (d : VReg) (a : VReg) (n : BitVec 6) : Statement (.vslide t d a n) := by
  intro f hw hf
  cases hf
  have hn : n.toNat < 2 ^ 24 := by omega
  simp only [WellFormed, Bool.and_eq_true, decide_eq_true_eq] at hw
  obtain ⟨hm, hl⟩ := hw
  cases t <;> first
    | cases hm; done
    | exact decode_ok rfl rfl rfl rfl rfl rfl rfl rfl rfl rfl rfl rfl
        (by simp only [subfieldOk, enc, sub_tail hn]; exact decide_eq_true hl)
        (by (conv => (lhs; whnf)); simp [enc, subfield_tail hn, regV_ev, tyOf, tyCode])

theorem vperm (t : Ty) (d : VReg) (a : VReg) (b : VReg) (p : Option PReg) : Statement (.vperm t d a b p) := by
  intro f hw hf
  cases hf
  cases t <;> cases hw <;>
  exact decode_ok rfl (by cases p <;> rfl) rfl rfl rfl rfl rfl rfl rfl rfl (by cases p <;> rfl) (immOk_pred rfl) rfl
    (by (conv => (lhs; whnf)); simp only [enc, regV_ev, pred_tail] <;> rfl)

theorem vadd (t : Ty) (rm : Rm) (d : VReg) (a : VReg) (b : VReg) (p : Option PReg) : Statement (.vadd t rm d a b p) := by
  intro f hw hf
  cases hf
  cases t <;> cases rm <;> cases hw <;>
  exact decode_ok rfl (by cases p <;> rfl) rfl rfl rfl rfl rfl rfl rfl rfl (by cases p <;> rfl) (immOk_pred rfl) rfl
    (by (conv => (lhs; whnf)); simp only [enc, regV_ev, pred_tail] <;> rfl)

theorem vsub (t : Ty) (rm : Rm) (d : VReg) (a : VReg) (b : VReg) (p : Option PReg) : Statement (.vsub t rm d a b p) := by
  intro f hw hf
  cases hf
  cases t <;> cases rm <;> cases hw <;>
  exact decode_ok rfl (by cases p <;> rfl) rfl rfl rfl rfl rfl rfl rfl rfl (by cases p <;> rfl) (immOk_pred rfl) rfl
    (by (conv => (lhs; whnf)); simp only [enc, regV_ev, pred_tail] <;> rfl)

theorem vmul (t : Ty) (rm : Rm) (d : VReg) (a : VReg) (b : VReg) (p : Option PReg) : Statement (.vmul t rm d a b p) := by
  intro f hw hf
  cases hf
  cases t <;> cases rm <;> cases hw <;>
  exact decode_ok rfl (by cases p <;> rfl) rfl rfl rfl rfl rfl rfl rfl rfl (by cases p <;> rfl) (immOk_pred rfl) rfl
    (by (conv => (lhs; whnf)); simp only [enc, regV_ev, pred_tail] <;> rfl)

theorem vmax (t : Ty) (d : VReg) (a : VReg) (b : VReg) (p : Option PReg) : Statement (.vmax t d a b p) := by
  intro f hw hf
  cases hf
  cases t <;> cases hw <;>
  exact decode_ok rfl (by cases p <;> rfl) rfl rfl rfl rfl rfl rfl rfl rfl (by cases p <;> rfl) (immOk_pred rfl) rfl
    (by (conv => (lhs; whnf)); simp only [enc, regV_ev, pred_tail] <;> rfl)

theorem vmin (t : Ty) (d : VReg) (a : VReg) (b : VReg) (p : Option PReg) : Statement (.vmin t d a b p) := by
  intro f hw hf
  cases hf
  cases t <;> cases hw <;>
  exact decode_ok rfl (by cases p <;> rfl) rfl rfl rfl rfl rfl rfl rfl rfl (by cases p <;> rfl) (immOk_pred rfl) rfl
    (by (conv => (lhs; whnf)); simp only [enc, regV_ev, pred_tail] <;> rfl)

theorem vfma (t : Ty) (rm : Rm) (d : VReg) (a : VReg) (b : VReg) (c : VReg) (p : Option PReg) : Statement (.vfma t rm d a b c p) := by
  intro f hw hf
  cases hf
  cases t <;> cases rm <;> cases hw <;>
  exact decode_ok rfl (by cases p <;> rfl) rfl rfl rfl rfl rfl rfl rfl rfl (by cases p <;> rfl) (immOk_fma rfl) rfl
    (by (conv => (lhs; whnf)); simp only [enc, regV_ev, pred_fma, c_fma] <;> rfl)

theorem vfms (t : Ty) (rm : Rm) (d : VReg) (a : VReg) (b : VReg) (c : VReg) (p : Option PReg) : Statement (.vfms t rm d a b c p) := by
  intro f hw hf
  cases hf
  cases t <;> cases rm <;> cases hw <;>
  exact decode_ok rfl (by cases p <;> rfl) rfl rfl rfl rfl rfl rfl rfl rfl (by cases p <;> rfl) (immOk_fma rfl) rfl
    (by (conv => (lhs; whnf)); simp only [enc, regV_ev, pred_fma, c_fma] <;> rfl)

theorem vabs (t : Ty) (d : VReg) (a : VReg) (p : Option PReg) : Statement (.vabs t d a p) := by
  intro f hw hf
  cases hf
  cases t <;> cases hw <;>
  exact decode_ok rfl (by cases p <;> rfl) rfl rfl rfl rfl rfl rfl rfl rfl (by cases p <;> rfl) (immOk_pred rfl) rfl
    (by (conv => (lhs; whnf)); simp only [enc, regV_ev, pred_tail] <;> rfl)

theorem vneg (t : Ty) (d : VReg) (a : VReg) (p : Option PReg) : Statement (.vneg t d a p) := by
  intro f hw hf
  cases hf
  cases t <;> cases hw <;>
  exact decode_ok rfl (by cases p <;> rfl) rfl rfl rfl rfl rfl rfl rfl rfl (by cases p <;> rfl) (immOk_pred rfl) rfl
    (by (conv => (lhs; whnf)); simp only [enc, regV_ev, pred_tail] <;> rfl)

theorem vand (t : Ty) (d : VReg) (a : VReg) (b : VReg) (p : Option PReg) : Statement (.vand t d a b p) := by
  intro f hw hf
  cases hf
  cases t <;> cases hw <;>
  exact decode_ok rfl (by cases p <;> rfl) rfl rfl rfl rfl rfl rfl rfl rfl (by cases p <;> rfl) (immOk_pred rfl) rfl
    (by (conv => (lhs; whnf)); simp only [enc, regV_ev, pred_tail] <;> rfl)

theorem vor (t : Ty) (d : VReg) (a : VReg) (b : VReg) (p : Option PReg) : Statement (.vor t d a b p) := by
  intro f hw hf
  cases hf
  cases t <;> cases hw <;>
  exact decode_ok rfl (by cases p <;> rfl) rfl rfl rfl rfl rfl rfl rfl rfl (by cases p <;> rfl) (immOk_pred rfl) rfl
    (by (conv => (lhs; whnf)); simp only [enc, regV_ev, pred_tail] <;> rfl)

theorem vxor (t : Ty) (d : VReg) (a : VReg) (b : VReg) (p : Option PReg) : Statement (.vxor t d a b p) := by
  intro f hw hf
  cases hf
  cases t <;> cases hw <;>
  exact decode_ok rfl (by cases p <;> rfl) rfl rfl rfl rfl rfl rfl rfl rfl (by cases p <;> rfl) (immOk_pred rfl) rfl
    (by (conv => (lhs; whnf)); simp only [enc, regV_ev, pred_tail] <;> rfl)

theorem vshl (t : Ty) (d : VReg) (a : VReg) (b : VReg) (p : Option PReg) : Statement (.vshl t d a b p) := by
  intro f hw hf
  cases hf
  cases t <;> cases hw <;>
  exact decode_ok rfl (by cases p <;> rfl) rfl rfl rfl rfl rfl rfl rfl rfl (by cases p <;> rfl) (immOk_pred rfl) rfl
    (by (conv => (lhs; whnf)); simp only [enc, regV_ev, pred_tail] <;> rfl)

theorem vshr (t : Ty) (d : VReg) (a : VReg) (b : VReg) (p : Option PReg) : Statement (.vshr t d a b p) := by
  intro f hw hf
  cases hf
  cases t <;> cases hw <;>
  exact decode_ok rfl (by cases p <;> rfl) rfl rfl rfl rfl rfl rfl rfl rfl (by cases p <;> rfl) (immOk_pred rfl) rfl
    (by (conv => (lhs; whnf)); simp only [enc, regV_ev, pred_tail] <;> rfl)

theorem vsra (t : Ty) (d : VReg) (a : VReg) (b : VReg) (p : Option PReg) : Statement (.vsra t d a b p) := by
  intro f hw hf
  cases hf
  cases t <;> cases hw <;>
  exact decode_ok rfl (by cases p <;> rfl) rfl rfl rfl rfl rfl rfl rfl rfl (by cases p <;> rfl) (immOk_pred rfl) rfl
    (by (conv => (lhs; whnf)); simp only [enc, regV_ev, pred_tail] <;> rfl)

theorem vcmp (t : Ty) (k : Rel) (d : PReg) (a : VReg) (b : VReg) (p : Option PReg) : Statement (.vcmp t k d a b p) := by
  intro f hw hf
  cases hf
  cases t <;> cases k <;> cases hw <;>
  exact decode_ok rfl (by cases p <;> rfl) rfl rfl rfl (regOk_p ..) rfl rfl rfl rfl (by cases p <;> rfl) (immOk_pred rfl) rfl
    (by (conv => (lhs; whnf)); simp only [enc, regP_ep, regV_ev, pred_tail] <;> rfl)

theorem vsel (t : Ty) (d : VReg) (a : VReg) (b : VReg) (p : PReg) : Statement (.vsel t d a b p) := by
  intro f hw hf
  cases hf
  cases t <;> cases hw <;>
  exact decode_ok rfl rfl rfl rfl rfl rfl rfl rfl rfl rfl rfl (immOk_pred rfl) rfl
    (by (conv => (lhs; whnf)); simp only [enc, regV_ev, sel_tail] <;> rfl)

theorem vcvt (u t : Ty) (rm : Rm) (d : VReg) (a : VReg) (p : Option PReg) : Statement (.vcvt u t rm d a p) := by
  intro f hw hf
  cases hf
  have hc : ∀ x : Ty, x.isCvt = true → cvtCodes.contains (tyCode x) = true := by
    intro x hx; cases x <;> first | rfl | cases hx
  have hu : (BitVec.ofNat 7 (tyCode u)).toNat = tyCode u := by cases u <;> rfl
  simp only [WellFormed, Bool.and_eq_true] at hw
  obtain ⟨⟨⟨h1, h2⟩, h3⟩, h4⟩ := hw
  refine decode_ok (row := ⟨[8, 12], cvtCodes, cvtCodes, .round, .pred, .v, .v, .no, .no⟩) rfl (by cases p <;> rfl)
    ((congrArg _ hu).trans (hc u h1)) ?_ ?_ rfl rfl rfl rfl rfl (by cases p <;> rfl) (immOk_pred rfl) rfl
    (by (conv => (lhs; whnf)); simp only [enc, regV_ev, pred_tail, ty_code, rm_code, hu])
  · have hne : tyCode u ≠ tyCode t := fun e => of_decide_eq_true h3 (by rw [← (ty_code u).2, ← (ty_code t).2, e])
    simp only [typeOk, enc, ty_code, hc t h2, hu]
    exact decide_eq_true hne
  · simp only [qualOk, enc, rm_code, hu]
    cases rm <;> cases u <;> first | rfl | cases h4

theorem vred (t : Ty) (rm : Rm) (d : WReg) (a : VReg) (p : PReg) : Statement (.vred t rm d a p) := by
  intro f hw hf
  cases hf
  cases t <;> cases rm <;> cases hw <;>
  exact decode_ok rfl rfl rfl rfl rfl (regOk_w ..) rfl (regOk_p ..) rfl rfl rfl rfl rfl
    (by (conv => (lhs; whnf)); simp only [enc, regW_ew, regP_ep, regV_ev] <;> rfl)

theorem vcmpm (d : PReg) (a : VReg) (b : WReg) (depth : BitVec 3) (trees : BitVec 6) :
    Statement (.vcmpm d a b depth trees) := by
  intro f hw hf
  cases hf
  have h := pair_trees depth trees
  exact decode_ok rfl rfl rfl rfl rfl (regOk_p ..) rfl (regOk_w ..) rfl rfl rfl rfl
    (by simp [subfieldOk, enc, sub_tail h.1, h.2.1, h.2.2.1, h.2.2.2.1]; exact hw)
    (by (conv => (lhs; whnf)); simp [enc, subfield_tail h.1, regP_ep, regV_ev, regW_ew, h.2.2.2.2])

theorem vleaf (d : VReg) (a : PReg) (depth : BitVec 3) (trees : BitVec 6) : Statement (.vleaf d a depth trees) := by
  intro f hw hf
  cases hf
  have h := pair_trees depth trees
  exact decode_ok rfl rfl rfl rfl rfl rfl (regOk_p ..) rfl rfl rfl rfl rfl
    (by simp [subfieldOk, enc, sub_tail h.1, h.2.1, h.2.2.1, h.2.2.2.1, ev_toNat]; simpa [WellFormed] using hw)
    (by (conv => (lhs; whnf)); simp [enc, subfield_tail h.1, regP_ep, regV_ev, h.2.2.2.2])

theorem vlut (t : Ty) (d : VReg) (a : VReg) (b : WReg) : Statement (.vlut t d a b) := by
  intro f hw hf
  cases hf
  cases t <;> cases hw <;>
  exact decode_ok rfl rfl rfl rfl rfl rfl rfl (regOk_w ..) rfl rfl rfl rfl rfl
    (by (conv => (lhs; whnf)); simp only [enc, regW_ew, regV_ev] <;> rfl)

theorem vquant (t : Ty) (e5 : Bool) (rm : Rm) (d : VReg) (a : VReg) (p : Option PReg) : Statement (.vquant t e5 rm d a p) := by
  intro f hw hf
  cases hf
  simp only [WellFormed, Bool.and_eq_true, decide_eq_true_eq] at hw
  obtain ⟨hw, hp⟩ := hw
  cases t <;> cases e5 <;> first
    | (cases hw.1; done)
    | (cases hw.2; done)
    | exact decode_ok rfl (by cases p <;> rfl) rfl rfl (round_ok _ rm rfl (by decide) rfl) rfl rfl rfl rfl
        (by simp only [parityOk, enc, ev_toNat]; exact decide_eq_true hp) (by cases p <;> rfl) (immOk_pred rfl) rfl
        (by (conv => (lhs; whnf)); simp only [enc, regV_ev, pred_tail, rm_code] <;> rfl)

theorem vdeq (t : Ty) (e5 : Bool) (rm : Rm) (d : VReg) (a : VReg) (p : Option PReg) : Statement (.vdeq t e5 rm d a p) := by
  intro f hw hf
  cases hf
  simp only [WellFormed, Bool.and_eq_true, decide_eq_true_eq] at hw
  obtain ⟨hw, hp⟩ := hw
  cases t <;> cases e5 <;> first
    | (cases hw.1; done)
    | (cases hw.2; done)
    | exact decode_ok rfl (by cases p <;> rfl) rfl rfl (round_ok _ rm rfl (by decide) rfl) rfl rfl rfl rfl
        (by simp only [parityOk, enc, ev_toNat]; exact decide_eq_true hp) (by cases p <;> rfl) (immOk_pred rfl) rfl
        (by (conv => (lhs; whnf)); simp only [enc, regV_ev, pred_tail, rm_code] <;> rfl)

theorem pand (d : PReg) (a : PReg) (b : PReg) : Statement (.pand d a b) := by
  intro f hw hf
  cases hf
  cases hw <;>
  exact decode_ok rfl rfl rfl rfl rfl (regOk_p ..) (regOk_p ..) (regOk_p ..) rfl rfl rfl rfl rfl
    (by (conv => (lhs; whnf)); simp only [enc, regP_ep])

theorem por (d : PReg) (a : PReg) (b : PReg) : Statement (.por d a b) := by
  intro f hw hf
  cases hf
  cases hw <;>
  exact decode_ok rfl rfl rfl rfl rfl (regOk_p ..) (regOk_p ..) (regOk_p ..) rfl rfl rfl rfl rfl
    (by (conv => (lhs; whnf)); simp only [enc, regP_ep])

theorem pxor (d : PReg) (a : PReg) (b : PReg) : Statement (.pxor d a b) := by
  intro f hw hf
  cases hf
  cases hw <;>
  exact decode_ok rfl rfl rfl rfl rfl (regOk_p ..) (regOk_p ..) (regOk_p ..) rfl rfl rfl rfl rfl
    (by (conv => (lhs; whnf)); simp only [enc, regP_ep])

theorem pnot (d : PReg) (a : PReg) : Statement (.pnot d a) := by
  intro f hw hf
  cases hf
  cases hw <;>
  exact decode_ok rfl rfl rfl rfl rfl (regOk_p ..) (regOk_p ..) rfl rfl rfl rfl rfl rfl
    (by (conv => (lhs; whnf)); simp only [enc, regP_ep])

theorem pmov (m : PMove) : Statement (.pmov m) := by
  intro f hw hf
  cases m <;> cases hf
  · exact decode_ok rfl rfl rfl rfl rfl (by simp [regOk, enc, ep_toNat]) (by simp [regOk, enc, ep_toNat]) rfl rfl rfl rfl rfl rfl
      (by (conv => (lhs; whnf)); simp [enc, regP_ep])
  · exact decode_ok rfl rfl rfl rfl rfl (by simp [regOk, enc, ep_toNat]) (by simp [regOk, enc, ew_toNat]) rfl rfl rfl rfl rfl rfl
      (by (conv => (lhs; whnf)); simp [enc, regP_ep, regW_ew])
  · exact decode_ok rfl rfl rfl rfl rfl (by simp [regOk, enc, ew_toNat]) (by simp [regOk, enc, ep_toNat]) rfl rfl rfl rfl rfl rfl
      (by (conv => (lhs; whnf)); simp [enc, regP_ep, regW_ew])

theorem elandGrant (quad : Nat) (tensor : Bool) : Statement (.elandGrant quad tensor) := by
  intro f _ hf
  cases hf

theorem vectorResultWrite (quad : Nat) (entry : Nat) : Statement (.vectorResultWrite quad entry) := by
  intro f _ hf
  cases hf

theorem tcfg (d : WReg) (a : WReg) : Statement (.tcfg d a) := by
  intro f hw hf
  cases hf
  cases hw <;>
  exact decode_ok rfl rfl rfl rfl rfl (regOk_w ..) (regOk_w ..) rfl rfl rfl rfl rfl rfl
    (by (conv => (lhs; whnf)); simp only [enc, regW_ew] <;> rfl)

theorem tcfgClaim (d : WReg) (a : WReg) : Statement (.tcfgClaim d a) := by
  intro f hw hf
  cases hf
  cases hw <;>
  exact decode_ok rfl rfl rfl rfl rfl (regOk_w ..) (regOk_w ..) rfl rfl rfl rfl rfl rfl
    (by (conv => (lhs; whnf)); simp only [enc, regW_ew] <;> rfl)

theorem tcfgRel (d : WReg) (a : WReg) : Statement (.tcfgRel d a) := by
  intro f hw hf
  cases hf
  cases hw <;>
  exact decode_ok rfl rfl rfl rfl rfl (regOk_w ..) (regOk_w ..) rfl rfl rfl rfl rfl rfl
    (by (conv => (lhs; whnf)); simp only [enc, regW_ew] <;> rfl)

theorem arrayReleaseDone (quad : Nat) : Statement (.arrayReleaseDone quad) := by
  intro f _ hf
  cases hf

theorem tldw (a : WReg) : Statement (.tldw a) := by
  intro f hw hf
  cases hf
  cases hw <;>
  exact decode_ok rfl rfl rfl rfl rfl rfl (regOk_w ..) rfl rfl rfl rfl rfl rfl
    (by (conv => (lhs; whnf)); simp only [enc, regW_ew])

theorem planeReady (quad : Nat) (entry : Nat) : Statement (.planeReady quad entry) := by
  intro f _ hf
  cases hf

theorem tsmeta (a : WReg) : Statement (.tsmeta a) := by
  intro f hw hf
  cases hf
  cases hw <;>
  exact decode_ok rfl rfl rfl rfl rfl rfl (regOk_w ..) rfl rfl rfl rfl rfl rfl
    (by (conv => (lhs; whnf)); simp only [enc, regW_ew])

theorem tscq (a : WReg) (count : BitVec 5) : Statement (.tscq a count) := by
  intro f hw hf
  cases hf
  have hn : count.toNat < 2 ^ 24 := by omega
  exact decode_ok rfl rfl rfl rfl rfl rfl (regOk_w ..) rfl rfl rfl rfl rfl
    (by simp only [subfieldOk, enc, sub_tail hn]; exact hw)
    (by (conv => (lhs; whnf)); simp [enc, subfield_tail hn, regW_ew])

theorem tmma (a : WReg) (b : WReg) : Statement (.tmma a b) := by
  intro f hw hf
  cases hf
  cases hw <;>
  exact decode_ok rfl rfl rfl rfl rfl rfl (regOk_w ..) (regOk_w ..) rfl rfl rfl rfl rfl
    (by (conv => (lhs; whnf)); simp only [enc, regW_ew])

theorem tensorStepComplete (quad : Nat) (entry : Nat) : Statement (.tensorStepComplete quad entry) := by
  intro f _ hf
  cases hf

theorem tzero (a : WReg) : Statement (.tzero a) := by
  intro f hw hf
  cases hf
  cases hw <;>
  exact decode_ok rfl rfl rfl rfl rfl rfl (regOk_w ..) rfl rfl rfl rfl rfl rfl
    (by (conv => (lhs; whnf)); simp only [enc, regW_ew])

theorem tdrain (t : Ty) (rm : Rm) (z : Bool) (amax : Option (Scope × WReg)) (a : WReg) (b : WReg) :
    Statement (.tdrain t rm z amax a b) := by
  intro f hw hf
  obtain _ | ⟨sc, c⟩ := amax
  · cases hf
    cases t <;> cases hw <;> cases z <;>
    exact decode_ok rfl rfl rfl rfl (round_ok _ rm rfl (by decide) rfl) rfl (regOk_w ..) (regOk_w ..) rfl rfl
      (by simp [restOk, enc, b2n, Fields.len, Fields.c]) rfl rfl
      (by (conv => (lhs; whnf)); simp only [enc, regW_ew, rm_code, ty_code]; simp [b2n])
  · cases hf
    have h := drain_code z sc
    cases t <;> cases hw <;>
    exact decode_ok rfl rfl ((congrArg _ h.1).trans h.2.1) rfl (round_ok _ rm rfl (by decide) rfl) rfl (regOk_w ..) (regOk_w ..)
      (regOk_w ..) rfl (by simp only [restOk, enc, h.1, h.2.2.1]; rfl) rfl rfl
      (by (conv => (lhs; whnf)); simp only [enc, regW_ew, Fields.c, rm_code, h.1, h.2.2.1, h.2.2.2.1, h.2.2.2.2] <;> rfl)

theorem drainFlagDeposit (msg : Nat) : Statement (.drainFlagDeposit msg) := by
  intro f _ hf
  cases hf

theorem rpt (len : Fin 16) (reps : BitVec 12) (stride : Fin 8) : Statement (.rpt len reps stride) := by
  intro f hw hf
  cases hf
  have h := triple_rpt len reps stride
  exact decode_ok rfl rfl rfl rfl rfl rfl rfl rfl rfl rfl rfl rfl
    (by simp [subfieldOk, enc, sub_tail h.1, h.2.1])
    (by (conv => (lhs; whnf)); simp [enc, subfield_tail h.1, h.2.2])

theorem sequencerPlace (core : Nat) : Statement (.sequencerPlace core) := by
  intro f _ hf
  cases hf

theorem cpy (a : WReg) : Statement (.cpy a) := by
  intro f hw hf
  cases hf
  cases hw <;>
  exact decode_ok rfl rfl rfl rfl rfl rfl (regOk_w ..) rfl rfl rfl rfl rfl rfl
    (by (conv => (lhs; whnf)); simp only [enc, regW_ew])

theorem gbin (a : WReg) : Statement (.gbin a) := by
  intro f hw hf
  cases hf
  cases hw <;>
  exact decode_ok rfl rfl rfl rfl rfl rfl (regOk_w ..) rfl rfl rfl rfl rfl rfl
    (by (conv => (lhs; whnf)); simp only [enc, regW_ew])

theorem operationAccept (cluster : Nat) : Statement (.operationAccept cluster) := by
  intro f _ hf
  cases hf

theorem engineElementDeliver (cluster : Nat) (ch : Nat) : Statement (.engineElementDeliver cluster ch) := by
  intro f _ hf
  cases hf

theorem copyComplete (cluster : Nat) (ch : Nat) : Statement (.copyComplete cluster ch) := by
  intro f _ hf
  cases hf

theorem engineFault (cluster : Nat) (ch : Nat) : Statement (.engineFault cluster ch) := by
  intro f _ hf
  cases hf

theorem gbinExecute (cluster : Nat) (ch : Nat) : Statement (.gbinExecute cluster ch) := by
  intro f _ hf
  cases hf

theorem binr (a : WReg) (ch : Fin 32) : Statement (.binr a ch) := by
  intro f hw hf
  cases hf
  have hn : ch.val < 2 ^ 24 := by omega
  cases hw <;>
  exact decode_ok rfl rfl rfl rfl rfl rfl (regOk_w ..) rfl rfl rfl rfl rfl (by simp [subfieldOk, enc, sub_tail hn])
    (by (conv => (lhs; whnf)); simp [enc, subfield_tail hn, fin32, regW_ew])

theorem binResetExecute (cluster : Nat) (ch : Nat) : Statement (.binResetExecute cluster ch) := by
  intro f _ hf
  cases hf

theorem cpycan (ch : Fin 32) : Statement (.cpycan ch) := by
  intro f hw hf
  cases hf
  have hn : ch.val < 2 ^ 24 := by omega
  cases hw <;>
  exact decode_ok rfl rfl rfl rfl rfl rfl rfl rfl rfl rfl rfl rfl (by simp [subfieldOk, enc, sub_tail hn])
    (by (conv => (lhs; whnf)); simp [enc, subfield_tail hn, fin32])

theorem cpyq (d : WReg) (ch : Fin 32) : Statement (.cpyq d ch) := by
  intro f hw hf
  cases hf
  have hn : ch.val < 2 ^ 24 := by omega
  cases hw <;>
  exact decode_ok rfl rfl rfl rfl rfl (regOk_w ..) rfl rfl rfl rfl rfl rfl (by simp [subfieldOk, enc, sub_tail hn])
    (by (conv => (lhs; whnf)); simp [enc, subfield_tail hn, fin32, regW_ew])

theorem tlread (d : WReg) (tl : Fin 64) : Statement (.tlread d tl) := by
  intro f hw hf
  cases hf
  have hn : tl.val < 2 ^ 24 := by omega
  cases hw <;>
  exact decode_ok rfl rfl rfl rfl rfl (regOk_w ..) rfl rfl rfl rfl rfl rfl (by simp [subfieldOk, enc, sub_tail hn])
    (by (conv => (lhs; whnf)); simp [enc, subfield_tail hn, fin64, regW_ew])

theorem wptr (d : WReg) (ch : Fin 32) : Statement (.wptr d ch) := by
  intro f hw hf
  cases hf
  have hn : ch.val < 2 ^ 24 := by omega
  cases hw <;>
  exact decode_ok rfl rfl rfl rfl rfl (regOk_w ..) rfl rfl rfl rfl rfl rfl (by simp [subfieldOk, enc, sub_tail hn])
    (by (conv => (lhs; whnf)); simp [enc, subfield_tail hn, fin32, regW_ew])

theorem tladv (d : WReg) (tl : Fin 64) : Statement (.tladv d tl) := by
  intro f hw hf
  cases hf
  have hn : tl.val < 2 ^ 24 := by omega
  cases hw <;>
  exact decode_ok rfl rfl rfl rfl rfl (regOk_w ..) rfl rfl rfl rfl rfl rfl (by simp [subfieldOk, enc, sub_tail hn])
    (by (conv => (lhs; whnf)); simp [enc, subfield_tail hn, fin64, regW_ew])

theorem softwareOperationComplete (cluster : Nat) (tl : Nat) (n : Nat) : Statement (.softwareOperationComplete cluster tl n) := by
  intro f _ hf
  cases hf

theorem tlwait (tl : Fin 64) (a : WReg) : Statement (.tlwait tl a) := by
  intro f hw hf
  cases hf
  have hn : tl.val < 2 ^ 24 := by omega
  cases hw <;>
  exact decode_ok rfl rfl rfl rfl rfl rfl (regOk_w ..) rfl rfl rfl rfl rfl (by simp [subfieldOk, enc, sub_tail hn])
    (by (conv => (lhs; whnf)); simp [enc, subfield_tail hn, fin64, regW_ew])

theorem hinit (a : WReg) : Statement (.hinit a) := by
  intro f hw hf
  cases hf
  cases hw <;>
  exact decode_ok rfl rfl rfl rfl rfl rfl (regOk_w ..) rfl rfl rfl rfl rfl rfl
    (by (conv => (lhs; whnf)); simp only [enc, regW_ew])

theorem hld (d : HReg) (a : WReg) (imm : Imm) : Statement (.hld d a imm) := by
  intro f hw hf
  cases hf
  cases imm <;> cases hw <;>
  exact decode_ok rfl rfl rfl rfl rfl (regOk_h ..) (regOk_w ..) rfl rfl rfl rfl rfl rfl
    (by (conv => (lhs; whnf)); simp only [enc, regW_ew, regH_eh] <;> rfl)

theorem hst (a : WReg) (imm : Imm) (b : HReg) : Statement (.hst a imm b) := by
  intro f hw hf
  cases hf
  cases imm <;> cases hw <;>
  exact decode_ok rfl rfl rfl rfl rfl rfl (regOk_w ..) (regOk_h ..) rfl rfl rfl rfl rfl
    (by (conv => (lhs; whnf)); simp only [enc, regW_ew, regH_eh] <;> rfl)

theorem hmov (op : HmovOp) (d : HReg) (a : HReg) (b : HReg) : Statement (.hmov op d a b) := by
  intro f hw hf
  cases hf
  cases op <;> cases b <;> simp [WellFormed] at hw <;>
  exact decode_ok rfl rfl rfl rfl rfl (regOk_h ..) (regOk_h ..) (regOk_h ..) rfl rfl rfl rfl rfl
    (by (conv => (lhs; whnf)); simp only [enc, regH_eh] <;> rfl)

theorem hpop (d : WReg) (a : HReg) : Statement (.hpop d a) := by
  intro f hw hf
  cases hf
  cases hw <;>
  exact decode_ok rfl rfl rfl rfl rfl (regOk_w ..) (regOk_h ..) rfl rfl rfl rfl rfl rfl
    (by (conv => (lhs; whnf)); simp only [enc, regW_ew, regH_eh])

theorem hnext (d : WReg) (a : HReg) (b : WReg) : Statement (.hnext d a b) := by
  intro f hw hf
  cases hf
  cases hw <;>
  exact decode_ok rfl rfl rfl rfl rfl (regOk_w ..) (regOk_h ..) (regOk_w ..) rfl rfl rfl rfl rfl
    (by (conv => (lhs; whnf)); simp only [enc, regW_ew, regH_eh])

theorem hcmp (t : Ty) (ge : Bool) (a : WReg) (b : WReg) : Statement (.hcmp t ge a b) := by
  intro f hw hf
  cases hf
  cases t <;> cases ge <;> cases hw <;>
  exact decode_ok rfl rfl rfl rfl rfl rfl (regOk_w ..) (regOk_w ..) rfl rfl rfl rfl rfl
    (by (conv => (lhs; whnf)); simp only [enc, regW_ew] <;> rfl)

theorem hfound (a : WReg) : Statement (.hfound a) := by
  intro f hw hf
  cases hf
  cases hw <;>
  exact decode_ok rfl rfl rfl rfl rfl rfl (regOk_w ..) rfl rfl rfl rfl rfl rfl
    (by (conv => (lhs; whnf)); simp only [enc, regW_ew])

theorem hside (set : Bool) (a : WReg) (off : BitVec 6) : Statement (.hside set a off) := by
  intro f hw hf
  cases hf
  have hn : off.toNat < 2 ^ 24 := by omega
  cases set <;>
  exact decode_ok rfl rfl rfl rfl rfl rfl (regOk_w ..) rfl rfl rfl rfl rfl
    (by simp [subfieldOk, enc, sub_tail hn]; exact ⟨by omega, hw⟩)
    (by (conv => (lhs; whnf)); simp [enc, subfield_tail hn, regW_ew, b2n])

theorem hsplit (d : WReg) (imm : BitVec 24) : Statement (.hsplit d imm) := by
  intro f hw hf
  cases hf
  cases hw <;>
  exact decode_ok rfl rfl rfl rfl rfl (regOk_w ..) rfl rfl rfl rfl rfl rfl rfl
    (by (conv => (lhs; whnf)); simp only [enc, regW_ew] <;> rfl)

theorem hmeet (d : WReg) (a : WReg) : Statement (.hmeet d a) := by
  intro f hw hf
  cases hf
  cases hw <;>
  exact decode_ok rfl rfl rfl rfl rfl (regOk_w ..) (regOk_w ..) rfl rfl rfl rfl rfl rfl
    (by (conv => (lhs; whnf)); simp only [enc, regW_ew])

theorem depositDelivery (msg : Nat) : Statement (.depositDelivery msg) := by
  intro f _ hf
  cases hf

theorem afnew (d : AfReg) (a : WReg) (b : WReg) : Statement (.afnew d a b) := by
  intro f hw hf
  cases hf
  cases hw <;>
  exact decode_ok rfl rfl rfl rfl rfl (regOk_af ..) (regOk_w ..) (regOk_w ..) rfl rfl rfl rfl rfl
    (by (conv => (lhs; whnf)); simp only [enc, regW_ew, regAf_eaf])

theorem afadd (d : AfReg) (a : AfReg) (b : AfReg) : Statement (.afadd d a b) := by
  intro f hw hf
  cases hf
  cases hw <;>
  exact decode_ok rfl rfl rfl rfl rfl (regOk_af ..) (regOk_af ..) (regOk_af ..) rfl rfl rfl rfl rfl
    (by (conv => (lhs; whnf)); simp only [enc, regAf_eaf])

theorem afsub (d : AfReg) (a : AfReg) (b : AfReg) : Statement (.afsub d a b) := by
  intro f hw hf
  cases hf
  cases hw <;>
  exact decode_ok rfl rfl rfl rfl rfl (regOk_af ..) (regOk_af ..) (regOk_af ..) rfl rfl rfl rfl rfl
    (by (conv => (lhs; whnf)); simp only [enc, regAf_eaf])

theorem afscl (d : AfReg) (a : AfReg) (b : WReg) : Statement (.afscl d a b) := by
  intro f hw hf
  cases hf
  cases hw <;>
  exact decode_ok rfl rfl rfl rfl rfl (regOk_af ..) (regOk_af ..) (regOk_w ..) rfl rfl rfl rfl rfl
    (by (conv => (lhs; whnf)); simp only [enc, regW_ew, regAf_eaf])

theorem afaddc (d : AfReg) (a : AfReg) (b : WReg) : Statement (.afaddc d a b) := by
  intro f hw hf
  cases hf
  cases hw <;>
  exact decode_ok rfl rfl rfl rfl rfl (regOk_af ..) (regOk_af ..) (regOk_w ..) rfl rfl rfl rfl rfl
    (by (conv => (lhs; whnf)); simp only [enc, regW_ew, regAf_eaf])

theorem afmul (d : AfReg) (a : AfReg) (b : AfReg) : Statement (.afmul d a b) := by
  intro f hw hf
  cases hf
  cases hw <;>
  exact decode_ok rfl rfl rfl rfl rfl (regOk_af ..) (regOk_af ..) (regOk_af ..) rfl rfl rfl rfl rfl
    (by (conv => (lhs; whnf)); simp only [enc, regAf_eaf])

theorem afrelu (d : AfReg) (a : AfReg) : Statement (.afrelu d a) := by
  intro f hw hf
  cases hf
  cases hw <;>
  exact decode_ok rfl rfl rfl rfl rfl (regOk_af ..) (regOk_af ..) rfl rfl rfl rfl rfl rfl
    (by (conv => (lhs; whnf)); simp only [enc, regAf_eaf])

theorem afcond (d : AfReg) (a : AfReg) (b : WReg) (cap : BitVec 4) : Statement (.afcond d a b cap) := by
  intro f hw hf
  cases hf
  have hn : cap.toNat < 2 ^ 24 := by omega
  exact decode_ok rfl rfl rfl rfl rfl (regOk_af ..) (regOk_af ..) (regOk_w ..) rfl rfl rfl rfl
    (by simp only [subfieldOk, enc, sub_tail hn]; exact hw)
    (by (conv => (lhs; whnf)); simp [enc, subfield_tail hn, regW_ew, regAf_eaf])

theorem afrng (t : Ty) (d : WReg) (a : AfReg) : Statement (.afrng t d a) := by
  intro f hw hf
  cases hf
  cases t <;> simp [WellFormed] at hw
  · exact decode_ok rfl rfl rfl rfl rfl (regOk_w ..) (regOk_af ..) rfl rfl rfl rfl rfl rfl
      (by (conv => (lhs; whnf)); simp only [enc, regW_ew, regAf_eaf] <;> rfl)
  · exact decode_ok rfl rfl rfl rfl rfl (regOk_w ..) (regOk_af ..) rfl rfl (by simpa [parityOk, enc, ew_toNat, tyCode] using hw)
      rfl rfl rfl (by (conv => (lhs; whnf)); simp only [enc, regW_ew, regAf_eaf] <;> rfl)

theorem afld (d : AfReg) (a : WReg) (imm : Imm) : Statement (.afld d a imm) := by
  intro f hw hf
  cases hf
  cases imm <;> cases hw <;>
  exact decode_ok rfl rfl rfl rfl rfl (regOk_af ..) (regOk_w ..) rfl rfl rfl rfl rfl rfl
    (by (conv => (lhs; whnf)); simp only [enc, regW_ew, regAf_eaf] <;> rfl)

theorem afst (a : WReg) (imm : Imm) (b : AfReg) : Statement (.afst a imm b) := by
  intro f hw hf
  cases hf
  cases imm <;> cases hw <;>
  exact decode_ok rfl rfl rfl rfl rfl rfl (regOk_w ..) (regOk_af ..) rfl rfl rfl rfl rfl
    (by (conv => (lhs; whnf)); simp only [enc, regW_ew, regAf_eaf] <;> rfl)

theorem afmov (d : AfReg) (a : AfReg) : Statement (.afmov d a) := by
  intro f hw hf
  cases hf
  cases hw <;>
  exact decode_ok rfl rfl rfl rfl rfl (regOk_af ..) (regOk_af ..) rfl rfl rfl rfl rfl rfl
    (by (conv => (lhs; whnf)); simp only [enc, regAf_eaf])

theorem afdom (d : WReg) : Statement (.afdom d) := by
  intro f hw hf
  cases hf
  cases hw <;>
  exact decode_ok rfl rfl rfl rfl rfl (regOk_w ..) rfl rfl rfl rfl rfl rfl rfl
    (by (conv => (lhs; whnf)); simp only [enc, regW_ew])

theorem afpack (t : Ty) (d : VReg) (a : AfReg) (b : WReg) : Statement (.afpack t d a b) := by
  intro f hw hf
  cases hf
  cases t <;> cases hw <;>
  exact decode_ok rfl rfl rfl rfl rfl rfl (regOk_af ..) (regOk_w ..) rfl rfl rfl rfl rfl
    (by (conv => (lhs; whnf)); simp only [enc, regW_ew, regV_ev, regAf_eaf] <;> rfl)

theorem afunpk (d : AfReg) (a : VReg) (b : WReg) : Statement (.afunpk d a b) := by
  intro f hw hf
  cases hf
  cases hw <;>
  exact decode_ok rfl rfl rfl rfl rfl (regOk_af ..) rfl (regOk_w ..) rfl rfl rfl rfl rfl
    (by (conv => (lhs; whnf)); simp only [enc, regW_ew, regV_ev, regAf_eaf])

theorem spawn (d : WReg) (a : WReg) : Statement (.spawn d a) := by
  intro f hw hf
  cases hf
  cases hw <;>
  exact decode_ok rfl rfl rfl rfl rfl (regOk_w ..) (regOk_w ..) rfl rfl rfl rfl rfl rfl
    (by (conv => (lhs; whnf)); simp only [enc, regW_ew])

theorem decr (sc : Scope) (a : WReg) : Statement (.decr sc a) := by
  intro f hw hf
  cases hf
  cases sc <;> cases hw <;>
  exact decode_ok rfl rfl rfl rfl rfl rfl (regOk_w ..) rfl rfl rfl rfl rfl rfl
    (by (conv => (lhs; whnf)); simp only [enc, regW_ew] <;> rfl)

theorem renq (a : WReg) (b : WReg) : Statement (.renq a b) := by
  intro f hw hf
  cases hf
  cases hw <;>
  exact decode_ok rfl rfl rfl rfl rfl rfl (regOk_w ..) (regOk_w ..) rfl rfl rfl rfl rfl
    (by (conv => (lhs; whnf)); simp only [enc, regW_ew])

theorem rdeq (d : WReg) (a : WReg) : Statement (.rdeq d a) := by
  intro f hw hf
  cases hf
  cases hw <;>
  exact decode_ok rfl rfl rfl rfl rfl (regOk_w ..) (regOk_w ..) rfl rfl rfl rfl rfl rfl
    (by (conv => (lhs; whnf)); simp only [enc, regW_ew])

theorem eos (stage : Fin 4) : Statement (.eos stage) := by
  intro f hw hf
  cases hf
  have hn : stage.val < 2 ^ 24 := by omega
  cases hw <;>
  exact decode_ok rfl rfl rfl rfl rfl rfl rfl rfl rfl rfl rfl rfl (by simp [subfieldOk, enc, sub_tail hn])
    (by (conv => (lhs; whnf)); simp [enc, subfield_tail hn, fin4])

theorem steal (d : WReg) (a : WReg) : Statement (.steal d a) := by
  intro f hw hf
  cases hf
  cases hw <;>
  exact decode_ok rfl rfl rfl rfl rfl (regOk_w ..) (regOk_w ..) rfl rfl rfl rfl rfl rfl
    (by (conv => (lhs; whnf)); simp only [enc, regW_ew])

theorem borrow (d : WReg) : Statement (.borrow d) := by
  intro f hw hf
  cases hf
  cases hw <;>
  exact decode_ok rfl rfl rfl rfl rfl (regOk_w ..) rfl rfl rfl rfl rfl rfl rfl
    (by (conv => (lhs; whnf)); simp only [enc, regW_ew])

theorem xmv (cls : XClass) (from_ : Bool) (d : BitVec 5) (a : WReg) : Statement (.xmv cls from_ d a) := by
  intro f hw hf
  cases hf
  cases cls <;> cases from_ <;>
  exact decode_ok rfl rfl rfl rfl rfl (by simpa [regOk, enc, xclsCode, b2n, xclsOf, WellFormed] using hw) (regOk_w ..) rfl rfl rfl rfl rfl rfl
    (by (conv => (lhs; whnf)); simp only [enc, regW_ew] <;> rfl)

theorem wid (d : WReg) (sel : Fin 8) : Statement (.wid d sel) := by
  intro f hw hf
  cases hf
  have hn : sel.val < 2 ^ 24 := by omega
  cases hw <;>
  exact decode_ok rfl rfl rfl rfl rfl (regOk_w ..) rfl rfl rfl rfl rfl rfl (by simp [subfieldOk, enc, sub_tail hn])
    (by (conv => (lhs; whnf)); simp [enc, subfield_tail hn, fin8, regW_ew])

theorem barrierOpen (cluster : Nat) (entry : Nat) : Statement (.barrierOpen cluster entry) := by
  intro f _ hf
  cases hf

theorem mfs (d : WReg) (r : SysReg) : Statement (.mfs d r) := by
  intro f hw hf
  cases hf
  have h := sysOf_sysCode r
  exact decode_ok rfl rfl rfl rfl rfl (regOk_w ..) rfl rfl rfl rfl rfl rfl
    (by simp [subfieldOk, enc, sub_tail h.1, h.2.1])
    (by (conv => (lhs; whnf)); simp [enc, subfield_tail h.1, regW_ew, h.2.2])

theorem mts (r : SysReg) (a : WReg) : Statement (.mts r a) := by
  intro f hw hf
  cases hf
  have h := sysOf_sysCode r
  exact decode_ok rfl rfl rfl rfl rfl rfl (regOk_w ..) rfl rfl rfl rfl rfl
    (by simp [subfieldOk, enc, sub_tail h.1, h.2.1])
    (by (conv => (lhs; whnf)); simp [enc, subfield_tail h.1, regW_ew, h.2.2]; cases r <;> first | rfl | cases hw)

theorem mtsWp (a : WReg) : Statement (.mtsWp a) := by
  intro f hw hf
  cases hf
  exact decode_ok rfl rfl rfl rfl rfl rfl (regOk_w ..) rfl rfl rfl rfl rfl rfl
    (by (conv => (lhs; whnf)); simp only [enc, regW_ew, subfield_tail (n := sysCode .wp) (by decide)]; rfl)

theorem mtsAfnext (a : WReg) : Statement (.mtsAfnext a) := by
  intro f hw hf
  cases hf
  exact decode_ok rfl rfl rfl rfl rfl rfl (regOk_w ..) rfl rfl rfl rfl rfl rfl
    (by (conv => (lhs; whnf)); simp only [enc, regW_ew, subfield_tail (n := sysCode .afnext) (by decide)]; rfl)

theorem mtsAflim (a : WReg) : Statement (.mtsAflim a) := by
  intro f hw hf
  cases hf
  exact decode_ok rfl rfl rfl rfl rfl rfl (regOk_w ..) rfl rfl rfl rfl rfl rfl
    (by (conv => (lhs; whnf)); simp only [enc, regW_ew, subfield_tail (n := sysCode .aflim) (by decide)]; rfl)

theorem mtsLmcfg (a : WReg) : Statement (.mtsLmcfg a) := by
  intro f hw hf
  cases hf
  exact decode_ok rfl rfl rfl rfl rfl rfl (regOk_w ..) rfl rfl rfl rfl rfl rfl
    (by (conv => (lhs; whnf)); simp only [enc, regW_ew, subfield_tail (n := sysCode .lmcfg) (by decide)]; rfl)

theorem mtsRrcfg (a : WReg) : Statement (.mtsRrcfg a) := by
  intro f hw hf
  cases hf
  exact decode_ok rfl rfl rfl rfl rfl rfl (regOk_w ..) rfl rfl rfl rfl rfl rfl
    (by (conv => (lhs; whnf)); simp only [enc, regW_ew, subfield_tail (n := sysCode .rrcfg) (by decide)]; rfl)

theorem mtsPushq (a : WReg) : Statement (.mtsPushq a) := by
  intro f hw hf
  cases hf
  exact decode_ok rfl rfl rfl rfl rfl rfl (regOk_w ..) rfl rfl rfl rfl rfl rfl
    (by (conv => (lhs; whnf)); simp only [enc, regW_ew, subfield_tail (n := sysCode .pushq) (by decide)]; rfl)

theorem mtsLease (a : WReg) : Statement (.mtsLease a) := by
  intro f hw hf
  cases hf
  exact decode_ok rfl rfl rfl rfl rfl rfl (regOk_w ..) rfl rfl rfl rfl rfl rfl
    (by (conv => (lhs; whnf)); simp only [enc, regW_ew, subfield_tail (n := sysCode .lease) (by decide)]; rfl)

theorem modeBringWrite (src : ModeSrc) : Statement (.modeBringWrite src) := by
  intro f hw hf
  cases src <;> cases hf
  exact decode_ok rfl rfl rfl rfl rfl rfl (regOk_w ..) rfl rfl rfl rfl rfl rfl
    (by (conv => (lhs; whnf)); simp only [enc, regW_ew, subfield_tail (n := sysCode .mode) (by decide)]; rfl)

theorem trap (code : BitVec 24) : Statement (.trap code) := by
  intro f hw hf
  cases hf
  cases hw <;>
  exact decode_ok rfl rfl rfl rfl rfl rfl rfl rfl rfl rfl rfl rfl rfl
    rfl

theorem brk (code : BitVec 24) : Statement (.brk code) := by
  intro f hw hf
  cases hf
  cases hw <;>
  exact decode_ok rfl rfl rfl rfl rfl rfl rfl rfl rfl rfl rfl rfl rfl
    rfl

theorem mark (code : BitVec 24) : Statement (.mark code) := by
  intro f hw hf
  cases hf
  cases hw <;>
  exact decode_ok rfl rfl rfl rfl rfl rfl rfl rfl rfl rfl rfl rfl rfl
    rfl

theorem gtime (d : WReg) : Statement (.gtime d) := by
  intro f hw hf
  cases hf
  cases hw <;>
  exact decode_ok rfl rfl rfl rfl rfl (regOk_w ..) rfl rfl rfl rfl rfl rfl rfl
    (by (conv => (lhs; whnf)); simp only [enc, regW_ew])

theorem wfeTimeout (ctx : Nat) : Statement (.wfeTimeout ctx) := by
  intro f _ hf
  cases hf

theorem swp (a : WReg) : Statement (.swp a) := by
  intro f hw hf
  cases hf
  cases hw <;>
  exact decode_ok rfl rfl rfl rfl rfl rfl (regOk_w ..) rfl rfl rfl rfl rfl rfl
    (by (conv => (lhs; whnf)); simp only [enc, regW_ew])

theorem ctxs (a : WReg) (b : WReg) : Statement (.ctxs a b) := by
  intro f hw hf
  cases hf
  cases hw <;>
  exact decode_ok rfl rfl rfl rfl rfl rfl (regOk_w ..) (regOk_w ..) rfl rfl rfl rfl rfl
    (by (conv => (lhs; whnf)); simp only [enc, regW_ew])

theorem ctxl (a : WReg) (b : WReg) : Statement (.ctxl a b) := by
  intro f hw hf
  cases hf
  cases hw <;>
  exact decode_ok rfl rfl rfl rfl rfl rfl (regOk_w ..) (regOk_w ..) rfl rfl rfl rfl rfl
    (by (conv => (lhs; whnf)); simp only [enc, regW_ew])

theorem tinv (a : WReg) (b : WReg) (c : WReg) : Statement (.tinv a b c) := by
  intro f hw hf
  cases hf
  cases hw <;>
  exact decode_ok rfl rfl rfl rfl rfl rfl (regOk_w ..) (regOk_w ..) (regOk_w ..) rfl rfl rfl rfl
    (by (conv => (lhs; whnf)); simp only [enc, regW_ew, Fields.c])

theorem udf (bits : BitVec 64) : Statement (.udf bits) := by
  intro f _ hf
  cases hf

theorem teamPlace (part : Nat) : Statement (.teamPlace part) := by
  intro f _ hf
  cases hf

theorem teamSwapOut (cluster : Nat) (entry : Nat) : Statement (.teamSwapOut cluster entry) := by
  intro f _ hf
  cases hf

theorem teamEnd (cluster : Nat) (entry : Nat) : Statement (.teamEnd cluster entry) := by
  intro f _ hf
  cases hf

theorem launchEnd (part : Nat) (ln : Nat) : Statement (.launchEnd part ln) := by
  intro f _ hf
  cases hf

theorem ringDispatch (core : Nat) : Statement (.ringDispatch core) := by
  intro f _ hf
  cases hf

theorem ringEnqueue (msg : Nat) : Statement (.ringEnqueue msg) := by
  intro f _ hf
  cases hf

theorem ringReoffer (held : Nat) : Statement (.ringReoffer held) := by
  intro f _ hf
  cases hf

theorem ringfullTimeout (held : Nat) : Statement (.ringfullTimeout held) := by
  intro f _ hf
  cases hf

theorem governorSample (cluster : Nat) : Statement (.governorSample cluster) := by
  intro f _ hf
  cases hf

theorem eosForward (core : Nat) : Statement (.eosForward core) := by
  intro f _ hf
  cases hf

theorem balancerPass (die : Nat) : Statement (.balancerPass die) := by
  intro f _ hf
  cases hf

theorem migrationCommand (msg : Nat) : Statement (.migrationCommand msg) := by
  intro f _ hf
  cases hf

theorem homeReadRequest (msg : Nat) : Statement (.homeReadRequest msg) := by
  intro f _ hf
  cases hf

theorem forwardedRead (msg : Nat) : Statement (.forwardedRead msg) := by
  intro f _ hf
  cases hf

theorem homeWriteRequest (msg : Nat) : Statement (.homeWriteRequest msg) := by
  intro f _ hf
  cases hf

theorem writeMulticast (msg : Nat) : Statement (.writeMulticast msg) := by
  intro f _ hf
  cases hf

theorem tokenAnswer (msg : Nat) : Statement (.tokenAnswer msg) := by
  intro f _ hf
  cases hf

theorem ownerNotice (msg : Nat) : Statement (.ownerNotice msg) := by
  intro f _ hf
  cases hf

theorem writeBack (msg : Nat) : Statement (.writeBack msg) := by
  intro f _ hf
  cases hf

theorem requestTimeout (holder : Nat) (line : Nat) : Statement (.requestTimeout holder line) := by
  intro f _ hf
  cases hf

theorem persistentRetry (holder : Nat) (line : Nat) : Statement (.persistentRetry holder line) := by
  intro f _ hf
  cases hf

theorem persistentActivate (line : Nat) : Statement (.persistentActivate line) := by
  intro f _ hf
  cases hf

theorem remoteLeaseRead (msg : Nat) : Statement (.remoteLeaseRead msg) := by
  intro f _ hf
  cases hf

theorem remoteWrite (msg : Nat) : Statement (.remoteWrite msg) := by
  intro f _ hf
  cases hf

theorem holdEnd (line : Nat) : Statement (.holdEnd line) := by
  intro f _ hf
  cases hf

theorem leaseExpiry (holder : Nat) (line : Nat) : Statement (.leaseExpiry holder line) := by
  intro f _ hf
  cases hf

theorem driftCheck (die : Nat) : Statement (.driftCheck die) := by
  intro f _ hf
  cases hf

theorem driftTrip (die : Nat) : Statement (.driftTrip die) := by
  intro f _ hf
  cases hf

theorem driftRecovery (die : Nat) : Statement (.driftRecovery die) := by
  intro f _ hf
  cases hf

theorem gtResync (die : Nat) : Statement (.gtResync die) := by
  intro f _ hf
  cases hf

theorem migratedResume (ctx : Nat) : Statement (.migratedResume ctx) := by
  intro f _ hf
  cases hf

theorem snoopTimeout (ctx : Nat) : Statement (.snoopTimeout ctx) := by
  intro f _ hf
  cases hf

theorem peerWriteAck (msg : Nat) : Statement (.peerWriteAck msg) := by
  intro f _ hf
  cases hf

theorem memoryReply (msg : Nat) : Statement (.memoryReply msg) := by
  intro f _ hf
  cases hf

theorem walkComplete (ctx : Nat) : Statement (.walkComplete ctx) := by
  intro f _ hf
  cases hf

theorem kill (ctx : Nat) : Statement (.kill ctx) := by
  intro f _ hf
  cases hf

theorem contextNumberFree (ctx : Nat) : Statement (.contextNumberFree ctx) := by
  intro f _ hf
  cases hf

theorem fatalDump (part : Nat) : Statement (.fatalDump part) := by
  intro f _ hf
  cases hf

theorem spill (ctx : Nat) : Statement (.spill ctx) := by
  intro f _ hf
  cases hf

theorem spillComplete (ctx : Nat) : Statement (.spillComplete ctx) := by
  intro f _ hf
  cases hf

theorem fill (ctx : Nat) : Statement (.fill ctx) := by
  intro f _ hf
  cases hf

theorem watchdogSlotKill (core : Nat) (slot : Nat) : Statement (.watchdogSlotKill core slot) := by
  intro f _ hf
  cases hf

theorem crossTrigger (cluster : Nat) : Statement (.crossTrigger cluster) := by
  intro f _ hf
  cases hf

theorem haltSettled (cluster : Nat) : Statement (.haltSettled cluster) := by
  intro f _ hf
  cases hf

theorem drainComplete (quad : Nat) (entry : Nat) : Statement (.drainComplete quad entry) := by
  intro f _ hf
  cases hf

theorem tinvComplete (id : Nat) : Statement (.tinvComplete id) := by
  intro f _ hf
  cases hf

theorem refusedTokenReturn (msg : Nat) : Statement (.refusedTokenReturn msg) := by
  intro f _ hf
  cases hf

theorem modeBaloffWrite (on : Bool) : Statement (.modeBaloffWrite on) := by
  intro f _ hf
  cases hf

theorem doorbell (part : Nat) (queue : Nat) (tail : Nat) : Statement (.doorbell part queue tail) := by
  intro f _ hf
  cases hf

theorem launch (part : Nat) (queue : Nat) : Statement (.launch part queue) := by
  intro f _ hf
  cases hf

theorem copy (part : Nat) (queue : Nat) : Statement (.copy part queue) := by
  intro f _ hf
  cases hf

theorem mapPageEntries (part : Nat) (queue : Nat) : Statement (.mapPageEntries part queue) := by
  intro f _ hf
  cases hf

theorem mapBar2Placement (part : Nat) (queue : Nat) : Statement (.mapBar2Placement part queue) := by
  intro f _ hf
  cases hf

theorem unmap (part : Nat) (queue : Nat) : Statement (.unmap part queue) := by
  intro f _ hf
  cases hf

theorem fenceCommand (part : Nat) (queue : Nat) : Statement (.fenceCommand part queue) := by
  intro f _ hf
  cases hf

theorem partition (part : Nat) (queue : Nat) : Statement (.partition part queue) := by
  intro f _ hf
  cases hf

theorem dump (part : Nat) (queue : Nat) : Statement (.dump part queue) := by
  intro f _ hf
  cases hf

theorem reset (part : Nat) (queue : Nat) : Statement (.reset part queue) := by
  intro f _ hf
  cases hf

theorem attest (part : Nat) (queue : Nat) : Statement (.attest part queue) := by
  intro f _ hf
  cases hf

theorem update (part : Nat) (queue : Nat) : Statement (.update part queue) := by
  intro f _ hf
  cases hf

theorem imageSwitch (part : Nat) (queue : Nat) : Statement (.imageSwitch part queue) := by
  intro f _ hf
  cases hf

theorem hostRead (addr : Nat) (size : Nat) : Statement (.hostRead addr size) := by
  intro f _ hf
  cases hf

theorem hostWrite (addr : Nat) (data : List Byte) : Statement (.hostWrite addr data) := by
  intro f _ hf
  cases hf

theorem hostOwnershipRequest (line : Nat) (half : Nat) : Statement (.hostOwnershipRequest line half) := by
  intro f _ hf
  cases hf

theorem backInvalidateResponse (line : Nat) (half : Nat) (dirty : Option (List Byte)) : Statement (.backInvalidateResponse line half dirty) := by
  intro f _ hf
  cases hf

theorem hostSnoop (line : Nat) : Statement (.hostSnoop line) := by
  intro f _ hf
  cases hf

theorem scrubVisit (line : Nat) : Statement (.scrubVisit line) := by
  intro f _ hf
  cases hf

theorem uncorrectableError (line : Nat) : Statement (.uncorrectableError line) := by
  intro f _ hf
  cases hf

theorem coreReset (core : Nat) : Statement (.coreReset core) := by
  intro f _ hf
  cases hf

theorem clusterReset (cluster : Nat) : Statement (.clusterReset cluster) := by
  intro f _ hf
  cases hf

theorem partitionReset (part : Nat) : Statement (.partitionReset part) := by
  intro f _ hf
  cases hf

theorem powerOn (cxlen : Bool) : Statement (.powerOn cxlen) := by
  intro f _ hf
  cases hf

theorem powerSample (watts : Nat) : Statement (.powerSample watts) := by
  intro f _ hf
  cases hf

theorem thermalLimit (die : Nat) (celsius : Nat) : Statement (.thermalLimit die celsius) := by
  intro f _ hf
  cases hf

theorem dbgctlHalt (cluster : Nat) : Statement (.dbgctlHalt cluster) := by
  intro f _ hf
  cases hf

theorem dbgctlResume (cluster : Nat) : Statement (.dbgctlResume cluster) := by
  intro f _ hf
  cases hf

theorem nilogEnable (core : Nat) (value : Word) : Statement (.nilogEnable core value) := by
  intro f _ hf
  cases hf

theorem accountingCounterRead (core : Nat) (which : AcctReg) : Statement (.accountingCounterRead core which) := by
  intro f _ hf
  cases hf

theorem droopTrip (die : Nat) (detector : Nat) : Statement (.droopTrip die detector) := by
  intro f _ hf
  cases hf

theorem registerWrite (r : WinReg) (value : Word) : Statement (.registerWrite r value) := by
  intro f _ hf
  cases hf

theorem peerRead (peer : Nat) (addr : Nat) (size : Nat) : Statement (.peerRead peer addr size) := by
  intro f _ hf
  cases hf

theorem peerWrite (peer : Nat) (addr : Nat) (data : List Byte) : Statement (.peerWrite peer addr data) := by
  intro f _ hf
  cases hf

theorem yield : Statement .yield := by
  intro f hw hf
  cases hf
  cases hw <;>
  exact decode_ok rfl rfl rfl rfl rfl rfl rfl rfl rfl rfl rfl rfl rfl
    rfl

theorem endT : Statement .endT := by
  intro f hw hf
  cases hf
  cases hw <;>
  exact decode_ok rfl rfl rfl rfl rfl rfl rfl rfl rfl rfl rfl rfl rfl
    rfl

theorem icinv : Statement .icinv := by
  intro f hw hf
  cases hf
  cases hw <;>
  exact decode_ok rfl rfl rfl rfl rfl rfl rfl rfl rfl rfl rfl rfl rfl
    rfl

theorem fbar : Statement .fbar := by
  intro f hw hf
  cases hf
  cases hw <;>
  exact decode_ok rfl rfl rfl rfl rfl rfl rfl rfl rfl rfl rfl rfl rfl
    rfl

theorem tswap : Statement .tswap := by
  intro f hw hf
  cases hf
  cases hw <;>
  exact decode_ok rfl rfl rfl rfl rfl rfl rfl rfl rfl rfl rfl rfl rfl
    rfl

theorem twait : Statement .twait := by
  intro f hw hf
  cases hf
  cases hw <;>
  exact decode_ok rfl rfl rfl rfl rfl rfl rfl rfl rfl rfl rfl rfl rfl
    rfl

theorem rptw : Statement .rptw := by
  intro f hw hf
  cases hf
  cases hw <;>
  exact decode_ok rfl rfl rfl rfl rfl rfl rfl rfl rfl rfl rfl rfl rfl
    rfl

theorem hdrop : Statement .hdrop := by
  intro f hw hf
  cases hf
  cases hw <;>
  exact decode_ok rfl rfl rfl rfl rfl rfl rfl rfl rfl rfl rfl rfl rfl
    rfl

theorem cdone : Statement .cdone := by
  intro f hw hf
  cases hf
  cases hw <;>
  exact decode_ok rfl rfl rfl rfl rfl rfl rfl rfl rfl rfl rfl rfl rfl
    rfl

theorem retbr : Statement .retbr := by
  intro f hw hf
  cases hf
  cases hw <;>
  exact decode_ok rfl rfl rfl rfl rfl rfl rfl rfl rfl rfl rfl rfl rfl
    rfl

theorem tbar : Statement .tbar := by
  intro f hw hf
  cases hf
  cases hw <;>
  exact decode_ok rfl rfl rfl rfl rfl rfl rfl rfl rfl rfl rfl rfl rfl
    rfl

theorem eret : Statement .eret := by
  intro f hw hf
  cases hf
  cases hw <;>
  exact decode_ok rfl rfl rfl rfl rfl rfl rfl rfl rfl rfl rfl rfl rfl
    rfl

theorem wfe : Statement .wfe := by
  intro f hw hf
  cases hf
  cases hw <;>
  exact decode_ok rfl rfl rfl rfl rfl rfl rfl rfl rfl rfl rfl rfl rfl
    rfl

theorem tsync : Statement .tsync := by
  intro f hw hf
  cases hf
  cases hw <;>
  exact decode_ok rfl rfl rfl rfl rfl rfl rfl rfl rfl rfl rfl rfl rfl
    rfl

theorem nop : Statement .nop := by
  intro f hw hf
  cases hf
  cases hw <;>
  exact decode_ok rfl rfl rfl rfl rfl rfl rfl rfl rfl rfl rfl rfl rfl
    rfl

theorem pad : Statement .pad := by
  intro f _ hf
  cases hf

theorem deviceReset : Statement .deviceReset := by
  intro f _ hf
  cases hf

theorem linkTraining : Statement .linkTraining := by
  intro f _ hf
  cases hf

theorem securityAlarm : Statement .securityAlarm := by
  intro f _ hf
  cases hf

end Sys2Proof.Laws.RoundTrip
end

