-- ==== Sys2Proof/Laws/Shapes.lean ====
section
/-! SUPPORT. What the shared shapes of the integer instructions do (R303 to R305): the next state of each, said once. -/

namespace Sys2Proof.Machine

open Sys2Proof

/-- A two-source operation writes its result, zero-extended, and passes the instruction. -/
theorem alu2_wrote {s : State} (h : Memory.wf s.mem = true) (f : Nat → Nat → Nat → Nat) (t : Ty) (d a b : WReg)
    (x : BitVec (opBits t))
    (hx : f (opBits t) (s.src s.me.base (opBits t) a) (s.src s.me.base (opBits t) b) % 2 ^ opBits t = x.toNat) :
    ∃ u, alu2 f t d a b s = .next u ∧ WroteW s u d (x.setWidth 64) 8 := by
  refine ⟨_, rfl, ?_⟩
  rw [dst_eq s s.me.base _ d x _ hx]
  exact wroteW_of h d _ 8

/-- A one-source operation writes its result, zero-extended, and passes the instruction. -/
theorem alu1_wrote {s : State} (h : Memory.wf s.mem = true) (f : Nat → Nat → Nat) (t : Ty) (d a : WReg)
    (x : BitVec (opBits t)) (hx : f (opBits t) (s.src s.me.base (opBits t) a) % 2 ^ opBits t = x.toNat) :
    ∃ u, alu1 f t d a s = .next u ∧ WroteW s u d (x.setWidth 64) 8 := by
  refine ⟨_, rfl, ?_⟩
  rw [dst_eq s s.me.base _ d x _ hx]
  exact wroteW_of h d _ 8

/-- A division writes nothing yet: its context waits with the result for 24 cycles. -/
theorem startDiv_waits (s : State) (f : Nat → Nat → Nat → Nat) (t : Ty) (d a b : WReg) :
    ∃ u, startDiv f t d a b s = .next u ∧ u.mem = s.mem ∧ ∀ k, k ≠ s.me.key → u.ctx k = s.ctx k := by
  refine ⟨_, rfl, rfl, fun k hk => ?_⟩
  show (s.setWait s.me.key _).ctx k = _
  exact State.ctx_modCtx_other s _ k _ hk

end Sys2Proof.Machine
end

