-- ==== Sys2Proof/Tests/Slice0.lean ====
section
/-! SUPPORT. The model's own tests: ill-formed terms that `WellFormed` refuses, words written out from the spec's encoding
that decode to the instructions they stand for, and single steps whose results the spec's own examples and tables give. -/

namespace Sys2Proof.Tests

open Sys2Proof Sys2Proof.Machine

set_option maxRecDepth 1000000

/-! ### Well-formedness: one ill-formed term for each check -/

/-- Terms that break one condition each: the type of each family, the length of an immediate, each subfield limit of
R294, each parity, each register limit. -/
theorem test_ill_formed : ([.add .f32 1 2 3, .div .n32 1 2 3, .clz .i32 1 2, .sext .i64 1 2, .addi .nt 1 2 (.i64 1),
    .addi .i32 1 2 (.i24 1), .lea 1 .pc (.i64 0), .bfx false 1 2 60 5, .bfx false 1 2 0 0, .bfi 1 2 1 64, .scmp .n8 .lt 1 2 3,
    .b 1 (.i64 0), .jal 1 (.i64 0), .ld .e4m3 1 (.reg 2) (.i24 0), .st .n8 1 (.i64 0) 2, .ldf 1 2 (.i64 0),
    .push .gz8 .mask 1 0 2 3, .amo .fadd .n32 .plain 1 2 3, .amo .famax .f64 .plain 1 2 3, .amo .add .i32 .plain 1 2 3,
    .cas .i32 .plain 1 2 3 4, .smap 0 7 1 2, .vld .e2m1 1 2 (.i24 0), .vgat .n8 1 2 3, .vbc .gz8 1 2 none,
    .vins .n16 1 2 32, .vslide .n64 1 2 8, .vadd .i32 .rtz 1 2 3 none, .vmax .f64 1 2 3 none, .vfma .i32 .rne 1 2 3 4 none,
    .vabs .n8 1 2 none, .vand .f32 1 2 3 none, .vcmp .gz8 .lt 1 2 3 none, .vcvt .f32 .f32 .rne 1 2 none,
    .vcvt .gz8 .f32 .rup 1 2 none, .vred .n8 .rup 1 2 3, .vcmpm 1 2 3 0 1, .vcmpm 1 2 3 6 2, .vleaf 1 2 1 17,
    .vlut .i8 1 2 3, .vquant .f32 false .rne 1 2 none, .vquant .mxfp4 true .rne 1 2 none, .vquant .mxfp8 false .rne 1 3 none,
    .vdeq .qx4 false .rne 3 2 none, .tscq 1 0, .tscq 1 17, .tdrain .i32 .rne false none 1 2, .hld .hm 1 (.i64 0),
    .hmov .mov .hm .hx .hf, .hcmp .n8 false 1 2, .hside false 1 10, .hside false 1 25, .afcond 1 2 3 9, .afrng .bf16 2 1,
    .afrng .f64 3 1, .afpack .f16 1 2 3, .xmv .p false 8 1, .mts .wp 1, .mts .lease 1, .udf 4, .udf 1] : List Instr).all
      (fun i => !WellFormed i) = true := by decide

/-- The same forms with the condition met. -/
theorem test_well_formed : ([.add .n32 1 2 3, .div .i32 1 2 3, .sext .i32 1 2, .addi .n32 1 2 (.i32 1), .bfx true 1 2 0 64,
    .scmp .f64 .ne 1 2 3, .amo .famax .f32 .plain 1 2 3, .smap 0 6 1 2, .vins .n8 1 2 63, .vslide .n64 1 2 7,
    .vcmpm 1 2 3 6 1, .vleaf 2 2 1 17, .tscq 1 16, .hmov .mov .hx .hf .hm, .hside false 1 62, .afcond 1 2 3 8,
    .afrng .f64 2 1, .xmv .v false 31 1, .mts .hslab 1, .udf 0] : List Instr).all WellFormed = true := by decide

/-! ### Decoding: words written out from the encodings of R287 to R295 -/

/-- The bytes of a word of `n` bytes decode to the instruction, with that length. -/
def decodesTo (p : Nat × Nat × Instr) : Bool :=
  match decode (natBytes p.1 p.2.1) with
  | .ok (i, n) => decide (i = p.2.2) && decide (n = p.1)
  | .error _ => false

/-- The bytes of a word of `n` bytes are refused. -/
def refuses (p : Nat × Nat) : Bool := (match decode (natBytes p.1 p.2) with | .ok _ => false | .error _ => true)

/-- Words of the integer section, written out field by field from R287 to R295. -/
theorem test_decode_integer : ([
    -- add w1, w2, w3
    (8, 0x0000000000310408, .add .nt 1 2 3),
    -- div.i32 w1, w2, w3
    (8, 0x0000000300310420, .div .i32 1 2 3),
    -- addi w3, w3, 1
    (8, 0x0000010000018C10, .addi .nt 3 3 (.i24 1)),
    -- shl.n32 w4, w5, w6
    (8, 0x0000000700629040, .shl .n32 4 5 6),
    -- bfx w1, w2, 5, 7
    (8, 0x0001C50000010470, .bfx false 1 2 5 7),
    -- li w14, 0x7FFF_FFFF, 96-bit form
    (12, 0x7FFFFFFF0000000000003879, .li 14 (.i32 0x7FFFFFFF)),
    -- li w1, 0x0123_4567_89AB_CDEF, 128-bit form
    (16, 0x0123456789ABCDEF000000000000047A, .li 1 (.i64 0x0123456789ABCDEF)),
    -- lea w2, [pc+16]
    (8, 0x000010008000087C, .lea 2 .pc (.i24 16)),
    -- scmp.f32 w4, w2, w3
    (8, 0x0000000A00311080, .scmp .f32 .lt 4 2 3),
    -- sel w1, w2, w3, w4
    (12, 0x000000000000040000310485, .sel 1 2 3 4)] : List (Nat × Nat × Instr)).all decodesTo = true := by decide

/-- Words of the control section, written out field by field from R287 to R295. -/
theorem test_decode_control : ([
    -- b p3, -2
    (8, 0xFFFFFE000001808C, .b 3 (.i24 0xFFFFFE)),
    -- bnz w4, 10
    (8, 0x00000A0000020094, .bnz 4 (.i24 10)),
    -- loop w3, -6
    (8, 0xFFFFFA00000180A8, .loop 3 (.i24 0xFFFFFA)),
    -- jal w15, 0x1000000, 96-bit form
    (12, 0x010000000000000000003C9D, .jal 15 (.i32 0x1000000)),
    -- jalr w15, w7
    (8, 0x000000000003BCA4, .jalr 15 7),
    -- yield
    (8, 0x00000000000000AC, .yield),
    -- end
    (8, 0x00000000000000B0, .endT)] : List (Nat × Nat × Instr)).all decodesTo = true := by decide

/-- Words of the scalar memory section, written out field by field from R287 to R295. -/
theorem test_decode_scalar_memory : ([
    -- ld.f32 w2, [w1+12]
    (8, 0x00000C0A000088C0, .ld .f32 2 (.reg 1) (.i24 12)),
    -- st.n16 [w1+2], w5
    (8, 0x00000206005080C4, .st .n16 1 (.i24 2) 5),
    -- lda.n64.clu w1, [w2]
    (8, 0x00000068000104C8, .lda .n64 .clu 1 2 (.i24 0)),
    -- fence.rel.dev
    (8, 0x000000A0020000D0, .fenceRel .dev),
    -- stf.dev [w1+8], w2
    (8, 0x000008A0002080DC, .stf .dev 1 (.i24 8) 2),
    -- push.n64.list [w1+16], w2, w3
    (12, 0x0000001000000308022080E5, .push .n64 .list 1 16 2 3),
    -- cfl [w3+128]
    (8, 0x00008000000180F4, .cfl 3 (.i24 128)),
    -- amo.add.n64.acqrel.dev w1, [w2], w3
    (8, 0x000000A860310500, .amo .add .n64 (.acqrel .dev) 1 2 3),
    -- cas.n32 w1, [w2], w3, w4
    (12, 0x000000000000040700310505, .cas .n32 .plain 1 2 3 4),
    -- smap.64k 3, w1, w2
    (8, 0x0000030008208108, .smap 3 4 1 2),
    -- swb 7
    (8, 0x0000070000000110, .swb 7)] : List (Nat × Nat × Instr)).all decodesTo = true := by decide

/-- Words of the vector section, written out field by field from R287 to R295. -/
theorem test_decode_vector : ([
    -- vld.f32 v1, [w2+64]
    (8, 0x0000400A00010540, .vld .f32 1 2 (.i24 64)),
    -- vlds.n32 v1, [w2+4], w3
    (8, 0x0000040700310548, .vlds .n32 1 2 (.i24 4) 3),
    -- vsct.n64 [w1], v2, v3
    (12, 0x000000000000030800208151, .vsct .n64 1 2 3),
    -- vadd.f32.rtz v1, v2, v3
    (8, 0x0000002A00310560, .vadd .f32 .rtz 1 2 3 none),
    -- vfma.bf16 v1, v2, v3, v31, p5
    (12, 0x0000000D00001F0C0031056D, .vfma .bf16 .rne 1 2 3 31 (some 5)),
    -- vcmp.f32.eq p2, v3, v4
    (8, 0x0000000A0441899C, .vcmp .f32 .eq 2 3 4 none),
    -- vcvt.bf16.f32 v1, v2
    (8, 0x0000000A180105A4, .vcvt .bf16 .f32 .rne 1 2 none),
    -- vcmpm p2, v0, [w8+0], 3, 4
    (8, 0x00002300008009B4, .vcmpm 2 0 8 3 4),
    -- vred.f32 w1, v2, p3
    (8, 0x0000000A003105A8, .vred .f32 .rne 1 2 3),
    -- vquant.mxfp8, e5m2, v4, v6
    (8, 0x00000011020311C0, .vquant .mxfp8 true .rne 4 6 none),
    -- pxor p1, p2, p3
    (8, 0x0000000000310528, .pxor 1 2 3),
    -- pmov w5, p2
    (8, 0x0000000004011530, .pmov (.wp 5 2))] : List (Nat × Nat × Instr)).all decodesTo = true := by decide

/-- Words of the tensor section, written out field by field from R287 to R295. -/
theorem test_decode_tensor : ([
    -- tcfg.claim w1, w2
    (8, 0x0000000002010600, .tcfgClaim 1 2),
    -- tmma w1, w2
    (8, 0x000000000020820C, .tmma 1 2),
    -- tscq w3, 16
    (8, 0x0000100000018210, .tscq 3 16),
    -- tdrain.bf16.rne.z w1, w2
    (8, 0x0000000C02208214, .tdrain .bf16 .rne true none 1 2),
    -- tdrain.f32.amax.dev w1, w2, w3
    (12, 0x000000000000030A2C208215, .tdrain .f32 .rne false (some (.dev, 3)) 1 2),
    -- rpt 4, 100, 2
    (8, 0x0206330000000224, .rpt 3 99 2)] : List (Nat × Nat × Instr)).all decodesTo = true := by decide

/-- Words of the copy section, written out field by field from R287 to R295. -/
theorem test_decode_copy : ([
    -- cpy w1
    (8, 0x000000000000822C, .cpy 1),
    -- binr w1, 31
    (8, 0x00001F000000823C, .binr 1 31),
    -- tlwait 63, w2
    (8, 0x00003F0000010240, .tlwait 63 2),
    -- wptr w3, 5
    (8, 0x0000050000000E4C, .wptr 3 5)] : List (Nat × Nat × Instr)).all decodesTo = true := by decide

/-- Words of the herd section, written out field by field from R287 to R295. -/
theorem test_decode_herd : ([
    -- hld hx, [w1+32]
    (8, 0x0000200000008684, .hld .hx 1 (.i24 32)),
    -- hcmp.n32.ge w1, w2
    (8, 0x000000070220828C, .hcmp .n32 true 1 2),
    -- hsplit w1, -4
    (8, 0xFFFFFC0000000690, .hsplit 1 0xFFFFFC),
    -- hside.set w1, 24
    (8, 0x000018000200829C, .hside true 1 24),
    -- hmov.andn hm, hx, hf
    (8, 0x00000000062082A8, .hmov .andn .hm .hx .hf),
    -- hdrop
    (8, 0x00000000000002AC, .hdrop)] : List (Nat × Nat × Instr)).all decodesTo = true := by decide

/-- Words of the affine section, written out field by field from R287 to R295. -/
theorem test_decode_affine : ([
    -- afnew af1, w2, w3
    (8, 0x00000000003106C0, .afnew 1 2 3),
    -- afcond af1, af2, w3, 8
    (8, 0x00000800003106E8, .afcond 1 2 3 8),
    -- afrng.f64 w4, af2
    (8, 0x0000000B000112EC, .afrng .f64 4 2),
    -- afst [w1+64], af7
    (8, 0x00004000007082C8, .afst 1 (.i24 64) 7),
    -- afunpk af1, v31, [w3]
    (8, 0x00000000003F86F8, .afunpk 1 31 3)] : List (Nat × Nat × Instr)).all decodesTo = true := by decide

/-- Words of the task section, written out field by field from R287 to R295. -/
theorem test_decode_task : ([
    -- spawn w1, w2
    (8, 0x0000000000010700, .spawn 1 2),
    -- decr.clu w3
    (8, 0x0000006000018304, .decr .clu 3),
    -- eos 2
    (8, 0x0000020000000314, .eos 2),
    -- xmv.v.from v30, v9
    (8, 0x000000000C04FB24, .xmv .v true 30 9),
    -- wid w1, 7
    (8, 0x0000070000000728, .wid 1 7)] : List (Nat × Nat × Instr)).all decodesTo = true := by decide

/-- Words of the system section, written out field by field from R287 to R295. -/
theorem test_decode_system : ([
    -- mfs w4, PUSHST
    (8, 0x0000110000001330, .mfs 4 .pushst),
    -- mts AFLIM, w3
    (8, 0x0000210000018334, .mtsAflim 3),
    -- trap 5
    (8, 0x0000050000000338, .trap 5),
    -- eret
    (8, 0x000000000000033C, .eret),
    -- tinv w1, w2, w3
    (12, 0x00000000000003000020835D, .tinv 1 2 3),
    -- nop
    (8, 0x0000000000000004, .nop),
    -- pad
    (4, 0xFFFFFFFF, .pad)] : List (Nat × Nat × Instr)).all decodesTo = true := by decide

/-- The words of the spec's worked encodings and examples, as it writes them. -/
theorem test_decode_spec_examples : ([
    -- ld.f32 w2, [w1+12]
    (8, 0x00000C0A000088C0, .ld .f32 2 (.reg 1) (.i24 12)),
    -- bnz w4, 10
    (8, 0x00000A0000020094, .bnz 4 (.i24 10)),
    -- li w14, 0x7FFF_FFFF
    (12, 0x7FFFFFFF0000000000003879, .li 14 (.i32 0x7FFFFFFF)),
    -- loop w3, top
    (8, 0xFFFFFA00000180A8, .loop 3 (.i24 0xFFFFFA)),
    -- jalr w15, w7
    (8, 0x000000000003BCA4, .jalr 15 7),
    -- yield
    (8, 0x00000000000000AC, .yield),
    -- end
    (8, 0x00000000000000B0, .endT),
    -- st.n64 [w5+0], w6
    (8, 0x00000008006280C4, .st .n64 5 (.i24 0) 6),
    -- fence.rel.dev
    (8, 0x000000A0020000D0, .fenceRel .dev),
    -- ldf w4, [w3+8]
    (8, 0x00000800000190D4, .ldf 4 3 (.i24 8)),
    -- push.n64.mask [w3+0], w4, w5
    (12, 0x0000000000000508004180E5, .push .n64 .mask 3 0 4 5),
    -- cas.n64 w4, [w2], w5, w6
    (12, 0x000000000000060800511105, .cas .n64 .plain 4 2 5 6),
    -- smap.4k 0, w6, w7
    (8, 0x0000000000730108, .smap 0 0 6 7),
    -- vld.f32 v0, [w1+0]
    (8, 0x0000000A00008140, .vld .f32 0 1 (.i24 0)),
    -- vgat.n32 v4, [w2], v5
    (8, 0x000000070051114C, .vgat .n32 4 2 5),
    -- vcmp.f32.le p3, v1, v2
    (8, 0x0000000A02208D9C, .vcmp .f32 .le 3 1 2 none),
    -- vcvt.bf16.f32.rne v1, v2
    (8, 0x0000000A180105A4, .vcvt .bf16 .f32 .rne 1 2 none),
    -- vred.f32 w5, v3, p1
    (8, 0x0000000A001195A8, .vred .f32 .rne 5 3 1),
    -- vcmpm p2, v0, [w8+0], 3, 4
    (8, 0x00002300008009B4, .vcmpm 2 0 8 3 4),
    -- vlut.gz8 v3, v2, [w9+0]
    (8, 0x0000001700910DBC, .vlut .gz8 3 2 9),
    -- pmov p1, w4
    (8, 0x0000000002020530, .pmov (.pw 1 4)),
    -- tldw w5
    (8, 0x0000000000028204, .tldw 5),
    -- tsmeta w5
    (8, 0x000000000002821C, .tsmeta 5),
    -- tscq w6, 8
    (8, 0x0000080000030210, .tscq 6 8),
    -- tmma w3, w4
    (8, 0x000000000041820C, .tmma 3 4),
    -- tzero w4
    (8, 0x0000000000020218, .tzero 4),
    -- tdrain.bf16.rne w7, w4
    (8, 0x0000000C00438214, .tdrain .bf16 .rne false none 7 4),
    -- tdrain.bf16.rne.amax.dev w7, w4, w9
    (12, 0x000000000000090C2C438215, .tdrain .bf16 .rne false (some (.dev, 9)) 7 4),
    -- hinit w1
    (8, 0x0000000000008280, .hinit 1),
    -- hld hm, [w3+32]
    (8, 0x0000200000018284, .hld .hm 3 (.i24 32)),
    -- hst [w3+32], hx
    (8, 0x0000200000118288, .hst 3 (.i24 32) .hx),
    -- hmov.andn hm, hm, hm
    (8, 0x00000000060002A8, .hmov .andn .hm .hm .hm),
    -- hpop w8, hx
    (8, 0x000000000000A2A0, .hpop 8 .hx),
    -- hnext w3, hf, w2
    (8, 0x0000000000210EA4, .hnext 3 .hf 2),
    -- hcmp.n32.eq w5, w6
    (8, 0x000000070062828C, .hcmp .n32 false 5 6),
    -- hcmp.f32.ge w5, w6
    (8, 0x0000000A0262828C, .hcmp .f32 true 5 6),
    -- hfound w1
    (8, 0x0000000000008298, .hfound 1),
    -- hside.add w9, 8
    (8, 0x000008000004829C, .hside false 9 8),
    -- hsplit w7, right
    (8, 0x00000C0000001E90, .hsplit 7 12),
    -- hmeet w4, w2
    (8, 0x0000000000011294, .hmeet 4 2),
    -- afnew af0, w1, w2
    (8, 0x00000000002082C0, .afnew 0 1 2),
    -- afld af1, [w4+64]
    (8, 0x00004000000206C4, .afld 1 4 (.i24 64)),
    -- afst [w4+0], af5
    (8, 0x00000000005202C8, .afst 4 (.i24 0) 5),
    -- afmov af2, af0
    (8, 0x0000000000000ACC, .afmov 2 0),
    -- afdom w1
    (8, 0x00000000000006F0, .afdom 1),
    -- afpack.bf16 v4, af5, [w7]
    (8, 0x0000000C007292F4, .afpack .bf16 4 5 7),
    -- afunpk af6, v4, [w7]
    (8, 0x0000000000721AF8, .afunpk 6 4 7)] : List (Nat × Nat × Instr)).all decodesTo = true := by decide

/-- Words that R296 refuses: a word with bits 1 and 0 set that is no pad word, an unassigned OP, a class without the 96-bit
form, an FN, a TYPE and a QUAL outside the entry, `w18` and `h3`, a nonzero unused field and bits 63 to 45, and each
kind of subfield outside its limit. -/
theorem test_decode_refusals : ([(4, 0x00000003), (8, 0x00000000000000B4), (12, 0x000000000000000000310409),
    (8, 0x0000000002310408), (8, 0x0000000100310408), (8, 0x00000C4A000088C0), (8, 0x0000000000314808),
    (8, 0x0000000000008E84), (8, 0x00000000001000AC), (12, 0x000000000000200000003879), (8, 0x0000A300008009B4),
    (8, 0x0000110000018210), (8, 0x00000A000001829C), (8, 0x0000FFF000001330)] : List (Nat × Nat)).all refuses = true := by
  decide

/-- An instruction whose length passes the end of its block (R286). -/
theorem test_decode_block_end :
    (match decode (natBytes 4 0x000088C0) with | .error .crossesBlock => true | _ => false) = true := by decide


/-! ### Single steps -/

set_option exponentiation.threshold 600

/-- The state after an action; reset where it stops. -/
def next (o : Host.Outcome State Fault Refusal) : State := match o with | .next t => t | _ => State.reset

/-- Context 7 on slot 2 of core 4, in frame 3, the one thread of a team with domain 5, its PC at 0x10000. -/
def s0 : State :=
  let s := { State.reset with turnCore := 4, turnSlot := 2 }
  let s := s.setSlot 66 { frame := 3, v := true }
  let s := s.setCtx 7 { loc := .frame 4 3, slot := some 66, cluster := 0, entry := 0, born := 1 }
  let s := s.setTeam 0 0 { part := 0, team := some 0, domid := 5, drec := 0x44010, afnext := 1, aflim := 3, members := [7] }
  let s := (s.setWs (wsBase 4 3) offCtxn 7).setPc (wsBase 4 3) 0x10000
  s.setDie 0 { s.die 0 with gt := 5000 }

/-- Its workspace, and a `w` register set. -/
def b0 : Nat := wsBase 4 3
def w (r : WReg) (v : Word) (s : State) : State := s.setW b0 r v
def v (r : VReg) (x : Nat) (s : State) : State := s.setV b0 r (BitVec.ofNat 512 x)
/-- The 4 KiB page at 0x40000 translated to local memory of the issuing core, outside its frames. -/
def lp : Nat := localPa 4 0x90000
def lf : Leaf := { pa := lp, logSize := 12, pol := 0, u := true, x := true, w := true, rd := true }
def s1 : State := tlbInstall 4 (s0.ptroot b0) 0x40000 lf s0
def W (o : Host.Outcome State Fault Refusal) (r : WReg) : Nat := ((next o).getW b0 r).toNat

-- R304: wraps at the operand width, zero-extended.
theorem test_add_wraps : W (exec (.add .n32 1 2 3) (w 2 0xFFFFFFFF (w 3 1 s0))) 1 = 0 := by decide
-- R304: the high halves of −1 times −1 and of 2^64−1 squared.
theorem test_mulh : W (exec (.mulh .nt 1 2 2) (w 2 (-1) s0)) 1 = 0 := by decide
theorem test_mulhn : W (exec (.mulhn .nt 1 2 2) (w 2 (-1) s0)) 1 = 0xFFFFFFFFFFFFFFFE := by decide
-- R304: a division by zero gives all ones; the result comes 24 cycles later.
theorem test_div_zero : ((next (exec (.div .i32 1 2 3) (w 2 9 s0))).waitOf 7) =
    some (.div 1 0xFFFFFFFF 8 24) := by decide
-- R304: the remainder takes the dividend's sign.
theorem test_rem_sign : ((next (exec (.rem .nt 1 2 3) (w 2 (-7) (w 3 2 s0)))).waitOf 7) = some (.div 1 (-1) 8 24) := by decide
-- R304: the shift amount is taken modulo the width.
theorem test_sra_modulo : W (exec (.sra .i32 1 2 3) (w 2 0x80000000 (w 3 33 s0))) 1 = 0xC0000000 := by decide
-- The examples of R305 and R307.
theorem test_sext : W (exec (.sext .i8 2 2) (w 2 0x80 s0)) 2 = 0xFFFFFFFFFFFFFF80 := by decide
theorem test_bfx : W (exec (.bfx true 1 2 4 8) (w 2 0xF80 s0)) 1 = 0xFFFFFFFFFFFFFFF8 := by decide
-- R309, R155: a quiet NaN is unordered and sets no flag; a signalling one sets NV.
theorem test_scmp_nan : let t := next (exec (.scmp .f32 .lt 4 2 3) (w 2 0x7FC00000 s0))
    t.getW b0 4 = 0 ∧ t.ws b0 offFpflags = 0 := by decide
theorem test_scmp_snan : let t := next (exec (.scmp .f32 .ne 4 2 3) (w 2 0x7F800001 s0))
    t.getW b0 4 = 1 ∧ t.ws b0 offFpflags = 8 := by decide
-- R310: `loop` falls through at 1 and is taken at 0, which wraps; the offset counts in 4-byte units.
theorem test_loop_ends : let t := next (exec (.loop 3 (.i24 0xFFFFFA)) (w 3 1 s0))
    t.getW b0 3 = 0 ∧ t.pc b0 = 0x10008 := by decide
theorem test_loop_wraps : let t := next (exec (.loop 3 (.i24 0xFFFFFA)) s0)
    t.getW b0 3 = -1 ∧ t.pc b0 = 0xFFE8 := by decide
-- R311: the target is read before the link is written, and a misaligned one raises #ALIGN with FADDR the target.
theorem test_jalr_same : let t := next (exec (.jalr 7 7) (w 7 0x2000 s0))
    t.getW b0 7 = 0x10008 ∧ t.pc b0 = 0x2000 := by decide
theorem test_jr_misaligned : let t := next (exec (.jr 7) (w 7 0x2002 s0))
    t.rd (b0 + offFault) 1 = 3 ∧ t.rd (b0 + offFault + 24) 8 = 0x2002 ∧ t.pl b0 = true := by decide
-- R402, R243: `trap` records the next instruction as RPC and its code as INFO0.
theorem test_trap : let t := next (exec (.trap 5) s0)
    t.rd (b0 + offFault + 8) 8 = 0x10008 ∧ t.rd (b0 + offFault + 40) 8 = 5 ∧ t.pc b0 = 0 ∧ t.pl b0 = true := by decide
-- R249: `eret` gives back w14, w15 and PL, and goes on at RPC.
theorem test_eret : let t := next (exec .eret (w 14 9 (next (exec (.trap 5) (w 14 77 s0)))))
    t.getW b0 14 = 77 ∧ t.pc b0 = 0x10008 ∧ t.pl b0 = false := by decide
-- R400: a privileged write at PL = 0; R155: the reserved bits of FPFLAGS are not stored.
theorem test_mts_priv : (next (exec (.mts .hslab 1) s0)).rd (b0 + offFault) 1 = 2 := by decide
theorem test_mts_fpflags : (next (exec (.mts .fpflags 1) (w 1 (-1) s0))).ws b0 offFpflags = 15 := by decide
-- R285: a pad word goes on at (PC OR 31) + 1.
theorem test_pad : (next (exec .pad s0)).pc b0 = 0x10020 := by decide
-- R382: the example of `afdom`.
theorem test_afdom : W (exec (.afdom 1) s0) 1 = 0x0000000440100005 := by decide
-- R315: an `i` load sign-extends; a store writes its own bytes only, the low one first.
theorem test_ld_signed : W (exec (.ld .i8 1 (.reg 2) (.i24 1)) (w 2 0x40000 (s1.wr (lp + 1) 1 0x80))) 1 = 0xFFFFFFFFFFFFFF80 := by
  decide
theorem test_st_bytes : let t := next (exec (.st .n16 2 (.i24 2) 3) (w 2 0x40000 (w 3 0xAABBCCDD s1)))
    t.rd lp 8 = 0xCCDD0000 := by decide
-- R325: the old value is returned, the new one stored.
theorem test_amo_max : let t := next (exec (.amo .max .n64 .plain 1 2 3) (w 2 0x40000 (w 3 (-1) (s1.wr lp 8 5))))
    t.getW b0 1 = 5 ∧ t.rd lp 8 = 5 := by decide
-- R317: `ldt` of a full word empties it.
theorem test_ldt : let t := next (exec (.ldt 1 2 (.i24 0)) (w 2 0x40000 { s1.wr lp 8 6 with fe := [lp / 8] }))
    t.getW b0 1 = 6 ∧ t.isFull lp = false := by decide
/-- A vector instruction of core 4 issued, granted, and ended four cycles later (R169 to R171). -/
def vrun (i : Instr) (s : State) : State :=
  let b := next (exec (.elandGrant 1 false) (next (exec i s)))
  next (exec (.vectorResultWrite 1 s.nextId) { b with cycle := b.cycle + 4 })

-- R335: the example of `vslide`.
theorem test_vslide : let t := (vrun (.vslide .n32 1 1 4) (v 1 (7 * 2 ^ 128 + 9 * 2 ^ 480) s0))
    (t.getV b0 1).toNat = 7 + 9 * 2 ^ 352 := by decide
-- R342: the example of `vcvt.e4m3.f32`.
theorem test_vcvt : let t := (vrun (.vcvt .e4m3 .f32 .rne 1 2 none)
      (v 2 (0x3F800000 + 0x43FA0000 * 2 ^ 32 + 0x7FC00000 * 2 ^ 64 + 0xBA83126F * 2 ^ 96) s0))
    (t.getV b0 1).toNat = 0x817F7E38 ∧ t.ws b0 offFpflags = 15 := by decide
-- R166: the worked case of `vred`.
theorem test_vred : let t := (vrun (.vred .f32 .rne 5 3 1)
      ((v 3 (0x3F0CCCCD + 0x40500000 * 2 ^ 32 + 0xBEA66666 * 2 ^ 64 + 0x3F800000 * 2 ^ 96) s0).setP b0 1 0xF))
    (t.getW b0 5).toNat = 0x408F3333 ∧ t.ws b0 offFpflags = 1 := by decide
-- The worked conversions of Gazelle-8.
theorem test_gz8 : let t := (vrun (.vcvt .f32 .gz8 .rne 1 2 none) (v 2 0xA8304840 s0))
    (t.getV b0 1).toNat % 2 ^ 128 = 0xBEA666663F0CCCCD405000003F800000 := by decide
-- Steps 1, 6 and 7 of the worked case of the affine forms.
theorem test_afnew : let t := next (exec (.afnew 0 1 2) (w 2 0x40000000 s0))
    t.getAf b0 0 = 0x3F800000 + 1 * 2 ^ 64 + 0x3F800000 * 2 ^ 80 + 1 * 2 ^ 448 + 5 * 2 ^ 480 ∧
      (t.team 0 0).afnext = 2 := by decide
def af4 (s : State) : State :=
  s.setAf b0 4 (2 * 2 ^ 64 + 0x3F800000 * 2 ^ 80 + 3 * 2 ^ 112 + 0x3F800000 * 2 ^ 128 + 2 * 2 ^ 448 + 5 * 2 ^ 480)
theorem test_afrelu_limit : (next (exec (.afrelu 5 4) (af4 (setPair 0 0 4 3 s0)))).rd (b0 + offFault) 1 = 7 := by decide
theorem test_afrelu : (next (exec (.afrelu 5 4) (af4 (setPair 0 0 4 6 s0)))).getAf b0 5 =
    0x000000003F000000 + 0x00033F0000000002 * 2 ^ 64 + 0x000000043F000000 * 2 ^ 128 + 0x0000000000003F00 * 2 ^ 192 +
      0x0000000500000003 * 2 ^ 448 := by decide
-- R371: the set difference of a register with itself is empty.
theorem test_hmov_andn : (next (exec (.hmov .andn .hm .hm .hm) (s0.setH b0 .hm 0xFF))).getH b0 .hm = 0 := by decide
-- R286, R309: the first step after a word is placed where `step` fetches runs it.
theorem test_first_step : let t := next (step (State.reset.withFetchWord 64 0x0000010000018C10))
    t.getW (wsBase 0 0) 3 = 1 ∧ t.pc (wsBase 0 0) = 8 := by decide

end Sys2Proof.Tests
end

