-- ==== Sys2Proof/Tests/Witnesses.lean ====
section
/-! SUPPORT. For every obligation with hypotheses a concrete state and operands that meet them, clause by clause and at
the boundaries of their ranges: `witness_<obligation>`. -/

namespace Sys2Proof.Tests

open Sys2Proof Sys2Proof.Machine

set_option maxRecDepth 1000000
set_option exponentiation.threshold 1200

/-! ### Integer, control and system instructions -/

/-- At PL = 1, and as a codelet's context. -/
def s0p : State := s0.setPl b0 true
def s0k : State := s0.setWs b0 offCtxn (7 + 2 ^ 24)

/-- A division under way, in its last cycle and in the first cycle after it. -/
def sdiv (c : Nat) : State := { next (exec (.div .i32 1 2 3) (w 2 9 s0)) with cycle := c }
theorem witness_TwoSourceResults : Memory.wf s0.mem = true ∧
    (∀ c ∈ [23, 24], Memory.wf (sdiv c).mem = true ∧ (sdiv c).meOf 7 = some s0.me ∧
      (sdiv c).waitOf 7 = some (.div 1 0xFFFFFFFF 8 24)) ∧ (sdiv 23).cycle < 24 ∧ 24 ≤ (sdiv 24).cycle := by decide
theorem witness_OneSourceResults : Memory.wf s0.mem = true ∧ (Ty.n8.isInt = true ∧ Ty.n8.bits ≠ 64) ∧
    (Ty.i32.isInt = true ∧ Ty.i32.bits ≠ 64) ∧ fieldOk 0 64 = true ∧ fieldOk 63 1 = true := by decide
theorem witness_CompareAndPredicateResults : Memory.wf s0.mem = true := by decide
theorem witness_BranchAndJumpResults : (let s := w 1 0xFFFFFFFFFFFFFFFC s0
      Memory.wf s.mem = true ∧ (s.getW s.me.base 1).toNat % 4 = 0) ∧
    (let s := w 1 1 s0; Memory.wf s.mem = true ∧ (s.getW s.me.base 1).toNat % 4 ≠ 0) := by decide
theorem witness_TrapEntryEffects : (Memory.wf s0.mem = true ∧ s0.pl s0.me.base = false) ∧
    (Memory.wf s0p.mem = true ∧ s0p.pl s0p.me.base = true) := by decide

/-- With BRKCLAIM set; in a handler with an ACTION and an RPC. -/
def sbrk : State := s0.modCluster 0 (fun c => { c with dbg := { c.dbg with brkclaim := true } })
def shand (action rpc : Nat) : State := (s0p.wr (b0 + offFault + 72) 8 action).wr (b0 + offFault + 8) 8 rpc
theorem witness_TrapAndReturnResults : (Memory.wf s0.mem = true ∧ (s0.cluster 0).dbg.brkclaim = false) ∧
    (Memory.wf sbrk.mem = true ∧ (sbrk.cluster (clusterOf sbrk.me.core)).dbg.brkclaim = true ∧
      (sbrk.cluster (clusterOf sbrk.me.core)).dbg.state = 0) ∧
    (∀ a ∈ [0, 1, 2], Memory.wf (shand a 0x10008).mem = true ∧ (shand a 0x10008).pl b0 = true ∧
      (shand a 0x10008).rd (b0 + offFault + 72) 8 = a ∧ (shand a 0x10008).rd (b0 + offFault + 8) 8 % 4 = 0) ∧
    (Memory.wf (shand 0 0x10009).mem = true ∧ (shand 0 0x10009).pl b0 = true ∧
      (shand 0 0x10009).rd (b0 + offFault + 72) 8 = 0 ∧ (shand 0 0x10009).rd (b0 + offFault + 8) 8 % 4 ≠ 0) ∧
    s0.pl b0 = false := by decide
theorem witness_PrivilegeAndPlainResults : Memory.wf s0.mem = true ∧ s0.pl s0.me.base = false ∧
    (s0.getW s0.me.base 1).toNat ≠ s0.numOf s0.me.base ∧ (s0.core s0.me.core).log.en = false ∧ s0.dev.bring = true ∧
    ({ s0 with dev := { s0.dev with bring := false } } : State).dev.bring = false := by decide
theorem witness_SystemRegisterResults : Memory.wf s0.mem = true ∧ s0p.pl s0p.me.base = true := by decide

/-- Context 8 parked in frame 4; `w1` names no frame, frame 3 with V clear, and frame 4. -/
def spark (x : Word) : State := (w 1 x s0p).setCtx 8 { loc := .frame 4 4, cluster := 0, entry := 0, born := 2 }
def afterPark (s : State) : State :=
  (park s.me.key (s.advPc s.me.base 8)).modSlot s.me.slot (fun x => { x with frame := BitVec.ofNat 8 ((s.getW s.me.base 1).toNat / 2 ^ 12 % 256) })
def parked8 : State := afterPark (spark 0x4001)
theorem witness_SlotPointerAndModeWrites :
    ((spark 0x3000).pl (spark 0x3000).me.base = true ∧ ((spark 0x3000).ctx (spark 0x3000).me.key).slot = some (spark 0x3000).me.slot) ∧
    ((spark 0x4001).pl (spark 0x4001).me.base = true ∧ ((spark 0x4001).ctx (spark 0x4001).me.key).slot = some (spark 0x4001).me.slot) ∧
    ((spark 0x40001).pl (spark 0x40001).me.base = true ∧
      ((spark 0x40001).ctx (spark 0x40001).me.key).slot = some (spark 0x40001).me.slot) ∧
    ((spark 0x3000).getW b0 1).toNat % 2 = 0 ∧ ((afterPark (spark 0x40001)).frameList 4).contains 0x40 = false ∧
    ((spark 0x4001).getW b0 1).toNat % 2 = 1 ∧ (parked8.frameList 4).contains 4 = true ∧ parked8.ctxInFrame 4 4 = some 8 ∧
    (parked8.ctx 8).slot = none ∧ (parked8.ctx 8).killing = false := by decide
/-! ### Scalar memory -/

/-- `w2` names the aligned start of the own page; its first word full. -/
def sl : State := w 2 0x40000 s1
def slf : State := { sl with fe := [lp / 8] }
/-- A page of HBM at 0x50000, a line of which the L1 holds with all its tokens, and `w2` in it. -/
def hf : Leaf := { pa := 0x5000, logSize := 12, pol := 0, u := true, x := true, w := true, rd := true }
def sh : State :=
  let s := tlbInstall 4 (s0.ptroot b0) 0x50000 hf s0
  let s := s.setLine 160 { s.line 160 with tokens := 0, owner := false, ownerRec := some 4 }
  w 2 0x50078 (s.setCopy 4 160 { tokens := 512, owner := true, data := some 0x77 })

/-- No context waits where the table says so of each. -/
theorem tget_waits : ∀ (cs : Tbl Ctx) (k : Nat), cs.all (fun e => e.2.wait.isNone) = true → (tget cs k).wait = none
  | [], _, _ => rfl
  | (a, c) :: r, k, h => by
    simp only [List.all_cons, Bool.and_eq_true, Option.isNone_iff_eq_none] at h
    have := tget_waits r k h.2
    unfold tget; split_ifs <;> simp_all; rfl
theorem no_waits {s : State} (h : s.ctxs.all (fun e => e.2.wait.isNone) = true) (k : Nat) : s.waitOf k = none := by
  simp [State.waitOf, State.ctx, tget_waits _ k h]
theorem local_read : LocalAt sl sl.me .read 0x40000 8 lf := by constructor <;> decide
theorem local_read1 : LocalAt sl sl.me .read 0x40FFF 1 lf := by constructor <;> decide
theorem local_write : LocalAt sl sl.me .write 0x40FF8 8 lf := by constructor <;> decide
theorem local_ldf : LocalAt slf slf.me .ldf 0x40000 8 lf ∧ LocalAt slf slf.me .ldt 0x40000 8 lf := by
  constructor <;> constructor <;> decide
theorem local_wait : LocalAt sl sl.me .ldf 0x40000 8 lf ∧ LocalAt sl sl.me .ldt 0x40000 8 lf := by
  constructor <;> constructor <;> decide
theorem local_fill : LocalAt sl sl.me .stf 0x40000 8 lf ∧ LocalAt sl sl.me .clre 0x40000 8 lf := by
  constructor <;> constructor <;> decide
theorem held_line : HeldAt sh sh.me .read 0x50078 8 hf ∧ HeldAt sh sh.me .write 0x50078 8 hf ∧ HeldAt sh sh.me .read 0x50078 1 hf := by
  refine ⟨?_, ?_, ?_⟩ <;> constructor <;> decide
theorem releases : ReleasesNow sl sl.me .slot ∧ ReleasesNow sl sl.me .sys := by unfold ReleasesNow; decide

theorem witness_LocalLoadsAndStores : (sl.eaOf sl.me.base (.reg 2) (.i24 0)).toNat = 0x40000 ∧
    (sl.ea sl.me.base 2 (.i24 0xFF8)).toNat = 0x40FF8 ∧ 0x40000 % tyBytes .n64 = 0 ∧ Memory.wf sl.mem = true ∧
    LocalAt sl sl.me .read 0x40000 8 lf ∧ LocalAt sl sl.me .write 0x40FF8 8 lf ∧
    (LocalAt slf slf.me .ldf 0x40000 8 lf ∧ LocalAt slf slf.me .ldt 0x40000 8 lf ∧ slf.isFull (lf.phys (0x40000 % 2 ^ 57)) = true) ∧
    (LocalAt sl sl.me .stf 0x40000 8 lf ∧ LocalAt sl sl.me .clre 0x40000 8 lf) ∧
    ReleasesNow sl sl.me .slot ∧ ReleasesNow sl sl.me .sys :=
  ⟨by decide, by decide, by decide, by decide, local_read, local_write, ⟨local_ldf.1, local_ldf.2, by decide⟩, local_fill, releases⟩
theorem witness_LocalAccessFrame : Memory.wf sl.mem = true ∧ (sl.ea sl.me.base 2 (.i24 0xFFF)).toNat % tyBytes .n8 = 0 ∧
    LocalAt sl sl.me .read 0x40FFF 1 lf ∧ LocalAt sl sl.me .write 0x40FF8 8 lf :=
  ⟨by decide, by decide, local_read1, local_write⟩
theorem witness_HeldLineAccess : Memory.wf sh.mem = true ∧ (sh.ea sh.me.base 2 (.i24 0)).toNat = 0x50078 ∧ 0x50078 % tyBytes .n64 = 0 ∧
    HeldAt sh sh.me .read 0x50078 8 hf ∧ HeldAt sh sh.me .write 0x50078 8 hf :=
  ⟨by decide, by decide, by decide, held_line.1, held_line.2.1⟩
theorem witness_LocalAtomics : Memory.wf sl.mem = true ∧ (sl.getW sl.me.base 2).toNat = 0x40000 ∧
    ReleasesNow sl sl.me .sys ∧ (AmoOp.minn.tyOk .n64 = true ∧ LocalAt sl sl.me (.amo .minn .n64 (sl.getW sl.me.base 3)) 0x40000 8 lf) ∧
    (AmoOp.famax.tyOk .f32 = true ∧ LocalAt sl sl.me (.amo .famax .f32 (sl.getW sl.me.base 3)) 0x40000 4 lf) ∧
    LocalAt sl sl.me (.cas .n32 (sl.getW sl.me.base 3) (sl.getW sl.me.base 4)) 0x40000 4 lf :=
  ⟨by decide, by decide, releases.2, ⟨by decide, by constructor <;> decide⟩, ⟨by decide, by constructor <;> decide⟩,
    by constructor <;> decide⟩
theorem witness_ScalarAccessFaults : Memory.wf sl.mem = true ∧ (sl.ea sl.me.base 2 (.i24 7)).toNat % tyBytes .n16 ≠ 0 ∧
    (let s := w 2 0x0100000000000000 s1; Memory.wf s.mem = true ∧ (s.ea s.me.base 2 (.i24 0)).toNat % 8 = 0 ∧
      canonicalVa (s.ea s.me.base 2 (.i24 0)).toNat = false) := by decide
/-- A codelet; a context with a write that becomes visible at 6000; one that waits for that time, with GT before it and
at it. -/
def slk : State := w 2 0x40000 (s1.setWs b0 offCtxn (7 + 2 ^ 24))
def svt : State := s0.modCtx 7 (fun c => { c with vtDie0 := 6000 })
def srel (gt : Nat) : State := let s := next (exec (.fenceRel .dev) svt); s.setDie 0 { s.die 0 with gt := gt }
def rts : Nat := svt.releaseTs svt.me .dev 5000
/-- PEND at a number; a peer write outstanding; a context that waits in a block with the steps that follow. -/
def spd (n : Nat) (s : State) : State := s.setWs b0 offPushst (n * 2 ^ 24)
def speer (s : State) : State := s.modCtx 7 (fun c => { c with peerWrites := [3] })
def swt (b : Block) (p : List Micro) (s : State) : State := s.setWait 7 { block := b, cont := { prog := p, issued := 4500 } }
/-- What the clauses of `RELEASE_COMPLETE` share: the context on its slot, and its wait. -/
def waitsIn (s : State) (b : Block) (p : List Micro) : Prop :=
  s.meOf 7 = some s0.me ∧ (s.ctx 7).wait = some { block := b, cont := { prog := p, issued := 4500 } } ∧
    (s.ctx 7).migrating = false
theorem releases_not : ¬ ReleasesNow (spd 1 s0) s0.me .dev ∧ ¬ ReleasesNow (speer s0) s0.me .sys ∧ ¬ ReleasesNow svt s0.me .dev := by
  unfold ReleasesNow; decide
theorem witness_FenceAndWaitResults_waits :
    ((spd 1 s0).me = s0.me ∧ (spd 1 s0).pend b0 ≠ 0) ∧
    ((speer s0).me = s0.me ∧ (speer s0).pend b0 = 0 ∧ ((speer s0).ctx 7).peerWrites ≠ []) ∧
    ¬ ReleasesNow (spd 1 s0) s0.me .dev ∧ ¬ ReleasesNow (speer s0) s0.me .sys ∧ ¬ ReleasesNow svt s0.me .dev :=
  ⟨by decide, by decide, releases_not⟩
theorem witness_FenceAndWaitResults_completes :
    (((srel rts).modCtx 7 (fun c => { c with migrating := true })).ctx 7).migrating = true ∧
    (waitsIn (swt (.release .dev 5000) [.acquire, .adv 8] s0) (.release .dev 5000) [.acquire, .adv 8] ∧ s0.gtOf 4 = 5000) ∧
    (let s := swt .pushPend [.release .dev, .adv 8] (spd 1 s0)
     waitsIn s .pushPend [.release .dev, .adv 8] ∧ s.pend b0 ≠ 0) ∧
    (let s := swt (.peerAcks .sys) [.release .sys, .adv 8] (speer s0)
     waitsIn s (.peerAcks .sys) [.release .sys, .adv 8] ∧ (s.ctx 7).peerWrites ≠ []) ∧
    (let s := swt .pushPend [.release .dev, .acquire, .adv 8] s0
     waitsIn s .pushPend [.release .dev, .acquire, .adv 8] ∧ s.pend b0 = 0 ∧ s.releaseTs s0.me .dev 4500 ≤ s.gtOf 4) ∧
    (let s := swt (.peerAcks .sys) [.release .sys, .adv 8] svt
     waitsIn s (.peerAcks .sys) [.release .sys, .adv 8] ∧ s.pend b0 = 0 ∧ (s.ctx 7).peerWrites = [] ∧
       s.gtOf 4 < s.releaseTs s0.me .sys 4500) := by
  unfold waitsIn; decide
theorem witness_FenceAndWaitResults : (Memory.wf sl.mem = true ∧ (sl.ea sl.me.base 2 (.i24 0)).toNat = 0x40000 ∧
      sl.isFull (lf.phys (0x40000 % 2 ^ 57)) = false ∧ sl.kindOf sl.me.base ≠ 1 ∧ LocalAt sl sl.me .ldf 0x40000 8 lf ∧
      LocalAt sl sl.me .ldt 0x40000 8 lf) ∧
    (Memory.wf slk.mem = true ∧ slk.kindOf slk.me.base = 1 ∧ slk.isFull (lf.phys (0x40000 % 2 ^ 57)) = false ∧
      LocalAt slk slk.me .ldf 0x40000 8 lf) ∧
    ReleasesNow sl sl.me .sys ∧ (svt.pend svt.me.base = 0 ∧ (svt.ctx svt.me.key).peerWrites = [] ∧
      svt.gtOf svt.me.core < svt.releaseTs svt.me .dev (svt.gtOf svt.me.core)) ∧
    (0 < rts ∧ ∀ g ∈ [rts - 1, rts], (srel g).meOf 7 = some s0.me ∧ (srel g).waitOf 7 = some (.release .dev rts) ∧
      (srel g).gtOf 4 = g ∧ ((srel g).ctx 7).wait.map (fun x => x.cont.prog) = some [.adv 8]) :=
  ⟨⟨by decide, by decide, by decide, by decide, local_wait⟩, ⟨by decide, by decide, by decide, by constructor <;> decide⟩,
    releases.2, by decide, by decide⟩
/-- Contexts that wait for the word at the page's start, in frames 4 and 5: an `ldf` before an `ldt`, or the latter alone. -/
def sfew (k f order : Nat) (take : Bool) (s : State) : State :=
  s.setCtx k { loc := .frame 4 f, slot := some (63 + f), wait := some { block := .fe (lp / 8) take order
                                                                        cont := { prog := [.acquire, .finish (.loadW 3 .nt), .adv 8] } } }
def sfe1 (take : Bool) : State := sfew 8 4 3 take sl
def sfe2 (take : Bool) : State := sfew 9 5 6 take (sfe1 false)
def sfe3 : State := sfew 10 6 9 false (sfe2 true)
theorem served_stf (take : Bool) : LocalAt (sfe1 take) (sfe1 take).me .stf 0x40000 8 lf ∧ ReleasesNow (sfe1 take) (sfe1 take).me .slot := by
  constructor
  · cases take <;> constructor <;> decide
  · unfold ReleasesNow; cases take <;> decide
theorem witness_FenceAndWaitResults_served : lp % 8 = 0 ∧ lf.phys (0x40000 % 2 ^ 57) = lp ∧
    (∀ take ∈ [false, true], let s := sfe1 take
      Memory.wf s.mem = true ∧ s.feWaiters lp = [(3, take, 8)] ∧ s.meOf 8 = some { core := 4, slot := 67, base := wsBase 4 4, key := 8 } ∧
      (s.ctx 8).wait.map (fun w => w.cont.prog) = some [.acquire, .finish (.loadW 3 .nt), .adv 8] ∧ (s.core 4).log.en = false ∧
      s.me.key ≠ 8 ∧ s.me.base + 4096 ≤ wsBase 4 4 ∧ wsBase 4 4 + 4096 ≤ lp) ∧
    (∀ take ∈ [false, true], (sfe2 take).feWaiters lp = (3, false, 8) :: [(6, take, 9)]) ∧
    sfe3.feWaiters lp = (3, false, 8) :: (6, true, 9) :: [(9, false, 10)] ∧
    (sfe3.meOf 8 = some { core := 4, slot := 67, base := wsBase 4 4, key := 8 } ∧ wsBase 4 4 + 4096 ≤ wsBase 4 5 ∧
      sfe3.meOf 9 = some { core := 4, slot := 68, base := wsBase 4 5, key := 9 } ∧ wsBase 4 5 + 4096 ≤ lp) := ⟨by decide, by decide, by decide, by decide, by decide, by decide⟩
/-- Targets of a push: none that R319 allows, the issuing core alone, and core 9 by a list. -/
def spush (list : Word) : State := w 4 list sl
theorem witness_PushResults :
    pushTargets (spush 0xFFFFFFFFFFFFFFC0) 4 .list ((spush 0xFFFFFFFFFFFFFFC0).getW b0 4) = none ∧
    (pushTargets (spush 0xFFFFFFFFFFFFFF04) 4 .list ((spush 0xFFFFFFFFFFFFFF04).getW b0 4)).map (fun ts => ts.filter (· ≠ 4)) = some [] ∧
    (pushTargets (spush 0xFFFFFFFFFFFFFF09) 4 .list ((spush 0xFFFFFFFFFFFFFF09).getW b0 4)).map (fun ts => ts.filter (· ≠ 4)) = some [9] ∧
    (spush 0xFFFFFFFFFFFFFF09).pend b0 < 255 ∧ Memory.wf (spush 0xFFFFFFFFFFFFFF09).mem = true ∧
    ((spush 0xFFFFFFFFFFFFFF09).getW b0 2 + (0 : BitVec 32).signExtend 64).toNat = 0x40000 ∧ (lp + 8 ≤ b0 ∨ b0 + 4096 ≤ lp) ∧
    LocalAt (spush 0xFFFFFFFFFFFFFF09) (spush 0xFFFFFFFFFFFFFF09).me .write 0x40000 8 lf ∧ LocalAt (spush 0xFFFFFFFFFFFFFF04) (spush 0xFFFFFFFFFFFFFF04).me .write 0x40000 8 lf ∧
    (let s := w 4 0xFFFFFFFFFFFFFF09 sh; Memory.wf s.mem = true ∧ s.pend b0 < 255 ∧ HeldAt s s.me .write 0x50078 8 hf) ∧
    (let s := spd 255 (spush 0xFFFFFFFFFFFFFF09)
     Memory.wf s.mem = true ∧ pushTargets s 4 .list (s.getW b0 4) = some [9] ∧ s.pend b0 = 255) :=
  ⟨by decide, by decide, by decide, by decide, by decide, by decide, by decide, by constructor <;> decide,
    by constructor <;> decide, ⟨by decide, by decide, by constructor <;> decide⟩, by decide⟩
/-- Window 0: unmapped with a translated page of policy 3 behind `w6`, and mapped; mapped with its first line held, by a
number of tokens and with or without the owner token. -/
def wf3 : Leaf := { pa := 0x8000, logSize := 12, pol := 3, u := true, x := false, w := false, rd := true }
def swin : State := w 7 0x90000 (w 6 0x60000 (tlbInstall 4 (s0.ptroot b0) 0x60000 wf3 s0))
def swinv : State := s0.setWin 4 7 { v := true, vpn := 0x60, lbase := 0x90, size := 0 }
def swinh (n : Nat) (owner : Bool) : State := swinv.setCopy (winHolder 4 7 0) 256 { tokens := n, owner := owner, data := some 0x77 }
/-- A page of HBM that the L1 holds no line of, homed on the own die or the other, and with a half that the host owns; pages
that a prefetch passes; a page that the TLB misses, and its walk, which ends in a fault. -/
def spref (l : Leaf) : State := w 2 0x50000 (tlbInstall 4 (s0.ptroot b0) 0x50000 l s0)
def shost (s : State) : State := s.setLine 160 { s.line 160 with half0 := .he }
def hf1 : Leaf := { hf with pa := 0x7000 }
def smissed : State := next (exec (.pref 2 (.i24 0)) (w 2 0x70000 (s0.setWs b0 offPtroot localBase)))
theorem pref_walk : ∃ cause u, walkNow 4 (smissed.ptroot b0) 0x70000 1 smissed = (.trap cause, u) ∧ (u.core 4).log.en = false ∧
    u.walkSharers { core := 4, pt := smissed.ptroot b0, va := 0x70000, acc := 1 } (.trap cause) = [7] := ⟨_, _, rfl, by decide⟩
theorem witness_LineAndWindowResults_prefetch :
    (let s := w 2 0x70000 s0; (s.ea b0 2 (.i24 0)).toNat = 0x70000 ∧ canonicalVa 0x70000 = true ∧ s.tlbHit 4 (s.ptroot b0) 0x70000 = none) ∧
    (Memory.wf smissed.mem = true ∧ smissed.meOf 7 = some s0.me ∧ smissed.waitOf 7 = some (.walk 4 (smissed.ptroot b0) 0x70000 accRead) ∧
      (smissed.ctx 7).wait.map (fun w => w.cont.prog) = some [.finish .prefetch, .adv 8] ∧
      (smissed.ctx 7).wait.map (fun w => w.cont.elems) = some [{ va := 0x70000, size := 1 }] ∧
      (smissed.ctx 7).wait.map (fun w => w.cont.walked) = some [] ∧ (smissed.ctx 7).wait.map (fun w => w.cont.reg) = some none ∧
      (smissed.ctx 7).migrating = false ∧ smissed.clusterTlb 4 (smissed.ptroot b0) 0x70000 = none ∧
      smissed.tlbHit 4 (smissed.ptroot b0) 0x70000 = none ∧ smissed.walking 7 = true) ∧
    (∀ l ∈ [{ hf with rd := false }, { hf with pol := 2 }, { hf with pa := peerBase }], let s := spref l
      s.tlbHit 4 (s.ptroot b0) 0x50000 = some l ∧ (l.permits { rd := true } (s.pl b0) = false ∨ cacheablePol l.pol = false ∨
        regionOf (l.phys (0x50000 % 2 ^ 57)) = .peer 0)) ∧
    (∀ r ∈ [(spref hf, 160), (spref hf1, 224), (shost (spref hf), 160)], let s := r.1
      Memory.wf s.mem = true ∧ (s.ea b0 2 (.i24 0)).toNat = 0x50000 ∧ s.copy 4 r.2 = {} ∧
        ((tget s.copies 4).filter (fun e => usesFrame e.2)).length < Config.l1Lines ∧ (s.die 0).tripped = none) ∧
    (hf.permits { rd := true } false = true ∧ cacheablePol hf.pol = true ∧ hf.phys (0x50000 % 2 ^ 57) = 0x5000 ∧
      0x5000 < 4 * quarterBytes ∧ (spref hf).snoopHalf 0x5000 1 false = none ∧ (spref hf).homeDie 0x5000 = dieOf 4) ∧
    (hf1.phys (0x50000 % 2 ^ 57) = 0x7000 ∧ (spref hf1).snoopHalf 0x7000 1 false = none ∧ (spref hf1).homeDie 0x7000 ≠ dieOf 4) ∧
    (shost (spref hf)).snoopHalf 0x5000 1 false = some 0 := by decide
theorem witness_LineAndWindowResults :
    canonicalVa ((w 2 0x0100000000000000 s1).ea b0 2 (.i24 0)).toNat = false ∧
    LocalAt sl sl.me .read 0x40FFF 1 lf ∧ HeldAt sh sh.me .read 0x50078 1 hf ∧ (sh.copy 4 160).miss = none ∧
    ((swin.getW b0 6).toNat = 0x60000 ∧ (swin.getW b0 7).toNat = 0x90000 ∧ (swin.win 4 0).v = false ∧
      swin.inGeneral 4 0x90000 4096 = true ∧ swin.meetsWindow 4 0x90000 4096 = false ∧ swin.meetsRing 4 0x90000 4096 = false ∧
      canonicalVa 0x60000 = true ∧ swin.tlbHit 4 (swin.ptroot b0) 0x60000 = some wf3 ∧ wf3.pol = 3 ∧
      wf3.permits { rd := true } (swin.pl b0) = true) ∧
    (s0.win 4 7).v = false ∧ ((swinv.win 4 7).v = true ∧ (swinv.win 4 7).unmapping = false ∧ swinv.windowCopies 4 7 = []) ∧
    (∀ r ∈ [(512, true), (1, true), (1, false)], let s := swinh r.1 r.2
      (s.win 4 7).v = true ∧ (s.win 4 7).unmapping = false ∧ s.windowCopies 4 7 = [(winHolder 4 7 0, 256)] ∧
        s.copy (winHolder 4 7 0) 256 = { tokens := r.1, owner := r.2, data := some 0x77 } ∧ Memory.wf s.mem = true) ∧
    (∀ k w, ((swinh 512 true).ctx k).wait = some w → w.block ≠ .line (winHolder 4 7 0) 256) :=
  ⟨by decide, local_read1, held_line.2.2, by decide, by decide, by decide, by decide, by decide,
    fun k _ h => nomatch (tget_waits (swinh 512 true).ctxs k (by decide)).symm.trans h⟩
/-! ### Vectors and the Eland unit -/

/-- A Bool that decides `LocalAt`, for the elements of a vector access. -/
def localB (s : State) (me : Me) (op : AccOp) (ea n : Nat) (l : Leaf) : Bool :=
  canonicalVa ea && decide (s.tlbHit me.core (s.ptroot me.base) ea = some l) && l.permits op.need (s.pl me.base) &&
    decide (regionOf (l.phys (ea % 2 ^ 57)) = .local me.core) &&
    decide (s.windowAt me.core (l.phys (ea % 2 ^ 57) % 0x100000) = none) && !op.isFe &&
    decide (s.lostIn (l.phys (ea % 2 ^ 57)) n = none) && !l.chk &&
    !(s.die (dieOf me.core)).marked.contains (l.phys (ea % 2 ^ 57) / 128)
theorem localB_at {s : State} {me : Me} {op : AccOp} {ea n : Nat} {l : Leaf} (h : localB s me op ea n l = true) :
    LocalAt s me op ea n l := by
  simp only [localB, Bool.and_eq_true, decide_eq_true_eq, Bool.not_eq_true'] at h
  obtain ⟨⟨⟨⟨⟨⟨⟨⟨h1, h2⟩, h3⟩, h4⟩, h5⟩, h6⟩, h7⟩, h8⟩, h9⟩ := h
  exact ⟨h1, h2, h3, h4, h5, fun h => absurd h (by rw [h6]; decide), h7, h8, h9⟩

/-- `w3` a stride of one word; `w3` a table in the cluster's local space, aligned, misaligned and inside the frames. -/
def sv : State := w 3 4 sl
def stab (a : Word) : State := w 3 a sl
/-- The element at each address is in the own local memory, aligned, and outside the workspace. -/
def clearB (op : AccOp) (u : Nat) (e : Nat) : Bool :=
  localB sv sv.me op e u lf && decide (e % u = 0 ∧ (lf.phys (e % 2 ^ 57) + u ≤ b0 ∨ b0 + 4096 ≤ lf.phys (e % 2 ^ 57)))
theorem unit_free : UnitFree s0 s0.me false ∧ UnitFree (stab 0x490000) (stab 0x490000).me false := by
  unfold UnitFree; decide
theorem witness_VectorMemoryAndTables :
    (Memory.wf sv.mem = true ∧ WellFormed (.vld .n32 1 2 (.i24 0)) = true ∧ WellFormed (.vst .n32 2 (.i24 0) 1) = true ∧
      (wholeAddrs .n32 (sv.ea b0 2 (.i24 0))).all (clearB .read 32) = true ∧
      (wholeAddrs .n32 (sv.ea b0 2 (.i24 4))).all (clearB .write 4) = true ∧
      (strided (sv.ea b0 2 (.i24 0)) (sv.getW b0 3) 16).all (clearB .read 4) = true ∧
      (indexed .n32 (sv.getW b0 2) (sv.getV b0 1).toNat).all (clearB .write 4) = true ∧
      (wholeAddrs .n16 (sv.ea b0 2 (.i24 1))).find? (fun e => e % 2 ≠ 0) = some 0x40001) ∧
    (let s := stab 0x490000
     Memory.wf s.mem = true ∧ UnitFree s s.me false ∧ WellFormed (.vcmpm 1 2 3 1 1) = true ∧ WellFormed (.vlut .n8 1 2 3) = true ∧
      nodeList 1 1 = [0] ∧ s.clusterGeneral 0 0x490000 8 = true ∧ s.clusterWindow 0 0x490000 8 = false ∧
      s.clusterLost 0 0x490000 8 0 1 = none ∧ nodeBad (s.clusterRd 0 0x490000 8) = false ∧
      s.clusterGeneral 0 0x490000 1 = true ∧ s.clusterWindow 0 0x490000 1 = false ∧ s.clusterLost 0 0x490000 1 0 1 = none ∧
      ∀ i, i < 16 → (lane 32 (s.getV b0 2) i).toNat = 0) ∧
    ((stab 0x490001).getW b0 3).toNat % 8 ≠ 0 ∧ s0.clusterGeneral 0 0 8 = false ∧ s0.clusterGeneral 0 0 1 = false :=
  ⟨by decide, ⟨by decide, unit_free.2, by decide, by decide, by decide, by decide, by decide, by decide, by decide, by decide,
    by decide, by decide, by decide⟩, by decide, by decide, by decide⟩
theorem witness_VectorIntegerResults : Memory.wf s0.mem = true ∧ UnitFree s0 s0.me false ∧ Ty.n64.isInt = true ∧
    WellFormed (.vadd .n64 .rne 1 2 3 (some 7)) = true ∧ WellFormed (.vins .n8 1 2 63) = true ∧
    WellFormed (.vslide .n64 1 2 7) = true ∧ WellFormed (.vsel .n8 1 2 3 7) = true :=
  ⟨by decide, unit_free.1, by decide⟩
theorem witness_VectorFloatResults : Memory.wf s0.mem = true ∧ UnitFree s0 s0.me false ∧ Ty.f32.isFlt = true :=
  ⟨by decide, unit_free.1, by decide⟩
theorem witness_VectorShapedResults : Memory.wf s0.mem = true ∧ UnitFree s0 s0.me false ∧ Ty.i8.isInt = true ∧ Ty.bf16.isFlt = true ∧
    WellFormed (.vext .n8 1 2 63) = true ∧ WellFormed (.vcvt .n64 .n8 .rne 1 2 none) = true ∧ WellFormed (.vleaf 2 1 1 32) = true ∧
    WellFormed (.vleaf 31 1 5 2) = true ∧ WellFormed (.vquant .mxint8 false .rne 1 2 none) = true ∧
    WellFormed (.vdeq .mxfp8 true .rup 2 1 none) = true ∧ (∀ i, i < Ty.f32.elems → (s0.getP b0 1).getLsbD i = false) :=
  ⟨by decide, unit_free.1, by decide⟩

/-- A placed entry, and one granted, at the given cycle. -/
def splace : State := s0.modCore 4 (fun c => { c with vlist := [{ ctx := 7, instr := .vand .n8 1 2 3 none, len := 8 }] })
def sgr (c : Nat) : State := { next (exec (.elandGrant 1 false) splace) with cycle := c }
theorem witness_ElandVectorFlow :
    (Memory.wf s0.mem = true ∧ s0.seqCore s0.me.key = none) ∧ splace.seqCore splace.me.key = none ∧
    (∀ i, i < 4 → (splace.core (4 * 1 + ((splace.quad 1).lastV + 1 + i) % 4)).vlist = [] ∨
      (∃ j, j ≤ i ∧ ((splace.quad 1).lastV + 1 + j) % 4 = 0)) ∧
    ((splace.core 4).vlist = [{ ctx := 7, instr := .vand .n8 1 2 3 none, len := 8 }] ∧ splace.baseOf 7 = some b0 ∧
      splace.delivers 7 = true ∧ splace.lostIn b0 4096 = none ∧ regionOf b0 = .local 4 ∧ b0 % 4096 = 0) ∧
    (∃ ws fl, vecValue (fun off n => splace.wsRd b0 off n) 4 (.vand .n8 1 2 3 none) splace = (.writes ws fl, splace)) ∧
    (∀ i, i < 4 → (s0.core (4 * 1 + i)).vlist = []) ∧
    ((sgr 4).dueEntry 1 0 isVectorOp =
        some { id := 0, ctx := 7, instr := .vand .n8 1 2 3 none, len := 8, ready := 4, core := 4, writes := [(offV + 64, 64, 0)] } ∧
      (sgr 4).meOf 7 = some s0.me ∧ s0.me.core < 384 ∧ b0 + 4096 ≤ localPa 4 0x100000 ∧ offV + 64 + 64 ≤ offPc ∧
      (sgr 4).waitOf 7 = some (.granted 1 0)) ∧
    (∀ g ∈ ((sgr 3).quad 1).granted, g.id = 0 → (sgr 3).cycle < g.ready) :=
  ⟨by decide, by decide, by decide, by decide, ⟨_, _, rfl⟩, by decide, by decide, by decide⟩
/-! ### The tensor array and the sequencer -/

/-- The array of quad 1 held by the issuing team, with a configuration, and by another team. -/
def sown (conf : BitVec 20) : State := sl.modQuad 1 (fun q => { q with owner := some (0, 5), conf := conf })
def sother : State := sl.modQuad 1 (fun q => { q with owner := some (0, 6) })
/-- The array in release until cycle 512, a claim waiting for it. -/
def srelease (c : Nat) : State :=
  { (sl.modQuad 1 (fun q => { q with releasing := some 512 })).setWait 7 { block := .claim 1 0 } with cycle := c }
theorem array_free (conf : BitVec 20) (h : conf = 0 ∨ conf = 0x40000 ∨ conf = 0x4000) : UnitFree (sown conf) (sown conf).me true := by
  unfold UnitFree; rcases h with rfl | rfl | rfl <;> decide
theorem witness_ArrayConfiguration :
    (Memory.wf (w 3 0x10101 (sown 0)).mem = true ∧ UnitFree (w 3 0x10101 (sown 0)) (w 3 0x10101 (sown 0)).me true ∧
      confOk (0x10101 - 2 ^ 16) = true ∧ ((sown 0).quad 1).owner = some (0, 5) ∧ (w 3 0x10101 (sown 0)).getW b0 3 = 0x10101) ∧
    (Memory.wf sl.mem = true ∧ (sl.quad 1).owner = none ∧ (sl.quad 1).releasing = none ∧
      sl.domOf 7 = (0, 5)) ∧
    ((sother.quad 1).owner = some (0, 6) ∧ (0, 6) ≠ ((0, 5) : Nat × Nat) ∧ sother.kindOf b0 ≠ 1 ∧
      (sother.setWs b0 offCtxn (7 + 2 ^ 24)).kindOf b0 = 1) ∧ confOk 0x10 = false ∧ confOk 0x60000 = false ∧
    ((srelease 511).quad 1).releasing = some 512 ∧ (srelease 511).cycle < 512 ∧
    (512 ≤ (srelease 512).cycle ∧ ((srelease 512).quad 1).granted = [] ∧ (srelease 512).waitOf 7 = some (.claim 1 0)) :=
  ⟨⟨by decide, by unfold UnitFree; decide, by decide⟩, by decide⟩

/-- A number of `n` masks of 16 set bits, and memory that holds 512 of them at the cluster local address 0x490000. -/
def masks : Nat → Nat
  | 0 => 0
  | n + 1 => 0xFFFF + 2 ^ 128 * masks n
def smask : State := (w 3 0x490000 (sown 0x40000)).wr lp 8192 (masks 512)
theorem masks_lt (n : Nat) : masks n < 256 ^ (16 * n) := by
  induction n with
  | zero => decide
  | succ n ih =>
    have h : 256 ^ (16 * (n + 1)) = 2 ^ 128 * 256 ^ (16 * n) := by
      rw [Nat.mul_add, Nat.pow_add, Nat.mul_comm, show 256 ^ (16 * 1) = 2 ^ 128 from rfl]
    simp only [masks]; omega
theorem masks_mod (n k : Nat) (h : k = 16 * n) : masks n % 256 ^ k = masks n := by subst h; exact Nat.mod_eq_of_lt (masks_lt n)
theorem bits_masks (n : Nat) : ∀ i, i < n → bits (masks n) (128 * i) 128 = 0xFFFF := by
  induction n with
  | zero => omega
  | succ n ih =>
    intro i h
    cases i with
    | zero => simp only [masks, bits]; omega
    | succ i =>
      have := ih i (by omega)
      simp only [masks, bits] at *
      rw [show 128 * (i + 1) = 128 + 128 * i by omega, Nat.pow_add, ← Nat.div_div_eq_div_mul,
        show (65535 + 2 ^ 128 * masks n) / 2 ^ 128 = masks n by omega]
      exact this
theorem clusterRd_wr (s : State) (h : Memory.wf s.mem = true) (k v : Nat) (hk : k ≤ 0x70000) :
    (s.wr lp k v).clusterRd 0 0x490000 k = v % 256 ^ k := by
  have h0 := (s.wr lp k v).rd_lt (clusterPa 0 (0x490000 + k)) 0
  have hc : clusterPa 0 0x490000 = lp := by decide
  have hm : min k (0x100000 - 0x490000 % 0x100000) = k := by omega
  simp only [State.clusterRd, hm, hc, State.rd_wr h, Nat.sub_self]
  rw [show (s.wr lp k v).rd (clusterPa 0 (0x490000 + k)) 0 = 0 by omega, Nat.zero_mul, Nat.add_zero]
theorem smask_read : smask.clusterRd 0 0x490000 8192 = masks 512 :=
  (clusterRd_wr _ (by decide) 8192 (masks 512) (by decide)).trans (masks_mod 512 8192 (by decide))
def sx (x : Word) (conf : BitVec 20) (shadow : Nat) : State :=
  (w 3 x (sown conf)).modQuad 1 (fun q => { q with shadow := { q.shadow with st := shadow }, acc := [(3, 7), (511, 1)] })
theorem witness_ArrayOperandResults :
    (Memory.wf (sx 0x490000 0 2).mem = true ∧ UnitFree (sx 0x490000 0 0) (sx 0x490000 0 0).me true ∧
      (sx 0x490000 0 0).holdsArray 1 7 = true ∧
      (0x490000 % 32 = 0 ∧ (sx 0x490000 0 0).clusterGeneral 0 0x490000 32768 = true ∧
        (sx 0x490000 0 0).clusterWindow 0 0x490000 32768 = false ∧ (sx 0x490000 0 0).clusterLost 0 0x490000 32768 0 1 = none) ∧
      (shapeOf 0).2.1 * 128 * codeBits (confWel 0) / 8 = 32768) ∧
    (confSp 0x40000 ≠ 0 ∧ (sown 0x40000).holdsArray 1 7 = true ∧ (sown 0x40000).clusterGeneral 0 0x490000 8192 = true ∧
      (sown 0x40000).clusterWindow 0 0x490000 8192 = false ∧ (sown 0x40000).clusterLost 0 0x490000 8192 0 1 = none ∧ sparseN (confSp 0x40000) = 16) ∧
    (WellFormed (.tscq 3 16) = true ∧ confWsc 0x4000 ≠ 0 ∧ ((sx 0x490000 0x4000 0).quad 1).scaleQ.length + 16 ≤ 16 ∧
      (sx 0x490000 0x4000 0).clusterGeneral 0 0x490000 2048 = true ∧ (sx 0x490000 0x4000 0).clusterWindow 0 0x490000 2048 = false ∧
      (sx 0x490000 0x4000 0).clusterLost 0 0x490000 2048 0 1 = none) ∧
    ((sx 0 0 2).quad 1).shadow.st ≠ 0 ∧ UnitFree (sx 0 0 2) (sx 0 0 2).me true ∧ ((sx 0 0 0).quad 1).shadow.st = 0 ∧
    (bits (511 * 2 ^ 10) 19 6 = 0 ∧ stepAcc (511 * 2 ^ 10) + stepRows (511 * 2 ^ 10) ≤ 512 ∧
      (((sx (511 * 2 ^ 10) 0 0).quad 1).acc.map Prod.fst).Pairwise (· < ·)) :=
  ⟨⟨by decide, by unfold UnitFree; decide, by decide⟩, by decide, by decide, by decide, by unfold UnitFree; decide, by decide, by decide⟩
theorem witness_smask : Memory.wf smask.mem = true ∧
    ∀ i, i < 512 → popCount 128 (bits (smask.clusterRd 0 0x490000 8192) (128 * i) 128) = sparseN (confSp 0x40000) :=
  ⟨State.wr_wf _ _ _ (by decide), fun i h => by rw [smask_read, bits_masks 512 i h]; decide⟩

/-- One row into the last row of the accumulator, activations at 0x490000, the active plane READY. -/
def stepw : Nat := 511 * 2 ^ 10 + 8 * 2 ^ 25
def sstep (st : Nat) : State :=
  (w 4 (BitVec.ofNat 64 stepw) (w 3 0x490000 (sown 0))).modQuad 1 (fun q => { q with active := { q.active with st := st } })
theorem witness_ArrayStepResult :
    (Memory.wf (sstep 2).mem = true ∧ UnitFree (sstep 2) (sstep 2).me true ∧ (sstep 2).holdsArray 1 7 = true ∧
      ((sstep 2).quad 1).active.st = 2 ∧ ((sstep 2).getW b0 3).toNat = 0x490000 ∧ ((sstep 2).getW b0 4).toNat = stepw ∧
      bits stepw 19 6 = 0 ∧ stepAcc stepw + stepRows stepw ≤ 512 ∧ (shapeOf 0).1 * codeBits (confAel 0) / 8 ≤ stepStride stepw ∧
      confAsc 0 = 0 ∧ stepRows stepw = 1 ∧ (sstep 2).clusterGeneral 0 0x490000 256 = true ∧ (sstep 2).clusterWindow 0 0x490000 256 = false ∧
      (sstep 2).clusterLost 0 0x490000 256 0 1 = none) ∧
    ((sstep 0).quad 1).active.st = 0 ∧ bits (2 ^ 24) 19 6 ≠ 0 ∧ 512 < stepAcc (511 * 2 ^ 10 + 1) + stepRows (511 * 2 ^ 10 + 1) :=
  ⟨⟨by decide, by unfold UnitFree; decide, by decide⟩, by decide⟩

/-- The same row drained; an entry of the array, granted, at a cycle; flags of a drain in flight. -/
def drainw : Nat := 511 * 2 ^ 10 + 16 * 2 ^ 25
def sdrain : State := w 4 (BitVec.ofNat 64 drainw) (w 3 0x490000 (sown 0))
def gran (i : Instr) : Granted := { id := 9, ctx := 7, instr := i, ready := 4 }
def sgrant (i : Instr) (c : Nat) : State :=
  { ((sown 0).modQuad 1 (fun q => { q with granted := [gran i], shadow := { q.shadow with st := 1, loader := 9 } })).setWait 7
      { block := .granted 1 9 } with cycle := c }
def sflag : State := { s0 with net := [{ id := 5, body := .drainFlags 7 15 4 }] }
theorem witness_ArrayDrainResult :
    (Memory.wf sdrain.mem = true ∧ UnitFree sdrain sdrain.me true ∧ WellFormed (.tdrain .f32 .rne true none 3 4) = true ∧
      sdrain.me.core < 384 ∧ sdrain.holdsArray 1 7 = true ∧ bits drainw 19 6 = 0 ∧ stepAcc drainw + stepRows drainw ≤ 512 ∧
      128 * tyBytes .f32 ≤ stepStride drainw ∧
      0x490000 / 0x100000 = (0x490000 + stepRows drainw * stepStride drainw) / 0x100000 ∧
      0x490000 + stepRows drainw * stepStride drainw < 2 ^ 23 ∧
      (b0 + 4096 ≤ clusterPa 0 0x490000 ∨ clusterPa 0 0x490000 + stepRows drainw * stepStride drainw ≤ b0) ∧ stepRows drainw = 1 ∧
      sdrain.clusterGeneral 0 0x490000 512 = true ∧ sdrain.clusterWindow 0 0x490000 512 = false ∧
      sdrain.clusterLost 0 0x490000 512 0 1 = none) ∧
    ([Instr.tldw 1, .tmma 1 2, .tdrain .f32 .rne true none 3 4].all (fun i => decide (
      (sgrant i 3).meOf 7 = some s0.me ∧ (sgrant i 3).waitOf 7 = some (.granted 1 9) ∧ ((sgrant i 3).quad 1).granted = [gran i] ∧
      (sgrant i 3).delivers 7 = true ∧ (sgrant i 3).cycle < (gran i).ready ∧ (gran i).ready ≤ (sgrant i 4).cycle ∧
      ((sgrant i 4).quad 1).shadow.loader = 9 ∧ ((sgrant i 4).quad 1).shadow.st = 1 ∧ b0 + 4096 ≤ localPa 4 0x100000))) = true ∧
    (sflag.msg? 5 = some (.drainFlags 7 15 4) ∧ (sflag.core 4).log.en = false ∧ sflag.meOf 7 = some s0.me ∧ sflag.halted 0 = false ∧ (sflag.ctx 7).ended = false ∧
      sflag.waitOf 7 = none) :=
  ⟨⟨by decide, by unfold UnitFree; decide, by decide⟩, by decide, by decide⟩

/-- `rpt 0, 0, 1` at 0x40000 in the fetched block, with one instruction of the vector section behind it, or with one of
another section; the buffer of another context; a codelet; a PC that no fetch reaches. -/
def blk (i : Instr) : BitVec 256 := BitVec.ofNat 256 (2 ^ 64 * leNat ((encode i).getD []))
def sblk (i : Instr) : State := (s1.setPc b0 0x40000).modSlot 66 (fun x => { x with block := some (0x40000, blk i) })
def srpt : State := sblk (.vand .n8 1 2 3 none)
def sbuf : State := srpt.modCore 4 (fun c => { c with seq := { c.seq with ctx := some 8 } })
def sfar : State := srpt.setPc b0 0x0100000000000000
/-- A sequence of the context: its last step to place, and a step placed; all of it done, with no fault and with one. -/
def sseq (placed : Bool) : State :=
  s0.modCore 4 (fun c => { c with seq := { c.seq with ctx := some 7, instrs := [.vxor .n8 1 2 3 none], reps := 4096, rep := 4095,
                                                      stride := 7, placed := placed } })
def sdone (f : Option TrapInfo) : State := (sseq false).modCore 4 (fun c => { c with seq := { c.seq with rep := 4096, fault := f } })
theorem rpt_fetched (i : Instr) (h : i = .vand .n8 1 2 3 none ∨ i = .add .nt 1 2 3) :
    rptFetch s0.me [] padFuel 0x40008 1 [] (sblk i) = (.ok [(natBytes 32 (blk i).toNat).drop 8] 0x40010, sblk i) := by
  rcases h with rfl | rfl <;> rfl
theorem rpt_fetched' : rptFetch s0.me [] padFuel 0x40008 1 [] sbuf = (.ok [(natBytes 32 (blk (.vand .n8 1 2 3 none)).toNat).drop 8] 0x40010, sbuf) := rfl
/-- The context's own sequence still runs; a PC whose page no TLB holds. -/
def sown7 : State := srpt.modCore 4 (fun c => { c with seq := { c.seq with ctx := some 7, instrs := [.vxor .n8 1 2 3 none], reps := 4096 } })
def smiss : State := srpt.setPc b0 0x90000
theorem rpt_fetched_own : rptFetch s0.me [] padFuel 0x40008 1 [] sown7 = (.ok [(natBytes 32 (blk (.vand .n8 1 2 3 none)).toNat).drop 8] 0x40010, sown7) := rfl
theorem rpt_waits : ∃ b u, rptFetch smiss.me [] padFuel 0x90008 1 [] smiss = (.wait b, u) := ⟨_, _, rfl⟩
theorem rpt_decodes : rptDecode [(natBytes 32 (blk (.vand .n8 1 2 3 none)).toNat).drop 8] = .ok [.vand .n8 1 2 3 none] := rfl
theorem rpt_illegal : rptDecode [(natBytes 32 (blk (.add .nt 1 2 3)).toNat).drop 8] =
    .error ((natBytes 32 (blk (.add .nt 1 2 3)).toNat).drop 8) := rfl
theorem rpt_faults : ∃ c u, rptFetch sfar.me [] padFuel 0x0100000000000008 1 [] sfar = (.trap c, u) ∧ Memory.wf u.mem = true :=
  ⟨_, _, rfl, by decide⟩
theorem witness_SequenceResults :
    (Memory.wf srpt.mem = true ∧ (srpt.pc srpt.me.base).toNat = 0x40000 ∧ srpt.me = s0.me ∧ srpt.seqCore 7 = none ∧
      (srpt.core 4).seq.ctx = none ∧ (srpt.slot 66).block = some (0x40000 / 32 * 32, blk (.vand .n8 1 2 3 none)) ∧
      WellFormed (.vand .n8 1 2 3 none) = true ∧ isVectorOp (.vand .n8 1 2 3 none) = true ∧
      (natBytes 32 (blk (.vand .n8 1 2 3 none)).toNat).drop 8 = (encode (.vand .n8 1 2 3 none)).getD [] ++ List.replicate 16 0) ∧
    (∀ i, i = .vand .n8 1 2 3 none ∨ i = .add .nt 1 2 3 →
      rptFetch s0.me [] padFuel 0x40008 1 [] (sblk i) = (.ok [(natBytes 32 (blk i).toNat).drop 8] 0x40010, sblk i)) ∧
    (rptFetch s0.me [] padFuel 0x40008 1 [] sbuf = (.ok [(natBytes 32 (blk (.vand .n8 1 2 3 none)).toNat).drop 8] 0x40010, sbuf) ∧
      Memory.wf sbuf.mem = true ∧ sbuf.seqCore 7 = none ∧ (sbuf.core 4).seq.ctx = some 8 ∧ sbuf.kindOf b0 ≠ 1 ∧
      (sbuf.setWs b0 offCtxn (7 + 2 ^ 24)).kindOf b0 = 1) ∧
    rptDecode [(natBytes 32 (blk (.vand .n8 1 2 3 none)).toNat).drop 8] = .ok [.vand .n8 1 2 3 none] ∧
    rptDecode [(natBytes 32 (blk (.add .nt 1 2 3)).toNat).drop 8] = .error ((natBytes 32 (blk (.add .nt 1 2 3)).toNat).drop 8) ∧
    (∃ c u, rptFetch sfar.me [] padFuel 0x0100000000000008 1 [] sfar = (.trap c, u) ∧ Memory.wf u.mem = true) ∧
    (rptFetch s0.me [] padFuel 0x40008 1 [] sown7 = (.ok [(natBytes 32 (blk (.vand .n8 1 2 3 none)).toNat).drop 8] 0x40010, sown7) ∧
      Memory.wf sown7.mem = true ∧ sown7.seqCore 7 = some 4 ∧ (sown7.core 4).seq.over = false) ∧
    (∃ b u, rptFetch smiss.me [] padFuel 0x90008 1 [] smiss = (.wait b, u)) ∧
    ((sseq false).seqCore 7 = some 4 ∧ ((sseq false).core 4).seq.over = false) ∧
    (∀ f ∈ [none, some { cause := .prot, rpt := some (0, 0) }], (sdone f).seqCore 7 = some 4 ∧
      ((sdone f).core 4).seq.over = true ∧ ((sdone f).core 4).seq.fault = f) ∧
    (let q := ((sseq false).core 4).seq
     q.ctx = some 7 ∧ q.instrs[q.idx]? = some (.vxor .n8 1 2 3 none) ∧ q.placed = false ∧ q.waitStep = false ∧ q.claim = false ∧ q.fault = none ∧
      q.rep < q.reps) ∧
    ((sseq true).core 4).seq.placed = true :=
  ⟨by decide, rpt_fetched, ⟨rpt_fetched', by decide⟩, rpt_decodes, rpt_illegal, rpt_faults, ⟨rpt_fetched_own, by decide⟩, rpt_waits, by decide, by decide,
    by decide, by decide⟩
/-! ### The copy engine, the streamers and the timelines -/

/-- A page as the TLBs of core 4 and of cluster 0 hold it. Two pages of local memory, a descriptor at the cluster local address 0x490000 and a shape record at 0x490100: one
dimension of 4 elements of 4 bytes, in bounds from 1 to 3. -/
def ptl (v : Nat) (l : Leaf) (s : State) : State :=
  (tlbInstall 4 (s0.ptroot b0) v l s).modCluster 0 (fun c => { c with tlb := tlbAdd 256 16 c.tlb (tlbEntry (s0.ptroot b0) v l) })
def se : State := w 1 0x490000 (ptl 0x50000 { lf with pa := lp + 0x1000 } (ptl 0x40000 lf s0))
def put (off n v : Nat) (s : State) : State := s.wr (lp + off) n v
def scpy (tl : Nat) : State :=
  let s := put 0x100 64 (0x21 + 2 ^ 256 * (4 + 2 ^ 32 * (1 + 2 ^ 32 * (3 + 2 ^ 64 * (4 + 2 ^ 64 * 8))))) se
  put 20 4 (31 + 2 ^ 8 * tl) (put 16 4 0x490100 (put 8 8 0x50000 (put 0 8 0x40000 s)))
def sgb : State :=
  put 32 4 65536 (put 28 4 (8 + 2 ^ 8 * (31 + 2 ^ 8 * 63)) (put 24 4 65536 (put 40 8 0x50020 (put 16 8 0x40100 (put 8 8 16 (put 0 8 0x40000 se))))))
def schan (n : Nat) (f : Chan → Chan) (s : State) : State := s.modCluster 0 (fun c => { c with chans := tset c.chans n (f (s.chan 0 n)) })
def sfull : State := schan 31 (fun c => { c with ops := List.replicate 16 { kind := .binr 7 } }) (scpy 63)
def sbinr : State := w 1 0x50000 se
def cdims : List Dim := [{ ext := 4, lo := 1, hi := 3, sstr := 4, dstr := 8 }]
theorem copy_shape : shapeDims ((scpy 255).clusterRd 0 0x490100 64) = cdims := by decide
theorem copy_places : placesOk (issuerOf (scpy 255).me [] (scpy 255)) 0x40000 0x50000 0 cdims (scpy 255) = (.got (), scpy 255) := rfl
theorem gbin_places : gbinPlaces (issuerOf sgb.me [] sgb) (sgb.clusterRd 0 0x490000 64) sgb = (.got (), sgb) := rfl
theorem binr_place : firstPlace (issuerOf sbinr.me [] sbinr) 0x50000 2 { rd := true, w := true } sbinr = (.got (lp + 0x1000), sbinr) := rfl
/-- A faulted channel; one with an operation not started; a context that waits for a full channel, and for one with room. -/
def sfault : State := schan 31 (fun c => { c with fault := some { cause := .prot, addr := 88 }, faultEnd := 99 }) se
def spend : State := schan 31 (fun c => { c with ops := [{ kind := .binr 7 }] }) se
def swaitOp (o : ChanOp) (s : State) : State := s.setWait 7 { block := .channel 0 31 255 o, cont := { prog := [.adv 8] } }
def swait (s : State) : State := swaitOp { kind := .binr 7 } s
/-- The engine's place of the cycle after a `cpycan`: of a faulted channel, and of one copy, whose writes end at a time. -/
def sasked (f : Chan → Chan) : State :=
  (schan 31 (fun c => f { c with asked := true }) se).setWait 7 { block := .cancel 0 31, cont := { prog := [.adv 8] } }
def canOp (vt : Nat) : ChanOp := { kind := .copy 0x40000 0x50000 4 0 cdims, cancel := true, bytes := 4, vt := vt }
def sfaultc : State := sasked (fun c => { c with fault := some { cause := .prot, addr := 88 }, faultEnd := 99 })
def scanc (vt : Nat) : State := sasked (fun c => { c with ops := [canOp vt] })
/-- A copy that waits for a full channel, with its descriptor. -/
def dscOp : ChanOp := { kind := .copy 1 2 4 0 [], desc := some 0x490000 }
theorem witness_EngineIssueAndChannels :
    (Memory.wf (scpy 63).mem = true ∧ ((scpy 63).getW b0 1).toNat = 0x490000 ∧ 0x490000 % 64 = 0 ∧
      (let s := scpy 63; s.clusterGeneral 0 0x490000 64 = true ∧ s.clusterWindow 0 0x490000 64 = false ∧
        s.clusterLost 0 0x490000 64 0 1 = none ∧ fld (s.clusterRd 0 0x490000 64) 16 4 = 0x490100 ∧
        s.clusterRd 0 0x490100 1 % 16 = 1 ∧ s.clusterGeneral 0 0x490100 64 = true ∧ s.clusterWindow 0 0x490100 64 = false ∧
        s.clusterLost 0 0x490100 64 0 1 = none ∧ copyFieldsOk (s.clusterRd 0 0x490000 64) (s.clusterRd 0 0x490100 64) = true ∧
        (s.chan 0 31).fault = none ∧ (s.chan 0 31).ops.length < 16 ∧ s.targetsOk 0 0 0 0 = true)) ∧
    (dstApart 4 cdims = true ∧ fld ((scpy 255).clusterRd 0 0x490000 64) 21 1 = 255 ∧
      copyFieldsOk ((scpy 255).clusterRd 0 0x490000 64) ((scpy 255).clusterRd 0 0x490100 64) = true) ∧
    placesOk (issuerOf (scpy 255).me [] (scpy 255)) 0x40000 0x50000 0 cdims (scpy 255) = (.got (), scpy 255) ∧
    (16 ≤ (sfull.chan 0 31).ops.length ∧ (sfull.chan 0 31).fault = none) ∧
    (gbinFieldsOk (sgb.clusterRd 0 0x490000 64) = true ∧ fld (sgb.clusterRd 0 0x490000 64) 40 8 % 32 = 0 ∧ (sgb.chan 0 31).fault = none) ∧
    gbinPlaces (issuerOf sgb.me [] sgb) (sgb.clusterRd 0 0x490000 64) sgb = (.got (), sgb) ∧
    firstPlace (issuerOf sbinr.me [] sbinr) 0x50000 2 { rd := true, w := true } sbinr = (.got (lp + 0x1000), sbinr) ∧
    (((w 1 0x490020 se).getW b0 1).toNat % 64 ≠ 0 ∧ ((w 1 0x490021 se).getW b0 1).toNat % 32 ≠ 0) ∧
    ((se.chan 0 31).ops = [] ∧ (se.chan 0 31).fault = none) ∧
    ((sfault.chan 0 31).ops = [] ∧ (sfault.chan 0 31).fault = some { cause := .prot, addr := 88 } ∧ (spend.chan 0 31).ops ≠ []) ∧
    (∀ s ∈ [sfaultc, scanc 5000, scanc 5001], (s.chan 0 31).asked = true ∧ s.waiters (fun _ w => w.block = .cancel 0 31) = [7] ∧
      s.meOf 7 = some s0.me ∧ (s.ctx 7).wait = some { block := .cancel 0 31, cont := { prog := [.adv 8] } } ∧
      (s.ctx 7).migrating = false) ∧
    ((sfaultc.chan 0 31).ops = [] ∧ (sfaultc.chan 0 31).fault = some { cause := .prot, addr := 88 } ∧ (sfaultc.chan 0 31).cancelling = false) ∧
    (∀ vt ∈ [5000, 5001], ((scanc vt).chan 0 31).ops = [canOp vt] ∧ ((scanc vt).chan 0 31).fault = none) ∧
    ((canOp 5000).vt ≤ (scanc 5000).gtOf (0 * 8) ∧ (scanc 5001).gtOf (0 * 8) < (canOp 5001).vt) ∧
    ((swait se).meOf 7 = some s0.me ∧ ((swait se).ctx 7).slot = some s0.me.slot ∧ ((swait se).ctx 7).migrating = false ∧
      ((swait se).ctx 7).wait = some { block := .channel 0 31 255 { kind := .binr 7 }, cont := { prog := [.adv 8] } } ∧
      ((swait se).chan 0 31).ops.length < 16 ∧ (swait se).ctxs = [(7, (swait se).ctx 7)] ∧
      (swait se).ctxs.filter (fun e => match e.2.wait with
        | some { block := .channel .., .. } => true
        | _ => false) = [(7, (swait se).ctx 7)]) ∧
    ((swait sfull).ctxs = [(7, (swait sfull).ctx 7)] ∧
      ((swait sfull).ctx 7).wait = some { block := .channel 0 31 255 { kind := .binr 7 }, cont := { prog := [.adv 8] } } ∧
      16 ≤ ((swait sfull).chan 0 31).ops.length) ∧
    (let s := scpy 255
     dscOp.desc = some 0x490000 ∧ s.clusterGeneral 0 0x490000 64 = true ∧ s.clusterWindow 0 0x490000 64 = false ∧
       s.clusterLost 0 0x490000 64 0 1 = none ∧ fld (s.clusterRd 0 0x490000 64) 16 4 = 0x490100 ∧
       copyFieldsOk (s.clusterRd 0 0x490000 64) (s.clusterRd 0 0x490100 64) = true ∧
       s.targetsOk 0 0 0 0 = true) :=
  ⟨by decide, by decide, copy_places, by decide, by decide, gbin_places, binr_place, by decide, by decide, by decide, by decide,
    by decide, by decide, by decide, by decide, by decide, by decide⟩
theorem witness_EngineIssueAndChannels_accept : ∃ o' u, rereadOp 0 { kind := .binr 7 } (swait se) = (some o', u) ∧
    u.meOf 7 = some s0.me ∧ u.ctx 7 = (swait se).ctx 7 := ⟨_, _, rfl, by decide, by decide⟩

/-- The head operation of a channel. Copies with a lead engine before an element, of 4 bytes with a source of 4 apart and
a destination of 8 apart, or of 32 bytes, both 32 apart. -/
def shead (o : ChanOp) (s : State) : State := schan 31 (fun c => { c with ops := [o, { kind := .binr 9 }] }) s
def lead0 : Option (Nat × Nat) := some (0, copySrc)
def cpo (src dst es fill next : Nat) : ChanOp :=
  { kind := .copy src dst es fill (if es = 32 then [{ ext := 4, lo := 1, hi := 3, sstr := 32, dstr := 32 }] else cdims), next := next
    ptroot := s0.ptroot b0, lead := lead0 }
def cop (next fill : Nat) : ChanOp := cpo 0x40000 0x50000 4 fill next
def mv : Mover := { cl := 0, pt := s0.ptroot b0, priv := false, die := 0 }
/-- A page of HBM at 0x60000, of the window of peer 0 at 0x80000, and at 0x52000 one of a stash window over HBM, a line of
which the window holds with all its tokens; the same with the host owning a half of the first. -/
def sx4 : State :=
  let s := ptl 0x80000 { hf with pa := peerBase } (ptl 0x60000 hf (ptl 0x52000 { lf with pa := lp + 0x2000 } se))
  let s := ptl 0x62000 { hf with pa := 0x6000 } (s.setWin 4 0 { v := true, vpn := 0x62, lbase := 0x92, size := 0, ptroot := s0.ptroot b0 })
  let s := s.setCopy (winHolder 4 0 0) 192 { tokens := 512, owner := true, data := some 0x77 }
  s.setPart 0 { s.part 0 with peers := [1] }
def sx5 : State := sx4.setLine 160 { sx4.line 160 with half0 := .he, half1 := .he }
theorem got_of {α σ : Type} {r : Local α × σ} (h : (match r.1 with | .got _ => true | _ => false) = true) :
    ∃ x u, r = (.got x, u) := by
  obtain ⟨_ | _ | _, u⟩ := r
  all_goals first | exact ⟨_, _, rfl⟩ | cases h
theorem local_got {α : Type} [DecidableEq α] {r : Local α × State} {x : α} {s : State}
    (h : (match r.1 with | .got y => decide (y = x) | _ => false) = true) (hs : r.2 = s) : r = (.got x, s) := by
  obtain ⟨_ | _ | _, u⟩ := r <;> simp_all
/-- An element of a head copy that may run: its read and its write, as far as they come. -/
def atElem (o : ChanOp) (s : State) : Prop :=
  (shead o s).runningOp 0 31 = some o ∧ o.mover 0 = mv ∧ o.faulted = none ∧ o.lead = lead0 ∧ o.half = none ∧ o.kept = none
theorem elem_goes : let s := shead (cop 2 0) sx4
    ∃ v u, moveReadVa mv 0x40008 4 s = (.got v, u) ∧ peerHalves mv 0x50010 4 7 true u = false ∧
      ∃ x w, moveWrite mv 0x50010 4 v u = (.got x, w) := ⟨_, _, rfl, rfl, _, _, rfl⟩
theorem elem_write_trap : let s := shead (cpo 0x40000 (2 ^ 56) 4 0 2) sx4
    ∃ v u, moveReadVa mv 0x40008 4 s = (.got v, u) ∧ peerHalves mv (2 ^ 56 + 16) 4 7 true u = false ∧
      ∃ c w, moveWrite mv (2 ^ 56 + 16) 4 v u = (.trap c, w) := ⟨_, _, rfl, rfl, _, _, rfl⟩
theorem elem_write_waits : let s := shead (cpo 0x40000 0x60000 4 0 2) sx5
    ∃ v u, moveReadVa mv 0x40008 4 s = (.got v, u) ∧ peerHalves mv 0x60010 4 7 true u = false ∧
      ∃ b w, moveWrite mv 0x60010 4 v u = (.later b, w) := ⟨_, _, rfl, rfl, _, _, rfl⟩
theorem elem_read_waits : ∃ b u, moveReadVa mv 0x60008 4 (shead (cpo 0x60000 0x50000 4 0 2) sx5) = (.later b, u) := ⟨_, _, rfl⟩
theorem elem_read_trap : ∃ c u, moveReadVa mv (2 ^ 56 + 8) 4 (shead (cpo (2 ^ 56) 0x50000 4 0 2) sx4) = (.trap c, u) := ⟨_, _, rfl⟩
theorem elem_kept : let s := shead (cpo 0x40000 0x80000 32 0 2) sx4
    peerHalves mv 0x40040 32 6 false s = false ∧ ∃ v u, moveReadVa mv 0x40040 32 s = (.got v, u) ∧ peerHalves mv 0x80040 32 7 true u = true ∧
      ∃ x w, moveWrite mv 0x80040 16 (v % 2 ^ 128) u = (.got x, w) := ⟨by decide, _, _, rfl, rfl, _, _, rfl⟩
theorem elem_half : let s := shead (cpo 0x80000 0x50000 32 0 2) sx4
    peerHalves mv 0x80040 32 6 false s = true ∧ ∃ v u, moveReadVa mv 0x80040 16 s = (.got v, u) := ⟨by decide, _, _, rfl⟩
theorem elem_fills (code : Nat) (h : code ∈ [0, 1, 2, 3, 4, 5]) : let s := shead (cop 0 code) sx4
    peerHalves mv 0x50000 4 7 true s = false ∧ ∃ x w, moveWrite mv 0x50000 4 (fillValue code 4) s = (.got x, w) := by
  fin_cases h <;> exact ⟨by decide, _, _, rfl⟩
/-- The lead engine's choice, by a source in local memory and in HBM, and by a table. -/

theorem lead_of (k : OpKind) (h : k ∈ [.copy 0x40000 0x50000 4 0 cdims, .gbin 0x40000 16 0x40100 8 1 16 0 0x50020, .binr 0x50020]) :
    let o : ChanOp := { kind := k, ptroot := s0.ptroot b0 }
    (shead o sx4).runningOp 0 31 = some o ∧ o.faulted = none ∧ ∃ e u, leadOf 0 o o.kind.leadVa (shead o sx4) = (some e, u) := by
  fin_cases h <;> exact ⟨rfl, rfl, _, _, rfl⟩
theorem lead_places : engineXlate 0 (s0.ptroot b0) false 0x60004 6 { rd := true } sx4 = (.ok hf, sx4) ∧
    hf.phys (0x60004 % 2 ^ 57) < 4 * quarterBytes ∧
    engineXlate 0 (s0.ptroot b0) false 0x40004 6 { rd := true } sx4 = (.ok lf, sx4) ∧ regionOf (lf.phys (0x40004 % 2 ^ 57)) = .local 4 :=
  ⟨rfl, by decide, rfl, by decide⟩
/-- The places of an element that is read or written. -/
theorem move_plain : movePlace mv 0x40008 4 6 false sx4 = (.got { kind := .plain, pa := lp + 8 }, sx4) ∧
    movePlace mv 0x50010 4 7 true sx4 = (.got { kind := .plain, pa := lp + 0x1010 }, sx4) :=
  ⟨local_got (by decide) (by decide), local_got (by decide) (by decide)⟩
theorem move_home : movePlace mv 0x60010 4 6 false sx4 = (.got { kind := .home, pa := 0x5010, leaf := hf }, sx4) ∧
    movePlace mv 0x60010 4 7 true sx4 = (.got { kind := .home, pa := 0x5010, leaf := hf }, sx4) :=
  ⟨local_got (by decide) (by decide), local_got (by decide) (by decide)⟩
def winT : Target :=
  { kind := .token, pa := 0x6010, holder := winHolder 4 0 0, leaf := { hf with pa := 0x6000 }, win := some (4, 0, 0) }
theorem move_token : movePlace mv 0x52010 4 6 false sx4 = (.got winT, sx4) ∧ movePlace mv 0x52010 4 7 true sx4 = (.got winT, sx4) :=
  ⟨local_got (by decide) (by decide), local_got (by decide) (by decide)⟩
/-- A `gbin` of 8 rows at one of its steps: on a list of 8 overflow pairs that has room, and one that has not; a `binr` of
an empty table. -/
def gop (b : BinRun) : ChanOp := { kind := .gbin 0x40000 16 0x40100 8 1 16 0 0x50020, ptroot := s0.ptroot b0, bin := b, lead := lead0 }
def sgbin (cap : Nat) (b : BinRun) : State := shead (gop b) (put 0x1030 4 cap (put 0x1028 8 0x50100 se))
def bop : ChanOp := { kind := .binr 0x50020, ptroot := s0.ptroot b0, lead := lead0 }
def bop1 : ChanOp := { bop with started := true }
def sbins (ovres : Nat) : State := shead bop (put 0x1038 4 ovres se)
/-- The steps of a `gbin`: a bin that a pair names, a bin past them all, a row to place, the end. -/
def btake : BinRun := { at_ := 2, nbins := 1, idxs := [0] }
def bpast : BinRun := { at_ := 2, nbins := 1, bin := 1, idxs := [0, 7] }
def bplace : BinRun := { at_ := 4, nbins := 1, idxs := [0], taken := [(0, 0x50200, 0, 1)] }
def bend : BinRun := { at_ := 5 }
theorem gbin_header (n : Nat) (h : n = 0 ∨ n = 8) :
    moveReadVa mv 0x50020 32 (sgbin n {}) = (.got (n * 2 ^ 128 + 0x50100 * 2 ^ 64), sgbin n {}) := by rcases h with rfl | rfl <;> rfl
theorem gbin_reserves : ∃ vt u, moveWrite mv 0x50038 4 8 (sgbin 8 {}) = (.got { vt := vt }, u) := ⟨_, _, rfl⟩
theorem gbin_takes : moveReadVa mv 0x50040 32 (sgbin 8 btake) = (.got 0, sgbin 8 btake) ∧
    ∃ vt u, moveWrite mv 0x50040 32 (setBits (setBits 0 96 32 0) 128 32 1) (sgbin 8 btake) = (.got { vt := vt }, u) := ⟨rfl, _, _, rfl⟩
theorem gbin_places_row : moveReadVa mv 0x40000 16 (sgbin 8 bplace) = (.got 0, sgbin 8 bplace) ∧
    ∃ vt u, moveWrite mv 0x50200 16 0 (sgbin 8 bplace) = (.got { vt := vt }, u) := ⟨rfl, _, _, rfl⟩
theorem gbin_ends : moveReadVa mv 0x50020 32 (sgbin 8 bend) = (.got (8 * 2 ^ 128 + 0x50100 * 2 ^ 64), sgbin 8 bend) ∧
    ∃ vt u, moveWrite mv 0x50038 4 0 (sgbin 8 bend) = (.got { vt := vt }, u) := ⟨rfl, _, _, rfl⟩
theorem gbin_steps : (∃ o u, gbinStep mv (gop {}) 0x40000 16 0x40100 8 1 16 0 0x50020 (sgbin 8 {}) = (.got o, u)) ∧
    ∃ c u, gbinStep mv { gop {} with kind := .gbin 0x40000 16 0x40100 8 1 16 0 (2 ^ 60) } 0x40000 16 0x40100 8 1 16 0 (2 ^ 60)
      (sgbin 8 {}) = (.trap c, u) := ⟨got_of (by decide), _, _, rfl⟩
theorem binr_header (n : Nat) (h : n = 0 ∨ n = 1) :
    moveReadVa mv 0x50020 32 (sbins n) = (.got (n * 2 ^ 192), sbins n) := by rcases h with rfl | rfl <;> rfl
theorem binr_goes : ∃ o1 u1, binSet mv bop1 (0x50020 + 20) 4 0 (sbins 0) = (.got o1, u1) ∧
    ∃ o2 u2 tried, resetBins mv 0x50020 (fld 0 0 4) 0 o1 u1 = (some (o2, u2), tried) := by
  obtain ⟨o1, u1, h⟩ := got_of (r := binSet mv bop1 (0x50020 + 20) 4 0 (sbins 0)) (by decide)
  exact ⟨o1, u1, h, _, _, _, rfl⟩
theorem ats : ∀ o ∈ [cop 2 0, cpo 0x40000 (2 ^ 56) 4 0 2, cpo 0x40000 0x80000 32 0 2, cpo 0x80000 0x50000 32 0 2,
    cpo (2 ^ 56) 0x50000 4 0 2, cop 0 6, cop 3 6, cop 0 0, cop 0 5], atElem o sx4 := by
  intro o h; fin_cases h <;> exact ⟨rfl, rfl, rfl, rfl, rfl, rfl⟩
theorem ats5 : ∀ o ∈ [cpo 0x40000 0x60000 4 0 2, cpo 0x60000 0x50000 4 0 2], atElem o sx5 := by
  intro o h; fin_cases h <;> exact ⟨rfl, rfl, rfl, rfl, rfl, rfl⟩
theorem witness_EngineTransferResults :
    (∀ k, k ∈ [OpKind.copy 0x40000 0x50000 4 0 cdims, .gbin 0x40000 16 0x40100 8 1 16 0 0x50020, .binr 0x50020] →
      let o : ChanOp := { kind := k, ptroot := s0.ptroot b0 }
      (shead o sx4).runningOp 0 31 = some o ∧ o.faulted = none ∧ ∃ e u, leadOf 0 o o.kind.leadVa (shead o sx4) = (some e, u)) ∧
    (Memory.wf sx4.mem = true ∧ ∀ o ∈ [cop 2 0, cpo 0x40000 (2 ^ 56) 4 0 2, cpo 0x40000 0x80000 32 0 2, cpo 0x80000 0x50000 32 0 2,
        cpo (2 ^ 56) 0x50000 4 0 2, cop 0 6, cop 3 6, cop 0 0, cop 0 5], atElem o sx4) ∧
    (Memory.wf sx5.mem = true ∧ ∀ o ∈ [cpo 0x40000 0x60000 4 0 2, cpo 0x60000 0x50000 4 0 2], atElem o sx5) ∧
    (elemAddr 0x40000 0x50000 cdims 2 = (0x40008, 0x50010, true) ∧ (elemAddr 0x40000 0x50000 cdims 0).2.2 = false ∧
      (elemAddr 0x40000 0x50000 cdims 3).2.2 = false ∧ peerHalves mv 0x40008 4 6 false (shead (cop 2 0) sx4) = false) ∧
    (∀ r ∈ [(0, 1, 0), (1, 4, 0x7FC00000), (2, 2, 0x7FC0), (3, 2, 0x7E00), (4, 1, 0x7F), (5, 1, 0x7E)],
      4 % r.2.1 = 0 ∧ r.2.2 < 2 ^ (8 * r.2.1)) ∧
    (let s := sx4
     (∀ p ∈ [lp + 8, lp + 0x1010], regionOf p = .local 4 ∧ s.lostIn p 4 = none) ∧ (s.core 4).log.en = false ∧
       (s.line 160).owner = true ∧ (s.line 160).lost = false ∧ (s.line 160).active = none ∧ (s.line 160).tokens = 512 ∧
       s.holders 160 = [] ∧ s.snoopHalf 0x5010 4 false = none ∧ s.snoopHalf 0x5010 4 true = none ∧ s.homeDie 0x5010 = mv.die ∧
       s.net = [] ∧ (s.line 192).lost = false ∧ s.lineDie 192 = s.homeDie 0x6010 ∧ 0x6010 < 4 * quarterBytes) ∧
    (∀ n ∈ [0, 8], Memory.wf (sgbin n {}).mem = true ∧ (sgbin n {}).runningOp 0 31 = some (gop {}) ∧ (gop {}).faulted = none ∧
      (gop {}).lead = lead0) ∧
    (let h := 0x50100 * 2 ^ 64; fld h 16 4 < fld h 20 4 + fld h 24 4 + 8 * 1) ∧
    (let h := 8 * 2 ^ 128 + 0x50100 * 2 ^ 64; fld h 20 4 + fld h 24 4 + 8 * 1 ≤ fld h 16 4) ∧
    (∀ b ∈ [btake, bplace, bend], (sgbin 8 b).runningOp 0 31 = some (gop b)) ∧
    (btake.bin < btake.nbins ∧ btake.bin ∈ btake.idxs ∧ bplace.idxs[bplace.pair]? = some 0 ∧ bplace.pair = 0) ∧
    (∀ n, n = 0 ∨ n = 8 → moveReadVa mv 0x50020 32 (sgbin n {}) = (.got (n * 2 ^ 128 + 0x50100 * 2 ^ 64), sgbin n {})) ∧
    (∃ vt u, moveWrite mv 0x50038 4 8 (sgbin 8 {}) = (.got { vt := vt }, u)) ∧
    (∃ vt u, moveWrite mv 0x50040 32 (setBits (setBits 0 96 32 0) 128 32 1) (sgbin 8 btake) = (.got { vt := vt }, u)) ∧
    (∃ vt u, moveWrite mv 0x50200 16 0 (sgbin 8 bplace) = (.got { vt := vt }, u)) ∧
    (∃ vt u, moveWrite mv 0x50038 4 0 (sgbin 8 bend) = (.got { vt := vt }, u)) ∧
    (∃ o u, gbinStep mv (gop {}) 0x40000 16 0x40100 8 1 16 0 0x50020 (sgbin 8 {}) = (.got o, u)) ∧
    (∀ n ∈ [0, 1], Memory.wf (sbins n).mem = true ∧ (sbins n).runningOp 0 31 = some bop ∧ bop.lead = lead0) ∧
    fld (0 * 2 ^ 192) 24 4 = 0 ∧ fld (1 * 2 ^ 192) 24 4 ≠ 0 ∧
    (∀ n, n = 0 ∨ n = 1 → moveReadVa mv 0x50020 32 (sbins n) = (.got (n * 2 ^ 192), sbins n)) ∧
    (∃ o1 u1, binSet mv bop1 (0x50020 + 20) 4 0 (sbins 0) = (.got o1, u1) ∧
      ∃ o2 u2 tried, resetBins mv 0x50020 (fld 0 0 4) 0 o1 u1 = (some (o2, u2), tried)) :=
  ⟨lead_of, ⟨by decide, ats⟩, ⟨by decide, ats5⟩, by decide, by decide, by decide, by decide, by decide, by decide, by decide, by decide,
    gbin_header, gbin_reserves, gbin_takes.2, gbin_places_row.2, gbin_ends.2, gbin_steps.1, by decide, by decide, by decide, binr_header, binr_goes⟩

/-- A timeline of cluster 0 with 5 operations issued and 3 done. -/
def stl (f : Timeline → Timeline) : State :=
  s0.modCluster 0 (fun c => { c with tls := tset c.tls 63 (f { issued := 5, done := 3, doneGt := 777 }) })
def ssoft (vt : Nat) : State := stl (fun t => { t with soft := [(4, 7, vt, [])] })
def twait (s : State) : State := s.setWait 7 { block := .timeline 0 63 }
def dop (vt : Nat) (tl : Option (Nat × Nat)) : ChanOp := { cop 4 0 with delivered := true, vt := vt, tl := tl, bytes := 8 }
/-- A copy to complete with a fill, with a decrement, and cancelled with one; a copy that has faulted. -/
def flop (flags cause : Nat) : ChanOp :=
  { dop 5000 (some (63, 4)) with flags := flags, cause := cause, dect := 0x490000, fet := 0x490008 }
def sflop (flags cause : Nat) : State := shead (flop flags cause) (put 0 8 2 (stl id))
def fop (vt flags : Nat) : ChanOp :=
  { cop 1 0 with vt := vt, flags := flags, tl := some (63, 4), faulted := some { cause := .page, addr := 88, acc := 6 } }
theorem no_wfe : ∀ r ∈ [(2, 0), (2, 4)], ∀ k c', (sflop r.1 r.2).waitOf k ≠ some (.wfe c') := by
  intro r h k c'
  have hs : (sflop r.1 r.2).ctxs.all (fun e => e.2.wait.isNone) = true := by fin_cases h <;> decide
  simp [no_waits hs k]
theorem witness_TimelineAndCompletionResults :
    Memory.wf s0.mem = true ∧
    ((ssoft 5001).tl 0 63).soft = [(((ssoft 5001).tl 0 63).done + 1, 7, 5001, [])] ∧ ((ssoft 5001).tl 0 63).finished = [] ∧
    (ssoft 5001).gtOf (0 * 8) < 5001 ∧ 5000 ≤ (ssoft 5000).gtOf (0 * 8) ∧ (twait (ssoft 5000)).waitOf 7 = some (.timeline 0 63) ∧
    (let t := (stl id).tl 0 63; t.faultop = 0 ∧ 3 ≤ t.done ∧ t.done < 4) ∧
    (let t := (stl (fun t => { t with faultop := 4, latch := { cause := .page, addr := 66 } })).tl 0 63; t.faultop ≠ 0 ∧ t.faultop ≤ 4 ∧ 3 < t.faultop ∧
      3 ≤ t.done) ∧
    (((shead (dop 5001 none) se).chan 0 31).ops = [dop 5001 none, { kind := .binr 9 }] ∧ (shead (dop 5001 none) se).gtOf (0 * 8) < 5001) ∧
    (((shead (dop 5000 none) se).chan 0 31).ops = [dop 5000 none, { kind := .binr 9 }] ∧ 5000 ≤ (shead (dop 5000 none) se).gtOf (0 * 8)) ∧
    (((shead (dop 5000 (some (63, 4))) (twait (stl id))).tl 0 63).done + 1 = 4 ∧
      ((shead (dop 5000 (some (63, 4))) (twait (stl id))).tl 0 63).finished = [] ∧
      (shead (dop 5000 (some (63, 4))) (twait (stl id))).waitOf 7 = some (.timeline 0 63)) ∧
    (∀ r ∈ [(2, 0), (2, 4), (1, 0), (1, 4), (0, 4)], let s := sflop r.1 r.2
     (s.chan 0 31).ops = [flop r.1 r.2, { kind := .binr 9 }] ∧ (s.chan 0 31).asked = false ∧ (s.chan 0 31).cancelling = false ∧
       (flop r.1 r.2).delivered = true ∧ (flop r.1 r.2).vt ≤ s.gtOf (0 * 8) ∧ (s.tl 0 63).done + 1 = 4 ∧ (s.tl 0 63).finished = [] ∧
       Memory.wf s.mem = true) ∧
    (let s := sflop 2 0
     let pa := localPa (dectCore 0x490008) (dectOff 0x490008)
     dectCore 0x490008 < 384 ∧ pa % 8 = 0 ∧ s.halted (clusterOf (dectCore 0x490008)) = false ∧
       (s.core (dectCore 0x490008)).log.en = false ∧ s.feWaiters pa = []) ∧
    (let s := sflop 1 0
     1 < s.rd (localPa (dectCore 0x490000) (dectOff 0x490000)) 8 % 2 ^ 32) ∧
    (∀ r ∈ [(5000, 0), (5001, 0), (5000, 1)], let s := shead (fop r.1 r.2) (stl id)
     s.runningOp 0 31 = some (fop r.1 r.2) ∧ (fop r.1 r.2).faulted ≠ none ∧ s.gtOf (0 * 8) = 5000 ∧ (s.tl 0 63).done + 1 = 4 ∧
       (s.tl 0 63).finished = []) ∧
    ((shead (cop 1 0) se).runningOp 0 31 = some (cop 1 0) ∧ (cop 1 0).faulted = none) := by decide
/-! ### Herds -/

/-- The own rendezvous entry, with an address and an H-block, unsealed or sealed, in way 7 of set 5. -/
def srdv (sealed : Bool) (ctx addr : Nat) (k : Nat) (s : State) : State :=
  s.modCluster 0 (fun c => { c with rdv := tset c.rdv k { sealed := sealed, ctx := ctx, dom := 5, addr := addr } })
/-- A slab of the queries up to a last one at the cluster local address 0x490000. -/
def sslab (qlast : Nat) (s : State) : State := s.setWs b0 offHslab (0x490000 + qlast * 2 ^ 23)
def shm (hm hx hf : Nat) (s : State) : State := ((s.setH b0 .hm hm).setH b0 .hx hx).setH b0 .hf hf
def sherd : State := w 3 0xFF00 (sslab 65535 (srdv true 7 99 47 s0))
def slead : State := shm 0b1111 0 0b1000 (sslab 3 s0)
theorem witness_HerdInstructionResults :
    ((srdv false 7 99 47 s0).ownRdv s0.me).map (fun x => x.2.sealed) = some false ∧ ((stab 0x101).getW b0 3).toNat % 256 ≠ 0 ∧
    (Memory.wf sherd.mem = true ∧ (sherd.ctx 7).deposits = 0 ∧ (sherd.ownRdv s0.me).map (fun x => x.2.sealed) = some true ∧
      (sherd.getW b0 3).toNat % 256 = 0 ∧ (sherd.getW b0 3).toNat < 2 ^ 16 ∧ (sherd.getW b0 3).toNat ≤ slabQlast (sherd.hslab b0)) ∧
    s0.ownRdv s0.me = none ∧ keySlot .f64 7 = none ∧ keySlot .n32 1 = none ∧ keySlot .f32 0 = some 0 ∧ keySlot .f64 6 = some 24 ∧
    s0.slabOk 0 (2 ^ 23 - 64) = false ∧
    (Memory.wf slead.mem = true ∧ slead.slabOk 0 (slead.hslab b0) = true ∧ (slead.ctx 7).deposits = 0 ∧ slead.hbase b0 = 0 ∧
      slabQlast (slead.hslab b0) = 3 ∧ slead.getH b0 .hm = 0b1111 ∧ slead.getH b0 .hf = 0b1000) ∧
    (∀ i, i < 4 → slead.lostIn (slabRec 0 (slead.hslab b0) i) 64 = none ∧
      (slabRec 0 (slead.hslab b0) i + 64 ≤ b0 ∨ b0 + 4096 ≤ slabRec 0 (slead.hslab b0) i)) ∧
    (bit ((shm 0b10000 0 (2 ^ 255) slead).getH b0 .hm) 4 = true ∧ bit ((shm 0b10000 0 (2 ^ 255) slead).getH b0 .hf) 255 = true) ∧
    WellFormed (.hside true 3 12) = true ∧ WellFormed (.hside true 3 62) = true := by decide

/-- What a journey to another core's local memory asks of the state besides (R96). -/
def journeys (s : State) : Prop := s.meOf 7 = some s0.me ∧ s.me = s0.me ∧ (s.ctx 7).migrating = false ∧
  (s.core 4).log.en = false ∧ ∀ m ∈ s.net, m.id < s.nextId
/-- The same slab in the local memory of core 5. -/
def sleadFar : State := shm 0b1111 0 0b1000 (s0.setWs b0 offHslab (0x590000 + 3 * 2 ^ 23))
theorem witness_HerdInstructionResults_far :
    Memory.wf sleadFar.mem = true ∧ sleadFar.slabOk 0 (sleadFar.hslab b0) = true ∧ (sleadFar.ctx 7).deposits = 0 ∧
    sleadFar.ownRdv s0.me = none ∧ sleadFar.hbase b0 = 0 ∧ slabQlast (sleadFar.hslab b0) = 3 ∧
    (∀ i, i < 4 → regionOf (slabRec 0 (sleadFar.hslab b0) i) = .local 5 ∧ sleadFar.lostIn (slabRec 0 (sleadFar.hslab b0) i) 64 = none ∧
      (slabRec 0 (sleadFar.hslab b0) i + 64 ≤ b0 ∨ b0 + 4096 ≤ slabRec 0 (sleadFar.hslab b0) i)) ∧
    bit (sleadFar.getH b0 .hm) 3 = true ∧ bit (sleadFar.getH b0 .hf) 3 = true ∧ journeys sleadFar := by unfold journeys; decide

/-- Rendezvous entries that meet the team's on the address in `w2`; none; each sealing. -/
def smeet (sealed : Bool) : State :=
  srdv sealed 9 (bits 0x40000 3 54) (rdvSet 0x40000 5 0 * 8 + 7) (shm 1 0 0 sl)
def shx (hx : Nat) : State := shm 1 hx 0 sl
def snone : State := (List.range 8).foldl (fun s g => s.modCore g (fun c => { c with frames := 0 })) (shx (2 ^ 255))
def sdep (key : Nat) (loc : Loc) : State :=
  ({ s0 with net := [{ id := 5, body := .deposit key 128 32 1 true 4 }] }).modCtx 7 (fun c => { c with loc := loc })
theorem local_32 : LocalAt sl sl.me .read 0x40000 32 lf ∧ LocalAt sl sl.me .write 0x40FE0 32 lf := by
  constructor <;> constructor <;> decide
theorem releases_split : ReleasesNow (shx (2 ^ 255)) (shx (2 ^ 255)).me .clu ∧ ReleasesNow snone snone.me .clu := by
  unfold ReleasesNow; decide
theorem table_home : TableAtHome (shx (2 ^ 255)) 0 := .inl (by decide)
theorem witness_HerdFlow :
    ((sl.ea b0 2 (.i24 1)).toNat % 32 ≠ 0 ∧ ((srdv false 7 99 47 sl).ownRdv sl.me).map (fun x => x.2.sealed) = some false ∧
      ((w 2 0x40004 sl).getW b0 2).toNat % 8 ≠ 0) ∧
    (Memory.wf sl.mem = true ∧ (sl.ctx 7).deposits = 0 ∧ sl.ownRdv sl.me = none ∧ (sl.ea b0 2 (.i24 0)).toNat = 0x40000 ∧
      (sl.ea b0 2 (.i24 0xFE0)).toNat = 0x40FE0 ∧ (lf.phys (0x40FE0 % 2 ^ 57) + 32 ≤ b0 ∨ b0 + 4096 ≤ lf.phys (0x40FE0 % 2 ^ 57))) ∧
    (LocalAt sl sl.me .read 0x40000 32 lf ∧ LocalAt sl sl.me .write 0x40FE0 32 lf) ∧
    ((sl.cluster 0).rdv = [] ∧ (sl.teamOf 7).domid = 5 ∧ sl.hbaseQb b0 = 0) ∧
    (∀ x ∈ [true, false], let r := ((smeet x).cluster 0).rdv; let k := rdvSet 0x40000 5 0 * 8 + 7
      (smeet x).ownRdv sl.me = none ∧ thas r k = true ∧ (tget r k).addr = bits 0x40000 3 54 ∧ (tget r k).dom = 5 ∧
      (tget r k).hb = 0 ∧ (tget r k).sealed = x ∧ ∀ u, u < 7 → thas r (rdvSet 0x40000 5 0 * 8 + u) = false) ∧
    (shx 0).getH b0 .hx = 0 ∧ (shx (2 ^ 255)).getH b0 .hx ≠ 0 ∧ snone.getH b0 .hx ≠ 0 ∧ snone.splitChoice 4 = none ∧
    ReleasesNow (shx (2 ^ 255)) (shx (2 ^ 255)).me .clu ∧ ReleasesNow snone snone.me .clu ∧
    ((shx (2 ^ 255)).splitChoice 4 = some (4, some 0, 0) ∧ wsBase 4 0 ≠ b0 ∧ ((shx (2 ^ 255)).part 0).nextCtx < 2 ^ 24 ∧
      (shx (2 ^ 255)).partOf 4 = 0) ∧ TableAtHome (shx (2 ^ 255)) 0 ∧
    ((sdep 9 (.frame 4 3)).msg? 5 = some (.deposit 9 128 32 1 true 4) ∧ (sdep 9 (.frame 4 3)).baseOf 9 = none) ∧
    ((sdep 7 (.spilling 4 3 0x8000)).msg? 5 = some (.deposit 7 128 32 1 true 4) ∧ (sdep 7 (.spilling 4 3 0x8000)).baseOf 7 = some b0 ∧
      ((sdep 7 (.spilling 4 3 0x8000)).ctx 7).ended = false ∧ (sdep 7 (.spilling 4 3 0x8000)).ctxHalted 7 = false ∧
      (sdep 7 (.spilling 4 3 0x8000)).delivers 7 = false) ∧
    ((sdep 7 (.frame 4 3)).msg? 5 = some (.deposit 7 128 32 1 true 4) ∧ (sdep 7 (.frame 4 3)).baseOf 7 = some b0 ∧
      ((sdep 7 (.frame 4 3)).ctx 7).loc = .frame 4 3 ∧ (sdep 7 (.frame 4 3)).ctxHalted 7 = false ∧
      ((sdep 7 (.frame 4 3)).core 4).log.en = false ∧ regionOf (b0 + 128) = .local 4 ∧
      (sdep 7 (.frame 4 3)).waiters (fun k w => k = 7 && w.block = .deposits) = []) :=
  ⟨by decide, by decide, local_32, by decide, by decide, by decide, by decide, by decide, by decide, releases_split.1, releases_split.2,
    by decide, table_home, by decide, by decide, by decide⟩

/-! ### Affine forms -/

/-- A register that holds no canonical form; the symbols of the team used up; a list whose reserved bytes are not zero. -/
def snocan : State := s0.setAf b0 1 (2 ^ 496)
def smint (next : BitVec 16) : State := s0.setTeam 0 0 { s0.team 0 0 with afnext := next }
def dom0 (n : Nat) : Domain := { dom := 5, next := n, lim := 3 }
theorem witness_AffineResults :
    (Memory.wf s0.mem = true ∧ (s0.ctx 7).cluster = 0 ∧ (s0.ctx 7).entry = 0 ∧ (s0.team 0 0).domid = 5) ∧
    (parseForm (s0.getAf b0 1) = some { c := 0, e := 0, terms := [], unb := false, fold := false, dom := 0 }) ∧
    parseForm (snocan.getAf b0 1) = none ∧
    ((smint 4).team 0 0).afnext = 4 ∧ (valAfnew (dom0 4) 0 0x3F800000 = .trap { cause := .afsym, info0 := 4, info1 := 3 }) ∧
    (match valAfnew (dom0 3) 0 0x3F800000 with | .form _ m => m | _ => false) = true ∧
    (match valAfadd false (dom0 2) { c := 0, e := 0, terms := [], unb := false, fold := false, dom := 0 }
      { c := 0, e := 0, terms := [], unb := false, fold := false, dom := 0 } with | .form _ m => !m | _ => false) = true ∧
    (clusterPa 0 (0x44010 + 2) + 4 ≤ b0 ∨ b0 + 4096 ≤ clusterPa 0 (0x44010 + 2)) ∧
    WellFormed (.afrng .f64 14 1) = true ∧ WellFormed (.afrng .f32 15 1) = true ∧
    (let s := stab 0x490000; s.clusterGeneral 0 0x490000 32 = true ∧ s.clusterWindow 0 0x490000 32 = false ∧
      s.clusterLost 0 0x490000 32 0 1 = none ∧ listOk (s.clusterRd 0 0x490000 32) = true) ∧
    listOk ((put 28 1 1 (stab 0x490000)).clusterRd 0 0x490000 32) = false ∧ ((stab 0x490010).getW b0 3).toNat % 32 ≠ 0 ∧
    ((sl.ea b0 2 (.i24 0xFC0)).toNat = 0x40FC0 ∧ 0x40FC0 % 64 = 0 ∧ (sl.ea b0 2 (.i24 32)).toNat % 64 ≠ 0 ∧
      lf.phys ((0x40FC0 + 32) % 2 ^ 57) = lf.phys (0x40FC0 % 2 ^ 57) + 32 ∧
      (lf.phys (0x40FC0 % 2 ^ 57) + 64 ≤ b0 ∨ b0 + 4096 ≤ lf.phys (0x40FC0 % 2 ^ 57)) ∧
      canonicalForm (sl.rd (lf.phys (0x40FC0 % 2 ^ 57)) 32 + sl.rd (lf.phys ((0x40FC0 + 32) % 2 ^ 57)) 32 * 2 ^ 256) = true ∧
      (let s := put 0xFFE 2 1 sl
       canonicalForm (s.rd (lf.phys (0x40FC0 % 2 ^ 57)) 32 + s.rd (lf.phys ((0x40FC0 + 32) % 2 ^ 57)) 32 * 2 ^ 256) = false) ∧
      canonicalForm (sl.getAf b0 1) = true ∧ canonicalForm (snocan.getAf b0 1) = false) ∧
    localB sl sl.me .read 0x40FC0 32 lf = true ∧ localB sl sl.me .read 0x40FE0 32 lf = true ∧
    localB sl sl.me .write 0x40FC0 32 lf = true ∧ localB sl sl.me .write 0x40FE0 32 lf = true := by decide
theorem witness_AffineResults_far :
    (let s := stab 0x590000
     Memory.wf s.mem = true ∧ (s.getW b0 3).toNat = 0x590000 ∧ 0x590000 / 2 ^ 20 % 8 ≠ 4 % 8 ∧ 0x590000 % 32 = 0 ∧
      s.clusterGeneral 0 0x590000 32 = true ∧ s.clusterWindow 0 0x590000 32 = false ∧ s.clusterLost 0 0x590000 32 0 1 = none ∧
      listOk (s.clusterRd 0 0x590000 32) = true ∧ journeys s) ∧
    (let s := (stab 0x590000).wr (localPa 5 0x9001C) 1 1
     listOk (s.clusterRd 0 0x590000 32) = false ∧ journeys s) := by unfold journeys; decide

/-! ### Tasks -/

def sbusy : State := s0.modQuad 1 (fun q => { q with granted := [{ id := 1, ctx := 7, instr := .twait }] })
theorem witness_ContextEnds : Memory.wf s0.mem = true ∧ s0k.kindOf s0k.me.base = 1 ∧ s0.kindOf s0.me.base ≠ 1 ∧
    (s0.ctx 7).deposits = 0 ∧ (s0k.ctx 7).deposits = 0 ∧ (shm (2 ^ 255) 0 0 s0).getH b0 .hm ≠ 0 ∧ s0.getH b0 .hm = 0 ∧
    sbusy.elandBusy 7 = true ∧ sbusy.getH b0 .hm = 0 ∧ s0.elandBusy 7 = false ∧ ReleasesNow s0 s0.me .dev ∧
    (s0.ctx 7).slot = some s0.me.slot ∧ (s0.ctx 7).borrow = none ∧ (s0.ctx 7).savedBorrow = none ∧
    (s0.ctx 7).savedBytes = none ∧ (s0.part (7 / 2 ^ 24)).cltb = 0 := by unfold ReleasesNow; decide

/-- A counter block at offset 0x90000 of the own core, with a count; its cluster halted. -/
def sdec (n : Nat) : State := w 3 (4 * 2 ^ 20 + 0x90000) (put 0 8 n s0)
def sdech : State := (sdec 1).modCluster 0 (fun c => { c with dbg := { c.dbg with state := 2 } })
/-- A launch header at 0x40F80: six extents of 1, cluster 0, domain records from 0x4A0000. -/
def sspawn (ext : Nat) : State :=
  put (0xF80 + 64) 8 0x4A0000 (put (0xF80 + 48) 6 1 (put (0xF80 + 24) 24 (ext * (2 ^ 192 - 1) / (2 ^ 32 - 1)) (w 3 0x40F80 s1)))
theorem spawn_local (i : Nat) (h : i < 4) : localB (sspawn 1) (sspawn 1).me .read (0x40F80 + 32 * i) 32 lf = true ∧
    (lf.phys ((0x40F80 + 32 * i) % 2 ^ 57) + 32 ≤ b0 ∨ b0 + 4096 ≤ lf.phys ((0x40F80 + 32 * i) % 2 ^ 57)) := by
  revert i; decide
theorem witness_DecrementAndSpawnResults :
    (s0.dectOk 0 (4 * 2 ^ 20 + 0x90001) = false ∧ s0.dectOk 0 (383 * 2 ^ 20 + 0xC0000) = false) ∧
    (∀ n ∈ [0, 1, 2], Memory.wf (sdec n).mem = true ∧ (sdec n).dectOk 0 ((sdec n).getW b0 3).toNat = true ∧
      (sdec n).lostIn lp 8 = none ∧ (sdec n).rd lp 8 % 2 ^ 32 = n ∧ (sdec n).halted (clusterOf (dectCore ((sdec n).getW b0 3).toNat)) = false) ∧
    (lp + 80 ≤ b0 ∨ b0 + 4096 ≤ lp) ∧ sdech.halted (clusterOf 4) = true ∧
    (ReleasesNow (sdec 1) (sdec 1).me .slot ∧ ReleasesNow (sdec 1) (sdec 1).me .sys ∧ ReleasesNow (sspawn 1) (sspawn 1).me .dev ∧
      ReleasesNow (sspawn 0) (sspawn 0).me .dev) ∧
    ((w 3 0x40041 s1).getW b0 3).toNat % 128 ≠ 0 ∧ Memory.wf (sspawn 1).mem = true ∧ ((sspawn 1).getW b0 3).toNat = 0x40F80 ∧
    (∀ i, i < 4 → LocalAt (sspawn 1) (sspawn 1).me .read (0x40F80 + 32 * i) 32 lf ∧
      (lf.phys ((0x40F80 + 32 * i) % 2 ^ 57) + 32 ≤ b0 ∨ b0 + 4096 ≤ lf.phys ((0x40F80 + 32 * i) % 2 ^ 57))) ∧
    (let h := (sspawn 1).rd (lp + 0xF80) 128
     (sspawn 1).headerOk 0 h = true ∧ (createLaunch 0 (launchOf h 0 true 0 none) (sspawn 1)).isSome = true) ∧
    (sspawn 0).headerOk 0 ((sspawn 0).rd (lp + 0xF80) 128) = false :=
  ⟨by decide, by decide, by decide, by decide, by unfold ReleasesNow; decide, by decide, by decide, by decide,
    fun i h => ⟨localB_at (spawn_local i h).1, (spawn_local i h).2⟩, by decide, by decide⟩

/-- The block's record, one that software may offer or zeros; its core's ring with room for it, without, and one that is
not enabled. -/
def sdrec (rec : Nat) : State := put 16 32 rec (sdec 1)
def sdring (head tail : Nat) : State :=
  (sdrec (leNat (natBytes 32 (1 + 16 + 7 * 2 ^ 56 + 0x1234 * 2 ^ 64)))).modCore 4
    (fun c => { c with rrBase := 0x70, rrSize := 0, rrEn := true, rrTail := tail, rrHead := head })
theorem witness_DecrementAndSpawnResults_ring :
    (Memory.wf (sdrec 0).mem = true ∧ (sdrec 0).rd lp 8 % 2 ^ 32 = 1 ∧ recordShape ((sdrec 0).rd (lp + 16) 8) ((sdrec 0).rd (lp + 24) 8) = false ∧
      (sdrec 0).dectOk 0 ((sdrec 0).getW b0 3).toNat = true ∧ (sdrec 0).halted 0 = false) ∧
    (∀ p ∈ [(0, 0), (0, 4080), (0, 4096)], let s := sdring p.1 p.2
      Memory.wf s.mem = true ∧ s.dectOk 0 (s.getW b0 3).toNat = true ∧ s.lostIn lp 8 = none ∧ s.rd lp 8 % 2 ^ 32 = 1 ∧
        recordShape (s.rd (lp + 16) 8) (s.rd (lp + 24) 8) = true ∧ recLen (s.rd (lp + 16) 8) = 32 ∧
        behindHeld 4 s.me.slot s.held = false ∧ s.net = [] ∧ (s.ctx 7).ended = false ∧ thas s.ctxs 7 = true ∧
        s.ctxs.all (fun e => e.2.wait.isNone) = true ∧ (localPa 4 0x70000 + 4096 ≤ b0 ∨ b0 + 4096 ≤ localPa 4 0x70000) ∧ journeys s) ∧
    (0 + 2 ^ 32 - 0) % 2 ^ 32 + 0 + 32 ≤ 4096 ∧ ¬ (4080 + 2 ^ 32 - 0) % 2 ^ 32 + (4096 - 4080) + 32 ≤ 4096 := by
  unfold journeys; decide

/-- The block in core 5, with a count and a record that software may offer; room for it in that core's ring, or none. -/
def sdecf (n tail : Nat) : State :=
  let s := w 3 (5 * 2 ^ 20 + 0x90000) (((s0.wr (localPa 5 0x90000) 8 n)).wr (localPa 5 0x90010) 16 (1 + 16 + 7 * 2 ^ 56 + 0x1234 * 2 ^ 64))
  s.modCore 5 (fun c => { c with rrBase := 0x70, rrSize := 0, rrEn := true, rrTail := tail, rrHead := 0 })
theorem witness_DecrementAndSpawnResults_far :
    dectCore ((sdec 1).getW b0 3).toNat = (sdec 1).me.core ∧
    (∀ p ∈ [(0, 0), (2, 0), (1, 0), (1, 4080)], let s := sdecf p.1 p.2
      Memory.wf s.mem = true ∧ dectCore (s.getW b0 3).toNat ≠ s.me.core ∧ s.dectOk 0 (s.getW b0 3).toNat = true ∧
        s.lostIn (localPa 5 0x90000) 8 = none ∧ s.rd (localPa 5 0x90000) 8 % 2 ^ 32 = p.1 ∧
        (localPa 5 0x90000 + 80 ≤ b0 ∨ b0 + 4096 ≤ localPa 5 0x90000) ∧
        recordShape (s.rd (localPa 5 0x90010) 8) (s.rd (localPa 5 0x90018) 8) = true ∧ behindHeld 5 s.me.slot s.held = false ∧
        (s.core 5).log.en = false ∧ (localPa 5 0x70000 + 4096 ≤ b0 ∨ b0 + 4096 ≤ localPa 5 0x70000) ∧ journeys s) ∧
    ReleasesNow (sdecf 2 0) (sdecf 2 0).me .clu := by unfold journeys ReleasesNow; decide

/-- Two members of a team at its barrier, in frames 3 and 4, the second not yet there. -/
def sbar (ts : Option Nat) : State :=
  let s := (s0.setCtx 8 { loc := .frame 4 4, slot := some 67, born := 1, barrierTs := ts }).setWs (wsBase 4 4) offCtxn 8
  (s.setTeam 0 0 { s.team 0 0 with members := [7, 8] }).modCtx 7 (fun c => { c with barrierTs := some 5000 })
/-- With frame 0 and slot 0 of the core borrowed. -/
def sborrow : State := next (exec (.borrow 1) s0)
theorem witness_BarrierAndBorrowResults :
    (s0k.kindOf s0k.me.base = 1 ∧ (let s := s0.setWs b0 offCtxn (7 + 2 ^ 25); s.kindOf s.me.base = 2)) ∧
    (Memory.wf s0.mem = true ∧ s0.kindOf b0 = 0 ∧ ReleasesNow s0 s0.me .clu) ∧
    ((sbar none).barrierMembers ((sbar none).team 0 0) = [7, 8] ∧ ((sbar none).ctx 8).barrierTs = none ∧
      s0.barrierMembers (s0.team 0 7) = []) ∧
    ((sbar (some 4999)).barrierMembers ((sbar (some 4999)).team 0 0) = [7, 8] ∧ ((sbar (some 4999)).ctx 7).loc = .frame 4 3 ∧
      ((sbar (some 4999)).ctx 8).loc = .frame 4 4 ∧ ((sbar (some 4999)).ctx 7).barrierTs = some 5000 ∧
      ((sbar (some 4999)).ctx 8).barrierTs = some 4999) ∧
    (s0.brw b0 = false ∧ s0.borrowSlot 4 = some 0 ∧ s0.freeFrame 4 = some 0 ∧ wsBase 4 0 ≠ b0 ∧ (s0.ctx 7).borrow = none) ∧
    (Memory.wf sborrow.mem = true ∧ sborrow.brw b0 = true ∧ (sborrow.ctx 7).borrow = some (64, 0) ∧ (sborrow.ctx 7).loc = .frame 4 3 ∧
      b0 = wsBase 4 3 ∧ wsBase (64 / 16) 0 ≠ b0) ∧
    (s0.modCore 4 (fun c => { c with frames := 0 })).freeFrame 4 = none ∧
    WellFormed (.xmv .w true 15 1) = true ∧ WellFormed (.xmv .p false 7 1) = true ∧ WellFormed (.xmv .af true 7 1) = true := by
  unfold ReleasesNow; decide
/-! ### Records, rings and the balancer -/

/-- A codelet record of launch 7 with one argument; the launch with its codelet team; the ring of a core at offset
0x70000, with TAIL 16 bytes before its end. -/
def rec1 : List Byte := natBytes 32 (1 + 16 + 7 * 2 ^ 56 + 0x1234 * 2 ^ 64 + 0xAA * 2 ^ 192)
def rlaunch (s : State) : State :=
  (s.modPart 0 (fun x => { x with launches := tset x.launches 7 { ptroot := 0x9000, cmask := 1 } })).setTeam 0 1
    { part := 0, ln := 7, team := none, domid := 9 }
def rring (g head tail : Nat) (s : State) : State :=
  s.modCore g (fun c => { c with rrBase := 0x70, rrSize := 0, rrEn := true, rrTail := tail, rrHead := head })
def rfull (g : Nat) (s : State) : State := (rring g 0 32 s).wr (localPa g 0x70000) 32 (leNat rec1)
/-- Cluster 0 under a governor of launch 0 whose table of two stages is at 0x490800: core masks, occupancy of the first. -/
def rgov (occ : Nat) (s : State) : State :=
  let s := (s.modPart 0 (fun x => { x with launches := tset x.launches 0 { govt := 0x490800 } })).modCluster 0
    (fun c => { c with gov := { c.gov with ln := some (0, 0) } })
  let s := put 0x800 8 (2 + 2 ^ 32) s
  let s := put (0x840 + 32) 1 0b10 (put (0x840 + 28) 4 occ (put (0x840 + 16) 4 16 s))
  put (0x880 + 32) 1 0x81 (put (0x880 + 16) 4 16 s)
def rrenq (b : Word) : State := w 4 b (put 0 32 (leNat rec1) (rlaunch (stab 0x490000)))
/-- The same record in core 5's memory. -/
def rrenqFar (b : Word) : State := w 4 b ((rlaunch (stab 0x590000)).wr (localPa 5 0x90000) 32 (leNat rec1))
theorem witness_RecordInstructions : Memory.wf (rrenq 4).mem = true ∧ ((stab 0x490008).getW b0 3).toNat % 16 ≠ 0 ∧
    (let s := rrenq 4; let r := s.clusterRd 0 0x490000 32
     (s.getW b0 3).toNat = 0x490000 ∧ recLen (s.clusterRd 0 0x490000 8) = 32 ∧ s.clusterGeneral 0 0x490000 16 = true ∧
      s.clusterGeneral 0 0x490000 32 = true ∧ s.clusterWindow 0 0x490000 32 = false ∧ s.clusterLost 0 0x490000 32 0 1 = none ∧
      s.renqPlace s.me (r % 2 ^ 64) (r / 2 ^ 64 % 2 ^ 64) (s.getW b0 4) = some (.ready 4) ∧
      s.renqPlace s.me (r % 2 ^ 64) (r / 2 ^ 64 % 2 ^ 64) 384 = none) ∧
    (s0.holdsGov 0 0 0 = false ∧ (rgov 0 sl).holdsGov 0 ((rgov 0 sl).ctx 7).ln 0 = true ∧ ((rgov 0 sl).ring (.stage 0 1)).isSome = true ∧
      ((rgov 0 sl).ring (.stage 0 2)).isSome = false) ∧
    ((stab 0x490000).clusterGeneral 0 0x490000 64 = true ∧ (stab 0x490000).peekRing (.ready 4) = none) ∧
    ((rfull 4 (stab 0x490000)).peekRing (.ready 4) = some (0, rec1) ∧ recFr (leNat rec1) = false ∧
      (rfull 4 (stab 0x490000)).clusterWindow 0 0x490000 rec1.length = false ∧ 0x490000 % 0x100000 + rec1.length ≤ 0x100000 ∧
      (clusterPa 0 0x490000 + rec1.length ≤ b0 ∨ b0 + 4096 ≤ clusterPa 0 0x490000)) ∧
    (let s := (rfull 4 (stab 0x490000)).wr (localPa 4 0x70001) 1 1
     (s.peekRing (.ready 4)).map (fun x => recFr (leNat x.2)) = some true) ∧
    (let s := rfull 4 (stab 0x590000)
     0x590000 / 0x100000 ≠ 4 % 8 ∧ s.peekRing (.ready 4) = some (0, rec1) ∧ s.clusterWindow 0 0x590000 rec1.length = false ∧
      s.clusterLost 0 0x590000 rec1.length 0 1 = none ∧ 0x590000 % 0x100000 + rec1.length ≤ 0x100000 ∧
      (clusterPa 0 0x590000 + rec1.length ≤ b0 ∨ b0 + 4096 ≤ clusterPa 0 0x590000) ∧ journeys s) ∧
    (dieOf 192 ≠ dieOf s0.me.core ∧ dieOf 191 = dieOf s0.me.core ∧ s0.partOf 191 = s0.partOf s0.me.core) ∧
    (let s := rrenqFar 4; let r := s.clusterRd 0 0x590000 32
     Memory.wf s.mem = true ∧ recLen (s.clusterRd 0 0x590000 8) = 32 ∧ s.clusterGeneral 0 0x590000 32 = true ∧
      s.clusterWindow 0 0x590000 32 = false ∧ s.clusterLost 0 0x590000 32 0 1 = none ∧ journeys s ∧
      s.renqPlace s.me (r % 2 ^ 64) (r / 2 ^ 64 % 2 ^ 64) (s.getW b0 4) = some (.ready 4) ∧
      s.renqPlace s.me (r % 2 ^ 64) (r / 2 ^ 64 % 2 ^ 64) 384 = none) ∧
    (∀ s ∈ [w 3 191 s0, w 3 5 (rfull 5 (rring 4 0 0 (rlaunch s0)))], journeys s ∧ s.halted (clusterOf (s.getW b0 3).toNat) = false ∧
      s.ctxs.all (fun e => e.2.wait.isNone) = true) ∧
    moveRecord 191 4 s0 = none ∧ (moveRecord 5 4 (rfull 5 (rring 4 0 0 (rlaunch s0)))).isSome = true := by
  unfold journeys; refine ⟨?_, ?_, ?_, ?_, ?_, ?_, ?_, ?_, ?_, ?_, ?_, ?_, ?_⟩ <;> decide

/-- A record in flight to core 4, and one held, with the ring's HEAD at a place. -/
def rfly (head : Nat) : State :=
  rring 4 head 4080 { s0 with
    net := [{ id := 5, body := .record 4 rec1 (some 7) {} 66 false }]
    held := [{ id := 6, ctx := some 7, target := 4, bytes := rec1, since := some 4000, sender := 67 }] }
def rlate (gt : Nat) : State := (rfly 32).setDie 0 { (rfly 32).die 0 with gt := gt }
theorem witness_RingFlow : Memory.wf (rfly 32).mem = true ∧ (rfly 32).halted (clusterOf 4) = false ∧
    (∃ v, (rfly 32).ring (.ready 4) = some v ∧ 0 < v.size ∧ v.used = 4048 ∧ v.size - v.tail % v.size = 16 ∧ v.size = 4096) ∧
    (∃ v, (rfly 16).ring (.ready 4) = some v ∧ v.used = 4064) ∧
    ((rfly 32).msg? 5 = some (.record 4 rec1 (some 7) {} 66 false) ∧ behindHeld 4 66 (rfly 32).held = false) ∧
    (enqueue (.ready 4) rec1 {} ((rfly 32).drop 5)).isSome = true ∧ (enqueue (.ready 4) rec1 {} ((rfly 16).drop 5)).isNone = true ∧
    (∃ h, (rfly 32).held.find? (fun x => x.id = h.id) = some h ∧ h.target = 4 ∧ h.bytes = rec1 ∧ h.stamp = {} ∧
      (rfly 32).senderHalted h = false ∧ behindHeld 4 h.sender (heldBefore h.id (rfly 32).held) = false ∧ h.ctx = some 7 ∧ h.since = some 4000) ∧
    (enqueue (.ready 4) rec1 {} (rfly 32)).isSome = true ∧ (enqueue (.ready 4) rec1 {} (rfly 16)).isNone = true ∧
    ((rfly 32).meOf 7 = some s0.me ∧ (rfly 32).pl b0 = false ∧ (rlate 19999).gtOf 4 < 4000 + 16000 ∧ 4000 + 16000 ≤ (rlate 20000).gtOf 4) :=
  ⟨by decide, by decide, ⟨_, rfl, by decide⟩, ⟨_, rfl, by decide⟩, by decide, by decide, by decide,
    ⟨{ id := 6, ctx := some 7, target := 4, bytes := rec1, since := some 4000, sender := 67 }, by decide⟩, by decide, by decide, by decide⟩

/-- A record of the same sender in flight before it; a held one before it; one held whose ring has not moved since its
refusal, one that has moved and still has no room, and one not yet offered. -/
def rtwice : State := { rfly 32 with net := { id := 4, body := .record 4 rec1 none {} 66 false } :: (rfly 32).net }
def rheld (at' : Option Nat) (since : Option Nat) (head : Nat) : State :=
  { rfly head with held := [{ id := 6, ctx := some 7, target := 4, bytes := rec1, since := since, headAt := at', sender := 66 }] }
theorem witness_RingFlow_order :
    (rtwice.msg? 5 = some (.record 4 rec1 (some 7) {} 66 false) ∧ rtwice.behindSent 5 4 66 = true) ∧
    ((rheld none none 32).behindSent 5 4 66 = false ∧ behindHeld 4 66 (rheld none none 32).held = true) ∧
    (rfly 32).behindSent 5 4 66 = false ∧
    (((rheld (some 16) (some 4000) 16).ring (.ready 4)).map (·.head) = some 16) ∧
    (((rheld (some 0) (some 4000) 16).ring (.ready 4)).map (·.head) ≠ some 0 ∧
      (enqueue (.ready 4) rec1 {} (rheld (some 0) (some 4000) 16)).isNone = true) ∧
    behindHeld 4 66 (heldBefore 6 (rheld none none 32).held) = false ∧
    (enqueue (.ready 4) rec1 {} (rheld none none 16)).isNone = true := by decide

/-- A codelet's record in the ring of core 4; no slot named; the cluster halted; a migration command; a governor at work. -/
def rready : State := rlaunch (rfull 4 s0)
def rnone : State := rready.modCore 4 (fun c => { c with rtab0 := 0x2222222222222222, rtab1 := 0x2222222222222222 })
def rhalt (s : State) : State := s.modCluster 0 (fun c => { c with dbg := { c.dbg with state := 1 } })
def rmig : State := { rready with net := [{ id := 5, body := .migrate 4 5 1 }] }
def reos (k : Nat) : State := (rgov 0 s0).modCluster 0 (fun c => { c with gov := { c.gov with eosHeld := [(4, k, [])] } })
theorem witness_DispatchEvents : Memory.wf rready.mem = true ∧ rnone.freeNamed 4 = [] ∧ (rhalt rready).halted (clusterOf 4) = true ∧
    (s0.peekRing (.ready 4) = none ∧ s0.stageOf 4 = none) ∧
    (rready.freeNamed 4 = 0 :: (rready.freeNamed 4).tail) ∧ rready.halted (clusterOf 4) = false ∧
    rready.peekRing (.ready 4) = some (0, rec1) ∧
    (recFr (leNat rec1 % 2 ^ 64) = false ∧ thas ((rfull 4 s0).part 0).launches (recLn (leNat rec1)) = false ∧
      (rfull 4 s0).peekRing (.ready 4) = some (0, rec1)) ∧
    (recordShape (1 + 2 ^ 9) 0 = false ∧ recordShape (leNat rec1 % 2 ^ 64) (leNat rec1 / 2 ^ 64 % 2 ^ 64) = true ∧
      recKind (leNat rec1 % 2 ^ 64) = 1 ∧ leNat rec1 < 2 ^ (8 * rec1.length) ∧ thas (rready.part 0).launches 7 = true ∧
      rready.codeletIn 0 7 (clusterOf 4) = true ∧ rready.freeFrame 4 = some 0 ∧ (rready.part 0).cltb = 0 ∧
      (rready.part 0).nextCtx < 2 ^ 24 ∧ rready.partOf 4 = 0) ∧
    ({ s0 with dev := { s0.dev with baloff := true } } : State).dev.baloff = true ∧
    (rmig.msg? 5 = some (.migrate 4 5 1) ∧ (rhalt rmig).msg? 5 = some (.migrate 4 5 1) ∧ (rhalt rmig).halted (clusterOf 4) = true ∧
      rmig.peekRing (.ready 4) = some (0, rec1) ∧ rmig.codeletIn (rmig.partOf 5) 7 (clusterOf 5) = true) ∧
    s0.govTable 0 = none ∧
    (∀ occ ∈ [0, 16], let s := rgov occ s0
      s.govTable 0 = some 0x490800 ∧ s.halted 0 = false ∧ s.clusterRd 0 0x490800 1 = 2 ∧ s.clusterRd 0 0x490801 1 = 0 ∧
        (s.cluster 0).gov.lastMove = []) ∧
    (let x := (rgov 0 s0).stageView 0 0x490800 0; let y := (rgov 0 s0).stageView 0 0x490800 1
     x.occ < x.high ∧ y.occ < y.high) ∧
    (let x := (rgov 16 s0).stageView 0 0x490800 0; let y := (rgov 16 s0).stageView 0 0x490800 1
     x.high ≤ x.occ ∧ y.occ < x.occ ∧ y.occ ≤ y.low ∧ y.minc < popCount 8 y.cores ∧ bit y.cores 7 = true ∧ bit x.cores 7 = false ∧
      x.cores < 256 ∧ y.cores < 256) ∧
    (∀ k ∈ [0, 1], ((reos k).cluster 0).gov.eosHeld = [(4, k, [])] ∧ (reos k).govTable 0 = some 0x490800 ∧
      (reos k).clusterRd 0 0x490800 1 = 2) := by and_intros <;> decide
/-! ### Teams, shoot-downs, contexts moved and stopped -/

/-- Launch 3 with one team of `n` threads waiting, on cluster 0; the same for a team swapped out. -/
def qlaunch (n : Nat) : Launch := { cmask := 1, widths := [7], extents := [n], tf := 1, drbase := 0x4A0000, entry := 0x4000 }
def qwait (n upto : Nat) : State :=
  s0.modPart 0 (fun x => { x with launches := tset x.launches 3 (qlaunch n), waiting := [{ ln := 3, first := 0, upto := upto }] })
def qsaved : State :=
  s0.modPart 0 (fun x => { x with launches := tset x.launches 3 (qlaunch 1),
                                  waiting := [{ ln := 3, saved := true, members := List.range 128 }] })
def qempty : State := s0.setTeam 0 0 { s0.team 0 0 with members := [] }
/-- The own team, its time quantum over, or not yet, while another team waits. -/
def qswap (gt : Nat) : State :=
  let s := ({ s0 with dev := { s0.dev with bring := false } }).modPart 0 (fun x =>
    { x with launches := tset (tset x.launches 3 (qlaunch 1)) 0 {}, waiting := [{ ln := 3, first := 0, upto := 1 }],
             pool := [0x9000] })
  s.setDie 0 { s.die 0 with gt := gt }
/-- The swap-out begun, with a member that waits for a reply; the cluster halted. -/
def qleave : State := ((qswap 100000).setTeam 0 0 { (qswap 100000).team 0 0 with leaving := true }).setWait 7 { block := .walk 4 (s0.ptroot b0) 0x40000 1 }
def qhalt : State := (qswap 100000).modCluster 0 (fun c => { c with dbg := { c.dbg with state := 2 } })
def qend (done : Nat) : State :=
  s0.modPart 0 (fun x => { x with launches := tset x.launches 3 { qlaunch 1 with done := BitVec.ofNat 64 done } })
theorem witness_TeamEvents : Memory.wf s0.mem = true ∧ (s0.part 0).waiting = [] ∧
    ((qwait 128 1).part 0).waiting = [{ ln := 3, first := 0, upto := 1 }] ∧ teamSize 1 [128] = 128 ∧
    (qwait 128 1).placeCluster (qlaunch 128) 128 = none ∧
    ((qsaved.part 0).waiting.map (fun w => (w.saved, w.members.length)) = [(true, 128)] ∧
      qsaved.placeCluster (tget (qsaved.part 0).launches 3) 128 = none) ∧
    (∀ upto ∈ [1, 2], (qwait 1 upto).placeCluster (qlaunch 1) 1 = some 0 ∧ (qwait 1 upto).freeEntry 0 = some 1 ∧
      (qwait 1 upto).placeCore 0 (threadIndex (qlaunch 1) 0) = some 0 ∧ ((qwait 1 upto).freeNamed 0).head? = some 0 ∧
      (qwait 1 upto).freeFrame 0 = some 0 ∧ clusterOf 0 = 0 ∧ ((qwait 1 upto).part 0).cltb = 0 ∧
      ((qwait 1 upto).part 0).nextCtx < 2 ^ 24 ∧ (qwait 1 upto).partOf 0 = 0 ∧ ((qwait 1 upto).domids 0).length < 65535) ∧
    teamSize 1 [1] = 1 ∧ (s0.team 0 0).members ≠ [] ∧
    (thas (qempty.cluster 0).teams 0 = true ∧ (qempty.team 0 0).team.isSome = true ∧ (qempty.team 0 0).members = [] ∧
      (qempty.part 0).waiting = []) ∧
    ((s0.team 0 7).team = none ∧ s0.dev.bring = true) ∧
    (∀ gt ∈ [99999, 100000], ((qswap gt).team 0 0).team = some 0 ∧ (qswap gt).dev.bring = false ∧ ((qswap gt).part 0).waiting ≠ [] ∧
      (qswap gt).halted 0 = false ∧ ((qswap gt).team 0 0).members = [7] ∧ (qswap gt).canPreempt 7 = true ∧
      ((qswap gt).ctx 7).killing = false ∧ (qswap gt).delivers 7 = true ∧ ((qswap gt).part 0).pool = [0x9000] ∧
      0x9000 % 128 = 0 ∧ 0x9000 + 4096 ≤ 4 * quarterBytes ∧ ((qswap gt).team 0 0).drec % 16 = 0 ∧
      ((qswap gt).team 0 0).leaving = false) ∧
    ((qleave.team 0 0).leaving = true ∧ (qleave.team 0 0).members = [7] ∧ qleave.canPreempt 7 = false ∧
      (qleave.ctx 7).slot ≠ none ∧ (qleave.ctx 7).killing = false ∧ qleave.halted 0 = false) ∧ qhalt.halted 0 = true ∧
    (let tm := (qswap 99999).team 0 0
     (qswap 99999).gtOf (0 * 8) < tm.placed + (tget ((qswap 99999).part tm.part).launches tm.ln).quant * 1000 ∧
      tm.placed + (tget ((qswap 100000).part tm.part).launches tm.ln).quant * 1000 ≤ (qswap 100000).gtOf (0 * 8)) ∧
    (thas (s0.part 0).launches 3 = false ∧ s0.launchOver 0 0 = false) ∧
    (∀ d ∈ [0, 0x490000], thas ((qend d).part 0).launches 3 = true ∧ (qend d).launchOver 0 3 = true ∧
      (tget ((qend d).part 0).launches 3).command = none ∧ (tget ((qend d).part 0).launches 3).done.toNat = d ∧
      (tget ((qend d).part 0).launches 3).vt ≤ (qend d).gt (partDie 0)) ∧
    (∀ vt ∈ [5000, 5001], let l : Launch := { qlaunch 1 with vt := vt, command := some (2, 0x8000), peers := [4] }
      let s := s0.modPart 0 (fun x => { x with launches := tset x.launches 3 l })
      tget (s.part 0).launches 3 = l ∧ s.launchOver 0 3 = true ∧ s.gt (partDie 0) = 5000 ∧ l.peers ≠ []) ∧
    (dectCore (4 * 2 ^ 20 + 0x90000) = 4 ∧ s0.halted (clusterOf 4) = false ∧ (s0.core 4).log.en = false ∧
      s0.feWaiters (localPa 4 (dectOff (4 * 2 ^ 20 + 0x90000))) = []) := by and_intros <;> decide

/-- Swapped-out teams in the queue; enough of them to hold every DOMID. -/
def qteams (ws : List TeamWait) : State := s0.modPart 0 (fun x => { x with waiting := { ln := 3, upto := 1 } :: ws })
theorem qteams_waiting (ws : List TeamWait) : ((qteams ws).part 0).waiting = { ln := 3, upto := 1 } :: ws := rfl
theorem qteams_domids (ws : List TeamWait) : (ws.filter (·.saved)).length ≤ ((qteams ws).domids 0).length := by
  simp [State.domids, qteams_waiting]
theorem witness_TeamEvents_domids : ∃ ws, ((qteams ws).part 0).waiting = { ln := 3, upto := 1 } :: ws ∧
    65535 ≤ ((qteams ws).domids 0).length :=
  ⟨List.replicate 65535 { ln := 3, saved := true }, qteams_waiting _,
    Nat.le_trans (by rw [List.filter_replicate_of_pos rfl, List.length_replicate]) (qteams_domids _)⟩

/-- `wfe` in progress since a GT; a shoot-down in flight, with an access of the partition to the page that is not done. -/
def qwfe (start : Nat) : State := s0.setWait 7 { block := .wfe start }
def qtinv : State := { s0 with net := [{ id := 5, body := .tinv 5 7 0 0x40000 0x41000 none }] }
def qpend : State :=
  qtinv.setWait 7 { block := .line 4 160, cont := { op := .read, elems := [{ va := 0x40FFF, leaf := hf, pa := 0x5FFF }], prog := [.perform 0] } }
def qsel (v : Word) : State := w 3 v s0p
theorem witness_ShootDownResults : Memory.wf s0.mem = true ∧ s0k.kindOf s0k.me.base = 1 ∧ s0.kindOf s0.me.base ≠ 1 ∧
    ((qwfe 4000).ctx 7).slot = some 66 ∧ (qwfe 4000).waitOf 7 = some (.wfe 4000) ∧ 4000 + 1000 ≤ (qwfe 4000).gtOf (66 / 16) ∧
    ((qwfe 4001).waitOf 7 = some (.wfe 4001) ∧ (qwfe 4001).gtOf (66 / 16) < 4001 + 1000) ∧ s0.pl b0 = false ∧ s0p.pl b0 = true ∧
    (2 ^ 13 ≤ ((qsel 0x2000).getW b0 3).toNat ∧ ((qsel 0x1FFF).getW b0 3).toNat < 2 ^ 13) ∧ (s0p.ctx 7).tinvs = [] ∧
    ((s0p.modCtx 7 (fun c => { c with tinvs := [5] })).ctx 7).tinvs ≠ [] ∧
    (qtinv.msg? 5 = some (.tinv 5 7 0 0x40000 0x41000 none) ∧ qtinv.pendingIn 0 0x40000 0x41000 = false ∧
      qtinv.waiters (fun k w => k = 7 && w.block = .tsync) = []) ∧
    (qpend.msg? 5 = some (.tinv 5 7 0 0x40000 0x41000 none) ∧ qpend.pendingIn 0 0x40000 0x41000 = true) := by and_intros <;> decide

/-- Context 8 parked in frame 4 of the core, in an image in HBM, or on its way; the pool of two blocks. -/
def qctx (a b : Word) (loc : Loc) (s : State) : State :=
  (w 4 b (w 3 a (s.setCtx 8 { loc := loc, cluster := 0, born := 1 }))).modPart 0 (fun x => { x with pool := [0x9000, 0xA000] })
def qpark : State := qctx 8 0x9000 (.frame 4 4) s0p
def qhbm : State := qctx 8 0xFF (.hbm 0x8000) (s0p.modCore 4 (fun c => { c with frames := 256 }))
def qout (loc : Loc) : State := qctx 8 0 loc s0
def qfull : State := (qout (.frame 4 4)).modCore 4 (fun c => { c with frames := 0 })
def qmig (gt : Nat) : State := let s := s0.modCtx 7 (fun c => { c with migrating := true, saveGt := 4967 }); s.setDie 0 { s.die 0 with gt := gt }
theorem image_rests (i : Nat) (h : i < 32) : ((qout (.hbm 0x8000)).line (0x8000 / 128 + i)).owner = true ∧
    ((qout (.hbm 0x8000)).line (0x8000 / 128 + i)).tokens = 512 ∧ ((qout (.hbm 0x8000)).line (0x8000 / 128 + i)).half0 = .hi ∧
    ((qout (.hbm 0x8000)).line (0x8000 / 128 + i)).half1 = .hi := by revert i; decide
theorem witness_ContextMoves : Memory.wf s0.mem = true ∧ ((w 3 7 s0).getW b0 3).toNat = s0.numOf b0 ∧
    (s0.pl b0 = false ∧ ((w 3 8 s0).getW b0 3).toNat ≠ s0.numOf b0) ∧ thas s0p.ctxs 8 = false ∧
    (qpark.pl b0 = true ∧ (qpark.getW b0 3).toNat = 8 ∧ 8 ≠ qpark.numOf b0 ∧ thas qpark.ctxs 8 = true ∧ (qpark.ctx 8).ended = false ∧
      (qpark.ctx 8).killing = false ∧ (qpark.ctx 8).loc = .frame qpark.me.core 4 ∧ (qpark.ctx 8).slot = none ∧
      (qpark.ctx 7).slot = some qpark.me.slot ∧ (qpark.ctx 7).borrow = none ∧ qpark.turnSlot < 16 ∧
      (qpark.getW b0 4).toNat = 0x9000 ∧ 0x9000 % 4096 = 0 ∧ (qpark.part 0).pool.contains 0x9000 = true ∧
      clusterOf 4 = clusterOf qpark.me.core ∧ (qpark.ctx 8).deposits = 0 ∧ (qpark.part 0).cltb = 0) ∧
    (qhbm.pl b0 = true ∧ thas qhbm.ctxs 8 = true ∧ (qhbm.ctx 8).loc = .hbm 0x8000 ∧ (qhbm.ctx 8).cluster = clusterOf qhbm.me.core ∧
      qhbm.freeFrame 4 = some 0 ∧ (qhbm.part 0).cltb = 0 ∧ (qhbm.getW b0 4).toNat = 0xFF ∧ (qhbm.frameList 4).contains 0xFF = true ∧
      qhbm.frameFree 4 0xFF = true) ∧
    (0x9001 % 4096 ≠ 0 ∧ (qpark.part 0).pool.contains 0xB000 = false ∧ 2 ^ 8 ≤ 0x100) ∧
    (((qout (.frame 4 4)).ctx 8).loc = .frame 4 4 ∧ ((qout (.frame 4 4)).freeFrame 4).isSome = true ∧
      ¬ ((qout (.frame 4 4)).freeFrames 4).length < (qout (.frame 4 4)).framesWanted 4) ∧
    ((qfull.ctx 8).loc = .frame 4 4 ∧ qfull.freeFrame 4 = none ∧ qfull.oldestParked 4 = some 8 ∧ (qfull.ctx 8).deposits = 0 ∧
      (qfull.part (8 / 2 ^ 24)).pool = [0x9000, 0xA000] ∧ (qfull.part 0).cltb = 0) ∧
    (0x8000 % 128 = 0 ∧ 0x8000 + 4096 ≤ 4 * quarterBytes ∧
      (qout (.spilling 4 4 0x8000)).waiters (fun _ w => w.block = .transit 8 || w.block = .spillOf 8 || w.block = .fillOf 8) = [] ∧
      ((qout (.spilling 4 4 0x8000)).ctx 8).loc = .spilling 4 4 0x8000 ∧
      (qout (.spilling 4 4 0x8000)).lostIn (wsBase 4 4) 4096 = none ∧ ((qout (.spilling 4 4 0x8000)).ctx 8).savedBorrow = none ∧
      (∀ l ∈ [Loc.spilling 4 4 0x8000, .filling 4 4 0x8000], (qout l).heldBeats.any (fun m => m.body.forCtx 8) = false ∧
        (qout l).halted (clusterOf 4) = false) ∧
      ((qout (.filling 4 4 0x8000)).ctx 8).loc = .filling 4 4 0x8000 ∧ (qout (.filling 4 4 0x8000)).imageLost 0x8000 = none ∧
      (qout (.hbm 0x8000)).lines = (qout (.spilling 4 4 0x8000)).lines ∧ (qout (.hbm 0x8000)).lines = (qout (.filling 4 4 0x8000)).lines) ∧
    ((s0.ctx 7).slot = some 66 ∧ (s0.ctx 7).migrating = false ∧ ((qmig 5000).ctx 7).migrating = true ∧
      (qmig 5000).resumeAt 0 ((qmig 5000).ctx 7) < (qmig 5000).gtOf 4 ∧ ¬ (qmig 4999).resumeAt 0 ((qmig 4999).ctx 7) < (qmig 4999).gtOf 4) := by
  and_intros <;> decide

/-- A context whose access is in progress, with granted work, ended with a delivery in flight, or fatal. -/
def qwalk : State := s0.setWait 7 { block := .walk 4 (s0.ptroot b0) 0x40000 1 }
def qended (flying : Bool) : State :=
  let s := s0.modCtx 7 (fun c => { c with ended := true })
  if flying then { s with net := [{ id := 5, body := .deposit 7 128 32 1 true 4 }] } else s
def qfatal (wait : Bool) (area : Option (Nat × Nat × Word)) : State :=
  let s := s0.modPart 0 (fun x => { x with fatal := [{ ctx := 7, gt := 1, record := 0, locid := 0 }], dumpArea := area })
  let s := ptl 0x41000 { lf with pa := lp + 0x1000 } (ptl 0x40000 lf s)
  if wait then s.setWait 7 { block := .ending } else s
def qdog (gt : Nat) : State :=
  let s := s0.modCore 4 (fun c => { c with turnHolder := some 2, turnSince := 0 }); s.setDie 0 { s.die 0 with gt := gt }
def qarea : State := qfatal true (some (0x40000, 4416, s0.ptroot b0))
theorem dump_written : ∃ u, dumpWrite 4 (s0.ptroot b0) (4416 / 128 + 2) 0x40000 4416
    (dumpRecord { ctx := 7, gt := 1, record := 0, locid := 0 } 0).2 qarea = (some true, u) :=
  ⟨_, Prod.ext (by decide) rfl⟩
theorem witness_KillResults : Memory.wf s0.mem = true ∧ thas s0.ctxs 9 = false ∧ ((qended false).ctx 7).ended = true ∧
    ((qfatal false none).part 0).fatal.any (fun r => r.ctx = 7) = true ∧
    (thas s0.ctxs 7 = true ∧ (s0.ctx 7).ended = false ∧ (s0.part 0).fatal = [] ∧ s0.canStop 7 = true ∧ s0.elandBusy 7 = false ∧
      (s0.ctx 7).pushes = [] ∧ (s0.ctx 7).deposits = 0 ∧ s0.delivers 7 = true ∧ s0.ctxHalted 7 = false) ∧
    (thas qwalk.ctxs 7 = true ∧ (qwalk.ctx 7).ended = false ∧ qwalk.canStop 7 = false) ∧
    (sbusy.canStop 7 = true ∧ sbusy.elandBusy 7 = true) ∧
    (qended true).net.any (fun m => m.body.forCtx 7) = true ∧
    (qended false).net.any (fun m => m.body.forCtx 7) = false ∧
    (((qfatal false none).part 0).fatal = [{ ctx := 7, gt := 1, record := 0, locid := 0 }] ∧ (qfatal false none).killReady 7 = false) ∧
    ((qfatal true none).killReady 7 = true ∧ ((qfatal true none).part 0).dumpArea = none) ∧
    (qarea.killReady 7 = true ∧ (qarea.part 0).dumpArea = some (0x40000, 4416, s0.ptroot b0) ∧
      (dumpRecord { ctx := 7, gt := 1, record := 0, locid := 0 } 0).1 = 4416 ∧ (qarea.part 0).dumpNext + 4416 ≤ 4416) ∧
    ((qdog 99999999).slotExpired 4 2 = false ∧ (qdog 100000000).slotExpired 4 2 = true ∧ (qdog 100000000).halted (clusterOf 4) = false ∧
      ((qdog 100000000).ctxs.find? (fun e => e.2.slot = some (4 * 16 + 2))).map Prod.fst = some 7) := by and_intros <;> decide
/-! ### Token counting, leases and replies -/

/-- A message in flight, the line 160 (homed on die 0), a copy of it, its bank, and a wait of the own context. -/
def msg (b : MsgBody) (s : State) : State := { s with net := [{ id := 5, body := b }] }
def lin (f : Line → Line) (s : State) : State := s.setLine 160 (f (s.line 160))
def cpy (h : Nat) (c : Copy) (s : State) : State := s.setCopy h 160 c
def bnk (x : Bank) (s : State) : State := { s with banks := tset s.banks (s.lineBank 160) x }
def wai (b : Block) (c : Cont) (s : State) : State := s.setWait 7 { block := b, cont := c }
def dieGt (d g : Nat) (s : State) : State := s.setDie d { s.die d with gt := g }
def cyc (c : Nat) (s : State) : State := { s with cycle := c }
def m0 : Miss := {}
theorem witness_TokenMessages : Memory.wf s0.mem = true ∧
    ((msg (.readReq 4 160) s0).msg? 5 = some (.readReq 4 160) ∧ (s0.line 160).owner = true ∧ 2 ≤ (s0.line 160).spare) ∧
    (let x := (lin (fun x => { x with tokens := 2, half0 := .hs }) s0).line 160; x.owner = true ∧ x.spare < 2) ∧
    (let x := (lin (fun x => { x with tokens := 0, owner := false, ownerRec := some 12 }) s0).line 160
     x.owner = false ∧ x.ownerRec = some 12) ∧
    ((msg (.fwdRead 12 4 160) s0).msg? 5 = some (.fwdRead 12 4 160) ∧ (s0.copy 12 160).owner = false) ∧
    (∀ n ∈ [1, 2], let s := cpy 12 { tokens := n, owner := true, data := some 1 } (lin (fun x => { x with owner := false }) s0)
      (s.copy 12 160).owner = true ∧ (s.copy 12 160).data.isSome = true ∧ (s.line 160).active ≠ some 12 ∧ (s.copy 12 160).tokens = n) ∧
    isWin 12 = false ∧ (msg (.writeReq 4 160) s0).msg? 5 = some (.writeReq 4 160) ∧
    ((msg (.multi 12 4 160) s0).msg? 5 = some (.multi 12 4 160) ∧ (s0.copy 12 160).tokens = 0 ∧ (s0.copy 12 160).miss = none ∧
      (s0.line 160).active = none ∧ 0 < ((cpy 12 { tokens := 511 } s0).copy 12 160).tokens) ∧
    (∀ n ∈ [511, 512], (msg (.tokens 4 160 n true true (some 7) {} 12) s0).msg? 5 = some (.tokens 4 160 n true true (some 7) {} 12)) ∧
    ((s0.line 160).resident = false ∧ (s0.bank (s0.lineBank 160)).l2.contains 160 = false) ∧
    ((s0.core 4).log.en = false ∧ ((cpy 4 { miss := some { m0 with write := true } } s0).copy 4 160).miss = some { m0 with write := true } ∧
      (cpy 4 { miss := some m0 } s0).waiters (fun _ w => w.block = .line 4 160) = []) ∧
    ((lin (fun x => { x with active := some 12 }) s0).line 160).active = some 12 ∧
    ((msg (.ownerNotice 160 4) s0).msg? 5 = some (.ownerNotice 160 4) ∧ ((lin (fun x => { x with owner := false }) s0).line 160).owner = false) ∧
    ((msg (.writeBack 4 160 512 true true (some 7) {} true) s0).msg? 5 = some (.writeBack 4 160 512 true true (some 7) {} true) ∧
      (s0.bank (s0.lineBank 160)).fwd.filter (fun f => f.1 = 160) = []) := by and_intros <;> decide

/-- The turn of a push of core 4 at its next targets; a copy of core 5. -/
def tturn (n : Nat) (targets : List Nat) (s : State) : State :=
  msg (.pushTurn 160 4 7 3 targets) (cpy 4 { tokens := n, owner := true, data := some 1 } s)
def tcopy (c : Copy) (s : State) : State := cpy 5 c s
theorem witness_RequestsAndPushes : Memory.wf s0.mem = true ∧ (s0.copy 4 160).miss = none ∧
    (∀ m ∈ [m0, { m0 with tries := 2 }], let s := cpy 4 { miss := some m } s0
      (s.copy 4 160).miss = some m ∧ (cyc 511 s).cycle < m.sent + 512 ∧ m.sent + 512 ≤ (cyc 512 s).cycle ∧
        s.lineDie 160 = holderDie 4 ∧ s.registered 4 160 = false ∧
        (s.bank (s.lineBank 160)).persist.length < 32 ∧ (s.bank (s.lineBank 160)).waiting = []) ∧
    (let r : PersistReq := { line := 160, holder := 4, number := 9 }
     let s := bnk { waiting := [r] } (cpy 4 { miss := some m0 } s0)
     s.waitingReq 4 160 = some r ∧ (cyc 63 s).cycle < 64 ∧ 64 ≤ (cyc 64 s).cycle ∧ (s.bank (s.lineBank 160)).persist.length < 32 ∧
      (s.bank (s.lineBank 160)).waiting = [r]) ∧
    ((s0.bank (s0.lineBank 160)).persist.find? (fun p => p.line = 160) = none ∧
      (s0.line 160).active = none) ∧
    (let s := lin (fun x => { x with active := some 12 }) s0
     (s.line 160).active = some 12 ∧ (s.copy 12 160).miss = none ∧ s.needsLine 12 160 = false ∧
      ((cpy 12 { miss := some m0 } s).copy 12 160).miss ≠ none) ∧
    (let p : PersistReq := { line := 160, holder := 4, number := 9 }
     ((bnk { persist := [p] } s0).bank ((bnk { persist := [p] } s0).lineBank 160)).persist.find? (fun p => p.line = 160) = some p ∧
      (s0.line 160).active = none) ∧
    (∀ f ∈ [id, rhalt, tcopy { tokens := 1, evicting := some 9 }, tcopy { tokens := 511 }, tcopy { miss := some m0 },
        fun s => s.modCore 5 (fun c => { c with quota := 0 }), lin (fun x => { x with active := some 12 }),
        fun s => tcopy { tokens := 1 } (lin (fun x => { x with active := some 5 }) s)], let s := tturn 2 [5] (f s0)
      s.msg? 5 = some (.pushTurn 160 4 7 3 [5]) ∧ (s.copy 4 160).owner = true ∧ (s.copy 4 160).tokens = 2 ∧
        (s.copy 4 160).data = some 1 ∧ isWin 4 = false ∧ (s.core 5).log.en = false ∧ s.waiters (fun _ w => w.block = .line 5 160) = [] ∧
        Memory.wf s.mem = true) ∧
    (s0.halted (clusterOf 5) = false ∧ (rhalt s0).halted (clusterOf 5) = true ∧ (s0.copy 5 160).evicting = none ∧
      ¬ (0 < (s0.copy 5 160).tokens ∨ (s0.copy 5 160).miss ≠ none) ∧ s0.untouched 5 < (s0.core 5).quota ∧
      ((tget s0.copies 5).filter (fun e => usesFrame e.2)).length < 512 ∧
      (let s := s0.modCore 5 (fun c => { c with quota := 0 }); (s.core 5).quota ≤ s.untouched 5)) ∧
    (∀ n ∈ [1, 2], let s := msg (.pushAck 7 3 4 true) (s0.modCtx 7 (fun c => { c with pushes := [{ id := 3, left := n }] }))
      s.msg? 5 = some (.pushAck 7 3 4 true) ∧ (s.ctx 7).loc = .frame 4 3 ∧ b0 = wsBase 4 3 ∧ (s.core 4).log.en = false ∧
        s.halted (clusterOf 4) = false ∧ (s.ctx 7).pushes.find? (fun q => q.id = 3) = some { id := 3, left := n } ∧
        (s.ctx 7).ended = false ∧ s.waiters (fun k w => k = 7 && w.block = .pushPend) = []) ∧
    (∀ n ∈ [1, 2], let s := tturn 1 [9] (s0.modCtx 7 (fun c => { c with pushes := [{ id := 3, left := n }] }))
      s.msg? 5 = some (.pushTurn 160 4 7 3 [9]) ∧ (s.copy 4 160).tokens < 2 ∧ (s.ctx 7).loc = .frame 4 3 ∧ (s.ctx 7).ended = false ∧
        (s.ctx 7).pushes.find? (fun q => q.id = 3) = some { id := 3, left := n } ∧
        s.waiters (fun k w => k = 7 && w.block = .pushPend) = []) ∧
    (msg (.refusedTok 160 1 {}) s0).msg? 5 = some (.refusedTok 160 1 {}) := by and_intros <;> decide

/-- The line 166, homed on die 1, that a context of die 0 writes: one element of 8 bytes at 0x5340. -/
def el : Elem := { va := 0x50040, size := 8, pa := 0x5340, leaf := { hf with pa := 0x5300 } }
def rwc : Cont := { op := .write, elems := [el], data := [7], prog := [.perform 0, .adv 8] }
def srw : State := msg (.remoteWrite 7) (wai (.reply 5) rwc s0)
/-- A read of it, with the line held at its home. -/
def sheld : State :=
  let s := msg (.access 7) (wai (.reply 5) { rwc with op := .read, data := [], elems := [{ el with leaf := { el.leaf with pol := 1 } }] } s0)
  s.setLine 166 { s.line 166 with holdUntil := 1 }
/-- A walk for the page 0x40000 under a `PTROOT`, with four tables from 0x10000, the first in a held line. -/
def swalk (pt : Word) : State :=
  let s := (((((s0.setWs b0 offPtroot pt.toNat).wr 0x10000 8 0x11003).wr 0x11000 8 0x12003).wr 0x12000 8 0x13003).wr 0x13000 8 0x14003).wr
    0x14200 8 0x50F1
  wai (.walk 4 pt 0x40000 1) { op := .read, elems := [{ va := 0x40000, size := 8 }], prog := [.xlate 0, .prot, .adv 8] } s
/-- The same with a walker at work on it; its first entry in a line that is held, that the host holds, or that is lost. -/
def swalked (pt : Word) : State := askWalk 7 (swalk pt)
def swalkl (f : Line → Line) : State := let s := swalked 0x10000; s.setLine 512 (f (s.line 512))
def swalkh : State := swalkl (fun x => { x with holdUntil := 5001 })
def swalks : State := swalkl (fun x => { x with half0 := .he })
/-- A fetch's walk that meets the lost line. -/
def swalkx : State :=
  let s := (swalk 0x10000).setPc b0 0x40000
  let s := askWalk 7 (wai (.walk 4 0x10000 0x40000 accFetch) {} s)
  s.setLine 512 { s.line 512 with lost := true }
/-- One that meets a snoop of an earlier GT; a miss whose page the cluster's TLB holds. -/
def swalkt : State :=
  let s := askWalk 7 (wai (.walk 4 0x10000 0x40000 accFetch) {} ((swalk 0x10000).setPc b0 0x40000))
  dieGt 0 1000010 (s.setLine 512 { s.line 512 with half0 := .he, snoop0 := some (10, false) })
def swalkc : State := (swalk 0x10000).modCluster 0 (fun c => { c with tlb := tlbAdd 256 16 c.tlb (tlbEntry 0x10000 0x40000 lf) })
theorem one_sharer {s : State} {f : WalkFor} {k : Nat} {c : Ctx} (h : s.ctxs = [(k, c)]) (hf : s.walkFor k = some f) :
    ∀ fin, s.walkSharers f fin = [k] := by
  intro fin; simp [State.walkSharers, h, hf, WalkFor.shares]
theorem witness_LeaseAndReplies : Memory.wf s0.mem = true ∧
    (let s := msg (.leaseReq 200 160 4096) s0
     s.msg? 5 = some (.leaseReq 200 160 4096) ∧ s.isHeld 160 = false ∧ (s.line 160).owner = true ∧ (s.line 160).active = none ∧
      (s.bank (s.lineBank 160)).leases.length < 4096 ∧ (lin (fun x => { x with holdUntil := 5001 }) s).isHeld 160 = true ∧
      (lin (fun x => { x with holdUntil := 5000 }) s).isHeld 160 = false) ∧
    ((bnk { heldReads := [(160, 200, 4096)] } s0).bank ((bnk { heldReads := [(160, 200, 4096)] } s0).lineBank 160)).heldReads =
      [(160, 200, 4096)] ∧
    (∀ g ∈ [4095, 4096], let s := dieGt 1 g (cpy 200 { lease := some 4096, data := some 1 } s0)
      (s.copy 200 160).lease = some 4096 ∧ (s.copy 200 160).miss = none ∧ (s.copy 200 160).evicting = none ∧ s.gt (holderDie 200) = g) ∧
    ((msg (.remoteWrite 7) s0).msg? 5 = some (.remoteWrite 7) ∧ s0.waitOf 7 ≠ some (.reply 5)) ∧
    (srw.msg? 5 = some (.remoteWrite 7) ∧ srw.meOf 7 = some s0.me ∧ (srw.ctx 7).wait = some { block := .reply 5, cont := rwc } ∧
      el.pa / 128 = 166 ∧ el.pa < 4 * quarterBytes ∧ el.pa % 128 + el.size ≤ 128 ∧ srw.lineDie 166 ≠ dieOf s0.me.core ∧
      (srw.ctx 7).migrating = false ∧ srw.holders 166 = [] ∧ srw.net = [{ id := 5, body := .remoteWrite 7 }] ∧ el.late = none ∧
      el.leaf.permits { w := true } (srw.pl b0) = true ∧ el.leaf.chk = false ∧ (srw.line 166).half0 = .hi ∧ (srw.line 166).half1 = .hi ∧
      (srw.line 166).owner = true ∧ (srw.line 166).tokens = 512 ∧ (srw.line 166).lost = false ∧ (srw.line 166).active = none) ∧
    (sheld.msg? 5 = some (.access 7) ∧ sheld.waitOf 7 = some (.reply 5) ∧ sheld.heldAtHome 7 = true) ∧
    (let s := msg (.vtReply 7 5555 0) (wai (.reply 5) { prog := [.adv 8] } s0)
     s.msg? 5 = some (.vtReply 7 5555 0) ∧ s.meOf 7 = some s0.me ∧ (s.ctx 7).wait = some { block := .reply 5, cont := { prog := [.adv 8] } } ∧
      (s.core s0.me.core).log.en = false) ∧
    (let s := msg (.leaseReply 4 166 7 {} (some 9000)) (s0.setCopy 4 166 { miss := some m0 })
     s.msg? 5 = some (.leaseReply 4 166 7 {} (some 9000)) ∧ (s.copy 4 166).miss = some m0 ∧
      s.waiters (fun _ w => w.block = .line 4 166) = []) ∧
    (let s := (msg (.leaseReply 4 166 7 {} (some 9000)) (s0.setCopy 4 166 { miss := some m0 })).setDie 0 { s0.die 0 with tripped := some 3 }
     s.msg? 5 = some (.leaseReply 4 166 7 {} (some 9000)) ∧ (s.copy 4 166).miss = some m0 ∧ (s.die (holderDie 4)).tripped ≠ none ∧
      s.waiters (fun _ w => w.block = .line 4 166) = []) ∧
    (∀ wb ∈ [8, 9], let s := msg (.wbAck 4 160 9) (wai (.acks [9]) { prog := [.adv 8] } (cpy 4 { tokens := 5, evicting := some wb } s0))
     s.msg? 5 = some (.wbAck 4 160 9) ∧ (s.ctx 7).wait = some { block := .acks [9], cont := { prog := [.adv 8] } } ∧
      s.waiters (fun _ w => match w.block with
        | .acks wbs => wbs.filter (· ≠ 9) = []
        | .unmap _ _ => true
        | _ => false) = [7] ∧ thas s.ctxs 7 = true ∧ (s.ctxs.map Prod.fst).Pairwise (· < ·) ∧ s0.me.key = 7 ∧ (s.copy 4 160).tokens ≠ 0 ∧
      (s.ctx 7).migrating = false) ∧
    ((swalk 0x10000).meOf 7 = some s0.me ∧ (swalk 0x10000).clusterTlb 4 0x10000 0x40000 = none ∧ (swalk 0x10000).walking 7 = false) ∧
    (∀ s ∈ [swalked 0x10000, swalked 0, swalkh, swalks, swalkx, swalkt], s.meOf 7 = some s0.me ∧
      s.waitOf 7 = some (.walk 4 (s.ptroot b0) 0x40000 (if s.pc b0 = 0x40000 then accFetch else 1)) ∧ s.walking 7 = true ∧
      s.ctxs = [(7, s.ctx 7)] ∧ (s.walkFor 7).isSome = true ∧ (s.ctx 7).migrating = false ∧ s.clusterTlb 4 (s.ptroot b0) 0x40000 = none ∧
      canonicalVa 0x40000 = true ∧ s.tlbHit 4 (s.ptroot b0) 0x40000 = none ∧ (s.core 4).log.en = false) ∧
    ((swalkc.ctx 7).wait.map (fun w => w.cont.prog) = some [.xlate 0, .prot, .adv 8] ∧ swalkc.tlbHit 4 0x10000 0x40000 = none ∧
      swalkc.clusterTlb 4 (swalkc.ptroot b0) 0x40000 = some lf ∧ swalkc.meOf 7 = some s0.me) ∧
    (match (walk (swalked 0x10000) 0 0 ((swalked 0x10000).ptroot b0) 0x40000).fin with
      | .leaf l => decide (l.pa = 0x5000) | _ => false) = true ∧
    (walk (swalked 0) 0 0 ((swalked 0).ptroot b0) 0x40000).fin = .fault 0 0 4 ∧
    (walk swalkh 0 0 (swalkh.ptroot b0) 0x40000).fin = .held ∧
    ((walk swalks 0 0 (swalks.ptroot b0) 0x40000).fin = .snoop 512 0 ∧ swalks.gtOf 4 < 0 + 1000000) ∧
    ((walk swalkt 0 0 (swalkt.ptroot b0) 0x40000).fin = .snoop 512 0 ∧ (swalkt.line 512).snoop0 = some (10, false) ∧
      max 0 10 + 1000000 ≤ swalkt.gtOf 4 ∧ (swalkt.ctx 7).wait = some { block := .walk 4 0x10000 0x40000 accFetch }) ∧
    ((swalkx.ctx 7).wait = some { block := .walk 4 0x10000 0x40000 accFetch } ∧
      (walk swalkx 0 0 (swalkx.ptroot b0) 0x40000).fin = .lost 0x10000) := by and_intros <;> decide

/-- Die 0 with a GT, a trip in hand, and the reference at a time. -/
def sdrift (gt ref : Nat) (trip back : Option Nat) : State :=
  { s0.setDie 0 { s0.die 0 with gt := gt, tripped := trip, backSince := back } with refGt := ref }
def ssnoop (gt : Nat) : State := dieGt 0 gt (wai (.snoop 160 1 1000) { op := .read, elems := [{ va := 0x50078 }], prog := [.perform 0, .adv 8] } s0)
theorem witness_DriftAndPeers :
    ((sdrift 16 0 none none).die 0).tripped = none ∧ ((sdrift 16 0 (some 0) none).die 0).tripped ≠ none ∧
    ((sdrift 16 0 none none).drift 0 ≤ 16 ∧ 16 < (sdrift 17 0 none none).drift 0 ∧ 16 < (sdrift 0 17 none none).drift 0) ∧
    (∀ k ∈ [4, 12], ((tget (cpy 12 { lease := some 9 } (cpy 4 { lease := some 9 } s0)).copies k).map Prod.fst).Pairwise (· < ·)) ∧
    (((sdrift 1005 1001 (some 0) (some 2)).die 0).tripped = some 0 ∧ ((sdrift 1005 1001 (some 0) (some 2)).die 0).backSince = some 2 ∧
      (sdrift 1005 1001 (some 0) (some 2)).refGt < 2 + 1000 ∧ (sdrift 1006 1002 (some 0) (some 2)).drift 0 ≤ 4 ∧
      2 + 1000 ≤ (sdrift 1006 1002 (some 0) (some 2)).refGt ∧ 4 < (sdrift 1007 1002 (some 0) (some 2)).drift 0) ∧
    (Memory.wf s0.mem = true ∧ (ssnoop 5).meOf 7 = some s0.me ∧ (ssnoop 5).waitOf 7 = some (.snoop 160 1 1000) ∧
      (ssnoop 1000999).gtOf 4 < 1000 + 1000000 ∧ 1000 + 1000000 ≤ (ssnoop 1001000).gtOf 4 ∧
      ((ssnoop 5).ctx 7).wait.map (fun w => (w.cont.prog, w.cont.elems, w.cont.committed)) = some ([.perform 0, .adv 8], [{ va := 0x50078 }], false)) ∧
    ((wai (.snoop 160 1 1000) { committed := true } s0).ctx 7).wait.map (fun w => w.cont.committed) = some true ∧
    (msg (.peerAck 0) s0).msg? 5 = some (.peerAck 0) ∧
    ((msg (.peerAck 7) s0).msg? 5 = some (.peerAck 7) ∧
      (msg (.peerAck 7) s0).waiters (fun k w => k = 7 && (match w.block with | .peerAcks _ => true | _ => false)) = []) ∧
    (∀ vt ∈ [5000, 5001], (msg (.peerDone 3 0 vt) s0).msg? 5 = some (.peerDone 3 0 vt) ∧ (msg (.peerDone 3 0 vt) s0).gt 0 = 5000) := by
  and_intros <;> decide
/-! ### Debug, resets, the host and commands -/

def tdbg (st : Nat) (s : State) : State := s.modCluster 0 (fun c => { c with dbg := { c.dbg with state := st, xin := true, haltedAt := 4000 } })
/-- Cluster 0 triggered by another, its own trigger output on or off. -/
def ttrig (xout : Bool) (s : State) : State := s.modCluster 0 (fun c => { c with dbg := { c.dbg with trigger := true, xout := xout } })
def tbeat (s : State) : State := { s with heldBeats := [{ id := 9, body := .fill localBase 7 0 }] }
/-- A held decrement of the counter at 0x20000 of core 0, which stands at 5. -/
def tdecr (s : State) : State := { s.wr (localPa 0 0x20000) 4 5 with heldBeats := [{ id := 9, body := .decr 0x20000 0 3 }] }
def tdroop (gt : Nat) : State :=
  s0.setDie 1 { s0.die 1 with droopArea := 0x8000, droopLast := tset (s0.die 1).droopLast 5 1001, gt := gt }
theorem witness_DebugResults : Memory.wf s0.mem = true ∧ (s0.cluster 0).dbg.state = 0 ∧ ((tdbg 1 s0).cluster 0).dbg.state = 1 ∧
    ((tdbg 2 s0).cluster 0).dbg.state = 2 ∧ ((tdbg 3 s0).cluster 0).dbg.state ≠ 0 ∧
    ((s0.cluster 0).dbg.trigger = false ∧ (s0.cluster 0).dbg.xout = false ∧
      (∀ x ∈ [true, false], ((ttrig x s0).cluster 0).dbg.trigger = true ∧ ((ttrig x s0).cluster 0).dbg.state = 0 ∧
        ((ttrig x s0).cluster 0).dbg.xout = x) ∧
      ((ttrig true (tdbg 2 s0)).cluster 0).dbg.trigger = true ∧ ((ttrig true (tdbg 2 s0)).cluster 0).dbg.state ≠ 0) ∧
    ((tdbg 1 s0).settled 0 = true ∧ (tdbg 1 qwalk).settled 0 = false) ∧
    ((tdbg 2 s0).waiters (fun _ w => w.block = .halted 0) = [] ∧ (tdbg 2 s0).heldBeats = []) ∧
    ((tbeat (tdbg 2 s0)).heldBeats.filter (fun m => (tbeat (tdbg 2 s0)).beatCluster m.body = some 0) =
        [{ id := 9, body := .fill localBase 7 0 }] ∧ regionOf localBase = .local (0 * 8) ∧ (tbeat (tdbg 2 s0)).feWaiters localBase = [] ∧
      ((tbeat (tdbg 2 s0)).core (0 * 8)).log.en = false ∧
      (tbeat (tdbg 2 s0)).waiters (fun _ w => w.block = .halted 0) = []) ∧
    ((tdecr (tdbg 2 s0)).heldBeats.filter (fun m => (tdecr (tdbg 2 s0)).beatCluster m.body = some 0) =
        [{ id := 9, body := .decr 0x20000 0 3 }] ∧ dectCore 0x20000 = 0 * 8 ∧
      1 < (tdecr (tdbg 2 s0)).rd (localPa (0 * 8) (dectOff 0x20000)) 4 ∧
      (tdecr (tdbg 2 s0)).waiters (fun _ w => w.block = .halted 0) = []) ∧ bit (0x39 : Word).toNat 1 = false ∧ thas (s0.cluster 0).teams 0 = true ∧
    (tget ((tdroop 10999).die 1).droopLast 5 ≠ 0 ∧ (tdroop 10999).gt 1 + 1 < tget ((tdroop 10999).die 1).droopLast 5 + 10000) ∧
    (tget ((tdroop 11000).die 1).droopLast 5 + 10000 ≤ (tdroop 11000).gt 1 + 1 ∧ ((tdroop 11000).die 1).droopArea = 0x8000 ∧
      0x8000 % 128 = 0 ∧ 0x8000 + 384 ≤ 4 * quarterBytes ∧
      ∀ i, i < 3 → (tdroop 11000).line (0x8000 / 128 + i) = {}) ∧
    tget (s0.die 1).droopLast 5 = 0 := by and_intros <;> decide

def tpow (thr : BitVec 2) (high low : Option Nat) (ref : Nat) : State :=
  { s0 with refGt := ref, dev := { s0.dev with thr := thr, highSince := high, lowSince := low } }
theorem witness_ResetAndPowerResults : regionOf (160 * 128) = .hbm 0 ∧ regionOf (localPa 383 0xFFF80 / 128 * 128) = .local 383 ∧
    (State.reset.ctxs = [] ∧ (State.reset.cluster 47).chans = [] ∧ State.reset.copies = [] ∧ State.reset.net = []) ∧
    ((tpow 2 none none 7).dev.highSince = none ∧ (tpow 2 none none 7).dev.lowSince = none) ∧
    ((tpow 3 (some 1) none 100000).dev.highSince = some 1 ∧ (tpow 3 (some 1) none 100000).refGt < 1 + 100000 ∧
      1 + 100000 ≤ (tpow 3 (some 1) none 100001).refGt) ∧
    ((tpow 0 none (some 1) 1000000).dev.lowSince = some 1 ∧ (tpow 0 none (some 1) 1000000).refGt < 1 + 1000000 ∧
      1 + 1000000 ≤ (tpow 0 none (some 1) 1000001).refGt) := by and_intros <;> decide

/-- The host port trained as PCIe with BAR 2 at 0, and as CXL; the line 160 with a half the host holds and a snoop. -/
def thost (cxl : Bool) : State :=
  { s0 with dev := { s0.dev with bar2 := some (0, 0), trained := true, trainedCxl := cxl } }
def tsnoop (inval : Bool) (h : HostHalf) : State :=
  let s := thost true; s.setLine 160 { s.line 160 with half1 := h, snoop1 := some (10, inval) }
/-- A hardware write that waits for that snoop. -/
def tdefer : State := { tsnoop true .he with snoopOver := [(0x507E, 2, 0xAB)] }
theorem witness_HostAndPeerAccess : Memory.wf s0.mem = true ∧ s0.hostSees 0x507F 1 = false ∧
    (∀ x ∈ [true, false], (thost x).hostSees 0x507F 1 = true ∧ (thost x).hostSees 0x5040 64 = true ∧ (thost x).dev.trainedCxl = x ∧
      ((thost x).line 160).owner = true ∧ ((thost x).line 160).tokens = 512 ∧ ((thost x).line 160).active = none ∧
      ((thost x).line 160).lost = false ∧ (thost x).dev.snoopers.length < 65536 ∧ ((thost x).line 160).half 1 = .hi ∧
      (thost x).holders 160 = [] ∧ (snoopRange 0x507F 1 false (thost x)).1 = true) ∧
    (snoopRange 0x507F 1 false (lin (fun x => { x with half1 := .he }) (thost true))).1 = false ∧
    (0x507F / 128 = 160 ∧ 0x507F % 128 + 1 ≤ 128 ∧ 0x507F + 1 ≤ 4 * quarterBytes ∧ 0x507F % 64 + 1 ≤ 64 ∧ 160 * 128 + 128 ≤ 4 * quarterBytes) ∧
    ((thost true).line 160).snoop1 = none ∧
    (∀ x ∈ [true, false], (tsnoop x .he).snoopOver = [] ∧ ((tsnoop x .he).line 160).prefs = [] ∧ ((tsnoop x .he).line 160).snoop1 = some (10, x) ∧ ((tsnoop x .he).line 160).owner = true ∧
      ((tsnoop x .he).line 160).tokens = 512 ∧
      (tsnoop x .he).waiters (fun _ w => match w.block with | .snoop l' k' _ => l' = 160 && k' = 1 | _ => false) = []) ∧
    ((tdefer.line 160).snoop1 = some (10, true) ∧ tdefer.snoopOver = [(0x507E, 2, 0xAB)] ∧ 0x507E / 64 = 160 * 2 + 1 ∧ 0x507E % 64 + 2 ≤ 64) ∧
    (((tsnoop true .he).line 160).mustSnoop (0x507E % 128 / 64) true = true ∧ ((thost true).line 160) = {}) ∧
    regionOf (hostBase / 128 * 128) = .host ∧ regionOf (160 * 128) = .hbm 0 := by and_intros <;> decide
/-- Queue 15 of partition 0, its block at 0x63C0, a command at the head of its 64 entries at 0x7000, completions at 0x9000. -/
def tq (op tail : Nat) : State :=
  let s := s0.modPart 0 (fun x => { x with qbase := 0x6000 })
  let s := (s.wr 0x63C0 16 (0x7000 + 6 * 2 ^ 64)).wr 0x63D0 16 (tail + 63 * 2 ^ 32 + 0x10000 * 2 ^ 64)
  s.wr 0x7000 16 (op + 7 * 2 ^ 32 + 0x9000 * 2 ^ 64)
/-- Queue 3 with two commands of its 64 entries between HEAD and TAIL. -/
def t3 (s : State) : State := (s.wr 0x60C0 16 (0xA000 + 6 * 2 ^ 64)).wr 0x60D0 16 (2 + 63 * 2 ^ 32)
def tqcmd (op : Nat) : Cmd :=
  { p := 0, q := 15, blk := 0x7000 + 6 * 2 ^ 64 + 2 ^ 128 * (1 + 63 * 2 ^ 32 + 0x10000 * 2 ^ 64), entry := op + 7 * 2 ^ 32 + 0x9000 * 2 ^ 64 }
/-- The queue's take-up with the two reads of the firmware corrected or not, which is a free choice. -/
def tread (corrected : Bool) (l : Nat) (s : State) : State :=
  let s := touchL2 l (touchFilter l s)
  homeYield l (recallOwner l (if corrected then s.modBank (s.lineBank l) (fun b => { b with corrected := b.corrected + 1 }) else s))
def ttake (a b : Bool) (s : State) : State :=
  let s := tread b 224 (tread a 199 s)
  s.setQueue 0 15 { s.queue 0 15 with busy := some 0x7000, started := false }
theorem reads (l : Nat) (s : State) : ∃ b, (homeRead (l * 128) 128 s).2.2 = tread b l s :=
  ⟨Config.correctable l (touchL2 l (touchFilter l s)).cycle, by
    simp only [homeRead, Nat.mul_div_cancel l (show 0 < 128 by decide), readPath, tread]⟩
theorem taken (s : State) (h : (s.part 0).qbase = 0x6000) : ∃ a b, takeUp 0 15 0x7000 s = ttake a b s := by
  obtain ⟨a, ha⟩ := reads 199 s
  obtain ⟨b, hb⟩ := reads 224 (tread a 199 s)
  have h1 : fwRead ((s.part 0).qbase + 64 * 15) 64 s = (homeRead (199 * 128) 128 s).2.2 := by rw [h]; rfl
  have h2 : fwRead 0x7000 64 (tread a 199 s) = (homeRead (224 * 128) 128 (tread a 199 s)).2.2 := rfl
  exact ⟨a, b, by unfold takeUp; rw [h1, ha, h2, hb]; rfl⟩
/-- What a command's arguments are is left to `Config` (assumption log 10), so only the conditions that do not read them
can be met by evaluation. -/
theorem witness_CommandResults :
    (∀ op ∈ List.range 12, (tq op 1).cmdOf 0 15 = some (0x7000, tqcmd op) ∧ ((tq op 1).queue 0 15).switchTo = none ∧
      snoopRange (((tq op 1).part 0).qbase + 64 * 15) 64 false (tq op 1) = (true, tq op 1) ∧
      snoopRange 0x7000 64 false (tq op 1) = (true, tq op 1) ∧ ((tq op 1).queue 0 15).busy = none ∧ (tqcmd op).op = op) ∧
    (∀ op ∈ [1, 2, 3, 4, 5, 6, 7, 8, 9, 10], (tq op 1).cmdInvalid (tqcmd op) = false) ∧
    ((tq 0 1).cmdInvalid (tqcmd 0) = true ∧ (tq 11 1).cmdInvalid (tqcmd 11) = true) ∧
    (∀ a b, let u := ttake a b (tq 3 1)
      u.net = [] ∧ Memory.wf u.mem = true ∧ u.inPartHbm 0 0 (2 ^ 36) = true ∧ u.tails 0 15 = [] ∧
        (∀ k ∈ [0, 3], (affectedQuarters u.qmode k).contains 0 = true) ∧ (u.partOf 47 = 0 ∧ u.partOf 383 = 0) ∧
        u.dev.seca = false ∧ u.dev.idgone = false ∧ u.dev.staging = none) ∧
    (∀ a b, let u := ttake a b (t3 (tq 5 1))
      u.tails 0 15 = [(3, 2)] ∧ 0 < (2 + 2 ^ 32 - qbHead (u.qblock 0 3)) % 2 ^ 32 ∧ (2 + 2 ^ 32 - qbHead (u.qblock 0 3)) % 2 ^ 32 ≤ 2 ^ 16) := by
  and_intros <;> decide

def tbusy : State := (tq 9 1).setQueue 0 15 { (tq 9 1).queue 0 15 with busy := some 0x7000 }
def tsw (busy : Option Nat) : State := (tq 9 1).setQueue 0 15 { (tq 9 1).queue 0 15 with busy := busy, switchTo := some { version := 2, measure := 3 } }
theorem witness_QueueResults : Memory.wf (tq 9 1).mem = true ∧ (tq 9 0).cmdOf 0 15 = none ∧ (tq 9 1).cmdOf 0 16 = none ∧
    (s0.isPart 1 = false ∧ s0.isPart 0 = true ∧ ((tq 9 1).part 0).qbase + 64 * 15 = 0x63C0 ∧
      snoopRange 0x63C0 64 false (tq 9 0) = (true, tq 9 0) ∧ 0x63C0 % 64 = 0 ∧ 0x63C0 % 128 + 64 ≤ 128 ∧
      0x63C0 + 64 ≤ 4 * quarterBytes) ∧
    (∀ pa ∈ [0x63C0, 0x7000, 0x9000], (tbusy.line (pa / 128)) = {}) ∧
    ((tbusy.queue 0 15).busy = some 0x7000 ∧ Memory.wf tbusy.mem = true ∧ qbField (tbusy.rd 0x7000 64) 8 8 = 0x9000 ∧ 0x9000 % 128 + 16 ≤ 128) ∧
    (tbusy.queue 0 15).switchTo = none ∧
    ((tsw none).queue 0 15).switchTo = some { version := 2, measure := 3 } ∧ ((tsw (some 0x7000)).queue 0 15).busy ≠ none ∧
    (((tsw none).queue 0 15).busy = none ∧ ∀ k, k < 15 → ((tsw none).queue 0 k).switchTo = none ∨ (tsw none).dev.staging = some (0, k)) := by and_intros <;> decide

/-! ### The machine as a whole -/

/-- A context with its code in HBM at 0x50000 and the issue turn of its slot next; the code: a word, a pad and a word,
bytes that are no instruction. -/
def zrun (code : Nat) : State :=
  let s := (tlbInstall 4 (s0.ptroot b0) 0x50000 hf s0).setPc b0 0x50000
  { s.wr 0x5000 64 code with agenda := [.issue 4 2] }
/-- The same with the line of the code in the instruction cache. -/
def zhit (code : Nat) : State :=
  let s := zrun code
  s.modCore 4 (fun c => { c with icache := [(160, BitVec.ofNat 1024 (s.homeData 160))] })
/-- The state in which the fetch of that turn happens. -/
def zturn (s : State) : State := { s with agenda := [], turnCore := 4, turnSlot := 2 }
/-- The first instruction that the fetch finds, with its register words as `p` says; none for bytes that are none. -/
def zfirst (s : State) (i : Option Instr) (p : Instr → State → Bool) : Bool :=
  match fetch s0.me (zturn s) with
  | (.bytes bs, f) =>
    (match decode bs with
     | .ok (j, _) => decide (i = some j) && p j (noteIssue s0.me f)
     | .error _ => i.isNone)
  | _ => false
def zlate (j : Instr) (u : State) : Bool := (privileged j && !u.pl b0) || isVectorOp j || isTensorOp j
/-- No register word lost; one of those of the first checks; another one, and what the instruction comes to without it. -/
def zwhole (j : Instr) (u : State) : Bool := !zlate j u && (u.lostFirst b0 j).isNone && (u.lostLater b0 j).isNone
def zlost (j : Instr) (u : State) : Bool := !zlate j u && (u.lostFirst b0 j).isSome
def zend (took waits checking : Bool) (j : Instr) (u : State) : Bool :=
  !zlate j u && (u.lostFirst b0 j).isNone && (u.lostLater b0 j).isSome &&
    (match exec j (dropWords b0 j u) with
     | .next x => decide (tookTrap s0.me u x = took) && (match (x.ctx 7).wait with
       | some y => waits && decide (y.cont.checking = checking)
       | none => !waits)
     | _ => false)
/-- `add 3, 3, 1`; a pad, and the same behind it; `eret`; a store of a vector register, which lies in a lost line; the line
of PC lost; a page of local memory behind a window that is being unmapped; a borrower whose workspace is kept in a frame. -/
def zadd : Nat := 0x0000010000018C10
def zaddi : Instr := .addi .nt 3 3 (.i24 1)
def zcode (i : Instr) : State := zhit (leNat ((encode i).getD []))
def zpad : State := zhit (0xFFFFFFFF + 2 ^ 256 * zadd)
def zst (a : Word) : State := { w 2 a (zcode (.vst .n8 2 (.i24 0) 5)) with lostLocal := [(b0 + offV + 64 * 5) / 128] }
def zwin : State :=
  (tlbInstall 4 (s0.ptroot b0) 0x40000 lf ((zrun 0).setPc b0 0x40000)).setWin 4 7
    { v := true, vpn := 0x60, lbase := 0x90, size := 0, unmapping := true }
def zborrow (lost : Bool) (s : State) : State :=
  { s.modCtx 7 (fun c => { c with savedBorrow := some (4, 5) }) with lostLocal := if lost then [wsBase 4 5 / 128] else [] }
theorem witness_StepRunsDecoded : s0.dev.powered = true ∧ (zrun 0).agenda = [.issue 4 2] ∧ (zturn (zrun 0)).me = s0.me ∧
    ({ zrun 0 with agenda := [] } : State).inRotation 4 2 = true ∧ ({ zrun 0 with agenda := [] } : State).inRotation 4 3 = false ∧
    (((zrun 0).ctx 7).savedBorrow = none ∧ ((zrun 0).ctx 7).savedBytes = none ∧ (zrun 0).wsLost b0 [(offPc, 128)] = none) ∧
    ((zturn (zborrow true (zrun 0))).borrowLost 7).isSome = true ∧
    ((zturn (zborrow false (zrun 0))).borrowLost 7 = none ∧ (reborrow 4 7 (zturn (zborrow false (zrun 0)))).isSome = true) ∧
    (let s := (zborrow false (zrun 0)).modCore 4 (fun c => { c with frames := 0 })
     s.borrowLost 7 = none ∧ (reborrow 4 7 (zturn s)).isNone = true) ∧
    (({ zrun 0 with lostLocal := [(b0 + offPc) / 128] } : State).wsLost b0 [(offPc, 128)]).isSome = true ∧
    zfirst (zhit zadd) (some zaddi) zwhole = true ∧ zfirst (zcode .eret) (some .eret) zlate = true ∧
    zfirst ((zcode .eret).setPl b0 true) (some .eret) zwhole = true ∧
    zfirst (zcode (.vand .n8 1 2 3 none)) (some (.vand .n8 1 2 3 none)) zlate = true ∧
    zfirst { zhit zadd with lostLocal := [b0 / 128] } (some zaddi) zlost = true ∧
    zfirst (zst 0x0100000000000000) (some (.vst .n8 2 (.i24 0) 5)) (zend true false false) = true ∧
    zfirst (zst 0x60000) (some (.vst .n8 2 (.i24 0) 5)) (zend false true true) = true ∧
    zfirst (zst 0x50000) (some (.vst .n8 2 (.i24 0) 5)) (zend false true false) = true ∧
    zfirst zpad (some .pad) (fun _ _ => true) = true ∧
    (match exec .pad (fetch s0.me (zturn zpad)).2 with
     | .next p => zfirst p (some zaddi) zwhole
     | _ => false) = true ∧
    zfirst (zhit 0xFFFFFFFFFFFFFFFE) none zwhole = true ∧
    (match fetch s0.me (zturn ((zrun 0).setPc b0 0x50002)) with | (.trap _, _) => true | _ => false) = true ∧
    (∀ s ∈ [(zrun 0).setPc b0 0x60000, zwin], (match fetch s0.me (zturn s) with | (.wait _, _) => true | _ => false) = true) ∧
    isEvent (.ringDispatch 4) = true ∧
    (let s : State := { s0 with agenda := [], todo := [4] }
     ({ s with todo := [] } : State).nextSlot 4 = some 2 ∧ ({ s with todo := [] } : State).nextSlot 9 = none) := by
  and_intros <;> decide

/-- The line of the code lost; its line in the instruction cache; the page without X; local memory of another cluster. -/
def zleaf (l : Leaf) : State := (tlbInstall 4 (s0.ptroot b0) 0x50000 l s0).setPc b0 0x50020
theorem witness_FetchResults : ((zrun 0).setPc b0 0x50002).pc b0 = 0x50002 ∧
    ((zturn (zhit 0)).slot 66).block = none ∧ ((fetch s0.me (zturn (zhit 0))).2.slot 66).block = some (0x50000, 0) ∧
    (canonicalVa 0x0100000000000000 = false ∧ canonicalVa 0x5001C = true) ∧ s0.tlbHit 4 (s0.ptroot b0) 0x50000 = none ∧
    (zrun 0).tlbHit 4 ((zrun 0).ptroot b0) 0x5001C = some hf ∧ hf.permits { x := true } ((zrun 0).pl b0) = true ∧
    ((zleaf { hf with x := false }).tlbHit 4 (s0.ptroot b0) 0x50020 = some { hf with x := false } ∧
      ({ hf with x := false } : Leaf).permits { x := true } false = false) ∧
    (regionOf (localPa 8 0x90020) = .local 8 ∧ clusterOf 8 ≠ clusterOf s0.me.core) ∧
    (regionOf (hf.phys 0x50000) = .hbm 0 ∧ ((zrun 0).core 4).icache = [] ∧ ((zrun 0).line 160).lost = false ∧
      ((lin (fun x => { x with lost := true }) (zrun 0)).line 160).lost = true) ∧
    (∀ s ∈ [lin (fun x => { x with half0 := .he }) (zrun 0), lin (fun x => { x with half1 := .he }) (zrun 0)],
      (s.core 4).icache = [] ∧ (s.line 160).lost = false ∧ ((s.line 160).half0 = .he ∨ (s.line 160).half0 ≠ .he ∧ (s.line 160).half1 = .he)) ∧
    ((zrun 0).line 160).half0 ≠ .he ∧ ((zrun 0).line 160).half1 ≠ .he ∧
    ((zhit 0).core 4).icache.find? (fun e => e.1 = 160) = some (160, 0) := by and_intros <;> decide
theorem witness_EncodeDecode : WellFormed (.vcvt .n64 .n8 .rne 31 1 (some 7)) = true ∧
    (encode (.vcvt .n64 .n8 .rne 31 1 (some 7))).isSome = true ∧ (encode (.pad)).isSome = true := by decide
/-- What completes: a release that waits, at its time; the instructions behind an `rpt`; the step of a `gbin` past all its
bins; a table of no bins. -/
theorem witness_SynchronizingFormsComplete : Memory.wf s0.mem = true ∧
    (s0.pend b0 = 0 ∧ (s0.ctx s0.me.key).peerWrites = [] ∧ (s0.ctx s0.me.key).vtDie0 ≤ s0.gtOf s0.me.core ∧
      (s0.ctx s0.me.key).vtDie1 ≤ s0.gtOf s0.me.core ∧ (s0.ctx s0.me.key).performed ≤ s0.gtOf s0.me.core) ∧
    ((srel rts).meOf 7 = some s0.me ∧ ((srel rts).ctx 7).migrating = false ∧ rts ≤ (srel rts).gtOf 4 ∧
      ((srel rts).ctx 7).wait.map (fun x => (x.block, x.cont.prog)) = some (.release .dev rts, [.adv 8])) ∧
    (pushTargets (spush 0xFFFFFFFFFFFFFF09) 4 .list ((spush 0xFFFFFFFFFFFFFF09).getW b0 4) = some [9] ∧
      (spush 0xFFFFFFFFFFFFFF09).pend b0 < 255 ∧
      ((spush 0xFFFFFFFFFFFFFF09).getW b0 2 + (0 : BitVec 32).signExtend 64).toNat = 0x40000 ∧ (lp + 8 ≤ b0 ∨ b0 + 4096 ≤ lp) ∧
      LocalAt (spush 0xFFFFFFFFFFFFFF09) (spush 0xFFFFFFFFFFFFFF09).me .write 0x40000 8 lf) ∧
    (let s := w 4 0xFFFFFFFFFFFFFF09 sh; s.pend b0 < 255 ∧ (hf.phys 0x50078 + 8 ≤ b0 ∨ b0 + 4096 ≤ hf.phys 0x50078) ∧
      (s.getW b0 2 + (0 : BitVec 32).signExtend 64).toNat = 0x50078 ∧ HeldAt s s.me .write 0x50078 8 hf) ∧
    (srpt.seqCore 7 = none ∧ (srpt.core 4).seq.ctx = none ∧ (srpt.pc b0).toNat = 0x40000 ∧ 0x40000 < 2 ^ 56 ∧
      (srpt.slot 66).block = some (0x40000 / 32 * 32, blk (.vand .n8 1 2 3 none)) ∧
      WellFormed (.vand .n8 1 2 3 none) = true ∧ isVectorOp (.vand .n8 1 2 3 none) = true ∧
      (natBytes 32 (blk (.vand .n8 1 2 3 none)).toNat).drop (0x40000 % 32 + 8) =
        ([Instr.vand .n8 1 2 3 none].map (fun i => (encode i).getD [])).flatten ++ List.replicate 16 0) ∧
    (let q := ((sseq false).core 4).seq
     q.ctx = some 7 ∧ q.instrs[q.idx]? = some (.vxor .n8 1 2 3 none) ∧ q.placed = false ∧ q.waitStep = false ∧ q.claim = false ∧ q.fault = none ∧
      q.rep < q.reps) ∧
    (∀ k ∈ [0, 3], (shead (cop k 6) se).runningOp 0 31 = some (cop k 6) ∧ (cop k 6).faulted = none ∧ (cop k 6).lead = lead0 ∧
      (cop k 6).half = none ∧ (cop k 6).kept = none ∧
      (elemAddr 0x40000 0x50000 cdims k).2.2 = false) ∧
    ((sgbin 8 bpast).runningOp 0 31 = some (gop bpast) ∧ (gop bpast).faulted = none ∧ (gop bpast).lead = lead0 ∧
      ∀ e ∈ bpast.idxs, e < bpast.bin ∨ bpast.nbins ≤ e) ∧
    ((sbins 0).runningOp 0 31 = some bop ∧ bop.faulted = none ∧ bop.lead = lead0 ∧ Memory.wf (sbins 0).mem = true) ∧
    (moveReadVa mv 0x50020 32 (sbins 0) = (.got 0, sbins 0) ∧ fld 0 0 4 = 0 ∧
      fld 0 24 4 = 0 ∧ ∃ x u, moveWrite mv ((0x50020 + 20) % 2 ^ 64) 4 0 (sbins 0) = (.got x, u)) :=
  ⟨by decide, by decide, by decide, ⟨by decide, by decide, by decide, by decide, by constructor <;> decide⟩,
    ⟨by decide, by decide, by decide, by constructor <;> decide⟩, by decide, by decide, by decide, by decide, by decide,
    by have h := binr_header 0 (.inl rfl); rwa [Nat.zero_mul] at h, by decide, by decide, got_of (by decide)⟩
theorem witness_StepKeepsInv : Machine.Inv State.reset ∧ ∃ t, step State.reset = .next t := by
  constructor
  · unfold Machine.Inv; decide
  · have h : (match step State.reset with | .next _ => true | _ => false) = true := by decide
    revert h
    cases step State.reset with
    | next t => exact fun _ => ⟨t, rfl⟩
    | _ => intro h; simp at h

end Sys2Proof.Tests
end

section
/-! The scalar integer instructions, comparisons, predicates, branches and jumps (R304 to R311, R348): the laws of their
operations on bit vectors, the effect of each shared shape, and the settling of their statements. -/

namespace Sys2Proof.Machine

open Sys2Proof

/-! ### Numbers as bit vectors -/

/-- A number read signed is the signed value of its low bits. -/
theorem toSigned_eq_toInt_ofNat (n v : Nat) : toSigned n v = (BitVec.ofNat n v).toInt := by
  rw [BitVec.toInt_eq_toNat_cond, BitVec.toNat_ofNat, toSigned]
  cases n with
  | zero => simp [Nat.mod_one]
  | succ n =>
    have hdouble : 2 ^ (n + 1) = 2 * 2 ^ n := by omega
    simp only [Nat.add_sub_cancel]
    split <;> split <;> omega

theorem toSigned_toNat {n : Nat} (x : BitVec n) : toSigned n x.toNat = x.toInt := by
  rw [toSigned_eq_toInt_ofNat, BitVec.ofNat_toNat, BitVec.setWidth_eq]

theorem wrapInt_eq_toNat_ofInt (n : Nat) (z : Int) : wrapInt n z = (BitVec.ofInt n z).toNat :=
  (BitVec.toNat_ofInt z).symm

theorem bit_eq_testBit (x i : Nat) : bit x i = x.testBit i := Nat.testBit_eq_decide_div_mod_eq.symm

/-- A field of a word, shifted down and cut to its width. -/
theorem bits_toNat (x : BitVec 64) (lo n : Nat) : bits x.toNat lo n = ((x >>> lo).setWidth n).toNat := by
  rw [BitVec.toNat_setWidth, BitVec.toNat_ushiftRight, Nat.shiftRight_eq_div_pow, bits]

/-- The bits of a number with a field replaced: those of the new value within the field, the old ones elsewhere. -/
theorem testBit_setBits (x lo n v i : Nat) :
    (setBits x lo n v).testBit i = if lo ≤ i ∧ i < lo + n then v.testBit (i - lo) else x.testBit i := by
  have hsplit : setBits x lo n v = 2 ^ lo * (2 ^ n * (x / 2 ^ (lo + n)) + v % 2 ^ n) + x % 2 ^ lo := by
    rw [setBits_split, two_pow_split]; ring
  rw [hsplit, Nat.testBit_two_pow_mul_add _ (Nat.mod_lt _ (Nat.two_pow_pos lo)),
    Nat.testBit_two_pow_mul_add _ (Nat.mod_lt _ (Nat.two_pow_pos n))]
  by_cases hbelow : i < lo
  · have hout : ¬ (lo ≤ i ∧ i < lo + n) := by omega
    simp [hbelow, hout, Nat.testBit_mod_two_pow]
  · by_cases hin : i - lo < n
    · have hfield : lo ≤ i ∧ i < lo + n := by omega
      simp [hbelow, hin, hfield, Nat.testBit_mod_two_pow]
    · have hout : ¬ (lo ≤ i ∧ i < lo + n) := by omega
      have hplace : i - lo - n + (lo + n) = i := by omega
      simp [hbelow, hin, hout, Nat.testBit_div_two_pow, hplace]

/-! ### The two-source operations on `n`-bit operands (R304) -/

section
variable {n : Nat} (x y : BitVec n)

theorem aluAdd_toNat : aluAdd n x.toNat y.toNat = (x + y).toNat := (BitVec.toNat_add x y).symm

theorem aluSub_toNat : aluSub n x.toNat y.toNat = (x - y).toNat := by
  have h : BitVec.ofInt n ((x.toNat : Int) - y.toNat) = x - y := by
    rw [Int.sub_eq_add_neg, BitVec.ofInt_add, BitVec.ofInt_neg, BitVec.ofInt_natCast, BitVec.ofInt_natCast,
      BitVec.ofNat_toNat, BitVec.ofNat_toNat, BitVec.setWidth_eq, BitVec.setWidth_eq, BitVec.sub_eq_add_neg]
  rw [aluSub, wrapInt_eq_toNat_ofInt, h]

theorem aluMul_toNat : aluMul n x.toNat y.toNat = (x * y).toNat := (BitVec.toNat_mul x y).symm

theorem aluMulh_toNat :
    aluMulh n x.toNat y.toNat = ((x.signExtend (2 * n) * y.signExtend (2 * n)).extractLsb' n n).toNat := by
  have hlt : ∀ p : BitVec (2 * n), p.toNat / 2 ^ n < 2 ^ n := fun p =>
    Nat.div_lt_of_lt_mul (by rw [← Nat.pow_add, ← Nat.two_mul]; exact p.isLt)
  rw [aluMulh, toSigned_toNat, toSigned_toNat, wrapInt_eq_toNat_ofInt, BitVec.ofInt_mul, BitVec.extractLsb'_toNat,
    Nat.shiftRight_eq_div_pow, Nat.mod_eq_of_lt (hlt _)]
  rfl

theorem aluMulhn_toNat :
    aluMulhn n x.toNat y.toNat = ((x.setWidth (2 * n) * y.setWidth (2 * n)).extractLsb' n n).toNat := by
  have hpow : 2 ^ (2 * n) = 2 ^ n * 2 ^ n := by rw [Nat.two_mul, Nat.pow_add]
  have hprod : x.toNat * y.toNat < 2 ^ (2 * n) := hpow ▸ Nat.mul_lt_mul'' x.isLt y.isLt
  have hwide : ∀ z : BitVec n, (z.setWidth (2 * n)).toNat = z.toNat := fun z =>
    BitVec.toNat_setWidth_of_le (by omega)
  rw [aluMulhn, BitVec.extractLsb'_toNat, BitVec.toNat_mul, hwide, hwide, Nat.mod_eq_of_lt hprod,
    Nat.shiftRight_eq_div_pow, Nat.mod_eq_of_lt (Nat.div_lt_of_lt_mul (hpow ▸ hprod))]

theorem aluAnd_toNat : aluAnd n x.toNat y.toNat = (x &&& y).toNat := (BitVec.toNat_and x y).symm
theorem aluOr_toNat : aluOr n x.toNat y.toNat = (x ||| y).toNat := (BitVec.toNat_or x y).symm
theorem aluXor_toNat : aluXor n x.toNat y.toNat = (x ^^^ y).toNat := (BitVec.toNat_xor x y).symm

theorem aluAndn_toNat : aluAndn n x.toNat y.toNat = (x &&& ~~~y).toNat := by
  rw [BitVec.toNat_and, BitVec.toNat_not, aluAndn]

theorem aluShl_toNat : aluShl n x.toNat y.toNat = (x <<< (y.toNat % n)).toNat := by
  rw [BitVec.toNat_shiftLeft, Nat.shiftLeft_eq, aluShl]

theorem aluShr_toNat : aluShr n x.toNat y.toNat = (x >>> (y.toNat % n)).toNat := by
  rw [BitVec.toNat_ushiftRight, Nat.shiftRight_eq_div_pow, aluShr]

theorem aluSra_toNat : aluSra n x.toNat y.toNat = (x.sshiftRight (y.toNat % n)).toNat := by
  rw [aluSra, toSigned_toNat, wrapInt_eq_toNat_ofInt, BitVec.sshiftRight_eq, Int.shiftRight_eq_div_pow]

/-- The two parts of a rotation share no bit, so their sum is their union. -/
theorem aluRotr_toNat : aluRotr n x.toNat y.toNat = (x.rotateRight (y.toNat % n)).toNat := by
  rcases Nat.eq_zero_or_pos n with rfl | hn
  · simp [aluRotr, BitVec.of_length_zero]
  have hk : y.toNat % n ≤ n := (Nat.mod_lt _ hn).le
  have hlow : x.toNat / 2 ^ (y.toNat % n) < 2 ^ (n - y.toNat % n) :=
    Nat.div_lt_of_lt_mul (by rw [← Nat.pow_add, Nat.add_sub_cancel' hk]; exact x.isLt)
  have hlow' : x.toNat / 2 ^ (y.toNat % n) < 2 ^ n := hlow.trans_le (Nat.pow_le_pow_right (by omega) (by omega))
  rw [aluRotr, BitVec.toNat_rotateRight, Nat.mod_mod, Nat.add_comm, ← Nat.shiftLeft_eq,
    Nat.shiftLeft_add_eq_or_of_lt hlow, Nat.or_mod_two_pow, Nat.mod_eq_of_lt hlow', Nat.or_comm,
    Nat.shiftRight_eq_div_pow]

theorem aluMin_toNat : aluMin n x.toNat y.toNat = (if y.slt x then y else x).toNat := by
  simp only [aluMin, toSigned_toNat, BitVec.slt_eq_decide, decide_eq_true_eq, apply_ite BitVec.toNat]

theorem aluMax_toNat : aluMax n x.toNat y.toNat = (if x.slt y then y else x).toNat := by
  simp only [aluMax, toSigned_toNat, BitVec.slt_eq_decide, decide_eq_true_eq, apply_ite BitVec.toNat]

theorem aluMinn_toNat : aluMinn n x.toNat y.toNat = (if y.ult x then y else x).toNat := by
  simp only [aluMinn, BitVec.ult_eq_decide, decide_eq_true_eq, apply_ite BitVec.toNat]

theorem aluMaxn_toNat : aluMaxn n x.toNat y.toNat = (if x.ult y then y else x).toNat := by
  simp only [aluMaxn, BitVec.ult_eq_decide, decide_eq_true_eq, apply_ite BitVec.toNat]

theorem eq_zero_iff_toNat : y = 0 ↔ y.toNat = 0 := BitVec.toNat_inj.symm.trans (by simp)

/-- The quotient truncated toward zero, wrapped where the least value is divided by -1. -/
theorem ofInt_tdiv_toInt : BitVec.ofInt n (x.toInt.tdiv y.toInt) = x.sdiv y := by
  apply BitVec.eq_of_toInt_eq
  rw [BitVec.toInt_ofInt, BitVec.toInt_sdiv]

theorem ofInt_tmod_toInt : BitVec.ofInt n (x.toInt.tmod y.toInt) = x.srem y := by
  rw [← BitVec.toInt_srem, BitVec.ofInt_toInt]

theorem aluDiv_toNat : aluDiv n x.toNat y.toNat = (if y = 0 then BitVec.allOnes n else x.sdiv y).toNat := by
  simp only [aluDiv, eq_zero_iff_toNat, toSigned_toNat, wrapInt_eq_toNat_ofInt, ofInt_tdiv_toInt,
    apply_ite BitVec.toNat, BitVec.toNat_allOnes]

theorem aluDivn_toNat : aluDivn n x.toNat y.toNat = (if y = 0 then BitVec.allOnes n else x.udiv y).toNat := by
  simp only [aluDivn, eq_zero_iff_toNat, apply_ite BitVec.toNat, BitVec.toNat_allOnes]
  rfl

theorem aluRem_toNat : aluRem n x.toNat y.toNat = (if y = 0 then x else x.srem y).toNat := by
  simp only [aluRem, eq_zero_iff_toNat, toSigned_toNat, wrapInt_eq_toNat_ofInt, ofInt_tmod_toInt,
    apply_ite BitVec.toNat]

theorem aluRemn_toNat : aluRemn n x.toNat y.toNat = (if y = 0 then x else x.umod y).toNat := by
  simp only [aluRemn, eq_zero_iff_toNat, apply_ite BitVec.toNat]
  rfl

end

/-! ### The counts of zeros and ones (R305) -/

/-- The leading zeros are the place of the first set bit from above. -/
theorem aluClz_eq_find (n x : Nat) :
    aluClz n x = ((List.range n).find? (fun k => x.testBit (n - 1 - k))).getD n := by
  induction n with
  | zero => rfl
  | succ n ih =>
    have hnext : (fun k => x.testBit (n + 1 - 1 - k)) ∘ Nat.succ = fun k => x.testBit (n - 1 - k) := by
      funext k; simp only [Function.comp]; congr 1; omega
    rw [aluClz, bit_eq_testBit, List.range_succ_eq_map, List.find?_cons, List.find?_map, hnext, ih]
    cases htop : x.testBit n with
    | true => simp [htop]
    | false =>
      cases hf : (List.range n).find? (fun k => x.testBit (n - 1 - k)) <;> simp [htop, Nat.add_comm]

/-- The trailing zeros are the place of the first set bit from below. -/
theorem aluCtz_eq_find (n x : Nat) : aluCtz n x = ((List.range n).find? x.testBit).getD n := by
  induction n generalizing x with
  | zero => rfl
  | succ n ih =>
    have hnext : x.testBit ∘ Nat.succ = (x / 2).testBit := funext fun k => Nat.testBit_succ x k
    rw [aluCtz, List.range_succ_eq_map, List.find?_cons, List.find?_map, hnext, ih, Nat.testBit_zero]
    by_cases hodd : x % 2 = 1
    · simp [hodd]
    · cases hf : (List.range n).find? (x / 2).testBit <;> simp [hodd, Nat.add_comm]

theorem popCount_eq_countP (n x : Nat) : popCount n x = (List.range n).countP x.testBit := by
  rw [List.countP_eq_length_filter, popCount, setBitsOf, funext (bit_eq_testBit x)]

theorem aluClz_le (n x : Nat) : aluClz n x ≤ n := by
  induction n with
  | zero => exact Nat.le_refl 0
  | succ n ih => rw [aluClz]; split <;> omega

theorem aluCtz_le (n x : Nat) : aluCtz n x ≤ n := by
  induction n generalizing x with
  | zero => exact Nat.le_refl 0
  | succ n ih => have := ih (x / 2); rw [aluCtz]; split <;> omega

theorem popCount_le (n x : Nat) : popCount n x ≤ n := by
  rw [popCount_eq_countP]
  exact List.countP_le_length.trans_eq List.length_range

/-! ### A register written and the PC past the instruction (R303) -/

/-- One register and the PC are written, wherever the workspace lies. -/
theorem stores_setW_advPc {s : State} (hmem : Memory.wf s.mem = true) (base : Nat) (d : WReg) (v : Word) (len : Nat) :
    Stores s ((s.setW base d v).advPc base len) [(base + 8 * d.val, 8), (base + offPc, 8)] :=
  ((Stores.refl s _).setW hmem base d v (by simp)).advPc (State.wr_wf _ _ _ hmem) base len (by simp)

/-- A result of `n` bits that is a bit vector's is written zero-extended. -/
theorem dst_toNat (s : State) (base n : Nat) (d : WReg) (v : BitVec n) :
    s.dst base n d v.toNat = s.setW base d (v.setWidth 64) := dst_eq s base n d v _ (Nat.mod_eq_of_lt v.isLt)

section
variable {s : State} {ty : Ty} {d a b : WReg} (hmem : Memory.wf s.mem = true)
include hmem

/-- A two-source instruction writes the result that its operation has on bit vectors. -/
theorem alu2_wrote_of_toNat {f : Nat → Nat → Nat → Nat} {v : BitVec (opBits ty)}
    (hf : f (opBits ty) ((s.getW s.me.base a).setWidth (opBits ty)).toNat
      ((s.getW s.me.base b).setWidth (opBits ty)).toNat = v.toNat) :
    ∃ t, alu2 f ty d a b s = .next t ∧ WroteW s t d (v.setWidth 64) 8 :=
  alu2_wrote hmem f ty d a b v (by rw [src_eq, src_eq, hf, Nat.mod_eq_of_lt v.isLt])

/-- A count of bits of the operand fits the operand width, so it is written whole. -/
theorem alu1_wrote_count {f : Nat → Nat → Nat} (hle : ∀ n x, f n x ≤ n) {k : Nat}
    (hf : f (opBits ty) ((s.getW s.me.base a).toNat % 2 ^ opBits ty) = k) :
    ∃ t, alu1 f ty d a s = .next t ∧ WroteW s t d (BitVec.ofNat 64 k) 8 := by
  have hk : k < 2 ^ opBits ty := (hf ▸ hle _ _ : k ≤ opBits ty).trans_lt Nat.lt_two_pow_self
  have hwide : (BitVec.ofNat (opBits ty) k).setWidth 64 = BitVec.ofNat 64 k := by
    rw [← BitVec.ofNat_toNat, BitVec.toNat_ofNat, Nat.mod_eq_of_lt hk]
  rw [← hwide]
  exact alu1_wrote hmem f ty d a _ (by rw [State.src, hf, BitVec.toNat_ofNat])

end

/-! ### Divisions (R304) -/

@[simp] theorem State.waitOf_setWait (s : State) (key : Nat) (w : Wait) :
    (s.setWait key w).waitOf key = some w.block := by
  simp [State.waitOf, State.setWait]

@[simp] theorem State.ctx_clearWait_wait (s : State) (key : Nat) : ((s.clearWait key).ctx key).wait = none := by
  simp [State.clearWait]

@[simp] theorem State.getW_clearWait (s : State) (key base : Nat) (r : WReg) :
    (s.clearWait key).getW base r = s.getW base r := rfl

@[simp] theorem State.pc_clearWait (s : State) (key base : Nat) : (s.clearWait key).pc base = s.pc base := rfl

/-- A division leaves its context waiting with its result decided. -/
theorem startDiv_waits_of_toNat {s : State} {ty : Ty} {d a b : WReg} {f : Nat → Nat → Nat → Nat}
    {v : BitVec (opBits ty)}
    (hf : f (opBits ty) ((s.getW s.me.base a).setWidth (opBits ty)).toNat
      ((s.getW s.me.base b).setWidth (opBits ty)).toNat = v.toNat) :
    ∃ t, startDiv f ty d a b s = .next t ∧
      t.waitOf s.me.key = some (.div d (v.setWidth 64) 8 (s.cycle + 24)) ∧ t.mem = s.mem ∧
      ∀ k, k ≠ s.me.key → t.ctx k = s.ctx k := by
  obtain ⟨t, ht, hkeeps⟩ := startDiv_waits s f ty d a b
  refine ⟨t, ht, ?_, hkeeps⟩
  have hv : f (opBits ty) (s.src s.me.base (opBits ty) a) (s.src s.me.base (opBits ty) b) % 2 ^ opBits ty =
      v.toNat := by
    rw [src_eq, src_eq, hf, Nat.mod_eq_of_lt v.isLt]
  cases ht
  rw [hv, BitVec.ofNat_toNat]
  exact State.waitOf_setWait s s.me.key _

/-- The end of a division that a context waits for. -/
theorem execDivisionComplete_of_waiting {s : State} {key : Nat} {me : Me} {d : WReg} {v : Word} {len ready : Nat}
    (hme : s.meOf key = some me) (hwait : s.waitOf key = some (.div d v len ready)) :
    execDivisionComplete key s =
      if s.cycle < ready then .next s else .next (((s.setW me.base d v).advPc me.base len).clearWait key) := by
  rw [execDivisionComplete, hme, hwait]
  rfl

/-- Settles O1: each row is its operation's law on bit vectors in the shape of its instruction. -/
theorem twoSourceResults : Obligations.TwoSourceResults := by
  refine ⟨fun s ty d a b hmem => ?_, fun s ty d a b => ?_, fun s key me d v len ready hmem hme hwait => ?_⟩
  · simp only [List.forall_mem_cons, List.not_mem_nil, false_implies, implies_true, and_true]
    exact ⟨alu2_wrote_of_toNat hmem (aluAdd_toNat _ _), alu2_wrote_of_toNat hmem (aluSub_toNat _ _),
      alu2_wrote_of_toNat hmem (aluMul_toNat _ _), alu2_wrote_of_toNat hmem (aluMulh_toNat _ _),
      alu2_wrote_of_toNat hmem (aluMulhn_toNat _ _), alu2_wrote_of_toNat hmem (aluAnd_toNat _ _),
      alu2_wrote_of_toNat hmem (aluOr_toNat _ _), alu2_wrote_of_toNat hmem (aluXor_toNat _ _),
      alu2_wrote_of_toNat hmem (aluAndn_toNat _ _), alu2_wrote_of_toNat hmem (aluShl_toNat _ _),
      alu2_wrote_of_toNat hmem (aluShr_toNat _ _), alu2_wrote_of_toNat hmem (aluSra_toNat _ _),
      alu2_wrote_of_toNat hmem (aluRotr_toNat _ _), alu2_wrote_of_toNat hmem (aluMin_toNat _ _),
      alu2_wrote_of_toNat hmem (aluMax_toNat _ _), alu2_wrote_of_toNat hmem (aluMinn_toNat _ _),
      alu2_wrote_of_toNat hmem (aluMaxn_toNat _ _)⟩
  · simp only [List.forall_mem_cons, List.not_mem_nil, false_implies, implies_true, and_true]
    exact ⟨startDiv_waits_of_toNat (aluDiv_toNat _ _), startDiv_waits_of_toNat (aluDivn_toNat _ _),
      startDiv_waits_of_toNat (aluRem_toNat _ _), startDiv_waits_of_toNat (aluRemn_toNat _ _)⟩
  · have hend := execDivisionComplete_of_waiting hme hwait
    have hwf : Memory.wf (s.setW me.base d v).mem = true := State.wr_wf _ _ _ hmem
    refine ⟨fun hearly => hend.trans (if_pos hearly),
      fun hready => ⟨_, hend.trans (if_neg (Nat.not_lt.2 hready)), ?_, ?_, ?_, fun x hd hpc => ?_⟩⟩
    · rw [State.getW_clearWait, State.getW_advPc hwf, State.getW_setW hmem]
    · rw [State.pc_clearWait, State.pc_advPc hwf, State.pc_setW hmem]
    · exact State.ctx_clearWait_wait _ key
    · obtain ⟨-, hkeeps⟩ := stores_setW_advPc hmem me.base d v len
      rw [State.clearWait_mem]
      refine hkeeps x ?_
      simp only [List.forall_mem_cons, List.not_mem_nil, false_implies, implies_true, and_true]
      exact ⟨hd, hpc⟩

/-! ### The other integer and address instructions (R305 to R308) -/

/-- `addi` adds the low bits of its immediate. -/
theorem aluAdd_src_imm (s : State) (base n : Nat) (a : WReg) (imm : Word) :
    aluAdd n (s.src base n a) (imm.toNat % 2 ^ n) = ((s.getW base a).setWidth n + imm.setWidth n : BitVec n).toNat := by
  rw [src_eq, ← BitVec.toNat_setWidth n imm, aluAdd_toNat]

theorem extendLoad_toNat (ty : Ty) (x : Word) :
    extendLoad ty x.toNat =
      if ty.isSigned then (x.setWidth ty.bits).signExtend 64 else (x.setWidth ty.bits).setWidth 64 := by
  unfold extendLoad
  split
  · rw [toSigned_eq_toInt_ofNat, BitVec.ofNat_toNat]; rfl
  · rw [← BitVec.toNat_setWidth, BitVec.ofNat_toNat]

/-- A field inserted by mask and shift. -/
theorem ofNat_setBits (x v : Word) (lo n : Nat) :
    BitVec.ofNat 64 (setBits x.toNat lo n v.toNat) =
      (x &&& ~~~((BitVec.allOnes n).setWidth 64 <<< lo)) ||| ((v <<< lo) &&& ((BitVec.allOnes n).setWidth 64 <<< lo)) := by
  apply BitVec.eq_of_getLsbD_eq
  intro i hi
  rw [BitVec.getLsbD_ofNat, testBit_setBits, BitVec.testBit_toNat, BitVec.testBit_toNat]
  by_cases hin : lo ≤ i ∧ i < lo + n
  · have hplace : ¬ i < lo ∧ i - lo < 64 ∧ i - lo < n := by omega
    simp [hi, hin, hplace]
  · have hplace : i < lo ∨ ¬ i - lo < n := by omega
    rcases hplace with hplace | hplace <;> simp [hi, hin, hplace]

/-- Settles O2: each instruction writes its result and passes itself; the results are laws on bit vectors. -/
theorem oneSourceResults : Obligations.OneSourceResults := by
  intro s ty d a b c imm m lsb width hmem
  refine ⟨?_, fun _ _ => ?_, fun _ => ⟨?_, ?_, ?_⟩⟩
  · simp only [List.forall_mem_cons, List.not_mem_nil, false_implies, implies_true, and_true]
    refine ⟨alu1_wrote_count hmem aluClz_le (aluClz_eq_find _ _), alu1_wrote_count hmem aluCtz_le (aluCtz_eq_find _ _),
      alu1_wrote_count hmem popCount_le (popCount_eq_countP _ _), ⟨_, rfl, wroteW_of hmem d _ 8⟩, ⟨_, rfl, ?_⟩,
      ⟨_, rfl, wroteW_of hmem d _ _⟩, ⟨_, rfl, ?_⟩, ⟨_, rfl, wroteW_of hmem d _ 12⟩⟩
    · rw [aluAdd_src_imm, dst_toNat]
      exact wroteW_of hmem d _ _
    · cases m with
      | reg r => exact wroteW_of hmem d _ _
      | pc => exact wroteW_of hmem d _ _
  · rw [← extendLoad_toNat]
    exact ⟨_, rfl, wroteW_of hmem d _ 8⟩
  · rw [← BitVec.ofNat_toNat, ← bits_toNat]
    exact ⟨_, rfl, wroteW_of hmem d _ 8⟩
  · rw [BitVec.signExtend, ← toSigned_toNat, ← bits_toNat]
    exact ⟨_, rfl, wroteW_of hmem d _ 8⟩
  · rw [← ofNat_setBits]
    exact ⟨_, rfl, wroteW_of hmem d _ 8⟩

/-! ### Comparison and predicates (R309, R348) -/

/-- What a relation says of two elements of a linear order. -/
def relOn {α : Type} [LinearOrder α] (k : Rel) (x y : α) : Bool :=
  match k with
  | .lt => decide (x < y)
  | .le => decide (x ≤ y)
  | .eq => decide (x = y)
  | .ne => decide (x ≠ y)

/-- A relation of ordered operands is the relation of their order, by the three ways that they can stand. -/
theorem relHolds_compare {α : Type} [LinearOrder α] (k : Rel) (x y : α) :
    relHolds k (some (compare x y)) = relOn k x y := by
  rcases lt_trichotomy x y with hlt | heq | hgt
  · rw [compare_lt_iff_lt.2 hlt]
    cases k <;> simp [relHolds, relOn, hlt, hlt.le, hlt.ne]
  · rw [compare_eq_iff_eq.2 heq]
    cases k <;> simp [relHolds, relOn, heq]
  · rw [compare_gt_iff_gt.2 hgt]
    cases k <;> simp [relHolds, relOn, hgt, hgt.le, hgt.ne']

/-- A comparison raises no flag but NV. -/
theorem fpRel_flags (f : Fmt) (k : Rel) (x y : Nat) : (fpRel f k x y).2 = 0 ∨ (fpRel f k x y).2 = flagNV := by
  unfold fpRel flagsInvalid
  dsimp only
  split
  · exact .inr rfl
  · exact .inl rfl

theorem toSigned_src (s : State) (base n : Nat) (r : WReg) :
    toSigned n (s.src base n r) = ((s.getW base r).setWidth n).toInt := by
  rw [src_eq, toSigned_toNat]

/-- Low bits are equal as signed numbers exactly when they are equal as unsigned ones. -/
theorem toInt_setWidth_inj (n : Nat) (x y : Word) :
    (x.setWidth n).toInt = (y.setWidth n).toInt ↔ x.toNat % 2 ^ n = y.toNat % 2 ^ n := by
  rw [BitVec.toInt_inj, ← BitVec.toNat_inj, BitVec.toNat_setWidth, BitVec.toNat_setWidth]

theorem dst_b2n (s : State) (base : Nat) (d : WReg) (v : Bool) :
    s.dst base 64 d (b2n v) = s.setW base d (if v then 1 else 0) := by
  cases v <;> rfl

/-- A register written, flags raised and the PC past the instruction: the result of a comparison. -/
theorem setW_orFlags_advPc {s : State} (hmem : Memory.wf s.mem = true) (base : Nat) (d : WReg) (v : Word) {flags : Nat}
    (hflags : flags < 2 ^ 64) :
    let t := ((s.setW base d v).orFlags base flags).advPc base 8
    t.getW base d = v ∧ t.ws base offFpflags = s.ws base offFpflags ||| flags ∧ t.pc base = s.pc base + 8 ∧
      Stores s t [(base + 8 * d.val, 8), (base + offFpflags, 8), (base + offPc, 8)] := by
  have hreg : Memory.wf (s.setW base d v).mem = true := State.wr_wf _ _ _ hmem
  have hfl : Memory.wf ((s.setW base d v).orFlags base flags).mem = true := State.wr_wf _ _ _ hreg
  refine ⟨?_, ?_, ?_, ?_⟩
  · rw [State.getW_advPc hfl, State.orFlags, State.getW_setWs hreg _ _ _ _ (by decide), State.getW_setW hmem]
  · have hor : s.ws base offFpflags ||| flags < 2 ^ 64 := Nat.or_lt_two_pow (State.ws_lt s base offFpflags) hflags
    rw [State.advPc, State.setPc, State.ws_setWs_other hfl _ _ _ _ (by decide), State.orFlags, State.ws_setWs hreg,
      State.ws_setW hmem _ _ _ _ (by decide), Nat.mod_eq_of_lt hor]
  · rw [State.pc_advPc hfl, State.orFlags, State.pc, State.ws_setWs_other hreg _ _ _ _ (by decide), ← State.pc,
      State.pc_setW hmem]
    rfl
  · exact (((Stores.refl s _).setW hmem base d v (by simp)).setWs hreg base offFpflags _ (by simp)).advPc hfl base 8
      (by simp)

/-- `scmp` writes whether the relation holds, with the flags of the comparison. -/
theorem execScmp_of {s : State} (hmem : Memory.wf s.mem = true) (ty : Ty) (k : Rel) (d a b : WReg) {holds : Bool}
    {flags : Nat} (hflags : flags = 0 ∨ flags = flagNV)
    (h : (if ty.isInt then
        if ty.isSigned then
          (relHolds k (some (compare (toSigned ty.bits (s.src s.me.base ty.bits a))
            (toSigned ty.bits (s.src s.me.base ty.bits b)))), 0)
        else (relHolds k (some (compare (s.src s.me.base ty.bits a) (s.src s.me.base ty.bits b))), 0)
      else fpRel (fmtOf ty) k (s.src s.me.base ty.bits a) (s.src s.me.base ty.bits b)) = (holds, flags)) :
    ∃ t, execScmp ty k d a b s = .next t ∧ t.getW s.me.base d = (if holds then 1 else 0) ∧
      t.ws s.me.base offFpflags = s.ws s.me.base offFpflags ||| flags ∧ t.pc s.me.base = s.pc s.me.base + 8 ∧
      Stores s t [(s.me.base + 8 * d.val, 8), (s.me.base + offFpflags, 8), (s.me.base + offPc, 8)] ∧
      (flags = 0 ∨ flags = flagNV) := by
  have hlt : flags < 2 ^ 64 := by rcases hflags with rfl | rfl <;> decide
  refine ⟨_, rfl, ?_⟩
  simp only [h, dst_b2n]
  obtain ⟨hreg, hfl, hpc, hstores⟩ := setW_orFlags_advPc hmem s.me.base d (if holds then 1 else 0) hlt
  exact ⟨hreg, hfl, hpc, hstores, hflags⟩

/-- A predicate register written and the PC past the instruction. -/
theorem setP_advPc {s : State} (hmem : Memory.wf s.mem = true) (base : Nat) (d : PReg) (v : Word) :
    let t := (s.setP base d v).advPc base 8
    t.getP base d = v ∧ t.pc base = s.pc base + 8 ∧ Stores s t [(base + offP + 8 * d.val, 8), (base + offPc, 8)] := by
  have hwf : Memory.wf (s.setP base d v).mem = true := State.wr_wf _ _ _ hmem
  have hapart : base + offP + 8 * d.val + 8 ≤ base + offPc := by
    have := d.isLt; simp only [offP, offPc]; omega
  refine ⟨?_, ?_, ?_⟩
  · rw [State.advPc, State.setPc, State.setWs, State.getP, State.rd_wr_out hwf _ _ _ _ _ (.inl hapart), ← State.getP,
      State.getP_setP hmem]
  · rw [State.pc_advPc hwf, State.pc, State.setP, State.ws_wr_out hmem _ _ _ _ _ (.inr hapart)]
    rfl
  · exact ((Stores.refl s _).setP hmem base d v (by simp)).advPc hwf base 8 (by simp)

/-- Settles O3: `scmp` by the order of its type, the predicate instructions by the one register that each writes. -/
theorem compareAndPredicateResults : Obligations.CompareAndPredicateResults := by
  refine ⟨fun s ty k d a b hmem => ?_, fun s d a b w hmem => ⟨?_, ⟨_, rfl, wroteW_of hmem w _ 8⟩⟩⟩
  · refine execScmp_of hmem ty k d a b ?_ ?_
    · split
      · exact .inl rfl
      · exact fpRel_flags _ _ _ _
    · by_cases hint : ty.isInt
      · simp only [hint, if_true, toSigned_src, relHolds_compare]
        split
        · cases k <;> simp only [relOn, ne_eq, toInt_setWidth_inj]
        · simp only [State.src]
          cases k <;> rw [relOn]
      · simp only [hint]
        rfl
  · simp only [List.forall_mem_cons, List.not_mem_nil, false_implies, implies_true, and_true]
    exact ⟨⟨_, rfl, setP_advPc hmem _ d _⟩, ⟨_, rfl, setP_advPc hmem _ d _⟩, ⟨_, rfl, setP_advPc hmem _ d _⟩,
      ⟨_, rfl, setP_advPc hmem _ d _⟩, ⟨_, rfl, setP_advPc hmem _ d _⟩, ⟨_, rfl, setP_advPc hmem _ d _⟩⟩

/-! ### Branches and jumps (R310, R311) -/

section
variable {s : State} (hmem : Memory.wf s.mem = true) (me : Me) (v : Word)
include hmem

/-- A jump goes to its target, fetches it anew, and writes nothing but the PC. -/
theorem jumpPc_goes :
    (s.jumpPc me v).pc me.base = v ∧ ((s.jumpPc me v).slot me.slot).block = none ∧
      ∀ x, (x < me.base + offPc ∨ me.base + offPc + 8 ≤ x) → mget (s.jumpPc me v).mem x = mget s.mem x :=
  ⟨State.pc_setPc hmem me.base v, by simp [State.jumpPc], fun x hx => mget_mwrite_out hmem _ 8 _ x hx⟩

theorem State.getW_jumpPc (r : WReg) : (s.jumpPc me v).getW me.base r = s.getW me.base r :=
  State.getW_setPc hmem me.base r v

end

section
variable {s : State} (hmem : Memory.wf s.mem = true) (taken : Bool) (imm : Imm) (me : Me)
include hmem

/-- A branch goes to its target or past itself, and writes nothing but the PC; when taken, its target is fetched
anew. -/
theorem branch_goes :
    (branch taken imm me s).pc me.base =
        (if taken then s.pc me.base + 4 * imm.val else s.pc me.base + BitVec.ofNat 64 (Imm.len imm)) ∧
      (∀ x, (x < me.base + offPc ∨ me.base + offPc + 8 ≤ x) → mget (branch taken imm me s).mem x = mget s.mem x) ∧
      (taken = true → ((branch taken imm me s).slot me.slot).block = none) ∧
      branch taken imm me s = { s with mem := (branch taken imm me s).mem, slots := (branch taken imm me s).slots } := by
  cases taken with
  | true =>
    obtain ⟨hpc, hblock, hkeeps⟩ := jumpPc_goes hmem me (branchTarget (s.pc me.base) imm.val)
    exact ⟨hpc, hkeeps, fun _ => hblock, rfl⟩
  | false =>
    exact ⟨State.pc_advPc hmem me.base _, fun x hx => mget_mwrite_out hmem _ 8 _ x hx,
      fun htaken => absurd htaken Bool.false_ne_true, rfl⟩

theorem getW_branch (r : WReg) : (branch taken imm me s).getW me.base r = s.getW me.base r := by
  cases taken with
  | true => exact State.getW_jumpPc hmem me _ r
  | false => exact State.getW_advPc hmem me.base _ r

/-- A branch that first writes a register, as `jal` and `loop` do: the branch of the state it leaves. -/
theorem branch_setW_goes (r : WReg) (v : Word) :
    let t := branch taken imm me (s.setW me.base r v)
    t.pc me.base = (if taken then s.pc me.base + 4 * imm.val else s.pc me.base + BitVec.ofNat 64 (Imm.len imm)) ∧
      (t.getW me.base r = v ∧
        ∀ x, (x < me.base + 8 * r.val ∨ me.base + 8 * r.val + 8 ≤ x) → (x < me.base + offPc ∨ me.base + offPc + 8 ≤ x) →
          mget t.mem x = mget s.mem x) ∧
      (taken = true → (t.slot me.slot).block = none) ∧ t = { s with mem := t.mem, slots := t.slots } := by
  have hwf : Memory.wf (s.setW me.base r v).mem = true := State.wr_wf _ _ _ hmem
  obtain ⟨hpc, hkeeps, hblock, hrest⟩ := branch_goes hwf taken imm me
  refine ⟨by rw [hpc, State.pc_setW hmem], ⟨?_, fun x hr hx => ?_⟩, hblock, hrest⟩
  · rw [getW_branch hwf, State.getW_setW hmem]
  · exact (hkeeps x hx).trans (mget_mwrite_out hmem _ 8 _ x hr)

end

/-- `jal` is a taken branch of the state in which its link is written. -/
theorem execJal_eq_branch {s : State} (hmem : Memory.wf s.mem = true) (d : WReg) (imm : Imm) :
    execJal d imm s = .next (branch true imm s.me
      (s.setW s.me.base d (s.pc s.me.base + BitVec.ofNat 64 (Imm.len imm)))) := by
  rw [branch, if_pos rfl, State.pc_setW hmem]
  rfl

section
variable (s : State) (d a : WReg)

theorem execJr_of_aligned (h : (s.getW s.me.base a).toNat % 4 = 0) :
    execJr a s = .next (s.jumpPc s.me (s.getW s.me.base a)) := if_neg (by simpa using h)

theorem execJr_of_misaligned (h : (s.getW s.me.base a).toNat % 4 ≠ 0) :
    execJr a s = .next (trapEntry s.me (align (s.getW s.me.base a).toNat 4 accFetch) s) := if_pos h

theorem execJalr_of_aligned (h : (s.getW s.me.base a).toNat % 4 = 0) :
    execJalr d a s = .next ((s.setW s.me.base d (s.pc s.me.base + 8)).jumpPc s.me (s.getW s.me.base a)) :=
  if_neg (by simpa using h)

theorem execJalr_of_misaligned (h : (s.getW s.me.base a).toNat % 4 ≠ 0) :
    execJalr d a s = .next (trapEntry s.me (align (s.getW s.me.base a).toNat 4 accFetch) s) := if_pos h

end

/-- Settles O4: the branches by `branch` and the jumps by `jumpPc`, after the register that some of them write. -/
theorem branchAndJumpResults : Obligations.BranchAndJumpResults := by
  refine ⟨fun s p d a imm hmem => ?_, fun s d a hmem => ⟨fun haligned => ⟨?_, ?_⟩, fun hmis => ⟨?_, ?_⟩⟩⟩
  · have hplain := fun taken => branch_goes hmem taken imm s.me
    refine ⟨⟨_, rfl, ?_⟩, ⟨_, rfl, hplain _⟩, ⟨_, rfl, hplain _⟩, ⟨_, rfl, hplain _⟩,
      ⟨_, execJal_eq_branch hmem d imm, branch_setW_goes hmem true imm s.me d _⟩,
      ⟨_, rfl, branch_setW_goes hmem _ imm s.me a _⟩⟩
    rw [bit_eq_testBit]
    exact hplain _
  · obtain ⟨hpc, hblock, hkeeps⟩ := jumpPc_goes hmem s.me (s.getW s.me.base a)
    exact ⟨_, execJr_of_aligned s a haligned, hpc, hblock, hkeeps⟩
  · have hwf : Memory.wf (s.setW s.me.base d (s.pc s.me.base + 8)).mem = true := State.wr_wf _ _ _ hmem
    obtain ⟨hpc, hblock, hkeeps⟩ := jumpPc_goes hwf s.me (s.getW s.me.base a)
    refine ⟨_, execJalr_of_aligned s d a haligned, hpc, ?_, hblock, fun x hd hx => ?_⟩
    · rw [State.getW_jumpPc hwf, State.getW_setW hmem]
    · exact (hkeeps x hx).trans (mget_mwrite_out hmem _ 8 _ x hd)
  · exact execJr_of_misaligned s a hmis
  · exact execJalr_of_misaligned s d a hmis

end Sys2Proof.Machine
end

section
/-! Herds on registers and slabs (R204 to R210, R371 to R374): how `hfound` runs where no record of its members lies in
another core, and the refutation of their statement by a core number that names no core (R24). -/

namespace Sys2Proof.Machine

open Sys2Proof

/-! ### `hfound` on near records (R208, R374) -/

/-- A seal with no deposit outstanding goes on (R213). -/
theorem runMicro_seal {me : Me} {s : State} (withdraw : Bool) (c : Cont)
    (hdeposits : ((rdvAction withdraw me s).ctx me.key).deposits = 0) :
    runMicro me false (.seal withdraw) c s = .cont c (rdvAction withdraw me s) := by
  simp only [runMicro, hdeposits, if_true]

/-- Records in the local memory of the issuing core's number are reached without a journey (R96). -/
theorem farPlaces_hfound_near {me : Me} {s : State} (v : Word)
    (hnear : ∀ i ∈ setBitsOf 256 (s.getH me.base .hf),
      (slabRec (clusterOf me.core) (s.hslab me.base) (s.hbase me.base + i) - localBase) / 0x100000 = me.core) :
    s.farPlaces me (.hfound v) = [] := by
  dsimp only [State.farPlaces]
  rw [List.filter_eq_nil_iff.mpr]
  · rfl
  · intro p hp
    split at hp
    · cases hp
    · obtain ⟨i, hi, rfl⟩ := List.mem_map.mp hp
      simp [hnear i hi]

/-- An instruction on the slab that reaches no other core yields its turns and makes no journey (R96, R208). -/
theorem runMicro_travel_near {me : Me} {s : State} {f : Finish} (c : Cont) (hnear : s.farPlaces me f = [])
    (hslab : f.onSlab = true) : runMicro me false (.travel f) c s = .cont c (s.yieldTurns me.core me.slot) := by
  simp only [runMicro, runTravel, hnear, List.isEmpty_nil, hslab, if_true]

/-- The answers are written when every member has a record and no line of it is lost (R374). -/
theorem runMicro_finish_hfound {me : Me} {s : State} (v : Word) (c : Cont)
    (hmembers : s.aboveQlast me.base (s.getH me.base .hf) = false)
    (hlost : s.slabLost me (s.getH me.base .hf) accRead = none) :
    runMicro me false (.finish (.hfound v)) c s = .cont c (doHfound me v s) := by
  change herdFinish me (.hfound v) c s = _
  simp only [herdFinish, hmembers, hlost, Bool.false_eq_true, if_false]

/-- `hfound` on near records is over in the step that issues it. -/
theorem exec_hfound_near {s : State} (a : WReg) (hslab : s.slabOk (clusterOf s.me.core) (s.hslab s.me.base) = true)
    (hentry : s.ownRdv s.me = none) (hdeposits : (s.ctx s.me.key).deposits = 0)
    (hnear : s.farPlaces s.me (.hfound (s.getW s.me.base a)) = [])
    (hmembers : s.aboveQlast s.me.base (s.getH s.me.base .hf) = false)
    (hlost : s.slabLost s.me (s.getH s.me.base .hf) accRead = none) :
    exec (.hfound a) s = .next (((doHfound s.me (s.getW s.me.base a) (s.yieldTurns s.me.core s.me.slot)).advPc
      s.me.base 8).clearWait s.me.key) := by
  have hseal : rdvAction false s.me s = s := by simp [rdvAction, hentry]
  have hstart : exec (.hfound a) s = .next (startProg s.me
      { prog := [.seal false, .travel (.hfound (s.getW s.me.base a)), .finish (.hfound (s.getW s.me.base a)), .adv 8] }
      s) := if_neg (by simp [hslab])
  rw [hstart, startProg, runProg_cons_cont rfl (runMicro_seal false _ (by rw [hseal]; exact hdeposits)), hseal,
    runProg_cons_cont rfl (runMicro_travel_near _ hnear rfl),
    runProg_cons_cont (s := s.yieldTurns s.me.core s.me.slot) rfl (runMicro_finish_hfound _ _ hmembers hlost)]
  rfl

/-! ### A core number past the last -/

/-- The workspace of frame 0 of the core number 384, one past the last (R24). -/
def strayBase : Nat := wsBase 384 0

/-- Context 7 in that frame, with query 0 found, and a slab of one record behind the frames of the same core number. -/
def strayHerd : State :=
  let s := { State.reset with turnCore := 384 }
  let s := s.setCtx 7 { loc := .frame 384 0, slot := some (384 * 16) }
  ((s.setWs strayBase offCtxn 7).setWs strayBase offHslab 0x40000).setH strayBase .hf 1

theorem strayHerd_mem_wf : Memory.wf strayHerd.mem = true :=
  State.wr_wf _ _ _ (State.wr_wf _ _ _ (State.wr_wf _ _ _ reset_mem_wf))

theorem strayHerd_meOf : strayHerd.meOf strayHerd.me.key = some strayHerd.me := by decide

theorem strayHerd_net : strayHerd.net = [] := rfl

theorem strayHerd_slabOk :
    strayHerd.slabOk (clusterOf strayHerd.me.core) (strayHerd.hslab strayHerd.me.base) = true := by decide

theorem strayHerd_hf : strayHerd.getH strayHerd.me.base .hf = 1 := by decide

theorem setBitsOf_one : setBitsOf 256 1 = [0] := by decide

/-- The one member is query 0. -/
theorem eq_zero_of_strayHerd_hf {i : Nat} (hi : i < 256)
    (hbit : bit (strayHerd.getH strayHerd.me.base .hf) i = true) : i = 0 := by
  have hmember : i ∈ setBitsOf 256 1 := List.mem_filter.mpr ⟨List.mem_range.mpr hi, strayHerd_hf ▸ hbit⟩
  simpa [setBitsOf_one] using hmember

/-- The record of query 0. -/
def strayRec : Nat :=
  slabRec (clusterOf strayHerd.me.core) (strayHerd.hslab strayHerd.me.base) (strayHerd.hbase strayHerd.me.base + 0)

theorem strayRec_usable :
    strayHerd.hbase strayHerd.me.base + 0 ≤ slabQlast (strayHerd.hslab strayHerd.me.base) ∧
      strayHerd.lostIn strayRec 64 = none ∧
      (strayRec + 64 ≤ strayHerd.me.base ∨ strayHerd.me.base + 4096 ≤ strayRec) := by decide

/-- By the physical map (R32) the record lies in no core's local memory. -/
theorem regionOf_strayRec : regionOf strayRec ≠ .local strayHerd.me.core := by decide

/-- By its place the record is in the issuing core's own local memory, if that number had one. -/
theorem strayHerd_farPlaces (v : Word) : strayHerd.farPlaces strayHerd.me (.hfound v) = [] := by
  have hcore : (strayRec - localBase) / 0x100000 = strayHerd.me.core := by decide
  refine farPlaces_hfound_near v fun i hi => ?_
  rw [strayHerd_hf, setBitsOf_one, List.mem_singleton] at hi
  exact hi ▸ hcore

/-- So `hfound` leaves its context waiting for nothing. -/
theorem exec_hfound_strayHerd : ∃ t, exec (.hfound 0) strayHerd = .next t ∧ t.waitOf strayHerd.me.key = none :=
  ⟨_, exec_hfound_near 0 strayHerd_slabOk (by decide) (by decide) (strayHerd_farPlaces _) (by decide) (by decide),
    by simp [State.waitOf]⟩

/-- Refutes O31: nothing bounds the number of the issuing core. The record of `strayHerd` is far by its region (R32) and near
by its place, so that `hfound` ends in the step where the statement has its slot wait for a reply. -/
theorem not_herdInstructionResults : ¬ Obligations.HerdInstructionResults := by
  unfold Obligations.HerdInstructionResults
  rintro ⟨-, hslabs⟩
  obtain ⟨-, -, -, hvalid⟩ := hslabs strayHerd .n8 false false 0 0 0 strayHerd_mem_wf
  obtain ⟨-, -, -, hfound, -⟩ := hvalid strayHerd_slabOk (by decide)
  obtain ⟨-, hjourney⟩ := hfound fun i hi hbit => eq_zero_of_strayHerd_hf hi hbit ▸ strayRec_usable
  obtain ⟨t, -, hexec, hwait, -⟩ := hjourney ⟨0, by decide, by decide, regionOf_strayRec⟩ strayHerd_meOf
    (by decide) (by decide) (by simp [strayHerd_net])
  obtain ⟨t', hexec', hwait'⟩ := exec_hfound_strayHerd
  cases hexec.symm.trans hexec'
  exact absurd (hwait.symm.trans hwait') (by simp)

end Sys2Proof.Machine
end

section
/-! Exceptions and returns (R243 to R249, R402, R403, R412): the laws of the fault record, of the registers that trap
entry and `eret` exchange, and of a fatal context; the effects of trap entry; and the settling of the statement on
`trap`, `udf`, `brk` and `eret`. -/

namespace Sys2Proof.Machine

open Sys2Proof

/-! ### One write -/

/-- A byte outside a written range is as before. -/
theorem State.mget_wr_out {s : State} (hmem : Memory.wf s.mem = true) (a n v x : Nat) (hout : x < a ∨ a + n ≤ x) :
    mget (s.wr a n v).mem x = mget s.mem x := mget_mwrite_out hmem a n v x hout

/-- A range that does not meet the PC reads as before a jump. -/
theorem State.rd_jumpPc_out {s : State} (hmem : Memory.wf s.mem = true) (me : Me) (target : Word) (b k : Nat)
    (hout : b + k ≤ me.base + offPc ∨ me.base + offPc + 8 ≤ b) : (s.jumpPc me target).rd b k = s.rd b k :=
  State.rd_wr_out hmem (me.base + offPc) 8 target.toNat b k hout

/-! ### Fields stored one after another, as a fault record is (R246) -/

/-- A field to be stored: its offset from an address, its length in bytes, and the number that it receives. -/
structure Put where
  off : Nat
  len : Nat
  val : Nat

/-- The fields of a list stored from an address, in order. -/
def State.putAll (s : State) (a : Nat) (ps : List Put) : State := ps.foldl (fun s p => s.wr (a + p.off) p.len p.val) s

/-- Two fields that share no byte. -/
def Put.Apart (p q : Put) : Prop := p.off + p.len ≤ q.off ∨ q.off + q.len ≤ p.off

theorem State.putAll_cons (s : State) (a : Nat) (p : Put) (ps : List Put) :
    s.putAll a (p :: ps) = (s.wr (a + p.off) p.len p.val).putAll a ps := rfl

@[simp] theorem State.putAll_parts (s : State) (a : Nat) (ps : List Put) : (s.putAll a ps).parts = s.parts := by
  induction ps generalizing s with
  | nil => rfl
  | cons p ps ih => exact ih (s.wr (a + p.off) p.len p.val)

@[simp] theorem State.putAll_dev (s : State) (a : Nat) (ps : List Put) : (s.putAll a ps).dev = s.dev := by
  induction ps generalizing s with
  | nil => rfl
  | cons p ps ih => exact ih (s.wr (a + p.off) p.len p.val)

theorem State.putAll_wf {s : State} (hmem : Memory.wf s.mem = true) (a : Nat) (ps : List Put) :
    Memory.wf (s.putAll a ps).mem = true := by
  induction ps generalizing s with
  | nil => exact hmem
  | cons p ps ih => exact ih (State.wr_wf _ _ _ hmem)

/-- A range that shares no byte with the fields reads as before. -/
theorem State.rd_putAll_out {s : State} (hmem : Memory.wf s.mem = true) (a : Nat) (ps : List Put) (b k : Nat)
    (hout : ∀ p ∈ ps, b + k ≤ a + p.off ∨ a + p.off + p.len ≤ b) : (s.putAll a ps).rd b k = s.rd b k := by
  induction ps generalizing s with
  | nil => rfl
  | cons p ps ih =>
    obtain ⟨hp, hps⟩ := List.forall_mem_cons.mp hout
    rw [State.putAll_cons, ih (State.wr_wf _ _ _ hmem) hps, State.rd_wr_out hmem _ _ _ _ _ hp]

/-- A byte outside the fields is as before. -/
theorem State.mget_putAll_out {s : State} (hmem : Memory.wf s.mem = true) (a : Nat) (ps : List Put) (x : Nat)
    (hout : ∀ p ∈ ps, x < a + p.off ∨ a + p.off + p.len ≤ x) : mget (s.putAll a ps).mem x = mget s.mem x := by
  induction ps generalizing s with
  | nil => rfl
  | cons p ps ih =>
    obtain ⟨hp, hps⟩ := List.forall_mem_cons.mp hout
    rw [State.putAll_cons, ih (State.wr_wf _ _ _ hmem) hps]
    exact State.mget_wr_out hmem _ _ _ x hp

/-- Of fields that are pairwise apart each reads back as the number stored, cut to its length. -/
theorem State.rd_putAll {s : State} (hmem : Memory.wf s.mem = true) (a : Nat) {ps : List Put}
    (hapart : ps.Pairwise Put.Apart) : ∀ p ∈ ps, (s.putAll a ps).rd (a + p.off) p.len = p.val % 256 ^ p.len := by
  induction ps generalizing s with
  | nil => exact fun p hp => absurd hp List.not_mem_nil
  | cons q qs ih =>
    obtain ⟨hq, hqs⟩ := List.pairwise_cons.mp hapart
    refine List.forall_mem_cons.mpr ⟨?_, ih (State.wr_wf _ _ _ hmem) hqs⟩
    have hout : ∀ p ∈ qs, a + q.off + q.len ≤ a + p.off ∨ a + p.off + p.len ≤ a + q.off := fun p hp =>
      (hq p hp).imp (by omega) (by omega)
    rw [State.putAll_cons, State.rd_putAll_out (State.wr_wf _ _ _ hmem) a qs _ _ hout, State.rd_wr hmem]

/-! ### The registers that trap entry and `eret` exchange (R243, R249) -/

/-- `w14`, `w15` and the privilege level written, as both trap entry and `eret` do. -/
def State.setHandlerRegs (s : State) (base : Nat) (v w : Word) (pl : Bool) : State :=
  ((s.setW base 14 v).setW base 15 w).setPl base pl

theorem eretRestore_eq (me : Me) (s : State) :
    eretRestore me s = s.setHandlerRegs me.base (BitVec.ofNat 64 (s.rd (me.base + offFault + 56) 8))
      (BitVec.ofNat 64 (s.rd (me.base + offFault + 64) 8)) false := rfl

section
variable {s : State} (hmem : Memory.wf s.mem = true) (base : Nat) (v w : Word) (pl : Bool)
include hmem

theorem State.setW_wf (r : WReg) : Memory.wf (s.setW base r v).mem = true := State.wr_wf _ _ _ hmem

theorem State.setHandlerRegs_wf : Memory.wf (s.setHandlerRegs base v w pl).mem = true :=
  State.wr_wf _ _ _ (State.setW_wf (State.setW_wf hmem base v 14) base w 15)

/-- A range apart from `w14`, `w15` and `CTXN` reads as before. -/
theorem State.rd_setHandlerRegs_out (b k : Nat) (hregs : b + k ≤ base + 112 ∨ base + 112 + 16 ≤ b)
    (hctxn : b + k ≤ base + offCtxn ∨ base + offCtxn + 8 ≤ b) : (s.setHandlerRegs base v w pl).rd b k = s.rd b k := by
  have h14 := State.setW_wf hmem base v 14
  have h15 := State.setW_wf h14 base w 15
  unfold State.setHandlerRegs State.setPl State.setWs
  rw [State.rd_wr_out h15 _ _ _ _ _ hctxn]
  unfold State.setW at h14 ⊢
  rw [State.rd_wr_out h14 _ _ _ _ _ (by change _ ≤ base + 120 ∨ base + 120 + 8 ≤ b; omega),
    State.rd_wr_out hmem _ _ _ _ _ (by change _ ≤ base + 112 ∨ base + 112 + 8 ≤ b; omega)]

/-- A byte apart from `w14`, `w15` and `CTXN` is as before. -/
theorem State.mget_setHandlerRegs_out (x : Nat) (hregs : x < base + 112 ∨ base + 112 + 16 ≤ x)
    (hctxn : x < base + offCtxn ∨ base + offCtxn + 8 ≤ x) :
    mget (s.setHandlerRegs base v w pl).mem x = mget s.mem x := by
  have h14 := State.setW_wf hmem base v 14
  have h15 := State.setW_wf h14 base w 15
  unfold State.setHandlerRegs State.setPl State.setWs
  rw [State.mget_wr_out h15 _ _ _ _ hctxn]
  unfold State.setW at h14 ⊢
  rw [State.mget_wr_out h14 _ _ _ _ (by change x < base + 120 ∨ base + 120 + 8 ≤ x; omega),
    State.mget_wr_out hmem _ _ _ _ (by change x < base + 112 ∨ base + 112 + 8 ≤ x; omega)]

theorem State.getW_setPl (r : WReg) : (s.setPl base pl).getW base r = s.getW base r :=
  State.getW_setWs hmem base r offCtxn _ (by decide)

theorem State.w14_setHandlerRegs : (s.setHandlerRegs base v w pl).getW base 14 = v := by
  have h14 := State.setW_wf hmem base v 14
  have h15 := State.setW_wf h14 base w 15
  rw [State.setHandlerRegs, State.getW_setPl h15, State.getW_setW_other h14 _ _ _ _ (by decide), State.getW_setW hmem]

theorem State.w15_setHandlerRegs : (s.setHandlerRegs base v w pl).getW base 15 = w := by
  have h14 := State.setW_wf hmem base v 14
  have h15 := State.setW_wf h14 base w 15
  rw [State.setHandlerRegs, State.getW_setPl h15, State.getW_setW h14]

theorem State.pl_setHandlerRegs : (s.setHandlerRegs base v w pl).pl base = pl :=
  State.pl_setPl (State.setW_wf (State.setW_wf hmem base v 14) base w 15) base pl

theorem State.numOf_setHandlerRegs : (s.setHandlerRegs base v w pl).numOf base = s.numOf base := by
  have h14 := State.setW_wf hmem base v 14
  have h15 := State.setW_wf h14 base w 15
  rw [State.setHandlerRegs, State.numOf_setPl h15]
  unfold State.numOf
  rw [State.ws_setW h14 base 15 offCtxn w (by decide), State.ws_setW hmem base 14 offCtxn v (by decide)]

theorem State.pc_setHandlerRegs : (s.setHandlerRegs base v w pl).pc base = s.pc base :=
  congrArg (BitVec.ofNat 64)
    (State.rd_setHandlerRegs_out hmem base v w pl (base + offPc) 8 (by unfold offPc; omega)
      (by unfold offPc offCtxn; omega))

end

/-! ### The context number and the privilege level across a jump -/

section
variable {s : State} (hmem : Memory.wf s.mem = true)
include hmem

/-- A jump keeps `CTXN`, and so what it names. -/
theorem State.ctxn_jumpPc (me : Me) (target : Word) :
    (s.jumpPc me target).ws me.base offCtxn = s.ws me.base offCtxn :=
  State.ws_setWs_other hmem me.base offPc offCtxn _ (by decide)

theorem State.pl_jumpPc (me : Me) (target : Word) : (s.jumpPc me target).pl me.base = s.pl me.base := by
  unfold State.pl; rw [State.ctxn_jumpPc hmem]

theorem State.numOf_jumpPc (me : Me) (target : Word) : (s.jumpPc me target).numOf me.base = s.numOf me.base := by
  unfold State.numOf; rw [State.ctxn_jumpPc hmem]

theorem State.pl_advPc (base len : Nat) : (s.advPc base len).pl base = s.pl base := by
  unfold State.pl
  rw [show (s.advPc base len).ws base offCtxn = s.ws base offCtxn from
    State.ws_setWs_other hmem base offPc offCtxn _ (by decide)]

end

/-! ### Trap entry at PL = 0 (R243, R246, R247) -/

/-- The fields of the fault record, in the order of R246. -/
def faultRecord (me : Me) (c : TrapInfo) (s : State) : List Put :=
  let x := s.ctx me.key
  [⟨0, 8, c.word⟩, ⟨8, 8, (rpcOf c (s.pc me.base)).toNat⟩, ⟨16, 8, (s.pc me.base).toNat⟩, ⟨24, 8, c.addr⟩,
    ⟨32, 8, s.gtOf me.core⟩, ⟨40, 8, c.info0⟩, ⟨48, 8, c.info1⟩, ⟨56, 8, (s.getW me.base 14).toNat⟩,
    ⟨64, 8, (s.getW me.base 15).toNat⟩, ⟨72, 8, 0⟩, ⟨80, 8, x.sign⟩, ⟨88, 8, x.lastdt.toNat⟩, ⟨96, 8, x.succp.toNat⟩,
    ⟨104, 24, 0⟩, ⟨128, 64, leNat c.rcopy⟩, ⟨192, 64, 0⟩]

/-- The offsets and lengths of R246. -/
def faultLayout : List (Nat × Nat) :=
  [(0, 8), (8, 8), (16, 8), (24, 8), (32, 8), (40, 8), (48, 8), (56, 8), (64, 8), (72, 8), (80, 8), (88, 8), (96, 8),
    (104, 24), (128, 64), (192, 64)]

theorem faultRecord_layout (me : Me) (c : TrapInfo) (s : State) :
    (faultRecord me c s).map (fun p => (p.off, p.len)) = faultLayout := rfl

theorem faultRecord_apart (me : Me) (c : TrapInfo) (s : State) : (faultRecord me c s).Pairwise Put.Apart := by
  have hlayout : faultLayout.Pairwise (fun p q => p.1 + p.2 ≤ q.1 ∨ q.1 + q.2 ≤ p.1) := by decide
  rw [← faultRecord_layout me c s, List.pairwise_map] at hlayout
  exact hlayout

theorem faultRecord_within (me : Me) (c : TrapInfo) (s : State) : ∀ p ∈ faultRecord me c s, p.off + p.len ≤ 256 := by
  have hlayout : ∀ e ∈ faultLayout, e.1 + e.2 ≤ 256 := by decide
  rw [← faultRecord_layout me c s] at hlayout
  exact List.forall_mem_map.mp hlayout

/-- The state of a context in its handler: the record stored, then the registers. -/
def enterHandler (me : Me) (c : TrapInfo) (s : State) : State :=
  (s.putAll (me.base + offFault) (faultRecord me c s)).setHandlerRegs me.base (BitVec.ofNat 64 c.addr)
    (BitVec.ofNat 64 c.word) true

/-- Where a cause is handled (R243). -/
def handlerOf (me : Me) (c : TrapInfo) (s : State) : Word :=
  BitVec.ofNat 64 ((s.part (s.partOf me.core)).tbase + 256 * c.cause.code)

/-- A handler's address depends on nothing that trap entry writes. -/
theorem handlerOf_enterHandler (me : Me) (c : TrapInfo) (s : State) :
    handlerOf me c (enterHandler me c s) = handlerOf me c s := by
  simp [handlerOf, enterHandler, State.setHandlerRegs, State.part, State.partOf, State.qmode]

theorem trapEntry_of_user {s : State} {me : Me} (c : TrapInfo) (hpl : s.pl me.base = false) :
    trapEntry me c s = ((enterHandler me c s).jumpPc me (handlerOf me c s)).yieldTurns me.core me.slot := by
  have hnot : ¬ s.pl me.base = true := by simp [hpl]
  rw [← handlerOf_enterHandler]
  unfold trapEntry
  dsimp only
  rw [if_neg hnot]
  rfl

/-- The turns that a slot gives up are no part of what trap entry writes. -/
theorem TrapTaken.yieldTurns {s t : State} {me : Me} {c : TrapInfo} (h : TrapTaken s t me c) (core slot : Nat) :
    TrapTaken s (t.yieldTurns core slot) me c := h

section
variable {s : State} (hmem : Memory.wf s.mem = true) (me : Me) (c : TrapInfo)
include hmem

theorem enterHandler_wf : Memory.wf (enterHandler me c s).mem = true := by
  unfold enterHandler
  exact State.setHandlerRegs_wf (State.putAll_wf hmem _ _) _ _ _ _

/-- The registers and the jump leave the record as it was stored. -/
theorem rd_faultRecord_of_enter (target : Word) : ∀ p ∈ faultRecord me c s,
    ((enterHandler me c s).jumpPc me target).rd (me.base + offFault + p.off) p.len = p.val % 256 ^ p.len := by
  intro p hp
  have hput := State.putAll_wf hmem (me.base + offFault) (faultRecord me c s)
  rw [State.rd_jumpPc_out (enterHandler_wf hmem me c) _ _ _ _ (by unfold offPc offFault; omega), enterHandler,
    State.rd_setHandlerRegs_out hput _ _ _ _ _ _ (by unfold offFault; omega) (by unfold offCtxn offFault; omega)]
  exact State.rd_putAll hmem _ (faultRecord_apart me c s) p hp

/-- Trap entry leaves the context number. -/
theorem numOf_enterHandler : (enterHandler me c s).numOf me.base = s.numOf me.base := by
  rw [enterHandler, State.numOf_setHandlerRegs (State.putAll_wf hmem _ _)]
  unfold State.numOf State.ws
  rw [State.rd_putAll_out hmem _ _ _ _ fun p _ => by unfold offCtxn offFault; omega]

/-- Bytes outside the record, `w14`, `w15` and `CTXN` are as before. -/
theorem mget_enterHandler_out (x : Nat) (hrecord : x < me.base + offFault ∨ me.base + offFault + 256 ≤ x)
    (hregs : x < me.base + 112 ∨ me.base + 112 + 16 ≤ x)
    (hctxn : x < me.base + offCtxn ∨ me.base + offCtxn + 8 ≤ x) :
    mget (enterHandler me c s).mem x = mget s.mem x := by
  rw [enterHandler, State.mget_setHandlerRegs_out (State.putAll_wf hmem _ _) _ _ _ _ x hregs hctxn]
  refine State.mget_putAll_out hmem _ _ x fun p hp => ?_
  have := faultRecord_within me c s p hp
  omega

/-- Trap entry at PL = 0 does what R243, R246 and R247 say, for every cause. -/
theorem trapEntry_taken (hpl : s.pl me.base = false) : TrapTaken s (trapEntry me c s) me c := by
  rw [trapEntry_of_user c hpl]
  apply TrapTaken.yieldTurns
  have hwf := enterHandler_wf hmem me c
  have hput := State.putAll_wf hmem (me.base + offFault) (faultRecord me c s)
  obtain ⟨hpc, hblock, hkeeps⟩ := jumpPc_goes hwf me (handlerOf me c s)
  have hrecord := rd_faultRecord_of_enter hmem me c (handlerOf me c s)
  simp only [faultRecord, List.forall_mem_cons, Nat.add_zero, Nat.zero_mod, pow_256, Nat.reduceMul] at hrecord
  obtain ⟨hword, hrpc, hfpc, haddr, hgt, hinfo0, hinfo1, hw14, hw15, haction, hsign, hlastdt, hsuccp, hzero, hrcopy,
    hlast, -⟩ := hrecord
  have hfits : ∀ v : Word, v.toNat % 2 ^ 64 = v.toNat := fun v => Nat.mod_eq_of_lt v.isLt
  rw [hfits] at hrpc hfpc hw14 hw15 hlastdt hsuccp
  refine ⟨hword, hrpc, hfpc, haddr, hgt, hinfo0, hinfo1, hw14, hw15, haction, hsign, hlastdt, hsuccp, hzero, hrcopy,
    hlast, ?_, ?_, ?_, ?_, hpc, hblock, ?_⟩
  · rw [State.getW_jumpPc hwf, enterHandler, State.w14_setHandlerRegs hput]
  · rw [State.getW_jumpPc hwf, enterHandler, State.w15_setHandlerRegs hput]
  · rw [State.pl_jumpPc hwf, enterHandler, State.pl_setHandlerRegs hput]
  · rw [State.numOf_jumpPc hwf, numOf_enterHandler hmem]
  · simp only [List.forall_mem_cons]
    rintro x ⟨hfault, hregs, hatpc, hctxn, -⟩
    exact (hkeeps x hatpc).trans (mget_enterHandler_out hmem me c x hfault hregs hctxn)

end

/-! ### A fatal context (R248, R259) -/

section
variable (s : State) (key core slot record gt : Nat)

/-- The mark that a fatal context bears, unless a kill has marked it before. -/
def markFatal (gt : Nat) (c : Ctx) : Ctx :=
  if c.killing then c else { c with killing := true, why := .fault, killGt := gt }

theorem killing_markFatal (c : Ctx) : (markFatal gt c).killing = true := by
  unfold markFatal; split
  · assumption
  · rfl

theorem slot_markFatal (c : Ctx) : (markFatal gt c).slot = c.slot := by unfold markFatal; split <;> rfl

/-- What `fatal` makes of its context: it waits to end, marked. -/
theorem ctx_fatal : (fatal key core slot record gt s).ctx key =
    markFatal gt { s.ctx key with wait := some { block := .ending } } :=
  (State.ctx_modCtx_same _ key (markFatal gt)).trans (congrArg (markFatal gt) (State.ctx_modCtx_same _ key _))

theorem killing_fatal : ((fatal key core slot record gt s).ctx key).killing = true := by
  rw [ctx_fatal, killing_markFatal]

theorem slot_fatal : ((fatal key core slot record gt s).ctx key).slot = (s.ctx key).slot := by
  rw [ctx_fatal, slot_markFatal]

/-- The fatal records of a partition after a cause of a context: with a nested record in the one that stands there
(R261), or with a new one. -/
def fatalRecords (new : FatalRec) (rs : List FatalRec) : List FatalRec :=
  if rs.any (fun r => r.ctx = new.ctx) then
    rs.map (fun r =>
      if r.ctx ≠ new.ctx then r
      else if 15 ≤ r.nested.length then { r with trunc := true }
      else { r with nested := r.nested ++ [(new.gt, new.record)] })
  else rs ++ [new]

theorem fatalRecords_any (new : FatalRec) (rs : List FatalRec) :
    (fatalRecords new rs).any (fun r => r.ctx = new.ctx) = true := by
  unfold fatalRecords
  split
  next hstands =>
    obtain ⟨r, hr, hctx⟩ := List.any_eq_true.mp hstands
    rw [List.any_map]
    refine List.any_eq_true.mpr ⟨r, hr, ?_⟩
    have hsame : r.ctx = new.ctx := by simpa using hctx
    simp only [Function.comp, hsame, ne_eq, not_true_eq_false, if_false]
    split <;> simp
  next => simp

/-- Its partition holds a record of it. -/
theorem recorded_fatal :
    ((fatal key core slot record gt s).part (key / 2 ^ 24)).fatal.any (fun r => r.ctx = key) = true := by
  have hpart : (fatal key core slot record gt s).part (key / 2 ^ 24) = _ := State.part_setPart_same s (key / 2 ^ 24) _
  rw [hpart]
  exact fatalRecords_any { ctx := key, gt := gt, record := record, frame := _, locid := locid core slot, queued := _ } _

theorem trapEntry_fatal {s : State} {me : Me} (c : TrapInfo) (hpl : s.pl me.base = true) :
    FatalTaken s (trapEntry me c s) me.key := by
  have hentry : trapEntry me c s = (fatal me.key me.core (me.slot % 16) (packFields (c.fields
      (rpcOf c (s.pc me.base)).toNat (s.pc me.base).toNat (s.gtOf me.core)) + leNat c.rcopy * 2 ^ (8 * 128))
      (s.gtOf me.core) s).yieldTurns me.core me.slot := if_pos hpl
  rw [hentry]
  exact ⟨rfl, killing_fatal .., slot_fatal .., recorded_fatal ..⟩

end

/-! ### `trap`, `udf` and `brk` (R276, R402, R412) -/

/-- A cause enters its handler at PL = 0 and makes its context fatal at PL = 1 (R243, R248). -/
theorem trap_or {s : State} (hmem : Memory.wf s.mem = true) (c : TrapInfo) : TrapOr s (trap c s) s.me c :=
  ⟨trapEntry_taken hmem s.me c, trapEntry_fatal c⟩

theorem exec_trap (s : State) (code : BitVec 24) :
    exec (.trap code) s = .next (trap { cause := .call, info0 := code.toNat } s) := rfl

theorem exec_udf (s : State) (bits : BitVec 64) :
    exec (.udf bits) s = .next (trap { cause := .ill, info0 := bits.toNat } s) := rfl

section
variable {s : State} (code : BitVec 24)

theorem exec_brk_unclaimed (hclaim : ¬ (s.cluster (clusterOf s.me.core)).dbg.brkclaim = true) :
    exec (.brk code) s = .next (trap { cause := .brk, info0 := code.toNat } s) := if_neg hclaim

theorem exec_brk_claimed (hclaim : (s.cluster (clusterOf s.me.core)).dbg.brkclaim = true) :
    exec (.brk code) s = .next (haltCluster (clusterOf s.me.core) (s.advPc s.me.base 8)) := if_pos hclaim

end

/-- A table whose entries are changed under their keys holds what it held at a key that the change leaves alone. -/
theorem tget_map_of_fixed {α : Type} [Inhabited α] {f : Nat × α → Nat × α} {a : Nat} (hkey : ∀ e, (f e).1 = e.1)
    (hfixed : ∀ v, f (a, v) = (a, v)) (t : Tbl α) : tget (t.map f) a = tget t a := by
  induction t with
  | nil => rfl
  | cons e r ih =>
    obtain ⟨k, v⟩ := e
    obtain ⟨v', hv'⟩ : ∃ v', f (k, v) = (k, v') := ⟨(f (k, v)).2, Prod.ext (hkey (k, v)) rfl⟩
    rw [List.map_cons, hv', tget, tget, ih]
    by_cases hk : a = k
    · subst hk
      have hv : v' = v := congrArg Prod.snd (hv'.symm.trans (hfixed v))
      rw [if_pos rfl, if_pos rfl, hv]
    · rw [if_neg hk, if_neg hk]

/-- The cross-trigger does not reach the cluster that drives it (R275). -/
theorem cluster_driveTrigger (cl : Nat) (s : State) : (driveTrigger cl s).cluster cl = s.cluster cl := by
  refine tget_map_of_fixed (fun e => ?_) (fun v => ?_) s.clusters
  · dsimp only; split <;> rfl
  · simp

theorem mem_haltCluster (cl : Nat) (s : State) : (haltCluster cl s).mem = s.mem := by
  unfold haltCluster
  split
  · dsimp only; split <;> rfl
  · rfl

/-- A running cluster begins to halt (R275). -/
theorem state_haltCluster {cl : Nat} {s : State} (hrun : (s.cluster cl).dbg.state = 0) :
    ((haltCluster cl s).cluster cl).dbg.state = 1 := by
  unfold haltCluster
  rw [if_pos hrun]
  dsimp only
  split
  · rw [cluster_driveTrigger, State.cluster_modCluster_same]
  · rw [State.cluster_modCluster_same]

/-! ### `eret` (R249, R403) -/

/-- What every return restores: `w14`, `w15` and PL, with nothing else written but the PC (R249). -/
def Restored (s t : State) (me : Me) : Prop :=
  t.getW me.base 14 = BitVec.ofNat 64 (s.rd (me.base + offFault + 56) 8) ∧
  t.getW me.base 15 = BitVec.ofNat 64 (s.rd (me.base + offFault + 64) 8) ∧ t.pl me.base = false ∧
  Keeps s t [(me.base + 112, 16), (me.base + offPc, 8), (me.base + offCtxn, 8)]

/-- A change that leaves memory leaves what was restored. -/
theorem Restored.of_mem {s t u : State} {me : Me} (h : Restored s t me) (hu : u.mem = t.mem) : Restored s u me := by
  simpa only [Restored, Keeps, State.getW, State.pl, State.ws, State.rd, hu] using h

theorem State.pc_of_mem {s t : State} (ht : t.mem = s.mem) (base : Nat) : t.pc base = s.pc base := by
  simp only [State.pc, State.ws, State.rd, ht]

theorem State.pl_of_mem {s t : State} (ht : t.mem = s.mem) (base : Nat) : t.pl base = s.pl base := by
  simp only [State.pl, State.ws, State.rd, ht]

@[simp] theorem eretRestore_parts (me : Me) (s : State) : (eretRestore me s).parts = s.parts := by
  simp [eretRestore_eq, State.setHandlerRegs]
@[simp] theorem eretRestore_ctxs (me : Me) (s : State) : (eretRestore me s).ctxs = s.ctxs := by
  simp [eretRestore_eq, State.setHandlerRegs]

section
variable {s : State} (hmem : Memory.wf s.mem = true) (me : Me)
include hmem

theorem eretRestore_wf : Memory.wf (eretRestore me s).mem = true := by
  rw [eretRestore_eq]; exact State.setHandlerRegs_wf hmem _ _ _ _

theorem eretRestore_restored : Restored s (eretRestore me s) me := by
  rw [eretRestore_eq]
  refine ⟨State.w14_setHandlerRegs hmem _ _ _ _, State.w15_setHandlerRegs hmem _ _ _ _,
    State.pl_setHandlerRegs hmem _ _ _ _, ?_⟩
  simp only [Keeps, List.forall_mem_cons]
  rintro x ⟨hregs, -, hctxn, -⟩
  exact State.mget_setHandlerRegs_out hmem _ _ _ _ x hregs hctxn

theorem pc_eretRestore : (eretRestore me s).pc me.base = s.pc me.base := by
  rw [eretRestore_eq]; exact State.pc_setHandlerRegs hmem _ _ _ _

/-- The jump of a return to its RPC keeps what was restored. -/
theorem eretRestore_jumpPc_restored (target : Word) : Restored s ((eretRestore me s).jumpPc me target) me := by
  have hwf := eretRestore_wf hmem me
  obtain ⟨hw14, hw15, hpl, hkeeps⟩ := eretRestore_restored hmem me
  obtain ⟨-, -, hout⟩ := jumpPc_goes hwf me target
  refine ⟨?_, ?_, ?_, fun x hx => (hout x ?_).trans (hkeeps x hx)⟩
  · rw [State.getW_jumpPc hwf, hw14]
  · rw [State.getW_jumpPc hwf, hw15]
  · rw [State.pl_jumpPc hwf, hpl]
  · exact hx (me.base + offPc, 8) (by simp)

end

/-- A kill marks its context. -/
theorem killing_markKill (key : Nat) (s : State) : ((markKill key s).ctx key).killing = true := by
  rw [markKill, State.ctx_modCtx_same]
  split
  · assumption
  · rfl

/-- The way on by ACTION 1: the context waits to end, marked for a kill (R249). -/
def returnKilled (me : Me) (s : State) : State :=
  (markKill me.key (s.setWait me.key { block := .ending })).yieldTurns me.core me.slot

/-- The way on by any other ACTION but 0: the context is killed, and its fault record kept for a dump (R249). -/
def returnDumped (me : Me) (s : State) : State :=
  (fatal me.key me.core (me.slot % 16) (s.rd (me.base + offFault) 256) (s.gtOf me.core) s).yieldTurns me.core me.slot

section
variable (me : Me) (s : State)

theorem mem_returnKilled : (returnKilled me s).mem = s.mem := rfl
theorem mem_returnDumped : (returnDumped me s).mem = s.mem := rfl
theorem parts_returnKilled : (returnKilled me s).parts = s.parts := rfl
theorem killing_returnKilled : ((returnKilled me s).ctx me.key).killing = true := killing_markKill me.key _
theorem killing_returnDumped : ((returnDumped me s).ctx me.key).killing = true := killing_fatal ..
theorem recorded_returnDumped :
    ((returnDumped me s).part (me.key / 2 ^ 24)).fatal.any (fun r => r.ctx = me.key) = true := recorded_fatal ..

end

section
variable {s : State}

theorem exec_eret_user (hpl : s.pl s.me.base = false) :
    exec .eret s = .next (trap { cause := .priv, info0 := (Instr.eret).first64.toNat } s) := if_pos (by simp [hpl])

/-- At PL = 1 `eret` goes by ACTION, and with ACTION 0 by the alignment of RPC. -/
theorem exec_eret_handler (hpl : s.pl s.me.base = true) :
    exec .eret s = .next (
      if s.rd (s.me.base + offFault + 72) 8 = 0 then
        if s.rd (s.me.base + offFault + 8) 8 % 4 ≠ 0 then
          trap (align (s.rd (s.me.base + offFault + 8) 8) 4 accFetch) s
        else (eretRestore s.me s).jumpPc s.me (BitVec.ofNat 64 (s.rd (s.me.base + offFault + 8) 8))
      else if s.rd (s.me.base + offFault + 72) 8 = 1 then returnKilled s.me (eretRestore s.me s)
      else returnDumped s.me (eretRestore s.me s)) := by
  have hnot : ¬ (!s.pl s.me.base) = true := by simp [hpl]
  change execEret s = _
  rw [execEret]
  dsimp only
  rw [if_neg hnot]
  split
  · split <;> rfl
  · split <;> rfl

variable (hpl : s.pl s.me.base = true)
include hpl

theorem exec_eret_misaligned (haction : s.rd (s.me.base + offFault + 72) 8 = 0)
    (hmis : s.rd (s.me.base + offFault + 8) 8 % 4 ≠ 0) :
    exec .eret s = .next (trap (align (s.rd (s.me.base + offFault + 8) 8) 4 accFetch) s) := by
  rw [exec_eret_handler hpl, if_pos haction, if_pos hmis]

theorem exec_eret_resume (haction : s.rd (s.me.base + offFault + 72) 8 = 0)
    (haligned : s.rd (s.me.base + offFault + 8) 8 % 4 = 0) :
    exec .eret s = .next ((eretRestore s.me s).jumpPc s.me (BitVec.ofNat 64 (s.rd (s.me.base + offFault + 8) 8))) := by
  rw [exec_eret_handler hpl, if_pos haction, if_neg (not_not.mpr haligned)]

theorem exec_eret_kill (haction : s.rd (s.me.base + offFault + 72) 8 = 1) :
    exec .eret s = .next (returnKilled s.me (eretRestore s.me s)) := by
  rw [exec_eret_handler hpl, if_neg (by omega), if_pos haction]

theorem exec_eret_dump (haction : 2 ≤ s.rd (s.me.base + offFault + 72) 8) :
    exec .eret s = .next (returnDumped s.me (eretRestore s.me s)) := by
  rw [exec_eret_handler hpl, if_neg (by omega), if_neg (by omega)]

end

section
variable {s : State} (hmem : Memory.wf s.mem = true) (hpl : s.pl s.me.base = true)
include hmem hpl

/-- ACTION 0 at an aligned RPC: the context is restored and goes on there. -/
theorem eret_resumes (haction : s.rd (s.me.base + offFault + 72) 8 = 0)
    (haligned : s.rd (s.me.base + offFault + 8) 8 % 4 = 0) : ∃ t, exec .eret s = .next t ∧ Restored s t s.me ∧
      t.pc s.me.base = BitVec.ofNat 64 (s.rd (s.me.base + offFault + 8) 8) ∧ t.ctxs = s.ctxs := by
  obtain ⟨hgoes, -, -⟩ := jumpPc_goes (eretRestore_wf hmem s.me) s.me
    (BitVec.ofNat 64 (s.rd (s.me.base + offFault + 8) 8))
  exact ⟨_, exec_eret_resume hpl haction haligned, eretRestore_jumpPc_restored hmem s.me _, hgoes,
    (State.jumpPc_ctxs _ _ _).trans (eretRestore_ctxs _ _)⟩

/-- ACTION 1: the context is restored and killed where it stands; no partition changes. -/
theorem eret_kills (haction : s.rd (s.me.base + offFault + 72) 8 = 1) : ∃ t, exec .eret s = .next t ∧
    Restored s t s.me ∧ t.pc s.me.base = s.pc s.me.base ∧ (t.ctx s.me.key).killing = true ∧ t.parts = s.parts := by
  refine ⟨_, exec_eret_kill hpl haction, (eretRestore_restored hmem s.me).of_mem (mem_returnKilled _ _), ?_,
    killing_returnKilled _ _, (parts_returnKilled _ _).trans (eretRestore_parts _ _)⟩
  rw [State.pc_of_mem (mem_returnKilled _ _), pc_eretRestore hmem]

/-- Any other ACTION: the context is restored, killed where it stands, and recorded for a dump. -/
theorem eret_dumps (haction : 2 ≤ s.rd (s.me.base + offFault + 72) 8) : ∃ t, exec .eret s = .next t ∧
    Restored s t s.me ∧ t.pc s.me.base = s.pc s.me.base ∧ (t.ctx s.me.key).killing = true ∧
    (t.part (s.me.key / 2 ^ 24)).fatal.any (fun r => r.ctx = s.me.key) = true := by
  refine ⟨_, exec_eret_dump hpl haction, (eretRestore_restored hmem s.me).of_mem (mem_returnDumped _ _), ?_,
    killing_returnDumped _ _, recorded_returnDumped _ _⟩
  rw [State.pc_of_mem (mem_returnDumped _ _), pc_eretRestore hmem]

end

/-- Settles O6: the causes by trap entry, `brk` under BRKCLAIM by `haltCluster`, and `eret` by its four ways on. -/
theorem trapAndReturnResults : Obligations.TrapAndReturnResults := by
  refine ⟨fun s code bits hmem => ⟨?_, fun hclaim hrun => ?_⟩, fun s hmem => ⟨fun hpl halign => ?_, ?_, ?_⟩⟩
  · refine List.forall_mem_append.mpr ⟨?_, ?_⟩
    · simp only [List.forall_mem_cons]
      exact ⟨⟨_, exec_trap s code, trap_or hmem _⟩, ⟨_, exec_udf s bits, trap_or hmem _⟩,
        fun _ h => absurd h List.not_mem_nil⟩
    · split
      next => exact fun _ h => absurd h List.not_mem_nil
      next hclaim => exact List.forall_mem_singleton.mpr ⟨_, exec_brk_unclaimed code hclaim, trap_or hmem _⟩
  · refine ⟨_, exec_brk_claimed code hclaim, ?_, state_haltCluster hrun, ?_⟩
    · rw [State.pc_of_mem (mem_haltCluster _ _), State.pc_advPc hmem]; rfl
    · rw [State.pl_of_mem (mem_haltCluster _ _), State.pl_advPc hmem]
  · by_cases hzero : s.rd (s.me.base + offFault + 72) 8 = 0
    · obtain ⟨t, hexec, ⟨hw14, hw15, huser, hkeeps⟩, hpc, hctxs⟩ := eret_resumes hmem hpl hzero (halign hzero)
      exact ⟨t, hexec, hw14, hw15, huser, fun _ => ⟨hpc, hctxs⟩, fun h => absurd hzero h, fun h => by omega,
        fun h => by omega, hkeeps⟩
    by_cases hone : s.rd (s.me.base + offFault + 72) 8 = 1
    · obtain ⟨t, hexec, ⟨hw14, hw15, huser, hkeeps⟩, hpc, hkilling, hparts⟩ := eret_kills hmem hpl hone
      exact ⟨t, hexec, hw14, hw15, huser, fun h => absurd h hzero, fun _ => ⟨hpc, hkilling⟩, fun _ => hparts,
        fun h => by omega, hkeeps⟩
    · obtain ⟨t, hexec, ⟨hw14, hw15, huser, hkeeps⟩, hpc, hkilling, hrecorded⟩ := eret_dumps hmem hpl (by omega)
      exact ⟨t, hexec, hw14, hw15, huser, fun h => absurd h hzero, fun _ => ⟨hpc, hkilling⟩, fun h => absurd h hone,
        fun _ => hrecorded, hkeeps⟩
  · exact fun hpl haction hmis => ⟨_, exec_eret_misaligned hpl haction hmis, trapEntry_fatal _ hpl⟩
  · exact fun hpl => ⟨_, exec_eret_user hpl, trapEntry_taken hmem s.me _ hpl⟩

end Sys2Proof.Machine
end
